-- ==== Sys2Proof/Word.lean ====
section
/-!
DEFINITION. The word types of the HL840 (R5, R6, R57, R61, R95): 32-bit words, bytes, 2-bit tags and
33-bit carry words.
-/
namespace Sys2Proof

/-- A word of an element register, a slot, a channel or a link (R31, R57). -/
abbrev Word := BitVec 32

/-- One byte of memory, of a block or of an image (R7). -/
abbrev Byte := BitVec 8

/-- The 2-bit tag that travels with a word on a link (R23, R57). -/
abbrev Tag := BitVec 2

/-- A 33-bit carry-link word: bit 32 the flag, bits 31 to 0 the word (R61). -/
abbrev Carry := BitVec 33

/-- A 5-bit source or destination code (R189, R191). -/
abbrev Code := BitVec 5

end Sys2Proof
end

