-- ==== Sys2Proof/Machine/Num.lean ====
section
/-!
DEFINITION. Numbers to the bit: IEEE formats on elements (R95 to R99), exact arithmetic before one rounding
(R96), minimum, maximum and comparison (R98, R227), conversions (R94), and integer division (R237).
-/
namespace Sys2Proof.Machine

/-- A value before it is rounded: NaN, an infinity, or ±m · 2^e exactly. -/
inductive Num where
  | nan
  | inf (neg : Bool)
  | fin (neg : Bool) (m : Nat) (e : Int)
  deriving DecidableEq, Repr, Inhabited

/-- A binary float format: exponent and fraction widths (R95). -/
structure FloatFmt where
  ew : Nat
  fw : Nat
  deriving DecidableEq, Repr

/-- FP32 (R95). -/
def fp32 : FloatFmt := ⟨8, 23⟩
/-- FP64 (R95). -/
def fp64 : FloatFmt := ⟨11, 52⟩
/-- FP16 (R95). -/
def fp16 : FloatFmt := ⟨5, 10⟩
/-- BF16 (R95). -/
def bf16 : FloatFmt := ⟨8, 7⟩

/-- Exponent bias. -/
def FloatFmt.bias (f : FloatFmt) : Nat := 2 ^ (f.ew - 1) - 1
/-- The exponent field of infinities and NaNs, shifted to its place. -/
def FloatFmt.infBits (f : FloatFmt) : Nat := (2 ^ f.ew - 1) * 2 ^ f.fw
/-- The sign bit. -/
def FloatFmt.signBit (f : FloatFmt) : Nat := 2 ^ (f.ew + f.fw)
/-- The canonical NaN (R95, R97). -/
def FloatFmt.canon (f : FloatFmt) : Nat := f.infBits + 2 ^ (f.fw - 1)

/-- The value of a pattern of a format (R95, R96: subnormals are kept). -/
def FloatFmt.decode (f : FloatFmt) (bits : Nat) : Num :=
  let neg := decide (bits / f.signBit % 2 = 1)
  let mag := bits % f.signBit
  if mag > f.infBits then .nan
  else if mag = f.infBits then .inf neg
  else
    let ef := mag / 2 ^ f.fw
    let fr := mag % 2 ^ f.fw
    let emin : Int := 1 - (f.bias : Int) - (f.fw : Int)
    if ef = 0 then .fin neg fr emin else .fin neg (2 ^ f.fw + fr) (emin + (ef : Int) - 1)

/-- Whether a magnitude is rounded away from zero: rounding mode (R99), sign, kept integer, and how the
discarded part compares with one half (0 none, 1 below, 2 equal, 3 above). -/
def roundsUp (mode : Nat) (neg : Bool) (kept : Nat) (part : Nat) : Bool :=
  match mode with
  | 0 => part = 3 || (part = 2 && kept % 2 = 1)
  | 1 => false
  | 2 => !neg && part ≠ 0
  | 3 => neg && part ≠ 0
  | _ => part ≥ 2

/-- m · 2^e rounded to a whole number of units 2^q. -/
def roundUnits (mode : Nat) (neg : Bool) (m : Nat) (e q : Int) : Nat :=
  if q ≤ e then m * 2 ^ (e - q).toNat
  else
    let d := 2 ^ (q - e).toNat
    let kept := m / d
    let r := m % d
    let part := if r = 0 then 0 else if 2 * r < d then 1 else if 2 * r = d then 2 else 3
    if roundsUp mode neg kept part then kept + 1 else kept

/-- Whether overflow goes to the infinity rather than the largest finite value (R96). -/
def overflowsToInf (mode : Nat) (neg : Bool) : Bool :=
  match mode with
  | 0 => true
  | 1 => false
  | 2 => !neg
  | 3 => neg
  | _ => true

/-- A value rounded once into a format by a mode (R96, R97, R99). -/
def FloatFmt.round (f : FloatFmt) (mode : Nat) (x : Num) : Nat :=
  match x with
  | .nan => f.canon
  | .inf neg => (if neg then f.signBit else 0) + f.infBits
  | .fin neg m e =>
    let s := if neg then f.signBit else 0
    if m = 0 then s
    else
      let emin : Int := 1 - (f.bias : Int) - (f.fw : Int)
      let q : Int := max ((Nat.log2 m : Int) + e - (f.fw : Int)) emin
      let bits := (q - emin).toNat * 2 ^ f.fw + roundUnits mode neg m e q
      if bits < f.infBits then s + bits
      else if overflowsToInf mode neg then s + f.infBits
      else s + f.infBits - 1

/-! ## Exact arithmetic -/

/-- Sign flipped. -/
def Num.negate : Num → Num
  | .nan => .nan
  | .inf n => .inf (!n)
  | .fin n m e => .fin (!n) m e

/-- The signed integer of a sign and a magnitude. -/
def signed (neg : Bool) (m : Nat) : Int := if neg then -(m : Int) else (m : Int)

/-- The exact sum; the sign of an exact zero follows IEEE 754 in mode 0 (R96, R226). -/
def Num.add : Num → Num → Num
  | .nan, _ => .nan
  | _, .nan => .nan
  | .inf a, .inf b => if a = b then .inf a else .nan
  | .inf a, .fin _ _ _ => .inf a
  | .fin _ _ _, .inf b => .inf b
  | .fin na ma ea, .fin nb mb eb =>
    let e := min ea eb
    let t := signed na (ma * 2 ^ (ea - e).toNat) + signed nb (mb * 2 ^ (eb - e).toNat)
    if t = 0 then .fin (na && nb) 0 0 else .fin (decide (t < 0)) t.natAbs e

/-- The exact product; 0 · ∞ is NaN. -/
def Num.mul : Num → Num → Num
  | .nan, _ => .nan
  | _, .nan => .nan
  | .inf a, .inf b => .inf (a != b)
  | .inf a, .fin b m _ => if m = 0 then .nan else .inf (a != b)
  | .fin a m _, .inf b => if m = 0 then .nan else .inf (a != b)
  | .fin na ma ea, .fin nb mb eb => .fin (na != nb) (ma * mb) (ea + eb)

/-- m · 2^e times 2^k. -/
def Num.scale (x : Num) (k : Int) : Num :=
  match x with
  | .fin n m e => .fin n m (e + k)
  | y => y

/-- Sign of the difference of two values that are not NaN: -1, 0 or 1; −0 equals +0. -/
def Num.cmp : Num → Num → Int
  | .inf a, .inf b => if a = b then 0 else if a then -1 else 1
  | .inf a, _ => if a then -1 else 1
  | _, .inf b => if b then 1 else -1
  | .fin na ma ea, .fin nb mb eb =>
    let e := min ea eb
    (signed na (ma * 2 ^ (ea - e).toNat) - signed nb (mb * 2 ^ (eb - e).toNat)).sign
  | _, _ => 0

/-- Whether a value is NaN. -/
def Num.isNan : Num → Bool
  | .nan => true
  | _ => false

/-- The sign of a value. -/
def Num.neg : Num → Bool
  | .nan => false
  | .inf n => n
  | .fin n _ _ => n

/-- Whether a value is a zero. -/
def Num.isZero : Num → Bool
  | .fin _ m _ => m == 0
  | _ => false

/-- p / q rounded down to units 2^e, with a last bit that says whether anything was cut: enough to round. -/
def quotient (neg : Bool) (p q : Nat) (e : Int) : Num :=
  .fin neg (2 * (p / q) + (if p % q = 0 then 0 else 1)) (e - 1)

/-- The quotient, precise enough to round once to any format of at most 53 bits (R237). -/
def Num.div : Num → Num → Num
  | .nan, _ => .nan
  | _, .nan => .nan
  | .inf _, .inf _ => .nan
  | .inf a, .fin b _ _ => .inf (a != b)
  | .fin a _ _, .inf b => .fin (a != b) 0 0
  | .fin na ma ea, .fin nb mb eb =>
    if mb = 0 then (if ma = 0 then .nan else .inf (na != nb))
    else if ma = 0 then .fin (na != nb) 0 0
    else
      let k := Nat.log2 mb + 66
      quotient (na != nb) (ma * 2 ^ k) mb (ea - eb - (k : Int))

/-- Whole square root by Newton steps from above. -/
def isqrtFuel : Nat → Nat → Nat → Nat
  | 0, _, r => r
  | fuel + 1, n, r =>
    let r' := (r + n / r) / 2
    if r' < r then isqrtFuel fuel n r' else r

/-- The largest r with r² ≤ n. -/
def isqrt (n : Nat) : Nat := if n = 0 then 0 else isqrtFuel (Nat.log2 n + 8) n (2 ^ (Nat.log2 n / 2 + 1))

/-- The square root, precise enough to round once (R237). -/
def Num.sqrt : Num → Num
  | .nan => .nan
  | .inf n => if n then .nan else .inf false
  | .fin n m e =>
    if m = 0 then .fin n 0 0
    else if n then .nan
    else
      let e2 := e - e % 2
      let big := m * 2 ^ ((e % 2).toNat + 128)
      let r := isqrt big
      .fin false (2 * r + (if r * r = big then 0 else 1)) (e2 / 2 - 64 - 1)

/-! ## Rounding to integers (R94, R228) -/

/-- A finite value rounded to an integer by a mode. -/
def roundToInt (mode : Nat) (neg : Bool) (m : Nat) (e : Int) : Int := signed neg (roundUnits mode neg m e 0)

/-- Clamping to a range. -/
def clampInt (lo hi x : Int) : Int := if x < lo then lo else if x > hi then hi else x

/-- Conversion to a saturating integer range, NaN to 0 (R94). -/
def Num.toInt (mode : Nat) (lo hi : Int) : Num → Int
  | .nan => 0
  | .inf n => if n then lo else hi
  | .fin n m e => clampInt lo hi (roundToInt mode n m e)

/-- An integer as an exact value; zero is +0. -/
def Num.ofInt (i : Int) : Num := .fin (decide (i < 0)) i.natAbs 0

/-- Rounding to an integral value in the same format; zeros and infinities are kept (R228). -/
def Num.integral (mode : Nat) : Num → Num
  | .fin n m e => if m = 0 then .fin n 0 0 else .fin n (roundUnits mode n m e 0) 0
  | x => x

/-! ## Operations on patterns -/

/-- A pattern of a format with a given operation on its value, rounded once in mode 0. -/
def FloatFmt.op2 (f : FloatFmt) (g : Num → Num → Num) (x y : Nat) : Nat :=
  f.round 0 (g (f.decode x) (f.decode y))

/-- `fadd` (R225). -/
def FloatFmt.add (f : FloatFmt) : Nat → Nat → Nat := f.op2 Num.add
/-- `fsub` (R225). -/
def FloatFmt.sub (f : FloatFmt) : Nat → Nat → Nat := f.op2 fun x y => x.add y.negate
/-- `fmul` (R225). -/
def FloatFmt.mul (f : FloatFmt) : Nat → Nat → Nat := f.op2 Num.mul
/-- x · y + z rounded once (R226). -/
def FloatFmt.fma (f : FloatFmt) (x y z : Nat) : Nat :=
  f.round 0 (((f.decode x).mul (f.decode y)).add (f.decode z))

/-- Whether the first pattern orders below the second, −0 below +0; neither is NaN (R98). -/
def FloatFmt.below (f : FloatFmt) (x y : Nat) : Bool :=
  let a := f.decode x
  let b := f.decode y
  a.cmp b < 0 || (a.cmp b = 0 && a.neg && !b.neg)

/-- `fmin` (R98). -/
def FloatFmt.min (f : FloatFmt) (x y : Nat) : Nat :=
  match (f.decode x).isNan, (f.decode y).isNan with
  | true, true => f.canon
  | true, false => y
  | false, true => x
  | false, false => if f.below y x then y else x

/-- `fmax` (R98). -/
def FloatFmt.max (f : FloatFmt) (x y : Nat) : Nat :=
  match (f.decode x).isNan, (f.decode y).isNan with
  | true, true => f.canon
  | true, false => y
  | false, true => x
  | false, false => if f.below x y then y else x

/-- Sign bit cleared (R97, R225). -/
def FloatFmt.absBits (f : FloatFmt) (x : Nat) : Nat := x % f.signBit
/-- Sign bit inverted (R97, R225). -/
def FloatFmt.negBits (f : FloatFmt) (x : Nat) : Nat :=
  if x / f.signBit % 2 = 1 then x % f.signBit else x % f.signBit + f.signBit

/-- The class mask of a pattern (R229). -/
def FloatFmt.classMask (f : FloatFmt) (x : Nat) : Nat :=
  match f.decode x with
  | .nan => 2 ^ 8
  | .inf n => if n then 2 ^ 0 else 2 ^ 7
  | .fin n m _ =>
    if m = 0 then (if n then 2 ^ 3 else 2 ^ 4)
    else if x % f.signBit < 2 ^ f.fw then (if n then 2 ^ 2 else 2 ^ 5)
    else if n then 2 ^ 1 else 2 ^ 6

/-- `eq`, `lt`, `le`, `un` by code 0 to 3 (R196, R227). -/
def FloatFmt.relation (f : FloatFmt) (rel : Nat) (x y : Nat) : Bool :=
  let a := f.decode x
  let b := f.decode y
  let un := a.isNan || b.isNan
  match rel with
  | 0 => !un && decide (a.cmp b = 0)
  | 1 => !un && decide (a.cmp b < 0)
  | 2 => !un && decide (a.cmp b ≤ 0)
  | _ => un

/-- A pattern converted between formats (R228). -/
def FloatFmt.convert (f g : FloatFmt) (mode : Nat) (x : Nat) : Nat := g.round mode (f.decode x)

/-! ## FP32 words -/

/-- FP32 addition of words. -/
def fadd32 (x y : Word) : Word := BitVec.ofNat 32 (fp32.add x.toNat y.toNat)
/-- FP32 subtraction of words. -/
def fsub32 (x y : Word) : Word := BitVec.ofNat 32 (fp32.sub x.toNat y.toNat)
/-- FP32 product of words. -/
def fmul32 (x y : Word) : Word := BitVec.ofNat 32 (fp32.mul x.toNat y.toNat)
/-- FP32 fused multiply-add of words. -/
def fma32 (x y z : Word) : Word := BitVec.ofNat 32 (fp32.fma x.toNat y.toNat z.toNat)
/-- FP32 division of words, rounded once. -/
def fdiv32 (x y : Word) : Word := BitVec.ofNat 32 (fp32.op2 Num.div x.toNat y.toNat)
/-- FP32 minimum of words (R98). -/
def fmin32 (x y : Word) : Word := BitVec.ofNat 32 (fp32.min x.toNat y.toNat)
/-- FP32 maximum of words (R98). -/
def fmax32 (x y : Word) : Word := BitVec.ofNat 32 (fp32.max x.toNat y.toNat)
/-- Whether x < y as FP32; false with a NaN. -/
def flt32 (x y : Word) : Bool := fp32.relation 1 x.toNat y.toNat
/-- Whether x ≤ y as FP32; false with a NaN. -/
def fle32 (x y : Word) : Bool := fp32.relation 2 x.toNat y.toNat
/-- The value of an FP32 word. -/
def val32 (x : Word) : Num := fp32.decode x.toNat
/-- A value rounded to an FP32 word in mode 0. -/
def toF32 (x : Num) : Word := BitVec.ofNat 32 (fp32.round 0 x)

/-! ## Integer division (R237) -/

/-- `idiv.i32`. -/
def idivI32 (x y : Word) : Word :=
  if y = 0 then 0xFFFFFFFF#32 else BitVec.ofInt 32 (x.toInt.tdiv y.toInt)
/-- `idiv.n32`. -/
def idivN32 (x y : Word) : Word := if y = 0 then 0xFFFFFFFF#32 else BitVec.ofNat 32 (x.toNat / y.toNat)
/-- `irem.i32`. -/
def iremI32 (x y : Word) : Word := if y = 0 then x else BitVec.ofInt 32 (x.toInt.tmod y.toInt)
/-- `irem.n32`. -/
def iremN32 (x y : Word) : Word := if y = 0 then x else BitVec.ofNat 32 (x.toNat % y.toNat)

end Sys2Proof.Machine
end

