-- ==== Sys2Proof/Syntax.lean ====
section
/-!
DEFINITION. The instructions of the HL840: one constructor for each row of spec/opcode_table.json.

The first constructors are the forms of a rule's slot word (R185 to R203); their operands are the fields
of the word, one structure per body format, so that no bit of the word is lost. The others are the
happenings of the device (R56, R131 and the others that 95_what_each_step_holds.md lists); they have no
instruction word, and which agent, request or value a happening concerns stands beside it in the
schedule. The extension word of a wide pair stands in the next slot (R187) and is read when the rule
fires.
-/
namespace Sys2Proof

/-- The fields of an R-format rule whose fn the constructor fixes (R186). In cell 0x14 the field `b`
holds the target type in bits 4 to 3 and the rounding mode in bits 2 to 0 (R228). -/
structure ROp where
  g : BitVec 4
  e : Bool
  w : Bool
  d : Code
  a : Code
  b : Code
  deriving DecidableEq, Repr, Inhabited

/-- The fields of an I-format rule (R186). In `li` the field `a` is a slot index (R220). -/
structure IOp where
  g : BitVec 4
  e : Bool
  w : Bool
  d : Code
  a : Code
  i : BitVec 10
  deriving DecidableEq, Repr, Inhabited

/-- The fields of a P-format rule whose condition the constructor fixes (R186). -/
structure POp where
  g : BitVec 4
  e : Bool
  w : Bool
  pd : BitVec 3
  pop : BitVec 3
  a : Code
  b : Code
  deriving DecidableEq, Repr, Inhabited

/-- The fields of an M-format rule (R186); a form with several widths has its own width field. -/
structure MOp where
  g : BitVec 4
  e : Bool
  w : Bool
  data : Code
  addr : Code
  space : BitVec 2
  scope : BitVec 3
  done : BitVec 2
  deriving DecidableEq, Repr, Inhabited

/-- The fields of an E-format rule whose op the constructor fixes (R186). -/
structure EOp where
  g : BitVec 4
  e : Bool
  w : Bool
  src : Code
  port : Code
  obj : BitVec 6
  deriving DecidableEq, Repr, Inhabited

/-- The fields of `sys.rd` and `sys.wr`: an E format whose bits 9 to 0 number a register (R198). -/
structure SOp where
  g : BitVec 4
  e : Bool
  w : Bool
  src : Code
  port : Code
  num : BitVec 10
  deriving DecidableEq, Repr, Inhabited

/-- One row of the table of operations and events: a happening of the device, or a rule form. -/
inductive Instr where
  /-- `add` (R213). Integer add modulo 2^32. -/
  | add (o : ROp)
  /-- `sub` (R213). Integer subtract. -/
  | sub (o : ROp)
  /-- `neg` (R213). Integer negate. -/
  | neg (o : ROp)
  /-- `abs` (R213). Integer absolute value. -/
  | abs (o : ROp)
  /-- `min.i32` (R213). Signed minimum. -/
  | minI32 (o : ROp)
  /-- `max.i32` (R213). Signed maximum. -/
  | maxI32 (o : ROp)
  /-- `min.n32` (R213). Unsigned minimum. -/
  | minN32 (o : ROp)
  /-- `max.n32` (R213). Unsigned maximum. -/
  | maxN32 (o : ROp)
  /-- `satadd.i32` (R213). Saturating signed add. -/
  | sataddI32 (o : ROp)
  /-- `satsub.i32` (R213). Saturating signed subtract. -/
  | satsubI32 (o : ROp)
  /-- `and` (R214). Bitwise and. -/
  | and (o : ROp)
  /-- `or` (R214). Bitwise or. -/
  | or (o : ROp)
  /-- `xor` (R214). Bitwise xor. -/
  | xor (o : ROp)
  /-- `andn` (R214). And with the complement of b. -/
  | andn (o : ROp)
  /-- `not` (R214). Bitwise complement. -/
  | not (o : ROp)
  /-- `shl` (R214). Logical shift left. -/
  | shl (o : ROp)
  /-- `shr` (R214). Logical shift right. -/
  | shr (o : ROp)
  /-- `sar` (R214). Arithmetic shift right. -/
  | sar (o : ROp)
  /-- `rol` (R214). Rotate left. -/
  | rol (o : ROp)
  /-- `clz` (R214). Count leading zeros. -/
  | clz (o : ROp)
  /-- `ctz` (R214). Count trailing zeros. -/
  | ctz (o : ROp)
  /-- `popc` (R214). Population count. -/
  | popc (o : ROp)
  /-- `brev` (R214). Bit reverse. -/
  | brev (o : ROp)
  /-- `mul` (R215). Low 32 bits of the product. -/
  | mul (o : ROp)
  /-- `mulh.i32` (R215). High word of the signed product. -/
  | mulhI32 (o : ROp)
  /-- `mulh.n32` (R215). High word of the unsigned product. -/
  | mulhN32 (o : ROp)
  /-- `mad` (R215). Multiply-add into the destination register. -/
  | mad (o : ROp)
  /-- `sel` (R216). Selects a or b by a predicate, reading both. -/
  | sel (o : ROp) (k : BitVec 3)
  /-- `cmp.eq` (R221). Compares for equality into a predicate. -/
  | cmpEq (o : POp)
  /-- `cmp.ne` (R221). Compares for inequality into a predicate. -/
  | cmpNe (o : POp)
  /-- `cmp.lt.i32` (R221). Signed less-than into a predicate. -/
  | cmpLtI32 (o : POp)
  /-- `cmp.le.i32` (R221). Signed less-or-equal into a predicate. -/
  | cmpLeI32 (o : POp)
  /-- `cmp.lt.n32` (R221). Unsigned less-than into a predicate. -/
  | cmpLtN32 (o : POp)
  /-- `cmp.le.n32` (R221). Unsigned less-or-equal into a predicate. -/
  | cmpLeN32 (o : POp)
  /-- `ext.i8` (R217). Sign-extends an 8-bit lane. -/
  | extI8 (o : ROp) (l : BitVec 2)
  /-- `ext.i16` (R217). Sign-extends a 16-bit lane. -/
  | extI16 (o : ROp) (l : BitVec 2)
  /-- `ext.n8` (R217). Zero-extends an 8-bit lane. -/
  | extN8 (o : ROp) (l : BitVec 2)
  /-- `ext.n16` (R217). Zero-extends a 16-bit lane. -/
  | extN16 (o : ROp) (l : BitVec 2)
  /-- `ins.n8` (R218). Inserts an 8-bit lane into a register. -/
  | insN8 (o : ROp) (l : BitVec 2)
  /-- `ins.n16` (R218). Inserts a 16-bit lane into a register. -/
  | insN16 (o : ROp) (l : BitVec 2)
  /-- `addi` (R219). Adds an immediate. -/
  | addi (o : IOp)
  /-- `andi` (R219). Ands with an immediate. -/
  | andi (o : IOp)
  /-- `ori` (R219). Ors with an immediate. -/
  | ori (o : IOp)
  /-- `xori` (R219). Xors with an immediate. -/
  | xori (o : IOp)
  /-- `shli` (R219). Shifts left by an immediate. -/
  | shli (o : IOp)
  /-- `shri` (R219). Shifts right logically by an immediate. -/
  | shri (o : IOp)
  /-- `sari` (R219). Shifts right arithmetically by an immediate. -/
  | sari (o : IOp)
  /-- `li` (R220). Loads a sign-extended slot literal, shifted. -/
  | li (o : IOp)
  /-- `addc` (R222). Add with carry along the carry link. -/
  | addc (o : ROp)
  /-- `subc` (R222). Subtract with borrow along the carry link. -/
  | subc (o : ROp)
  /-- `mulc` (R222). Multiword multiply step. -/
  | mulc (o : ROp)
  /-- `shlc` (R222). Multiword left shift step. -/
  | shlc (o : ROp)
  /-- `shrc` (R222). Multiword right shift step. -/
  | shrc (o : ROp)
  /-- `cmpc` (R222). Multiword unsigned compare step. -/
  | cmpc (o : ROp)
  /-- `fadd` (R225). Float add. -/
  | fadd (o : ROp) (t : BitVec 2)
  /-- `fsub` (R225). Float subtract. -/
  | fsub (o : ROp) (t : BitVec 2)
  /-- `fmul` (R225). Float multiply. -/
  | fmul (o : ROp) (t : BitVec 2)
  /-- `fmin` (R225). Float minimum. -/
  | fmin (o : ROp) (t : BitVec 2)
  /-- `fmax` (R225). Float maximum. -/
  | fmax (o : ROp) (t : BitVec 2)
  /-- `fabs` (R225). Clears the sign bit. -/
  | fabs (o : ROp) (t : BitVec 2)
  /-- `fneg` (R225). Inverts the sign bit. -/
  | fneg (o : ROp) (t : BitVec 2)
  /-- `ffma` (R226). Fused x·y + z. -/
  | ffma (o : ROp) (t : BitVec 2)
  /-- `ffms` (R226). Fused x·y − z. -/
  | ffms (o : ROp) (t : BitVec 2)
  /-- `fnma` (R226). Fused z − x·y. -/
  | fnma (o : ROp) (t : BitVec 2)
  /-- `fcmp.eq` (R227). Float equality into a predicate. -/
  | fcmpEq (o : POp) (t : BitVec 2)
  /-- `fcmp.lt` (R227). Float less-than into a predicate. -/
  | fcmpLt (o : POp) (t : BitVec 2)
  /-- `fcmp.le` (R227). Float less-or-equal into a predicate. -/
  | fcmpLe (o : POp) (t : BitVec 2)
  /-- `fcmp.un` (R227). Float unordered test into a predicate. -/
  | fcmpUn (o : POp) (t : BitVec 2)
  /-- `fclass` (R229). Writes the class mask of each lane. -/
  | fclass (o : ROp) (t : BitVec 2)
  /-- `frnd` (R228). Rounds to an integral value in the same type. -/
  | frnd (o : ROp) (t : BitVec 2)
  /-- `f2i.i32` (R228). Float to saturated i32. -/
  | f2iI32 (o : ROp) (t : BitVec 2)
  /-- `f2i.n32` (R228). Float to saturated n32. -/
  | f2iN32 (o : ROp) (t : BitVec 2)
  /-- `i2f.i32` (R228). i32 to float. -/
  | i2fI32 (o : ROp) (t : BitVec 2)
  /-- `i2f.n32` (R228). n32 to float. -/
  | i2fN32 (o : ROp) (t : BitVec 2)
  /-- `fcvt` (R228). Converts between float types. -/
  | fcvt (o : ROp) (t : BitVec 2)
  /-- `vsum` (R230). Sums N beats. -/
  | vsum (o : ROp) (t : BitVec 1)
  /-- `vdot` (R230). Dot product over N beats. -/
  | vdot (o : ROp) (t : BitVec 1)
  /-- `vmax` (R230). Maximum over N beats. -/
  | vmax (o : ROp) (t : BitVec 1)
  /-- `vmin` (R230). Minimum over N beats. -/
  | vmin (o : ROp) (t : BitVec 1)
  /-- `vargmax` (R230). Maximum and its beat into a pair. -/
  | vargmax (o : ROp) (t : BitVec 1)
  /-- `vargmin` (R230). Minimum and its beat into a pair. -/
  | vargmin (o : ROp) (t : BitVec 1)
  /-- `vscan` (R230). Exclusive prefix sum per beat. -/
  | vscan (o : ROp) (t : BitVec 1)
  /-- `vpack` (R230). Packs two values into 16-bit lanes. -/
  | vpack (o : ROp) (t : BitVec 1)
  /-- `vunpack` (R230). Unpacks one 16-bit lane. -/
  | vunpack (o : ROp) (t : BitVec 1)
  /-- `vcount` (R230). Counts nonzero beats. -/
  | vcount (o : ROp) (t : BitVec 1)
  /-- `pset` (R231). Combines 1 into a predicate. -/
  | pset (o : POp)
  /-- `pclr` (R231). Combines 0 into a predicate. -/
  | pclr (o : POp)
  /-- `pnot` (R231). Combines the negation of a predicate. -/
  | pnot (o : POp)
  /-- `pand` (R231). Combines the and of two predicates. -/
  | pand (o : POp)
  /-- `por` (R231). Combines the or of two predicates. -/
  | por (o : POp)
  /-- `pxor` (R231). Combines the xor of two predicates. -/
  | pxor (o : POp)
  /-- `pmov` (R231). Combines a copy of a predicate. -/
  | pmov (o : POp)
  /-- `pbit` (R231). Combines a bit of a value into a predicate. -/
  | pbit (o : POp)
  /-- `pchan.ne` (R231). Tests that an input channel is nonempty. -/
  | pchanNe (o : POp) (x : BitVec 2)
  /-- `pchan.tag` (R231). Tests an input head's tag. -/
  | pchanTag (o : POp) (x : BitVec 2)
  /-- `pchan.room` (R231). Tests an output for room. -/
  | pchanRoom (o : POp) (x : BitVec 2)
  /-- `mov` (R233). Moves a word with the destination's tag. -/
  | mov (o : ROp)
  /-- `send` (R233). Pushes a word keeping its arrival tag. -/
  | send (o : ROp)
  /-- `drop` (R233). Pops and discards words. -/
  | drop (o : ROp)
  /-- `dup` (R233). Writes one word to two destinations. -/
  | dup (o : ROp)
  /-- `retag` (R233). Pushes a word with a tag taken from b. -/
  | retag (o : ROp)
  /-- `steer` (R234). Pushes to the output channel chosen by a control value. -/
  | steer (o : ROp)
  /-- `cmrg` (R235). Control merge: pops the channel named by the control. -/
  | cmrg (o : ROp)
  /-- `amrg` (R236). Arrival-order merge of masked inputs, with one closing tag-3 word. -/
  | amrg (o : ROp)
  /-- `sin.f` (R237). Correctly rounded sine, returned late. -/
  | sinF (o : ROp)
  /-- `cos.f` (R237). Correctly rounded cosine. -/
  | cosF (o : ROp)
  /-- `sin.q` (R238). Sine reduced against fixed P. -/
  | sinQ (o : ROp)
  /-- `cos.q` (R238). Cosine reduced against fixed P. -/
  | cosQ (o : ROp)
  /-- `exp2` (R237). 2 to the power x. -/
  | exp2 (o : ROp)
  /-- `log2` (R237). Base-2 logarithm. -/
  | log2 (o : ROp)
  /-- `rcp` (R237). Reciprocal. -/
  | rcp (o : ROp)
  /-- `rsqrt` (R237). Reciprocal square root. -/
  | rsqrt (o : ROp)
  /-- `sqrt` (R237). Square root. -/
  | sqrt (o : ROp)
  /-- `fdiv` (R237). Float division. -/
  | fdiv (o : ROp)
  /-- `tanh` (R237). Hyperbolic tangent. -/
  | tanh (o : ROp)
  /-- `erf` (R237). Error function. -/
  | erf (o : ROp)
  /-- `idiv.i32` (R237). Signed division truncated toward zero. -/
  | idivI32 (o : ROp)
  /-- `idiv.n32` (R237). Unsigned division. -/
  | idivN32 (o : ROp)
  /-- `irem.i32` (R237). Signed remainder. -/
  | iremI32 (o : ROp)
  /-- `irem.n32` (R237). Unsigned remainder. -/
  | iremN32 (o : ROp)
  /-- `sin.q.p7` (R238). sin.q that writes its range flag into p7. -/
  | sinQP7 (o : ROp)
  /-- `cos.q.p7` (R238). cos.q that writes its range flag into p7. -/
  | cosQP7 (o : ROp)
  /-- `ld` (R245). Loads 1 to 8 bytes, zero-extended or into a pair. -/
  | ld (o : MOp) (k : BitVec 2)
  /-- `st` (R245). Stores 1 to 8 bytes. -/
  | st (o : MOp) (k : BitVec 2)
  /-- `ld.by` (R246). Load that binds in L2 while L1 is read-only. -/
  | ldBy (o : MOp) (k : BitVec 2)
  /-- `ldblk` (R248). Loads a 64-byte block as 16 words. -/
  | ldblk (o : MOp)
  /-- `stblk` (R248). Stores 16 popped words as one 64-byte block. -/
  | stblk (o : MOp)
  /-- `pref` (R249). Asks the cluster to fill a line early. -/
  | pref (o : MOp)
  /-- `amo.add` (R251). Atomic add. -/
  | amoAdd (o : MOp)
  /-- `amo.sub` (R251). Atomic subtract. -/
  | amoSub (o : MOp)
  /-- `amo.min` (R251). Atomic signed minimum. -/
  | amoMin (o : MOp)
  /-- `amo.max` (R251). Atomic signed maximum. -/
  | amoMax (o : MOp)
  /-- `amo.and` (R251). Atomic and. -/
  | amoAnd (o : MOp)
  /-- `amo.or` (R251). Atomic or. -/
  | amoOr (o : MOp)
  /-- `amo.xor` (R251). Atomic xor. -/
  | amoXor (o : MOp)
  /-- `amo.swap` (R251). Atomic swap. -/
  | amoSwap (o : MOp)
  /-- `amo.cas` (R252). Atomic compare and swap. -/
  | amoCas (o : MOp)
  /-- `amo.inc` (R251). Atomic increment. -/
  | amoInc (o : MOp)
  /-- `amo.fmin` (R251). Atomic float minimum. -/
  | amoFmin (o : MOp)
  /-- `amo.fmax` (R251). Atomic float maximum. -/
  | amoFmax (o : MOp)
  /-- `amo.fadd` (R251). Atomic float add, rounded. -/
  | amoFadd (o : MOp)
  /-- `amo.vmin64` (R251). Atomic unsigned 64-bit minimum. -/
  | amoVmin64 (o : MOp)
  /-- `orc.dom` (R254). Creates or dissolves a domain at its home slice. -/
  | orcDom (o : MOp)
  /-- `orc.bind` (R254). Binds a cell to a word. -/
  | orcBind (o : MOp)
  /-- `orc.free` (R151). Frees a cell once settled, writing its base home. -/
  | orcFree (o : MOp)
  /-- `orc.fold` (R254). Folds a cell through its view of the watermark. -/
  | orcFold (o : MOp)
  /-- `orc.mark` (R146). Raises a source's mark in a domain. -/
  | orcMark (o : MOp)
  /-- `orc.op.set` (R255). Sends a stamped set to a cell. -/
  | orcOpSet (o : MOp)
  /-- `orc.op.add.f32` (R255). Sends a stamped FP32 add to a cell. -/
  | orcOpAddF32 (o : MOp)
  /-- `orc.op.add.f64` (R255). Sends a stamped FP64 add to a cell. -/
  | orcOpAddF64 (o : MOp)
  /-- `orc.op.mul.f32` (R255). Sends a stamped FP32 multiply to a cell. -/
  | orcOpMulF32 (o : MOp)
  /-- `orc.op.fma.f32` (R255). Sends a stamped FP32 fused multiply-add to a cell. -/
  | orcOpFmaF32 (o : MOp)
  /-- `orc.op.max.f32` (R255). Sends a stamped FP32 maximum to a cell. -/
  | orcOpMaxF32 (o : MOp)
  /-- `orc.op.min.f32` (R255). Sends a stamped FP32 minimum to a cell. -/
  | orcOpMinF32 (o : MOp)
  /-- `orc.op.add.int` (R255). Sends a stamped integer add to a cell. -/
  | orcOpAddInt (o : MOp)
  /-- `orc.ldt` (R256). Tentative load of a cell. -/
  | orcLdt (o : MOp)
  /-- `orc.lds` (R256). Settled load of a cell for step s. -/
  | orcLds (o : MOp)
  /-- `col.req` (R258). Requests a col on an arc. -/
  | colReq (o : ROp)
  /-- `col.rel` (R258). Releases a col held by the arc. -/
  | colRel (o : ROp)
  /-- `bar.arrive` (R260). Counts an arrival on a barrier and awaits the release. -/
  | barArrive (o : ROp)
  /-- `drain` (R261). Starts a drain token through the spur. -/
  | drain (o : ROp)
  /-- `quiet` (R262). Sets or clears the spur's quiet mark. -/
  | quiet (o : ROp)
  /-- `sig` (R263). Releases at package scope and sets a signal bit, with an interrupt if enabled. -/
  | sig (o : ROp)
  /-- `chain.put` (R264). Submits a chain record to a launch queue. -/
  | chainPut (o : ROp)
  /-- `ct.arm` (R276). Reads, checks and arms a copy template. -/
  | ctArm (o : EOp)
  /-- `ct.fire` (R276). Places a trigger word for a template. -/
  | ctFire (o : EOp)
  /-- `ct.stop` (R276). Discards queued triggers, writes a status-1 record and unarms. -/
  | ctStop (o : EOp)
  /-- `ct.stat` (R276). Returns a template's state. -/
  | ctStat (o : EOp)
  /-- `ca.set` (R277). Arms a cairn. -/
  | caSet (o : EOp)
  /-- `ca.get` (R276). Returns a cairn's remaining bytes. -/
  | caGet (o : EOp)
  /-- `mx.ld` (R283). Queues a tile fetch. -/
  | mxLd (o : EOp)
  /-- `mx.rule` (R285). Sets an accumulator's rule. -/
  | mxRule (o : EOp)
  /-- `mx.zero` (R287). Zeroes an accumulator. -/
  | mxZero (o : EOp)
  /-- `mx.read` (R287). Reads accumulator values. -/
  | mxRead (o : EOp)
  /-- `mx.drain` (R288). Writes an accumulator to memory. -/
  | mxDrain (o : EOp)
  /-- `mseq.gemm` (R290). Runs a product macro sequence. -/
  | mseqGemm (o : EOp)
  /-- `mseq.conv` (R291). Runs a convolution macro sequence. -/
  | mseqConv (o : EOp)
  /-- `mseq.stop` (R292). Stops the running sequence at its next K-block boundary. -/
  | mseqStop (o : EOp)
  /-- `smp.bind` (R293). Binds a sampler slot. -/
  | smpBind (o : EOp)
  /-- `wt.ld` (R293). Loads a weight table into the cache. -/
  | wtLd (o : EOp)
  /-- `wt.drop` (R293). Drops weight cache entries. -/
  | wtDrop (o : EOp)
  /-- `smp.tex` (R294). Samples a latent texture. -/
  | smpTex (o : EOp)
  /-- `smp.dec` (R294). Decodes one latent block. -/
  | smpDec (o : EOp)
  /-- `rs.draw` (R295). Opens a draw on the raster island. -/
  | rsDraw (o : EOp)
  /-- `rs.flush` (R295). Requests completion of the open draw. -/
  | rsFlush (o : EOp)
  /-- `vis.attr` (R295). Requests the attributes of a visibility sample. -/
  | visAttr (o : EOp)
  /-- `bl.put` (R295). Answers a fragment ticket with a colour or a discard. -/
  | blPut (o : EOp)
  /-- `tr.fmt` (R170). Loads a node format descriptor. -/
  | trFmt (o : EOp)
  /-- `tr.ray` (R296). Starts a ray request. -/
  | trRay (o : EOp)
  /-- `tr.walk` (R177). Starts a tree walk. -/
  | trWalk (o : EOp)
  /-- `tr.march` (R178). Starts a lattice march. -/
  | trMarch (o : EOp)
  /-- `tr.res` (R297). Fetches a kept ray result. -/
  | trRes (o : EOp)
  /-- `sys.rd` (R298). Reads a system register. -/
  | sysRd (o : SOp)
  /-- `sys.wr` (R298). Writes a system register. -/
  | sysWr (o : SOp)
  /-- `nop` (R203). Does nothing. -/
  | nop (o : EOp)
  /-- `halt` (R75). Completes the spur. -/
  | halt (o : EOp)
  /-- `trap` (R303). Commits, then freezes the spur with code 0x71. -/
  | trap (o : EOp)
  /-- `brk` (R303). Breakpoint with code 0x72 when enabled. -/
  | brk (o : EOp)
  /-- `lease.req` (R304). Requests a boost lease. -/
  | leaseReq (o : EOp)
  /-- `lease.rel` (R304). Returns the held lease. -/
  | leaseRel (o : EOp)
  /-- `step` (R303). Arms a step countdown when enabled. -/
  | step (o : EOp)
  /-- `cfg.wr` (R305). Rewrites configuration of an element in the core. -/
  | cfgWr (o : EOp)
  /-- `RESET` (R320). Reset puts every cluster at code 25 with meters disabled and starts self-test with L1 read-only.
  -/
  | reset
  /-- `SELF_TEST_COMPLETE` (R320). Cluster controllers finish self-test and DEV_STATUS[0] becomes 1. -/
  | selfTestComplete
  /-- `DEV_START_WRITE` (R320). Writing 1 to DEV_START takes L1 out of read-only mode, freezes the setup registers and
  starts the schedulers. -/
  | devStartWrite
  /-- `LQ_TAIL_WRITE` (R68). A host write of a launch-queue tail advances the ring, and is ignored if it would pass head
  plus size. -/
  | lqTailWrite
  /-- `LQ_BASE_SIZE_WRITE` (R324). A write of a queue base or size takes effect only while head equals tail, and then
  sets both counts to 0. -/
  | lqBaseSizeWrite
  /-- `CHAIN_RECORD_TAKE` (R69). A scheduler with room takes the head record of the highest non-empty queue, copies it
  and advances the head atomically. -/
  | chainRecordTake
  /-- `RESUME_RECORD` (R362). A format-2 record resumes, stores or ends a held chain. -/
  | resumeRecord
  /-- `STAGE_PLACEMENT` (R72). The placer tries to place every spur of a stage by first fit, keeping linked groups in
  one massif. -/
  | stagePlacement
  /-- `PRIORITY_AGING` (R71). Every 4 ms of continuous waiting raises a chain's effective priority by one, up to 15. -/
  | priorityAging
  /-- `FREEZE_WAVE` (R77). A freeze wave stops a ridge's spurs, completes the listed steps and reads each spur out as a
  relocatable image. -/
  | freezeWave
  /-- `IMAGE_FETCH` (R74). Each massif's fetch agent fetches each distinct image, checks its CRC and multicasts it to
  the cluster controllers. -/
  | imageFetch
  /-- `RIDGE_START` (R74). When every spur has reported, the home scheduler sends start, and each cluster starts its
  spurs. -/
  | ridgeStart
  /-- `SPUR_COMPLETION` (R75). Once all issued work of a halted spur is performed, its dirty L1 lines are written back
  and its completion token is passed. -/
  | spurCompletion
  /-- `DETERMINISTIC_STAGE_SWITCH` (R90). A drain token passes a completed region, whose leftover words are discarded
  and counted, and the next stage's spur is loaded there. -/
  | deterministicStageSwitch
  /-- `SPUR_RELOAD` (R78). A stored image is reloaded into a placement, rebased, and resumes in the state it had. -/
  | spurReload
  /-- `FIRING_STEP` (R56). One firing step of an element: it runs a beat, or selects a handler and fires owed or ready
  rules in slot order. -/
  | firingStep
  /-- `LINK_WORD_MOVE` (R59). A word on a link moves to the next FIFO along its route once that FIFO has room. -/
  | linkWordMove
  /-- `SLOT_COUNT_RETURN` (R58). When a receiver removes a word, the sender's slot count is incremented. -/
  | slotCountReturn
  /-- `CARRY_TRANSFER` (R223). A word in co moves into the successor's empty ci. -/
  | carryTransfer
  /-- `DELAYED_RESULT_ARRIVAL` (R36). A delayed result arrives, writes its register and clears the pending bit, or fills
  its reserved slot. -/
  | delayedResultArrival
  /-- `WRITE_LANDING` (R131). A write lands once, in the issuing cluster's copy or at the home. -/
  | writeLanding
  /-- `READ_BINDING` (R131). A read binds once to the value of its cluster's copy, or of the home. -/
  | readBinding
  /-- `DONE_TOKEN_EMIT` (R132). Once the access is performed at its scope, the rule's done token is pushed into its
  reserved slot. -/
  | doneTokenEmit
  /-- `COPY_EVICT` (R130). The device may evict a clean copy at any moment. -/
  | copyEvict
  /-- `COPY_WRITE_BACK` (R130). The device may write the dirty bytes of a copy back to the home. -/
  | copyWriteBack
  /-- `COPY_FILL` (R130). The device may fill an absent copy from the home's current value. -/
  | copyFill
  /-- `ATOMIC_APPLY` (R138). A sparse-update unit applies an atomic as one read-modify-write, possibly merged, in its
  total order. -/
  | atomicApply
  /-- `TRANSLATION_WALK` (R122). The walker resolves a translation miss, or raises 0x10 or 0x11 on the request. -/
  | translationWalk
  /-- `PIN_RELEASE` (R137). When a tile's consumers have read it, its pins are released and held writes land. -/
  | pinRelease
  /-- `PIN_HOLD_TIMEOUT` (R387). A pin held for 2^20 steps raises 0x49 on the mx.ld holding the oldest pin. -/
  | pinHoldTimeout
  /-- `TRANS_INVAL_HI_WRITE` (R302). Drops every cached translation of the page, advances the translation sequence and
  completes when every cluster has done so. -/
  | transInvalHiWrite
  /-- `TRANS_SEQ_LO_READ` (R302). Returns the translation sequence once earlier invalidations have completed, and
  latches the high word. -/
  | transSeqLoRead
  /-- `CHAIN_KILL_HI_WRITE` (R302). Ends the named chain with status 3, discarding its spurs, leases and cells. -/
  | chainKillHiWrite
  /-- `STEP_LO_READ` (R299). Returns the step counter's low word and latches the high word for STEP_HI. -/
  | stepLoRead
  /-- `TIME_LO_READ` (R299). Returns the device time's low word late and latches the high word for TIME_HI. -/
  | timeLoRead
  /-- `ECC_LAST_LO_READ` (R386). Returns the low word of the last uncorrectable address and latches the high word. -/
  | eccLastLoRead
  /-- `HMASK_WRITE` (R43). A write of HMASK changes the handler mask between two firing steps. -/
  | hmaskWrite
  /-- `SIG_PEND_WRITE` (R325). Writing 1 clears a pending signal bit. -/
  | sigPendWrite
  /-- `SIG_EN_WRITE` (R325). Enabling a signal whose bit is already pending sends its vector at once. -/
  | sigEnWrite
  /-- `VREG_WRITE` (R332). A base-code write sets a new regulator target, and a code above 40 is ignored. -/
  | vregWrite
  /-- `METER_WRITE` (R333). Sets a meter's enable, ramp and base, which recompute the admitted level. -/
  | meterWrite
  /-- `CLUS_OFF_WRITE` (R397). Writing 1 returns a cluster to placement at code 25. -/
  | clusOffWrite
  /-- `REGISTER_WRITE` (R298). A write to any other register stores its value, or is ignored where RO, unassigned, or
  after DEV_START. -/
  | registerWrite
  /-- `REGULATOR_STEP` (R332). Each µs the regulator moves the cluster's current code one step toward its target. -/
  | regulatorStep
  /-- `THERMAL_OBSERVER_PERIOD` (R334). Every 100 µs the observer predicts temperature and raises or lowers the meter
  and voltage ceilings. -/
  | thermalObserverPeriod
  /-- `OBSERVER_FALLBACK` (R334). After 1 ms without an observer period, the controllers force ceiling code 15 and c =
  7. -/
  | observerFallback
  /-- `CLUSTER_OUT_OF_PLACEMENT` (R397). A regulator that has not moved for 1 ms takes its cluster out of placement, and
  its spurs are stored. -/
  | clusterOutOfPlacement
  /-- `LEASE_EXPIRY` (R335). A boost lease ends when its time runs out, and the target returns to the rule without a
  lease. -/
  | leaseExpiry
  /-- `HOST_MEM_READ` (R318). A host CXL.mem read binds at the home. -/
  | hostMemRead
  /-- `HOST_MEM_WRITE` (R318). A host CXL.mem write lands at the home, with bytes of bound words discarded. -/
  | hostMemWrite
  /-- `HOST_LINE_WRITE` (R319). A host write to a line of memory kind 1 drops every device L2 copy of that line. -/
  | hostLineWrite
  /-- `KUCOR_PORT_TRAINING` (R323). A Kucor port agrees on the highest common version, or stays down. -/
  | kucorPortTraining
  /-- `KUCOR_FLIT_RETRY` (R329). A flit CRC error is retried at the link layer and counted in KCR_ERR. -/
  | kucorFlitRetry
  /-- `KUCOR_PORT_DOWN` (R329). A port going down clears its KCR_UP bit, and its traffic moves to other ports. -/
  | kucorPortDown
  /-- `PEER_ACCESS_TIMEOUT` (R395). A kind-2 access unreachable for 2^24 ns is counted and raises 0x20. -/
  | peerAccessTimeout
  /-- `ETH_MESSAGE_SEND` (R330). Words pushed to a queue-pair port form a SEND or RDMA WRITE message, which a tag-3 word
  ends. -/
  | ethMessageSend
  /-- `ETH_SEND_RECEIVE` (R330). An incoming SEND arrives at the bound port as words, and the last carries tag 3. -/
  | ethSendReceive
  /-- `ETH_RDMA_WRITE_RECEIVE` (R330). An incoming RDMA WRITE lands at the home within a registered range. -/
  | ethRdmaWriteReceive
  /-- `ETH_RDMA_READ_RECEIVE` (R330). An incoming RDMA READ binds at the home within a registered range. -/
  | ethRdmaReadReceive
  /-- `QP_VALID_CLEAR` (R330). Clearing valid stops the queue pair, discards its queued words and sets quiesced. -/
  | qpValidClear
  /-- `QP_VALID_SET` (R330). Setting valid again clears error and syndrome, and the device uses the entry. -/
  | qpValidSet
  /-- `QP_ERROR` (R396). A queue pair whose retries run out enters error, and its port discards every word. -/
  | qpError
  /-- `PORT_ACCESS_COMPLETE` (R247). A space-3 access completes once its port has a word or a free entry. -/
  | portAccessComplete
  /-- `CONVERTER_GROUP` (R112). A converter node takes a complete group from a bound link and converts it. -/
  | converterGroup
  /-- `EVENT_CHANNEL_PLACE` (R267). A waiting trigger word or cairn token is placed once its event channel has a free
  entry. -/
  | eventChannelPlace
  /-- `TEMPLATE_TRIGGER_ACCEPT` (R267). The copy engine takes a trigger word from its channel into the template's queue.
  -/
  | templateTriggerAccept
  /-- `COPY_FIRING_START` (R270). A queued firing starts, with its acquire, once shadow pages are free. -/
  | copyFiringStart
  /-- `COPY_FIRING_COMPLETION` (R269). A finished firing performs its writes, computes its digest and writes its record
  and completion register. -/
  | copyFiringCompletion
  /-- `SHADOW_PAGE_RETURN` (R142). An old page returns to the pool once all its accesses are performed and all copies
  dropped. -/
  | shadowPageReturn
  /-- `EXCHANGE_CHUNK_ARRIVAL` (R275). An exchange chunk lands at its receiver, and the round completes when all chunks
  have landed. -/
  | exchangeChunkArrival
  /-- `CAIRN_LANDING` (R277). A copy landing in scratch decrements a cairn, which places a token at zero. -/
  | cairnLanding
  /-- `PEER_DELIVERY_ARRIVAL` (R364). A peer delivery reaching a core is delivered, parked, forwarded, dropped or held
  back by the departure list. -/
  | peerDeliveryArrival
  /-- `MATRIX_COMMAND_TAKE` (R282). The engine takes the head command of its queue when the command's condition holds.
  -/
  | matrixCommandTake
  /-- `TILE_FILL_COMPLETE` (R284). A tile becomes full when its 32 rows have arrived. -/
  | tileFillComplete
  /-- `MATRIX_OPERATION` (R286). An operation whose two fills are present adds the block partials into its accumulator.
  -/
  | matrixOperation
  /-- `MATRIX_DRAIN_DONE` (R288). When a drain's writes are performed at its scope, its destination receives 0. -/
  | matrixDrainDone
  /-- `MSEQ_KBLOCK_BOUNDARY` (R290). A macro sequence reaches a K-block boundary and continues, stops or ends. -/
  | mseqKblockBoundary
  /-- `ISLAND_REQUEST_ACCEPT` (R157). An island takes one request per turn from its command queues, round robin. -/
  | islandRequestAccept
  /-- `VIS_ATTR_RESULT` (R164). The raster island emits the perspective-correct attributes of a visibility sample. -/
  | visAttrResult
  /-- `BIN_FLUSH` (R165). When the bin buffer fills, the island rasterises every collected bin in tile order. -/
  | binFlush
  /-- `FRAGMENT_EMIT` (R166). The island emits a covered pixel as a three-word fragment with a ticket. -/
  | fragmentEmit
  /-- `TICKET_RETIRE` (R167). The blend island retires the oldest ticket once its bl.put has arrived. -/
  | ticketRetire
  /-- `DRAW_FLUSH_COMPLETE` (R169). An rs.flush completes when every primitive is rasterised, every ticket retired and
  every update performed. -/
  | drawFlushComplete
  /-- `TRAVERSAL_NODE_VISIT` (R172). A ray, walk or march visits its next node or leaf, pushing children onto its stack.
  -/
  | traversalNodeVisit
  /-- `CALLBACK_REPLY` (R175). An element's reply to a user-leaf callback or walk token continues its request. -/
  | callbackReply
  /-- `MARCH_CELL_EMIT` (R178). A march emits its next lattice cell in ray order, up to w cells ahead of the replies. -/
  | marchCellEmit
  /-- `RAY_END` (R297). A ray ends, writing its result record or keeping it for tr.res, and frees its ticket. -/
  | rayEnd
  /-- `SAMPLE_COMPLETE` (R183). The sampler decodes and filters a request and returns its words. -/
  | sampleComplete
  /-- `WEIGHT_LOAD_BIND` (R184). A waiting wt.ld reads its table once an entry is free. -/
  | weightLoadBind
  /-- `WEIGHT_ENTRY_REMOVE` (R184). A dropped or replaced weight entry is removed once it is not in use. -/
  | weightEntryRemove
  /-- `WEIGHT_ENTRY_POISON` (R392). A weight entry with an uncorrectable error is removed at once. -/
  | weightEntryPoison
  /-- `NODE_POISON_EXPIRY` (R393). A poisoned node line leaves the node cache after 2^16 steps. -/
  | nodePoisonExpiry
  /-- `ORC_OP_ARRIVAL` (R150). An operation arriving at a cell is refused, or is folded and inserted into the history in
  stamp order. -/
  | orcOpArrival
  /-- `ORC_MARK_APPLY` (R146). The home slice raises a source's mark and updates W. -/
  | orcMarkApply
  /-- `WATERMARK_VIEW_RISE` (R147). A rise of W reaches a slice's view Wv. -/
  | watermarkViewRise
  /-- `SETTLED_LOAD_ANSWER` (R153). Once Wv reaches s, a waiting settled load returns the fold through step s. -/
  | settledLoadAnswer
  /-- `ORC_FREE_END` (R151). A waiting orc.free folds everything, writes the base home and returns the cell to the pool.
  -/
  | orcFreeEnd
  /-- `BARRIER_ARRIVAL_MESSAGE` (R76). A hub sends a spur's arrival to the ridge's root hub. -/
  | barrierArrivalMessage
  /-- `BARRIER_RELEASE` (R76). When every spur has arrived, the root broadcasts release, and hubs deliver one word per
  counted arrival. -/
  | barrierRelease
  /-- `COL_GRANT` (R258). A col with no holder grants its FIFO head and sends the grant count. -/
  | colGrant
  /-- `DRAIN_TOKEN_PASS` (R261). A drain token passes an element at a step boundary outside a multi-beat rule. -/
  | drainTokenPass
  /-- `DRAIN_END` (R261). A drain ends when every access fired before the token passed is performed at package scope. -/
  | drainEnd
  /-- `QUIESCENCE_PERIOD` (R366). At the end of a period without progress, a spur is reported with 0x79 and a snapshot
  and held. -/
  | quiescencePeriod
  /-- `CONFIG_SCRUB_VISIT` (R386). The scrub checks an element's configuration CRC, and a mismatch raises 0x21. -/
  | configScrubVisit
  /-- `PARITY_ERROR` (R385). A parity error in element state holds the ridge with a final 0x20 record. -/
  | parityError
  /-- `STEP_COUNTDOWN_EXPIRY` (R303). An armed step countdown reaching zero freezes the spur with code 0x72. -/
  | stepCountdownExpiry
  /-- `ORC_REQUEST_ARRIVAL` (R254). An orc.dom, orc.bind, orc.fold, orc.free, orc.ldt or orc.lds request arrives at its
  slice or cell and is carried out, refused or set waiting there. -/
  | orcRequestArrival
  /-- `METER_RATE_RISE` (R333). Each µs the admitted injection rate of a meter rises toward its level by at most the
  ramp field. -/
  | meterRateRise
  /-- `DEBUGGER_FREEZE_LIFT` (R350). A debugger continue or run lifts a debugger freeze, or the hold before start, and
  the ridge selects again in place. -/
  | debuggerFreezeLift
  /-- `ETH_PORT_STATE_CHANGE` (R336). An Ethernet port goes up or down, and its ETH_UP bit changes. -/
  | ethPortStateChange
  deriving DecidableEq, Repr, Inhabited

end Sys2Proof
end

