-- ==== Sys2Proof/Machine/State.lean ====
section
/-!
DEFINITION. The state of the HL840 as plain data: elements, cores, clusters, links, memory, requests
under way, spurs, chains, order-repairing cells and the privileged registers, and `State.reset`.

Sparse parts (elements, cores, clusters, registers) are lists of key and value pairs, keys strictly
rising; a key that is not listed holds the reset value of its kind. An element is named by the key
1024 · cluster + 16 · core + element (R15, R17, R18); a core by 64 · cluster + core.
-/
namespace Sys2Proof.Machine

/-- Why a step stops with a fault. -/
inductive Fault where
  /-- Raised by `FIRING_STEP` for an element number of 98,304 or more, which no HL840 has (R13). Safe:
  nothing is claimed of such an element. -/
  | noSuchElement (elem : Nat)
  deriving DecidableEq, Repr

/-- Why an instruction has no meaning here. -/
inductive Refusal where
  /-- Raised by an arm of `exec` whose instruction has no meaning yet. Safe: nothing is claimed of it. -/
  | notModelled (mnemonic : String)
  deriving DecidableEq, Repr

/-- Sparse data: keys strictly rising. -/
abbrev Assoc (α : Type) := List (Nat × α)

/-- Bytes by address, in the canonical form of `Memory.wf`: addresses strictly rising, and no entry equal
to what an unlisted address reads as. -/
abbrev Memory := List Host.Cell

/-! ## Channels and links -/

/-- A word in a FIFO with its tag (R31). `stamp` is the model's own mark of when the word arrived, which
the arrival order of `amrg` (R236) needs. -/
structure ChanWord where
  word : Word
  tag : Tag
  stamp : Nat
  deriving DecidableEq, Repr, Inhabited

/-- An entry that an output channel has taken in firing order: a word, or a slot reserved for a result
that arrives later (R37), named by the request that fills it. -/
inductive OutEntry where
  | word (w : Word) (t : Tag)
  | hole (id : Nat) (t : Tag)
  deriving DecidableEq, Repr, Inhabited

/-- One output channel of an element: its link, its slot count (R58), and its entries that have not
entered the link yet because a reserved slot stands before them (R37). -/
structure OutChan where
  link : Option Nat
  count : Nat
  stage : List OutEntry
  deriving DecidableEq, Repr, Inhabited

/-- The ends that a configured link joins (R57, R83). -/
inductive LinkEnd where
  | elemOut (elem ch : Nat)
  | elemIn (elem ch : Nat)
  | port (cluster n : Nat)
  | edgeIn (cluster pos q : Nat)
  | edgeOut (cluster pos q : Nat)
  deriving DecidableEq, Repr, Inhabited

/-- A pass-through FIFO of an unused element (R59). -/
structure PassFifo where
  elem : Nat
  ch : Nat
  words : List ChanWord
  deriving DecidableEq, Repr, Inhabited

/-- A configured link (R57 to R60): words still travelling from the sender (`wire`), the pass-through FIFOs in route
order, the stage of the spur that it was bound for (R90), the slots that the receiver freed and the sender has not
counted yet, the conversion word of a converter link (R111), and the values of the groups or blocks that its node has
taken and not yet passed on (R116, R117). -/
structure Link where
  id : Nat
  chain : Nat
  spur : Nat
  stage : Nat
  sender : LinkEnd
  receiver : LinkEnd
  capacity : Nat
  wire : List ChanWord
  pass : List PassFifo
  freed : Nat
  conv : Option Word
  held : List Num
  deriving DecidableEq, Repr, Inhabited

/-- A port binding (R83, R247): the element whose space-3 loads (inbound) or stores (outbound) use the
port. -/
structure PortBind where
  cluster : Nat
  port : Nat
  elem : Nat
  inbound : Bool
  chain : Nat
  spur : Nat
  deriving DecidableEq, Repr, Inhabited

/-! ## Elements -/

/-- What an element serves as (R59, R81). -/
inductive Role where
  | unused
  | used
  | buffer
  deriving DecidableEq, Repr, Inhabited

/-- The active handler with the range it was chosen with (R43, R44). -/
structure Active where
  handler : Nat
  first : Nat
  last : Nat
  deriving DecidableEq, Repr, Inhabited

/-- A multi-beat rule in progress (R53, R56): the words it started with (R305), its count, the next beat,
the carry word that every beat reads, the running sum of `vscan` (R230), and for a `.f64` rule that only
its four steps remain to pass (R224). `group` names the firing for the requests
of its beats (R243). -/
structure Beat where
  slot : Nat
  word : Word
  ext : Word
  n : Nat
  k : Nat
  carry : Carry
  scan : Word
  spent : Bool
  group : Nat
  deriving DecidableEq, Repr, Inhabited

/-- One element (R31). -/
structure Elem where
  d : Vector Word 16
  pend : BitVec 16
  p : BitVec 8
  fifo : Vector (List ChanWord) 4
  closed : Vector (Option Nat) 4
  out : Vector OutChan 4
  ci : Option Carry
  co : Option Carry
  slots : Vector Word 32
  guards : Vector Word 16
  conflict : Vector Word 32
  handlers : Vector (BitVec 16) 17
  hmask : BitVec 17
  active : Option Active
  passes : Vector Nat 17
  raised : List Nat
  owed : BitVec 32
  join : Bool
  steps : BitVec 64
  countdown : Option (BitVec 24)
  beat : Option Beat
  stepHi : Word
  timeHi : Word
  role : Role
  cfgWritten : Bool
  /-- Whether the configuration memory reads wrong: a scrub visit found it (R392). -/
  cfgBad : Bool
  /-- Firing-step happenings of this element so far (the model's own): words that arrive between two of
  them arrive in the same step (R236). -/
  window : Nat
  deriving DecidableEq, Repr

/-- An element that no image has configured: slots and guards as R205 writes what nothing fills
(DESIGN CHOICE, log 1). -/
def Elem.reset : Elem where
  d := .replicate 16 0
  pend := 0
  p := 0
  fifo := .replicate 4 []
  closed := .replicate 4 none
  out := .replicate 4 ⟨none, 0, []⟩
  ci := none
  co := none
  slots := .replicate 32 0xF0000000#32
  guards := .replicate 16 0
  conflict := .replicate 32 0
  handlers := .replicate 17 0
  hmask := 0
  active := none
  passes := .replicate 17 0
  raised := []
  owed := 0
  join := false
  steps := 0
  countdown := none
  beat := none
  stepHi := 0
  timeHi := 0
  role := .unused
  cfgWritten := false
  cfgBad := false
  window := 0

/-! ## Requests under way -/

/-- Where a late result goes (R36, R37). -/
inductive Dst where
  | none
  | reg (r : Nat)
  | pair (r : Nat)
  | out (ch : Nat) (holes : List Nat)
  deriving DecidableEq, Repr, Inhabited

/-- The operations of the atomics (R251). -/
inductive AmoOp where
  | add | sub | min | max | and | or | xor | swap
  | cas | inc | fmin | fmax | fadd | vmin64
  deriving DecidableEq, Repr, Inhabited

/-- The operations of an order-repairing cell (R149). -/
inductive OrcOp where
  | set | addF32 | addF64 | mulF32 | fmaF32 | maxF32 | minF32 | addInt
  deriving DecidableEq, Repr, Inhabited

/-- The control forms of cell 0x30 (R254). -/
inductive OrcCtl where
  | dom | bind | free | fold | mark
  deriving DecidableEq, Repr, Inhabited

/-- What a request asks for. -/
inductive ReqKind where
  | load (bypass : Bool)
  | store
  | loadBlock
  | storeBlock
  | prefetch
  | amo (op : AmoOp) (w64 : Bool)
  | orcCtl (c : OrcCtl) (w64 : Bool)
  | orcOp (op : OrcOp) (w64 : Bool)
  | orcLoad (settled : Bool) (w64 : Bool)
  | func
  | control (reg : BitVec 10)
  | colReq (col arc : Nat)
  | barrier (bar gen : Nat)
  | drain
  | chainPut (queue : Nat)
  | signal (n : Nat)
  | lease
  | engine
  | copy (core ct : Nat)
  | arm (ct : Nat)
  | stopCt (ct : Nat)
  | tile (core t row : Nat)
  | mxDrain (core : Nat)
  | written (unit : Nat)
  deriving DecidableEq, Repr, Inhabited

/-- How far a request has come: sent, translated, held at the slice or cell, landed in a copy, performed
everywhere, answered (bound, its result on the way back), or stopped by a late fault (R131, R132, R360). -/
inductive Phase where
  | sent
  | ready
  | waiting
  | landed
  | answered
  | performed
  | faulted
  deriving DecidableEq, Repr, Inhabited

/-- A request that an element, a template or an engine has sent: the rule that sent it (`group` names the
firing, R243), its address, its operands as read at firing (R360), its qualifiers (R197) and its result. -/
structure Req where
  id : Nat
  group : Nat
  elem : Nat
  slot : Nat
  word : Word
  ext : Word
  beat : Nat
  kind : ReqKind
  dst : Dst
  space : BitVec 2
  va : BitVec 64
  pa : Option Nat
  policy : BitVec 2
  size : Nat
  ops : List Word
  scope : BitVec 3
  acq : Bool
  rel : Bool
  range : BitVec 8
  ordered : Bool
  hint : BitVec 2
  atHome : Bool
  phase : Phase
  value : List Word
  step : BitVec 64
  handler : Nat
  deriving DecidableEq, Repr, Inhabited

/-- A done token that waits for its firing's accesses to be performed (R132, R243). -/
structure Done where
  group : Nat
  elem : Nat
  ch : Nat
  hole : Nat
  scope : BitVec 3
  deriving DecidableEq, Repr, Inhabited

/-- A command in a queue of `e0` to the matrix engine or to an island (R279, R39): the rule that fired it,
its operand words as read at firing, and where its result goes. -/
structure Cmd where
  elem : Nat
  slot : Nat
  word : Word
  ext : Word
  group : Nat
  ops : List Word
  dst : Dst
  step : BitVec 64
  handler : Nat
  deriving DecidableEq, Repr, Inhabited

/-! ## Cores: copy templates, cairns, matrix engine -/

/-- A copy firing in flight (R268, R271 to R275): its number and request, the run bytes and words done (of a plane
stream, `pos` is the granule and the next word in it), the map bit of the segment begun and the map bytes of its row
(R274), the counts of its record (R269), the piece read and not yet landed with its poisoned offsets and tags, the
indices read and not yet used (R272), the shadow pages taken (R141), the chunks of an exchange (R275), whether its words
or bytes have ended, whether only its record is still to be written, whether a fault stopped it (R380), its digest, and
the translation sequence after its publish (DEDUCED, log 31). -/
structure Firing where
  n : Nat
  req : Nat
  pos : Nat
  words : Nat
  mapBit : Bool
  mapRow : List Byte
  outOfRange : Nat
  skipped : Nat
  written : Nat
  buf : List Byte
  bad : List Nat
  tags : List Tag
  index : List Word
  pages : List (Nat × Nat)
  sentChunks : Nat
  gotChunks : List Nat
  ended : Bool
  recording : Bool
  faulted : Bool
  digest : BitVec 64
  seq : BitVec 64
  deriving DecidableEq, Repr, Inhabited

/-- One copy template (R265 to R276, R84): state 0 unarmed, 1 armed, 2 parked; `arms` counts how often it was armed. -/
structure Template where
  state : Nat
  block : List Byte
  queued : Nat
  nextN : Nat
  done : Nat
  stopping : Bool
  firing : Option Firing
  arms : Nat
  deriving DecidableEq, Repr, Inhabited

/-- One cairn (R277, R389): `landed` are the byte counts of landings not yet counted. -/
structure Cairn where
  remaining : Nat
  expected : Nat
  ch : BitVec 2
  tag : Tag
  rearm : Bool
  overrun : Bool
  landed : List Nat
  deriving DecidableEq, Repr, Inhabited

/-- An operand tile (R282 to R284): whether it is full or being fetched, from scratch or not, its 32 rows of 64 bytes
with their addresses (none for a row that has none, R291), the rows that have arrived, the operations still to read
this fill, the accumulators that have read it, the happening at which it became full, whether it holds pins, since
when (R387), and the command that fetches it. -/
structure Tile where
  full : Bool
  loading : Bool
  scratch : Bool
  rows : List Byte
  addrs : List (Option Nat)
  arrived : BitVec 32
  consumers : Nat
  took : BitVec 4
  fill : Nat
  pinned : Bool
  held : Nat
  cmd : Cmd
  deriving DecidableEq, Repr, Inhabited

/-- The rule of an accumulator (R285, R286). -/
structure MxRule where
  enable : Bool
  group : BitVec 3
  ta : BitVec 2
  tb : BitVec 2
  deriving DecidableEq, Repr, Inhabited

/-- A running macro sequence (R290 to R292): its block, the K block under way, the next of its commands (those before
the first K block, then those of the K block), and whether it stops at its next boundary. -/
structure Seq where
  cmd : Cmd
  conv : Bool
  block : List Byte
  kb : Nat
  step : Nat
  stop : Bool
  deriving DecidableEq, Repr, Inhabited

/-- A drain whose writes are issued (R288): its command, whose group its writes carry, its scope, and the identifier
that every one of its writes is below. -/
structure MxDrain where
  cmd : Cmd
  scope : BitVec 3
  last : Nat
  deriving DecidableEq, Repr, Inhabited

/-- The matrix engine of a core (R282): its tiles, 0 to 3 `ta` and 4 to 7 `tb`, rules with the fills of their A and B tiles
since each was set (R286), accumulators and those of them that are poisoned (R383), its queue, the sequence that runs, the drain under way with the rows that it has written
(R288, R353), and the drains whose writes are issued. -/
structure Matrix where
  tiles : Vector Tile 8
  rules : Vector MxRule 4
  seen : Vector (Nat × Nat) 4 := .replicate 4 (0, 0)
  acc : Assoc Word
  accBad : BitVec 4
  queue : List Cmd
  seq : Option Seq
  draining : Option (Cmd × Nat)
  drains : List MxDrain
  deriving DecidableEq, Repr

/-- One core beside its elements and its scratchpad. -/
structure Core where
  ct : Vector Template 32
  ca : Vector Cairn 32
  events : List (Nat × BitVec 2 × Tag)
  mx : Matrix
  islandQ : Vector (List Cmd) 4
  drawOpen : Bool
  l1 : Option (Nat × Nat)
  deriving DecidableEq, Repr

/-- A tile that holds nothing. -/
def Tile.empty : Tile :=
  ⟨false, false, false, [], [], 0, 0, 0, 0, false, 0, default⟩

/-- A core that nothing has configured (DESIGN CHOICE, log 1). -/
def Core.reset : Core where
  ct := .replicate 32 ⟨0, [], 0, 0, 0, false, none, 0⟩
  ca := .replicate 32 ⟨0, 0, 0, 0, false, false, []⟩
  events := []
  mx := {
    tiles := .replicate 8 Tile.empty
    rules := .replicate 4 ⟨false, 0, 0, 0⟩
    acc := []
    accBad := 0
    queue := []
    seq := none
    draining := none
    drains := [] }
  islandQ := .replicate 4 []
  drawOpen := false
  l1 := none

/-! ## Clusters: islands, ports, controller -/

/-- The state of a traversal request (R85, R297): running, waiting for a reply, ended, or stopped by a late fault until
its replay comes (R281). -/
inductive TrState where
  | running
  | waiting
  | ended
  | stalled
  deriving DecidableEq, Repr, Inhabited

/-- One traversal request (R85, R172 to R178): its block as read, its kind (1 ray, 2 walk, 3 march), the format it
started with, its stack of (node or leaf address, a word, depth, whether it is a leaf) where the word is the entry t of
a ray's child and what is decided for a walk's (0 descend, 1 far field, 2 ask), the record so far (R176) with whether
there is a hit, t1 as hits lower it, the entry that waits for a reply, a march's cell, the t at its entry, its cells
ahead of the replies and whether it has cells left, and the `tr.res` that waits for the record (R297). -/
structure TrReq where
  ticket : Nat
  kind : Nat
  cmd : Cmd
  block : List Byte
  fmt : List Byte
  stack : List (Nat × Word × Nat × Bool)
  state : TrState
  status : Nat
  t : Word
  u : Word
  v : Word
  ident : Word
  leaf : Nat
  t1 : Word
  asked : Option (Nat × Word × Nat × Bool)
  cell : Nat × Nat × Nat
  tIn : Word
  ahead : Nat
  moving : Bool
  res : Option Cmd
  deriving DecidableEq, Repr, Inhabited

/-- A fragment ticket outstanding (R166, R167, R85): its pixel, coverage, the draw's binding, and its
answer, the `bl.put`, if it has come. -/
structure Ticket where
  ticket : Nat
  pixel : Word
  cover : BitVec 4
  answer : Option Cmd
  deriving DecidableEq, Repr, Inhabited

/-- A vertex: snapped x and y, z, w and attributes (R159). -/
structure Vertex where
  x : Int
  y : Int
  z : Word
  w : Word
  attrs : List Word
  deriving DecidableEq, Repr, Inhabited

/-- A primitive binned and not rasterised (R165): its index, its vertices as read once (R131), and its setup in the bin
buffer: the address and the bytes that the island wrote there. -/
structure Binned where
  prim : Nat
  verts : List Vertex
  place : Nat
  bytes : List Byte
  deriving DecidableEq, Repr, Inhabited

/-- The raster island (R165, R169, R85): the open draw, its binding as read, the primitives binned and not
rasterised, the position of the flush in progress, the tickets outstanding, oldest first, the `rs.flush` and the
`vis.attr` requests accepted, and whether the draw waits for its replay (R394). -/
structure Raster where
  isOpen : Bool
  cmd : Cmd
  block : List Byte
  inst : BitVec 20
  queue : BitVec 2
  next : Nat
  last : Nat
  binned : List Binned
  used : Nat
  flushing : Bool
  tile : Nat
  entry : Nat
  pixel : Nat
  nextTicket : Nat
  tickets : List Ticket
  flush : Option Cmd
  attrs : List Cmd
  stalled : Bool
  deriving DecidableEq, Repr, Inhabited

/-- A sampler slot `sm`n (R184, R293): descriptor address and bytes, table, version, filter. -/
structure SamplerSlot where
  bound : Bool
  addr : Nat
  desc : List Byte
  table : BitVec 6
  version : BitVec 16
  filter : BitVec 2
  deriving DecidableEq, Repr, Inhabited

/-- An entry of the weight cache (R184): dropped entries leave once they are not in use. -/
structure WeightEntry where
  table : BitVec 6
  version : BitVec 16
  bytes : List Byte
  dropped : Bool
  deriving DecidableEq, Repr, Inhabited

/-- A sampler request in flight with the binding it took at acceptance (R184). -/
structure Sample where
  cmd : Cmd
  dec : Bool
  slot : SamplerSlot
  deriving DecidableEq, Repr, Inhabited

/-- The sampler island (R179 to R184). -/
structure Sampler where
  slots : Vector SamplerSlot 16
  weights : List WeightEntry
  waiting : List Cmd
  flight : List Sample
  deriving DecidableEq, Repr

/-- A boost lease (R304, R335): kind 1 voltage, 2 meter; the code or level held; its end in ns. -/
structure Lease where
  elem : Nat
  chain : Nat
  kind : Nat
  code : Nat
  endNs : Nat
  deriving DecidableEq, Repr, Inhabited

/-- The states of a departure-list entry (R364). -/
inductive Gone where
  | stored
  | exited
  | moved (cluster x0 y0 : Nat)
  deriving DecidableEq, Repr, Inhabited

/-- An entry of the departure list (R364): the chain, the spur index, the home rectangle. -/
structure Departure where
  chain : Nat
  spur : Nat
  x0 : Nat
  y0 : Nat
  w : Nat
  h : Nat
  state : Gone
  deriving DecidableEq, Repr, Inhabited

/-- One cluster beside its cores. -/
structure Cluster where
  ports : Vector (List ChanWord) 32
  /-- The words that queue pairs have received for the ports (R330). -/
  recv : Vector (List ChanWord) 32
  edgeIn : Assoc (List ChanWord)
  edgeOut : Assoc (List ChanWord)
  fmts : Vector (Option (List Byte)) 8
  rays : List TrReq
  /-- The poisoned lines of the node cache, with the cluster's firing steps when each was filled (R393). -/
  nodePoison : Assoc Nat
  raster : Raster
  sampler : Sampler
  turn : Assoc Nat
  lease : Option Lease
  level : Nat
  departures : List Departure
  /-- When the observer of the cluster's massif last completed a period (R334). -/
  observedNs : Nat
  /-- When the regulator last moved, or last got a target to move to (R397). -/
  movedNs : Nat
  /-- Firing steps of the cluster up to a time, at the rates of its codes until then (R366, R387). -/
  stepsDone : Nat
  stepsNs : Nat
  /-- Whether the cluster waits to return to placement until its regulator follows its target (R397). -/
  returning : Bool
  deriving DecidableEq, Repr

/-- A cluster after reset: the meter is disabled, so it admits the ceiling of 4095 (R320, R333)
(DESIGN CHOICE, log 1). -/
def Cluster.reset : Cluster where
  ports := .replicate 32 []
  recv := .replicate 32 []
  edgeIn := []
  edgeOut := []
  fmts := .replicate 8 none
  rays := []
  nodePoison := []
  raster := default
  sampler := ⟨.replicate 16 ⟨false, 0, [], 0, 0, 0⟩, [], [], []⟩
  turn := []
  lease := none
  level := 4095
  departures := []
  observedNs := 0
  movedNs := 0
  stepsDone := 0
  stepsNs := 0
  returning := false

/-! ## Memory places -/

/-- A byte of a cluster's copy (R129): its value and whether it is dirty (R127). -/
structure CopyByte where
  val : Byte
  dirty : Bool
  deriving DecidableEq, Repr, Inhabited

/-- A byte in an L1 bank of a cluster: its value, and the core whose bank holds it (R21, R125). -/
structure L1Byte where
  val : Byte
  bank : Nat
  deriving DecidableEq, Repr, Inhabited

/-- A cached translation entry of a cluster (R124): the chain's root, the virtual page, its size in bits
(16, 29 or 42), and the leaf entry. -/
structure Cached where
  cluster : Nat
  root : Nat
  page : Nat
  bits : Nat
  entry : BitVec 64
  deriving DecidableEq, Repr, Inhabited

/-- A pinned sector of a cluster's copies (R137) with the tile whose fill holds it, and the cluster's firing steps when
it was taken (R387). -/
structure Pin where
  cluster : Nat
  sector : Nat
  core : Nat
  tile : Nat
  since : Nat
  deriving DecidableEq, Repr, Inhabited

/-! ## Order repair -/

/-- A domain (R144, R146, R147): its record's physical key, its chain, its sources' marks, W and the values that W has
taken, rising, the slices that a lost message keeps at their view (R395), the view of
each slice that holds its cells, and its count of discarded writes. -/
structure Domain where
  record : Nat
  chain : Nat
  count : Nat
  pod : Bool
  marks : Assoc (BitVec 24)
  w : BitVec 24
  rises : List (BitVec 24)
  cut : List Nat
  views : Assoc (BitVec 24)
  discarded : BitVec 64
  deriving DecidableEq, Repr, Inhabited

/-- An entry of a cell's history (R148): stamp, operation, operand words. -/
structure Entry where
  stamp : BitVec 40
  op : OrcOp
  ops : List Word
  deriving DecidableEq, Repr, Inhabited

/-- A bound cell (R148): the word's physical key and width, its domain, its owner chain, base, fold point
and history in ascending stamp order. -/
structure Cell where
  word : Nat
  w64 : Bool
  domain : Nat
  chain : Nat
  base : BitVec 64
  f : BitVec 24
  history : List Entry
  deriving DecidableEq, Repr, Inhabited

/-! ## Work -/

/-- A counted `bar.arrive` rule that waits for its release (R76, R260). -/
structure BarState where
  need : Nat
  count : Nat
  gen : BitVec 32
  reported : Bool
  deriving DecidableEq, Repr, Inhabited

/-- A col (R258, R259). -/
structure Col where
  holder : Option Nat
  fifo : List (Nat × Nat)
  grants : BitVec 32
  deriving DecidableEq, Repr, Inhabited

/-- How far a resident spur has come (R74, R75). -/
inductive SpurPhase where
  | loaded
  | started
  | halted
  | complete
  deriving DecidableEq, Repr, Inhabited

/-- A drain in progress (R261): the element keys the token has still to pass, and the requests fired
before it passed, which the drain waits for. -/
structure Drain where
  todo : List Nat
  covered : List Nat
  deriving DecidableEq, Repr, Inhabited

/-- What the quiescence detector looks at (R366): the step counters and the queues of a spur's elements, its links,
requests and cores, the islands of its cluster. -/
structure Glance where
  steps : List (BitVec 64)
  fifos : List (Vector (List ChanWord) 4)
  links : List Link
  reqs : List Req
  cores : List Core
  rays : List TrReq
  raster : Raster
  sampler : Sampler
  deriving DecidableEq, Repr

/-- A resident spur (R63, R79, R86, R87). -/
structure Spur where
  id : Nat
  chain : Nat
  index : Nat
  stage : Nat
  cluster : Nat
  x0 : Nat
  y0 : Nat
  w : Nat
  h : Nat
  homeX : Nat
  homeY : Nat
  flags : BitVec 16
  islands : BitVec 8
  image : Nat
  length : Nat
  phase : SpurPhase
  quiet : Bool
  /-- The image's version and required features (R79). -/
  version : Nat
  features : Nat
  bars : Vector BarState 16
  col : Option Col
  drain : Option Drain
  /-- The unused time in µs, the kind and the code of a lease that a freeze has returned (R79, R88). -/
  leaseLeft : Nat × Nat × Nat
  /-- The cluster's firing steps when the quiescence detector last saw progress, and what it saw then (R366). -/
  seen : Option (Nat × Glance)
  deriving DecidableEq, Repr

/-- How far a chain has come (R69, R71, R74, R359). -/
inductive ChainPhase where
  | waiting
  | placed
  | fetched
  | started
  | held
  | stored
  deriving DecidableEq, Repr, Inhabited

/-- A replay or wait entry of a held or frozen chain (R360, R39): the request it reissues, with the later accesses of
its rule, which the entry's beat covers. -/
structure Replay where
  code : BitVec 8
  req : Req
  rest : List Req
  deriving DecidableEq, Repr, Inhabited

/-- A placed spur of a stage before its image is loaded: list index, cluster, rectangle, the islands that its image
names, and the image (R72). -/
structure Place where
  index : Nat
  cluster : Nat
  x0 : Nat
  y0 : Nat
  w : Nat
  h : Nat
  islands : Nat
  image : Nat
  length : Nat
  deriving DecidableEq, Repr, Inhabited

/-- The state that a cluster's stateful islands keep for a ridge, as captured (R85), with the words in their output
queues. -/
structure IslandState where
  fmts : Vector (Option (List Byte)) 8
  rays : List TrReq
  raster : Raster
  sampler : Sampler
  outs : Assoc (List ChanWord)
  deriving DecidableEq, Repr

/-- What a stored image's layout has no place for, kept beside it from capture to reload (the model's own, DESIGN
CHOICE, log 7): elements by 16 · relative core byte + index, cores by relative core byte, the requests that no entry of
the image holds, the done tokens that wait, the barrier generations, the values that converter links hold, the words in
the output queues of its converters, the islands' state where the image has an island section, and how far the spur has
come. -/
structure Kept where
  index : Nat
  elems : List (Nat × Elem)
  cores : List (Nat × Core)
  reqs : List (Nat × Req)
  dones : List (Nat × Done)
  gens : List (BitVec 32)
  held : List (List Num)
  outs : Assoc (List ChanWord)
  island : Option IslandState
  phase : SpurPhase
  deriving DecidableEq, Repr

/-- A chain in its home scheduler's table (R66, R69, R71): its record's 256 bytes, its place in the order of waiting and
when its waiting last raised its priority, its fault records, its replays, its stored images (index, address and length
per spur) with what is kept beside them, and the holds on it. -/
structure Chain where
  ident : Nat
  record : List Byte
  home : Nat
  stage : Nat
  phase : ChainPhase
  effPrio : Nat
  order : Nat
  waitNs : Nat
  system : Bool
  privileged : Bool
  places : List Place
  saved : List (Nat × Nat × Nat)
  kept : List Kept
  frozen : Bool
  debugHold : Bool
  /-- Whether the chain ends with status 2 once its images are stored (R385). -/
  doomed : Bool
  faults : Nat
  orphans : Nat
  startNs : Option Nat
  startedAt : Nat
  /-- When the ridge of the stage started. -/
  ridgeNs : Nat
  replays : List Replay
  /-- The clusters and islands that hold what spurs of earlier stages left there (R85). -/
  isl : List (Nat × BitVec 8)
  /-- The last element that has taken its step of the moment at which a rule froze the ridge (R361). -/
  stopped : Option Nat
  /-- The barriers of the regions of a deterministic chain that have gone on, by the stage that they left (R76, R90). -/
  leftBars : List (Nat × List BarState) := []
  deriving DecidableEq, Repr, Inhabited

/-- A delivery to a core on its way over the mesh (R275, R364): a trigger word or an exchange chunk, with the offsets of
its poisoned bytes (R384). -/
structure Delivery where
  chain : Nat
  fromCore : Nat
  fromCt : Nat
  package : Nat
  core : Nat
  ct : Nat
  chunk : Bool
  rank : Nat
  round : Nat
  bytes : List Byte
  bad : List Nat
  word : Word
  /-- Its bytes that have gone into a stream port of 16 words, one part after another (R351). -/
  landed : Nat := 0
  deriving DecidableEq, Repr, Inhabited

/-- A queue pair (R330): words of the message under way, words of a received message that wait for the port, the offset
of its next RDMA WRITE, and whether the device has stopped it. -/
structure Qp where
  words : List Word
  inbox : List ChanWord
  offset : Nat
  stopped : Bool
  deriving DecidableEq, Repr, Inhabited

/-- A message the device hands to the outside (R325, R317, R318, R330). -/
inductive Outside where
  | vector (n : Nat)
  | register (v : Word)
  | bytes (bs : List Byte)
  | ethernet (qp : Nat) (bs : List Byte)
  deriving DecidableEq, Repr, Inhabited

/-! ## The firing step in progress -/

/-- The unit classes (R47). -/
inductive UClass where
  | alu | move | pred | mem | eng
  deriving DecidableEq, Repr, Inhabited

/-- A firing step of one element in progress (R50, R51, R56): the slots still to walk, the classes used and
the slots fired, whether the walk has stopped, whether the handler closes at the end, whether the step
counts, whether only one rule may fire, the stops that follow the step (R303), whether a `step` rule armed the
countdown in it, and the configuration writes of the element to itself, which take effect after it (R305). -/
structure Walk where
  elem : Nat
  todo : List Nat
  used : List UClass
  fired : List Nat
  stop : Bool
  closing : Bool
  counts : Bool
  single : Bool
  halted : Bool
  stops : List (BitVec 8 × BitVec 64 × Nat)
  armed : Bool
  cfg : List (Word × Word)
  handler : Nat
  startSteps : BitVec 64
  deriving DecidableEq, Repr, Inhabited

/-- The element and slot whose rule fires. -/
structure Cur where
  elem : Nat
  slot : Nat
  deriving DecidableEq, Repr, Inhabited

/-- Which agent, request or value a happening concerns: up to three numbers, a flag, and the bytes or
words that come from outside the device. -/
structure Pick where
  a : Nat
  b : Nat
  c : Nat
  flag : Bool
  bytes : List Byte
  words : List Word
  deriving DecidableEq, Repr, Inhabited

/-! ## The whole device -/

/-- The state of one HL840 package. -/
structure State where
  elems : Assoc Elem
  cores : Assoc Core
  clusters : Assoc Cluster
  links : List Link
  binds : List PortBind
  mem : Memory
  scratch : Memory
  copies : Assoc CopyByte
  /-- The lines of the clusters' copies that are held under policy 1, first in line for eviction (R127): the line's number,
  and 2^46 times its cluster; rising. -/
  early : List Nat
  l1 : Assoc L1Byte
  poison : List Nat
  copyPoison : List Nat
  scratchPoison : List Nat
  cached : List Cached
  pins : List Pin
  reqs : List Req
  dones : List Done
  domains : List Domain
  cells : List Cell
  spurs : List Spur
  chains : List Chain
  resumes : List (List Byte)
  deliveries : List Delivery
  oldPages : List (Nat × Nat)
  regs : Assoc Word
  transSeq : BitVec 64
  qps : Assoc Qp
  kucor : Assoc (BitVec 8)
  outside : List Outside
  timeNs : BitVec 64
  /-- Happenings so far; indexes the free values (the model's own). -/
  tick : Nat
  /-- The next identifier of a request, a link, a spur or a firing (the model's own). -/
  nextId : Nat
  /-- Happenings scheduled to come next, in order (the model's own). -/
  agenda : List (Instr × Pick)
  /-- What the happening that takes place concerns (the model's own). -/
  pick : Pick
  /-- The firing step in progress (the model's own). -/
  walk : Option Walk
  /-- The rule that fires (the model's own). -/
  cur : Cur
  deriving DecidableEq, Repr

/-- The device after reset (R320): nothing is loaded, self-test runs, and every register of the privileged
view has its reset value, because none is listed (DESIGN CHOICE, log 1). -/
def State.reset : State where
  elems := []
  cores := []
  clusters := []
  links := []
  binds := []
  mem := []
  scratch := []
  copies := []
  early := []
  l1 := []
  poison := []
  copyPoison := []
  scratchPoison := []
  cached := []
  pins := []
  reqs := []
  dones := []
  domains := []
  cells := []
  spurs := []
  chains := []
  resumes := []
  deliveries := []
  oldPages := []
  regs := []
  transSeq := 0
  qps := []
  kucor := []
  outside := []
  timeNs := 0
  tick := 0
  nextId := 0
  agenda := []
  pick := ⟨0, 0, 0, false, [], []⟩
  walk := none
  cur := ⟨0, 0⟩

end Sys2Proof.Machine
end

