-- ==== Sys2Proof/Config.lean ====
section
/-!
DEFINITION. What the specification leaves to the device or to one implementation: free values, which are
constants without a body, so that a claim holds whatever they are.
-/
namespace Sys2Proof.Config

/-- Which happening comes next when none is scheduled (R9, R130, R232, R239; DESIGN CHOICE, log 5). -/
opaque nextHappening : Nat → Instr × Machine.Pick

/-- Nanoseconds of device time that pass before a happening (R9, R299; DESIGN CHOICE, log 5). -/
opaque elapsed : Nat → BitVec 64

/-- The stepping in DEV_ID bits 23 to 16 (R301; DESIGN CHOICE, log 3). -/
opaque stepping : BitVec 8

/-- The features that FEAT_OFFER0 offers in bits 10 to 0, by stepping (R322, R336; DESIGN CHOICE, log 3). -/
opaque featOffer : BitVec 11

/-- PWR_LIMIT at reset, set by the board controller (R336; DESIGN CHOICE, log 3). -/
opaque powerLimit : BitVec 16

/-- The thermal observer's prediction for a massif in a period: the hottest sensor now and the predicted
junction temperature in °C, and the predicted package power in the unit of PWR_LIMIT (R334; DESIGN CHOICE, log 6). -/
opaque prediction : Nat → Nat → BitVec 8 × BitVec 8 × BitVec 16

/-- The time in µs that the observer's next predicted limit crossing leaves to a lease (R335; DESIGN CHOICE, log 6). -/
opaque leaseCap : Nat → Nat

/-- The tags of the words that a converter node emits where the specification states none (R113, R116, R117; DESIGN
CHOICE, log 15). -/
opaque convTag : Nat → Nat → BitVec 2

/-- The bytes that the raster island keeps in its bin buffer, by happening and address (R165; DESIGN CHOICE, log 16). -/
opaque binByte : Nat → Nat → BitVec 8

/-- What a setup that a program has overwritten in the bin buffer makes of sample i of a pixel: whether it covers the
sample, with which depth field, by happening, x, y and i (R165; DESIGN CHOICE, log 16). -/
opaque binSample : Nat → Nat → Nat → Nat → Option (BitVec 24)

/-- The primitive field of a fragment of an overwritten setup, by happening (R165; DESIGN CHOICE, log 16). -/
opaque binPrim : Nat → Nat

/-- The position of a sample that a pixel does not have (R160, R295; DESIGN CHOICE, log 16). -/
opaque samplePos : Nat → Nat → Nat × Nat

/-- The words of `vis.attr` for a primitive that R159 discards, by happening and place (R164; DESIGN CHOICE, log 16). -/
opaque attrWord : Nat → Nat → BitVec 32

/-- The fields of a ray's record that have no stated value, by happening and place: t, u, v, identifier and leaf address
of a ray without a hit, and u of a hit at a user leaf (R175, R176; DESIGN CHOICE, log 17). -/
opaque rayField : Nat → Nat → BitVec 64

/-- The word with tag 3 that ends a walk or a march where no status is stated (R177, R178; DESIGN CHOICE, log 17). -/
opaque endWord : Nat → BitVec 32

/-- What a reply word other than those listed does: descend or continue rather than skip or stop (R177, R178; DESIGN
CHOICE, log 17). -/
opaque oddReply : BitVec 32 → Bool

/-- Where in a save area the images of a ridge are stored: units of 64 bytes that are left free before an image (R77;
log 7). -/
opaque saveGap : Nat → Nat

/-- Bytes of a stored image whose layout is not given, by happening and offset (R84, R85; DESIGN CHOICE, log 7). -/
opaque layoutByte : Nat → Nat → BitVec 8

/-- The element whose coordinates stand in a record that names no element (R357, R369; DESIGN CHOICE, log 18). -/
opaque noElement : Nat → Nat

/-- Which of the lines that fill an L2 slice leaves when another needs its place (R21, R127, R130; DESIGN CHOICE, log
30). -/
opaque victim : Nat → Nat

/-- Firing steps per µs at an operating point other than 0, 25 and 40 (R332; DESIGN CHOICE, log 33). -/
opaque stepRate : Nat → Nat

/-- The element FIFO that an output queue of an edge-row unit is bound to, by chain, stage, spur and queue: a core
relative to the spur and [3:0] element, [5:4] input channel (R23, R83, R295, R296; DESIGN CHOICE, log 49). -/
opaque edgeLink : Nat → Nat → Nat → Nat → Nat × Nat

/-- A parameter word whose block no longer translates, after the check of its chain (R70, R299; DESIGN CHOICE, log 52).
-/
opaque lostParam : Nat → BitVec 32

/-- The accumulator of a drain that an image holds and no freeze captured (R353; DESIGN CHOICE, log 7). -/
opaque drainAcc : Nat → Nat

/-- The capacity of the input queues of the unit at an edge-row position (R83; DESIGN CHOICE, log 9). -/
opaque unitQueue : Nat → Nat

end Sys2Proof.Config
end

