-- ==== Sys2Proof/Decode.lean ====
section
/-!
DEFINITION. Decoding and encoding of slot words (R185, R186, R198 to R204).

A word is first split by the body format of its major cell (R199) into a `View`; the view's cell and form
number (fn, kind, cond or op) then name the instruction (R200 to R203). Decoding is total: a word whose cell
or form is reserved is rejected by name. Every other reserved value stays in the operands, because the device
finds it only when the rule would fire (R204, R371).
-/
namespace Sys2Proof

/-- A slot word split by its body format (R186): cell, form number and operand fields. A happening of the
device, which has no word, is an `event`. -/
inductive View where
  | r (cell : BitVec 6) (fn : BitVec 5) (o : ROp)
  | i (cell : BitVec 6) (o : IOp)
  | p (cell : BitVec 6) (cond : BitVec 4) (o : POp)
  | m (cell : BitVec 6) (kind : BitVec 3) (o : MOp)
  | e (cell : BitVec 6) (op : BitVec 4) (o : EOp)
  | s (cell : BitVec 6) (o : SOp)
  | event
  deriving DecidableEq, Repr

/-- Why a word is no instruction (R204): its cell is reserved, or the form number of an assigned cell is. -/
inductive DecodeError where
  | reservedCell (cell : BitVec 6)
  | reservedForm (cell : BitVec 6) (form : Nat)
  | truncated
  deriving DecidableEq, Repr

/-- One bit as a bit vector. -/
def bit1 (b : Bool) : BitVec 1 := BitVec.ofBool b

/-! ## Fields of a word -/

/-- The `width` bits of `w` from bit `lo` upward. -/
def field (w : Word) (lo width : Nat) : BitVec width := w.extractLsb' lo width

/-- The guard field G (R185). -/
def fieldG (w : Word) : BitVec 4 := field w 28 4
/-- The E bit (R185). -/
def fieldE (w : Word) : Bool := w.getLsbD 27
/-- The W bit (R185). -/
def fieldW (w : Word) : Bool := w.getLsbD 26
/-- The major cell (R185). -/
def fieldCell (w : Word) : BitVec 6 := field w 20 6

/-- Operands of an R-format word. -/
def rOp (w : Word) : ROp := ⟨fieldG w, fieldE w, fieldW w, field w 15 5, field w 10 5, field w 5 5⟩
/-- Operands of an I-format word. -/
def iOp (w : Word) : IOp := ⟨fieldG w, fieldE w, fieldW w, field w 15 5, field w 10 5, field w 0 10⟩
/-- Operands of a P-format word. -/
def pOp (w : Word) : POp :=
  ⟨fieldG w, fieldE w, fieldW w, field w 17 3, field w 14 3, field w 9 5, field w 4 5⟩
/-- Operands of an M-format word. -/
def mOp (w : Word) : MOp :=
  ⟨fieldG w, fieldE w, fieldW w, field w 15 5, field w 10 5, field w 5 2, field w 2 3, field w 0 2⟩
/-- Operands of an E-format word. -/
def eOp (w : Word) : EOp := ⟨fieldG w, fieldE w, fieldW w, field w 15 5, field w 10 5, field w 4 6⟩
/-- Operands of a `sys.rd` or `sys.wr` word (R198). -/
def sOp (w : Word) : SOp := ⟨fieldG w, fieldE w, fieldW w, field w 15 5, field w 10 5, field w 0 10⟩

/-! ## Cells -/

/-- The body formats of R186. -/
inductive Format where
  | r | i | p | m | e | s
  deriving DecidableEq, Repr

/-- The body format of a major cell (R199); none for a reserved cell (R374). -/
def cellFormat (cell : BitVec 6) : Option Format :=
  match cell.toNat with
  | 0x00 => some .r
  | 0x01 => some .r
  | 0x02 => some .r
  | 0x03 => some .r
  | 0x04 => some .p
  | 0x05 => some .r
  | 0x06 => some .r
  | 0x08 => some .i
  | 0x09 => some .i
  | 0x0A => some .i
  | 0x0B => some .i
  | 0x0C => some .i
  | 0x0D => some .i
  | 0x0E => some .i
  | 0x0F => some .i
  | 0x10 => some .r
  | 0x11 => some .r
  | 0x12 => some .r
  | 0x13 => some .p
  | 0x14 => some .r
  | 0x18 => some .r
  | 0x19 => some .p
  | 0x1A => some .p
  | 0x1B => some .p
  | 0x20 => some .r
  | 0x21 => some .r
  | 0x28 => some .m
  | 0x29 => some .m
  | 0x2A => some .m
  | 0x2B => some .m
  | 0x2C => some .m
  | 0x2D => some .m
  | 0x30 => some .m
  | 0x31 => some .m
  | 0x32 => some .m
  | 0x33 => some .r
  | 0x38 => some .e
  | 0x39 => some .e
  | 0x3A => some .e
  | 0x3B => some .e
  | 0x3C => some .e
  | 0x3D => some .s
  | 0x3E => some .s
  | 0x3F => some .e
  | _ => none

/-- The word split by its cell's format; none for a reserved cell. -/
def splitWord (w : Word) : Option View :=
  let cell := fieldCell w
  match cellFormat cell with
  | some .r => some (.r cell (field w 0 5) (rOp w))
  | some .i => some (.i cell (iOp w))
  | some .p => some (.p cell (field w 0 4) (pOp w))
  | some .m => some (.m cell (field w 7 3) (mOp w))
  | some .e => some (.e cell (field w 0 4) (eOp w))
  | some .s => some (.s cell (sOp w))
  | none => none

/-! ## Forms of each cell -/

/-- Forms of cell 0x00 (R200 to R203, R213). -/
def cell00 (fn : BitVec 5) (o : ROp) : Option Instr :=
  match fn.toNat with
  | 0 => some (.add o)
  | 1 => some (.sub o)
  | 2 => some (.neg o)
  | 3 => some (.abs o)
  | 4 => some (.minI32 o)
  | 5 => some (.maxI32 o)
  | 6 => some (.minN32 o)
  | 7 => some (.maxN32 o)
  | 8 => some (.sataddI32 o)
  | 9 => some (.satsubI32 o)
  | _ => none

/-- Forms of cell 0x01 (R200 to R203, R214). -/
def cell01 (fn : BitVec 5) (o : ROp) : Option Instr :=
  match fn.toNat with
  | 0 => some (.and o)
  | 1 => some (.or o)
  | 2 => some (.xor o)
  | 3 => some (.andn o)
  | 4 => some (.not o)
  | 8 => some (.shl o)
  | 9 => some (.shr o)
  | 10 => some (.sar o)
  | 11 => some (.rol o)
  | 16 => some (.clz o)
  | 17 => some (.ctz o)
  | 18 => some (.popc o)
  | 19 => some (.brev o)
  | _ => none

/-- Forms of cell 0x02 (R200 to R203, R215). -/
def cell02 (fn : BitVec 5) (o : ROp) : Option Instr :=
  match fn.toNat with
  | 0 => some (.mul o)
  | 1 => some (.mulhI32 o)
  | 2 => some (.mulhN32 o)
  | 3 => some (.mad o)
  | _ => none

/-- Forms of cell 0x03 (R200 to R203, R216). -/
def cell03 (fn : BitVec 5) (o : ROp) : Option Instr :=
  match fn.toNat with
  | 0 => some (.sel o 0)
  | 1 => some (.sel o 1)
  | 2 => some (.sel o 2)
  | 3 => some (.sel o 3)
  | 4 => some (.sel o 4)
  | 5 => some (.sel o 5)
  | 6 => some (.sel o 6)
  | 7 => some (.sel o 7)
  | _ => none

/-- Forms of cell 0x04 (R200 to R203, R221). -/
def cell04 (cond : BitVec 4) (o : POp) : Option Instr :=
  match cond.toNat with
  | 0 => some (.cmpEq o)
  | 1 => some (.cmpNe o)
  | 2 => some (.cmpLtI32 o)
  | 3 => some (.cmpLeI32 o)
  | 4 => some (.cmpLtN32 o)
  | 5 => some (.cmpLeN32 o)
  | _ => none

/-- Forms of cell 0x05 (R200 to R203, R217). -/
def cell05 (fn : BitVec 5) (o : ROp) : Option Instr :=
  match fn.toNat with
  | 0 => some (.extI8 o 0)
  | 1 => some (.extI16 o 0)
  | 2 => some (.extN8 o 0)
  | 3 => some (.extN16 o 0)
  | 4 => some (.extI8 o 1)
  | 5 => some (.extI16 o 1)
  | 6 => some (.extN8 o 1)
  | 7 => some (.extN16 o 1)
  | 8 => some (.extI8 o 2)
  | 9 => some (.extI16 o 2)
  | 10 => some (.extN8 o 2)
  | 11 => some (.extN16 o 2)
  | 12 => some (.extI8 o 3)
  | 13 => some (.extI16 o 3)
  | 14 => some (.extN8 o 3)
  | 15 => some (.extN16 o 3)
  | _ => none

/-- Forms of cell 0x06 (R200 to R203, R218). -/
def cell06 (fn : BitVec 5) (o : ROp) : Option Instr :=
  match fn.toNat with
  | 0 => some (.insN8 o 0)
  | 1 => some (.insN16 o 0)
  | 2 => some (.insN8 o 1)
  | 3 => some (.insN16 o 1)
  | 4 => some (.insN8 o 2)
  | 5 => some (.insN16 o 2)
  | 6 => some (.insN8 o 3)
  | 7 => some (.insN16 o 3)
  | _ => none

/-- Forms of cell 0x10 (R200 to R203, R222). -/
def cell10 (fn : BitVec 5) (o : ROp) : Option Instr :=
  match fn.toNat with
  | 0 => some (.addc o)
  | 1 => some (.subc o)
  | 2 => some (.mulc o)
  | 3 => some (.shlc o)
  | 4 => some (.shrc o)
  | 5 => some (.cmpc o)
  | _ => none

/-- Forms of cell 0x11 (R200 to R203, R225). -/
def cell11 (fn : BitVec 5) (o : ROp) : Option Instr :=
  match fn.toNat with
  | 0 => some (.fadd o 0)
  | 1 => some (.fsub o 0)
  | 2 => some (.fmul o 0)
  | 3 => some (.fmin o 0)
  | 4 => some (.fmax o 0)
  | 5 => some (.fabs o 0)
  | 6 => some (.fneg o 0)
  | 8 => some (.fadd o 1)
  | 9 => some (.fsub o 1)
  | 10 => some (.fmul o 1)
  | 11 => some (.fmin o 1)
  | 12 => some (.fmax o 1)
  | 13 => some (.fabs o 1)
  | 14 => some (.fneg o 1)
  | 16 => some (.fadd o 2)
  | 17 => some (.fsub o 2)
  | 18 => some (.fmul o 2)
  | 19 => some (.fmin o 2)
  | 20 => some (.fmax o 2)
  | 21 => some (.fabs o 2)
  | 22 => some (.fneg o 2)
  | 24 => some (.fadd o 3)
  | 25 => some (.fsub o 3)
  | 26 => some (.fmul o 3)
  | 27 => some (.fmin o 3)
  | 28 => some (.fmax o 3)
  | 29 => some (.fabs o 3)
  | 30 => some (.fneg o 3)
  | _ => none

/-- Forms of cell 0x12 (R200 to R203, R226). -/
def cell12 (fn : BitVec 5) (o : ROp) : Option Instr :=
  match fn.toNat with
  | 0 => some (.ffma o 0)
  | 1 => some (.ffms o 0)
  | 2 => some (.fnma o 0)
  | 8 => some (.ffma o 1)
  | 9 => some (.ffms o 1)
  | 10 => some (.fnma o 1)
  | 16 => some (.ffma o 2)
  | 17 => some (.ffms o 2)
  | 18 => some (.fnma o 2)
  | 24 => some (.ffma o 3)
  | 25 => some (.ffms o 3)
  | 26 => some (.fnma o 3)
  | _ => none

/-- Forms of cell 0x13 (R200 to R203, R227). -/
def cell13 (cond : BitVec 4) (o : POp) : Option Instr :=
  match cond.toNat with
  | 0 => some (.fcmpEq o 0)
  | 1 => some (.fcmpLt o 0)
  | 2 => some (.fcmpLe o 0)
  | 3 => some (.fcmpUn o 0)
  | 4 => some (.fcmpEq o 1)
  | 5 => some (.fcmpLt o 1)
  | 6 => some (.fcmpLe o 1)
  | 7 => some (.fcmpUn o 1)
  | 8 => some (.fcmpEq o 2)
  | 9 => some (.fcmpLt o 2)
  | 10 => some (.fcmpLe o 2)
  | 11 => some (.fcmpUn o 2)
  | 12 => some (.fcmpEq o 3)
  | 13 => some (.fcmpLt o 3)
  | 14 => some (.fcmpLe o 3)
  | 15 => some (.fcmpUn o 3)
  | _ => none

/-- Forms of cell 0x14 (R200 to R203, R228). -/
def cell14 (fn : BitVec 5) (o : ROp) : Option Instr :=
  match fn.toNat with
  | 0 => some (.fclass o 0)
  | 1 => some (.frnd o 0)
  | 2 => some (.f2iI32 o 0)
  | 3 => some (.f2iN32 o 0)
  | 4 => some (.i2fI32 o 0)
  | 5 => some (.i2fN32 o 0)
  | 6 => some (.fcvt o 0)
  | 8 => some (.fclass o 1)
  | 9 => some (.frnd o 1)
  | 10 => some (.f2iI32 o 1)
  | 11 => some (.f2iN32 o 1)
  | 12 => some (.i2fI32 o 1)
  | 13 => some (.i2fN32 o 1)
  | 14 => some (.fcvt o 1)
  | 16 => some (.fclass o 2)
  | 17 => some (.frnd o 2)
  | 18 => some (.f2iI32 o 2)
  | 19 => some (.f2iN32 o 2)
  | 20 => some (.i2fI32 o 2)
  | 21 => some (.i2fN32 o 2)
  | 22 => some (.fcvt o 2)
  | 24 => some (.fclass o 3)
  | 25 => some (.frnd o 3)
  | 26 => some (.f2iI32 o 3)
  | 27 => some (.f2iN32 o 3)
  | 28 => some (.i2fI32 o 3)
  | 29 => some (.i2fN32 o 3)
  | 30 => some (.fcvt o 3)
  | _ => none

/-- Forms of cell 0x18 (R200 to R203, R230). -/
def cell18 (fn : BitVec 5) (o : ROp) : Option Instr :=
  match fn.toNat with
  | 0 => some (.vsum o 0)
  | 1 => some (.vdot o 0)
  | 2 => some (.vmax o 0)
  | 3 => some (.vmin o 0)
  | 4 => some (.vargmax o 0)
  | 5 => some (.vargmin o 0)
  | 6 => some (.vscan o 0)
  | 7 => some (.vpack o 0)
  | 8 => some (.vunpack o 0)
  | 9 => some (.vcount o 0)
  | 16 => some (.vsum o 1)
  | 17 => some (.vdot o 1)
  | 18 => some (.vmax o 1)
  | 19 => some (.vmin o 1)
  | 20 => some (.vargmax o 1)
  | 21 => some (.vargmin o 1)
  | 22 => some (.vscan o 1)
  | 23 => some (.vpack o 1)
  | 24 => some (.vunpack o 1)
  | 25 => some (.vcount o 1)
  | _ => none

/-- Forms of cell 0x19 (R200 to R203, R231). -/
def cell19 (cond : BitVec 4) (o : POp) : Option Instr :=
  match cond.toNat with
  | 0 => some (.pset o)
  | 1 => some (.pclr o)
  | 2 => some (.pnot o)
  | 3 => some (.pand o)
  | 4 => some (.por o)
  | 5 => some (.pxor o)
  | 6 => some (.pmov o)
  | _ => none

/-- Forms of cell 0x1A (R200 to R203, R231). -/
def cell1A (cond : BitVec 4) (o : POp) : Option Instr :=
  match cond.toNat with
  | 0 => some (.pbit o)
  | _ => none

/-- Forms of cell 0x1B (R200 to R203, R231). -/
def cell1B (cond : BitVec 4) (o : POp) : Option Instr :=
  match cond.toNat with
  | 0 => some (.pchanNe o 0)
  | 1 => some (.pchanNe o 1)
  | 2 => some (.pchanNe o 2)
  | 3 => some (.pchanNe o 3)
  | 4 => some (.pchanTag o 0)
  | 5 => some (.pchanTag o 1)
  | 6 => some (.pchanTag o 2)
  | 7 => some (.pchanTag o 3)
  | 8 => some (.pchanRoom o 0)
  | 9 => some (.pchanRoom o 1)
  | 10 => some (.pchanRoom o 2)
  | 11 => some (.pchanRoom o 3)
  | _ => none

/-- Forms of cell 0x20 (R200 to R203, R233). -/
def cell20 (fn : BitVec 5) (o : ROp) : Option Instr :=
  match fn.toNat with
  | 0 => some (.mov o)
  | 1 => some (.send o)
  | 2 => some (.drop o)
  | 3 => some (.dup o)
  | 4 => some (.retag o)
  | 5 => some (.steer o)
  | 6 => some (.cmrg o)
  | 7 => some (.amrg o)
  | _ => none

/-- Forms of cell 0x21 (R200 to R203, R237). -/
def cell21 (fn : BitVec 5) (o : ROp) : Option Instr :=
  match fn.toNat with
  | 0 => some (.sinF o)
  | 1 => some (.cosF o)
  | 2 => some (.sinQ o)
  | 3 => some (.cosQ o)
  | 4 => some (.exp2 o)
  | 5 => some (.log2 o)
  | 6 => some (.rcp o)
  | 7 => some (.rsqrt o)
  | 8 => some (.sqrt o)
  | 9 => some (.fdiv o)
  | 10 => some (.tanh o)
  | 11 => some (.erf o)
  | 12 => some (.idivI32 o)
  | 13 => some (.idivN32 o)
  | 14 => some (.iremI32 o)
  | 15 => some (.iremN32 o)
  | 18 => some (.sinQP7 o)
  | 19 => some (.cosQP7 o)
  | _ => none

/-- Forms of cell 0x28 (R200 to R203, R245). -/
def cell28 (kind : BitVec 3) (o : MOp) : Option Instr :=
  match kind.toNat with
  | 0 => some (.ld o 0)
  | 1 => some (.ld o 1)
  | 2 => some (.ld o 2)
  | 3 => some (.ld o 3)
  | _ => none

/-- Forms of cell 0x29 (R200 to R203, R245). -/
def cell29 (kind : BitVec 3) (o : MOp) : Option Instr :=
  match kind.toNat with
  | 0 => some (.st o 0)
  | 1 => some (.st o 1)
  | 2 => some (.st o 2)
  | 3 => some (.st o 3)
  | _ => none

/-- Forms of cell 0x2A (R200 to R203, R245). -/
def cell2A (kind : BitVec 3) (o : MOp) : Option Instr :=
  match kind.toNat with
  | 0 => some (.ldBy o 0)
  | 1 => some (.ldBy o 1)
  | 2 => some (.ldBy o 2)
  | 3 => some (.ldBy o 3)
  | _ => none

/-- Forms of cell 0x2B (R200 to R203, R248). -/
def cell2B (kind : BitVec 3) (o : MOp) : Option Instr :=
  match kind.toNat with
  | 0 => some (.ldblk o)
  | 1 => some (.stblk o)
  | 2 => some (.pref o)
  | _ => none

/-- Forms of cell 0x2C (R200 to R203, R251). -/
def cell2C (kind : BitVec 3) (o : MOp) : Option Instr :=
  match kind.toNat with
  | 0 => some (.amoAdd o)
  | 1 => some (.amoSub o)
  | 2 => some (.amoMin o)
  | 3 => some (.amoMax o)
  | 4 => some (.amoAnd o)
  | 5 => some (.amoOr o)
  | 6 => some (.amoXor o)
  | 7 => some (.amoSwap o)
  | _ => none

/-- Forms of cell 0x2D (R200 to R203, R251). -/
def cell2D (kind : BitVec 3) (o : MOp) : Option Instr :=
  match kind.toNat with
  | 0 => some (.amoCas o)
  | 1 => some (.amoInc o)
  | 2 => some (.amoFmin o)
  | 3 => some (.amoFmax o)
  | 4 => some (.amoFadd o)
  | 5 => some (.amoVmin64 o)
  | _ => none

/-- Forms of cell 0x30 (R200 to R203, R254). -/
def cell30 (kind : BitVec 3) (o : MOp) : Option Instr :=
  match kind.toNat with
  | 0 => some (.orcDom o)
  | 1 => some (.orcBind o)
  | 2 => some (.orcFree o)
  | 3 => some (.orcFold o)
  | 4 => some (.orcMark o)
  | _ => none

/-- Forms of cell 0x31 (R200 to R203, R255). -/
def cell31 (kind : BitVec 3) (o : MOp) : Option Instr :=
  match kind.toNat with
  | 0 => some (.orcOpSet o)
  | 1 => some (.orcOpAddF32 o)
  | 2 => some (.orcOpAddF64 o)
  | 3 => some (.orcOpMulF32 o)
  | 4 => some (.orcOpFmaF32 o)
  | 5 => some (.orcOpMaxF32 o)
  | 6 => some (.orcOpMinF32 o)
  | 7 => some (.orcOpAddInt o)
  | _ => none

/-- Forms of cell 0x32 (R200 to R203, R256). -/
def cell32 (kind : BitVec 3) (o : MOp) : Option Instr :=
  match kind.toNat with
  | 0 => some (.orcLdt o)
  | 1 => some (.orcLds o)
  | _ => none

/-- Forms of cell 0x33 (R200 to R203, R257). -/
def cell33 (fn : BitVec 5) (o : ROp) : Option Instr :=
  match fn.toNat with
  | 0 => some (.colReq o)
  | 1 => some (.colRel o)
  | 2 => some (.barArrive o)
  | 3 => some (.drain o)
  | 4 => some (.quiet o)
  | 5 => some (.sig o)
  | 6 => some (.chainPut o)
  | _ => none

/-- Forms of cell 0x38 (R200 to R203, R276). -/
def cell38 (op : BitVec 4) (o : EOp) : Option Instr :=
  match op.toNat with
  | 0 => some (.ctArm o)
  | 1 => some (.ctFire o)
  | 2 => some (.ctStop o)
  | 3 => some (.ctStat o)
  | 4 => some (.caSet o)
  | 5 => some (.caGet o)
  | _ => none

/-- Forms of cell 0x39 (R200 to R203, R281). -/
def cell39 (op : BitVec 4) (o : EOp) : Option Instr :=
  match op.toNat with
  | 0 => some (.mxLd o)
  | 1 => some (.mxRule o)
  | 2 => some (.mxZero o)
  | 3 => some (.mxRead o)
  | 4 => some (.mxDrain o)
  | 5 => some (.mseqGemm o)
  | 6 => some (.mseqConv o)
  | 7 => some (.mseqStop o)
  | _ => none

/-- Forms of cell 0x3A (R200 to R203, R293). -/
def cell3A (op : BitVec 4) (o : EOp) : Option Instr :=
  match op.toNat with
  | 0 => some (.smpBind o)
  | 1 => some (.wtLd o)
  | 2 => some (.wtDrop o)
  | 3 => some (.smpTex o)
  | 4 => some (.smpDec o)
  | _ => none

/-- Forms of cell 0x3B (R200 to R203, R295). -/
def cell3B (op : BitVec 4) (o : EOp) : Option Instr :=
  match op.toNat with
  | 0 => some (.rsDraw o)
  | 1 => some (.rsFlush o)
  | 2 => some (.visAttr o)
  | 3 => some (.blPut o)
  | _ => none

/-- Forms of cell 0x3C (R200 to R203, R296). -/
def cell3C (op : BitVec 4) (o : EOp) : Option Instr :=
  match op.toNat with
  | 0 => some (.trFmt o)
  | 1 => some (.trRay o)
  | 2 => some (.trWalk o)
  | 3 => some (.trMarch o)
  | 4 => some (.trRes o)
  | _ => none

/-- Forms of cell 0x3F (R200 to R203, R298). -/
def cell3F (op : BitVec 4) (o : EOp) : Option Instr :=
  match op.toNat with
  | 0 => some (.nop o)
  | 1 => some (.halt o)
  | 2 => some (.trap o)
  | 3 => some (.brk o)
  | 4 => some (.leaseReq o)
  | 5 => some (.leaseRel o)
  | 6 => some (.step o)
  | 7 => some (.cfgWr o)
  | _ => none

/-- The instruction of an R-format cell. -/
def instrR (cell : BitVec 6) (fn : BitVec 5) (o : ROp) : Option Instr :=
  match cell.toNat with
  | 0x00 => cell00 fn o
  | 0x01 => cell01 fn o
  | 0x02 => cell02 fn o
  | 0x03 => cell03 fn o
  | 0x05 => cell05 fn o
  | 0x06 => cell06 fn o
  | 0x10 => cell10 fn o
  | 0x11 => cell11 fn o
  | 0x12 => cell12 fn o
  | 0x14 => cell14 fn o
  | 0x18 => cell18 fn o
  | 0x20 => cell20 fn o
  | 0x21 => cell21 fn o
  | 0x33 => cell33 fn o
  | _ => none

/-- The instruction of an P-format cell. -/
def instrP (cell : BitVec 6) (cond : BitVec 4) (o : POp) : Option Instr :=
  match cell.toNat with
  | 0x04 => cell04 cond o
  | 0x13 => cell13 cond o
  | 0x19 => cell19 cond o
  | 0x1A => cell1A cond o
  | 0x1B => cell1B cond o
  | _ => none

/-- The instruction of an M-format cell. -/
def instrM (cell : BitVec 6) (kind : BitVec 3) (o : MOp) : Option Instr :=
  match cell.toNat with
  | 0x28 => cell28 kind o
  | 0x29 => cell29 kind o
  | 0x2A => cell2A kind o
  | 0x2B => cell2B kind o
  | 0x2C => cell2C kind o
  | 0x2D => cell2D kind o
  | 0x30 => cell30 kind o
  | 0x31 => cell31 kind o
  | 0x32 => cell32 kind o
  | _ => none

/-- The instruction of an E-format cell. -/
def instrE (cell : BitVec 6) (op : BitVec 4) (o : EOp) : Option Instr :=
  match cell.toNat with
  | 0x38 => cell38 op o
  | 0x39 => cell39 op o
  | 0x3A => cell3A op o
  | 0x3B => cell3B op o
  | 0x3C => cell3C op o
  | 0x3F => cell3F op o
  | _ => none

/-- The instruction of an I-format cell (R201, R219, R220). -/
def instrI (cell : BitVec 6) (o : IOp) : Option Instr :=
  match cell.toNat with
  | 0x08 => some (.addi o)
  | 0x09 => some (.andi o)
  | 0x0A => some (.ori o)
  | 0x0B => some (.xori o)
  | 0x0C => some (.shli o)
  | 0x0D => some (.shri o)
  | 0x0E => some (.sari o)
  | 0x0F => some (.li o)
  | _ => none

/-- The instruction that a view names (R200 to R203). -/
def View.instr? : View → Option Instr
  | .r cell fn o => instrR cell fn o
  | .i cell o => instrI cell o
  | .p cell cond o => instrP cell cond o
  | .m cell kind o => instrM cell kind o
  | .e cell op o => instrE cell op o
  | .s cell o => if cell = 0x3D then some (.sysRd o) else if cell = 0x3E then some (.sysWr o) else none
  | .event => none

/-- The form number of a view. -/
def View.form : View → Nat
  | .r _ fn _ => fn.toNat
  | .i _ _ => 0
  | .p _ cond _ => cond.toNat
  | .m _ kind _ => kind.toNat
  | .e _ op _ => op.toNat
  | .s _ _ => 0
  | .event => 0

/-- Decodes one slot word (R185, R199 to R204). -/
def decodeWord (w : Word) : Except DecodeError Instr :=
  match splitWord w with
  | none => .error (.reservedCell (fieldCell w))
  | some v =>
    match v.instr? with
    | some i => .ok i
    | none => .error (.reservedForm (fieldCell w) v.form)

/-- The little-endian word of four bytes (R7). -/
def wordOfBytes (b0 b1 b2 b3 : Byte) : Word := b3 ++ b2 ++ b1 ++ b0

/-- Decodes the first slot word of an image's bytes, and answers the bytes that follow it (R7, R82). -/
def decode : List Byte → Except DecodeError (Instr × List Byte)
  | b0 :: b1 :: b2 :: b3 :: rest =>
    match decodeWord (wordOfBytes b0 b1 b2 b3) with
    | .ok i => .ok (i, rest)
    | .error e => .error e
  | _ => .error .truncated

/-- The four bytes of a word, lowest address first (R7). -/
def bytesOfWord (w : Word) : List Byte :=
  [w.extractLsb' 0 8, w.extractLsb' 8 8, w.extractLsb' 16 8, w.extractLsb' 24 8]

/-- The instruction read from a word whose bits are numbered as the opcode table numbers them: the word is
laid out in memory and given to the decoder. -/
def decodeTableWord (nbits w : Nat) : Option Instr :=
  match decode (bytesOfWord (BitVec.ofNat 32 (w % 2 ^ nbits))) with
  | .ok (i, _) => some i
  | .error _ => none

/-! ## Encoding -/

/-- How an instruction's operands lie in its word: the same tables read the other way. -/
def Instr.view : Instr → View
  | .add o => .r 0x00 0 o
  | .sub o => .r 0x00 1 o
  | .neg o => .r 0x00 2 o
  | .abs o => .r 0x00 3 o
  | .minI32 o => .r 0x00 4 o
  | .maxI32 o => .r 0x00 5 o
  | .minN32 o => .r 0x00 6 o
  | .maxN32 o => .r 0x00 7 o
  | .sataddI32 o => .r 0x00 8 o
  | .satsubI32 o => .r 0x00 9 o
  | .and o => .r 0x01 0 o
  | .or o => .r 0x01 1 o
  | .xor o => .r 0x01 2 o
  | .andn o => .r 0x01 3 o
  | .not o => .r 0x01 4 o
  | .shl o => .r 0x01 8 o
  | .shr o => .r 0x01 9 o
  | .sar o => .r 0x01 10 o
  | .rol o => .r 0x01 11 o
  | .clz o => .r 0x01 16 o
  | .ctz o => .r 0x01 17 o
  | .popc o => .r 0x01 18 o
  | .brev o => .r 0x01 19 o
  | .mul o => .r 0x02 0 o
  | .mulhI32 o => .r 0x02 1 o
  | .mulhN32 o => .r 0x02 2 o
  | .mad o => .r 0x02 3 o
  | .sel o k => .r 0x03 (0#2 ++ k) o
  | .cmpEq o => .p 0x04 0 o
  | .cmpNe o => .p 0x04 1 o
  | .cmpLtI32 o => .p 0x04 2 o
  | .cmpLeI32 o => .p 0x04 3 o
  | .cmpLtN32 o => .p 0x04 4 o
  | .cmpLeN32 o => .p 0x04 5 o
  | .extI8 o l => .r 0x05 (0#1 ++ l ++ 0#2) o
  | .extI16 o l => .r 0x05 (0#1 ++ l ++ 1#2) o
  | .extN8 o l => .r 0x05 (0#1 ++ l ++ 2#2) o
  | .extN16 o l => .r 0x05 (0#1 ++ l ++ 3#2) o
  | .insN8 o l => .r 0x06 (0#2 ++ l ++ 0#1) o
  | .insN16 o l => .r 0x06 (0#2 ++ l ++ 1#1) o
  | .addi o => .i 0x08 o
  | .andi o => .i 0x09 o
  | .ori o => .i 0x0A o
  | .xori o => .i 0x0B o
  | .shli o => .i 0x0C o
  | .shri o => .i 0x0D o
  | .sari o => .i 0x0E o
  | .li o => .i 0x0F o
  | .addc o => .r 0x10 0 o
  | .subc o => .r 0x10 1 o
  | .mulc o => .r 0x10 2 o
  | .shlc o => .r 0x10 3 o
  | .shrc o => .r 0x10 4 o
  | .cmpc o => .r 0x10 5 o
  | .fadd o t => .r 0x11 (t ++ 0#3) o
  | .fsub o t => .r 0x11 (t ++ 1#3) o
  | .fmul o t => .r 0x11 (t ++ 2#3) o
  | .fmin o t => .r 0x11 (t ++ 3#3) o
  | .fmax o t => .r 0x11 (t ++ 4#3) o
  | .fabs o t => .r 0x11 (t ++ 5#3) o
  | .fneg o t => .r 0x11 (t ++ 6#3) o
  | .ffma o t => .r 0x12 (t ++ 0#3) o
  | .ffms o t => .r 0x12 (t ++ 1#3) o
  | .fnma o t => .r 0x12 (t ++ 2#3) o
  | .fcmpEq o t => .p 0x13 (t ++ 0#2) o
  | .fcmpLt o t => .p 0x13 (t ++ 1#2) o
  | .fcmpLe o t => .p 0x13 (t ++ 2#2) o
  | .fcmpUn o t => .p 0x13 (t ++ 3#2) o
  | .fclass o t => .r 0x14 (t ++ 0#3) o
  | .frnd o t => .r 0x14 (t ++ 1#3) o
  | .f2iI32 o t => .r 0x14 (t ++ 2#3) o
  | .f2iN32 o t => .r 0x14 (t ++ 3#3) o
  | .i2fI32 o t => .r 0x14 (t ++ 4#3) o
  | .i2fN32 o t => .r 0x14 (t ++ 5#3) o
  | .fcvt o t => .r 0x14 (t ++ 6#3) o
  | .vsum o t => .r 0x18 (t ++ 0#4) o
  | .vdot o t => .r 0x18 (t ++ 1#4) o
  | .vmax o t => .r 0x18 (t ++ 2#4) o
  | .vmin o t => .r 0x18 (t ++ 3#4) o
  | .vargmax o t => .r 0x18 (t ++ 4#4) o
  | .vargmin o t => .r 0x18 (t ++ 5#4) o
  | .vscan o t => .r 0x18 (t ++ 6#4) o
  | .vpack o t => .r 0x18 (t ++ 7#4) o
  | .vunpack o t => .r 0x18 (t ++ 8#4) o
  | .vcount o t => .r 0x18 (t ++ 9#4) o
  | .pset o => .p 0x19 0 o
  | .pclr o => .p 0x19 1 o
  | .pnot o => .p 0x19 2 o
  | .pand o => .p 0x19 3 o
  | .por o => .p 0x19 4 o
  | .pxor o => .p 0x19 5 o
  | .pmov o => .p 0x19 6 o
  | .pbit o => .p 0x1A 0 o
  | .pchanNe o x => .p 0x1B (0#2 ++ x) o
  | .pchanTag o x => .p 0x1B (1#2 ++ x) o
  | .pchanRoom o x => .p 0x1B (2#2 ++ x) o
  | .mov o => .r 0x20 0 o
  | .send o => .r 0x20 1 o
  | .drop o => .r 0x20 2 o
  | .dup o => .r 0x20 3 o
  | .retag o => .r 0x20 4 o
  | .steer o => .r 0x20 5 o
  | .cmrg o => .r 0x20 6 o
  | .amrg o => .r 0x20 7 o
  | .sinF o => .r 0x21 0 o
  | .cosF o => .r 0x21 1 o
  | .sinQ o => .r 0x21 2 o
  | .cosQ o => .r 0x21 3 o
  | .exp2 o => .r 0x21 4 o
  | .log2 o => .r 0x21 5 o
  | .rcp o => .r 0x21 6 o
  | .rsqrt o => .r 0x21 7 o
  | .sqrt o => .r 0x21 8 o
  | .fdiv o => .r 0x21 9 o
  | .tanh o => .r 0x21 10 o
  | .erf o => .r 0x21 11 o
  | .idivI32 o => .r 0x21 12 o
  | .idivN32 o => .r 0x21 13 o
  | .iremI32 o => .r 0x21 14 o
  | .iremN32 o => .r 0x21 15 o
  | .sinQP7 o => .r 0x21 18 o
  | .cosQP7 o => .r 0x21 19 o
  | .ld o k => .m 0x28 (0#1 ++ k) o
  | .st o k => .m 0x29 (0#1 ++ k) o
  | .ldBy o k => .m 0x2A (0#1 ++ k) o
  | .ldblk o => .m 0x2B 0 o
  | .stblk o => .m 0x2B 1 o
  | .pref o => .m 0x2B 2 o
  | .amoAdd o => .m 0x2C 0 o
  | .amoSub o => .m 0x2C 1 o
  | .amoMin o => .m 0x2C 2 o
  | .amoMax o => .m 0x2C 3 o
  | .amoAnd o => .m 0x2C 4 o
  | .amoOr o => .m 0x2C 5 o
  | .amoXor o => .m 0x2C 6 o
  | .amoSwap o => .m 0x2C 7 o
  | .amoCas o => .m 0x2D 0 o
  | .amoInc o => .m 0x2D 1 o
  | .amoFmin o => .m 0x2D 2 o
  | .amoFmax o => .m 0x2D 3 o
  | .amoFadd o => .m 0x2D 4 o
  | .amoVmin64 o => .m 0x2D 5 o
  | .orcDom o => .m 0x30 0 o
  | .orcBind o => .m 0x30 1 o
  | .orcFree o => .m 0x30 2 o
  | .orcFold o => .m 0x30 3 o
  | .orcMark o => .m 0x30 4 o
  | .orcOpSet o => .m 0x31 0 o
  | .orcOpAddF32 o => .m 0x31 1 o
  | .orcOpAddF64 o => .m 0x31 2 o
  | .orcOpMulF32 o => .m 0x31 3 o
  | .orcOpFmaF32 o => .m 0x31 4 o
  | .orcOpMaxF32 o => .m 0x31 5 o
  | .orcOpMinF32 o => .m 0x31 6 o
  | .orcOpAddInt o => .m 0x31 7 o
  | .orcLdt o => .m 0x32 0 o
  | .orcLds o => .m 0x32 1 o
  | .colReq o => .r 0x33 0 o
  | .colRel o => .r 0x33 1 o
  | .barArrive o => .r 0x33 2 o
  | .drain o => .r 0x33 3 o
  | .quiet o => .r 0x33 4 o
  | .sig o => .r 0x33 5 o
  | .chainPut o => .r 0x33 6 o
  | .ctArm o => .e 0x38 0 o
  | .ctFire o => .e 0x38 1 o
  | .ctStop o => .e 0x38 2 o
  | .ctStat o => .e 0x38 3 o
  | .caSet o => .e 0x38 4 o
  | .caGet o => .e 0x38 5 o
  | .mxLd o => .e 0x39 0 o
  | .mxRule o => .e 0x39 1 o
  | .mxZero o => .e 0x39 2 o
  | .mxRead o => .e 0x39 3 o
  | .mxDrain o => .e 0x39 4 o
  | .mseqGemm o => .e 0x39 5 o
  | .mseqConv o => .e 0x39 6 o
  | .mseqStop o => .e 0x39 7 o
  | .smpBind o => .e 0x3A 0 o
  | .wtLd o => .e 0x3A 1 o
  | .wtDrop o => .e 0x3A 2 o
  | .smpTex o => .e 0x3A 3 o
  | .smpDec o => .e 0x3A 4 o
  | .rsDraw o => .e 0x3B 0 o
  | .rsFlush o => .e 0x3B 1 o
  | .visAttr o => .e 0x3B 2 o
  | .blPut o => .e 0x3B 3 o
  | .trFmt o => .e 0x3C 0 o
  | .trRay o => .e 0x3C 1 o
  | .trWalk o => .e 0x3C 2 o
  | .trMarch o => .e 0x3C 3 o
  | .trRes o => .e 0x3C 4 o
  | .sysRd o => .s 0x3D o
  | .sysWr o => .s 0x3E o
  | .nop o => .e 0x3F 0 o
  | .halt o => .e 0x3F 1 o
  | .trap o => .e 0x3F 2 o
  | .brk o => .e 0x3F 3 o
  | .leaseReq o => .e 0x3F 4 o
  | .leaseRel o => .e 0x3F 5 o
  | .step o => .e 0x3F 6 o
  | .cfgWr o => .e 0x3F 7 o
  | .reset => .event
  | .selfTestComplete => .event
  | .devStartWrite => .event
  | .lqTailWrite => .event
  | .lqBaseSizeWrite => .event
  | .chainRecordTake => .event
  | .resumeRecord => .event
  | .stagePlacement => .event
  | .priorityAging => .event
  | .freezeWave => .event
  | .imageFetch => .event
  | .ridgeStart => .event
  | .spurCompletion => .event
  | .deterministicStageSwitch => .event
  | .spurReload => .event
  | .firingStep => .event
  | .linkWordMove => .event
  | .slotCountReturn => .event
  | .carryTransfer => .event
  | .delayedResultArrival => .event
  | .writeLanding => .event
  | .readBinding => .event
  | .doneTokenEmit => .event
  | .copyEvict => .event
  | .copyWriteBack => .event
  | .copyFill => .event
  | .atomicApply => .event
  | .translationWalk => .event
  | .pinRelease => .event
  | .pinHoldTimeout => .event
  | .transInvalHiWrite => .event
  | .transSeqLoRead => .event
  | .chainKillHiWrite => .event
  | .stepLoRead => .event
  | .timeLoRead => .event
  | .eccLastLoRead => .event
  | .hmaskWrite => .event
  | .sigPendWrite => .event
  | .sigEnWrite => .event
  | .vregWrite => .event
  | .meterWrite => .event
  | .clusOffWrite => .event
  | .registerWrite => .event
  | .regulatorStep => .event
  | .thermalObserverPeriod => .event
  | .observerFallback => .event
  | .clusterOutOfPlacement => .event
  | .leaseExpiry => .event
  | .hostMemRead => .event
  | .hostMemWrite => .event
  | .hostLineWrite => .event
  | .kucorPortTraining => .event
  | .kucorFlitRetry => .event
  | .kucorPortDown => .event
  | .peerAccessTimeout => .event
  | .ethMessageSend => .event
  | .ethSendReceive => .event
  | .ethRdmaWriteReceive => .event
  | .ethRdmaReadReceive => .event
  | .qpValidClear => .event
  | .qpValidSet => .event
  | .qpError => .event
  | .portAccessComplete => .event
  | .converterGroup => .event
  | .eventChannelPlace => .event
  | .templateTriggerAccept => .event
  | .copyFiringStart => .event
  | .copyFiringCompletion => .event
  | .shadowPageReturn => .event
  | .exchangeChunkArrival => .event
  | .cairnLanding => .event
  | .peerDeliveryArrival => .event
  | .matrixCommandTake => .event
  | .tileFillComplete => .event
  | .matrixOperation => .event
  | .matrixDrainDone => .event
  | .mseqKblockBoundary => .event
  | .islandRequestAccept => .event
  | .visAttrResult => .event
  | .binFlush => .event
  | .fragmentEmit => .event
  | .ticketRetire => .event
  | .drawFlushComplete => .event
  | .traversalNodeVisit => .event
  | .callbackReply => .event
  | .marchCellEmit => .event
  | .rayEnd => .event
  | .sampleComplete => .event
  | .weightLoadBind => .event
  | .weightEntryRemove => .event
  | .weightEntryPoison => .event
  | .nodePoisonExpiry => .event
  | .orcOpArrival => .event
  | .orcMarkApply => .event
  | .watermarkViewRise => .event
  | .settledLoadAnswer => .event
  | .orcFreeEnd => .event
  | .barrierArrivalMessage => .event
  | .barrierRelease => .event
  | .colGrant => .event
  | .drainTokenPass => .event
  | .drainEnd => .event
  | .quiescencePeriod => .event
  | .configScrubVisit => .event
  | .parityError => .event
  | .stepCountdownExpiry => .event
  | .orcRequestArrival => .event
  | .meterRateRise => .event
  | .debuggerFreezeLift => .event
  | .ethPortStateChange => .event

/-- The word of an R-format rule (R186). -/
def encR (cell : BitVec 6) (fn : BitVec 5) (o : ROp) : Word :=
  o.g ++ bit1 o.e ++ bit1 o.w ++ cell ++ o.d ++ o.a ++ o.b ++ fn
/-- The word of an I-format rule (R186). -/
def encI (cell : BitVec 6) (o : IOp) : Word :=
  o.g ++ bit1 o.e ++ bit1 o.w ++ cell ++ o.d ++ o.a ++ o.i
/-- The word of a P-format rule (R186). -/
def encP (cell : BitVec 6) (cond : BitVec 4) (o : POp) : Word :=
  o.g ++ bit1 o.e ++ bit1 o.w ++ cell ++ o.pd ++ o.pop ++ o.a ++ o.b ++ cond
/-- The word of an M-format rule (R186). -/
def encM (cell : BitVec 6) (kind : BitVec 3) (o : MOp) : Word :=
  o.g ++ bit1 o.e ++ bit1 o.w ++ cell ++ o.data ++ o.addr ++ kind ++ o.space ++ o.scope ++ o.done
/-- The word of an E-format rule (R186). -/
def encE (cell : BitVec 6) (op : BitVec 4) (o : EOp) : Word :=
  o.g ++ bit1 o.e ++ bit1 o.w ++ cell ++ o.src ++ o.port ++ o.obj ++ op
/-- The word of a `sys.rd` or `sys.wr` rule (R198). -/
def encS (cell : BitVec 6) (o : SOp) : Word :=
  o.g ++ bit1 o.e ++ bit1 o.w ++ cell ++ o.src ++ o.port ++ o.num

/-- The word of a view; a happening has none. -/
def View.word? : View → Option Word
  | .r cell fn o => some (encR cell fn o)
  | .i cell o => some (encI cell o)
  | .p cell cond o => some (encP cell cond o)
  | .m cell kind o => some (encM cell kind o)
  | .e cell op o => some (encE cell op o)
  | .s cell o => some (encS cell o)
  | .event => none

/-- The words of an instruction: one slot word for a rule, none for a happening of the device. -/
def encode (i : Instr) : List Word :=
  match i.view.word? with
  | some w => [w]
  | none => []

/-- Whether the instruction is a rule form, which a slot word names. -/
def Instr.isRule (i : Instr) : Bool :=
  match i.view with
  | .event => false
  | _ => true

end Sys2Proof
end

