-- ==== Sys2Proof/Machine/Store.lean ====
section
/-!
DEFINITION. Sparse data and memory: finding and storing by key, the canonical form of a memory, bytes in
little-endian order (R7), and fields of structures held as bytes.
-/
namespace Sys2Proof.Machine

/-! ## Keyed data -/

/-- The value of a key, if it is listed. -/
def Assoc.find {α : Type} : Assoc α → Nat → Option α
  | [], _ => none
  | (j, v) :: rest, k => if j = k then some v else Assoc.find rest k

/-- Stores a value under a key, keys rising. -/
def Assoc.put {α : Type} : Assoc α → Nat → α → Assoc α
  | [], k, v => [(k, v)]
  | (j, u) :: rest, k, v =>
    if k < j then (k, v) :: (j, u) :: rest
    else if k = j then (k, v) :: rest
    else (j, u) :: Assoc.put rest k v

/-- Removes a key. -/
def Assoc.del {α : Type} : Assoc α → Nat → Assoc α
  | [], _ => []
  | (j, u) :: rest, k => if j = k then rest else (j, u) :: Assoc.del rest k

/-- Keys strictly rising. -/
def Assoc.wf {α : Type} (m : Assoc α) : Bool := decide ((m.map Prod.fst).Pairwise (· < ·))

/-! ## Sets of numbers, rising -/

/-- Adds a number to a rising list without repeats. -/
def setAdd : List Nat → Nat → List Nat
  | [], k => [k]
  | j :: rest, k => if k < j then k :: j :: rest else if k = j then j :: rest else j :: setAdd rest k

/-- Removes a number. -/
def setDel (l : List Nat) (k : Nat) : List Nat := l.filter (· != k)

/-! ## Memory -/

/-- What a byte that nothing has written reads as (DESIGN CHOICE, log 2). -/
def Memory.unwritten : Byte := 0

/-- The byte at an address. -/
def Memory.read (m : Memory) (a : Nat) : Byte :=
  match Assoc.find m a with
  | some b => b
  | none => Memory.unwritten

/-- Stores a byte, keeping the canonical form: storing what an unlisted address reads as removes the entry. -/
def Memory.write (m : Memory) (a : Nat) (b : Byte) : Memory :=
  if b = Memory.unwritten then Assoc.del m a else Assoc.put m a b

/-- The canonical form: addresses strictly rising, no entry equal to what an unlisted address reads as. -/
def Memory.wf (m : Memory) : Bool :=
  decide ((m.map Prod.fst).Pairwise (· < ·)) && m.all (fun c => c.2 != Memory.unwritten)

/-- `n` bytes from an address upward. -/
def Memory.readN (m : Memory) (a : Nat) : Nat → List Byte
  | 0 => []
  | n + 1 => m.read a :: Memory.readN m (a + 1) n

/-- Stores bytes from an address upward. -/
def Memory.writeN (m : Memory) (a : Nat) : List Byte → Memory
  | [] => m
  | b :: bs => Memory.writeN (m.write a b) (a + 1) bs

/-! ## Little-endian numbers (R7) -/

/-- The number that bytes hold, the first byte lowest. -/
def natOfBytes : List Byte → Nat
  | [] => 0
  | b :: bs => b.toNat + 256 * natOfBytes bs

/-- The lowest `n` bytes of a number, lowest first. -/
def bytesOfNat : Nat → Nat → List Byte
  | 0, _ => []
  | n + 1, v => BitVec.ofNat 8 (v % 256) :: bytesOfNat n (v / 256)

/-- A field of `n` bytes at an offset of a structure held as bytes. -/
def fieldAt (bs : List Byte) (off n : Nat) : Nat := natOfBytes ((bs.drop off).take n)

/-- A byte of a structure. -/
def byteAt (bs : List Byte) (off : Nat) : Nat := fieldAt bs off 1

/-- A 32-bit word of a structure. -/
def wordAt (bs : List Byte) (off : Nat) : Word := BitVec.ofNat 32 (fieldAt bs off 4)

/-- A signed byte of a structure. -/
def sbyteAt (bs : List Byte) (off : Nat) : Int := (BitVec.ofNat 8 (byteAt bs off)).toInt

/-- Whether every byte of a range of a structure is zero. -/
def zeroAt (bs : List Byte) (off n : Nat) : Bool := ((bs.drop off).take n).all (· == 0)

/-- The 32-bit words of bytes, in address order; a part of a word at the end is filled with zeros. -/
def wordsOfBytes : List Byte → List Word
  | b0 :: b1 :: b2 :: b3 :: rest => wordOfBytes b0 b1 b2 b3 :: wordsOfBytes rest
  | [] => []
  | b0 :: rest => [wordOfBytes b0 (rest.getD 0 0) (rest.getD 1 0) 0]

/-- The bytes of words, in address order. -/
def bytesOfWords (ws : List Word) : List Byte := ws.flatMap bytesOfWord

/-- A word as a number split into two words, low first. -/
def wordsOf64 (v : BitVec 64) : List Word := [v.extractLsb' 0 32, v.extractLsb' 32 32]

/-- Two words, low first, as 64 bits. -/
def of64 (lo hi : Word) : BitVec 64 := hi ++ lo

/-- `n` elements `x`, or the list cut or filled to length `n`. -/
def fitTo {α : Type} (n : Nat) (x : α) (l : List α) : List α := (l ++ List.replicate n x).take n

/-- The update of the elements of a list that meet a test. -/
def updateIf {α : Type} (p : α → Bool) (f : α → α) (l : List α) : List α :=
  l.map fun x => if p x then f x else x

/-- Removal of the first element that meets a test, with the element. -/
def takeFirst {α : Type} (p : α → Bool) : List α → Option (α × List α)
  | [] => none
  | x :: xs =>
    if p x then some (x, xs)
    else match takeFirst p xs with
      | some (y, ys) => some (y, x :: ys)
      | none => none

end Sys2Proof.Machine
end

