-- ==== Sys2Proof/Machine/Access.lean ====
section
/-!
DEFINITION. Where each piece of the device is found: elements, cores, clusters, spurs and chains by number,
and the registers, predicates, channels and links of an element.
-/
namespace Sys2Proof.Machine

/-! ## Numbers of agents (R13, R15, R17, R18) -/

/-- Elements in a package. -/
def elemCount : Nat := 98304
/-- The cluster of an element key. -/
def elemCluster (k : Nat) : Nat := k / 1024
/-- The package core number of an element key. -/
def elemCore (k : Nat) : Nat := k / 16
/-- The element index 0 to 15 of an element key (R18). -/
def elemIdx (k : Nat) : Nat := k % 16
/-- The element key of an element of a core. -/
def coreElem (core idx : Nat) : Nat := core * 16 + idx
/-- The cluster of a package core number. -/
def coreCluster (core : Nat) : Nat := core / 64
/-- The core index 8 · y + x in its cluster (R17). -/
def coreIdx (core : Nat) : Nat := core % 64
/-- The package core number of a core of a cluster. -/
def clusterCore (cluster x y : Nat) : Nat := cluster * 64 + 8 * y + x
/-- The `e0` of a core. -/
def coreE0 (core : Nat) : Nat := coreElem core 15

/-- Whether the element is an arith element `a0` to `a11`. -/
def isArith (k : Nat) : Bool := elemIdx k < 12
/-- Whether the element is `m0` or `m1`. -/
def isMem (k : Nat) : Bool := elemIdx k = 12 || elemIdx k = 13
/-- Whether the element is `f0`. -/
def isFunc (k : Nat) : Bool := elemIdx k = 14
/-- Whether the element is `e0`. -/
def isCmd (k : Nat) : Bool := elemIdx k = 15

/-! ## Finding and storing parts of the state -/

/-- The element of a key. -/
def State.elem (s : State) (k : Nat) : Elem := (s.elems.find k).getD Elem.reset
/-- Stores an element. -/
def State.setElem (s : State) (k : Nat) (e : Elem) : State := { s with elems := s.elems.put k e }
/-- Changes an element. -/
def State.updElem (s : State) (k : Nat) (f : Elem → Elem) : State := s.setElem k (f (s.elem k))

/-- The core of a package core number. -/
def State.core (s : State) (k : Nat) : Core := (s.cores.find k).getD Core.reset
/-- Stores a core. -/
def State.setCore (s : State) (k : Nat) (c : Core) : State := { s with cores := s.cores.put k c }
/-- Changes a core. -/
def State.updCore (s : State) (k : Nat) (f : Core → Core) : State := s.setCore k (f (s.core k))

/-- The cluster of a package cluster number. -/
def State.cluster (s : State) (k : Nat) : Cluster := (s.clusters.find k).getD Cluster.reset
/-- Stores a cluster. -/
def State.setCluster (s : State) (k : Nat) (c : Cluster) : State :=
  { s with clusters := s.clusters.put k c }
/-- Changes a cluster. -/
def State.updCluster (s : State) (k : Nat) (f : Cluster → Cluster) : State :=
  s.setCluster k (f (s.cluster k))

/-- The element whose rule fires. -/
def State.me (s : State) : Elem := s.elem s.cur.elem
/-- Changes the element whose rule fires. -/
def State.updMe (s : State) (f : Elem → Elem) : State := s.updElem s.cur.elem f

/-- A fresh identifier is `s.nextId`; this takes it. -/
def State.bump (s : State) : State := { s with nextId := s.nextId + 1 }

/-! ## Work -/

/-- Whether a spur's rectangle covers a package core. -/
def Spur.covers (p : Spur) (core : Nat) : Bool :=
  coreCluster core = p.cluster &&
    decide (p.x0 ≤ coreIdx core % 8) && decide (coreIdx core % 8 < p.x0 + p.w) &&
    decide (p.y0 ≤ coreIdx core / 8) && decide (coreIdx core / 8 < p.y0 + p.h)

/-- The package cores of a spur in core-index order. -/
def Spur.cores (p : Spur) : List Nat :=
  (List.range p.h).flatMap fun y =>
    (List.range p.w).map fun x => clusterCore p.cluster (p.x0 + x) (p.y0 + y)

/-- The element keys of a spur in order of core index and element index (R90, R261). -/
def Spur.elemKeys (p : Spur) : List Nat :=
  p.cores.flatMap fun c => (List.range 16).map (coreElem c)

/-- The spur that holds a core. -/
def State.spurAt (s : State) (core : Nat) : Option Spur := s.spurs.find? (·.covers core)
/-- A spur by its identifier. -/
def State.spur? (s : State) (id : Nat) : Option Spur := s.spurs.find? (·.id == id)
/-- Changes a spur. -/
def State.updSpur (s : State) (id : Nat) (f : Spur → Spur) : State :=
  { s with spurs := updateIf (·.id == id) f s.spurs }

/-- A chain by its identifier (R66). -/
def State.chain? (s : State) (ident : Nat) : Option Chain := s.chains.find? (·.ident == ident)
/-- Changes a chain. -/
def State.updChain (s : State) (ident : Nat) (f : Chain → Chain) : State :=
  { s with chains := updateIf (·.ident == ident) f s.chains }
/-- The resident spurs of a chain. -/
def State.spursOf (s : State) (ident : Nat) : List Spur := s.spurs.filter (·.chain == ident)
/-- The chain that holds a core. -/
def State.chainAt (s : State) (core : Nat) : Option Chain :=
  match s.spurAt core with
  | some p => s.chain? p.chain
  | none => none

/-! ### Fields of a chain record (R66) -/

/-- Record priority. -/
def Chain.prio (c : Chain) : Nat := byteAt c.record 0x02
/-- Flag D, a deterministic chain. -/
def Chain.flagD (c : Chain) : Bool := byteAt c.record 0x03 % 2 == 1
/-- Notify flag. -/
def Chain.notify (c : Chain) : Bool := byteAt c.record 0x03 / 2 % 2 == 1
/-- Stage count. -/
def Chain.stageCount (c : Chain) : Nat := fieldAt c.record 0x04 2
/-- Address of the stage table. -/
def Chain.stageTable (c : Chain) : Nat := fieldAt c.record 0x10 8
/-- Address of the fault area. -/
def Chain.faultArea (c : Chain) : Nat := fieldAt c.record 0x18 8
/-- Fault records that the area holds. -/
def Chain.faultCap (c : Chain) : Nat := fieldAt c.record 0x20 4
/-- Scree buffer size in KiB. -/
def Chain.screeKiB (c : Chain) : Nat := fieldAt c.record 0x24 4
/-- Address of the scree buffer. -/
def Chain.scree (c : Chain) : Nat := fieldAt c.record 0x28 8
/-- Address of the completion record. -/
def Chain.completion (c : Chain) : Nat := fieldAt c.record 0x30 8
/-- Address of the save area. -/
def Chain.saveArea (c : Chain) : Nat := fieldAt c.record 0x38 8
/-- Bytes of the save area. -/
def Chain.saveSize (c : Chain) : Nat := fieldAt c.record 0x40 8
/-- Physical address of the first-level translation table. -/
def Chain.root (c : Chain) : Nat := fieldAt c.record 0x48 8
/-- Address of the done word. -/
def Chain.doneAddr (c : Chain) : Nat := fieldAt c.record 0x50 8
/-- The done value. -/
def Chain.doneValue (c : Chain) : Nat := fieldAt c.record 0x58 8

/-- The translation root of the chain that holds a core. -/
def State.rootAt (s : State) (core : Nat) : Nat :=
  match s.chainAt core with
  | some c => c.root
  | none => 0
/-- The identifier that the record of a core's chain holds (R66). -/
def State.chainNameAt (s : State) (core : Nat) : Nat :=
  match s.chainAt core with
  | some c => fieldAt c.record 0x08 8
  | none => 0

/-! ## One element -/

/-- Register `d`r. -/
def Elem.reg (e : Elem) (r : Nat) : Word := e.d.getD r 0
/-- Writes register `d`r. -/
def Elem.setReg (e : Elem) (r : Nat) (w : Word) : Elem := { e with d := e.d.setIfInBounds r w }
/-- The pair `d`r, `d`(r + 1), low word first (R93). -/
def Elem.pair (e : Elem) (r : Nat) : BitVec 64 := of64 (e.reg r) (e.reg (r + 1))
/-- Writes a pair (R93). -/
def Elem.setPair (e : Elem) (r : Nat) (v : BitVec 64) : Elem :=
  (e.setReg r (v.extractLsb' 0 32)).setReg (r + 1) (v.extractLsb' 32 32)
/-- The pending bit of `d`r (R36). -/
def Elem.isPending (e : Elem) (r : Nat) : Bool := e.pend.getLsbD r
/-- Sets or clears the pending bit of `d`r. -/
def Elem.setPend (e : Elem) (r : Nat) (b : Bool) : Elem :=
  { e with pend := if b then e.pend ||| (1#16 <<< r) else e.pend &&& ~~~(1#16 <<< r) }
/-- Predicate `p`n. -/
def Elem.pred (e : Elem) (n : Nat) : Bool := e.p.getLsbD n
/-- Writes predicate `p`n. -/
def Elem.setPred (e : Elem) (n : Nat) (b : Bool) : Elem :=
  { e with p := if b then e.p ||| (1#8 <<< n) else e.p &&& ~~~(1#8 <<< n) }
/-- The word in slot n. -/
def Elem.slot (e : Elem) (n : Nat) : Word := e.slots.getD n 0
/-- The guard word g; `g15` has its valid bit forced to 0 (R31, R193). -/
def Elem.guard (e : Elem) (g : Nat) : Word :=
  if g = 15 then e.guards.getD 15 0 &&& ~~~1#32 else e.guards.getD g 0
/-- The words queued on input channel `i`ch, head first. -/
def Elem.chan (e : Elem) (ch : Nat) : List ChanWord := e.fifo.getD ch []
/-- The output channel `o`ch. -/
def Elem.outCh (e : Elem) (ch : Nat) : OutChan := e.out.getD ch ⟨none, 0, []⟩
/-- Changes the output channel `o`ch. -/
def Elem.updOut (e : Elem) (ch : Nat) (f : OutChan → OutChan) : Elem :=
  { e with out := e.out.setIfInBounds ch (f (e.outCh ch)) }
/-- The word at position k of an input channel; 0 with tag 0 where no word stands. -/
def Elem.peekWord (e : Elem) (ch k : Nat) : ChanWord := (e.chan ch).getD k ⟨0, 0, 0⟩

/-- Replaces the words of an input channel, and notes the step in which a tag-3 word first stands at its
head (R236). -/
def Elem.setChan (e : Elem) (ch : Nat) (ws : List ChanWord) : Elem :=
  let mark :=
    match ws with
    | w :: _ =>
      if w.tag = 3 then
        match e.closed.getD ch none with
        | some t => some t
        | none => some e.window
      else none
    | [] => none
  { e with fifo := e.fifo.setIfInBounds ch ws, closed := e.closed.setIfInBounds ch mark }

/-- Drops n words from the head of an input channel. -/
def Elem.dropWords (e : Elem) (ch n : Nat) : Elem :=
  let e := if n = 0 then e else { e with closed := e.closed.setIfInBounds ch none }
  e.setChan ch ((e.chan ch).drop n)

/-- The number N of beats of a guard's count code (R34, R193); a reserved code counts as 1 (R370). -/
def guardCount (g : Word) : Nat :=
  match (g.extractLsb' 7 3).toNat with
  | 1 => 2
  | 2 => 4
  | 3 => 8
  | 4 => 16
  | _ => 1

/-! ## Links -/

/-- A link by its identifier. -/
def State.link? (s : State) (id : Nat) : Option Link := s.links.find? (·.id == id)
/-- Changes a link. -/
def State.updLink (s : State) (id : Nat) (f : Link → Link) : State :=
  { s with links := updateIf (·.id == id) f s.links }
/-- The link that ends at a place. -/
def State.linkTo (s : State) (r : LinkEnd) : Option Link := s.links.find? (·.receiver == r)
/-- The link that starts at a place. -/
def State.linkFrom (s : State) (r : LinkEnd) : Option Link := s.links.find? (·.sender == r)

/-- Whether a link ends at an input channel (R267). -/
def State.linked (s : State) (elem ch : Nat) : Bool := (s.linkTo (.elemIn elem ch)).isSome

/-- Notes that the receiver of the link into an input channel removed n words (R58). -/
def State.freeSlots (s : State) (r : LinkEnd) (n : Nat) : State :=
  if n = 0 then s
  else { s with links := updateIf (·.receiver == r) (fun l => { l with freed := l.freed + n }) s.links }

/-- Removes n words from the head of an element's input channel (R35, R58). -/
def State.popWords (s : State) (k ch n : Nat) : State :=
  let m := min n ((s.elem k).chan ch).length
  (s.updElem k (·.dropWords ch m)).freeSlots (.elemIn k ch) m

/-- Splits the leading words, which can enter the link, from the entries that wait behind a reserved slot
(R37). -/
def leadingWords : List OutEntry → List ChanWord × List OutEntry
  | .word w t :: rest =>
    match leadingWords rest with
    | (ws, es) => (⟨w, t, 0⟩ :: ws, es)
  | es => ([], es)

/-- Lets the leading words of an output channel enter its link (R37, R57). A word on an output that no link
is bound to is gone. -/
def State.flushOut (s : State) (k ch : Nat) : State :=
  let o := (s.elem k).outCh ch
  match leadingWords o.stage with
  | (ws, es) =>
    let s := s.updElem k (·.updOut ch fun o => { o with stage := es })
    match o.link with
    | some l => s.updLink l fun l => { l with wire := l.wire ++ ws }
    | none => s

/-- Appends a word to an output channel and takes one of its slots (R58, `push` of R210). -/
def State.pushWord (s : State) (k ch : Nat) (t : Tag) (w : Word) : State :=
  (s.updElem k (·.updOut ch fun o => { o with count := o.count - 1, stage := o.stage ++ [.word w t] })).flushOut
    k ch

/-- Reserves one slot of an output channel for a result with tag t that arrives later (R37). -/
def State.reserveSlot (s : State) (k ch : Nat) (id : Nat) (t : Tag) : State :=
  s.updElem k (·.updOut ch fun o => { o with count := o.count - 1, stage := o.stage ++ [.hole id t] })

/-- Places a word in a reserved slot, with its reserved tag or another (R37, R280). -/
def State.fillSlot (s : State) (k ch : Nat) (id : Nat) (w : Word) (t : Option Tag) : State :=
  let fill : OutEntry → OutEntry
    | .hole j t0 => if j = id then .word w (t.getD t0) else .hole j t0
    | e => e
  (s.updElem k (·.updOut ch fun o => { o with stage := o.stage.map fill })).flushOut k ch

/-- Returns a reserved slot that no result uses (R280). -/
def State.returnSlot (s : State) (k ch : Nat) (id : Nat) : State :=
  let keep : OutEntry → Bool
    | .hole j _ => j != id
    | _ => true
  let o := (s.elem k).outCh ch
  let n := o.stage.length - (o.stage.filter keep).length
  (s.updElem k (·.updOut ch fun o =>
    { o with count := o.count + n, stage := o.stage.filter keep })).flushOut k ch

/-- Whether a list of output entries still holds a reserved slot. -/
def OutChan.hasHole (o : OutChan) (id : Nat) : Bool :=
  o.stage.any fun
    | .hole j _ => j == id
    | _ => false

/-! ## Requests -/

/-- A request by its identifier. -/
def State.req? (s : State) (id : Nat) : Option Req := s.reqs.find? (·.id == id)
/-- Requests of resident ridges that wait as replay entries: they have not been performed (R360). -/
def State.replayed (s : State) : List Req :=
  (s.chains.filter fun c => c.phase = .fetched || c.phase = .started || c.phase = .held).flatMap fun c =>
    c.replays.flatMap fun x => x.req :: x.rest
/-- Changes a request. -/
def State.updReq (s : State) (id : Nat) (f : Req → Req) : State :=
  { s with reqs := updateIf (·.id == id) f s.reqs }
/-- Removes a request. -/
def State.dropReq (s : State) (id : Nat) : State :=
  { s with reqs := s.reqs.filter (·.id != id) }

/-- Adds a request at the end, under the next identifier. -/
def State.addReq (s : State) (r : Req) : State :=
  { s with reqs := s.reqs ++ [{ r with id := s.nextId }], nextId := s.nextId + 1 }

end Sys2Proof.Machine
end

