-- ==== Sys2Proof/Machine/Block.lean ====
section
/-!
DEFINITION. The fields of a template block (R265), and where a copy firing parks at a freeze (R77).
-/
namespace Sys2Proof.Machine

/-- Kind: 0 plain, 1 strided, 2 gather, 3 scatter, 4 plane stream, 5 exchange. -/
def tbKind (b : List Byte) : Nat := byteAt b 0
/-- A flag bit: 0 digest, 1 shadow publish, 2 pend each firing, 3 range fault. -/
def tbFlag (b : List Byte) (n : Nat) : Bool := (byteAt b 1).testBit n
/-- Trigger channel of `e0`. -/
def tbChan (b : List Byte) : Nat := byteAt b 2 % 4
/-- Trigger tag. -/
def tbTag (b : List Byte) : Tag := BitVec.ofNat 2 (byteAt b 2 / 4)
/-- Completion register of `e0`. -/
def tbReg (b : List Byte) : Nat := byteAt b 3 % 16
/-- Completion scope. -/
def tbScope (b : List Byte) : BitVec 3 := BitVec.ofNat 3 (byteAt b 3 / 16)
/-- Source kind: 0 global, 1 cluster scratch, 2 stream port. -/
def tbSrcKind (b : List Byte) : Nat := byteAt b 4
/-- Destination kind. -/
def tbDstKind (b : List Byte) : Nat := byteAt b 5
/-- Cairn, 0xFF none. -/
def tbCairn (b : List Byte) : Nat := byteAt b 6
/-- Source. -/
def tbSrc (b : List Byte) : Nat := fieldAt b 0x08 8
/-- Destination. -/
def tbDst (b : List Byte) : Nat := fieldAt b 0x10 8
/-- Length L. -/
def tbLen (b : List Byte) : Nat := fieldAt b 0x18 4
/-- Bytes per firing B. -/
def tbPer (b : List Byte) : Nat := fieldAt b 0x1C 4
/-- Completion record. -/
def tbRec (b : List Byte) : Nat := fieldAt b 0x28 8
/-- Peer mask or activity map. -/
def tbFieldA (b : List Byte) : Nat := fieldAt b 0x20 8
/-- A field of kind field B by its offset in the block. -/
def tbB (b : List Byte) (off n : Nat) : Nat := fieldAt b off n
/-- Whether the source or destination of a plain block is a stream port (R271). -/
def tbStream (b : List Byte) : Bool := tbSrcKind b = 2 || tbDstKind b = 2
/-- The mode byte of a plane stream. -/
def psMode (b : List Byte) : Nat := byteAt b 0x37

/-! ## Firings -/

/-- Bytes of a firing of a block: B, or the whole run (R268). -/
def tbTotal (b : List Byte) : Nat := if tbPer b = 0 then tbLen b else tbPer b
/-- The offset of firing n in the run (R268). -/
def tbOffset (b : List Byte) (n : Nat) : Nat := if tbPer b = 0 then 0 else n * tbPer b % tbLen b

/-- Segments of a row of a plane stream. -/
def psSegs (b : List Byte) : Nat := (fieldAt b 0x30 2 + 2 ^ (psMode b % 8) - 1) / 2 ^ (psMode b % 8)
/-- Whether segment headers are pushed. -/
def psHeader (b : List Byte) : Bool := (psMode b).testBit 3
/-- Words that a plane stream emits when it skips nothing. -/
def psWords (b : List Byte) : Nat :=
  fieldAt b 0x30 2 * fieldAt b 0x32 2 + (if psHeader b then psSegs b * fieldAt b 0x32 2 else 0)

/-- Whether what a firing moves is counted in words: a stream-port source or a plane stream (R77, R84). -/
def tbByWords (b : List Byte) : Bool := tbSrcKind b = 2 || tbKind b = 4
/-- Bytes that a firing moves: of a gather or scatter, whole entries (R272, R273). -/
def tbMoved (b : List Byte) : Nat :=
  if tbKind b = 2 || tbKind b = 3 then tbLen b / fieldAt b 0x24 2 * fieldAt b 0x24 2 else tbTotal b
/-- Words that a firing moves or emits (R77); of a run that ends inside a word, that word too. -/
def tbWords (b : List Byte) : Nat := if tbKind b = 4 then psWords b else (tbMoved b + 3) / 4
/-- Bytes that a firing has still to move, 4 for each word still to move or emit (R77). -/
def Firing.remaining (f : Firing) (b : List Byte) : Nat :=
  if tbByWords b then 4 * (tbWords b - f.words) else tbMoved b - f.pos

/-- The source address of the byte at a position of a firing's run: of the row that holds it for a strided source, else
of the contiguous source. A gather's source is counted in the order in which it is read (DEDUCED, log 31). -/
def Firing.srcAddr (f : Firing) (b : List Byte) (pos : Nat) : Nat :=
  match tbKind b with
  | 1 =>
    let row := fieldAt b 0x30 4
    tbSrc b + pos / row * fieldAt b 0x38 4 + pos % row
  | 2 => pos
  | _ => tbSrc b + tbOffset b f.n + pos
/-- Bytes that a firing moves as one: a chunk of an exchange, a word of a stream, else one. -/
def tbStep (b : List Byte) : Nat := if tbKind b = 5 then fieldAt b 0x30 4 else if tbDstKind b = 2 then 4 else 1
/-- Whether a firing from memory stands at a 4 KiB boundary of its source: on one, or behind a move that crossed one. -/
def Firing.atBoundary (f : Firing) (b : List Byte) : Bool :=
  f.srcAddr b f.pos % 4096 = 0 ||
    (f.pos > 0 && f.srcAddr b f.pos / 4096 != f.srcAddr b (f.pos - tbStep b) / 4096)

/-- Whether a firing stands at a point where it can park: a 4 KiB boundary of its source, or a multiple of 1024
words (R77). An exchange that has sent its chunks waits there for those of its peers (DEDUCED, log 31). -/
def Firing.atParking (f : Firing) (b : List Byte) : Bool :=
  f.buf = [] &&
    (if tbByWords b then f.words % 1024 = 0
     else if tbKind b = 5 && f.remaining b ≤ 4096 then f.remaining b = 0
     else f.atBoundary b)

/-- At a freeze, a firing with more than 4 KiB left parks at the next such point; the others run to completion
(R77). -/
def Template.park (t : Template) : Template :=
  match t.firing with
  | some f => if t.state = 1 && (f.remaining t.block > 4096 || tbKind t.block = 5) then { t with state := 2 } else t
  | none => t
/-- After a resume a parked firing goes on, and one that a fault stopped continues (R78, R380). -/
def Template.unpark (t : Template) : Template :=
  { t with
    state := if t.state = 2 then 1 else t.state
    firing := t.firing.map fun f => { f with faulted := false } }

end Sys2Proof.Machine
end

