-- ==== Sys2Proof/Machine/Forms.lean ====
section
/-!
DEFINITION. What a rule's word says about it before it fires: its unit class (R47, R199), the elements that
have its form (R48), the fields its form uses (R34, R192, R370), and the reserved values and codes that it
faults for (R371 items 2, 4 and 5; R375 to R379).
-/
namespace Sys2Proof

open Machine

/-! ## The extension field X (R187, R197) -/

/-- Bits of the extension field as a number. -/
def xBits (x : Word) (lo n : Nat) : Nat := x.toNat / 2 ^ lo % 2 ^ n
/-- The 28-bit field X of an extension word, sign-extended (R187). -/
def xSigned (x : Word) : Word := (x.extractLsb' 0 28).signExtend 32
/-- W64 of the memory extension (R197). -/
def xW64 (x : Word) : Bool := x.getLsbD 0

/-! ## Classes of codes (R189, R191, R211) -/

/-- A register code. -/
def isReg (c : Code) : Bool := c.toNat < 16
/-- An even register code from 0 to 14. -/
def isPair (c : Code) : Bool := c.toNat < 16 && c.toNat % 2 = 0
/-- An output code. -/
def isOut (c : Code) : Bool := c.toNat ≥ 16
/-- A pop code. -/
def isPop (c : Code) : Bool := 20 ≤ c.toNat && c.toNat ≤ 23
/-- A source code that a rule can read; code 28 needs a wide extension (R188). -/
def isSrc (w : Bool) (c : Code) : Bool := c.toNat ≤ 27 || (c.toNat = 28 && w)
/-- A source code other than 28 (R187, R219). -/
def isSrcNo28 (c : Code) : Bool := c.toNat ≤ 27

/-! ## Fields that every format has -/

/-- The cell of a view; a happening of the device has none. -/
def View.cellNo : View → Nat
  | .r c _ _ => c.toNat
  | .i c _ => c.toNat
  | .p c _ _ => c.toNat
  | .m c _ _ => c.toNat
  | .e c _ _ => c.toNat
  | .s c _ => c.toNat
  | .event => 64
/-- The form number of a view: fn, cond, kind or op. -/
def View.formNo : View → Nat
  | .r _ f _ => f.toNat
  | .i _ _ => 0
  | .p _ f _ => f.toNat
  | .m _ f _ => f.toNat
  | .e _ f _ => f.toNat
  | .s _ _ => 0
  | .event => 0
/-- The guard index. -/
def View.guardNo : View → Nat
  | .r _ _ o => o.g.toNat
  | .i _ o => o.g.toNat
  | .p _ _ o => o.g.toNat
  | .m _ _ o => o.g.toNat
  | .e _ _ o => o.g.toNat
  | .s _ o => o.g.toNat
  | .event => 15
/-- The E bit. -/
def View.ends : View → Bool
  | .r _ _ o => o.e
  | .i _ o => o.e
  | .p _ _ o => o.e
  | .m _ _ o => o.e
  | .e _ _ o => o.e
  | .s _ o => o.e
  | .event => false
/-- The W bit. -/
def View.wide : View → Bool
  | .r _ _ o => o.w
  | .i _ o => o.w
  | .p _ _ o => o.w
  | .m _ _ o => o.w
  | .e _ _ o => o.w
  | .s _ o => o.w
  | .event => false

/-! ## Unit classes (R47, R48, R199) -/

/-- The unit class of a cell; none for a reserved cell (R370). -/
def cellClass (c : Nat) : Option UClass :=
  if c ≤ 0x06 || (0x08 ≤ c && c ≤ 0x14) || c = 0x18 || c = 0x21 then some .alu
  else if 0x19 ≤ c && c ≤ 0x1B then some .pred
  else if c = 0x20 || (0x3D ≤ c && c ≤ 0x3F) then some .move
  else if (0x28 ≤ c && c ≤ 0x2D) || (0x30 ≤ c && c ≤ 0x33) then some .mem
  else if 0x38 ≤ c && c ≤ 0x3C then some .eng
  else none

/-- Whether an element of index `idx` has the forms of a cell (R47, R48). -/
def elemHas (c idx : Nat) : Bool :=
  if (0x10 ≤ c && c ≤ 0x14) || c = 0x18 then idx < 12
  else if c = 0x21 then idx = 14
  else if 0x28 ≤ c && c ≤ 0x33 then idx = 12 || idx = 13
  else if 0x38 ≤ c && c ≤ 0x3C then idx = 15
  else true

/-- Whether a rule is a `.f64` rule: its type code is 3 (R224). -/
def View.isF64 : View → Bool
  | .r c fn _ => (c.toNat = 0x11 || c.toNat = 0x12 || c.toNat = 0x14) && fn.toNat / 8 = 3
  | .p c cond _ => c.toNat = 0x13 && cond.toNat / 4 = 3
  | _ => false

/-! ## Fields a form uses (R34 items 6 to 9, R192) -/

/-- The fields that a form uses: source codes read, source codes that take `popN` words per beat, destination
codes written and words pushed to each per beat, further registers, carry words, done channel, command queue. -/
structure Uses where
  srcs : List Code := []
  bulk : List Code := []
  dsts : List Code := []
  regs : List Nat := []
  popN : Nat := 1
  pushN : Nat := 1
  ci : Bool := false
  co : Bool := false
  done : Option Nat := none
  queue : Option Nat := none
  deriving DecidableEq, Repr

/-- The register of a code, if it is one. -/
def regOf (c : Code) : List Nat := if c.toNat < 16 then [c.toNat] else []
/-- The n registers from a code upward. -/
def regsFrom (c : Code) (n : Nat) : List Nat :=
  if c.toNat < 16 then (List.range n).map (c.toNat + ·) |>.filter (· < 16) else []

/-- Uses of R-format cells; `f` is fn. A field that must hold a register or a pair names no channel and no output
(R211; DEDUCED, log 44). -/
def usesR (c f : Nat) (o : ROp) : Uses :=
  let ab := [o.a, o.b]
  match c with
  | 0x00 => { srcs := if f = 2 || f = 3 then [o.a] else ab, dsts := [o.d] }
  | 0x01 => { srcs := if f = 4 || f ≥ 16 then [o.a] else ab, dsts := [o.d] }
  | 0x02 => if f = 3 then { srcs := ab, regs := regOf o.d } else { srcs := ab, dsts := [o.d] }
  | 0x03 => { srcs := ab, dsts := [o.d] }
  | 0x05 => { srcs := [o.a], dsts := [o.d] }
  | 0x06 => { srcs := [o.a], regs := regOf o.d }
  | 0x10 => { srcs := ab, dsts := [o.d], ci := true, co := true }
  | 0x11 =>
    if f / 8 = 3 then
      { regs := regsFrom o.a 2 ++ (if f % 8 ≥ 5 then [] else regsFrom o.b 2) ++ regsFrom o.d 2 }
    else { srcs := if f % 8 ≥ 5 then [o.a] else ab, dsts := [o.d] }
  | 0x12 =>
    if f / 8 = 3 then { regs := regsFrom o.a 2 ++ regsFrom o.b 2 ++ regsFrom o.d 2 }
    else { srcs := ab, regs := regOf o.d }
  | 0x14 =>
    let k := f % 8
    let toPair := (f / 8 = 3 && (k = 1 || k = 4 || k = 5)) || (k = 6 && o.b.toNat / 8 = 3)
    let fromPair := f / 8 = 3 && k ≠ 4 && k ≠ 5
    { srcs := if fromPair then [] else [o.a]
      dsts := if toPair then [] else [o.d]
      regs := (if fromPair then regsFrom o.a 2 else []) ++ (if toPair then regsFrom o.d 2 else []) }
  | 0x18 =>
    let k := f % 16
    { srcs := if k = 1 || k = 7 || k = 8 then ab else [o.a]
      dsts := if 6 ≤ k && k ≤ 8 then [o.d] else []
      regs := if k = 4 || k = 5 then regsFrom o.d 2 else if 6 ≤ k && k ≤ 8 then [] else regOf o.d }
  | 0x20 =>
    match f with
    | 0 => { srcs := [o.a], dsts := [o.d] }
    | 1 => { srcs := [o.a], dsts := [o.d] }
    | 2 => { srcs := [o.a] }
    | 3 => { srcs := [o.a], dsts := [o.d, o.b] }
    | 4 => { srcs := ab, dsts := [o.d] }
    | 5 => { srcs := ab, regs := regOf o.d }
    | 6 => { srcs := [o.a], dsts := [o.d] }
    | _ => { dsts := [o.d] }
  | 0x21 => { srcs := if f = 9 || (12 ≤ f && f ≤ 15) then ab else [o.a], dsts := [o.d] }
  | 0x33 =>
    match f with
    | 0 => { srcs := [o.a], dsts := [o.d] }
    | 1 => { srcs := [o.a] }
    | 2 => { srcs := [o.a], dsts := [o.d] }
    | 3 => { dsts := [o.d] }
    | 4 => { srcs := [o.a] }
    | 5 => { srcs := [o.a] }
    | _ => { srcs := [o.b], regs := regsFrom o.a 2 ++ regOf o.d }
  | _ => {}

/-- Uses of P-format cells. -/
def usesP (c f : Nat) (o : POp) : Uses :=
  match c with
  | 0x04 => { srcs := [o.a, o.b] }
  | 0x13 => if f / 4 = 3 then { regs := regsFrom o.a 2 ++ regsFrom o.b 2 } else { srcs := [o.a, o.b] }
  | 0x1A => { srcs := [o.a] }
  | _ => {}

/-- Whether an atomic acts on a 64-bit word (R197, R250). -/
def amo64 (c k : Nat) (w : Bool) (x : Word) : Bool := (c = 0x2D && k = 5) || (w && xW64 x)

/-- Uses of M-format cells. -/
def usesM (c k : Nat) (o : MOp) (x : Word) : Uses :=
  let glob := o.space = 0
  let addrS : List Code := if glob then [] else [o.addr]
  let addrR : List Nat := if glob then regsFrom o.addr 2 else []
  let done : Option Nat := if o.scope = 0 then none else some o.done.toNat
  let w64 := o.w && xW64 x
  if c = 0x28 || c = 0x2A then
    { srcs := addrS, dsts := if k = 3 then [] else [o.data]
      regs := addrR ++ (if k = 3 then regsFrom o.data 2 else []), done := done }
  else if c = 0x29 then
    { srcs := addrS ++ (if k = 3 then [] else [o.data])
      regs := addrR ++ (if k = 3 then regsFrom o.data 2 else []), done := done }
  else if c = 0x2B then
    match k with
    | 0 => { srcs := addrS, dsts := if isOut o.data then [o.data] else [], regs := addrR ++ regOf o.data
             pushN := 16, done := done }
    | 1 => { srcs := addrS, bulk := [o.data], regs := addrR, popN := 16, done := done }
    | _ => { srcs := addrS, regs := addrR, done := done }
  else if c = 0x2C || c = 0x2D then
    let w := amo64 c k o.w x
    if c = 0x2D && k = 0 then
      { srcs := addrS, regs := addrR ++ regsFrom o.data (if w then 4 else 2), done := done }
    else if isReg o.data then
      { srcs := addrS, regs := addrR ++ regsFrom o.data (if w then 2 else 1), done := done }
    else
      { srcs := addrS, bulk := if c = 0x2D && k = 1 then [] else [o.data], regs := addrR
        popN := if w then 2 else 1, done := done }
  else if c = 0x30 then
    { srcs := addrS ++ (if k = 4 then [o.data] else [])
      regs := addrR ++ (if k = 1 then regsFrom o.data 2 else []), done := done }
  else if c = 0x31 then { srcs := addrS, regs := addrR ++ regsFrom o.data 4, done := done }
  else if c = 0x32 then
    { srcs := addrS, regs := addrR ++ regsFrom o.data (if w64 then 2 else 1), done := done }
  else {}

/-- The command queue of a cell of `e0`: 0 the matrix engine, 4 to 7 the island at an edge position (R39). -/
def queueOf (c f : Nat) : Option Nat :=
  if c = 0x39 then (if f = 7 then none else some 0)
  else if c = 0x3A then some 7
  else if c = 0x3B then (if f = 3 then some 6 else some 5)
  else if c = 0x3C then some 4
  else none

/-- Uses of E-format cells. -/
def usesE (c f : Nat) (o : EOp) (x : Word) : Uses :=
  let srcPair := regsFrom o.src 2
  let q := queueOf c f
  match c with
  | 0x38 =>
    match f with
    | 0 => { regs := srcPair }
    | 3 => { dsts := [o.port] }
    | 4 => { srcs := [o.src, o.port] }
    | 5 => { dsts := [o.port] }
    | _ => {}
  | 0x39 =>
    let scr := o.w && (if f = 0 then x.getLsbD 27 else x.getLsbD 13)
    match f with
    | 0 => { srcs := if scr then [o.src] else [], regs := if scr then [] else srcPair, queue := q }
    | 1 => { srcs := [o.src], queue := q }
    | 2 => { queue := q }
    | 3 => { srcs := [o.src], dsts := [o.port], queue := q }
    | 4 => { srcs := if scr then [o.src] else [], regs := if scr then [] else srcPair, dsts := [o.port]
             queue := q }
    | 5 => { regs := srcPair, dsts := [o.port], queue := q }
    | 6 => { regs := srcPair, dsts := [o.port], queue := q }
    | _ => {}
  | 0x3A =>
    match f with
    | 0 => { regs := srcPair, queue := q }
    | 1 => { regs := srcPair, dsts := [o.port], queue := q }
    | 2 => { queue := q }
    | 3 => if isReg o.src then { regs := regsFrom o.src 3, dsts := [o.port], queue := q }
           else { bulk := [o.src], popN := 3, dsts := [o.port], queue := q }
    | _ => { regs := srcPair, dsts := [o.port], queue := q }
  | 0x3B =>
    match f with
    | 0 => { regs := regsFrom o.src 4, queue := q }
    | 1 => { dsts := [o.port], queue := q }
    | 2 => { regs := regsFrom o.src 6, dsts := [o.port], pushN := 18, queue := q }
    | _ => { regs := regsFrom o.src 5, queue := q }
  | 0x3C =>
    match f with
    | 0 => { regs := srcPair, queue := q }
    | 4 => { srcs := [o.src], dsts := [o.port], pushN := 8, queue := q }
    | _ => { regs := srcPair, dsts := [o.port], queue := q }
  | 0x3F =>
    match f with
    | 2 => { srcs := [o.src] }
    | 4 => { srcs := [o.src], dsts := [o.port] }
    | 6 => { srcs := [o.src] }
    | 7 => { regs := srcPair }
    | _ => {}
  | _ => {}

/-- The fields that a rule's form uses; `x` is its extension word. A reserved form uses none (R370). -/
def View.uses (v : View) (x : Word) : Uses :=
  match v.instr? with
  | none => {}
  | some _ =>
    match v with
    | .r c f o => usesR c.toNat f.toNat o
    | .i c o => { srcs := if c.toNat = 0x0F then [] else [o.a], dsts := [o.d] }
    | .p c f o => usesP c.toNat f.toNat o
    | .m c f o => usesM c.toNat f.toNat o x
    | .e c f o => usesE c.toNat f.toNat o x
    | .s c o => if c.toNat = 0x3D then { dsts := [o.src] } else { srcs := [o.src] }
    | .event => {}

/-! ## Count, W and sub-fields (R371 item 4) -/

/-- Whether a form must have count 1 (R222, R224, R235, R236, R242, R249, R279, R298). -/
def View.countOne (v : View) : Bool :=
  let c := v.cellNo
  let f := v.formNo
  v.isF64 || c = 0x10 || (c = 0x20 && (f = 6 || f = 7)) || (c = 0x2B && f = 2)
    || (0x30 ≤ c && c ≤ 0x33) || (0x39 ≤ c && c ≤ 0x3F)

/-- Block formats that `mx.drain` packs (R288). -/
def isPackFmt (f : Nat) : Bool := [0x11, 0x12, 0x14, 0x21, 0x22, 0x31, 0x32].contains f

/-- Reserved sub-fields of R-format rules. -/
def subR (c f : Nat) (o : ROp) : Bool :=
  if c = 0x05 then !(f % 2 = 1 && f / 4 ≥ 2)
  else if c = 0x06 then !(f % 2 = 1 && f / 2 ≥ 2)
  else if c = 0x14 then
    let k := f % 8
    let target := o.b.toNat / 8
    let mode := o.b.toNat % 8
    (k = 0 || mode ≤ 4) && (if k = 6 then target ≠ f / 8 else target = 0)
  else if c = 0x20 && f = 7 then o.b.toNat < 16 && o.b.toNat % 16 ≠ 0
  else true

/-- Reserved sub-fields of I-format rules (R219, R220). -/
def subI (c : Nat) (o : IOp) : Bool :=
  if c = 0x0F then o.i.toNat < 32 && !o.w
  else if c ≥ 0x0C then o.i.toNat < 32 && !o.w
  else !(o.w && o.i ≠ 0)

/-- Reserved sub-fields of P-format rules (R195, R231). -/
def subP (c : Nat) (o : POp) : Bool :=
  o.pop ≠ 7 &&
    (if c = 0x19 then o.a.toNat < 8 && o.b.toNat < 8
     else if c = 0x1B then o.a.toNat < 4 else true)

/-- Reserved sub-fields of M-format rules (R243, R244, R247 to R249). -/
def subM (c k : Nat) (o : MOp) (x : Word) : Bool :=
  o.scope.toNat < 6 && !(o.w && xBits x 1 2 = 3) &&
    (if 0x28 ≤ c && c ≤ 0x2A then !(o.space = 3 && k ≠ 2)
     else if c = 0x2B then
       o.space ≠ 3 && !(k = 2 && (o.space ≠ 0 || o.scope ≠ 0))
     else true)

/-- Object range, required W and extension layout of E-format rules (R198, R276, R279, R293, R295). -/
def subE (c f : Nat) (o : EOp) (x : Word) : Bool :=
  let n := o.obj.toNat
  match c with
  | 0x38 => n < 32
  | 0x39 =>
    match f with
    | 0 => n < 8 && !(o.w && (xBits x 20 7 ≠ 0 || xBits x 0 20 = 0))
    | 4 =>
      let mode := xBits x 14 2
      let fmt := xBits x 0 8
      let scope := xBits x 17 3
      let stride := xBits x 20 8
      n < 4 && o.w && mode ≠ 3 && 2 ≤ scope && scope ≤ 5 && xBits x 9 4 = 0 &&
        (if mode = 1 then isPackFmt fmt && stride ≥ (if fmt ≥ 0x31 then 2 else 1)
         else fmt = 0 && (mode = 2 || stride ≥ 2))
    | 1 => n < 4
    | 2 => n < 4
    | 3 => n < 4
    | _ => n = 0
  | 0x3A =>
    match f with
    | 0 => n < 16 && o.w && xBits x 0 4 = 0 && xBits x 4 2 ≠ 3
    | 1 => o.w && xBits x 16 12 = 0
    | 2 => !(o.w && xBits x 16 12 ≠ 0)
    | _ => n < 16
  | 0x3B =>
    match f with
    | 0 => n = 0 && o.w && xBits x 22 6 = 0
    | _ => n = 0
  | 0x3C => if f ≤ 2 then n < 8 else n = 0
  | _ => f = 2 || f = 3 || n = 0

/-- Whether no field of R371 item 4 that the words alone decide is wrong; `n1` says whether the count is 1. -/
def View.subOk (v : View) (x : Word) (n1 : Bool) : Bool :=
  (n1 || !v.countOne) &&
    match v with
    | .r c f o => subR c.toNat f.toNat o
    | .i c o => subI c.toNat o
    | .p c _ o => subP c.toNat o
    | .m c f o => subM c.toNat f.toNat o x
    | .e c f o => subE c.toNat f.toNat o x
    | .s _ o => o.port = 0
    | .event => true

/-! ## Source and destination codes (R371 item 5) -/

/-- Codes of R-format rules. -/
def codesR (c f : Nat) (o : ROp) : Bool :=
  let sa := isSrc o.w o.a
  let sb := isSrc o.w o.b
  match c with
  | 0x00 => sa && (f = 2 || f = 3 || sb)
  | 0x01 => sa && (f = 4 || f ≥ 16 || sb)
  | 0x02 => sa && sb && (f ≠ 3 || isReg o.d)
  | 0x03 => sa && sb
  | 0x05 => sa
  | 0x06 => sa && isReg o.d
  | 0x10 => sa && sb
  | 0x11 =>
    if f / 8 = 3 then isPair o.a && (f % 8 ≥ 5 || isPair o.b) && isPair o.d else sa && (f % 8 ≥ 5 || sb)
  | 0x12 => if f / 8 = 3 then isPair o.a && isPair o.b && isPair o.d else sa && sb && isReg o.d
  | 0x14 =>
    let k := f % 8
    let toPair := (f / 8 = 3 && (k = 1 || k = 4 || k = 5)) || (k = 6 && o.b.toNat / 8 = 3)
    let fromPair := f / 8 = 3 && k ≠ 4 && k ≠ 5
    (if fromPair then isPair o.a else sa) && (!toPair || isPair o.d)
  | 0x18 =>
    let k := f % 16
    sa && (!(k = 1 || k = 7 || k = 8) || sb) &&
      (if k = 4 || k = 5 then isPair o.d else (k = 6 || k = 7 || k = 8 || isReg o.d))
  | 0x20 =>
    match f with
    | 1 => sa && isOut o.d
    | 2 => isPop o.a
    | 4 => sa && sb && isOut o.d
    | 5 => sa && sb && isOut o.d
    | 7 => true
    | _ => sa
  | 0x21 => sa && (!(f = 9 || (12 ≤ f && f ≤ 15)) || sb)
  | 0x33 =>
    match f with
    | 3 => true
    | 6 => isReg o.d && isPair o.a && sb
    | _ => sa
  | _ => true

/-- Codes of M-format rules (R241, R245, R248, R250, R252, R254 to R256). -/
def codesM (c k : Nat) (o : MOp) (x : Word) : Bool :=
  (if o.space = 0 then isPair o.addr else isSrcNo28 o.addr) &&
    (if c = 0x28 || c = 0x2A then (k ≠ 3 || isPair o.data)
     else if c = 0x29 then (if k = 3 then isPair o.data else isSrcNo28 o.data)
     else if c = 0x2B then (if k = 0 then isOut o.data else if k = 1 then isPop o.data else true)
     else if c = 0x2C || c = 0x2D then
       let w := amo64 c k o.w x
       if c = 0x2D && k = 0 then (if w then isReg o.data && o.data.toNat % 4 = 0 else isPair o.data)
       else if w then isPair o.data || isPop o.data || o.data.toNat = 25
       else isSrcNo28 o.data
     else if c = 0x30 then (if k = 1 then isPair o.data else if k = 4 then isSrcNo28 o.data else true)
     else if c = 0x31 then isReg o.data && o.data.toNat % 4 = 0
     else if c = 0x32 then (if o.w && xW64 x then isPair o.data else isReg o.data)
     else true)

/-- Codes of E-format rules. -/
def codesE (c f : Nat) (o : EOp) (x : Word) : Bool :=
  let ss := isSrc o.w o.src
  match c with
  | 0x38 =>
    match f with
    | 0 => isPair o.src
    | 4 => ss && isSrc o.w o.port
    | _ => true
  | 0x39 =>
    match f with
    | 0 => if o.w && x.getLsbD 27 then ss else isPair o.src
    | 1 => ss
    | 3 => ss
    | 4 => if x.getLsbD 13 then ss else isPair o.src
    | 5 => isPair o.src
    | 6 => isPair o.src
    | _ => true
  | 0x3A =>
    match f with
    | 0 => isPair o.src
    | 1 => isPair o.src
    | 3 => o.src.toNat ≤ 13 || isPop o.src
    | 4 => isPair o.src && isOut o.port
    | _ => true
  | 0x3B =>
    match f with
    | 0 => o.src.toNat ≤ 12 && o.src.toNat % 4 = 0
    | 2 => (o.src.toNat = 0 || o.src.toNat = 8) && isOut o.port
    | 3 => o.src.toNat = 0 || o.src.toNat = 8
    | _ => true
  | 0x3C => if f = 4 then ss && isOut o.port else isPair o.src
  | 0x3F =>
    match f with
    | 2 => ss
    | 4 => ss
    | 6 => ss
    | 7 => isPair o.src
    | _ => true
  | _ => true

/-- Whether every code is one its field can take. -/
def View.codesOk (v : View) (x : Word) : Bool :=
  match v with
  | .r c f o => codesR c.toNat f.toNat o
  | .i c o => c.toNat = 0x0F || isSrcNo28 o.a
  | .p c f o =>
    if c.toNat = 0x13 && f.toNat / 4 = 3 then isPair o.a && isPair o.b
    else if c.toNat = 0x04 || c.toNat = 0x13 then isSrc o.w o.a && isSrc o.w o.b
    else if c.toNat = 0x1A then isSrc o.w o.a else true
  | .m c f o => codesM c.toNat f.toNat o x
  | .e c f o => codesE c.toNat f.toNat o x
  | .s c o => c.toNat = 0x3D || isSrc o.w o.src
  | .event => true

end Sys2Proof
end

