-- ==== Sys2Proof/Machine/Home.lean ====
section
/-!
DEFINITION. Where bytes of memory live: privileged registers, translation (R120 to R124), the home of every
byte, the cluster copies and their landing and binding rules (R127 to R131), scratchpads (R136), poison
(R384), and the values of order-repairing cells that home reads and writes meet (R149 to R152).
-/
namespace Sys2Proof.Machine

/-! ## Privileged registers (R301, R336, R386) -/

/-- The value of a register of the privileged view right after reset. -/
def regReset (n : Nat) : Word :=
  if n = 0x200 then 0x840#32 ||| (Config.stepping.setWidth 32 <<< 16)
  else if n = 0x280 then Config.featOffer.setWidth 32
  else if n = 0x290 then 0x00010000#32
  else if n = 0x291 || n = 0x292 then 1#32
  else if n = 0x293 then 0x101#32
  else if n = 0x295 then 4#32
  else if 0x2E0 ≤ n && n ≤ 0x2EF then 4#32
  else if 0x370 ≤ n && n ≤ 0x3CF then 0x28191919#32
  else if n = 0x3D0 then 95#32
  else if n = 0x3D1 then Config.powerLimit.setWidth 32
  else if n = 0x3D2 then 25#32
  else if n = 0x3D3 then 4095#32
  else 0#32

/-- The word that a privileged register holds (DEDUCED, log 4). -/
def State.preg (s : State) (n : Nat) : Word := (s.regs.find n).getD (regReset n)
/-- Stores a privileged register. -/
def State.setPreg (s : State) (n : Nat) (w : Word) : State := { s with regs := s.regs.put n w }
/-- Adds to a counting register, saturating (R329, R383, R386). -/
def State.countPreg (s : State) (n : Nat) : State :=
  let v := s.preg n
  if v = 0xFFFFFFFF#32 then s else s.setPreg n (v + 1)
/-- Whether the L1 banks run read-only (R126, DEV_STATUS[2]). -/
def State.l1ReadOnly (s : State) : Bool := (s.preg 0x295).getLsbD 2
/-- Whether DEV_START has been written. -/
def State.started (s : State) : Bool := (s.preg 0x294).getLsbD 0
/-- This package's number (R327). -/
def State.podId (s : State) : Nat := (s.preg 0x296).toNat % 512
/-- The current operating point code of a cluster (R332). -/
def State.opPoint (s : State) (cluster : Nat) : Nat := (s.preg (0x370 + cluster)).toNat / 256 % 64

/-- Firing steps per µs at a code: 2.8 G a second at 0.90 V, 2.2 G at 0.75 V and 1.1 G at 0.50 V (R332) (DEDUCED, log
33). -/
def stepRate (code : Nat) : Nat :=
  if code = 0 then 1100 else if code = 25 then 2200 else if code = 40 then 2800 else Config.stepRate code
/-- Firing steps of a cluster since reset, at the rates of its codes (R366, R387). -/
def State.clusterSteps (s : State) (cl : Nat) : Nat :=
  let c := s.cluster cl
  c.stepsDone + (s.timeNs.toNat - c.stepsNs) * stepRate (s.opPoint cl) / 1000
/-- The steps so far are noted before a cluster's code changes. -/
def State.noteSteps (s : State) (cl : Nat) : State :=
  s.updCluster cl fun c => { c with stepsDone := s.clusterSteps cl, stepsNs := s.timeNs.toNat }

/-! ## Physical keys (R123) -/

/-- The key of a physical byte: memory kind · 2^52 + physical address. -/
def physKey (kind addr : Nat) : Nat := kind * 2 ^ 52 + addr
/-- The memory kind of a key (DESIGN CHOICE, log 35). -/
def keyKind (k : Nat) : Nat := k / 2 ^ 52
/-- Bytes of local HBM (R13). -/
def hbmBytes : Nat := 640 * 2 ^ 30
/-- The 64-byte sector of a key. -/
def sectorOf (k : Nat) : Nat := k / 64
/-- The key of a byte's place in a cluster's copies. -/
def copyKey (cluster k : Nat) : Nat := cluster * 2 ^ 54 + k
/-- The slice that is a key's home (R123), with the package for peer memory. -/
def sliceOf (k : Nat) : Nat := k / 2 ^ 43 * 256 + k / 256 % 256

/-! ## Order-repairing cells: values (R149, R150, R152) -/

/-- One operation applied to a cell's value; a 32-bit value stands in the low half. -/
def OrcOp.apply (op : OrcOp) (w64 : Bool) (x : BitVec 64) (ops : List Word) : BitVec 64 :=
  let a := ops.getD 0 0
  let b := ops.getD 1 0
  let x32 : Word := x.extractLsb' 0 32
  match op with
  | .set => if w64 then of64 a b else a.setWidth 64
  | .addF32 => (fadd32 x32 a).setWidth 64
  | .addF64 => BitVec.ofNat 64 (fp64.add x.toNat (of64 a b).toNat)
  | .mulF32 => (fmul32 x32 a).setWidth 64
  | .fmaF32 => (fma32 a x32 b).setWidth 64
  | .maxF32 => (fmax32 x32 a).setWidth 64
  | .minF32 => (fmin32 x32 a).setWidth 64
  | .addInt => if w64 then x + of64 a b else (x32 + a).setWidth 64

/-- The step of a stamp (R145). -/
def stampStep (t : BitVec 40) : Nat := t.toNat / 65536

/-- A base folded through entries in stamp order. -/
def foldEntries (w64 : Bool) (base : BitVec 64) (es : List Entry) : BitVec 64 :=
  es.foldl (fun x e => e.op.apply w64 x e.ops) base

/-- The tentative value of a cell (R152). -/
def Cell.tentative (c : Cell) : BitVec 64 := foldEntries c.w64 c.base c.history
/-- The settled value of a cell for step s (R153). -/
def Cell.settled (c : Cell) (step : Nat) : BitVec 64 :=
  foldEntries c.w64 c.base (c.history.filter fun e => stampStep e.stamp ≤ step)
/-- `fold_through` of R150. -/
def Cell.foldThrough (c : Cell) (w : BitVec 24) : Cell :=
  { c with
    base := foldEntries c.w64 c.base (c.history.filter fun e => stampStep e.stamp ≤ w.toNat)
    history := c.history.filter fun e => stampStep e.stamp > w.toNat
    f := if w.toNat > c.f.toNat then w else c.f }
/-- Bytes of a cell's word. -/
def Cell.size (c : Cell) : Nat := if c.w64 then 8 else 4

/-- The cell whose word covers a byte. -/
def State.cellAt (s : State) (k : Nat) : Option Cell :=
  s.cells.find? fun c => c.word ≤ k && k < c.word + c.size
/-- A domain by its record. -/
def State.domain? (s : State) (record : Nat) : Option Domain := s.domains.find? (·.record == record)
/-- Changes a domain. -/
def State.updDomain (s : State) (record : Nat) (f : Domain → Domain) : State :=
  { s with domains := updateIf (·.record == record) f s.domains }
/-- Changes the cell of a word. -/
def State.updCell (s : State) (word : Nat) (f : Cell → Cell) : State :=
  { s with cells := updateIf (·.word == word) f s.cells }
/-- The view of the watermark that a cell's slice holds (R147). -/
def State.viewOf (s : State) (c : Cell) : BitVec 24 :=
  match s.domain? c.domain with
  | some d => (d.views.find (sliceOf c.word)).getD 0
  | none => 0

/-! ### Settled loads (R153) -/

/-- The step that a settled load asks for (R153). -/
def Req.settleStep (r : Req) : Nat := (r.ops.getD 0 0).toNat % 2 ^ 24
/-- Whether a request is a settled load that waits at a word. -/
def Req.waitsAt (r : Req) (k : Nat) : Bool :=
  (match r.kind with
    | .orcLoad true _ => true
    | _ => false) && r.phase = .waiting && r.pa = some k

/-- The words of a cell's value. -/
def Cell.words (c : Cell) (v : BitVec 64) : List Word := if c.w64 then wordsOf64 v else [v.extractLsb' 0 32]

/-- A settled load is answered when the view of its cell's slice has reached its step (R153). -/
def State.answerLoad (s : State) (r : Req) (c : Cell) : State :=
  if (s.viewOf c).toNat ≥ r.settleStep then
    s.updReq r.id fun q => { q with phase := .answered, value := c.words (c.settled r.settleStep) }
  else s

/-- The settled loads that wait at a cell and have settled are answered before it folds (R153). -/
def State.answerSettled (s : State) (c : Cell) : State :=
  (s.reqs.filter (·.waitsAt c.word)).foldl (fun s r => s.answerLoad r c) s

/-- Whether a request waits at a bound word: a settled load, or a free (R151, R153). -/
def Req.waitsForCell (r : Req) (k : Nat) : Bool :=
  r.waitsAt k || (r.kind = .orcCtl .free true || r.kind = .orcCtl .free false) && r.phase = .waiting && r.pa = some k
/-- Whether a request waited at a cell that its owner's end has released: it names no place any more (R403). -/
def Req.orphaned (r : Req) : Bool := r.phase = .waiting && r.pa.isNone && r.space = 0 &&
  match r.kind with
  | .orcLoad _ _ => true
  | .orcCtl .free _ => true
  | _ => false

/-! ## The home (R129) -/

/-- A byte at the home; a byte of a bound word is one of its tentative value (R152). -/
def State.homeByte (s : State) (k : Nat) : Byte :=
  match s.cellAt k with
  | some c => BitVec.ofNat 8 (c.tentative.toNat / 256 ^ (k - c.word) % 256)
  | none => s.mem.read k
/-- Bytes at the home from a key upward. -/
def State.homeRead (s : State) (k n : Nat) : List Byte := (List.range n).map fun i => s.homeByte (k + i)

/-- What an atomic on n bytes that overlap bound words returns: the part of a cell's tentative value that it names, or
the whole of it where the cell is narrower (R151, R152) (DEDUCED, log 28). -/
def State.boundValue (s : State) (k n : Nat) : Nat :=
  match s.cells.find? fun c => c.word < k + n && k < c.word + c.size with
  | some c => if c.size < n then c.tentative.toNat else natOfBytes (s.homeRead k n)
  | none => 0

/-- Stores bytes at the home except those of bound words. -/
def storeHome (s : State) : Nat → List Byte → Memory → Memory
  | _, [], m => m
  | k, b :: bs, m => storeHome s (k + 1) bs (if (s.cellAt k).isSome then m else m.write k b)

/-- Counts one arrival of overlapping bytes at a domain (R151), also in its record (R144). -/
def State.countDiscard (s : State) (record : Nat) : State :=
  match s.domain? record with
  | some d =>
    let n := d.discarded + 1
    { s.updDomain record fun d => { d with discarded := n } with
      mem := s.mem.writeN (record + 0x10) (bytesOfNat 8 n.toNat) }
  | none => s

/-- The domains of the bound words that some of n bytes from a key overlap. -/
def State.overlapped (s : State) (k n : Nat) : List Nat :=
  ((s.cells.filter fun c => c.word < k + n && k < c.word + c.size).map (·.domain)).eraseDups

/-- The sectors that lie whole within n bytes from a key. -/
def wholeSectors (k n : Nat) : List Nat :=
  (List.range ((k + n) / 64 - (k + 63) / 64)).map fun i => (k + 63) / 64 + i
/-- The sectors that n bytes from a key touch. -/
def touchedSectors (k n : Nat) : List Nat :=
  if n = 0 then [] else (List.range ((k + n - 1) / 64 - k / 64 + 1)).map fun i => k / 64 + i

/-- A write arrives at the home: bytes of bound words are discarded and counted (R151), a whole sector
written clears its poison mark (R384). -/
def State.writeHome (s : State) (k : Nat) (bs : List Byte) : State :=
  let ds := s.overlapped k bs.length
  let s := { s with
    mem := storeHome s k bs s.mem
    poison := s.poison.filter fun p => !(wholeSectors k bs.length).contains p }
  ds.foldl State.countDiscard s

/-! ## Copies (R127, R129 to R131) -/

/-- The byte that a cluster's copy holds. -/
def State.copyByte? (s : State) (cl k : Nat) : Option CopyByte := s.copies.find (copyKey cl k)
/-- A byte as a cluster reads it: its copy, else the home (R131). -/
def State.clusterByte (s : State) (cl k : Nat) : Byte :=
  match s.copyByte? cl k with
  | some c => c.val
  | none => s.homeByte k
/-- Bytes as a cluster reads them. -/
def State.clusterRead (s : State) (cl k n : Nat) : List Byte :=
  (List.range n).map fun i => s.clusterByte cl (k + i)

/-- Stores bytes in a cluster's copy as dirty. -/
def putDirty (cl : Nat) : Nat → List Byte → Assoc CopyByte → Assoc CopyByte
  | _, [], m => m
  | k, b :: bs, m => putDirty cl (k + 1) bs (m.put (copyKey cl k) ⟨b, true⟩)
/-- Stores bytes in a cluster's copy where it holds them, clean or dirty as they were. -/
def putHeld (cl : Nat) : Nat → List Byte → Assoc CopyByte → Assoc CopyByte
  | _, [], m => m
  | k, b :: bs, m =>
    putHeld cl (k + 1) bs
      (match m.find (copyKey cl k) with
        | some c => m.put (copyKey cl k) ⟨b, c.dirty⟩
        | none => m)

/-- Clears the poison marks of whole sectors that a write into a copy covers. -/
def State.clearCopyPoison (s : State) (cl k n : Nat) : State :=
  { s with copyPoison := s.copyPoison.filter fun p =>
      !((wholeSectors k n).map fun q => cl * 2 ^ 48 + q).contains p }

/-- Whether a byte's place lies in one sector of one cluster. -/
def inSector (cl sec : Nat) (c : Nat × CopyByte) : Bool :=
  c.1 / 2 ^ 54 = cl && sectorOf (c.1 % 2 ^ 54) = sec
/-- The bytes of a sector that a cluster holds. -/
def State.sectorCopy (s : State) (cl sec : Nat) : List (Nat × CopyByte) := s.copies.filter (inSector cl sec)

/-- The dirty bytes of a sector go home, masked (R127); the copy is then clean (R130). A poisoned copy
poisons the home sector (R384). -/
def State.writeBack (s : State) (cl sec : Nat) : State :=
  let dirty := (s.sectorCopy cl sec).filter (·.2.dirty)
  if dirty = [] then s
  else
    let ks := dirty.map fun c => c.1 % 2 ^ 54
    let ds := ((s.cells.filter fun c => ks.any fun k => c.word ≤ k && k < c.word + c.size).map (·.domain)).eraseDups
    let mem := dirty.foldl (fun m c =>
      if (s.cellAt (c.1 % 2 ^ 54)).isSome then m else m.write (c.1 % 2 ^ 54) c.2.val) s.mem
    let poison :=
      if s.copyPoison.contains (cl * 2 ^ 48 + sec) then setAdd s.poison sec
      else if ks.length = 64 then setDel s.poison sec else s.poison
    let s := { s with
      mem := mem
      poison := poison
      copies := s.copies.map fun c => if inSector cl sec c then (c.1, { c.2 with dirty := false }) else c }
    ds.foldl State.countDiscard s

/-- Writes back every dirty sector of a cluster whose bytes a test selects (R134). -/
def State.writeBackWhere (s : State) (cl : Nat) (p : Nat → Bool) : State :=
  let secs := ((s.copies.filter fun c => c.1 / 2 ^ 54 = cl && c.2.dirty && p (c.1 % 2 ^ 54)).map
    fun c => sectorOf (c.1 % 2 ^ 54)).eraseDups
  secs.foldl (fun s sec => s.writeBack cl sec) s

/-- An uncorrectable error at a physical address is counted and noted (R383, R386). -/
def State.noteUncorrectable (s : State) (addr : Nat) : State :=
  ((s.countPreg 0x231).setPreg 0x232 (BitVec.ofNat 32 addr)).setPreg 0x432 (BitVec.ofNat 32 (addr / 2 ^ 32))

/-- Whether a sector of a cluster's copies lies in a pinned line of 256 bytes (R127, R137). -/
def State.isPinned (s : State) (cl sec : Nat) : Bool := s.pins.any fun p => p.cluster = cl && p.sector / 4 = sec / 4

/-- Drops the clean bytes of a cluster's L2 copies that a test selects, except pinned ones; a line that L1 holds in
read-only mode stays (R126, R138). -/
def State.dropL2 (s : State) (cl : Nat) (p : Nat → Bool) : State :=
  let gone : Nat × CopyByte → Bool := fun c =>
    c.1 / 2 ^ 54 = cl && !c.2.dirty && p (c.1 % 2 ^ 54) && !s.isPinned cl (sectorOf (c.1 % 2 ^ 54))
  let left := s.copies.filter fun c => !gone c
  { s with
    copies := left
    early := s.early.filter fun q => left.any fun c => c.1 / 2 ^ 54 * 2 ^ 46 + c.1 % 2 ^ 54 / 256 = q
    copyPoison := s.copyPoison.filter fun q => left.any fun c => c.1 / 2 ^ 54 * 2 ^ 48 + sectorOf (c.1 % 2 ^ 54) = q }
/-- Drops the clean bytes of a cluster's copies that a test selects, except pinned ones (R135, R137). -/
def State.dropClean (s : State) (cl : Nat) (p : Nat → Bool) : State :=
  { s.dropL2 cl p with l1 := s.l1.filter fun c => !(c.1 / 2 ^ 54 = cl && p (c.1 % 2 ^ 54)) }

/-! ### Room in L2 (R21, R127) -/

/-- Lines of 256 bytes in one L2 slice of 512 KiB (R21). -/
def sliceLines : Nat := 2048
/-- The lines that a cluster's copies hold in the L2 slice of a line, rising. -/
def State.heldLines (s : State) (cl line : Nat) : List Nat :=
  (s.copies.foldl (fun (acc : List Nat) c =>
    let l := c.1 % 2 ^ 54 / 256
    if c.1 / 2 ^ 54 = cl && l % 8 = line % 8 && acc.head? != some l then l :: acc else acc) []).reverse
/-- A line leaves a cluster's copies: its dirty bytes go home, then it is dropped (R130). -/
def State.evictLine (s : State) (cl line : Nat) : State :=
  ((List.range 4).foldl (fun s i => s.writeBack cl (4 * line + i)) s).dropClean cl fun k => k / 256 = line
/-- The lines among those that may leave that are first in line for eviction: those held under policy 1, where there is
one (R127). -/
def State.firstOut (s : State) (cl : Nat) (free : List Nat) : List Nat :=
  let first := free.filter fun l => s.early.contains (cl * 2 ^ 46 + l)
  if first.isEmpty then free else first
/-- Room for a line in its L2 slice: where 2048 other lines fill it, one that is not pinned leaves, of policy 1 where one
is (R21, R127, R130, R137) (DESIGN CHOICE, log 30). -/
def State.makeRoom (s : State) (cl line : Nat) : State :=
  if s.copies.length < sliceLines then s
  else
    let held := s.heldLines cl line
    if held.contains line || held.length < sliceLines then s
    else
      let free := s.firstOut cl (held.filter fun l => !s.isPinned cl (4 * l))
      match free[Config.victim s.tick % free.length]? with
      | some l => s.evictLine cl l
      | none => s
/-- Room for every line that n bytes from a key touch. -/
def State.makeRoomFor (s : State) (cl k n : Nat) : State :=
  ((touchedSectors k n).map (· / 4)).eraseDups.foldl (fun s l => s.makeRoom cl l) s

/-- The lines that n bytes from a key touch are held under a policy: the policy of the last fill or write of a line is the
line's (R127) (DESIGN CHOICE, log 30). -/
def State.noteLine (s : State) (cl k n : Nat) (policy : BitVec 2) : State :=
  let ls := ((touchedSectors k n).map fun sec => cl * 2 ^ 46 + sec / 4).eraseDups
  { s with early := if policy = 1 then ls.foldl setAdd s.early else s.early.filter fun q => !ls.contains q }

/-- A cacheable write lands in the issuing cluster's copy, which becomes dirty (R131). -/
def State.landCopy (s : State) (cl k : Nat) (bs : List Byte) : State :=
  let s := s.makeRoomFor cl k bs.length
  ({ s with copies := putDirty cl k bs s.copies }).clearCopyPoison cl k bs.length
/-- An uncached or peer write lands at the home, and in bytes that the issuing cluster holds (R131). -/
def State.landHome (s : State) (cl k : Nat) (bs : List Byte) : State :=
  let s := s.writeHome k bs
  ({ s with copies := putHeld cl k bs s.copies }).clearCopyPoison cl k bs.length

/-- Fills the absent bytes of a sector from the home (R130, item 3), with the home's poison mark where one is absent
(R384). -/
def State.fillSector (s : State) (cl sec : Nat) : State :=
  let s := s.makeRoom cl (sec / 4)
  let ks := (List.range 64).map fun i => sec * 64 + i
  { s with
    copies := ks.foldl (fun m k =>
      match m.find (copyKey cl k) with
      | some _ => m
      | none => m.put (copyKey cl k) ⟨s.homeByte k, false⟩) s.copies
    copyPoison :=
      if s.poison.contains sec && ks.any (fun k => (s.copyByte? cl k).isNone) then setAdd s.copyPoison (cl * 2 ^ 48 + sec) else s.copyPoison }

/-- The first poisoned byte among n bytes that a cluster reads from a key (R384). -/
def State.poisonedByte (s : State) (cl k n : Nat) : Option Nat :=
  ((List.range n).map (k + ·)).find? fun k =>
    match s.copyByte? cl k with
    | some _ => s.copyPoison.contains (cl * 2 ^ 48 + sectorOf k)
    | none => s.poison.contains (sectorOf k)

/-! ## Scratchpads (R136) -/

/-- The key of a cluster-scratch byte of a cluster: core · 2^17 + offset (R118). -/
def scratchKey (cl addr : Nat) : Nat := cl * 2 ^ 23 + addr
/-- Bytes of a scratchpad. -/
def State.scratchRead (s : State) (k n : Nat) : List Byte := s.scratch.readN k n
/-- Stores scratch bytes; a whole 8-byte unit written clears its poison mark (R383, R384). -/
def State.scratchWrite (s : State) (k : Nat) (bs : List Byte) : State :=
  { s with
    scratch := s.scratch.writeN k bs
    scratchPoison := s.scratchPoison.filter fun p => !(k ≤ 8 * p && 8 * p + 8 ≤ k + bs.length) }
/-- The first poisoned byte among n scratch bytes. -/
def State.scratchPoisoned (s : State) (k n : Nat) : Option Nat :=
  ((List.range n).map (k + ·)).find? fun k => s.scratchPoison.contains (k / 8)

/-! ## Translation (R120 to R124) -/

/-- The 64-bit table entry at a physical address. Tables lie in local HBM: bits [51:43] of the address are dropped, and
an entry beyond 640 GiB reads as not valid (R123) (DESIGN CHOICE, log 28: the memory kind of an entry that is not a leaf
is ignored). -/
def State.tableEntry (s : State) (a : Nat) : BitVec 64 :=
  let a := a % 2 ^ 43
  if a < hbmBytes then BitVec.ofNat 64 (natOfBytes (s.homeRead (physKey 0 a) 8)) else 0

/-- The physical page field of an entry as an address (R121). -/
def entryPage (e : BitVec 64) : Nat := e.toNat / 65536 % 2 ^ 36 * 65536

/-- The leaf that maps a virtual address, and the page's size in bits; none where an entry is not valid or a
third-level entry is no leaf (R120, R122). -/
def State.walkTable (s : State) (root va : Nat) : Option (BitVec 64 × Nat) :=
  let e1 := s.tableEntry (root + 8 * (va / 2 ^ 42 % 8192))
  if !e1.getLsbD 0 then none
  else if e1.getLsbD 1 then some (e1, 42)
  else
    let e2 := s.tableEntry (entryPage e1 + 8 * (va / 2 ^ 29 % 8192))
    if !e2.getLsbD 0 then none
    else if e2.getLsbD 1 then some (e2, 29)
    else
      let e3 := s.tableEntry (entryPage e2 + 8 * (va / 2 ^ 16 % 8192))
      if e3.getLsbD 0 && e3.getLsbD 1 then some (e3, 16) else none

/-- What an access needs (R122). -/
structure Need where
  read : Bool
  write : Bool
  exec : Bool
  priv : Bool
  deriving DecidableEq, Repr

/-- A translated address, or the fault code and address of a walk that fails. -/
inductive Trans where
  | ok (key : Nat) (policy : BitVec 2)
  | bad (code : Nat) (addr : Nat)
  deriving DecidableEq, Repr

/-- The outcome of a leaf for an access (R121 to R123). -/
def State.useLeaf (s : State) (entry : BitVec 64) (bits va : Nat) (n : Need) : Trans :=
  let kind := (entry.extractLsb' 8 2).toNat
  let policy := entry.extractLsb' 6 2
  if (n.read && !entry.getLsbD 2) || (n.write && !entry.getLsbD 3) || (n.exec && !entry.getLsbD 4)
      || (entry.getLsbD 5 && !n.priv) || kind = 3 || policy = 3 then .bad 0x11 va
  else
    let pa := entryPage entry / 2 ^ bits * 2 ^ bits + va % 2 ^ bits
    let kind := if kind = 2 && pa / 2 ^ 43 = s.podId then 0 else kind
    if kind = 2 then (if pa % 2 ^ 43 < hbmBytes then .ok (physKey 2 pa) policy else .bad 0x10 pa)
    else
      let a := pa % 2 ^ 43
      if kind = 0 && a ≥ hbmBytes then .bad 0x10 va else .ok (physKey kind a) policy

/-- Translation by the tables alone (schedulers, fetch agents, engines without a cached entry). -/
def State.translate (s : State) (root va : Nat) (n : Need) : Trans :=
  if va ≥ 2 ^ 55 then .bad 0x10 va
  else
    match s.walkTable root va with
    | some (e, bits) => s.useLeaf e bits va n
    | none => .bad 0x10 va

/-- A cluster's cached entry for an address (R124). -/
def State.cachedLeaf (s : State) (cl root va : Nat) : Option Cached :=
  s.cached.find? fun c => c.cluster = cl && c.root = root && c.page = va / 2 ^ c.bits

/-- Translation at a cluster: its cached entry, else a walk (R124). -/
def State.translateAt (s : State) (cl root va : Nat) (n : Need) : Trans :=
  if va ≥ 2 ^ 55 then .bad 0x10 va
  else
    match s.cachedLeaf cl root va with
    | some c => s.useLeaf c.entry c.bits va n
    | none => s.translate root va n

/-- A cluster's controller keeps the entry that a walk found, at most 1024 of them (R124); which one a full controller
gives up is open. An entry leaves otherwise only by an invalidation or a publish, and accesses of engines and islands
keep none (DESIGN CHOICE, log 54). -/
def State.cacheLeaf (s : State) (cl root va : Nat) : State :=
  match s.cachedLeaf cl root va, s.walkTable root va with
  | none, some (e, bits) =>
    let mine := s.cached.filter (·.cluster == cl)
    let rest := if mine.length ≥ 1024 then
        s.cached.filter fun c => some c != mine[Config.victim s.tick % mine.length]? else s.cached
    { s with cached := rest ++ [⟨cl, root, va / 2 ^ bits, bits, e⟩] }
  | _, _ => s
/-- A walk that finds the access forbidden leaves its valid entry in the cluster of a core, whichever agent asked: later
accesses use it until it is invalidated (R124, R382). -/
def State.keepLeaf (s : State) (core code va : Nat) : State :=
  if code = 0x11 then s.cacheLeaf (coreCluster core) (s.rootAt core) va else s

/-- Bytes of one translated range, page by page, read at the homes. -/
def State.readVirtFuel (s : State) (root : Nat) (n : Need) : Nat → Nat → Nat → Except (Nat × Nat) (List Byte)
  | 0, _, _ => .ok []
  | fuel + 1, va, len =>
    if len = 0 then .ok []
    else
      match s.translate root va n with
      | .bad c a => .error (c, a)
      | .ok k _ =>
        let m := min len (65536 - va % 65536)
        match s.readVirtFuel root n fuel (va + m) (len - m) with
        | .ok bs => .ok (s.homeRead k m ++ bs)
        | .error e => .error e

/-- Bytes at global virtual addresses, read at their homes; else the fault code and address. -/
def State.readVirt (s : State) (root : Nat) (n : Need) (va len : Nat) : Except (Nat × Nat) (List Byte) :=
  s.readVirtFuel root n (len / 65536 + 2) va len

/-- The first poisoned byte of a virtual range at its homes, as a virtual address (R384). -/
def State.virtPoison (s : State) (root : Nat) (n : Need) (va len : Nat) : Option Nat :=
  ((List.range len).map (va + ·)).find? fun a =>
    match s.translate root a n with
    | .ok k _ => s.poison.contains (sectorOf k)
    | .bad _ _ => false
/-- The same bytes for a rule that consumes them: poisoned ones raise 0x20 (R384). -/
def State.readVirtClean (s : State) (root : Nat) (n : Need) (va len : Nat) : Except (Nat × Nat) (List Byte) :=
  match s.readVirt root n va len with
  | .error e => .error e
  | .ok bs =>
    match s.virtPoison root n va len with
    | some a => .error (0x20, a)
    | none => .ok bs

/-- Whether every byte of a virtual range translates with a need. -/
def State.mapped (s : State) (root : Nat) (n : Need) (va len : Nat) : Bool :=
  (List.range (len / 65536 + 2)).all fun i =>
    let a := if i = 0 then va else (va / 65536 + i) * 65536
    a ≥ va + len || (match s.translate root a n with | .ok _ _ => true | .bad _ _ => false)

/-- Whether a range of a chain's addresses touches a peer's memory, and where first. -/
def State.peerVirt (s : State) (c : Chain) (x : Nat × Nat) : Option Nat :=
  (List.range (x.2 / 65536 + 2)).findSome? fun i =>
    let a := if i = 0 then x.1 else (x.1 / 65536 + i) * 65536
    if a ≥ x.1 + x.2 then none
    else match s.translate c.root a ⟨false, false, false, true⟩ with
      | .ok k _ => if keyKind k = 2 then some a else none
      | .bad _ _ => none

/-- Stores bytes at a global virtual address, at the home, page by page. -/
def State.writeVirtFuel (s : State) (root : Nat) (n : Need) : Nat → Nat → List Byte → State
  | 0, _, _ => s
  | fuel + 1, va, bs =>
    if bs = [] then s
    else
      match s.translate root va n with
      | .bad _ _ => s
      | .ok k _ =>
        let m := 65536 - va % 65536
        (s.writeHome k (bs.take m)).writeVirtFuel root n fuel (va + m) (bs.drop m)

/-- Stores bytes at a global virtual address, at the home. -/
def State.writeVirt (s : State) (root : Nat) (n : Need) (va : Nat) (bs : List Byte) : State :=
  s.writeVirtFuel root n (bs.length / 65536 + 2) va bs

end Sys2Proof.Machine
end

