-- ==== Sys2Proof/Machine/Ops.lean ====
section
/-!
DEFINITION. Operations that every family shares: the ends of leases and chains, taking a fault (R357 to
R361) with its way back, and sending requests and returning their results (R36, R37, R132, R243).
-/
namespace Sys2Proof.Machine

/-! ## Operating point (R332, R333) -/

/-- A field of a register. -/
def bitsOf (w : Word) (lo n : Nat) : Nat := w.toNat / 2 ^ lo % 2 ^ n

/-- A VREG word from its fields (R336). -/
def vregWord (ceiling target current base : Nat) : Word :=
  BitVec.ofNat 32 ((if current = target then 0 else 2 ^ 31) + ceiling * 2 ^ 24 + target * 2 ^ 16
    + current * 2 ^ 8 + base)

/-- The code that a voltage lease of a cluster gives; 0 without one. -/
def State.leaseCode (s : State) (cl : Nat) : Nat :=
  match (s.cluster cl).lease with
  | some l => if l.kind = 1 then l.code else 0
  | none => 0
/-- The level that a meter lease of a cluster gives; 0 without one. -/
def State.leaseLevel (s : State) (cl : Nat) : Nat :=
  match (s.cluster cl).lease with
  | some l => if l.kind = 2 then l.code else 0
  | none => 0

/-- Sets the regulator's target by the rule of R332. -/
def State.retarget (s : State) (cl ceiling base : Nat) : State :=
  let w := s.preg (0x370 + cl)
  let target := min ceiling (max base (s.leaseCode cl))
  let s := if bitsOf w 16 6 = bitsOf w 8 6 then s.updCluster cl fun c => { c with movedNs := s.timeNs.toNat } else s
  s.setPreg (0x370 + cl) (vregWord ceiling target (bitsOf w 8 6) base)
/-- The same with the ceiling and base in place. -/
def State.retargetNow (s : State) (cl : Nat) : State :=
  let w := s.preg (0x370 + cl)
  s.retarget cl (bitsOf w 24 6) (bitsOf w 0 6)

/-- The level that a meter admits by R333, never below 1. -/
def State.meterLevel (s : State) (cl : Nat) : Nat :=
  let w := s.preg (0x310 + cl)
  let request := if w.getLsbD 31 then bitsOf w 0 12 else 4095
  let ceiling := 4095 * (8 - bitsOf w 24 3) / 8
  max 1 (min ceiling (max request (s.leaseLevel cl)))

/-- The admitted level falls at once; it rises at once only when the ramp is 0 (R333). -/
def State.settleMeter (s : State) (cl : Nat) : State :=
  let level := s.meterLevel cl
  s.updCluster cl fun c =>
    if level < c.level || bitsOf (s.preg (0x310 + cl)) 12 12 = 0 then { c with level := level } else c

/-- The lease of a cluster ends; target and level return to the rules without it (R335). -/
def State.endLease (s : State) (cl : Nat) : State :=
  let s := s.updCluster cl fun c => { c with lease := none }
  (s.retargetNow cl).settleMeter cl
/-- The leases of a chain end (R88). -/
def State.endLeasesOf (s : State) (ident : Nat) : State :=
  let cls := (s.clusters.filter fun c => match c.2.lease with
    | some l => l.chain == ident
    | none => false).map (·.1)
  cls.foldl State.endLease s

/-! ## Requests and results -/

/-- Sets an element's pending bit for each register of a destination (R36). -/
def Elem.setPendDst (e : Elem) (d : Dst) (b : Bool) : Elem :=
  match d with
  | .none => e
  | .reg r => e.setPend r b
  | .pair r => (e.setPend r b).setPend (r + 1) b
  | .out _ _ => e

/-- The registers of a destination. -/
def Dst.regs : Dst → List Nat
  | .reg r => [r]
  | .pair r => [r, r + 1]
  | _ => []

/-- Whether another request still owes a result to a register destination of an element (R239, R242), one that waits as a
replay entry too: the register stays pending for it (R360). -/
def State.owesReg (s : State) (elem : Nat) (d : Dst) (id : Nat) : Bool :=
  (s.reqs ++ s.replayed).any fun r => r.elem = elem && r.id ≠ id && r.dst.regs.any (d.regs.contains ·)

/-- Whether beats of the rule that a request belongs to are still to fire: their results are owed to the same register
(R239, R242). -/
def State.owesBeats (s : State) (elem id : Nat) : Bool :=
  match (s.elem elem).beat, s.req? id with
  | some b, some r => !b.spent && b.slot = r.slot && decide (b.k < b.n)
  | _, _ => false

/-- Fills reserved slots with words in order, the tag taken from the slot or from `tag` of the word's place;
slots left over go back (R280). -/
def fillAll (tag : Nat → Option Tag) (elem ch : Nat) : Nat → List Nat → List Word → State → State
  | _, [], _, s => s
  | i, h :: hs, w :: ws, s => fillAll tag elem ch (i + 1) hs ws (s.fillSlot elem ch h w (tag i))
  | i, h :: hs, [], s => fillAll tag elem ch (i + 1) hs [] (s.returnSlot elem ch h)

/-- A delayed result reaches its destination (R36, R37): a register or pair is written and its pending bit
cleared unless a later result of it is owed; an output's reserved slots are filled. -/
def State.deliver (s : State) (elem id : Nat) (d : Dst) (tag : Nat → Option Tag) (ws : List Word) : State :=
  match d with
  | .none => s
  | .reg r =>
    let owed := s.owesReg elem d id || s.owesBeats elem id
    s.updElem elem fun e => (e.setReg r (ws.getD 0 0)).setPendDst d owed
  | .pair r =>
    let owed := s.owesReg elem d id || s.owesBeats elem id
    s.updElem elem fun e => ((e.setReg r (ws.getD 0 0)).setReg (r + 1) (ws.getD 1 0)).setPendDst d owed
  | .out ch hs => fillAll tag elem ch 0 hs ws s

/-- Slots are taken for n words on the channel of a destination code, each with the code's tag (R37). -/
def State.reserveN (s : State) (elem : Nat) (c : Code) : Nat → State × List Nat
  | 0 => (s, [])
  | n + 1 =>
    let ch := c.toNat % 4
    let t : Tag := BitVec.ofNat 2 (c.toNat / 4)
    let id := s.nextId
    let (s', hs) := State.reserveN (s.bump.reserveSlot elem ch id t) elem c n
    (s', id :: hs)

/-- At firing, the destination code of a late result of n words: a register is set pending, an output's slots
are reserved (R36, R37). -/
def State.reserveDst (s : State) (elem : Nat) (c : Code) (n : Nat) : State × Dst :=
  if c.toNat < 16 then (s.updElem elem (·.setPend c.toNat true), .reg c.toNat)
  else
    let (s, hs) := s.reserveN elem c n
    (s, .out (c.toNat % 4) hs)

/-- At firing, a register pair of a late result is set pending. -/
def State.reservePair (s : State) (elem r : Nat) : State × Dst :=
  (s.updElem elem fun e => (e.setPend r true).setPend (r + 1) true, .pair r)

/-- Discards what a destination reserved: slots stay taken and bits pending are cleared by nobody (R75). -/
def Dst.slots : Dst → List Nat
  | .out _ hs => hs
  | _ => []

/-! ## Ends of chains (R75, R85, R151, R402) -/

/-- The pins that a core's tiles hold go (R137). -/
def State.unpinCore (s : State) (core : Nat) : State :=
  let s := { s with pins := s.pins.filter (·.core != core) }
  s.updCore core fun c => { c with mx := { c.mx with tiles := c.mx.tiles.map fun t => { t with pinned := false } } }

/-- A cluster whose islands of a mask keep nothing. -/
def Cluster.without (c : Cluster) (islands : BitVec 8) : Cluster :=
  let gone (k : Nat) : Bool := (islands.getLsbD 0 && k / 4 = 4) || (islands.getLsbD 1 && (k / 4 = 5 || k / 4 = 6))
    || (islands.getLsbD 2 && k / 4 = 7)
  let c := { c with edgeOut := c.edgeOut.filter fun e => !gone e.1 }
  let c := if islands.getLsbD 0 then { c with fmts := .replicate 8 none, rays := [] } else c
  let c := if islands.getLsbD 1 then { c with raster := default } else c
  if islands.getLsbD 2 then
    { c with sampler := {
        slots := .replicate 16 ⟨false, 0, [], 0, 0, 0⟩
        weights := []
        waiting := []
        flight := [] } }
  else c

/-- Frees what the stateful islands of a cluster keep for a chain (R85). -/
def State.freeIslands (s : State) (cl : Nat) (islands : BitVec 8) : State := s.updCluster cl (·.without islands)

/-- A departure entry is added; a full list loses its oldest exited entry, else its oldest (R364). -/
def State.addDeparture (s : State) (cl : Nat) (d : Departure) : State :=
  s.updCluster cl fun c =>
    let l := c.departures
    let l :=
      if l.length < 64 then l
      else match takeFirst (fun x : Departure => x.state == .exited) l with
        | some (_, rest) => rest
        | none => l.drop 1
    { c with departures := l ++ [d] }

/-- The words in the port and edge queues that a link or a port binding of a spur uses go with it. -/
def State.clearQueues (s : State) (p : Spur) : State :=
  let ends := (s.links.filter (·.spur == p.id)).flatMap (fun l => [l.sender, l.receiver])
    ++ (s.binds.filter (·.spur == p.id)).map fun b => LinkEnd.port b.cluster b.port
  ends.foldl (fun s e => match e with
    | .port cl n => s.updCluster cl fun c => { c with ports := c.ports.setIfInBounds n [] }
    | .edgeIn cl pos q => s.updCluster cl fun c => { c with edgeIn := c.edgeIn.del (4 * pos + q) }
    | .edgeOut cl pos q => s.updCluster cl fun c => { c with edgeOut := c.edgeOut.del (4 * pos + q) }
    | _ => s) s

/-- The spur leaves its cores: element, core, link and request state of it goes. -/
def State.clearSpur (s : State) (p : Spur) : State :=
  let mine (k : Nat) : Bool := p.covers (elemCore k)
  let s := s.clearQueues p
  let s := { s with
    elems := s.elems.filter fun e => !mine e.1
    cores := s.cores.filter fun c => !p.covers c.1
    links := s.links.filter (·.spur != p.id)
    binds := s.binds.filter (·.spur != p.id)
    reqs := s.reqs.filter fun r => !mine r.elem
    dones := s.dones.filter fun d => !mine d.elem
    pins := s.pins.filter fun q => !p.covers q.core
    spurs := s.spurs.filter (·.id != p.id) }
  match (s.cluster p.cluster).lease with
  | some l => if mine l.elem then s.endLease p.cluster else s
  | none => s

/-- What spurs of a chain's earlier stages left in islands is freed, where no spur of another chain uses them (R85). -/
def State.freeLeft (s : State) (c : Chain) : State :=
  let s := c.isl.foldl (fun s x =>
    if s.spurs.any fun p => p.cluster = x.1 && p.chain ≠ c.ident && p.islands &&& x.2 ≠ 0 then s
    else s.freeIslands x.1 x.2) s
  s.updChain c.ident fun c => { c with isl := [] }

/-- The cells of a chain are released without waiting: settled loads that have settled are answered (R153), the folded
value is written at the home, and the chain's domains are dissolved (R151, R402). A load or a free that still waits
there names no word any more, and its 0x31 comes next (R403). -/
def State.releaseCells (s : State) (ident : Nat) : State :=
  let mine := s.cells.filter (·.chain == ident)
  let s := mine.foldl (fun s c => s.answerSettled c) s
  let stale (r : Req) : Bool := mine.any fun c => r.waitsForCell c.word
  let happening (r : Req) : Instr :=
    match r.kind with
    | .orcLoad _ _ => .settledLoadAnswer
    | _ => .orcFreeEnd
  let s := { s with
    agenda := s.agenda ++ (s.reqs.filter stale).map fun r => (happening r, { (default : Pick) with a := r.id })
    reqs := updateIf stale (fun r => { r with pa := none }) s.reqs }
  let s := { s with cells := s.cells.filter (·.chain != ident) }
  let s := mine.foldl (fun s c =>
    { s with mem := s.mem.writeN c.word (bytesOfNat c.size c.tentative.toNat) }) s
  { s with domains := s.domains.filter (·.chain != ident) }

/-- The 64 bytes of a completion record (R75). -/
def completionBytes (c : Chain) (status sub : Nat) (endNs : Nat) : List Byte :=
  bytesOfNat 8 (fieldAt c.record 0x08 8) ++ bytesOfNat 1 status ++ bytesOfNat 1 sub
    ++ bytesOfNat 2 c.startedAt ++ bytesOfNat 4 c.faults ++ bytesOfNat 8 (c.startNs.getD 0)
    ++ bytesOfNat 8 endNs ++ bytesOfNat 8 c.orphans ++ bytesOfNat 24 0

/-- What the home scheduler needs to write for a chain. -/
def needWrite (c : Chain) : Need := ⟨false, true, false, c.privileged⟩
/-- What the home scheduler needs to read for a chain. -/
def needRead (c : Chain) : Need := ⟨true, false, false, c.privileged⟩

/-- A vector goes to the host (R319, R325). -/
def State.sendVector (s : State) (n : Nat) : State := { s with outside := s.outside ++ [.vector n] }
/-- Vector 64 goes to the host when the chain asks for it and CPL_IRQ[0] is set (R75, R325, R358). -/
def State.notify (s : State) (c : Chain) : State :=
  if c.notify && (s.preg 0x2A4).getLsbD 0 then s.sendVector 64 else s

/-- A chain ends: its ridge is discarded, leases and cells released, the completion record written when its address
translates with write permission, the done value stored, the interrupt sent (R75). A system chain never completes
(R321). -/
def State.endChain (s : State) (ident status sub : Nat) : State :=
  match s.chain? ident with
  | none => s
  | some c =>
    if c.system then s
    else
    let s := (s.spursOf ident).foldl (fun s p => (s.clearSpur p).freeIslands p.cluster p.islands) s
    let s := ((s.freeLeft c).endLeasesOf ident).releaseCells ident
    let s := { s with
      chains := s.chains.filter (·.ident != ident)
      links := s.links.filter (·.chain != ident)
      clusters := s.clusters.map fun (k : Nat × Cluster) => (k.1, { k.2 with departures := k.2.departures.filter fun d =>
        !(d.chain = ident && (match d.state with | .moved _ _ _ => true | _ => false)) }) }
    let s :=
      if c.completion % 64 = 0 && s.mapped c.root (needWrite c) c.completion 64 then
        s.writeVirt c.root (needWrite c) c.completion (completionBytes c status sub s.timeNs.toNat)
      else s
    let s := if c.doneAddr = 0 || c.doneAddr % 8 ≠ 0 then s else
      s.writeVirt c.root (needWrite c) c.doneAddr (bytesOfNat 8 c.doneValue)
    s.notify c

/-! ## Taking a fault (R357 to R361) -/

/-- What a fault record says. -/
structure FaultInfo where
  code : Nat
  sub : Nat := 0
  late : Bool := false
  final : Bool := false
  elem : Nat
  addr : Nat := 0
  slot : Nat := 0xFF
  handler : Nat := 0xFF
  word : Word := 0
  ext : Word := 0
  step : BitVec 64 := 0
  stage : Nat := 0
  spur : Nat := 0
  following : Nat := 0
  /-- Whether snapshot records follow (R400). -/
  snapshot : Bool := false
  deriving DecidableEq, Repr

/-- The element coordinate word (R190). -/
def State.coordWord (s : State) (k : Nat) : Word :=
  BitVec.ofNat 32 (s.podId * 2 ^ 23 + elemCluster k * 2 ^ 16 + coreIdx (elemCore k) * 2 ^ 8 + elemIdx k)

/-- The 64 bytes of a fault record (R357). -/
def State.recordBytes (s : State) (c : Chain) (f : FaultInfo) : List Byte :=
  bytesOfNat 1 f.code ++ bytesOfNat 1 f.sub
    ++ bytesOfNat 1 ((if f.late then 1 else 0) + (if f.final then 2 else 0) + (if f.snapshot then 4 else 0))
    ++ bytesOfNat 1 (s.opPoint (elemCluster f.elem)) ++ bytesOfNat 4 (s.coordWord f.elem).toNat
    ++ bytesOfNat 8 (fieldAt c.record 0x08 8) ++ bytesOfNat 8 f.step.toNat ++ bytesOfNat 8 f.addr
    ++ bytesOfNat 1 f.slot ++ bytesOfNat 1 f.handler ++ bytesOfNat 2 f.stage ++ bytesOfNat 4 f.word.toNat
    ++ bytesOfNat 4 f.ext.toNat ++ bytesOfNat 2 f.following ++ bytesOfNat 2 f.spur
    ++ bytesOfNat 8 s.timeNs.toNat ++ bytesOfNat 8 0

/-- Whether the fault area has a free record i (R358): inside the capacity, it and every one before it in the
area mapped for writing. -/
def State.recordFree (s : State) (c : Chain) (i : Nat) : Bool :=
  i < c.faultCap && s.mapped c.root (needWrite c) c.faultArea (64 * (i + 1))

/-- Writes the next fault record of a chain; vector 64 follows each record (R357, R358). -/
def State.putRecord (s : State) (c : Chain) (bytes : List Byte) : State :=
  let s := s.writeVirt c.root (needWrite c) (c.faultArea + 64 * c.faults) bytes
  let s := s.updChain c.ident fun c => { c with faults := c.faults + 1 }
  s.notify c

/-- The cores of a ridge come to rest at a freeze: pins are released, copy firings park (R77 steps 3 and 4). -/
def State.quietCores (s : State) (ident : Nat) : State :=
  ((s.spursOf ident).flatMap (·.cores)).foldl (fun s core =>
    (s.unpinCore core).updCore core fun c => { c with ct := c.ct.map Template.park }) s

/-- A freeze returns the leases of a chain's spurs, and each spur keeps the unused time, the kind and the code (R88). -/
def State.returnLeases (s : State) (ident : Nat) : State :=
  let note (p : Spur) : Spur :=
    match (s.cluster p.cluster).lease with
    | some l => if p.covers (elemCore l.elem) then
        { p with leaseLeft := ((l.endNs - s.timeNs.toNat) / 1000, l.kind, l.code) } else p
    | none => p
  let t := { s with spurs := updateIf (·.chain == ident) note s.spurs }
  t.endLeasesOf ident

/-- The ridge of a chain freezes in place and the chain is held (R359): leases end, pins are released; every
later step of its agents sees the hold, and copy firings park (R77). -/
def State.hold (s : State) (ident : Nat) : State :=
  let s := s.updChain ident fun c => if c.phase = .started then { c with phase := .held } else c
  (s.returnLeases ident).quietCores ident

/-- A fault is written into the chain's fault area and holds the chain; without a free record the chain ends
with status 2 (R357 to R359). A system chain has no fault area and never ends: it is held without a record (R321)
(DESIGN CHOICE, log 51). -/
def State.raise (s : State) (ident : Nat) (f : FaultInfo) : State :=
  match s.chain? ident with
  | none => s
  | some c =>
    if c.system then s.hold ident
    else if s.recordFree c c.faults then (s.putRecord c (s.recordBytes c f)).hold ident
    else s.endChain ident 2 0

/-- A fault that the step of the element `k` finds: it is recorded, and elements behind `k` still take their steps of
the same moment (R361). -/
def State.raiseAt (s : State) (ident k : Nat) (f : FaultInfo) : State :=
  (s.raise ident f).updChain ident fun c => { c with stopped := some k }

/-- The extension word of a slot (R187). -/
def Elem.extOf (e : Elem) (slot : Nat) : Word := if slot < 31 then e.slot (slot + 1) else 0

/-- The word of the rule that fires: that of the multi-beat rule in progress, else its slot's (R305). -/
def State.curWord (s : State) : Word :=
  match s.me.beat with
  | some b => b.word
  | none => s.me.slot s.cur.slot
/-- The extension word of the rule that fires. -/
def State.curExt (s : State) : Word :=
  match s.me.beat with
  | some b => b.ext
  | none => s.me.extOf s.cur.slot
/-- The beat number (R53, source code 26). -/
def State.beatNo (s : State) : Nat :=
  match s.me.beat with
  | some b => b.k
  | none => 0

/-- The stage and spur index of a core's spur. -/
def State.stageSpur (s : State) (core : Nat) : Nat × Nat :=
  match s.spurAt core with
  | some p => (p.stage, p.index)
  | none => (0, 0)

/-- The step counter at the start of the step in progress (R357, R372). -/
def State.stepStart (s : State) : BitVec 64 :=
  match s.walk with
  | some w => w.startSteps
  | none => s.me.steps

/-- The active handler at the start of the step in progress. -/
def State.curHandler (s : State) : Nat :=
  match s.walk with
  | some w => w.handler
  | none => match s.me.active with
    | some a => a.handler
    | none => 0xFF

/-- TAKING A FAULT at a firing: the rule commits nothing and pops nothing, the record is written, the ridge
freezes and nothing more of the step fires (R210, R357, R359, R372). -/
def State.takeFault (s : State) (code addr : Nat) : State :=
  let k := s.cur.elem
  let (stage, spur) := s.stageSpur (elemCore k)
  let word := s.curWord
  let f : FaultInfo := {
    code := code
    elem := k
    addr := addr
    slot := s.cur.slot
    handler := s.curHandler
    word := word
    ext := if fieldW word then s.curExt else 0
    step := s.stepStart
    stage := stage
    spur := spur }
  let s := { s.updMe fun e => { e with beat := none } with
    walk := s.walk.map fun (w : Walk) => { w with stop := true, halted := true, todo := [] } }
  match s.spurAt (elemCore k) with
  | some p => s.raiseAt p.chain k f
  | none => s

/-- Whether a request is a row of an `mx.ld`: each faults alone (R381). -/
def ReqKind.isRow : ReqKind → Bool
  | .tile _ _ _ => true
  | _ => false

/-- The accesses of a multi-beat rule behind one that faults, which are replayed with it (R360). -/
def State.restOfRule (s : State) (r : Req) : List Req :=
  s.reqs.filter fun q => !r.kind.isRow && q.elem = r.elem && q.group = r.group && q.slot = r.slot && q.beat > r.beat
    && (q.phase = .sent || q.phase = .ready || q.phase = .waiting)

/-- A fault that a request meets late: the request becomes a replay entry, whose beat covers the rest of its rule's
accesses, and the ridge freezes (R360). -/
def State.lateFault (s : State) (r : Req) (code addr : Nat) : State :=
  let core := elemCore r.elem
  let (stage, spur) := s.stageSpur core
  let f : FaultInfo := {
    code := code
    late := true
    elem := r.elem
    addr := addr
    slot := r.slot
    handler := r.handler
    word := r.word
    ext := if fieldW r.word then r.ext else 0
    step := r.step
    stage := stage
    spur := spur }
  let rest := s.restOfRule r
  let s := s.keepLeaf core code addr
  let s := { s with reqs := s.reqs.filter fun q => q.id ≠ r.id && !(rest.any fun x => x.id = q.id) }
  let stop (q : Req) : Req := { q with phase := .faulted }
  match s.spurAt core with
  | some p =>
    (s.updChain p.chain fun c => { c with
      replays := c.replays ++ [⟨BitVec.ofNat 8 code, stop r, rest.map stop⟩] }).raise p.chain f
  | none => s

/-- Whether an access belongs to a rule whose access of an earlier beat has faulted. -/
def Req.follows (r q : Req) : Bool := !r.kind.isRow && q.elem = r.elem && q.group = r.group && q.beat < r.beat
/-- An access of a rule whose earlier access waits as a replay entry joins that entry: it is replayed with it and meets
no fault of its own (R360). None where there is no such entry. -/
def State.joinReplay (s : State) (r : Req) : Option State :=
  if !s.replayed.any r.follows then none
  else
    let join (x : Replay) : Replay := { x with rest := x.rest ++ [{ r with phase := .faulted }] }
    some { s.dropReq r.id with
      chains := s.chains.map fun c => { c with replays := updateIf (fun x => r.follows x.req) join c.replays } }
/-- Whether an access of the same rule at an earlier beat is still to bind, so that a fault of this one waits: the entry's
beat is the first that faults (R360, R371). -/
def State.beatBehind (s : State) (r : Req) : Bool := s.reqs.any fun q => r.follows q && (q.phase = .sent || q.phase = .ready)

/-- A command as a request, for a replay entry (R281, R360). -/
def Cmd.toReq (c : Cmd) (id : Nat) : Req :=
  { (default : Req) with
    id := id
    group := c.group
    elem := c.elem
    slot := c.slot
    word := c.word
    ext := c.ext
    kind := .engine
    dst := c.dst
    ops := c.ops
    step := c.step
    handler := c.handler }

/-- A fault that an engine or island finds belongs to the rule that sent the command (R281). -/
def State.cmdFault (s : State) (c : Cmd) (code addr : Nat) : State :=
  s.bump.lateFault (c.toReq s.nextId) code addr

/-- A fault that belongs to no rule: a copy firing's or a cairn's (R380). -/
def State.unitFault (s : State) (core slot code addr : Nat) : State :=
  let (stage, spur) := s.stageSpur core
  let s := s.keepLeaf core code addr
  match s.spurAt core with
  | some p =>
    s.raise p.chain { code := code, elem := coreE0 core, addr := addr, slot := slot, stage := stage, spur := spur
                      step := (s.elem (coreE0 core)).steps }
  | none => s

/-! ## Whether work may go on -/

/-- Whether the elements of a core may select: its spur has started and its chain is not held (R74, R75,
R359). -/
def State.running (s : State) (core : Nat) : Bool :=
  match s.spurAt core with
  | some p =>
    p.phase = .started && (match s.chain? p.chain with
      | some c => c.phase = .started && !c.debugHold && !c.frozen
      | none => false)
  | none => false

/-- Whether an element takes its step of the moment at which a rule of an element before it froze the ridge: faults of
one step are each recorded, in the order of their elements (R361) (DEDUCED, log 45). -/
def State.sameStep (s : State) (k : Nat) : Bool :=
  match s.spurAt (elemCore k) with
  | some p =>
    p.phase = .started && (match s.chain? p.chain with
      | some c => c.phase = .held && !c.debugHold && !c.frozen && (match c.stopped with
        | some j => j < k
        | none => false)
      | none => false)
  | none => false
/-- An element has taken that step. -/
def State.tookStep (s : State) (k : Nat) : State :=
  if s.sameStep k then
    match s.spurAt (elemCore k) with
    | some p => s.updChain p.chain fun c => { c with stopped := some k }
    | none => s
  else s

/-- Whether engines of a core may start new work: as `running`, or the spur has halted and taken work runs
on (R75). -/
def State.resident (s : State) (core : Nat) : Bool := (s.spurAt core).isSome

/-- Whether a chain that a core belongs to is held, frozen or stopped by a debugger. -/
def State.heldAt (s : State) (core : Nat) : Bool :=
  match s.chainAt core with
  | some c => c.phase = .held || c.debugHold || c.frozen
  | none => false

end Sys2Proof.Machine
end

