-- ==== Sys2Proof/Machine/Operands.lean ====
section
/-!
DEFINITION. Operands of a rule: source and destination codes (R189 to R191, R210), one pop per beat (R35),
the carry words (R53, R61, R62), memory addresses (R241, R119), and the firing of a rule with the faults of
R371 in their order.
-/
namespace Sys2Proof.Machine

/-- The source codes that a rule reads, each with the words that it pops per beat if it is a pop code. -/
abbrev Demand := List (Code × Nat)

/-- One word per code and beat. -/
def one (cs : List Code) : Demand := cs.map fun c => (c, 1)

/-- The words that a demand pops from an input channel per beat; 0 when no code pops it (R35). -/
def popsOf (dm : Demand) (ch : Nat) : Nat :=
  dm.foldl (fun m p => if p.1.toNat = 20 + ch then max m p.2 else m) 0

/-- Whether an element's `ci` is joined to a neighbour's `co`; other elements have an open `ci` (R62). -/
def State.ciJoined (s : State) (k : Nat) : Bool := isArith k && (s.elem k).join

/-- The element that an arith element's `co` leads to, if its carry join is set (R61, R62). -/
def State.coTarget (s : State) (k : Nat) : Option Nat :=
  if elemIdx k < 11 then (if (s.elem (k + 1)).join then some (k + 1) else none)
  else if elemIdx k = 11 && coreIdx (elemCore k) % 8 < 7 then
    let j := coreElem (elemCore k + 1) 0
    if (s.elem j).join then some j else none
  else none

/-- The 33-bit `ci` of an element; an open one reads 0 (R62). -/
def State.ciNow (s : State) (k : Nat) : Carry :=
  if s.ciJoined k then ((s.elem k).ci).getD 0 else 0

/-- The carry word that the rule reads: the one that beat 0 consumed, in every beat (R53). -/
def State.carryIn (s : State) : Carry :=
  match s.me.beat with
  | some b => b.carry
  | none => s.ciNow s.cur.elem

/-- The word and tag at a position of an input channel of the element that fires. -/
def State.atPos (s : State) (ch pos : Nat) : ChanWord := s.me.peekWord ch pos

/-- The channel word that a peek or pop code reads in beat k, seen `ahead` beats before that beat (R35): a
channel that the rule also pops gives its head. -/
def State.chanWord (s : State) (dm : Demand) (c : Code) (k ahead : Nat) : ChanWord :=
  let ch := c.toNat % 4
  let n := popsOf dm ch
  s.atPos ch (if n = 0 then k else ahead * n)

/-- The value of a source code in beat k, seen `ahead` beats before (R189, R210). -/
def State.rdAt (s : State) (dm : Demand) (c : Code) (k ahead : Nat) : Word :=
  let n := c.toNat
  if n < 16 then s.me.reg n
  else if n < 24 then (s.chanWord dm c k ahead).word
  else if n = 24 then s.carryIn.extractLsb' 0 32
  else if n = 26 then BitVec.ofNat 32 k
  else if n = 27 then s.coordWord s.cur.elem
  else if n = 28 then xSigned s.curExt
  else 0

/-- `rd` of R210 in the current beat. -/
def State.rd (s : State) (dm : Demand) (c : Code) : Word := s.rdAt dm c s.beatNo 0
/-- `tag_of` of R210 in the current beat. -/
def State.tagOf (s : State) (dm : Demand) (c : Code) : Tag :=
  if 16 ≤ c.toNat && c.toNat < 24 then (s.chanWord dm c s.beatNo 0).tag else 0
/-- The pair that a register code names (R93). -/
def State.rdPair (s : State) (c : Code) : BitVec 64 := s.me.pair c.toNat

/-- Takes the carry word: a joined `ci` becomes empty when beat 0 commits (R53, R61). -/
def State.takeCarry (s : State) : State :=
  if s.ciJoined s.cur.elem && s.beatNo = 0 then s.updMe fun e => { e with ci := none } else s

/-- What the reads of a demand remove in one beat: each popped channel once (R35), and the carry word. -/
def State.consume (s : State) (dm : Demand) : State :=
  let s := [0, 1, 2, 3].foldl (fun s ch => s.popWords s.cur.elem ch (popsOf dm ch)) s
  if dm.any (fun p => p.1.toNat = 24) then s.takeCarry else s

/-- `wr` of R210: a register, or a push with the code's tag (R191). -/
def State.wr (s : State) (c : Code) (w : Word) : State :=
  if c.toNat < 16 then s.updMe (·.setReg c.toNat w)
  else s.pushWord s.cur.elem (c.toNat % 4) (BitVec.ofNat 2 (c.toNat / 4)) w

/-- Writes a pair of registers (R93). -/
def State.wrPair (s : State) (c : Code) (v : BitVec 64) : State := s.updMe (·.setPair c.toNat v)

/-- `co_write` of R210: an unjoined `co` discards the word (R62). -/
def State.writeCo (s : State) (v : Carry) : State :=
  if (s.coTarget s.cur.elem).isSome then s.updMe fun e => { e with co := some v } else s

/-- The count N of the rule that fires (R34, R193). -/
def State.countOf (s : State) (v : View) : Nat := guardCount (s.me.guard v.guardNo)

/-- The count of a rule given as an instruction. -/
def State.countI (s : State) (i : Instr) : Nat := s.countOf i.view

/-! ## The firing of a rule -/

/-- Whether a source code names nothing: a reserved one, or code 28 without a wide extension (R370). -/
def namesNothing (wide : Bool) (c : Code) : Bool := decide (28 < c.toNat) || (decide (c = 28) && !wide)

/-- Whether a wide rule's next slot is no extension (R188). -/
def State.brokenPair (s : State) (v : View) : Bool :=
  v.wide && (s.cur.slot = 31 || field s.curExt 28 4 ≠ 0xF)

/-- The count code of a guard word is reserved (R193). -/
def badCount (g : Word) : Bool := bitsOf g 7 3 ≥ 5

/-- The faults of R371 that the words, the element and the guard decide, items 1 to 5; `bad` are the nonzero
must-be-zero bits of an operand word. -/
def State.wordFault (s : State) (v : View) (bad : Bool) : Option Nat :=
  if s.brokenPair v then some 0x03
  else if !elemHas v.cellNo (elemIdx s.cur.elem) then some 0x01
  else if badCount (s.me.guard v.guardNo) then some 0x02
  else if !v.subOk s.curExt (s.countOf v = 1) || bad then some 0x01
  else if !v.codesOk s.curExt then some 0x04
  else none

/-- One beat of a rule fires. Before beat 0 commits, the faults of R371 are tested in order: items 1 to 5, then
`chk` for the rest, which looks at every beat (R54); the first one is taken. -/
def fire (i : Instr) (bad : State → Bool) (chk : State → Option (Nat × Nat)) (eff : State → State) (s : State) :
    Host.Outcome State Fault Refusal :=
  if s.beatNo ≠ 0 then .next (eff s)
  else
    match s.wordFault i.view (bad s) with
    | some code => .next (s.takeFault code 0)
    | none =>
      match chk s with
      | some (code, addr) => .next (s.takeFault code addr)
      | none => .next (eff s)

/-- A rule without operand words to check and without address checks. -/
def fireOp (i : Instr) (eff : State → State) (s : State) : Host.Outcome State Fault Refusal :=
  fire i (fun _ => false) (fun _ => none) eff s

/-- Two operands, one result (R213 to R215). -/
def State.bin (s : State) (a b d : Code) (f : Word → Word → Word) : State :=
  let dm := one [a, b]
  (s.consume dm).wr d (f (s.rd dm a) (s.rd dm b))
/-- One operand, one result. -/
def State.un (s : State) (a d : Code) (f : Word → Word) : State :=
  let dm := one [a]
  (s.consume dm).wr d (f (s.rd dm a))

/-- A request that the rule that fires sends: the fields that every request takes from it. -/
def State.newReq (s : State) (kind : ReqKind) (dst : Dst) : Req :=
  { (default : Req) with
    elem := s.cur.elem
    slot := s.cur.slot
    word := s.curWord
    ext := s.curExt
    beat := s.beatNo
    kind := kind
    dst := dst
    step := s.stepStart
    handler := s.curHandler }

/-! ## Memory addresses (R241, R119) -/

/-- The signed byte offset of the memory extension (R197). -/
def xOffset (x : Word) : Int := (x.extractLsb' 14 14).toInt

/-- The rebasing of a cluster-scratch address of a spur that runs away from its home origin (R87): an address
inside the home rectangle moves with the spur. -/
def Spur.rebaseCore (p : Spur) (core : Nat) : Nat :=
  let x := core % 8
  let y := core / 8
  if p.homeX ≤ x && x < p.homeX + p.w && p.homeY ≤ y && y < p.homeY + p.h then
    8 * (y - p.homeY + p.y0) + (x - p.homeX + p.x0)
  else core
/-- The same for an address of 23 bits; one of more bits is not changed. -/
def State.rebase (s : State) (core a : Nat) : Nat :=
  if a ≥ 2 ^ 23 then a
  else
    match s.spurAt core with
    | some p => p.rebaseCore (a / 2 ^ 17) * 2 ^ 17 + a % 2 ^ 17
    | none => a

/-- The fields of a memory rule that its meaning uses. -/
structure MemForm where
  o : MOp
  size : Nat
  dm : Demand
  deriving DecidableEq, Repr

/-- The effective address of beat k, seen `ahead` beats before (R241); for space 3 the port word. -/
def State.ea (s : State) (m : MemForm) (k ahead : Nat) : Nat :=
  let base : Int :=
    if m.o.space = 0 then (s.rdPair m.o.addr).toNat else (s.rdAt m.dm m.o.addr k ahead).toNat
  if m.o.space = 3 then base.toNat
  else
    let off : Int := if m.o.w then xOffset s.curExt else 0
    ((base + off + (k : Int) * (m.size : Int)) % 2 ^ 64).toNat

/-- Whether a link of the cluster starts at a port, or, outward, ends there: the port then takes no space-3 access (R247,
R351, R399). -/
def State.portLinked (s : State) (cl port : Nat) (inbound : Bool) : Bool :=
  if inbound then (s.linkFrom (.port cl port)).isSome else (s.linkTo (.port cl port)).isSome
/-- Whether a port binding of the spur gives a port to an element in a direction, and no link has the port (R247, R351). -/
def State.boundPort (s : State) (elem port : Nat) (inbound : Bool) : Bool :=
  (s.binds.any fun b => b.cluster = elemCluster elem && b.port = port && b.elem = elem && b.inbound = inbound)
    && !s.portLinked (elemCluster elem) port inbound

/-- The address checks of one access in the order of R371: 0x10, 0x13, 0x14, 0x12 (R119, R241). `inbound` is
the direction of a port access; none where the form has no direction there. -/
def State.addrFault (s : State) (space : BitVec 2) (a size : Nat) (inbound : Option Bool) : Option (Nat × Nat) :=
  let core := elemCore s.cur.elem
  match space.toNat with
  | 0 => if a ≥ 2 ^ 55 then some (0x10, a) else if a % size ≠ 0 then some (0x12, a) else none
  | 1 =>
    let b := s.rebase core a
    if b ≥ 2 ^ 23 then some (0x13, a) else if b % size ≠ 0 then some (0x12, a) else none
  | 2 => if a ≥ 2 ^ 17 then some (0x13, a) else if a % size ≠ 0 then some (0x12, a) else none
  | _ =>
    match inbound with
    | some d => if a ≥ 32 || !s.boundPort s.cur.elem a d then some (0x14, a) else none
    | none => none

/-- The address checks of every beat, lowest beat first (R54, R371): the first code of the order that some
beat meets, at the lowest such beat. -/
def State.addrFaults (s : State) (m : MemForm) (n : Nat) (inbound : Option Bool) : Option (Nat × Nat) :=
  let fs := (List.range n).filterMap fun k => s.addrFault m.o.space (s.ea m k k) m.size inbound
  let first (code : Nat) := fs.find? fun f => f.1 = code
  match first 0x10 with
  | some f => some f
  | none =>
    match first 0x13 with
    | some f => some f
    | none =>
      match first 0x14 with
      | some f => some f
      | none => first 0x12

end Sys2Proof.Machine
end

