-- ==== Sys2Proof/Machine/Flags.lean ====
section
/-!
DEFINITION. Predicates and conditions: the combine codes (R195), the conditions of `cmp` (R196, R221), of
`fcmp` (R227), and the carry words of the carry chain (R61, R222).
-/
namespace Sys2Proof.Machine

/-- The predicate's new value by a combine code (R195). -/
def combine (pop : BitVec 3) (old c : Bool) : Bool :=
  match pop.toNat with
  | 0 => c
  | 1 => old && c
  | 2 => old || c
  | 3 => old != c
  | 4 => !c
  | 5 => old && !c
  | 6 => old || !c
  | _ => old

/-- `setp` of R210. -/
def State.setp (s : State) (pd : BitVec 3) (c : Bool) (pop : BitVec 3) : State :=
  s.updMe fun e => e.setPred pd.toNat (combine pop (e.pred pd.toNat) c)

/-- A condition of two operands into a predicate (R221). -/
def State.cond2 (s : State) (o : POp) (f : Word → Word → Bool) : State :=
  let dm := one [o.a, o.b]
  (s.consume dm).setp o.pd (f (s.rd dm o.a) (s.rd dm o.b)) o.pop

/-- The float format of a type code (R200). -/
def typeFmt (t : BitVec 2) : FloatFmt :=
  match t.toNat with
  | 0 => fp32
  | 1 => fp16
  | 2 => bf16
  | _ => fp64

/-- Whether a type is packed: two lanes of 16 bits (R95). -/
def isPacked (t : BitVec 2) : Bool := t = 1 || t = 2

/-- Lane l of a word (R95). -/
def lane (l : Nat) (w : Word) : Nat := w.toNat / 2 ^ (16 * l) % 65536
/-- A word from two lanes. -/
def joinLanes (lo hi : Nat) : Word := BitVec.ofNat 32 (lo % 65536 + hi % 65536 * 65536)

/-- The condition of `fcmp` on two operand patterns (R227): both lanes of packed types, either for `un`. -/
def fcond (t : BitVec 2) (rel : Nat) (x y : BitVec 64) : Bool :=
  let f := typeFmt t
  if isPacked t then
    let a := f.relation rel (lane 0 (x.setWidth 32)) (lane 0 (y.setWidth 32))
    let b := f.relation rel (lane 1 (x.setWidth 32)) (lane 1 (y.setWidth 32))
    if rel = 3 then a || b else a && b
  else f.relation rel x.toNat y.toNat

/-- Bit 32 of a carry word. -/
def carryBit (c : Carry) : Nat := if c.getLsbD 32 then 1 else 0
/-- Bits 31 to 0 of a carry word. -/
def carryWord (c : Carry) : Word := c.extractLsb' 0 32
/-- A carry word with bit 32 set by a condition and a low part. -/
def mkCarry (flag : Bool) (low : Nat) : Carry := BitVec.ofNat 33 ((if flag then 2 ^ 32 else 0) + low % 2 ^ 32)

end Sys2Proof.Machine
end

