-- ==== Sys2Proof/Machine/Reach.lean ====
section
/-!
DEFINITION. Accesses of engines, islands and templates to global memory: a virtual range as translated
pieces, plain reads and writes through the cluster's copies (R129, R131, R270), and their performance at a
scope (R132).
-/
namespace Sys2Proof.Machine

/-- A piece of a virtual range that lies in one page, with its place (R120, R123). -/
structure Piece where
  va : Nat
  key : Nat
  policy : BitVec 2
  len : Nat
  deriving DecidableEq, Repr, Inhabited

/-- Whether an address is read and written at its home only (R127, R128). -/
def atHome (key : Nat) (policy : BitVec 2) : Bool := keyKind key = 2 || policy = 2

/-- The pieces of a range, page by page. -/
def State.piecesFuel (s : State) (cl root : Nat) (n : Need) : Nat → Nat → Nat → Except (Nat × Nat) (List Piece)
  | 0, _, _ => .ok []
  | fuel + 1, va, len =>
    if len = 0 then .ok []
    else
      match s.translateAt cl root va n with
      | .bad c a => .error (c, a)
      | .ok k p =>
        let m := min len (65536 - va % 65536)
        match s.piecesFuel cl root n fuel (va + m) (len - m) with
        | .ok ps => .ok (⟨va, k, p, m⟩ :: ps)
        | .error e => .error e

/-- The pieces of a virtual range at a cluster, or the code and address of the translation that fails. -/
def State.pieces (s : State) (cl root : Nat) (n : Need) (va len : Nat) : Except (Nat × Nat) (List Piece) :=
  s.piecesFuel cl root n (len / 65536 + 2) va len

/-- The value that a read of a cluster binds at a place (R131). -/
def State.bindAt (s : State) (cl key : Nat) (policy : BitVec 2) (n : Nat) : List Byte :=
  if atHome key policy then s.homeRead key n else s.clusterRead cl key n
/-- A write of a cluster lands at a place (R131). -/
def State.landAt (s : State) (cl key : Nat) (policy : BitVec 2) (bs : List Byte) : State :=
  if atHome key policy then s.landHome cl key bs else (s.landCopy cl key bs).noteLine cl key bs.length policy

/-- Whether the chain that holds a core is privileged. -/
def State.privAt (s : State) (core : Nat) : Bool :=
  match s.chainAt core with
  | some c => c.privileged
  | none => false
/-- A read by the agents of a core. -/
def State.readNeed (s : State) (core : Nat) : Need := ⟨true, false, false, s.privAt core⟩
/-- A write by the agents of a core. -/
def State.writeNeed (s : State) (core : Nat) : Need := ⟨false, true, false, s.privAt core⟩

/-- The pieces of a range that the agents of a core may access, page by page; a page that does not translate has none. -/
def State.pagePieces (s : State) (core : Nat) (n : Need) (va len : Nat) : List Piece :=
  (List.range (len / 65536 + 2)).filterMap fun i =>
    let a := if i = 0 then va else (va / 65536 + i) * 65536
    let stop := min (va + len) ((va / 65536 + i + 1) * 65536)
    if a ≥ stop then none
    else
      match s.translateAt (coreCluster core) (s.rootAt core) a n with
      | .ok k p => some ⟨a, k, p, stop - a⟩
      | .bad _ _ => none
/-- The pieces of a range that a core's engine may write. -/
def State.mappedPieces (s : State) (core va len : Nat) : List Piece := s.pagePieces core (s.writeNeed core) va len

/-- The pieces of a range that a core's engine reads. -/
def State.readPieces (s : State) (core va len : Nat) : Except (Nat × Nat) (List Piece) :=
  s.pieces (coreCluster core) (s.rootAt core) (s.readNeed core) va len
/-- The pieces of a range that a core's engine writes. -/
def State.writePieces (s : State) (core va len : Nat) : Except (Nat × Nat) (List Piece) :=
  s.pieces (coreCluster core) (s.rootAt core) (s.writeNeed core) va len

/-- The first poisoned byte among n bytes that a cluster reads at a place: of the home where the place is read there, else
as its copies hold them (R384). -/
def State.placePoison (s : State) (cl key : Nat) (policy : BitVec 2) (n : Nat) : Option Nat :=
  if atHome key policy then ((List.range n).map (key + ·)).find? fun j => s.poison.contains (sectorOf j)
  else s.poisonedByte cl key n
/-- The first poisoned byte of pieces, as a virtual address (R384). -/
def State.piecePoison (s : State) (cl : Nat) (ps : List Piece) : Option Nat :=
  ps.findSome? fun p =>
    match s.placePoison cl p.key p.policy p.len with
    | some k => some (p.va + (k - p.key))
    | none => none

/-- The bytes that a core's engine copies from a virtual range; poison passes (R384). -/
def State.copyRead (s : State) (core va len : Nat) : Except (Nat × Nat) (List Byte) :=
  match s.readPieces core va len with
  | .error e => .error e
  | .ok ps => .ok (ps.flatMap fun p => s.bindAt (coreCluster core) p.key p.policy p.len)

/-- The bytes that a core's engine consumes from a virtual range: poisoned ones raise 0x20 (R384). -/
def State.engRead (s : State) (core va len : Nat) : Except (Nat × Nat) (List Byte) :=
  match s.readPieces core va len with
  | .error e => .error e
  | .ok ps =>
    match s.piecePoison (coreCluster core) ps with
    | some a => .error (0x20, a)
    | none => .ok (ps.flatMap fun p => s.bindAt (coreCluster core) p.key p.policy p.len)

/-- The bytes that pieces hold at their homes, for a rule that consumes them: poisoned ones raise 0x20 (R384). -/
def State.homePieces (s : State) (ps : List Piece) : Except (Nat × Nat) (List Byte) :=
  let bad := ps.findSome? fun p =>
    ((List.range p.len).find? fun i => s.poison.contains (sectorOf (p.key + i))).map (p.va + ·)
  match bad with
  | some a => .error (0x20, a)
  | none => .ok (ps.flatMap fun p => s.homeRead p.key p.len)

/-- The first address of ranges that lies in a peer's memory, as the agents of a core see it (R123). -/
def State.peerPage (s : State) (core : Nat) (xs : List (Nat × Nat)) : Option Nat :=
  xs.findSome? fun x =>
    ((s.pagePieces core ⟨false, false, false, s.privAt core⟩ x.1 x.2).find? fun p => keyKind p.key = 2).map (·.va)
/-- An access that takes place within a happening does not reach its owner, where it goes to a peer's memory and `c` = 3
says so: its address there (R395) (DEDUCED, log 35). -/
def State.peerLost (s : State) (core a n : Nat) : Option Nat := if s.pick.c = 3 then s.peerPage core [(a, n)] else none

/-- Lands bytes at pieces in order. -/
def State.landPieces (s : State) (cl : Nat) : List Piece → List Byte → State
  | [], _ => s
  | p :: ps, bs => (s.landAt cl p.key p.policy (bs.take p.len)).landPieces cl ps (bs.drop p.len)

/-- The bytes of pieces that are cached go home, so that a write of them is performed at massif scope or wider
(R132). -/
def State.performPieces (s : State) (cl : Nat) (ps : List Piece) : State :=
  (ps.flatMap fun p => touchedSectors p.key p.len).foldl (fun s sec => s.writeBack cl sec) s

/-- A write by a core's engine, performed at a scope (R131, R132). -/
def State.engWrite (s : State) (core va : Nat) (bs : List Byte) (scope : BitVec 3) : Except (Nat × Nat) State :=
  match s.writePieces core va bs.length with
  | .error e => .error e
  | .ok ps =>
    let cl := coreCluster core
    let s := s.landPieces cl ps bs
    .ok (if scope.toNat ≥ 3 then s.performPieces cl ps else s)

/-- A write by a core's engine that does not reach its owner is counted; with the flag of the happening it has landed all
the same (R395). -/
def State.lostWrite (s : State) (core va : Nat) (bs : List Byte) (scope : BitVec 3) : State :=
  let t := s.countPreg 0x3E6
  if !s.pick.flag then t
  else match t.engWrite core va bs scope with
    | .ok u => u
    | .error _ => t

/-- Whether a piece meets a pinned line of the cluster, where no write lands (R137). -/
def State.pinnedPiece (s : State) (cl : Nat) (p : Piece) : Bool :=
  (touchedSectors p.key p.len).any fun sec => s.isPinned cl sec

/-- The acquire of an engine at massif scope or wider (R135): clean copies of the range are dropped; pages that do
not translate have none. -/
def State.dropRange (s : State) (core va len : Nat) : State :=
  let cl := coreCluster core
  (List.range (len / 65536 + 2)).foldl (fun s i =>
    let a := if i = 0 then va else (va / 65536 + i) * 65536
    let stop := min (va + len) ((va / 65536 + i + 1) * 65536)
    if a ≥ stop then s
    else
      match s.translateAt cl (s.rootAt core) a (s.readNeed core) with
      | .ok k _ => s.dropClean cl fun b => k ≤ b && b < k + (stop - a)
      | .bad _ _ => s) s

/-! ## Performance (R132) -/

/-- A cluster's copies hold dirty bytes among n bytes from a key. -/
def State.dirtyIn (s : State) (cl k n : Nat) : Bool :=
  s.copies.any fun c => c.1 / 2 ^ 54 = cl && c.2.dirty && k ≤ c.1 % 2 ^ 54 && c.1 % 2 ^ 54 < k + n

/-- Whether a request is performed at a scope: it has bound or been decided, or has landed, at massif scope or wider
with its bytes at the home (R132). -/
def State.performedAt (s : State) (r : Req) (scope : BitVec 3) : Bool :=
  match r.phase with
  | .landed => scope.toNat ≤ 2 || (match r.pa with
    | some k => !s.dirtyIn (elemCluster r.elem) k r.size
    | none => true)
  | .answered => true
  | .performed => true
  | _ => false

/-- Landed writes whose bytes are at the home, and whose value is delivered, are no longer followed. -/
def State.prune (s : State) : State :=
  { s with reqs := s.reqs.filter fun r => !(r.phase = .landed && r.dst = .none && s.performedAt r 4) }

/-- Whether a request follows bytes that a unit of a core has written under a mark. -/
def Req.wroteFor (r : Req) (core group unit : Nat) : Bool :=
  r.kind = .written unit && r.group = group && r.elem = coreE0 core
/-- Bytes that a copy firing or an island of a core has written stay followed as a landed request of its `e0` while they
are dirty in the cluster's copy: a drain waits for them (R261, R315), and they go home before their spur moves (R316).
`unit` is the template, 32 for an island; what follows on bytes of the same mark joins them. -/
def State.noteWritten (s : State) (core group unit key n : Nat) : State :=
  let mine := s.reqs.filter (·.wroteFor core group unit)
  let covers (r : Req) : Bool := match r.pa with
    | some k => k ≤ key && key + n ≤ k + r.size
    | none => false
  if !s.dirtyIn (coreCluster core) key n || mine.any covers then s
  else match mine.find? fun r => r.pa.map (· + r.size) = some key with
    | some r => s.updReq r.id fun r => { r with size := r.size + n }
    | none => s.addReq { (default : Req) with
        elem := coreE0 core
        group := group
        kind := .written unit
        pa := some key
        size := n
        phase := .landed }

end Sys2Proof.Machine
end

