-- ==== Sys2Proof/Machine/Copy.lean ====
section
/-!
DEFINITION. Copy templates and cairns: the fields and the check of a template block (R265, R266), arming,
stopping, and the rules of cell 0x38 (R276, R277).
-/
namespace Sys2Proof.Machine

/-! ## Fields of a template block (R265) -/

/-- A template of a core. -/
def Core.template (c : Core) (n : Nat) : Template := c.ct.getD n ⟨0, [], 0, 0, 0, false, none, 0⟩
/-- Changes a template. -/
def State.updCt (s : State) (core n : Nat) (f : Template → Template) : State :=
  s.updCore core fun c => { c with ct := c.ct.setIfInBounds n (f (c.template n)) }
/-- A cairn of a core. -/
def Core.cairn (c : Core) (n : Nat) : Cairn := c.ca.getD n ⟨0, 0, 0, 0, false, false, []⟩
/-- Changes a cairn. -/
def State.updCa (s : State) (core n : Nat) (f : Cairn → Cairn) : State :=
  s.updCore core fun c => { c with ca := c.ca.setIfInBounds n (f (c.cairn n)) }

/-- Whether an address is in range for its kind. -/
def addrOk (kind a : Nat) : Bool :=
  if kind = 0 then a < 2 ^ 55 else if kind = 1 then a < 2 ^ 23 else a < 32

/-- The conditions of R266 that the fields of one kind decide. -/
def kindOk (b : List Byte) : Bool :=
  let l := tbLen b
  match tbKind b with
  | 0 =>
    zeroAt b 0x30 16 && !(tbStream b && (l % 4 ≠ 0 || tbPer b % 4 ≠ 0))
  | 1 => tbB b 0x30 4 * tbB b 0x34 4 = l
  | 4 =>
    let w := tbB b 0x30 2
    let h := tbB b 0x32 2
    let k := psMode b % 8
    let dx := (sbyteAt b 0x38).natAbs
    let dy := (sbyteAt b 0x39).natAbs
    let site := byteAt b 0x36
    tbSrcKind b ≠ 2 && tbDstKind b = 2 && w ≠ 0 && h ≠ 0 && 1 ≤ k && k ≤ 5 && w ≤ tbB b 0x34 2
      && dx < w && dy < h && !(psMode b / 16 % 4 = 3 && (w < 2 || h < 2))
      && (site = 2 || site = 4)
      && !(site = 4 && (psMode b).testBit 7 && (psMode b).testBit 6 && !(psMode b).testBit 3)
      && zeroAt b 0x3A 2 && tbFieldA b < 2 ^ 55
  | 5 =>
    let c := tbB b 0x30 4
    let p := tbB b 0x34 2
    zeroAt b 0x20 8 && c % 64 = 0 && 1 ≤ p && p ≤ 1024 && tbB b 0x36 2 < p && l = p * c && tbB b 0x38 8 < 2 ^ 55
  | _ =>
    [4, 8, 16, 32, 64].contains (tbB b 0x24 2) && zeroAt b 0x26 2 && tbB b 0x30 8 % 64 = 0 && tbB b 0x30 8 < 2 ^ 55
      && zeroAt b 0x3C 4

/-- Whether a block is valid as far as its own bytes say (R266) (DEDUCED, log 36). -/
def blockOk (b : List Byte) : Bool :=
  let scope := (tbScope b).toNat
  tbKind b ≤ 5 && byteAt b 1 < 16 && byteAt b 2 < 16 && byteAt b 3 < 128 && tbSrcKind b ≤ 2 && tbDstKind b ≤ 2
    && byteAt b 7 = 0 && (tbCairn b < 32 || tbCairn b = 255) && tbRec b % 64 = 0 && tbRec b < 2 ^ 55
    && 2 ≤ scope && scope ≤ 5 && tbLen b ≠ 0 && (tbPer b = 0 || (tbLen b % tbPer b = 0 && tbKind b = 0))
    && addrOk (tbSrcKind b) (tbSrc b) && addrOk (tbDstKind b) (tbDst b) && kindOk b
    && !(tbFlag b 0 && tbDstKind b = 2) && !(tbFlag b 1 && tbDstKind b ≠ 0)
    && !(tbKind b ≤ 1 && tbFieldA b ≠ 0 && tbSrcKind b = 2)

/-- Whether a trigger channel is a link's, or its (channel, tag) is another armed template's (R266). -/
def State.triggerTaken (s : State) (core ct : Nat) (b : List Byte) : Bool :=
  s.linked (coreE0 core) (tbChan b) ||
    (List.range 32).any fun j =>
      let t := (s.core core).template j
      j ≠ ct && t.state ≠ 0 && tbChan t.block = tbChan b && tbTag t.block = tbTag b

/-- Whether a template is armed, with a firing started or triggers queued (R276). -/
def Template.busy (t : Template) : Bool := t.state ≠ 0 && (t.firing.isSome || t.queued > 0)

/-- The mark of the copy firings of an arm of a template up to the n-th: above every identifier. -/
def firingMark (core ct arms n : Nat) : Nat := 2 ^ 64 + ((core * 32 + ct) * 2 ^ 32 + arms) * 2 ^ 32 + n

/-- The mark of the firing that a template runs. -/
def State.copyMark (s : State) (core ct : Nat) : Nat :=
  firingMark core ct ((s.core core).template ct).arms (((s.core core).template ct).done + 1)

/-- `ct.arm` reads, checks and arms (R266, R276); a read or check that fails is a late fault of the rule. -/
def State.armTemplate (s : State) (r : Req) (ct : Nat) : State :=
  let core := elemCore r.elem
  match s.peerLost core r.va.toNat 64, s.engRead core r.va.toNat 64 with
  | some a, _ => (s.countPreg 0x3E6).lateFault r 0x20 a
  | none, .error (c, a) => s.lateFault r c a
  | none, .ok b =>
    if !blockOk b || s.triggerTaken core ct b || ((s.core core).template ct).busy then s.lateFault r 0x40 0
    else
      let s := s.updCt core ct fun t => ⟨1, b, 0, 0, 0, false, none, t.arms + 1⟩
      s.updElem (coreE0 core) (·.setPend (tbReg b) true)

/-- An earlier `ct.stop` or `ct.arm` of the same template is still under way, so that a request of it waits its turn
(R276). -/
def State.ctBefore (s : State) (r : Req) (ct : Nat) : Bool :=
  s.reqs.any fun q => elemCore q.elem = elemCore r.elem && q.id < r.id && (q.kind = .stopCt ct || q.kind = .arm ct)
/-- The arms that waited for a `ct.stop` which has now ended are carried out, up to the next stop (R276). -/
def State.armWaiting (s : State) (core ct : Nat) : State :=
  (s.reqs.filter fun q => q.kind = .arm ct && elemCore q.elem = core
    && !s.reqs.any fun x => x.kind = .stopCt ct && elemCore x.elem = core && x.id < q.id).foldl
    (fun s q => (s.dropReq q.id).armTemplate q ct) s

/-- The 64 bytes of a completion record (R269). -/
def copyRecord (status firing bytes digest range skipped seq time : Nat) : List Byte :=
  bytesOfNat 4 status ++ bytesOfNat 4 firing ++ bytesOfNat 8 bytes ++ bytesOfNat 8 digest ++ bytesOfNat 4 range
    ++ bytesOfNat 4 skipped ++ bytesOfNat 8 seq ++ bytesOfNat 8 time ++ bytesOfNat 16 0

/-- Whether a template's record meets a pinned line, so that its write is held (R137). -/
def State.recordPinned (s : State) (core : Nat) (b : List Byte) : Bool :=
  tbRec b ≠ 0 && match s.writePieces core (tbRec b) 64 with
    | .ok ps => ps.any fun p => s.pinnedPiece (coreCluster core) p
    | .error _ => false

/-- The status-1 record of `ct.stop`, which a drain waits for (R315), then the register and the end of the arm (R276); a record that cannot be
written is a late fault of the rule (R269), and one that a pinned line holds waits for its landing (R137). -/
def State.stopTemplate (s : State) (r : Req) (ct : Nat) : State :=
  let core := elemCore r.elem
  let t := (s.core core).template ct
  let rec_ := copyRecord 1 t.done 0 0 0 0 0 s.timeNs.toNat
  let done (s : State) : State :=
    let s := s.updCt core ct fun t => { t with state := 0, stopping := false, queued := 0 }
    (s.updElem (coreE0 core) fun e =>
      (e.setReg (tbReg t.block) (BitVec.ofNat 32 t.done)).setPend (tbReg t.block) false).armWaiting core ct
  if tbRec t.block = 0 then done s
  else if s.recordPinned core t.block then
    { s.updCt core ct fun t => { t with stopping := true } with reqs := s.reqs ++ [r] }
  else
    match s.peerLost core (tbRec t.block) 64, s.engWrite core (tbRec t.block) rec_ (tbScope t.block) with
    | some a, _ => (s.lostWrite core (tbRec t.block) rec_ (tbScope t.block)).lateFault r 0x20 a
    | none, .error (c, a) => s.lateFault r c a
    | none, .ok s =>
      done ((s.mappedPieces core (tbRec t.block) 64).foldl (fun s p => s.noteWritten core r.group ct p.key p.len) s)

/-- A request of a copy rule. -/
def State.ctReq (s : State) (kind : ReqKind) (va : Nat) : State × Req :=
  (s.bump, { s.newReq kind .none with id := s.nextId, group := s.nextId, va := BitVec.ofNat 64 va })

/-- Address checks of a 64-byte block at a global address (R119). -/
def blockAddr (a : Nat) : Option (Nat × Nat) :=
  if a ≥ 2 ^ 55 then some (0x10, a) else if a % 64 ≠ 0 then some (0x12, a) else none

/-- The template's state as `ct.stat` reports it (R276). -/
def Template.statWord (t : Template) : Word :=
  BitVec.ofNat 32 (t.state + (if t.firing.isSome then 4 else 0) + t.queued * 65536)

/-- `ct.arm` (R276): behind a `ct.stop` whose record waits to be written, it waits too. -/
def execCtArm (o : EOp) (s : State) : Host.Outcome State Fault Refusal :=
  fire (.ctArm o) (fun _ => false)
    (fun s =>
      match blockAddr (s.rdPair o.src).toNat with
      | some f => some f
      | none => if ((s.core (elemCore s.cur.elem)).template o.obj.toNat).busy then some (0x40, 0) else none)
    (fun s =>
      let (s', r) := s.ctReq (.arm o.obj.toNat) (s.rdPair o.src).toNat
      if ((s.core (elemCore s.cur.elem)).template o.obj.toNat).stopping then { s' with reqs := s'.reqs ++ [r] }
      else s'.armTemplate r o.obj.toNat) s

/-- `ct.fire` (R276, R267): a trigger word waits for a free entry of the event channel. -/
def execCtFire (o : EOp) (s : State) : Host.Outcome State Fault Refusal :=
  fire (.ctFire o) (fun _ => false)
    (fun s => if ((s.core (elemCore s.cur.elem)).template o.obj.toNat).state = 0 then some (0x40, 0) else none)
    (fun s =>
      let core := elemCore s.cur.elem
      let b := ((s.core core).template o.obj.toNat).block
      s.updCore core fun c => { c with events := c.events ++ [(o.obj.toNat, BitVec.ofNat 2 (tbChan b), tbTag b)] }) s

/-- `ct.stop` (R276): queued triggers go; a started firing, or a stop that waits to write its record, completes first. -/
def execCtStop (o : EOp) (s : State) : Host.Outcome State Fault Refusal :=
  fire (.ctStop o) (fun _ => false)
    (fun s => if ((s.core (elemCore s.cur.elem)).template o.obj.toNat).state = 0 then some (0x40, 0) else none)
    (fun s =>
      let core := elemCore s.cur.elem
      let (s', r) := s.ctReq (.stopCt o.obj.toNat) 0
      let s' := s'.updCt core o.obj.toNat fun t => { t with queued := 0 }
      if ((s.core core).template o.obj.toNat).firing.isSome || ((s.core core).template o.obj.toNat).stopping then
        { s'.updCt core o.obj.toNat fun t => { t with stopping := true } with reqs := s'.reqs ++ [r] }
      else s'.stopTemplate r o.obj.toNat) s

/-- `ct.stat` (R276). -/
def execCtStat (o : EOp) (s : State) : Host.Outcome State Fault Refusal :=
  fireOp (.ctStat o) (fun s => s.wr o.port ((s.core (elemCore s.cur.elem)).template o.obj.toNat).statWord) s

/-- `ca.set` (R276, R277); the words of every beat are tested before the first commits (R54). -/
def execCaSet (o : EOp) (s : State) : Host.Outcome State Fault Refusal :=
  let dm := one [o.src, o.port]
  fire (.caSet o) (fun _ => false)
    (fun s =>
      let wrong (k : Nat) : Bool :=
        let n := (s.rdAt dm o.src k k).toNat
        let c := s.rdAt dm o.port k k
        n = 0 || n > 2 ^ 17 || bitsOf c 5 27 ≠ 0 || s.linked s.cur.elem (bitsOf c 0 2)
      if (List.range (s.countI (.caSet o))).any wrong then some (0x40, 0) else none)
    (fun s =>
      let n := (s.rd dm o.src).toNat
      let c := s.rd dm o.port
      (s.consume dm).updCa (elemCore s.cur.elem) o.obj.toNat fun t => { t with
        remaining := n
        expected := n
        ch := c.extractLsb' 0 2
        tag := c.extractLsb' 2 2
        rearm := c.getLsbD 4
        overrun := false }) s

/-- `ca.get` (R276). -/
def execCaGet (o : EOp) (s : State) : Host.Outcome State Fault Refusal :=
  fireOp (.caGet o) (fun s =>
    s.wr o.port (BitVec.ofNat 32 ((s.core (elemCore s.cur.elem)).cairn o.obj.toNat).remaining)) s

end Sys2Proof.Machine
end

