-- ==== Sys2Proof/Machine/Image.lean ====
section
/-!
DEFINITION. Relocatable images (R79 to R87): the header, the CRC, the sections, and the configuration of a
spur from an image, fresh or frozen.
-/
namespace Sys2Proof.Machine

/-! ## CRC-64 (R80) -/

/-- Eight steps of the register for one byte, highest bit first. -/
def crcBits : Nat → BitVec 64 → BitVec 64
  | 0, c => c
  | n + 1, c => crcBits n (if c.getLsbD 63 then (c <<< 1) ^^^ 0x42F0E1EBA9EA3693#64 else c <<< 1)
/-- One byte into the register. -/
def crcByte (c : BitVec 64) (b : Byte) : BitVec 64 := crcBits 8 (c ^^^ (b.setWidth 64 <<< 56))
/-- The CRC-64 of bytes (R80). -/
def crc64 (bs : List Byte) : BitVec 64 := bs.foldl crcByte 0
/-- The CRC of an image, its CRC field taken as zero (R79). -/
def imageCrc (bs : List Byte) : Nat := (crc64 (bs.take 0x78 ++ List.replicate 8 0 ++ bs.drop 0x80)).toNat

/-! ## Sections (R81) -/

/-- A section: type, core byte, element byte, offset of its header, body, and link descriptors. -/
structure Sect where
  typ : Nat
  core : Nat
  elem : Nat
  off : Nat
  links : Nat
  body : List Byte
  deriving DecidableEq, Repr, Inhabited

/-- The sections of an image from an offset, or the offset of one that runs past its end. -/
def sectionsFrom (bs : List Byte) : Nat → Nat → Except Nat (List Sect)
  | 0, _ => .ok []
  | n + 1, off =>
    let len := fieldAt bs (off + 4) 4
    if off + 16 + len > bs.length then .error off
    else
      let rest := sectionsFrom bs n (off + 16 + (len + 15) / 16 * 16)
      match rest with
      | .error o => .error o
      | .ok ss => .ok ({
          typ := fieldAt bs off 2
          core := byteAt bs (off + 2)
          elem := byteAt bs (off + 3)
          off := off
          links := if fieldAt bs off 2 = 3 then fieldAt bs (off + 8) 2 else 0
          body := (bs.drop (off + 16)).take len } :: ss)
/-- The sections of an image. -/
def sections (bs : List Byte) : Except Nat (List Sect) := sectionsFrom bs (fieldAt bs 0x0A 2) 128

/-- The package core that a relative core byte (y << 3) | x names in a spur. -/
def Spur.coreOf (p : Spur) (b : Nat) : Nat := clusterCore p.cluster (p.x0 + b % 8) (p.y0 + b / 8)
/-- Whether a relative core byte lies in the spur's rectangle. -/
def Spur.holdsRel (p : Spur) (b : Nat) : Bool := b < 64 && b % 8 < p.w && b / 8 < p.h
/-- The relative core byte of a package core. -/
def Spur.relOf (p : Spur) (core : Nat) : Nat :=
  8 * (coreIdx core / 8 - p.y0) + (coreIdx core % 8 - p.x0)

/-! ## Elements (R82) -/

/-- An element's program from its section. -/
def Elem.withProgram (e : Elem) (b : List Byte) : Elem :=
  { e with
    slots := Vector.ofFn fun (i : Fin 32) => wordAt b (4 * i.val)
    guards := Vector.ofFn fun (i : Fin 16) => wordAt b (0x080 + 4 * i.val)
    conflict := Vector.ofFn fun (i : Fin 32) => wordAt b (0x0C0 + 4 * i.val)
    handlers := Vector.ofFn fun (i : Fin 17) => BitVec.ofNat 16 (fieldAt b (0x140 + 2 * i.val) 2)
    hmask := BitVec.ofNat 17 (fieldAt b 0x162 3)
    join := (byteAt b 0x165).testBit 0
    role := .used }

/-- A carry word of the state section: bit 63 present. -/
def carryAt (b : List Byte) (off : Nat) : Option Carry :=
  let v := fieldAt b off 8
  if v.testBit 63 then some (BitVec.ofNat 33 v) else none

/-- The words of an input FIFO in the state section. -/
def fifoAt (b : List Byte) (ch : Nat) : List ChanWord :=
  (List.range (min 16 (byteAt b (0x090 + ch)))).map fun i =>
    let off := 0x0A0 + 128 * ch + 8 * i
    ⟨wordAt b off, BitVec.ofNat 2 (byteAt b (off + 4)), 0⟩

/-- The raised handlers, ended by 0xFF. -/
def raisedAt (b : List Byte) : List Nat :=
  ((List.range 16).map fun i => byteAt b (0x059 + i)).takeWhile (· != 0xFF)

/-- First and last slot of a handler table entry (R194). -/
def entryRange (h : BitVec 16) : Nat × Nat := ((h.extractLsb' 7 5).toNat, (h.extractLsb' 2 5).toNat)
/-- A handler table entry. -/
def Elem.entry (e : Elem) (h : Nat) : BitVec 16 := e.handlers.getD h 0

/-- An element's state from its section (R82); its slot counts stand beside it. -/
def Elem.withState (e : Elem) (b : List Byte) : Elem :=
  let h := byteAt b 0x043
  let r := entryRange (e.entry h)
  let cd := fieldAt b 0x069 4
  let e := { e with
    d := Vector.ofFn fun (i : Fin 16) => wordAt b (4 * i.val)
    pend := BitVec.ofNat 16 (fieldAt b 0x040 2)
    p := BitVec.ofNat 8 (byteAt b 0x042)
    active := if h ≤ 16 then some ⟨h, r.1, r.2⟩ else none
    owed := BitVec.ofNat 32 (fieldAt b 0x044 4)
    passes := Vector.ofFn fun (i : Fin 17) => byteAt b (0x048 + i.val) % 128
    raised := raisedAt b
    countdown := if cd.testBit 31 then some (BitVec.ofNat 24 cd) else none
    ci := carryAt b 0x070
    co := carryAt b 0x078
    steps := BitVec.ofNat 64 (fieldAt b 0x080 8)
    out := Vector.ofFn fun (i : Fin 4) => ⟨none, fieldAt b (0x088 + 2 * i.val) 2, []⟩ }
  [0, 1, 2, 3].foldl (fun e ch => e.setChan ch (fifoAt b ch)) e

/-! ## Links (R83) -/

/-- A link descriptor with what its offsets name. -/
structure Desc where
  sk : Nat
  s : Nat
  sc : Nat
  rk : Nat
  spur : Nat
  r : Nat
  rc : Nat
  cap : Nat
  conv : Word
  pass : List (Nat × Nat)
  fly : List (Word × Tag)
  /-- Whether its offsets stand as R83 has them: inside the body, and 0 where there is nothing that they name. -/
  placed : Bool
  deriving DecidableEq, Repr, Inhabited

/-- Whether a descriptor's receiver is a converter node. -/
def Desc.toConverter (d : Desc) : Bool := d.rk = 1 && (d.r = 1 || d.r = 3)

/-- Descriptor i of a links section. -/
def descAt (b : List Byte) (i : Nat) : Desc :=
  let o := 16 * i
  let lo := fieldAt b (o + 0x0C) 2
  let fo := fieldAt b (o + 0x0E) 2
  let n := byteAt b (o + 7)
  let conv := byteAt b (o + 3) = 1 && (byteAt b (o + 5) = 1 || byteAt b (o + 5) = 3)
  let po := if conv then lo + 4 else lo
  let nf := fieldAt b (o + 0x0A) 2
  let list := (if conv then 4 else 0) + 2 * n
  { sk := byteAt b o
    s := byteAt b (o + 1)
    sc := byteAt b (o + 2)
    rk := byteAt b (o + 3)
    spur := byteAt b (o + 4)
    r := byteAt b (o + 5)
    rc := byteAt b (o + 6)
    cap := fieldAt b (o + 8) 2
    conv := if conv then wordAt b lo else 0
    pass := (List.range n).map fun j => (byteAt b (po + 2 * j), byteAt b (po + 2 * j + 1))
    fly := (List.range nf).map fun j => (wordAt b (fo + 8 * j), BitVec.ofNat 2 (byteAt b (fo + 8 * j + 4)))
    placed := (if list = 0 then lo = 0 else lo + list ≤ b.length) && (if nf = 0 then fo = 0 else fo + 8 * nf ≤ b.length) }

/-- Whether the conversion word of a link to a converter is well formed (R111). -/
def convOk (w : Word) : Bool :=
  let dir := bitsOf w 30 2
  let fmt := bitsOf w 16 8
  w.getLsbD 0 && bitsOf w 24 6 = 0 && bitsOf w 14 2 = 0 && bitsOf w 1 11 = 0 && bitsOf w 12 2 ≠ 3
    && (if dir ≥ 2 then [0x11, 0x12, 0x14].contains fmt else isPackFmt fmt)

/-- Whether a descriptor obeys R83, in a spur of a stage whose spurs have these indexes, widths and heights: a receiver in
another spur is a core of that spur's rectangle. That of a fresh image has no words in flight. -/
def Spur.descOk (p : Spur) (stage : List (Nat × Nat × Nat)) (fresh : Bool) (d : Desc) : Bool :=
  let coreIn (q : Nat × Nat × Nat) : Bool := q.1 = d.spur && d.r % 8 < q.2.1 && d.r / 8 < q.2.2
  let bind := (d.sk = 2 && d.rk = 3) || (d.sk = 1 && d.rk = 4)
  let memIdx (x : Nat) : Bool := x = 12 || x = 13
  (d.sk ≤ 2 && d.rk ≤ 4) && d.placed && (!fresh || d.fly = [])
    && (if d.sk = 1 then d.s < 32 && d.sc = 0
        else p.holdsRel d.s && (if d.sk = 0 then d.sc < 64 else memIdx d.sc))
    && (match d.rk with
        | 0 => p.holdsRel d.r && d.rc < 64 && d.spur = 0
        | 1 => d.r ≤ 8 && d.rc < 4 && d.spur = 0
        | 2 => d.r < 64 && d.rc < 64 && stage.any coreIn
        | 3 => d.r < 32 && d.rc = 0 && d.spur = 0
        | _ => p.holdsRel d.r && memIdx d.rc && d.spur = 0)
    && (if d.sk = 2 || d.rk = 4 then bind && d.pass = [] && d.cap = 16
        else if d.rk = 1 then d.cap = Config.unitQueue d.r
        else d.cap = 16 * (d.pass.length + 1))
    && d.pass.length ≤ 62 && d.pass.all fun e => p.holdsRel e.1 && e.2 < 16

/-- The element key of a relative core byte and element index. -/
def Spur.elemOf (p : Spur) (core idx : Nat) : Nat := coreElem (p.coreOf core) idx

/-- Whether the pass-through lists of a spur's links obey R59, given the elements that have a program. -/
def passOk (used : List (Nat × Nat)) (ds : List Desc) : Bool :=
  let all := ds.flatMap (·.pass)
  (ds.all fun d => d.pass.eraseDups.length = d.pass.length && d.pass.all fun e => !used.contains e)
    && all.all fun e => (all.filter (· == e)).length ≤ 4

/-- Sets up one link or port binding of a spur (R57, R83). Words in flight on a link from a stream port stand on the
link as far as that holds them, the newest in the port's own queue (R351). Of two descriptors that name one output channel
the later one's link is its link, and two that name one input channel both end there, where a word taken frees a slot on
each of them (DESIGN CHOICE, log 61). -/
def State.bindLink (s : State) (p : Spur) (d : Desc) : State :=
  let cl := p.cluster
  let fly : List ChanWord := d.fly.map fun w => ⟨w.1, w.2, 0⟩
  if d.sk = 2 then
    let s := s.updCluster cl fun c => { c with ports := c.ports.setIfInBounds d.r (c.ports.getD d.r [] ++ fly) }
    { s with binds := s.binds ++ [⟨cl, d.r, p.elemOf d.s d.sc, false, p.chain, p.id⟩] }
  else if d.rk = 4 then
    let s := s.updCluster cl fun c => { c with ports := c.ports.setIfInBounds d.s (c.ports.getD d.s [] ++ fly) }
    { s with binds := s.binds ++ [⟨cl, d.s, p.elemOf d.r d.rc, true, p.chain, p.id⟩] }
  else
    let sender : LinkEnd :=
      if d.sk = 0 then .elemOut (p.elemOf d.s (d.sc % 16)) (d.sc / 16) else .port cl d.s
    let target : Option LinkEnd :=
      match d.rk with
      | 0 => some (.elemIn (p.elemOf d.r (d.rc % 16)) (d.rc / 16))
      | 1 => some (.edgeIn cl d.r d.rc)
      | 3 => some (.port cl d.r)
      | _ =>
        match s.spurs.find? fun q => q.chain = p.chain && q.index = d.spur with
        | some q => some (.elemIn (q.elemOf d.r (d.rc % 16)) (d.rc / 16))
        | none => none
    match target with
    | none => s
    | some receiver =>
      let hold := 16 * d.pass.length + (if d.rk = 1 then d.cap else if d.rk = 3 then 16 else 0)
      let s := if d.sk = 1 then s.updCluster cl fun c =>
          { c with ports := c.ports.setIfInBounds d.s (c.ports.getD d.s [] ++ fly.drop hold) } else s
      let fly := if d.sk = 1 then fly.take hold else fly
      let through (k : Nat) : Nat := (s.links.filter fun l => l.pass.any (·.elem == k)).length
      let fifos := d.pass.map fun e => (⟨p.elemOf e.1 e.2, through (p.elemOf e.1 e.2), []⟩ : PassFifo)
      let l : Link := {
        id := s.nextId
        chain := p.chain
        spur := p.id
        stage := p.stage
        sender := sender
        receiver := receiver
        capacity := d.cap
        wire := fly
        pass := fifos
        freed := 0
        conv := if d.toConverter then some d.conv else none
        held := [] }
      let s := { s.bump with links := s.links ++ [l] }
      let s := fifos.foldl (fun s f => s.updElem f.elem fun e => { e with role := .buffer }) s
      match sender with
      | .elemOut k ch => s.updElem k (·.updOut ch fun o => { o with link := some l.id })
      | _ => s

/-- The words that stand at a link's receiver. -/
def State.receiverWords (s : State) (r : LinkEnd) : Nat :=
  match r with
  | .elemIn k ch => ((s.elem k).chan ch).length
  | .port cl n => ((s.cluster cl).ports.getD n []).length
  | .edgeIn cl pos q => (((s.cluster cl).edgeIn.find (4 * pos + q)).getD []).length
  | _ => 0

/-- The slot counts of a fresh spur's outputs: the capacity of the link that is bound to it, else 0 (R58). -/
def State.freshCounts (s : State) (p : Spur) : State :=
  let mine (k : Nat) : Bool := p.covers (elemCore k)
  let unbound (e : Elem) : Elem := { e with out := e.out.map fun o => { o with count := 0 } }
  let s := { s with elems := s.elems.map fun (e : Nat × Elem) => (e.1, if mine e.1 then unbound e.2 else e.2) }
  (s.links.filter (·.spur == p.id)).foldl (fun s l =>
    match l.sender with
    | .elemOut k ch => s.updElem k (·.updOut ch fun o => { o with count := l.capacity })
    | _ => s) s

/-- The output queues of edge-row units that a spur's links bind: those of the traversal and raster islands that its
header names, and of each converter queue that a link of it feeds. -/
def Spur.edgeQueues (p : Spur) (ds : List Desc) : List Nat :=
  (if p.islands.getLsbD 0 then [16, 17, 18, 19] else []) ++ (if p.islands.getLsbD 1 then [20, 21, 22, 23] else [])
    ++ (ds.filter Desc.toConverter).map fun d => 4 * d.r + d.rc

/-- The links from the output queues of edge-row units to elements of a spur. R295 and R296 have links of the spur bind
them, and no descriptor of R83 can name one as a sender: which FIFO each is bound to, if any, is open (DESIGN CHOICE,
log 49). -/
def State.bindEdges (s : State) (p : Spur) (ds : List Desc) : State :=
  (p.edgeQueues ds).foldl (fun s q =>
    let t := Config.edgeLink p.chain p.stage p.index q
    let sender := LinkEnd.edgeOut p.cluster (q / 4) (q % 4)
    let receiver := LinkEnd.elemIn (p.elemOf t.1 (t.2 % 16)) (t.2 / 16)
    if !p.holdsRel t.1 || t.2 ≥ 64 || s.links.any (fun l => l.sender = sender || l.receiver = receiver) then s
    else { s.bump with links := s.links ++ [{
        id := s.nextId
        chain := p.chain
        spur := p.id
        stage := p.stage
        sender := sender
        receiver := receiver
        capacity := 16
        wire := []
        pass := []
        freed := 0
        conv := none
        held := [] }] }) s

/-! ## Cores (R84) -/

/-- The accumulator value key. -/
def accKey (acc r c : Nat) : Nat := acc * 1024 + r * 32 + c
/-- A template record; a parked firing keeps what the record has no place for (DESIGN CHOICE, log 7). -/
def templateAt (b : List Byte) (n : Nat) : Template :=
  let o := 128 * n
  { state := fieldAt b (o + 0x4C) 4
    block := (b.drop o).take 64
    queued := fieldAt b (o + 0x48) 4
    nextN := 0
    done := 0
    arms := 0
    stopping := false
    firing := if fieldAt b (o + 0x4C) 4 = 2 then
        some { (default : Firing) with
          pos := fieldAt b (o + 0x40) 8
          words := fieldAt b (o + 0x50) 4
          mapBit := (fieldAt b (o + 0x54) 4).testBit 0 }
      else none }
/-- A cairn record. -/
def cairnAt (b : List Byte) (n : Nat) : Cairn :=
  let o := 16 * n
  { remaining := fieldAt b o 4
    expected := fieldAt b (o + 4) 4
    ch := BitVec.ofNat 2 (byteAt b (o + 8))
    tag := BitVec.ofNat 2 (byteAt b (o + 9))
    rearm := (byteAt b (o + 10)).testBit 0
    overrun := false
    landed := [] }
/-- A tile with its tag (R84). -/
def tileAt (b : List Byte) (t : Nat) : Tile :=
  let tag := byteAt b (0x8000 + t)
  { Tile.empty with
    full := tag.testBit 0
    rows := if tag.testBit 0 then (b.drop (0x4000 + 2048 * t)).take 2048 else []
    consumers := tag / 2 % 8
    took := BitVec.ofNat 4 (tag / 16) }
/-- A matrix rule from its rule word (R285). -/
def mxRuleOf (w : Word) : MxRule :=
  ⟨w.getLsbD 7, w.extractLsb' 4 3, w.extractLsb' 0 2, w.extractLsb' 2 2⟩
/-- The rule word of a matrix rule. -/
def MxRule.word (r : MxRule) : Word :=
  BitVec.ofNat 32 ((if r.enable then 128 else 0) + r.group.toNat * 16 + r.tb.toNat * 4 + r.ta.toNat)
/-- A command of the matrix engine that an image gives without its rule: op, accumulator and destination code. -/
def mxCmd (e0 op acc dest : Nat) (ops : List Word) : Cmd :=
  { (default : Cmd) with
    elem := e0
    slot := 0xFF
    word := BitVec.ofNat 32 ((if op = 4 then 2 ^ 26 else 0) + 0x39 * 2 ^ 20 + dest * 2 ^ 10 + acc * 16 + op)
    ops := ops
    handler := 0xFF }
/-- The drain of the drain state, in the section of a core's `e0` (R353): the accumulator stands in no field of it. -/
def drainAt (b : List Byte) (e0 acc : Nat) : Cmd :=
  { mxCmd e0 4 acc (byteAt b 0x807C) (wordsOf64 (BitVec.ofNat 64 (fieldAt b 0x8070 8))) with
    ext := 0xF0000000#32 ||| wordAt b 0x8078
    dst := if byteAt b 0x807C < 16 then .reg (byteAt b 0x807C) else .none }
/-- Rows done of a drain in progress (R353); none where the flags say that none is. -/
def drainRowsAt (b : List Byte) : Option Nat :=
  if (byteAt b 0x807D).testBit 1 then some (fieldAt b 0x807E 2) else none
/-- Whether the drain state holds a drain that waits. -/
def drainWaits (b : List Byte) : Bool := (byteAt b 0x807D).testBit 0 && !(byteAt b 0x807D).testBit 1
/-- The queued read tokens of an accumulator (R84). -/
def readTokens (b : List Byte) (acc : Nat) : Nat := fieldAt b (0x8028 + 2 * acc) 2
/-- Reads that only their tokens stand for: they wait their turn, and no destination receives their value (DESIGN
CHOICE, log 7). -/
def tokenReads (b : List Byte) (e0 : Nat) (have_ : Nat → Nat) : List Cmd :=
  (List.range 4).flatMap fun n => List.replicate (readTokens b n - have_ n) (mxCmd e0 3 n 0 [0])
/-- The matrix section of a core, as far as its layout goes (R84, R353). -/
def matrixAt (b : List Byte) (e0 acc : Nat) : Matrix :=
  { tiles := Vector.ofFn fun (t : Fin 8) => tileAt b t.val
    rules := Vector.ofFn fun (n : Fin 4) => mxRuleOf (wordAt b (0x8008 + 8 * n.val))
    acc := ((List.range 4096).map fun i => (i, wordAt b (4 * i))).filter fun x => x.2 ≠ 0
    accBad := 0
    queue := (if drainWaits b then [drainAt b e0 acc] else []) ++ tokenReads b e0 fun _ => 0
    seq := none
    draining := (drainRowsAt b).map fun r => (drainAt b e0 acc, r)
    drains := [] }

/-- Stores one section of a core or of the controller (R81, R84). An L1 binding whose base or length is no multiple of
64 KiB is not made (DESIGN CHOICE, log 63). -/
def State.loadSection (s : State) (p : Spur) (x : Sect) : State :=
  let core := p.coreOf x.core
  match x.typ with
  | 0x04 => s.updCore core fun c => { c with ct := Vector.ofFn fun (n : Fin 32) => templateAt x.body n.val }
  | 0x05 => s.updCore core fun c => { c with ca := Vector.ofFn fun (n : Fin 32) => cairnAt x.body n.val }
  | 0x06 => s.updCore core fun c => { c with mx := matrixAt x.body (coreE0 core) (Config.drainAcc s.tick % 4) }
  | 0x07 => s.scratchWrite (scratchKey p.cluster (coreIdx core * 2 ^ 17)) (x.body.take (2 ^ 17))
  | 0x08 =>
    let base := fieldAt x.body 0 8
    let len := fieldAt x.body 8 8
    let clash := s.cores.any fun k => coreCluster k.1 = p.cluster && (match k.2.l1 with
      | some (b, n) => base < b + n && b < base + len
      | none => false)
    if len = 0 || clash || base % 65536 ≠ 0 || len % 65536 ≠ 0 then s
    else s.updCore core fun c => { c with l1 := some (base, len) }
  | _ => s

/-- A barrier of the controller section: required count (2), local count (2), generation (3), flags (1) (DESIGN CHOICE,
log 7). -/
def barAt (b : List Byte) (i : Nat) : BarState :=
  { need := fieldAt b (8 * i) 2
    count := fieldAt b (8 * i + 2) 2
    gen := BitVec.ofNat 32 (fieldAt b (8 * i + 4) 3)
    reported := (byteAt b (8 * i + 7)).testBit 0 }
/-- The col of the controller section (R258, R259); none where its bytes are all zero (DESIGN CHOICE, log 7). -/
def colAt (b : List Byte) : Option Col :=
  if zeroAt b 0x80 0x48 then none
  else some {
    holder := if byteAt b 0x80 < 64 then some (byteAt b 0x80) else none
    fifo := (List.range (min 64 (byteAt b 0x81))).map fun i => (byteAt b (0x88 + i), 0)
    grants := wordAt b 0x84 }
/-- The controller section into the spur. -/
def Spur.withController (p : Spur) (b : List Byte) : Spur :=
  { p with
    bars := Vector.ofFn fun (i : Fin 16) => barAt b i.val
    quiet := (byteAt b 7).testBit 1
    col := colAt b }

/-! ## Checks before a load (R79, R80, R322, R323, R368, R369) -/

/-- A load rejection: subcode, address, and element and slot where one is named. -/
structure Reject where
  sub : Nat
  addr : Nat
  elem : Nat := 0
  slot : Nat := 0xFF
  deriving DecidableEq, Repr

/-- The lowest required feature bit that was not accepted (R322). -/
def State.missingFeature (s : State) (bs : List Byte) : Option Nat :=
  (List.range 256).find? fun i =>
    (fieldAt bs (0x10 + i / 8) 1).testBit (i % 8) && !(s.preg (0x288 + i / 32)).getLsbD (i % 32)

/-- The elements that have a program, as relative core byte and index. -/
def usedElems (ss : List Sect) : List (Nat × Nat) := (ss.filter (·.typ == 1)).map fun x => (x.core, x.elem)

/-- The link descriptors of an image. -/
def descsOf (ss : List Sect) : List Desc :=
  match ss.find? (·.typ == 3) with
  | some x => (List.range x.links).map (descAt x.body)
  | none => []

/-- The header checks: magic and version, CRC, features, shape (R80, R322, R323, R369). What stands in reserved fields
of a header is not looked at (DESIGN CHOICE, log 36). -/
def State.headerCheck (s : State) (bs : List Byte) (addr w h : Nat) : Option Reject :=
  let v := fieldAt bs 4 2
  if fieldAt bs 0 4 ≠ 0x4D494C48 || v < bitsOf (s.preg 0x291) 0 16 || v > bitsOf (s.preg 0x292) 0 16
      || fieldAt bs 0x78 8 ≠ imageCrc bs then
    some ⟨4, addr, 0, 0xFF⟩
  else
    match s.missingFeature bs with
    | some i => some ⟨3, i, 0, 0xFF⟩
    | none => if byteAt bs 8 ≠ w || byteAt bs 9 ≠ h then some ⟨5, 0, 0, 0xFF⟩ else none

/-- Bytes that a section's body must have at least, by type (R81). -/
def sectMin (typ : Nat) : Nat :=
  match typ with
  | 0x01 => 368
  | 0x02 => 672
  | 0x04 => 4096
  | 0x05 => 512
  | 0x06 => 32896
  | 0x08 => 16
  | 0x09 => 256
  | _ => 0

/-- The first section that does not fit the spur: an unknown type, a core outside, a short body. What stands in reserved
fields of a section header is not looked at, nor a section of type 0x0A to 0x0C in a fresh image, which is loaded without
it (DESIGN CHOICE, log 36). -/
def Spur.badSect (p : Spur) (ss : List Sect) : Option Sect :=
  ss.find? fun x =>
    x.typ = 0 || x.typ > 0x0C || x.body.length < sectMin x.typ || x.body.length < 16 * x.links
      || ((x.typ = 1 || x.typ = 2) && (!p.holdsRel x.core || x.elem > 15))
      || (0x04 ≤ x.typ && x.typ ≤ 0x08 && !p.holdsRel x.core)

/-- The rules of an element: slot, word, extension, instruction. A slot that a wide rule before it takes as its
extension holds no rule. -/
def Elem.rulesFrom (e : Elem) : List Nat → Bool → List (Nat × Word × Word × Instr)
  | [], _ => []
  | i :: is_, skip =>
    let w := e.slot i
    let x := e.extOf i
    let wide := fieldW w && field x 28 4 = 0xF
    if skip || fieldG w = 0xF then e.rulesFrom is_ false
    else
      match decodeWord w with
      | .ok instr => (i, w, x, instr) :: e.rulesFrom is_ wide
      | .error _ => e.rulesFrom is_ false
/-- Every rule of an element. -/
def Elem.rules (e : Elem) : List (Nat × Word × Word × Instr) := e.rulesFrom (List.range 32) false
/-- Whether an image lacks a section that R81 requires of it: each one of a frozen image but the replays, islands and
command queues. A fresh image declares its barriers and its col in its controller state, so that one without that section
uses none of its own; a rule that names an undeclared one faults when it fires (R258, R260; DEDUCED, log 57). -/
def Spur.lacksSection (p : Spur) (frozen : Bool) (ss : List Sect) : Bool :=
  let rels := (List.range p.h).flatMap fun y => (List.range p.w).map fun x => 8 * y + x
  let has (t c : Nat) : Bool := ss.any fun x => x.typ = t && x.core = c
  frozen &&
    ((usedElems ss).any (fun e => !(ss.any fun x => x.typ = 2 && x.core = e.1 && x.elem = e.2))
      || [4, 5, 6, 7, 8].any (fun t => rels.any fun c => !has t c)
      || ss.any (fun x => x.typ = 7 && x.body.length < 2 ^ 17) || !(ss.any (·.typ == 9)))

/-- The checks of an image for a spur of a stage, given each spur's index, width and height, in the order of R80 and R369.
-/
def State.imageCheck (s : State) (p : Spur) (stage : List (Nat × Nat × Nat)) (addr : Nat) (bs : List Byte) : Option Reject :=
  match s.headerCheck bs addr p.w p.h with
  | some r => some r
  | none =>
    match sections bs with
    | .error off => some ⟨5, off, 0, 0xFF⟩
    | .ok ss =>
      match p.badSect ss with
      | some x => some ⟨5, x.off, 0, 0xFF⟩
      | none =>
        let ds := descsOf ss
        let links := (ss.find? (·.typ == 3)).map (·.off)
        let frozen := (fieldAt bs 6 2).testBit 0
        if links.isNone || p.lacksSection frozen ss then some ⟨5, 0, 0, 0xFF⟩
        else if !ds.all (p.descOk stage !frozen) || !passOk (usedElems ss) ds then some ⟨5, links.getD 0, 0, 0xFF⟩
        else
          match ds.find? fun d => d.toConverter && !convOk d.conv with
          | some d => some ⟨2, 0, p.elemOf d.s (d.sc % 16), 0xFF⟩
          | none => none

/-! ## Configuration of a spur (R74, R81) -/

/-- Elements of a spur: programs first, then their states. An element whose state section is absent is as after reset: all
zero (R81, R341), with no handler active or raised (DESIGN CHOICE, log 61). -/
def State.loadElems (s : State) (p : Spur) (ss : List Sect) : State :=
  let s := (ss.filter (·.typ == 1)).foldl (fun s x => s.updElem (p.elemOf x.core x.elem) (·.withProgram x.body)) s
  (ss.filter (·.typ == 2)).foldl (fun s x => s.updElem (p.elemOf x.core x.elem) (·.withState x.body)) s

/-- Cores and controller of a spur. -/
def State.loadCores (s : State) (p : Spur) (ss : List Sect) : State :=
  let s := ss.foldl (fun s x => s.loadSection p x) s
  match ss.find? (·.typ == 9) with
  | some x => s.updSpur p.id (·.withController x.body)
  | none => s

/-- Links of a spur; the slot counts of a fresh image's outputs start at the capacities. -/
def State.loadLinks (s : State) (p : Spur) (ss : List Sect) (frozen : Bool) : State :=
  let s := ((descsOf ss).foldl (fun s d => s.bindLink p d) s).bindEdges p (descsOf ss)
  if frozen then s else s.freshCounts p

/-- Templates that a fresh image arms: an invalid block rejects the load, and its core is named; the others set their
registers pending (R84, R36). A record of state 2 or above rejects it too (DESIGN CHOICE, log 36). -/
def State.freshTemplates (s : State) (p : Spur) : State × Option Nat :=
  p.cores.foldl (fun acc core =>
    (List.range 32).foldl (fun (acc : State × Option Nat) n =>
      let t := (acc.1.core core).template n
      if t.state = 0 then acc
      else if t.state ≠ 1 || !blockOk t.block || acc.1.triggerTaken core n t.block then (acc.1, acc.2 <|> some core)
      else (acc.1.updElem (coreE0 core) (·.setPend (tbReg t.block) true), acc.2)) acc) (s, none)

end Sys2Proof.Machine
end

