-- ==== Sys2Proof/Machine/Registers.lean ====
section
/-!
DEFINITION. The privileged registers (R301, R302, R317, R320 to R326, R332, R333, R336, R386, R397): what a write
of each does, whoever makes it, and what a read returns; the start of the device with its system spurs (R320,
R321).
-/
namespace Sys2Proof.Machine

/-! ## Signals (R325) -/

/-- The pending and enable registers of signals 0 to 31 or 32 to 63. -/
def sigPend (hi : Bool) : Nat := if hi then 0x2A1 else 0x2A0
/-- The enable register. -/
def sigEn (hi : Bool) : Nat := if hi then 0x2A3 else 0x2A2

/-- A signal bit is set; a bit newly pending and enabled sends its vector (R263, R325). -/
def State.setSignal (s : State) (n : Nat) : State :=
  let hi := 32 ≤ n
  let bit : Word := 1#32 <<< (n % 32)
  let pend := s.preg (sigPend hi)
  let s' := s.setPreg (sigPend hi) (pend ||| bit)
  if pend.getLsbD (n % 32) || !(s.preg (sigEn hi)).getLsbD (n % 32) then s' else s'.sendVector n

/-- A write of an enable register: vectors of bits newly enabled and already pending are sent (R325). -/
def State.writeSigEn (s : State) (hi : Bool) (w : Word) : State :=
  let new := w &&& ~~~(s.preg (sigEn hi)) &&& s.preg (sigPend hi)
  let s := s.setPreg (sigEn hi) w
  (List.range 32).foldl (fun s i => if new.getLsbD i then s.sendVector (i + (if hi then 32 else 0)) else s) s

/-- A write of 1 clears a pending bit (R325). -/
def State.writeSigPend (s : State) (hi : Bool) (w : Word) : State :=
  s.setPreg (sigPend hi) (s.preg (sigPend hi) &&& ~~~w)

/-! ## Launch queues (R68, R324) -/

/-- Records that a queue's ring holds. -/
def State.lqSize (s : State) (q : Nat) : Nat := 2 ^ bitsOf (s.preg (0x2E0 + q)) 0 5
/-- Head count. -/
def State.lqHead (s : State) (q : Nat) : Nat := bitsOf (s.preg (0x2F0 + q)) 0 17
/-- Tail count. -/
def State.lqTail (s : State) (q : Nat) : Nat := bitsOf (s.preg (0x300 + q)) 0 17
/-- Records waiting in a queue: counts are modulo twice the size. -/
def State.lqFill (s : State) (q : Nat) : Nat :=
  (s.lqTail q + 2 * s.lqSize q - s.lqHead q) % (2 * s.lqSize q)
/-- The physical address of a ring. -/
def State.lqBase (s : State) (q : Nat) : Nat :=
  bitsOf (s.preg (0x2D0 + q)) 0 20 * 2 ^ 32 + (s.preg (0x2C0 + q)).toNat / 256 * 256
/-- The place in local HBM of the record that a count names: rings lie in device memory, so bits [51:43] of their address
are dropped (R68, R123). -/
def State.lqPlace (s : State) (q count : Nat) : Nat := (s.lqBase q + 256 * (count % s.lqSize q)) % 2 ^ 43
/-- The key of the record that a count names. -/
def State.lqSlot (s : State) (q count : Nat) : Nat := physKey 0 (s.lqPlace q count)
/-- The record that a count names, at its home; beyond 640 GiB it reads as zero (DESIGN CHOICE, log 61). -/
def State.lqRecord (s : State) (q count : Nat) : List Byte :=
  if s.lqPlace q count < hbmBytes then s.homeRead (s.lqSlot q count) 256 else List.replicate 256 0
/-- A record is written to the slot that a count names; beyond 640 GiB it is discarded (DESIGN CHOICE, log 61). -/
def State.lqPut (s : State) (q count : Nat) (bs : List Byte) : State :=
  if s.lqPlace q count < hbmBytes then s.writeHome (s.lqSlot q count) bs else s

/-- A write of a tail, ignored if it would pass head plus size (R68); so is one of twice the size or more (DESIGN CHOICE,
log 61). -/
def State.writeTail (s : State) (q : Nat) (w : Word) : State :=
  let size := s.lqSize q
  let t := bitsOf w 0 17
  if t ≥ 2 * size || (t + 2 * size - s.lqHead q) % (2 * size) > size then s
  else s.setPreg (0x300 + q) (BitVec.ofNat 32 t)

/-- A write of a base or size, ignored unless head equals tail; it sets both counts to 0 (R324). -/
def State.writeQueueReg (s : State) (n : Nat) (w : Word) : State :=
  let q := n % 16
  if s.lqHead q ≠ s.lqTail q then s
  else
    let clear (s : State) : State := (s.setPreg (0x2F0 + q) 0).setPreg (0x300 + q) 0
    if n < 0x2D0 then clear (s.setPreg n (w &&& 0xFFFFFF00#32))
    else if n < 0x2E0 then clear (s.setPreg n (w &&& 0xFFFFF#32))
    else
      let v := bitsOf w 0 5
      if 4 ≤ v && v ≤ 16 then clear (s.setPreg n (BitVec.ofNat 32 v)) else s

/-! ## Translation and chains (R124, R302) -/

/-- Bits of a page of a size code (R301): 64 KiB, 512 MiB, 4 TiB, or every page. -/
def invalBits (code : Nat) : Nat := if code = 0 then 16 else if code = 1 then 29 else if code = 2 then 42 else 55

/-- Whether a cached entry covers part of a page. -/
def Cached.meets (c : Cached) (va bits : Nat) : Bool :=
  let lo := va / 2 ^ bits * 2 ^ bits
  c.page * 2 ^ c.bits < lo + 2 ^ bits && lo < (c.page + 1) * 2 ^ c.bits

/-- Every cached translation of a page is dropped and the translation sequence advances (R124, R302). -/
def State.dropTranslations (s : State) (va bits : Nat) : State :=
  { s with
    cached := s.cached.filter fun c => !c.meets va bits
    transSeq := s.transSeq + 1 }

/-- A write of TRANS_INVAL_HI invalidates the page and size that TRANS_INVAL_LO holds (R302). -/
def State.writeInvalHi (s : State) (w : Word) : State :=
  let lo := s.preg 0x212
  s.dropTranslations (bitsOf w 0 23 * 2 ^ 32 + bitsOf lo 16 16 * 65536) (invalBits (bitsOf lo 0 2))

/-- A write of CHAIN_KILL_HI ends the chain with that identifier, if a scheduler holds it (R302). -/
def State.writeKillHi (s : State) (w : Word) : State :=
  s.endChain (w.toNat * 2 ^ 32 + (s.preg 0x221).toNat) 3 0

/-! ## Operating point (R332, R333, R397) -/

/-- A write of a meter: enable, ramp and base; the observer's c stays (R333). -/
def State.writeMeter (s : State) (cl : Nat) (w : Word) : State :=
  let old := s.preg (0x310 + cl)
  (s.setPreg (0x310 + cl) ((w &&& 0x80FFFFFF#32) ||| (old &&& 0x07000000#32))).settleMeter cl

/-- A write of a base code; a code above 40 is ignored (R332). -/
def State.writeVreg (s : State) (cl : Nat) (w : Word) : State :=
  let base := bitsOf w 0 6
  if base > 40 then s else s.retarget cl (bitsOf (s.preg (0x370 + cl)) 24 6) base

/-- Writing 1 returns a cluster to placement at base code 25, once its regulator follows its target (R397). -/
def State.writeClusOff (s : State) (k : Nat) (w : Word) : State :=
  let old := s.preg (0x235 + k)
  let back := (List.range 32).filter fun i => old.getLsbD i && w.getLsbD i && 32 * k + i < 96
  let s := s.setPreg (0x235 + k) (old &&& ~~~w)
  back.foldl (fun s i =>
    let s := s.writeVreg (32 * k + i) 25
    let w := s.preg (0x370 + (32 * k + i))
    s.updCluster (32 * k + i) fun c => { c with returning := bitsOf w 8 6 ≠ bitsOf w 16 6 }) s

/-! ## Start (R320, R321) -/

/-- Sets or clears a bit of DEV_STATUS. -/
def State.status (s : State) (bit : Nat) (v : Bool) : State :=
  let w := s.preg 0x295
  s.setPreg 0x295 (if v then w ||| (1#32 <<< bit) else w &&& ~~~(1#32 <<< bit))

/-- The chain record of the system chain of a massif (R321). -/
def State.systemRecord (s : State) (m : Nat) : List Byte :=
  let root := bitsOf (s.preg 0x211) 0 20 * 2 ^ 32 + bitsOf (s.preg 0x210) 16 16 * 65536
  bytesOfNat 2 1 ++ bytesOfNat 1 15 ++ bytesOfNat 1 0 ++ bytesOfNat 2 1 ++ bytesOfNat 2 0
    ++ bytesOfNat 8 (0xFFFFFFFFFFFFFFF0 + m) ++ List.replicate 56 0 ++ bytesOfNat 8 root ++ List.replicate 176 0

/-- A new spur in a cluster, with the fields that its image's header `b` gives, reserved bits left out (R8); a frozen
image also gives its home origin and its stage (R79). -/
def newSpur (id chain index stage cl x0 y0 w h image length : Nat) (b : List Byte) : Spur :=
  { id := id
    chain := chain
    index := index
    stage := if (fieldAt b 6 2).testBit 0 then fieldAt b 0x34 2 else stage
    cluster := cl
    x0 := x0
    y0 := y0
    w := w
    h := h
    homeX := if (fieldAt b 6 2).testBit 0 then byteAt b 0x33 % 8 else x0
    homeY := if (fieldAt b 6 2).testBit 0 then byteAt b 0x33 / 8 else y0
    flags := BitVec.ofNat 16 (fieldAt b 6 2 % 8)
    islands := BitVec.ofNat 8 (byteAt b 0x46 % 8)
    image := image
    length := length
    phase := .loaded
    quiet := false
    version := fieldAt b 4 2
    features := fieldAt b 0x10 32
    bars := .replicate 16 default
    col := none
    drain := none
    leaseLeft := (0, 0, 0)
    seen := none }

/-- Whether the system image passes the checks of R321. -/
def State.systemImageOk (s : State) (bs : List Byte) : Bool :=
  let p := newSpur 0 0 0 0 0 7 7 1 1 0 0 []
  (s.imageCheck p [(0, p.w, p.h)] 0 bs).isNone && (fieldAt bs 6 2) % 2 = 0 && byteAt bs 0x46 = 0

/-- The system chain of a massif with its one spur, loaded at origin (7,7) of `k23` and started (R321). It names a core
with a template that is not valid (R84). -/
def State.loadSystem (s : State) (bs : List Byte) (m : Nat) : State × Option Nat :=
  let id := 0xFFFFFFFFFFFFFFF0 + m
  let p := { newSpur s.nextId id 0 0 (24 * m + 23) 7 7 1 1 0 bs.length bs with phase := .started }
  let c : Chain := {
    ident := id
    record := s.systemRecord m
    home := m
    stage := 0
    phase := .started
    effPrio := 15
    order := 0
    waitNs := 0
    system := true
    privileged := true
    places := []
    saved := []
    kept := []
    frozen := false
    debugHold := false
    doomed := false
    faults := 0
    orphans := 0
    startNs := some s.timeNs.toNat
    startedAt := 0
    ridgeNs := s.timeNs.toNat
    replays := []
    isl := []
    stopped := none }
  match sections bs with
  | .error _ => (s, none)
  | .ok ss =>
    let s := { s.bump with chains := s.chains ++ [c], spurs := s.spurs ++ [p] }
    (((s.loadElems p ss).loadCores p ss).loadLinks p ss false).freshTemplates p

/-- The fallback of R334 in the clusters of a massif: voltage ceilings at code 15, c at 7, the held mark in
OBS_STAT. -/
def State.fallback (s : State) (m : Nat) : State :=
  let s := (List.range 24).foldl (fun s n =>
    let cl := 24 * m + n
    let s := s.setPreg (0x310 + cl) (s.preg (0x310 + cl) ||| 0x07000000#32)
    (s.retarget cl 15 (bitsOf (s.preg (0x370 + cl)) 0 6)).settleMeter cl) s
  s.setPreg 0x3D8 (s.preg 0x3D8 ||| (1#32 <<< (8 + m)))

/-- The system chains of the four massifs; a false flag says that the image's templates are not valid. -/
def State.loadSystems (s : State) (bs : List Byte) : State × Bool :=
  [0, 1, 2, 3].foldl (fun (a : State × Bool) m =>
    let r := a.1.loadSystem bs m
    (r.1, a.2 && r.2.isNone)) (s, true)

/-- DEV_START is written with 1: L1 leaves read-only mode, the fetch agents load the system image, from local HBM (R123),
or set DEV_STATUS[3] (R320, R321). A second write has no effect. What the recovery of R126 is, and when it would bring the
read-only mode back, is open: the model has that mode from reset to this write only (DESIGN CHOICE, log 50). -/
def State.writeStart (s : State) (w : Word) : State :=
  if s.started || !w.getLsbD 0 then s
  else
    let s := ({ (s.setPreg 0x294 1).status 1 true with l1 := [] }).status 2 false
    let base := ((s.preg 0x298).toNat % 2 ^ 20 * 2 ^ 32 + (s.preg 0x297).toNat) % 2 ^ 43
    let bs := s.homeRead (physKey 0 base) (s.preg 0x299).toNat
    let s := (List.range 96).foldl (fun s cl => s.updCluster cl fun c => { c with observedNs := s.timeNs.toNat }) s
    let r := s.loadSystems bs
    if s.systemImageOk bs && r.2 then r.1 else [0, 1, 2, 3].foldl State.fallback (s.status 3 true)

/-! ## Every register (R298, R301, R336, R386) -/

/-- The bits that a write of a plain register stores; none where it is RO, unassigned or has a rule of its own. -/
def regMask (n : Nat) : Option Word :=
  if n = 0x210 then some 0xFFFF0000#32
  else if n = 0x211 then some 0xFFFFF#32
  else if n = 0x212 then some 0xFFFF0003#32
  else if n = 0x220 then some 3#32
  else if n = 0x221 then some 0xFFFFFFFF#32
  else if n = 0x296 then some 0x1FF#32
  else if n = 0x297 || n = 0x298 || n = 0x299 then some 0xFFFFFFFF#32
  else if n = 0x2A4 then some 1#32
  else if 0x2B0 ≤ n && n ≤ 0x2BF then
    (if n % 4 = 3 then none else if n % 4 = 1 then some 0xFFFFF#32 else some 0xFFFFFFFF#32)
  else if n = 0x3D0 then some 0xFF#32
  else if n = 0x3D1 then some 0xFFFF#32
  else if n = 0x3D2 then some 0x3F#32
  else if n = 0x3D3 then some 0xFFF#32
  else if n = 0x3F0 || n = 0x3F1 then some 0xFFFFFFFF#32
  else if n = 0x3F2 then some 0x1FFF#32
  else none

/-- Whether a register keeps, after DEV_START, the value that it held (R320). -/
def setupReg (n : Nat) : Bool :=
  n = 0x210 || n = 0x211 || (0x288 ≤ n && n ≤ 0x28F) || (0x296 ≤ n && n ≤ 0x299) || (0x2B0 ≤ n && n ≤ 0x2BF)
    || (0x3F0 ≤ n && n ≤ 0x3F2)

/-- A write of a privileged register by the host or by a privileged spur. -/
def State.writeReg (s : State) (n : Nat) (w : Word) : State :=
  if setupReg n && s.started then s
  else if n = 0x213 then s.writeInvalHi w
  else if n = 0x222 then s.writeKillHi w
  else if 0x235 ≤ n && n ≤ 0x237 then s.writeClusOff (n - 0x235) w
  else if 0x288 ≤ n && n ≤ 0x28F then s.setPreg n (w &&& s.preg (n - 8))
  else if n = 0x294 then s.writeStart w
  else if n = 0x2A0 || n = 0x2A1 then s.writeSigPend (n = 0x2A1) w
  else if n = 0x2A2 || n = 0x2A3 then s.writeSigEn (n = 0x2A3) w
  else if 0x2C0 ≤ n && n ≤ 0x2EF then s.writeQueueReg n w
  else if 0x300 ≤ n && n ≤ 0x30F then s.writeTail (n - 0x300) w
  else if 0x310 ≤ n && n ≤ 0x36F then s.writeMeter (n - 0x310) w
  else if 0x370 ≤ n && n ≤ 0x3CF then s.writeVreg (n - 0x370) w
  else
    match regMask n with
    | some m =>
      let s := s.setPreg n (w &&& m)
      if 0x2B0 ≤ n && n ≤ 0x2BF && n % 4 = 2 then s.setPreg (n + 1) (w &&& m) else s
    | none => s

/-- Whether a register is write-only: a read returns 0 (R298). -/
def writeOnly (n : Nat) : Bool := n = 0x212 || n = 0x213 || n = 0x221 || n = 0x222

/-- The value of a privileged register. A read of TRANS_SEQ_LO or ECC_LAST_LO gives the low word. -/
def State.readReg (s : State) (n : Nat) : Word :=
  if writeOnly n then 0
  else if n = 0x214 then s.transSeq.extractLsb' 0 32
  else s.preg n

/-- What a read latches: the high word of the translation sequence or of the last uncorrectable address, which the
key beyond the register space holds (R302, R386). -/
def State.latchReg (s : State) (n : Nat) : State :=
  if n = 0x214 then s.setPreg 0x215 (s.transSeq.extractLsb' 32 32)
  else if n = 0x232 then s.setPreg 0x233 (s.preg 0x432)
  else s

end Sys2Proof.Machine
end

