-- ==== Sys2Proof/Machine/MemEvents.lean ====
section
/-!
DEFINITION. What happens to memory requests after they fire: translation (R122, R381), landing and binding (R129 to
R137), performance and done tokens (R132, R243), the freedoms of copies (R130), atomics (R138 to R140, R251, R252),
and port accesses (R247).
-/
namespace Sys2Proof.Machine

/-! ## Performance (R132, R134) -/

/-- Whether a request writes: an accepted `orc.op` is a landing (R150), a domain's record, a mark's watermark and a
freed word are written at the home (R146, R151). -/
def ReqKind.writes : ReqKind → Bool
  | .store => true
  | .storeBlock => true
  | .amo _ _ => true
  | .orcOp _ _ => true
  | .orcCtl .dom _ => true
  | .orcCtl .mark _ => true
  | .orcCtl .free _ => true
  | .signal _ => true
  | .chainPut _ => true
  | .mxDrain _ => true
  | _ => false

/-- Whether a request is a write that consistency counts; a port access takes no part in it (R119). -/
def Req.counts (r : Req) : Bool := r.kind.writes && r.space ≠ 3

/-- The writes that the request's element fired before it. -/
def State.earlierWrites (s : State) (r : Req) : List Req :=
  s.reqs.filter fun q => q.elem = r.elem && q.id < r.id && q.counts

/-- Whether an earlier write of the request's element waits as a replay entry (R360). -/
def State.replayBefore (s : State) (r : Req) : Bool := s.replayed.any fun q => q.elem = r.elem && q.id < r.id && q.counts
/-- Whether every earlier write of the element has landed, so that a release can go on (R134). -/
def State.releaseReady (s : State) (r : Req) : Bool :=
  !r.rel || ((s.earlierWrites r).all (fun q => q.phase = .landed || s.performedAt q 4) && !s.replayBefore r)

/-- The 64 KiB places of the pages of a range that translate with a permission: write for a release, read for an acquire
(R134, R135) (DEDUCED, log 27). -/
def State.rangePages (s : State) (core va n : Nat) (need : Need) : List Nat :=
  (List.range n).filterMap fun i =>
    match s.translateAt (coreCluster core) (s.rootAt core) ((va / 65536 + i) * 65536) need with
    | .ok k _ => some k
    | .bad _ _ => none

/-- Whether a place lies in a range of pages; a range of length 0 is every address. -/
def inRange (n : Nat) (pages : List Nat) (k : Nat) : Bool := n = 0 || pages.any fun p => p ≤ k && k < p + 65536

/-- The work of a release before it lands: the element's earlier writes are performed at its scope, and at massif
scope or wider the dirty bytes of the range go home (R134). -/
def State.release (s : State) (r : Req) : State :=
  if !r.rel || r.scope.toNat < 3 then s
  else
    let core := elemCore r.elem
    let cl := coreCluster core
    let s := (s.earlierWrites r).foldl (fun s q => match q.pa with
      | some k => (touchedSectors k q.size).foldl (fun s sec => s.writeBack cl sec) s
      | none => s) s
    let pages := s.rangePages core r.va.toNat r.range.toNat (s.writeNeed core)
    (s.writeBackWhere cl (inRange r.range.toNat pages)).prune

/-- Whether a read is an acquire (R135). -/
def Req.acquires (r : Req) : Bool := r.acq && r.scope.toNat ≥ 3
/-- The places whose clean copies an acquire drops: its range and its own address. -/
def State.acquirePlaces (s : State) (r : Req) : Nat → Bool :=
  let core := elemCore r.elem
  let pages := s.rangePages core r.va.toNat r.range.toNat (s.readNeed core)
  let own := r.pa.getD 0
  fun k => inRange r.range.toNat pages k || (own ≤ k && k < own + r.size)
/-- An acquire waits while a pinned line holds clean bytes that it drops (R137). -/
def State.acquireReady (s : State) (r : Req) : Bool :=
  !r.acquires ||
    let cl := elemCluster r.elem
    let p := s.acquirePlaces r
    !s.copies.any fun c => c.1 / 2 ^ 54 = cl && !c.2.dirty && p (c.1 % 2 ^ 54) && s.isPinned cl (sectorOf (c.1 % 2 ^ 54))
/-- The drop of an acquire (R135). -/
def State.acquire (s : State) (r : Req) : State :=
  if r.acquires then s.dropClean (elemCluster r.elem) (s.acquirePlaces r) else s

/-! ## Translation (R122, R381) -/

/-- What a request needs of its page; none where it has no address to translate (DEDUCED, log 27) (DEDUCED, log 28). -/
def State.reqNeed (s : State) (r : Req) : Option Need :=
  let p := s.privAt (elemCore r.elem)
  match r.kind with
  | .load _ => some ⟨true, false, false, p⟩
  | .loadBlock => some ⟨true, false, false, p⟩
  | .prefetch => some ⟨true, false, false, p⟩
  | .store => some ⟨false, true, false, p⟩
  | .storeBlock => some ⟨false, true, false, p⟩
  | .amo _ _ => some ⟨true, true, false, p⟩
  | .orcCtl _ _ => some ⟨true, true, false, p⟩
  | .orcOp _ _ => some ⟨true, true, false, p⟩
  | .orcLoad _ _ => some ⟨true, false, false, p⟩
  | .tile _ _ _ => some ⟨true, false, false, p⟩
  | .mxDrain _ => some ⟨false, true, false, p⟩
  | _ => none

/-- Whether a request may not name a page of memory kind 1 (R140, R253). -/
def ReqKind.noHost : ReqKind → Bool
  | .amo _ _ => true
  | .orcCtl _ _ => true
  | .orcOp _ _ => true
  | .orcLoad _ _ => true
  | _ => false

/-- The narrower of a page's policy and a rule's hint (R197). -/
def narrowest (policy hint : BitVec 2) : BitVec 2 := if hint.toNat > policy.toNat then hint else policy

/-- A request is translated and reaches its unit, behind those that reached theirs before it (R139); the cluster caches
a valid leaf, also one that forbids the access (R124, R382); a walk that fails is a late fault, except of a prefetch,
which is dropped (R249). -/
def State.translateReq (s : State) (r : Req) (n : Need) : State :=
  let core := elemCore r.elem
  let cl := coreCluster core
  let root := s.rootAt core
  let s := s.cacheLeaf cl root r.va.toNat
  match s.translateAt cl root r.va.toNat n with
  | .bad code a => if r.kind = .prefetch then s.dropReq r.id else s.lateFault r code a
  | .ok k policy =>
    if keyKind k = 1 && r.kind.noHost then s.lateFault r 0x38 r.va.toNat
    else
      let policy := narrowest policy r.hint
      let q := { r with pa := some k, policy := policy, atHome := atHome k policy, phase := .ready }
      let s := s.dropReq r.id
      { s with reqs := s.reqs ++ [q] }

/-- `TRANSLATION_WALK` (R122): of the request `a`; the accesses of one rule in beat order, so that the first fault is
that of the lowest beat (R360, R371) (DEDUCED, log 26). -/
def execTranslationWalk (s : State) : Host.Outcome State Fault Refusal :=
  match s.req? s.pick.a with
  | some r =>
    match s.reqNeed r with
    | some n =>
      let behind := s.reqs.any fun q => q.elem = r.elem && q.group = r.group && q.beat < r.beat && q.phase = .sent
      if r.phase ≠ .sent || behind then .next s
      else
        match s.joinReplay r with
        | some t => .next t
        | none => .next (s.translateReq r n)
    | none => .next s
  | none => .next s

/-! ## Scratch order (R242) -/

/-- Whether a request is a scratch access. -/
def Req.scratch (r : Req) : Bool := r.space = 1 || r.space = 2
/-- Scratch accesses of one rule land and bind in beat order. -/
def State.beatOrder (s : State) (r : Req) : Bool :=
  !r.scratch || !s.reqs.any fun q => q.group = r.group && q.elem = r.elem && q.beat < r.beat && q.phase = .ready

/-! ## Binding (R131, R135) -/

/-- The bytes of a load as words: zero-extended, or the pair, or the block (R245, R248). -/
def loadWords (bs : List Byte) : List Word := wordsOfBytes bs

/-- The core whose L1 bank is bound to a range of the cluster that holds an address (R125). -/
def State.l1Bank (s : State) (cl va : Nat) : Option Nat :=
  (s.cores.find? fun k => coreCluster k.1 = cl && (match k.2.l1 with
    | some (b, n) => b ≤ va && va < b + n
    | none => false)).map (·.1)

/-- Whether a load may bind in an L1 line while the banks run read-only (R126, R246): in the bank of any core of the cluster
that is bound to the address, also for a core whose own binding was not made (DESIGN CHOICE, log 63). -/
def State.staleL1 (s : State) (r : Req) : Bool :=
  s.l1ReadOnly && r.kind = .load false && r.policy = 0 && !r.atHome && (s.l1Bank (elemCluster r.elem) r.va.toNat).isSome

/-- The bytes that a load of global memory binds. -/
def State.loadBytes (s : State) (r : Req) (k : Nat) : List Byte :=
  let cl := elemCluster r.elem
  let bs := s.bindAt cl k r.policy r.size
  if s.staleL1 r then (List.range r.size).map fun i => ((s.l1.find (copyKey cl (k + i))).map (·.val)).getD (bs.getD i 0)
  else bs

/-- The first poisoned byte that a load binds (R384). -/
def State.loadPoison (s : State) (r : Req) (k : Nat) : Option Nat :=
  s.placePoison (elemCluster r.elem) k r.policy r.size

/-- Lines of 64 bytes in an L1 bank of 32 KiB (R21). -/
def bankLines : Nat := 512
/-- The lines that a core's L1 bank holds. -/
def State.bankHolds (s : State) (bank : Nat) : List Nat :=
  ((s.l1.filter (·.2.bank == bank)).map fun c => c.1 / 64).eraseDups
/-- Room for a line in a bank: where 512 other lines fill it, one leaves (R21) (DESIGN CHOICE, log 30). -/
def State.makeL1Room (s : State) (bank line : Nat) : State :=
  let held := s.bankHolds bank
  if held.contains line || held.length < bankLines then s
  else { s with l1 := s.l1.filter fun c => some (c.1 / 64) != held[Config.victim s.tick % held.length]? }
/-- A bank takes the bytes of a line of 64 bytes that it does not hold yet from the cluster's copy (R21, R127). -/
def State.fillL1 (s : State) (cl bank sec : Nat) : State :=
  let s := s.makeL1Room bank (copyKey cl (sec * 64) / 64)
  { s with l1 := (List.range 64).foldl (fun m i =>
      let k := sec * 64 + i
      match m.find (copyKey cl k) with
      | some _ => m
      | none => m.put (copyKey cl k) ⟨s.clusterByte cl k, bank⟩) s.l1 }

/-- A read may fill a copy (R131), and in read-only mode a line of L1. -/
def State.fillAfter (s : State) (r : Req) (k : Nat) : State :=
  let cl := elemCluster r.elem
  if r.atHome then s
  else
    let s := ((touchedSectors k r.size).foldl (fun s sec => s.fillSector cl sec) s).noteLine cl k r.size r.policy
    match s.l1Bank cl r.va.toNat with
    | some bank => if s.staleL1 r then (touchedSectors k r.size).foldl (fun s sec => s.fillL1 cl bank sec) s else s
    | none => s

/-! ### The ordered bit (R139, R328, R376) -/

/-- The package that a peer key belongs to; none for local and host memory (R123). -/
def peerOf (k : Nat) : Option Nat := if keyKind k = 2 then some (k % 2 ^ 52 / 2 ^ 43) else none

/-- Whether an atomic runs at the home (R138). -/
def Req.homeUnit (r : Req) : Bool := r.atHome || r.scope.toNat ≥ 3
/-- Whether a request is an atomic. -/
def Req.isAmo (r : Req) : Bool :=
  match r.kind with
  | .amo _ _ => true
  | _ => false
/-- The sparse-update unit that an atomic reaches: its home slice's, or that of its cluster's L2 slice (R123, R138). -/
def Req.unit (r : Req) (k : Nat) : Nat × Nat :=
  if r.homeUnit then (0, sliceOf k) else (elemCluster r.elem + 1, k / 256 % 8)

/-- The package that a request's address leads to, where it has not been translated yet. -/
def State.ownerOf (s : State) (r : Req) : Option Nat :=
  match r.pa with
  | some k => peerOf k
  | none =>
    match s.reqNeed r with
    | some n =>
      match s.translateAt (elemCluster r.elem) (s.rootAt (elemCore r.elem)) r.va.toNat n with
      | .ok k _ => peerOf k
      | .bad _ _ => none
    | none => none

/-- The requests that one with the ordered bit stands behind: an atomic behind those that reached its unit before it
(R139), an access to a peer package behind those that its element fired before it to the same package (R328). -/
def State.aheadOf (s : State) (r : Req) : List Req :=
  match r.pa with
  | none => []
  | some k =>
    if !r.ordered then []
    else
      match peerOf k with
      | some p => s.reqs.filter fun q =>
          q.ordered && q.elem = r.elem && q.id < r.id && (q.phase = .sent || q.phase = .ready) && s.ownerOf q = some p
      | none => if !r.isAmo then [] else (s.reqs.takeWhile fun q => q.id != r.id).filter fun q =>
          q.ordered && q.isAmo && q.phase = .ready && (match q.pa with
            | some j => q.unit j = r.unit k
            | none => false)
/-- Whether a request may be applied, as far as the ordered bit goes. -/
def State.ordersOk (s : State) (r : Req) : Bool := (s.aheadOf r).isEmpty

/-! ### Bit errors (R383) -/

/-- A read meets a bit error: with `c` = 1 it is corrected and counted; with `c` = 2 it is uncorrectable, and the poison
unit of the byte at the key `j`, in the cluster's copy where that is read, is marked and counted (DEDUCED, log 48). -/
def State.byteError (s : State) (cl j : Nat) (home : Bool) : State :=
  if s.pick.c = 1 then s.countPreg 0x230
  else if s.pick.c = 2 then
    let s := s.noteUncorrectable (j % 2 ^ 52)
    if !home && (s.copyByte? cl j).isSome then { s with copyPoison := setAdd s.copyPoison (cl * 2 ^ 48 + sectorOf j) }
    else { s with poison := setAdd s.poison (sectorOf j) }
  else s
/-- The same for a scratchpad, whose unit is 8 bytes. -/
def State.scratchError (s : State) (j : Nat) : State :=
  if s.pick.c = 1 then s.countPreg 0x230
  else if s.pick.c = 2 then { s.countPreg 0x231 with scratchPoison := setAdd s.scratchPoison (j / 8) }
  else s
/-- Whether a request reads its place at the home: an uncached one, one of order repair, or a wide atomic (R138, R150). -/
def Req.readsHome (r : Req) : Bool :=
  r.atHome || (match r.kind with
    | .amo _ _ => r.homeUnit
    | .orcCtl _ _ => true
    | .orcOp _ _ => true
    | .orcLoad _ _ => true
    | _ => false)
/-- A bit error in the storage that a request reads, at the byte `b` of its place. -/
def State.softError (s : State) (r : Req) : State :=
  match r.pa with
  | none => s
  | some k =>
    if r.phase ≠ .ready then s
    else
      let j := k + min s.pick.b (r.size - 1)
      if r.scratch then s.scratchError j else s.byteError (elemCluster r.elem) j r.readsHome
/-- A bit error in the storage that an engine, an island or a copy firing reads: the first of `words` is 1 for one that is
corrected, and 2 for an uncorrectable one in the poison unit that the next two words name: a sector at the home, with
the fourth word 1 one of the copies of its cluster, with 2 an 8-byte unit of a scratchpad, with 3 a line of the node cache
of its cluster (DEDUCED, log 48). -/
def State.storageError (s : State) : State :=
  let w (i : Nat) : Word := s.pick.words.getD i 0
  let unit := (of64 (w 1) (w 2)).toNat
  if w 0 = 1 then s.countPreg 0x230
  else if w 0 = 2 then
    if w 3 = 0 then { s.noteUncorrectable (unit * 64 % 2 ^ 52) with poison := setAdd s.poison unit }
    else if w 3 = 1 then
      { s.noteUncorrectable (unit % 2 ^ 48 * 64 % 2 ^ 52) with copyPoison := setAdd s.copyPoison unit }
    else if w 3 = 3 then
      let cl := unit / 2 ^ 48
      (s.noteUncorrectable (unit % 2 ^ 48 * 64 % 2 ^ 52)).updCluster cl fun c =>
        { c with nodePoison := c.nodePoison.put (unit % 2 ^ 48) (s.clusterSteps cl) }
    else { s.countPreg 0x231 with scratchPoison := setAdd s.scratchPoison unit }
  else s

/-- A load of global memory binds. -/
def State.bindLoad (s : State) (r : Req) (k : Nat) : State :=
  if !s.acquireReady r || !s.ordersOk r then s
  else
    let s := s.acquire r
    match s.loadPoison r k with
    | some j => if s.beatBehind r then s else s.lateFault r 0x20 (r.va.toNat + (j - k))
    | none =>
      let bs := s.loadBytes r k
      let s := if s.pick.flag then s.fillAfter r k else s
      s.updReq r.id fun q => { q with phase := .answered, value := loadWords bs }

/-- A load of scratch binds at its bank (R136). -/
def State.bindScratch (s : State) (r : Req) (k : Nat) : State :=
  match s.scratchPoisoned k r.size with
  | some j => s.lateFault r 0x20 (r.va.toNat + (j - k))
  | none => s.updReq r.id fun q => { q with phase := .answered, value := loadWords (s.scratchRead k r.size) }

/-- A prefetch fills the sectors of its line (R249). -/
def State.bindPrefetch (s : State) (r : Req) (k : Nat) : State :=
  let cl := elemCluster r.elem
  let s := s.dropReq r.id
  if r.atHome then s
  else ((List.range 4).foldl (fun s i => s.fillSector cl (k / 256 * 4 + i)) s).noteLine cl k 1 r.policy

/-- `chain.put` is carried out (R264): a release, then the record read at its home, and the append. A record that does
not translate is a late fault. -/
def State.bindChainPut (s : State) (r : Req) (q : Nat) : State :=
  if !s.releaseReady r then s
  else
    let core := elemCore r.elem
    let s := s.release r
    match s.readPieces core r.va.toNat 256 >>= s.homePieces with
    | .error (c, a) => s.lateFault r c a
    | .ok bs =>
      let answer (s : State) (w : Word) : State := s.updReq r.id fun x => { x with phase := .answered, value := [w] }
      if fieldAt bs 0 2 ≠ 1 || byteAt bs 2 ≠ q then answer s 2
      else if s.lqFill q ≥ s.lqSize q then answer s 0
      else
        let t := s.lqTail q
        let s := s.lqPut q t bs
        answer (s.setPreg (0x300 + q) (BitVec.ofNat 32 ((t + 1) % (2 * s.lqSize q)))) 1

/-! ## Landing (R131, R134, R136, R137) -/

/-- The bytes that a store lands (R245, R248). -/
def Req.storeBytes (r : Req) : List Byte := (bytesOfWords r.ops).take r.size

/-- Whether a place among n bytes lies in a pinned line of the cluster. -/
def State.pinnedPlace (s : State) (cl k n : Nat) : Bool := (touchedSectors k n).any fun sec => s.isPinned cl sec

/-- A store lands once (R131): at once at scratch, else in the copy or at the home, after the work of a release; not
in a pinned line. -/
def State.landStore (s : State) (r : Req) (k : Nat) : State :=
  let cl := elemCluster r.elem
  if r.scratch then (s.scratchWrite k r.storeBytes).dropReq r.id
  else if !s.releaseReady r || !s.ordersOk r || s.pinnedPlace cl k r.size then s
  else
    let s := (s.release r).landAt cl k r.policy r.storeBytes
    if r.atHome then s.dropReq r.id else s.updReq r.id fun q => { q with phase := .landed }

/-! ## Atomics (R138 to R140, R251, R252) -/

/-- A value of 32 or 64 bits as a signed number. -/
def signedOf (w64 : Bool) (x : Nat) : Int := if w64 then (BitVec.ofNat 64 x).toInt else (BitVec.ofNat 32 x).toInt

/-- The new value of an atomic's word (R251, R252): `x` the old value, `ws` the operand words. -/
def AmoOp.apply (op : AmoOp) (w64 : Bool) (x : Nat) (ws : List Word) : Nat :=
  let f := if w64 then fp64 else fp32
  let m := if w64 then 2 ^ 64 else 2 ^ 32
  let at_ (i : Nat) : Nat :=
    if w64 then (of64 (ws.getD (2 * i) 0) (ws.getD (2 * i + 1) 0)).toNat else (ws.getD i 0).toNat
  let v := at_ 0
  match op with
  | .add => (x + v) % m
  | .sub => (x + m - v) % m
  | .min => if signedOf w64 v < signedOf w64 x then v else x
  | .max => if signedOf w64 x < signedOf w64 v then v else x
  | .and => x &&& v
  | .or => x ||| v
  | .xor => x ^^^ v
  | .swap => v
  | .cas => if x = v then at_ 1 else x
  | .inc => (x + 1) % m
  | .fmin => f.min x v
  | .fmax => f.max x v
  | .fadd => f.add x v
  | .vmin64 => if v < x then v else x

/-- The first poisoned byte that an atomic takes: of its word at the home, behind the dirty bytes of the cluster's copy, or
of the copy (R138, R384). -/
def State.amoPoison (s : State) (r : Req) (k : Nat) : Option Nat :=
  if r.homeUnit then
    let t := s.writeBack (elemCluster r.elem) (sectorOf k)
    ((List.range r.size).map (k + ·)).find? fun j => t.poison.contains (sectorOf j)
  else s.loadPoison r k

/-- An atomic is applied as one read-modify-write (R138); one that overlaps a bound word changes nothing, returns the
tentative value and counts as an arrival there (R151). -/
def State.applyAmo (s : State) (r : Req) (op : AmoOp) (w64 : Bool) (k : Nat) : State :=
  let cl := elemCluster r.elem
  if !s.releaseReady r || !s.acquireReady r || !s.ordersOk r || s.pinnedPlace cl k r.size then s
  else
    let s := (s.release r).acquire r
    match s.amoPoison r k with
    | some j => if s.beatBehind r then s else s.lateFault r 0x20 (r.va.toNat + (j - k))
    | none =>
      let answer (s : State) (old : Nat) : State :=
        let ws := if w64 then wordsOf64 (BitVec.ofNat 64 old) else [BitVec.ofNat 32 old]
        let at_ := if r.homeUnit then .answered else .landed
        if r.dst = .none then
          if r.homeUnit then s.dropReq r.id else s.updReq r.id fun q => { q with phase := .landed }
        else s.updReq r.id fun q => { q with phase := at_, value := ws }
      if !(s.overlapped k r.size).isEmpty then
        answer ((s.overlapped k r.size).foldl State.countDiscard s) (s.boundValue k r.size)
      else if r.homeUnit then
        let s := (s.writeBack cl (sectorOf k)).dropL2 cl fun j => k ≤ j && j < k + r.size
        let old := natOfBytes (s.homeRead k r.size)
        answer (s.landHome cl k (bytesOfNat r.size (op.apply w64 old r.ops))) old
      else
        let old := natOfBytes (s.clusterRead cl k r.size)
        answer ((s.landCopy cl k (bytesOfNat r.size (op.apply w64 old r.ops))).noteLine cl k r.size r.policy) old

/-- `ATOMIC_APPLY` (R138): the atomic `a`. -/
def execAtomicApply (s : State) : Host.Outcome State Fault Refusal :=
  match s.req? s.pick.a with
  | some r =>
    match r.kind, r.pa with
    | .amo op w64, some k => if r.phase = .ready then .next ((s.softError r).applyAmo r op w64 k) else .next s
    | _, _ => .next s
  | none => .next s

/-! ## Done tokens (R132, R243) -/

/-- Whether beats of a firing still have to run. -/
def State.beatsLeft (s : State) (d : Done) : Bool :=
  match (s.elem d.elem).beat with
  | some b => b.group = d.group && !b.spent
  | none => false

/-- `DONE_TOKEN_EMIT` (R132): the token of the firing `a`, once every access of it is performed at its scope; an access
that waits as a replay entry is not (R360). -/
def execDoneTokenEmit (s : State) : Host.Outcome State Fault Refusal :=
  match s.dones.find? (·.group == s.pick.a) with
  | some d =>
    let open_ := s.reqs.any fun r => r.elem = d.elem && r.group = d.group && !s.performedAt r d.scope
    let faulted := s.replayed.any fun r => r.elem = d.elem && r.group = d.group
    if s.beatsLeft d || open_ || faulted then .next s
    else .next (({ s with dones := s.dones.filter (· != d) }.fillSlot d.elem d.ch d.hole 0 none).prune)
  | none => .next s

/-! ## Freedoms of copies (R130) -/

/-- `COPY_EVICT` (R130): a clean sector `b` of the cluster `a`. -/
def execCopyEvict (s : State) : Host.Outcome State Fault Refusal :=
  let cl := s.pick.a
  let sec := s.pick.b
  if (s.sectorCopy cl sec).any (·.2.dirty) then .next s
  else .next (s.dropClean cl fun k => sectorOf k = sec)

/-- `COPY_WRITE_BACK` (R130): the dirty bytes of a sector `b` of the cluster `a` go home. -/
def execCopyWriteBack (s : State) : Host.Outcome State Fault Refusal :=
  .next (s.writeBack s.pick.a s.pick.b).prune

/-- The place that a chain's tables map an address to for a cluster, and the policy, where it may be held in L2: policy 0 or 1, and no
peer's memory (R127, R128). -/
def State.cacheable (s : State) (cl ident va : Nat) : Option (Nat × BitVec 2) :=
  match s.chain? ident with
  | none => none
  | some c =>
    match s.translateAt cl c.root va ⟨false, false, false, true⟩ with
    | .ok k policy => if atHome k policy then none else some (k, policy)
    | .bad _ _ => none

/-- A fill that meets an uncorrectable error at the home: the sector is marked and counted (R383). -/
def State.fillError (s : State) (cl sec : Nat) : State :=
  if (s.sectorCopy cl sec).length ≥ 64 then s
  else { s.noteUncorrectable (sec * 64 % 2 ^ 52) with poison := setAdd s.poison sec }

/-- `COPY_FILL` (R130): the absent bytes of the sector that the address `c` of the chain `b` names, in the cluster `a`
(DEDUCED, log 30); with the flag set it meets an uncorrectable error (R383, log 48). -/
def execCopyFill (s : State) : Host.Outcome State Fault Refusal :=
  let cl := s.pick.a
  match s.cacheable cl s.pick.b s.pick.c with
  | some (k, policy) =>
    .next (((if s.pick.flag then s.fillError cl (sectorOf k) else s).fillSector cl (sectorOf k)).noteLine cl k 1 policy)
  | none => .next s

/-! ## Stream ports (R247) -/

/-- `PORT_ACCESS_COMPLETE` (R247): the port access `a`, once its port has a word or a free entry; it takes no word of a link
(R351). -/
def execPortAccessComplete (s : State) : Host.Outcome State Fault Refusal :=
  match s.req? s.pick.a with
  | some r =>
    let cl := elemCluster r.elem
    let port := r.va.toNat
    let q := (s.cluster cl).ports.getD port []
    if r.space ≠ 3 || r.phase ≠ .waiting || s.portLinked cl port (r.kind != .store) then .next s
    else
      match r.kind, q with
      | .load _, w :: ws =>
        let s := s.updCluster cl fun c => { c with ports := c.ports.setIfInBounds port ws }
        .next (s.updReq r.id fun x => { x with phase := .answered, value := [w.word] })
      | .store, _ =>
        if q.length < 16 then
          let s := s.updCluster cl fun c => { c with ports := c.ports.setIfInBounds port (q ++ [⟨r.ops.getD 0 0, 0, 0⟩]) }
          .next (s.dropReq r.id)
        else .next s
      | _, _ => .next s
  | none => .next s

end Sys2Proof.Machine
end

