-- ==== Sys2Proof/Machine/Ports.lean ====
section
/-!
DEFINITION. The stream ports of a cluster (R247, R351, R399) and the queue pairs that bind some of them (R330, R396):
which queue a firing reads and which it fills.
-/
namespace Sys2Proof.Machine

/-! ## Queue pairs (R330) -/

/-- The key of a queue pair's table entry. -/
def State.qpEntry (s : State) (qp : Nat) : Nat :=
  physKey 0 (((s.preg 0x3F1).toNat * 2 ^ 32 + (s.preg 0x3F0).toNat + 256 * qp) % 2 ^ 43)
/-- The entry's bytes. -/
def State.qpBytes (s : State) (qp : Nat) : List Byte := s.homeRead (s.qpEntry qp) 256
/-- Stores a field of an entry. -/
def State.qpWrite (s : State) (qp off n v : Nat) : State := s.writeHome (s.qpEntry qp + off) (bytesOfNat n v)
/-- The device's side of a queue pair. -/
def State.qp (s : State) (qp : Nat) : Qp := (s.qps.find qp).getD default
/-- Changes it. -/
def State.updQp (s : State) (qp : Nat) (f : Qp → Qp) : State := { s with qps := s.qps.put qp (f (s.qp qp)) }
/-- Queue pairs of the table. -/
def State.qpCount (s : State) : Nat := bitsOf (s.preg 0x3F2) 0 13
/-- Whether a queue pair exists. -/
def State.qpExists (s : State) (qp : Nat) : Bool := qp < s.qpCount && s.started
/-- Whether a queue pair runs: it is valid, not in error, and the device has not stopped it. The reserved fields of its
entry are not looked at (DESIGN CHOICE, log 36). -/
def State.qpRuns (s : State) (qp : Nat) : Bool :=
  s.qpExists qp && (byteAt (s.qpBytes qp) 0) % 4 = 1 && !(s.qp qp).stopped
/-- The cluster and port of a queue pair. -/
def State.qpPort (s : State) (qp : Nat) : Nat × Nat := (byteAt (s.qpBytes qp) 2, byteAt (s.qpBytes qp) 3)
/-- Whether a valid queue pair is bound to a port, in error or not. -/
def State.ethPort (s : State) (cl n : Nat) : Bool :=
  24 ≤ n && (List.range s.qpCount).any fun qp =>
    s.qpExists qp && (byteAt (s.qpBytes qp) 0).testBit 0 && s.qpPort qp = (cl, n)

/-! ## Queues of a port -/

/-- The words that stand at a port. -/
def State.portWords (s : State) (cl n : Nat) : List ChanWord := (s.cluster cl).ports.getD n []
/-- Replaces the words at a port. -/
def State.setPort (s : State) (cl n : Nat) (ws : List ChanWord) : State :=
  s.updCluster cl fun c => { c with ports := c.ports.setIfInBounds n ws }
/-- The head word of a port is taken; a link into the port gets its slot back. -/
def State.takePort (s : State) (cl n : Nat) : State :=
  (s.setPort cl n ((s.portWords cl n).drop 1)).freeSlots (.port cl n) 1

/-- Whether a port starts a link or gives its words to an element's loads: it then serves that alone (R247, R351). -/
def State.portServes (s : State) (cl n : Nat) : Bool :=
  (s.linkFrom (.port cl n)).isSome || s.binds.any fun b => b.cluster = cl && b.port = n && b.inbound
/-- Whether a port accepts words that templates push: it starts a link or an inbound binding, or a queue pair is bound
to it (R330, R351). -/
def State.portOpen (s : State) (cl n : Nat) : Bool := s.portServes cl n || s.ethPort cl n

/-- The words that a queue pair has received for a port (R330). -/
def State.recvWords (s : State) (cl n : Nat) : List ChanWord := (s.cluster cl).recv.getD n []
/-- Replaces them. -/
def State.setRecv (s : State) (cl n : Nat) (ws : List ChanWord) : State :=
  s.updCluster cl fun c => { c with recv := c.recv.setIfInBounds n ws }

/-- The words that a template reads from a port: those received where a queue pair is bound to it, never those of a port
that serves a link or a binding (R330, R351, R399). -/
def State.sourceWords (s : State) (cl n : Nat) : List ChanWord :=
  if s.portServes cl n then [] else if s.ethPort cl n then s.recvWords cl n else s.portWords cl n
/-- A template takes the first of them. -/
def State.takeSource (s : State) (cl n : Nat) : State :=
  if s.ethPort cl n then s.setRecv cl n ((s.recvWords cl n).drop 1) else s.takePort cl n

end Sys2Proof.Machine
end

