-- ==== Sys2Proof/Machine/CopyEngine.lean ====
section
/-!
DEFINITION. The copy engine (R141 to R143, R156, R267 to R277, R326, R380, R388, R389): triggers, firings piece by
piece, their completion and publication, and cairns. A firing moves its range in ascending order, in pieces of at most
256 bytes (DESIGN CHOICE, log 11).
-/
namespace Sys2Proof.Machine

/-! ## Places of a copy -/

/-- The scratch key of a cluster-scratch address of a core's template, rebased (R87); none beyond the scratchpads. -/
def State.copyScratch (s : State) (core a : Nat) : Option Nat :=
  let b := s.rebase core a
  if b < 2 ^ 23 then some (scratchKey (coreCluster core) b) else none

/-- The offsets of poisoned bytes of a virtual range, piece by piece. -/
def State.badGlobal (s : State) (cl : Nat) : List Piece → Nat → List Nat
  | [], _ => []
  | p :: ps, off =>
    ((List.range p.len).filter fun i =>
      if atHome p.key p.policy then s.poison.contains (sectorOf (p.key + i))
      else (s.poisonedByte cl (p.key + i) 1).isSome).map (off + ·) ++ s.badGlobal cl ps (off + p.len)

/-- n bytes of a source of a kind with the offsets of poisoned ones, or a fault's code and address. -/
def State.readPlace (s : State) (core kind a n : Nat) : Except (Nat × Nat) (List Byte × List Nat) :=
  if kind = 0 then
    match s.readPieces core a n with
    | .error e => .error e
    | .ok ps => .ok (ps.flatMap fun p => s.bindAt (coreCluster core) p.key p.policy p.len,
        s.badGlobal (coreCluster core) ps 0)
  else
    match s.copyScratch core a, s.copyScratch core (a + n - 1) with
    | some k, some _ =>
      .ok (s.scratchRead k n, (List.range n).filter fun i => s.scratchPoison.contains ((k + i) / 8))
    | _, _ => .error (0x13, a)

/-- Marks the poison units of copied bytes whose source was poisoned (R384). -/
def State.markPieces (s : State) (cl : Nat) (bad : List Nat) : List Piece → Nat → State
  | [], _ => s
  | p :: ps, off =>
    let secs := ((bad.filter fun i => off ≤ i && i < off + p.len).map fun i => sectorOf (p.key + (i - off))).eraseDups
    let s := if atHome p.key p.policy then { s with poison := secs.foldl setAdd s.poison }
      else { s with copyPoison := secs.foldl (fun l sec => setAdd l (cl * 2 ^ 48 + sec)) s.copyPoison }
    s.markPieces cl bad ps (off + p.len)

/-- The old page and shadow page of a byte of a destination, if its page is published (R141). -/
def Firing.shadowOf (f : Firing) (a : Nat) : Option Nat := (f.pages.find? fun p => p.1 = a / 65536).map (·.2)

/-- Whether an address is mapped by a leaf of 512 MiB or 4 TiB (R120, R141). -/
def State.largePage (s : State) (core va : Nat) : Bool :=
  match s.walkTable (s.rootAt core) va with
  | some (_, bits) => bits ≠ 16
  | none => false

/-- Bytes land in one page of a global destination: in its shadow page at the home, else as any write of the cluster
(R141, R270), followed until they are home; a page that does not map, or forbids the write, is a fault in either case (R122).
None where a line is pinned and the landing waits. -/
def State.writePage (s : State) (core ct : Nat) (f : Firing) (a : Nat) (bs : List Byte) (bad : List Nat) :
    Except (Nat × Nat) (Option State) :=
  let cl := coreCluster core
  match f.shadowOf a with
  | some page =>
    match s.writePieces core a bs.length with
    | .error e => .error e
    | .ok _ =>
      if s.largePage core a then .error (0x40, a / 65536 * 65536)
      else
        let k := physKey 0 (page + a % 65536)
        let s := s.writeHome k bs
        .ok (some { s with poison := (bad.map fun i => sectorOf (k + i)).foldl setAdd s.poison })
  | none =>
    match s.writePieces core a bs.length with
    | .error e => .error e
    | .ok ps =>
      if ps.any fun p => s.pinnedPiece cl p then .ok none
      else
        let s := (s.landPieces cl ps bs).markPieces cl bad ps 0
        .ok (some (ps.foldl (fun s p => s.noteWritten core (s.copyMark core ct) ct p.key p.len) s))
/-- Bytes land at a global destination page by page, with the pages that a publish replaces each in its own shadow page
(R141); all of them or none. -/
def State.writeGlobalFuel (s : State) (core ct : Nat) (f : Firing) :
    Nat → Nat → List Byte → List Nat → Except (Nat × Nat) (Option State)
  | 0, _, _, _ => .ok (some s)
  | fuel + 1, a, bs, bad =>
    if bs = [] then .ok (some s)
    else
      let m := 65536 - a % 65536
      match s.writePage core ct f a (bs.take m) (bad.filter (· < m)) with
      | .error e => .error e
      | .ok none => .ok none
      | .ok (some t) => t.writeGlobalFuel core ct f fuel (a + m) (bs.drop m) ((bad.filter (· ≥ m)).map (· - m))
/-- Bytes land at a global destination. -/
def State.writeGlobal (s : State) (core ct : Nat) (f : Firing) (a : Nat) (bs : List Byte) (bad : List Nat) :
    Except (Nat × Nat) (Option State) :=
  s.writeGlobalFuel core ct f (bs.length / 65536 + 2) a bs bad

/-- Bytes land in scratch at a key. -/
def State.writeScratch (s : State) (k : Nat) (bs : List Byte) (bad : List Nat) : State :=
  let s := s.scratchWrite k bs
  { s with scratchPoison := (bad.map fun i => (k + i) / 8).foldl setAdd s.scratchPoison }

/-- A landing of b bytes in a core's scratchpad is noted at its cairn (R277). -/
def State.noteCairn (s : State) (core ca b : Nat) : State :=
  if ca < 32 then s.updCa core ca fun c => { c with landed := c.landed ++ [b] } else s

/-- The cores that a peer mask names, rebased (R87, R271). -/
def State.maskCores (s : State) (core mask : Nat) : List Nat :=
  let cl := coreCluster core
  ((List.range 64).filter fun i => mask.testBit i).map fun i =>
    match s.spurAt core with
    | some p => cl * 64 + p.rebaseCore i
    | none => cl * 64 + i

/-- Bytes land in scratch at a destination: in the core that the address names, or in every core of a peer mask
(R271). Also the bytes written. -/
def State.landScratch (s : State) (core : Nat) (b : List Byte) (a : Nat) (bs : List Byte) (bad : List Nat) :
    Except (Nat × Nat) (State × Nat) :=
  let mask := if tbKind b ≤ 1 then tbFieldA b else 0
  if mask = 0 then
    match s.copyScratch core a, s.copyScratch core (a + bs.length - 1) with
    | some k, some _ =>
      .ok ((s.writeScratch k bs bad).noteCairn (k / 2 ^ 17) (tbCairn b) bs.length, bs.length)
    | _, _ => .error (0x13, a)
  else if tbDst b % 2 ^ 17 + (a - tbDst b) + bs.length > 2 ^ 17 then .error (0x13, a)
  else
    let off := tbDst b % 2 ^ 17 + (a - tbDst b)
    let cores := s.maskCores core mask
    .ok (cores.foldl (fun s c =>
      (s.writeScratch (c * 2 ^ 17 + off) bs bad).noteCairn c (tbCairn b) bs.length) s, bs.length * cores.length)

/-! ## Changing a firing -/

/-- Changes the firing of a template. -/
def State.updFiring (s : State) (core ct : Nat) (g : Firing → Firing) : State :=
  s.updCt core ct fun t => { t with firing := t.firing.map g }

/-- Writes of a core's engine that no later step of it waits for: pieces of a pinned line are held at the slice as
requests of its `e0` and land at the unpin (R137). -/
def State.postWrite (s : State) (core va : Nat) (bs : List Byte) (scope : BitVec 3) : State :=
  match s.writePieces core va bs.length with
  | .error _ => s
  | .ok ps =>
    if (s.peerLost core va bs.length).isSome then s.lostWrite core va bs scope
    else if ps.any fun p => s.pinnedPiece (coreCluster core) p then
      match ps with
      | p :: _ => s.addReq { (default : Req) with
          elem := coreE0 core
          kind := .storeBlock
          va := BitVec.ofNat 64 va
          pa := some p.key
          policy := p.policy
          atHome := atHome p.key p.policy
          size := bs.length
          ops := wordsOfBytes bs
          phase := .ready }
      | [] => s
    else
      match s.engWrite core va bs scope with
      | .ok s => s
      | .error _ => s

/-- A fault of a firing (R380): it stops at the access that faulted, a record of status 2 is written where it can be,
and the fault record names the template. What it had read of storage is read again at a resume, with the index chunk;
words taken from a port stay, as does a word of a plane stream, whose place the firing has passed. -/
def State.firingFault (s : State) (core ct : Nat) (f : Firing) (code addr : Nat) (record : Bool) : State :=
  let t := (s.core core).template ct
  let s := s.updFiring core ct fun f =>
    let f := { f with faulted := true, index := [] }
    if tbSrcKind t.block = 2 || tbKind t.block = 4 then f else { f with buf := [], bad := [], tags := [] }
  let bytes := copyRecord 2 f.n f.written 0 f.outOfRange f.skipped 0 s.timeNs.toNat
  let s :=
    if !record || tbRec t.block = 0 then s else s.postWrite core (tbRec t.block) bytes (tbScope t.block)
  s.unitFault core (0x80 + ct) code addr

/-! ## Triggers (R267, R268) -/

/-- `EVENT_CHANNEL_PLACE` (R267): the waiting word `b` of the core `a`, the first of its source, is placed when its
channel has a free entry. -/
def execEventChannelPlace (s : State) : Host.Outcome State Fault Refusal :=
  let core := s.pick.a
  let es := (s.core core).events
  match es[s.pick.b]? with
  | some (src, ch, tag) =>
    let k := coreE0 core
    let first := (es.take s.pick.b).all fun e => e.1 != src
    let words := (s.elem k).chan ch.toNat
    if !first || words.length ≥ 16 then .next s
    else
      let s := s.updCore core fun c => { c with events := c.events.eraseIdx s.pick.b }
      .next (s.updElem k fun e => e.setChan ch.toNat (words ++ [⟨0, tag, e.window⟩]))
  | none => .next s

/-- Whether the templates of a core take triggers: its spur runs, or has halted and completes what it issued (R75). -/
def State.copiesRun (s : State) (core : Nat) : Bool :=
  s.running core || (!s.heldAt core && (match s.spurAt core, s.chainAt core with
    | some p, some c => p.phase = .halted && c.phase = .started
    | _, _ => false))
/-- `TEMPLATE_TRIGGER_ACCEPT` (R267, R268): the template `b` of the core `a` takes the trigger word at the head of its
channel. -/
def execTemplateTriggerAccept (s : State) : Host.Outcome State Fault Refusal :=
  let core := s.pick.a
  let t := (s.core core).template s.pick.b
  let k := coreE0 core
  match (s.elem k).chan (tbChan t.block) with
  | w :: _ =>
    if t.state = 0 || s.pick.b ≥ 32 || w.tag ≠ tbTag t.block || t.queued ≥ 65535 || !s.copiesRun core then .next s
    else .next ((s.popWords k (tbChan t.block) 1).updCt core s.pick.b fun t => { t with queued := t.queued + 1 })
  | [] => .next s

/-! ## Start of a firing (R141, R268, R270, R326) -/

/-- The first byte and length of a firing's contiguous destination. -/
def tbDstRange (b : List Byte) (n : Nat) : Nat × Nat := (tbDst b + tbOffset b n, tbTotal b)

/-- The destination ranges of a firing in ascending address order, each byte once (R156): of a strided copy its rows, of
a scatter the whole table (DESIGN CHOICE, log 11). -/
def dstRanges (b : List Byte) (n : Nat) : List (Nat × Nat) :=
  match tbKind b with
  | 1 =>
    let row := fieldAt b 0x30 4
    let rows := fieldAt b 0x34 4
    let step := fieldAt b 0x3C 4
    if step ≤ row then [(tbDst b, (rows - 1) * step + row)]
    else (List.range rows).map fun i => (tbDst b + i * step, row)
  | 3 => [(tbDst b, fieldAt b 0x38 4 * fieldAt b 0x24 2)]
  | _ => [tbDstRange b n]

/-- The whole pages that a firing replaces by shadow pages (R141): those that its writes cover. A scatter replaces none, and
writes every entry in place (DESIGN CHOICE, log 12). -/
def wholePages (b : List Byte) (n : Nat) : List Nat :=
  if !tbFlag b 1 || tbKind b = 3 then []
  else (dstRanges b n).flatMap fun x =>
    (List.range ((x.1 + x.2) / 65536 - (x.1 + 65535) / 65536)).map fun i => (x.1 + 65535) / 65536 + i

/-- The registers of a massif's shadow pool: base words, size and free count (R326). -/
def poolReg (massif i : Nat) : Nat := 0x2B0 + 4 * massif + i
/-- The key of entry i of a massif's shadow pool. -/
def State.poolEntry (s : State) (massif i : Nat) : Nat :=
  physKey 0 (((s.preg (poolReg massif 1)).toNat * 2 ^ 32 + (s.preg (poolReg massif 0)).toNat + 8 * i) % 2 ^ 43)
/-- The free count of a massif's pool. -/
def State.poolFree (s : State) (massif : Nat) : Nat := (s.preg (poolReg massif 3)).toNat
/-- Takes n pages, the last free entries of the array (DESIGN CHOICE, log 12). -/
def State.takePages (s : State) (massif n : Nat) : State × List Nat :=
  let free := s.poolFree massif
  let ps := (List.range n).map fun i =>
    natOfBytes (s.homeRead (s.poolEntry massif (free - 1 - i)) 8) / 65536 % 2 ^ 27 * 65536
  (s.setPreg (poolReg massif 3) (BitVec.ofNat 32 (free - n)), ps)

/-- The ranges that a firing's acquire covers: its global source with a plane's map, and the index list (R270, R274). -/
def sourceRanges (b : List Byte) (n : Nat) : List (Nat × Nat) :=
  let src := tbSrc b
  let list := if tbKind b = 2 || tbKind b = 3 then [(fieldAt b 0x30 8, tbLen b / fieldAt b 0x24 2 * 4)] else []
  let map :=
    if tbKind b = 4 && (psMode b).testBit 7 && tbFieldA b ≠ 0 then
      [(tbFieldA b, (psSegs b * fieldAt b 0x32 2 + 7) / 8)]
    else []
  let body :=
    if tbSrcKind b ≠ 0 then []
    else match tbKind b with
      | 1 => (List.range (fieldAt b 0x34 4)).map fun i => (src + i * fieldAt b 0x38 4, fieldAt b 0x30 4)
      | 2 => [(src, fieldAt b 0x38 4 * fieldAt b 0x24 2)]
      | 4 =>
        let rows := fieldAt b 0x34 2 * fieldAt b 0x32 2
        [(src, rows * byteAt b 0x36), (src + tbLen b, rows)]
      | _ => [(src + tbOffset b n, tbTotal b)]
  body ++ map ++ list

/-- Whether the clean copies that an acquire of a range drops include pinned ones, so that it waits (R137). -/
def State.pinnedRange (s : State) (core va len : Nat) : Bool :=
  (s.pagePieces core (s.readNeed core) va len).any fun p => s.copies.any fun c =>
      c.1 / 2 ^ 54 = coreCluster core && !c.2.dirty && p.key ≤ c.1 % 2 ^ 54 && c.1 % 2 ^ 54 < p.key + p.len
        && s.isPinned (coreCluster core) (sectorOf (c.1 % 2 ^ 54))

/-- A firing starts: its number, its request, its acquire at massif scope or wider, its pages (R268, R270). -/
def State.startFiring (s : State) (core ct : Nat) (pages : List (Nat × Nat)) : State :=
  let t := (s.core core).template ct
  let b := t.block
  let id := s.nextId
  let f : Firing := { (default : Firing) with n := t.nextN, req := id, pages := pages, ended := tbMoved b = 0 }
  let s := s.bump.updCt core ct fun t => { t with queued := t.queued - 1, nextN := t.nextN + 1, firing := some f }
  let r : Req := { (default : Req) with id := id, group := id, elem := coreE0 core, kind := .copy core ct }
  let s := { s with reqs := s.reqs ++ [r] }
  let s := if (tbScope b).toNat ≥ 3 then
      (sourceRanges b f.n).foldl (fun s x => s.dropRange core x.1 x.2) s else s
  if tbFlag b 2 then s.updElem (coreE0 core) (·.setPend (tbReg b) true) else s

/-- A firing that cannot start faults, and is tried again at a resume (R141, R326). -/
def State.refuseFiring (s : State) (core ct code addr : Nat) : State :=
  let t := (s.core core).template ct
  s.firingFault core ct { (default : Firing) with n := t.nextN } code addr true

/-- `COPY_FIRING_START` (R270): of the template `b` of the core `a`, when a trigger is queued, none is in flight, no
`ct.stop` is under way (R276), and its shadow pages are free. -/
def execCopyFiringStart (s : State) : Host.Outcome State Fault Refusal :=
  let core := s.pick.a
  let ct := s.pick.b
  let t := (s.core core).template ct
  if t.state ≠ 1 || t.queued = 0 || t.firing.isSome || t.stopping || ct ≥ 32 || s.heldAt core || (s.spurAt core).isNone then
    .next s
  else
    let massif := coreCluster core / 24
    let pages := wholePages t.block t.nextN
    let waits := (tbScope t.block).toNat ≥ 3 && (sourceRanges t.block t.nextN).any fun x => s.pinnedRange core x.1 x.2
    match pages.find? fun p => s.largePage core (p * 65536) with
    | some p => .next (s.refuseFiring core ct 0x40 (p * 65536))
    | none =>
      if pages.length > (s.preg (poolReg massif 2)).toNat then .next (s.refuseFiring core ct 0x40 0)
      else if waits || pages.length > s.poolFree massif then .next s
      else
        let (s, ps) := s.takePages massif pages.length
        .next (s.startFiring core ct (pages.zip ps))

/-! ## Reading a piece -/

/-- What the next read of a firing brings: bytes with poisoned offsets, words with tags, an index chunk, a skipped or
filled entry, the end of the source, a fault, or nothing yet. -/
inductive Fetch where
  | bytes (bs : List Byte) (bad : List Nat)
  | words (bs : List Byte) (tags : List Tag) (last : Bool)
  | indices (ws : List Word)
  | skip (counted : Bool)
  | fill (bs : List Byte)
  | granule (bs : List Byte) (tags : List Tag) (mapBit : Bool) (mapRow : List Byte) (pos : Nat) (skipped : Nat)
  | fault (code addr : Nat)
  | wait
  deriving DecidableEq, Repr

/-- The length of the next piece at an address: up to the next 256-byte boundary, so that no piece crosses a boundary at
which a firing parks (R77); from a port one word. -/
def pieceLen (kind a left : Nat) : Nat := if kind = 2 then min 4 left else min (256 - a % 256) left

/-- A piece of a source as a fetch; a poisoned byte on its way to a stream port raises 0x20, and one on its way to a
shadow page does so before anything is published (R142, R384). A chunk of an exchange carries the mark. -/
def State.fetchPlace (s : State) (core : Nat) (b : List Byte) (a n : Nat) : Fetch :=
  match s.readPlace core (tbSrcKind b) a n with
  | .error (c, x) => .fault c x
  | .ok (bs, bad) =>
    match bad with
    | i :: _ =>
      if tbKind b ≠ 5 && (tbDstKind b = 2 || tbFlag b 1) then .fault 0x20 (a + i) else .bytes bs bad
    | [] => .bytes bs []

/-- The next word of an inbound port as a fetch, of which `left` bytes are still wanted. -/
def State.fetchPort (s : State) (core n left : Nat) (untilTag3 : Bool) : Fetch :=
  match s.sourceWords (coreCluster core) n with
  | w :: _ => .words ((bytesOfWord w.word).take left) [w.tag] (untilTag3 && w.tag = 3)
  | [] => .wait

/-- n bytes of a fill value, repeated (R272). -/
def fillBytes (v n : Nat) : List Byte := (List.range n).map fun i => BitVec.ofNat 8 (v / 256 ^ (i % 4))

/-- An entry from storage, or its words from a stream port in their order with their tags (DESIGN CHOICE, log 11). -/
def State.fetchItem (s : State) (core : Nat) (b : List Byte) (a n : Nat) : Fetch :=
  if tbSrcKind b = 2 then
    let ws := s.sourceWords (coreCluster core) (tbSrc b)
    if ws.length < (n + 3) / 4 then .wait
    else .words (((ws.take ((n + 3) / 4)).flatMap fun w => bytesOfWord w.word).take n)
      ((ws.take ((n + 3) / 4)).map (·.tag)) false
  else s.fetchPlace core b a n

/-- The address of the index chunk for the entry that a gather or scatter stands at (R272). -/
def Firing.listAddr (f : Firing) (b : List Byte) : Nat := fieldAt b 0x30 8 + 64 * (f.pos / fieldAt b 0x24 2 / 16)
/-- The address and length of what is left to read of that entry; none where its index names no place (R272, R273). -/
def Firing.entryRead (f : Firing) (b : List Byte) : Option (Nat × Nat) :=
  let e := fieldAt b 0x24 2
  let i := f.index.headD 0
  let o := f.pos % e
  if i = 0xFFFFFFFF#32 || decide (fieldAt b 0x38 4 ≤ i.toNat) then none
  else some (tbSrc b + (if tbKind b = 2 then i.toNat else f.pos / e) * e + o, e - o)

/-- The next read of a gather or scatter entry m (R272, R273). -/
def State.fetchEntry (s : State) (core : Nat) (b : List Byte) (f : Firing) : Fetch :=
  let e := fieldAt b 0x24 2
  let m := f.pos / e
  match f.index with
  | [] =>
    match s.engRead core (f.listAddr b) 64 with
    | .error (c, a) => .fault c a
    | .ok bs => .indices ((wordsOfBytes bs).drop (m % 16))
  | i :: _ =>
    let invalid := i = 0xFFFFFFFF#32
    match f.entryRead b with
    | some x => s.fetchItem core b x.1 x.2
    | none =>
      if !invalid && tbFlag b 3 then .fault 0x41 (fieldAt b 0x30 8 + 4 * m)
      else if tbKind b = 2 then .fill ((fillBytes (fieldAt b 0x20 4) e).drop (f.pos % e))
      else .skip (!invalid)

/-! ### Plane streams (R274) -/

/-- A coordinate brought into a plane of size n by a boundary policy; none where the constant applies. -/
def psWrap (policy n : Nat) (c : Int) : Option Nat :=
  if 0 ≤ c && c < (n : Int) then some c.toNat
  else
    match policy with
    | 0 => some (c % (n : Int)).toNat
    | 1 => some (max 0 (min c ((n : Int) - 1))).toNat
    | 3 => some (if c < 0 then -1 - c else 2 * (n : Int) - 1 - c).toNat
    | _ => none

/-- The address of the shifted site of a site word; none where the constant stands for it. -/
def psAddr (b : List Byte) (x y : Nat) : Option Nat :=
  let policy := psMode b / 16 % 4
  match psWrap policy (fieldAt b 0x30 2) ((x : Int) - sbyteAt b 0x38),
    psWrap policy (fieldAt b 0x32 2) ((y : Int) - sbyteAt b 0x39) with
  | some sx, some sy => some (tbSrc b + (sy * fieldAt b 0x34 2 + sx) * byteAt b 0x36)
  | _, _ => none
/-- The value of a site word: bytes of the shifted site, or the constant. -/
def State.psSite (s : State) (core : Nat) (b : List Byte) (x y : Nat) : Except (Nat × Nat) (List Byte) :=
  let site := byteAt b 0x36
  match psAddr b x y with
  | some a =>
    match s.readPlace core (tbSrcKind b) a site with
    | .error e => .error e
    | .ok (bs, []) => .ok (fitTo 4 0 bs)
    | .ok (_, i :: _) => .error (0x20, a + i)
  | none => .ok (fitTo 4 0 (bytesOfNat site (fieldAt b 0x3C 4)))
/-- The address of a site's class byte. -/
def psTagAddr (b : List Byte) (x y : Nat) : Nat := tbSrc b + tbLen b + y * fieldAt b 0x34 2 + x

/-- The tag of a site word: its class with interleave, else 0. -/
def State.psTag (s : State) (core : Nat) (b : List Byte) (x y : Nat) : Except (Nat × Nat) Tag :=
  if !(psMode b).testBit 6 then .ok 0
  else
    match s.readPlace core (tbSrcKind b) (psTagAddr b x y) 1 with
    | .error e => .error e
    | .ok (bs, []) => .ok (BitVec.ofNat 2 (byteAt bs 0))
    | .ok (_, _ :: _) => .error (0x20, psTagAddr b x y)

/-- Whether a plane stream reads an activity map. -/
def psMapped (b : List Byte) : Bool := (psMode b).testBit 7 && tbFieldA b ≠ 0
/-- The address and length of the map bytes of a granule's row. -/
def psRowRead (b : List Byte) (g : Nat) : Nat × Nat :=
  let segs := psSegs b
  let g0 := g / segs * segs
  (tbFieldA b + g0 / 8, (g0 + segs - 1) / 8 - g0 / 8 + 1)
/-- The map bytes of a row: read as a plain read before the row's first segment, kept for the rest of it (R274). -/
def State.psRow (s : State) (core : Nat) (b : List Byte) (f : Firing) (g : Nat) (i : Nat) :
    Except (Nat × Nat) (List Byte) :=
  if !psMapped b then .ok []
  else if g % psSegs b ≠ 0 || i ≠ 0 then .ok f.mapRow
  else s.engRead core (psRowRead b g).1 (psRowRead b g).2
/-- The map bit of a granule from the bytes of its row; the bit that the template state kept where it kept no more
(R84); 1 without a map or without skipping. -/
def psActive (b : List Byte) (f : Firing) (row : List Byte) (g i : Nat) : Bool :=
  let g0 := g / psSegs b * psSegs b
  if !psMapped b then true
  else if row = [] || i ≠ 0 then f.mapBit
  else (byteAt row (g / 8 - g0 / 8)).testBit (g % 8)

/-- The next word of a plane stream: `pos` is the granule times 2^32 and the next word in it. -/
def State.fetchPlane (s : State) (core : Nat) (b : List Byte) (f : Firing) : Fetch :=
  let g := f.pos / 2 ^ 32
  let i := f.pos % 2 ^ 32
  let segs := psSegs b
  let y := g / segs
  let x0 := g % segs * 2 ^ (psMode b % 8)
  let n := min (fieldAt b 0x30 2) (x0 + 2 ^ (psMode b % 8)) - x0
  let next := (g + 1) * 2 ^ 32
  match s.psRow core b f g i with
  | .error (c, a) => .fault c a
  | .ok row =>
    if !psActive b f row g i then
      .granule (bytesOfWord (if psHeader b then 0x80000000#32 else 0xFFFFFFFF#32)) [3] false row next 1
    else if psHeader b && i = 0 then .granule (bytesOfNat 4 n) [3] true row (g * 2 ^ 32 + 1) 0
    else
      let j := if psHeader b then i - 1 else i
      match s.psSite core b (x0 + j) y, s.psTag core b (x0 + j) y with
      | .error (c, a), _ => .fault c a
      | _, .error (c, a) => .fault c a
      | .ok bs, .ok t => .granule bs [t] true row (if j + 1 ≥ n then next else g * 2 ^ 32 + i + 1) 0

/-! ### The next read of a firing -/

/-- Whether a firing makes words of the bytes of its rows: a plain or strided copy from storage to a stream port, whose
words may begin at any byte (R271). -/
def tbMakesWords (b : List Byte) : Bool := tbKind b ≤ 1 && tbSrcKind b ≠ 2 && tbDstKind b = 2
/-- The length of the next piece of a plain or strided copy; one that makes words crosses the boundary with a whole word.
-/
def rowPiece (b : List Byte) (a left : Nat) : Nat :=
  if tbMakesWords b then min left (max 4 ((256 - a % 256) / 4 * 4)) else pieceLen (tbSrcKind b) a left
/-- The byte of the run that a firing reads next: behind those that it has read and not landed. -/
def Firing.readPos (f : Firing) : Nat := f.pos + f.buf.length

/-- The address and length of the next piece that a plain, strided or exchange firing reads. -/
def Firing.rowRead (f : Firing) (b : List Byte) : Nat × Nat :=
  match tbKind b with
  | 0 =>
    let a := tbSrc b + tbOffset b f.n + f.readPos
    (a, rowPiece b a (tbTotal b - f.readPos))
  | 1 =>
    let row := fieldAt b 0x30 4
    let a := tbSrc b + f.readPos / row * fieldAt b 0x38 4 + f.readPos % row
    (a, min (row - f.readPos % row) (rowPiece b a (tbTotal b - f.readPos)))
  | _ =>
    let a := tbSrc b + f.readPos
    (a, pieceLen (tbSrcKind b) a (fieldAt b 0x30 4 - f.buf.length))

/-- What the next read of a firing brings. -/
def State.fetchNext (s : State) (core : Nat) (b : List Byte) (f : Firing) : Fetch :=
  match tbKind b with
  | 0 =>
    if tbSrcKind b = 2 then s.fetchPort core (tbSrc b) (tbTotal b - f.readPos) (tbDstKind b ≠ 2)
    else s.fetchPlace core b (f.rowRead b).1 (f.rowRead b).2
  | 1 =>
    if tbSrcKind b = 2 then s.fetchPort core (tbSrc b) (tbTotal b - f.readPos) false
    else s.fetchPlace core b (f.rowRead b).1 (f.rowRead b).2
  | 4 => s.fetchPlane core b f
  | 5 => s.fetchItem core b (f.rowRead b).1 (f.rowRead b).2
  | _ => s.fetchEntry core b f

/-- Whether a firing may read or land now: no fault stopped it, and in a held or frozen ridge it has not parked. -/
def State.firingMoves (s : State) (core : Nat) (t : Template) (f : Firing) : Bool :=
  !f.faulted && (!s.heldAt core || t.state = 1 || !f.atParking t.block)

/-- Whether a firing has read its last byte. -/
def Firing.readAll (f : Firing) (b : List Byte) : Bool := f.readPos ≥ tbTotal b
/-- Whether a firing has a piece that is read and waits to land: of a stream, a whole word (R271). -/
def Firing.bufFull (f : Firing) (b : List Byte) : Bool :=
  if tbKind b = 5 then decide (f.buf.length ≥ fieldAt b 0x30 4)
  else if tbMakesWords b then decide (f.buf.length ≥ 4) || (f.buf != [] && f.readAll b)
  else f.buf != []
/-- Words of what a firing has read that a stream port can take. -/
def Firing.wholeWords (f : Firing) (b : List Byte) : Nat :=
  if tbMakesWords b && !f.readAll b then f.buf.length / 4 else (f.buf.length + 3) / 4

/-- Whether a gather or scatter holds an entry whose index is to be read again behind a fault (R380). -/
def Firing.lacksIndex (f : Firing) (b : List Byte) : Bool := (tbKind b = 2 || tbKind b = 3) && f.index = []

/-- Drops an entry's index once the entry is done. -/
def Firing.nextEntry (f : Firing) : Firing := { f with index := f.index.drop 1 }

/-- Marks the end of a firing whose bytes or words are all moved. -/
def Firing.markEnd (f : Firing) (b : List Byte) : Firing :=
  { f with ended := f.ended || (if tbKind b = 4 then decide (f.pos / 2 ^ 32 ≥ psSegs b * fieldAt b 0x32 2)
    else decide (f.remaining b = 0)) }

/-- Takes n words from the port of a stream source. -/
def State.takeWords (s : State) (core : Nat) (b : List Byte) (n : Nat) : State :=
  if tbSrcKind b = 2 then (List.range n).foldl (fun s _ => s.takeSource (coreCluster core) (tbSrc b)) s else s

/-- A read of a firing in flight (R271 to R275). -/
def State.readFiring (s : State) (core ct : Nat) : State :=
  let t := (s.core core).template ct
  let b := t.block
  match t.firing with
  | none => s
  | some f =>
    if f.ended || (f.bufFull b && !f.lacksIndex b) || !s.firingMoves core t f then s
    else
      let set (s : State) (g : Firing) : State := s.updFiring core ct fun _ => g
      match s.fetchNext core b f with
      | .bytes bs bad => set s { f with buf := f.buf ++ bs, bad := f.bad ++ bad.map (f.buf.length + ·) }
      | .words bs tags last =>
        set (s.takeWords core b ((bs.length + 3) / 4))
          { f with buf := f.buf ++ bs, tags := f.tags ++ tags, ended := last }
      | .indices ws => set s { f with index := ws }
      | .fill bs => set s { f with buf := bs }
      | .skip counted =>
        let e := fieldAt b 0x24 2
        if tbSrcKind b = 2 && decide ((s.sourceWords (coreCluster core) (tbSrc b)).length < e / 4) then s
        else
          set (s.takeWords core b (e / 4)) ({ f.nextEntry with
            pos := f.pos + e
            words := f.words + (if tbSrcKind b = 2 then e / 4 else 0)
            outOfRange := f.outOfRange + (if counted then 1 else 0) }.markEnd b)
      | .granule bs tags bit row pos skipped =>
        set s { f with buf := bs, tags := tags, mapBit := bit, mapRow := row, pos := pos, skipped := f.skipped + skipped }
      | .fault c a => s.firingFault core ct f c a true
      | .wait => s

/-! ## Landing a piece -/

/-- The address at which the bytes that a firing has read land (R271 to R273). -/
def Firing.dstAddr (f : Firing) (b : List Byte) : Nat :=
  match tbKind b with
  | 1 =>
    let row := fieldAt b 0x30 4
    tbDst b + f.pos / row * fieldAt b 0x3C 4 + f.pos % row
  | 3 =>
    let e := fieldAt b 0x24 2
    tbDst b + (f.index.headD 0).toNat * e + f.pos % e
  | _ => tbDst b + tbOffset b f.n + f.pos

/-- Whether the index of a gather's entry names no place of its source: its fill counts in the range count (R272). -/
def Firing.beyond (f : Firing) (b : List Byte) : Bool :=
  tbKind b = 2 && f.index.headD 0 != 0xFFFFFFFF#32 && decide (fieldAt b 0x38 4 ≤ (f.index.headD 0).toNat)

/-- m bytes of the piece have landed, w of them counting as written. A word counts once its last byte has landed, and an
entry of a gather that is out of range once it is written (R272, R388). -/
def Firing.landed (f : Firing) (b : List Byte) (m w : Nat) : Firing :=
  let left := f.buf.drop m
  let words := (f.buf.length + 3) / 4 - (left.length + 3) / 4
  let f := { f with
    buf := left
    bad := (f.bad.filter fun i => i ≥ m).map (· - m)
    tags := f.tags.drop words
    pos := if tbKind b = 4 then f.pos else f.pos + m
    words := f.words + (if tbByWords b then words else 0)
    written := f.written + w }
  let f := if left = [] && (tbKind b = 2 || tbKind b = 3) then
    { f.nextEntry with outOfRange := f.outOfRange + (if f.beyond b then 1 else 0) } else f
  if left = [] then f.markEnd b else f

/-- Whether the index of a scatter's entry names a place of its table. -/
def Firing.entryFits (f : Firing) (b : List Byte) : Bool :=
  f.index.headD 0 != 0xFFFFFFFF#32 && decide ((f.index.headD 0).toNat < fieldAt b 0x38 4)

/-- The address of the peer table's entry for the chunk that an exchange sends next (R275). -/
def Firing.peerEntry (f : Firing) (b : List Byte) : Nat := fieldAt b 0x38 8 + 4 * (f.pos / fieldAt b 0x30 4)
/-- A chunk of an exchange leaves for the peer that the table names; a table entry that cannot be read is a fault. The other
bits of an entry are not looked at (DESIGN CHOICE, log 36). -/
def State.sendChunk (s : State) (core ct : Nat) (b : List Byte) (f : Firing) : State :=
  match s.engRead core (f.peerEntry b) 4 with
  | .error (code, a) => s.firingFault core ct f code a true
  | .ok bs =>
    let e := wordAt bs 0
    let d : Delivery := {
      chain := (match s.spurAt core with
        | some p => p.chain
        | none => 0)
      fromCore := core
      fromCt := ct
      package := bitsOf e 23 9
      core := bitsOf e 16 7 * 64 + bitsOf e 8 6
      ct := bitsOf e 0 5
      chunk := true
      rank := fieldAt b 0x36 2
      round := f.n
      bytes := f.buf
      bad := f.bad
      word := 0 }
    let f := { (f.landed b f.buf.length 0) with sentChunks := f.sentChunks + 1 }
    { s.updFiring core ct fun _ => f with deliveries := s.deliveries ++ [d] }

/-- Bytes of what a firing has read that land in one row of a strided destination (R271). -/
def Firing.rowLeft (f : Firing) (b : List Byte) : Nat :=
  if tbKind b = 1 then min f.buf.length (fieldAt b 0x30 4 - f.pos % fieldAt b 0x30 4) else f.buf.length

/-- The piece that a firing has read lands, as far as it can at once (R131, R141, R271). -/
def State.landFiring (s : State) (core ct : Nat) : State :=
  let t := (s.core core).template ct
  let b := t.block
  match t.firing with
  | none => s
  | some f =>
    if !f.bufFull b || f.faulted || f.lacksIndex b then s
    else
      let set (s : State) (g : Firing) : State := s.updFiring core ct fun _ => g
      if tbKind b = 5 then s.sendChunk core ct b f
      else if tbKind b = 3 && !f.entryFits b then
        let i := f.index.headD 0
        if i ≠ 0xFFFFFFFF#32 && tbFlag b 3 then
          s.firingFault core ct f 0x41 (fieldAt b 0x30 8 + 4 * (f.pos / fieldAt b 0x24 2)) true
        else
          let f := f.landed b f.buf.length 0
          set s { f with outOfRange := f.outOfRange + (if i ≠ 0xFFFFFFFF#32 then 1 else 0) }
      else if tbDstKind b = 2 then
        let cl := coreCluster core
        let ws := s.portWords cl (tbDst b)
        let n := min (16 - ws.length) (f.wholeWords b)
        let new := ((wordsOfBytes f.buf).take n).zipIdx.map fun x => (⟨x.1, f.tags.getD x.2 0, 0⟩ : ChanWord)
        if n = 0 || !s.portOpen cl (tbDst b) then s
        else set (s.setPort cl (tbDst b) (ws ++ new)) (f.landed b (min (4 * n) f.buf.length) (4 * n))
      else
        let a := f.dstAddr b
        let m := min (f.rowLeft b) (if tbDstKind b = 0 then 65536 - a % 65536 else 2 ^ 17 - a % 2 ^ 17)
        let bs := f.buf.take m
        let bad := f.bad.filter (· < m)
        if tbDstKind b = 0 then
          match s.writeGlobal core ct f a bs bad with
          | .error (c, x) => s.firingFault core ct f c x true
          | .ok none => s
          | .ok (some s) => set s (f.landed b m m)
        else
          match s.landScratch core b a bs bad with
          | .error (c, x) => s.firingFault core ct f c x true
          | .ok (s, w) => set s (f.landed b m w)

/-! ## Completion (R142, R143, R156, R269) -/

/-- Bytes of a piece for a digest: those of a bound word are of its tentative value (R156). -/
def State.digestRead (s : State) (core : Nat) (p : Piece) : List Byte :=
  ((s.bindAt (coreCluster core) p.key p.policy p.len).zipIdx).map fun x =>
    if (s.cellAt (p.key + x.2)).isSome then s.homeByte (p.key + x.2) else x.1

/-- The bytes of a global range as they will stand after the publish, page by page; a poisoned one is a fault. -/
def State.finalGlobal (s : State) (core : Nat) (f : Firing) (a len : Nat) : Nat → Except (Nat × Nat) (List Byte)
  | 0 => .ok []
  | fuel + 1 =>
    if len = 0 then .ok []
    else
      let m := min len (65536 - a % 65536)
      let here : Except (Nat × Nat) (List Byte) :=
        match f.shadowOf a with
        | some page =>
          let k := physKey 0 (page + a % 65536)
          match ((List.range m).map (k + ·)).find? fun j => s.poison.contains (sectorOf j) with
          | some j => .error (0x20, a + (j - k))
          | none => .ok (s.homeRead k m)
        | none =>
          match s.readPieces core a m with
          | .error e => .error e
          | .ok ps =>
            match s.piecePoison (coreCluster core) ps with
            | some x => .error (0x20, x)
            | none => .ok (ps.flatMap (s.digestRead core))
      match here, s.finalGlobal core f (a + m) (len - m) fuel with
      | .error e, _ => .error e
      | _, .error e => .error e
      | .ok x, .ok y => .ok (x ++ y)

/-- The bytes of a destination range for a digest; of a multicast, those of the lowest core of the mask. -/
def State.finalBytes (s : State) (core : Nat) (b : List Byte) (f : Firing) (x : Nat × Nat) :
    Except (Nat × Nat) (List Byte) :=
  if tbDstKind b = 0 then s.finalGlobal core f x.1 x.2 (x.2 / 65536 + 2)
  else
    let place : Except (Nat × Nat) Nat :=
      match (if tbKind b ≤ 1 then s.maskCores core (tbFieldA b) else []), s.copyScratch core x.1 with
      | c :: _, _ => .ok (c * 2 ^ 17 + tbDst b % 2 ^ 17 + (x.1 - tbDst b))
      | [], some k => .ok k
      | [], none => .error (0x13, x.1)
    match place with
    | .error e => .error e
    | .ok k =>
      match s.scratchPoisoned k x.2 with
      | some j => .error (0x20, x.1 + (j - k))
      | none => .ok (s.scratchRead k x.2)

/-- The digest of a firing's destination (R156); 0 when not requested. -/
def State.digestOf (s : State) (core : Nat) (b : List Byte) (f : Firing) : Except (Nat × Nat) (BitVec 64) :=
  if !tbFlag b 0 then .ok 0
  else
    (dstRanges b f.n).foldl (fun acc x =>
      match acc, s.finalBytes core b f x with
      | .error e, _ => .error e
      | _, .error e => .error e
      | .ok c, .ok bs => .ok (bs.foldl crcByte c)) (.ok 0)

/-- The in-place writes of a firing that landed in its cluster's copies are performed at the template's scope, at the places
where they landed (R143). That is all that the release of its register write takes home (DESIGN CHOICE, log 11). -/
def State.performFiring (s : State) (core ct : Nat) (b : List Byte) : State :=
  if (tbScope b).toNat < 3 then s
  else ((s.reqs.filter (·.wroteFor core (s.copyMark core ct) ct)).foldl (fun s r => match r.pa with
    | some k => (touchedSectors k r.size).foldl (fun s sec => s.writeBack (coreCluster core) sec) s
    | none => s) s).prune

/-- The key of the third-level leaf that maps a page, where the walk reads it: bits [51:43] drop out (R120, R123). -/
def State.leafKey (s : State) (root va : Nat) : Nat :=
  let e1 := s.tableEntry (root + 8 * (va / 2 ^ 42 % 8192))
  let e2 := s.tableEntry (entryPage e1 + 8 * (va / 2 ^ 29 % 8192))
  physKey 0 ((entryPage e2 + 8 * (va / 2 ^ 16 % 8192)) % 2 ^ 43)

/-- A leaf with another physical page, every other field kept (R142). -/
def leafWith (e : BitVec 64) (page : Nat) : BitVec 64 :=
  BitVec.ofNat 64 (e.toNat - entryPage e + page / 65536 % 2 ^ 36 * 65536)

/-- A shadow page as a leaf's page field names it: one of kind 2 names this package (R123). -/
def State.pageAs (s : State) (e : BitVec 64) (page : Nat) : Nat :=
  if e.extractLsb' 8 2 = 2 then s.podId * 2 ^ 43 + page else page
/-- The first poisoned byte of a firing's shadow pages: nothing is published then (R142, R384). -/
def State.shadowPoison (s : State) (f : Firing) : Option Nat :=
  f.pages.findSome? fun p =>
    (s.poison.find? fun sec => sec / 1024 = physKey 0 p.2 / 65536).map fun sec => p.1 * 65536 + sec % 1024 * 64

/-- The publish of R142: leaves are rewritten to the shadow pages, the translation sequence advances, cached entries
go, the old pages await their return. Every whole page of the range is published, also one that a firing which a tag-3
word ended early has not filled (DESIGN CHOICE, log 12), and one whose leaf names host or peer memory, too: its old address
goes to the pool like any other (DESIGN CHOICE, log 63). -/
def State.publish (s : State) (core : Nat) (f : Firing) : State :=
  let root := s.rootAt core
  let massif := coreCluster core / 24
  let s := f.pages.foldl (fun s p =>
    let va := p.1 * 65536
    match s.walkTable root va with
    | some (e, 16) =>
      let s := s.writeHome (s.leafKey root va) (bytesOfNat 8 (leafWith e (s.pageAs e p.2)).toNat)
      { s with
        oldPages := s.oldPages ++ [(massif, entryPage e % 2 ^ 43)]
        cached := s.cached.filter fun c => !c.meets va 16 }
    | _ => s) s
  { s with transSeq := s.transSeq + 1 }

/-- Steps 1 and 2 of R269: writes performed, digest taken, pages published. The digest is taken at one moment, of the values
that all bytes of the range have there (DESIGN CHOICE, log 63). -/
def State.finishWrites (s : State) (core ct : Nat) (b : List Byte) (f : Firing) : Except (Nat × Nat) (State × Firing) :=
  let s := s.performFiring core ct b
  match s.digestOf core b f with
  | .error e => .error e
  | .ok d =>
    match s.shadowPoison f with
    | some a => .error (0x20, a)
    | none =>
    let s := if tbFlag b 1 then s.publish core f else s
    .ok (s, { f with digest := d, recording := true, seq := if tbFlag b 1 then s.transSeq else 0 })

/-- Steps 3 and 4 of R269: the record, then the register with the count of firings, and the end of the firing. -/
def State.finishRecord (s : State) (core ct : Nat) (b : List Byte) (f : Firing) : State :=
  let rec_ := copyRecord 0 f.n f.written f.digest.toNat f.outOfRange f.skipped f.seq.toNat s.timeNs.toNat
  match (if tbRec b = 0 then .ok s else s.engWrite core (tbRec b) rec_ (tbScope b)) with
  | .error (c, a) => (s.updFiring core ct fun _ => f).firingFault core ct f c a false
  | .ok s =>
    let t := (s.core core).template ct
    let n := t.done + 1
    let ps := if tbRec b = 0 then [] else s.mappedPieces core (tbRec b) 64
    let s := ps.foldl (fun s p => s.noteWritten core (s.copyMark core ct) ct p.key p.len) s
    let s := s.updCt core ct fun t => { t with done := n, firing := none, state := if t.state = 2 then 1 else t.state }
    let s := s.updElem (coreE0 core) fun e => (e.setReg (tbReg b) (BitVec.ofNat 32 n)).setPend (tbReg b) false
    let s := s.dropReq f.req
    (s.reqs.filter fun r => r.kind = .stopCt ct && elemCore r.elem = core).foldl
      (fun s r => (s.dropReq r.id).stopTemplate r ct) s

/-- Whether every chunk of an exchange has landed and been accepted (R275). -/
def State.roundDone (s : State) (core ct : Nat) (b : List Byte) (f : Firing) : Bool :=
  tbKind b ≠ 5 ||
    (decide (f.gotChunks.length ≥ fieldAt b 0x34 2) && !s.deliveries.any fun d => d.fromCore = core && d.fromCt = ct)

/-- Whether a firing has moved everything and can complete. -/
def State.firingEnds (s : State) (core ct : Nat) (t : Template) (f : Firing) : Bool :=
  f.ended && f.buf = [] && !f.faulted && (s.firingMoves core t f || tbKind t.block = 5)
    && s.roundDone core ct t.block f && !s.recordPinned core t.block

/-- `COPY_FIRING_COMPLETION` (R269): of the template `b` of the core `a`. -/
def execCopyFiringCompletion (s : State) : Host.Outcome State Fault Refusal :=
  let s := s.storageError
  let core := s.pick.a
  let ct := s.pick.b
  let t := (s.core core).template ct
  match t.firing with
  | none => .next s
  | some f =>
    if !s.firingEnds core ct t f then .next s
    else if f.recording then .next (s.finishRecord core ct t.block f)
    else
      match s.finishWrites core ct t.block f with
      | .error (c, a) => .next (s.firingFault core ct f c a true)
      | .ok (s, f) => .next (s.finishRecord core ct t.block f)

/-! ## The access that a firing stands at (R380, R395) -/

/-- The ranges that a plane stream reads next: the map of a row that it begins, the site and its class byte. -/
def State.planeRead (s : State) (core : Nat) (b : List Byte) (f : Firing) : List (Nat × Nat) :=
  let g := f.pos / 2 ^ 32
  let i := f.pos % 2 ^ 32
  let x := g % psSegs b * 2 ^ (psMode b % 8) + (if psHeader b then i - 1 else i)
  let y := g / psSegs b
  let map := if psMapped b && g % psSegs b = 0 && i = 0 then [psRowRead b g] else []
  let site := (psAddr b x y).toList.map fun a => (a, byteAt b 0x36)
  let tag := if (psMode b).testBit 6 then [(psTagAddr b x y, 1)] else []
  match s.psRow core b f g i with
  | .error _ => map
  | .ok row => if !psActive b f row g i || (psHeader b && i = 0) || tbSrcKind b ≠ 0 then map else map ++ site ++ tag

/-- The ranges of global memory that the access at which a firing stands touches: of its landing, of its next read, or of
its digest; the record's is not among them. -/
def State.firingAccess (s : State) (core : Nat) (t : Template) (f : Firing) : List (Nat × Nat) :=
  let b := t.block
  if f.recording || f.faulted then []
  else if f.ended && f.buf = [] then (if tbFlag b 0 && tbDstKind b = 0 then dstRanges b f.n else [])
  else if f.bufFull b && !f.lacksIndex b then
    if tbKind b = 5 then [(f.peerEntry b, 4)]
    else if (tbKind b = 3 && !f.entryFits b) || tbDstKind b ≠ 0 then []
    else [(f.dstAddr b, f.buf.length)]
  else if f.ended || !s.firingMoves core t f then []
  else match tbKind b with
    | 4 => s.planeRead core b f
    | 2 => if f.index = [] then [(f.listAddr b, 64)] else if tbSrcKind b = 0 then (f.entryRead b).toList else []
    | 3 => if f.index = [] then [(f.listAddr b, 64)] else if tbSrcKind b = 0 then (f.entryRead b).toList else []
    | _ => if tbSrcKind b = 0 then [f.rowRead b] else []

/-- An access of a copy firing to a peer's memory is lost: counted, and the firing stops there with 0x20; with the flag
its piece or record has landed all the same, and is written again after the resume (R380, R395). A lost record leaves none of status 2. -/
def State.loseFiring (s : State) (core ct : Nat) : State :=
  let t := (s.core core).template ct
  let b := t.block
  match t.firing with
  | none => s
  | some f =>
    match s.peerPage core (s.firingAccess core t f) with
    | some a =>
      let u := if s.pick.flag && tbKind b ≠ 5 then s.landFiring core ct else s
      match ((u.core core).template ct).firing with
      | some g => if g.faulted then u
        else ((u.countPreg 0x3E6).updFiring core ct fun _ => f).firingFault core ct f 0x20 a true
      | none => s
    | none =>
      if tbRec b = 0 || (s.peerPage core [(tbRec b, 64)]).isNone || !s.firingEnds core ct t f then s
      else
        match if f.recording then .ok (s, f) else s.finishWrites core ct b f with
        | .error (c, a) => s.firingFault core ct f c a true
        | .ok (u, g) =>
          let rec_ := copyRecord 0 g.n g.written g.digest.toNat g.outOfRange g.skipped g.seq.toNat u.timeNs.toNat
          ((u.lostWrite core (tbRec b) rec_ (tbScope b)).updFiring core ct fun _ => g).firingFault core ct g 0x20 (tbRec b) false

/-- Whether an access is translated to a page and not yet performed (R142). -/
def State.pageBusy (s : State) (page : Nat) : Bool :=
  s.reqs.any fun r => match r.pa with
    | some k => k / 65536 * 65536 = physKey 0 page && (r.phase = .ready || !s.performedAt r 4)
    | none => false

/-- `SHADOW_PAGE_RETURN` (R142): the old page `a` returns to its massif's pool; copies of it go, dirty bytes too, once
none is pinned (R137). -/
def execShadowPageReturn (s : State) : Host.Outcome State Fault Refusal :=
  match s.oldPages[s.pick.a]? with
  | some (massif, page) =>
    if s.pageBusy page || s.pins.any (fun p => p.sector / 1024 = physKey 0 page / 65536) then .next s
    else
      let here (k : Nat) : Bool := k % 2 ^ 54 / 65536 * 65536 = physKey 0 page
      let free := s.poolFree massif
      let s := { s with
        oldPages := s.oldPages.eraseIdx s.pick.a
        copies := s.copies.filter fun c => !here c.1
        early := s.early.filter fun q => q % 2 ^ 46 / 256 ≠ physKey 0 page / 65536
        copyPoison := s.copyPoison.filter fun q => q % 2 ^ 48 / 1024 ≠ physKey 0 page / 65536
        l1 := s.l1.filter fun c => !here c.1 }
      .next ((s.writeHome (s.poolEntry massif free) (bytesOfNat 8 page)).setPreg (poolReg massif 3)
        (BitVec.ofNat 32 (free + 1)))
  | none => .next s

/-! ## Cairns (R277, R389) -/

/-- A token of a cairn waits for its event channel. -/
def State.cairnToken (s : State) (core ca : Nat) (c : Cairn) : State :=
  s.updCore core fun k => { k with events := k.events ++ [(32 + ca, c.ch, c.tag)] }

/-- `CAIRN_LANDING` (R277, R389): the oldest landing at the cairn `b` of the core `a` is counted. -/
def execCairnLanding (s : State) : Host.Outcome State Fault Refusal :=
  let core := s.pick.a
  let ca := s.pick.b
  let c := (s.core core).cairn ca
  match c.landed with
  | [] => .next s
  | n :: rest =>
    let c := { c with landed := rest }
    let set (s : State) (c : Cairn) : State := s.updCa core ca fun _ => c
    if c.overrun then .next (set s c)
    else
      let r := c.remaining
      let after := { c with remaining := if n < r then r - n else if c.rearm && r > 0 then c.expected else 0 }
      let s := if r > 0 && n ≥ r then (set s after).cairnToken core ca c else set s after
      if n ≤ r then .next s
      else
        let s := s.updCa core ca fun c => { c with overrun := true }
        .next (s.unitFault core (0xC0 + ca) 0x42 (n - r + ca * 2 ^ 32))

end Sys2Proof.Machine
end

