-- ==== Sys2Proof/Machine/BlockFormats.lean ====
section
/-!
DEFINITION. Narrow and tapered formats (R100 to R103), described blocks and their packing and unpacking (R104 to R106,
R113 to R115), block partials (R107 to R109), and MX groups (R116, R117).
-/
namespace Sys2Proof.Machine

/-! ## Narrow formats (R100, R101) -/

/-- A narrow float format: exponent and fraction widths, code of the largest finite magnitude, code of the infinity if
it has one, and the canonical NaN if it has one. -/
structure NarrowFmt where
  ew : Nat
  fw : Nat
  maxCode : Nat
  inf : Option Nat
  canon : Option Nat
  deriving DecidableEq, Repr

/-- FP8 E4M3. -/
def e4m3 : NarrowFmt := ⟨4, 3, 0x7E, none, some 0x7F⟩
/-- FP8 E5M2. -/
def e5m2 : NarrowFmt := ⟨5, 2, 0x7B, some 0x7C, some 0x7E⟩
/-- FP4 E2M1. -/
def e2m1 : NarrowFmt := ⟨2, 1, 0x7, none, none⟩

/-- Units of the smallest subnormal, as a power of two. -/
def NarrowFmt.emin (f : NarrowFmt) : Int := 1 - ((2 ^ (f.ew - 1) - 1 : Nat) : Int) - (f.fw : Int)
/-- The sign bit. -/
def NarrowFmt.signBit (f : NarrowFmt) : Nat := 2 ^ (f.ew + f.fw)

/-- The value of a pattern (R100). -/
def NarrowFmt.decode (f : NarrowFmt) (bits : Nat) : Num :=
  let neg := decide (bits / f.signBit % 2 = 1)
  let mag := bits % f.signBit
  if mag > f.maxCode then (if f.inf = some mag then .inf neg else .nan)
  else
    let ef := mag / 2 ^ f.fw
    let fr := mag % 2 ^ f.fw
    if ef = 0 then .fin neg fr f.emin else .fin neg (2 ^ f.fw + fr) (f.emin + (ef : Int) - 1)

/-- A value rounded into the format (R101); a NaN has no pattern in FP4, whose block is marked instead. -/
def NarrowFmt.round (f : NarrowFmt) (x : Num) : Nat :=
  match x with
  | .nan => f.canon.getD 0
  | .inf neg => (if neg then f.signBit else 0) + f.inf.getD f.maxCode
  | .fin neg m e =>
    let s := if neg then f.signBit else 0
    if m = 0 then s
    else
      let q : Int := max ((Nat.log2 m : Int) + e - (f.fw : Int)) f.emin
      s + min f.maxCode ((q - f.emin).toNat * 2 ^ f.fw + roundUnits 0 neg m e q)

/-! ## Tapered formats (R102, R103) -/

/-- The length of the run of bits equal to `b` from bit i - 1 of a magnitude downward. -/
def runLength (mag : Nat) (b : Bool) : Nat → Nat
  | 0 => 0
  | i + 1 => if mag.testBit i = b then runLength mag b i + 1 else 0

/-- The value of a nonzero magnitude of m bits with an exponent field of es bits. -/
def taperedMag (m es mag : Nat) : Nat × Int :=
  let b := mag.testBit (m - 1)
  let k := runLength mag b m
  let r : Int := if b then (k : Int) - 1 else -(k : Int)
  let left := m - k - 1
  let hasE := es = 1 && left ≥ 1
  let e := if hasE && mag.testBit (left - 1) then 1 else 0
  let left := if hasE then left - 1 else left
  (2 ^ left + mag % 2 ^ left, r * 2 ^ es + (e : Int) - (left : Int))

/-- The value of a tapered pattern of width w (R102). -/
def taperedDecode (w es bits : Nat) : Num :=
  let m := w - 1
  let neg := bits.testBit m
  let mag := bits % 2 ^ m
  if mag = 0 then (if neg then .nan else .fin false 0 0)
  else
    let v := taperedMag m es mag
    .fin neg v.1 v.2

/-- The largest magnitude code whose value does not exceed a positive value; 0 if none: bit by bit downward. -/
def taperedFloor (m es : Nat) (x : Num) : Nat :=
  (List.range m).reverse.foldl (fun c i =>
    let d := c + 2 ^ i
    let v := taperedMag m es d
    if (Num.fin false v.1 v.2).cmp x ≤ 0 then d else c) 0

/-- A value rounded into a tapered format (R103). -/
def taperedRound (w es : Nat) (x : Num) : Nat :=
  let m := w - 1
  let s (neg : Bool) : Nat := if neg then 2 ^ m else 0
  match x with
  | .nan => 2 ^ m
  | .inf neg => s neg + (2 ^ m - 1)
  | .fin neg n e =>
    if n = 0 then 0
    else
      let c := taperedFloor m es (.fin false n e)
      if c = 0 then s neg + 1
      else if c = 2 ^ m - 1 then s neg + c
      else
        let lo := taperedMag m es c
        let hi := taperedMag m es (c + 1)
        let mid2 := (Num.fin false lo.1 lo.2).add (.fin false hi.1 hi.2)
        let d := (Num.fin false (2 * n) e).cmp mid2
        s neg + (if d > 0 || (d = 0 && c % 2 = 1) then c + 1 else c)

/-! ## Described blocks (R104 to R106) -/

/-- Width of an element of a format code; 0 for a code that no engine consumes. -/
def fmtWidth (code : Nat) : Nat :=
  if code = 0x11 || code = 0x12 || code = 0x21 then 8
  else if code = 0x14 then 4
  else if code = 0x22 then 6
  else if code = 0x31 || code = 0x32 then 16
  else 0
/-- Elements of a block of a format code. -/
def fmtCount (code : Nat) : Nat := 496 / fmtWidth code
/-- The group of formats that pair (R107). -/
def fmtGroup (code : Nat) : Option Nat :=
  if code = 0x11 || code = 0x12 || code = 0x21 then some 0
  else if code = 0x22 then some 1
  else if code = 0x14 then some 2
  else if code = 0x31 || code = 0x32 then some 3
  else none

/-- The value of an element's bits in a format. -/
def fmtDecode (code bits : Nat) : Num :=
  match code with
  | 0x11 => e4m3.decode bits
  | 0x12 => e5m2.decode bits
  | 0x14 => e2m1.decode bits
  | 0x21 => taperedDecode 8 1 bits
  | 0x22 => taperedDecode 6 0 bits
  | 0x31 => bf16.decode bits
  | _ => fp16.decode bits
/-- A value rounded into a format (R101, R103). For BF16 and FP16, which R101 does not name, a value beyond the largest
element and an infinity become an infinity, as in a conversion of the float rules (DESIGN CHOICE, log 55). -/
def fmtRound (code : Nat) (x : Num) : Nat :=
  match code with
  | 0x11 => e4m3.round x
  | 0x12 => e5m2.round x
  | 0x14 => e2m1.round x
  | 0x21 => taperedRound 8 1 x
  | 0x22 => taperedRound 6 0 x
  | 0x31 => bf16.round 0 x
  | _ => fp16.round 0 x
/-- The largest element of a format (R105). -/
def fmtMax (code : Nat) : Num :=
  match code with
  | 0x11 => .fin false 448 0
  | 0x12 => .fin false 57344 0
  | 0x14 => .fin false 6 0
  | 0x21 => .fin false 4096 0
  | 0x22 => .fin false 16 0
  | 0x31 => bf16.decode 0x7F7F
  | _ => .fin false 65504 0

/-- The elements of a block without its scale; NaN throughout in a NaN block (R106). -/
def blockElems (b : List Byte) : List Num :=
  let code := byteAt b 0
  let w := fmtWidth code
  let payload := natOfBytes ((b.drop 2).take 62)
  (List.range (fmtCount code)).map fun i =>
    if byteAt b 1 = 0xFF then .nan else fmtDecode code (payload / 2 ^ (w * i) % 2 ^ w)
/-- The values of a block's elements (R106). -/
def blockValues (b : List Byte) : List Num := (blockElems b).map (·.scale ((byteAt b 1 : Int) - 127))

/-- Whether a value is finite. -/
def Num.finite : Num → Bool
  | .fin _ _ _ => true
  | _ => false
/-- Magnitude. -/
def Num.abs : Num → Num
  | .nan => .nan
  | .inf _ => .inf false
  | .fin _ m e => .fin false m e

/-- The largest magnitude among finite values. -/
def maxFinite (xs : List Num) : Num :=
  xs.foldl (fun m x => if x.finite && decide (m.cmp x.abs < 0) then x.abs else m) (.fin false 0 0)
/-- The scale of R113 for a largest element. -/
def chooseScale (vmax : Num) (xs : List Num) : Nat :=
  let m := maxFinite xs
  if m.isZero then 0
  else ((List.range 255).find? fun (s : Nat) => decide ((m.scale (127 - (s : Int))).cmp vmax ≤ 0)).getD 254

/-- Codes packed from bit 0 upward, w bits each. -/
def packCodes (w : Nat) : List Nat → Nat
  | [] => 0
  | c :: cs => c + 2 ^ w * packCodes w cs

/-- A block packed with a scale; positions beyond the values are zero; an FP4 block with a NaN is a NaN block
(R113, R114). -/
def packBlockAt (code scale : Nat) (xs : List Num) : List Byte :=
  let nanBlock := code = 0x14 && xs.any Num.isNan
  let codes := if nanBlock then [] else xs.map fun x => fmtRound code (x.scale (127 - (scale : Int)))
  bytesOfNat 1 code ++ bytesOfNat 1 (if nanBlock then 0xFF else scale) ++ bytesOfNat 62 (packCodes (fmtWidth code) codes)
/-- A block packed by R113. -/
def packBlock (code : Nat) (xs : List Num) : List Byte := packBlockAt code (chooseScale (fmtMax code) xs) xs

/-! ## Block partials (R107 to R109) -/

/-- The exact sum of products of two rows of elements. -/
def dotExact : List Num → List Num → Num
  | x :: xs, y :: ys => (x.mul y).add (dotExact xs ys)
  | _, _ => .fin false 0 0

/-- The accumulator after the partial of two blocks whose elements are `a` and `b` and whose scales add to `sc`. -/
def accumulate (acc : Word) (a b : List Num) (sc : Nat) : Word :=
  let p := dotExact a b
  if p.isZero then acc else toF32 ((val32 acc).add (p.scale ((sc : Int) - 254)))

/-! ## Words of a converter (R112, R115) -/

/-- The values that a word supplies by word type: 0 FP32, 1 FP16 pair, 2 BF16 pair (R113). -/
def wordValues (typ : Nat) (w : Word) : List Num :=
  match typ with
  | 1 => [fp16.decode (w.toNat % 2 ^ 16), fp16.decode (w.toNat / 2 ^ 16)]
  | 2 => [bf16.decode (w.toNat % 2 ^ 16), bf16.decode (w.toNat / 2 ^ 16)]
  | _ => [val32 w]
/-- Values as words of a word type (R115); lane 1 of the last word of an odd count is 0 (DESIGN CHOICE, log 59). -/
def valuesToWords (typ : Nat) : List Num → List Word
  | [] => []
  | [x] =>
    match typ with
    | 1 => [BitVec.ofNat 32 (fp16.round 0 x)]
    | 2 => [BitVec.ofNat 32 (bf16.round 0 x)]
    | _ => [toF32 x]
  | x :: y :: rest =>
    match typ with
    | 1 => BitVec.ofNat 32 (fp16.round 0 x + 2 ^ 16 * fp16.round 0 y) :: valuesToWords typ rest
    | 2 => BitVec.ofNat 32 (bf16.round 0 x + 2 ^ 16 * bf16.round 0 y) :: valuesToWords typ rest
    | _ => toF32 x :: valuesToWords typ (y :: rest)

/-! ## MX groups (R116, R117) -/

/-- The values of an MX group: its scale word and its element words. -/
def mxValues (code : Nat) : List Word → List Num
  | [] => []
  | x :: ws =>
    let s := x.toNat % 256
    let w := fmtWidth code
    let v := natOfBytes (bytesOfWords ws)
    (List.range 32).map fun i =>
      if s = 0xFF then .nan else (fmtDecode code (v / 2 ^ (w * i) % 2 ^ w)).scale ((s : Int) - 127)
/-- The words of an MX group of 32 values. -/
def mxGroup (code : Nat) (xs : List Num) : List Word :=
  let xs := fitTo 32 (.fin false 0 0) xs
  let nanGroup := code = 0x14 && xs.any Num.isNan
  let s := if nanGroup then 0xFF else chooseScale (fmtMax code) xs
  let codes := if nanGroup then [] else xs.map fun x => fmtRound code (x.scale (127 - (s : Int)))
  BitVec.ofNat 32 s :: wordsOfBytes (bytesOfNat (4 * fmtWidth code) (packCodes (fmtWidth code) codes))

end Sys2Proof.Machine
end

