-- ==== Sys2Proof/Machine/Matrix.lean ====
section
/-!
DEFINITION. Commands of `e0` to the matrix engine (cell 0x39, R279 to R292): the rules that queue them, with
their address checks. What the engine does with a command is in MatrixEngine.lean.
-/
namespace Sys2Proof.Machine

/-! ## Commands (R279, R280) -/

/-- Puts a command at the end of a queue of a core: 0 the matrix engine, 4 to 7 the islands (R39, R279). -/
def State.enqueue (s : State) (core q : Nat) (c : Cmd) : State :=
  s.updCore core fun k =>
    if q = 0 then { k with mx := { k.mx with queue := k.mx.queue ++ [c] } }
    else { k with islandQ := k.islandQ.setIfInBounds (q - 4) (k.islandQ.getD (q - 4) [] ++ [c]) }

/-- The commands that wait in a queue of a core. -/
def Core.queued (c : Core) (q : Nat) : List Cmd := if q = 0 then c.mx.queue else c.islandQ.getD (q - 4) []

/-- A rule sends a command: operands are consumed, the destination pended or reserved, the command queued
(R279, R280). -/
def State.sendCmd (s : State) (q : Nat) (dm : Demand) (ops : List Word) (reserve : State → State × Dst) : State :=
  let c : Cmd := {
    elem := s.cur.elem
    slot := s.cur.slot
    word := s.curWord
    ext := s.curExt
    group := s.nextId
    ops := ops
    dst := .none
    step := s.stepStart
    handler := s.curHandler }
  let (s, d) := reserve (s.consume dm).bump
  s.enqueue (elemCore s.cur.elem) q { c with dst := d }

/-- No destination. -/
def noResult (s : State) : State × Dst := (s, .none)
/-- A destination code that takes n words (R280). -/
def toPort (c : Code) (n : Nat) (s : State) : State × Dst := s.reserveDst s.cur.elem c n

/-- The words of consecutive registers from a code. -/
def State.regBlock (s : State) (c : Code) (n : Nat) : List Word := (List.range n).map fun i => s.me.reg (c.toNat + i)

/-! ## Addresses of rows (R283, R288) -/

/-- The address faults of rows of n bytes in the order of R371, each row tested at every 64-byte block of it; a scratch
address is checked after rebasing (R119). -/
def State.rowFaults (s : State) (scratch : Bool) (rows : List (Nat × Nat)) : Option (Nat × Nat) :=
  let core := elemCore s.cur.elem
  let beyond (a : Nat) : Bool := if scratch then s.rebase core a ≥ 2 ^ 23 else a ≥ 2 ^ 55
  let high := rows.find? fun r => (List.range (r.2 / 64)).any fun j => beyond (r.1 + 64 * j)
  match high with
  | some r => some (if scratch then 0x13 else 0x10, r.1)
  | none =>
    match rows.find? fun r => r.1 % 64 ≠ 0 with
    | some r => some (0x12, r.1)
    | none => none

/-- The stride in blocks of `mx.ld`; 1 without an extension (R283). -/
def mxStride (w : Bool) (x : Word) : Nat := if w then xBits x 0 20 else 1
/-- Whether `mx.ld` names cluster scratch. -/
def mxScratch (w : Bool) (x : Word) : Bool := w && x.getLsbD 27
/-- The address of row i of a tile (R283). -/
def mxRow (base stride i : Nat) : Nat := base + i * 64 * stride

/-- The base that a command of the matrix engine reads: a pair, or a source code for scratch. -/
def State.mxBase (s : State) (dm : Demand) (o : EOp) (scratch : Bool) : List Word :=
  if scratch then [s.rd dm o.src, 0] else wordsOf64 (s.rdPair o.src)
/-- A base from its two words. -/
def baseOf (ops : List Word) : Nat := (of64 (ops.getD 0 0) (ops.getD 1 0)).toNat
/-- What reading the base pops. -/
def baseDemand (o : EOp) (scratch : Bool) : Demand := if scratch then [(o.src, 1)] else []

/-- Blocks that hold the 32 values of a row in a format (R288, R105). -/
def packBlocks (fmt : Nat) : Nat := if fmt ≥ 0x31 then 2 else 1

/-- The rows that `mx.drain` writes, with their bytes (R288). -/
def drainRows (x : Word) (base : Nat) : List (Nat × Nat) :=
  let stride := xBits x 20 8
  match xBits x 14 2 with
  | 2 => [(base, 128)]
  | 1 => (List.range 32).map fun r => (base + r * 64 * stride, 64 * packBlocks (xBits x 0 8))
  | _ => (List.range 32).map fun r => (base + r * 64 * stride, 128)

/-! ## The rules -/

/-- `mx.ld` (R283). -/
def execMxLd (o : EOp) (s : State) : Host.Outcome State Fault Refusal :=
  let scr := mxScratch o.w s.curExt
  let dm := baseDemand o scr
  fire (.mxLd o) (fun _ => false)
    (fun s => s.rowFaults scr ((List.range 32).map fun i =>
      (mxRow (baseOf (s.mxBase dm o scr)) (mxStride o.w s.curExt) i, 64)))
    (fun s => s.sendCmd 0 dm (s.mxBase dm o scr) noResult) s

/-- `mx.rule` (R285). -/
def execMxRule (o : EOp) (s : State) : Host.Outcome State Fault Refusal :=
  let dm := one [o.src]
  fire (.mxRule o)
    (fun s => !namesNothing o.w o.src && (bitsOf (s.rd dm o.src) 8 24 ≠ 0 || bitsOf (s.rd dm o.src) 4 3 ≥ 4)) (fun _ => none)
    (fun s => s.sendCmd 0 dm [s.rd dm o.src] noResult) s

/-- `mx.zero` (R287). -/
def execMxZero (o : EOp) (s : State) : Host.Outcome State Fault Refusal :=
  fireOp (.mxZero o) (fun s => s.sendCmd 0 [] [] noResult) s

/-- `mx.read` (R287): one value, or a row of 32 words to an output. -/
def execMxRead (o : EOp) (s : State) : Host.Outcome State Fault Refusal :=
  let dm := one [o.src]
  fire (.mxRead o) (fun s => !namesNothing o.w o.src && bitsOf (s.rd dm o.src) 11 21 ≠ 0)
    (fun s => if (s.rd dm o.src).getLsbD 10 && isReg o.port then some (0x04, 0) else none)
    (fun s => s.sendCmd 0 dm [s.rd dm o.src] (toPort o.port (if (s.rd dm o.src).getLsbD 10 then 32 else 1))) s

/-- `mx.drain` (R288). -/
def execMxDrain (o : EOp) (s : State) : Host.Outcome State Fault Refusal :=
  let scr := s.curExt.getLsbD 13
  let dm := baseDemand o scr
  fire (.mxDrain o) (fun _ => false)
    (fun s => s.rowFaults scr (drainRows s.curExt (baseOf (s.mxBase dm o scr))))
    (fun s => s.sendCmd 0 dm (s.mxBase dm o scr) (toPort o.port 1)) s

/-- `mseq.gemm` (R289, R290). -/
def execMseqGemm (o : EOp) (s : State) : Host.Outcome State Fault Refusal :=
  fireOp (.mseqGemm o) (fun s => s.sendCmd 0 [] (wordsOf64 (s.rdPair o.src)) (toPort o.port 1)) s

/-- `mseq.conv` (R289, R291). -/
def execMseqConv (o : EOp) (s : State) : Host.Outcome State Fault Refusal :=
  fireOp (.mseqConv o) (fun s => s.sendCmd 0 [] (wordsOf64 (s.rdPair o.src)) (toPort o.port 1)) s

/-- `mseq.stop` (R292): the running sequence stops at its next boundary; without one, nothing. -/
def execMseqStop (o : EOp) (s : State) : Host.Outcome State Fault Refusal :=
  fireOp (.mseqStop o) (fun s => s.updCore (elemCore s.cur.elem) fun c =>
    { c with mx := { c.mx with seq := c.mx.seq.map fun q => { q with stop := true } } }) s

end Sys2Proof.Machine
end

