-- ==== Sys2Proof/Machine/System.lean ====
section
/-!
DEFINITION. System rules (cells 0x3D to 0x3F, R298 to R306): system registers, `halt`, the stops of `trap`, `brk`
and `step`, leases and configuration writes.
-/
namespace Sys2Proof.Machine

/-! ## The user view (R299, R300) -/

/-- Whether a read of a register is supplied by the cluster controller and returns late (R298). -/
def lateReg (n : Nat) : Bool := n = 6 || (8 ≤ n && n ≤ 0x0C) || (0x10 ≤ n && n ≤ 0x37) || n = 0x214

/-- CORE_XY of an element. -/
def coreXY (k : Nat) : Word :=
  let c := coreIdx (elemCore k)
  BitVec.ofNat 32 (c * 256 + c / 8 * 16 + c % 8)
/-- CLUSTER_ID of an element. -/
def State.clusterId (s : State) (k : Nat) : Word :=
  let c := elemCluster k
  BitVec.ofNat 32 (s.podId * 2 ^ 23 + c % 24 * 2 ^ 10 + c / 24 * 256 + c)
/-- SPUR_INFO of an element. -/
def State.spurInfo (s : State) (k : Nat) : Word :=
  match s.spurAt (elemCore k) with
  | some p => BitVec.ofNat 32 (p.index * 65536 + p.y0 * 4096 + p.x0 * 256 + p.h * 16 + p.w)
  | none => 0

/-- Unused time of a cluster's lease in µs (R299). -/
def State.leaseLeft (s : State) (cl : Nat) : Nat :=
  match (s.cluster cl).lease with
  | some l => (l.endNs - s.timeNs.toNat) / 1000
  | none => 0

/-- A parameter word of an element's chain: the stage's own block when its stage table entry gives one, else the
record's (R66, R67, R299). The check of the chain has read the entry and the block (R70); a word that no longer
translates is open (DESIGN CHOICE, log 52). -/
def State.chainParam (s : State) (k i : Nat) : Word :=
  match s.spurAt (elemCore k) with
  | none => 0
  | some p =>
    match s.chain? p.chain with
    | none => 0
    | some c =>
      if c.system then wordAt c.record (0x60 + 4 * i)
      else match s.readVirt c.root (needRead c) (c.stageTable + 64 * p.stage + 0x10) 8 with
      | .error _ => Config.lostParam s.tick
      | .ok bs =>
        if natOfBytes bs = 0 then wordAt c.record (0x60 + 4 * i)
        else
          match s.readVirt c.root (needRead c) (natOfBytes bs + 4 * i) 4 with
          | .ok ws => wordAt ws 0
          | .error _ => Config.lostParam s.tick

/-- Where the read of a user-view register for an element goes to a peer's memory and does not reach it: a parameter word
there with `c` = 3 (R395) (DEDUCED, log 35). -/
def State.paramLost (s : State) (k n : Nat) : Option Nat :=
  if s.pick.c ≠ 3 || n < 0x10 || 0x37 < n then none
  else
    match s.spurAt (elemCore k) with
    | none => none
    | some p =>
      match s.chain? p.chain with
      | none => none
      | some c =>
        if c.system then none
        else
          let a := c.stageTable + 64 * p.stage + 0x10
          let block := match s.readVirt c.root (needRead c) a 8 with
            | .ok bs => if natOfBytes bs = 0 then [] else [(natOfBytes bs + 4 * (n - 0x10), 4)]
            | .error _ => []
          ((a, 8) :: block).findSome? (s.peerVirt c)

/-- The value of a user-view register for an element (R299). -/
def State.userReg (s : State) (k n : Nat) : Word :=
  let e := s.elem k
  let id := s.chainNameAt (elemCore k)
  match n with
  | 0 => BitVec.ofNat 32 (elemIdx k)
  | 1 => coreXY k
  | 2 => s.clusterId k
  | 3 => s.spurInfo k
  | 4 => e.steps.extractLsb' 0 32
  | 5 => e.stepHi
  | 6 => s.timeNs.extractLsb' 0 32
  | 7 => e.timeHi
  | 8 => BitVec.ofNat 32 (s.opPoint (elemCluster k))
  | 9 => BitVec.ofNat 32 (s.leaseLeft (elemCluster k))
  | 0x0A => BitVec.ofNat 32 id
  | 0x0B => BitVec.ofNat 32 (id / 2 ^ 32)
  | 0x0C => BitVec.ofNat 32 (s.stageSpur (elemCore k)).1
  | 0x0D =>
    match s.chainAt (elemCore k) with
    | some c => BitVec.ofNat 32 ((if c.privileged then 1 else 0) + (if c.flagD then 2 else 0))
    | none => 0
  | 0x0E => e.hmask.setWidth 32
  | n => if 0x10 ≤ n && n ≤ 0x37 then s.chainParam k (n - 0x10) else 0

/-- The value that a read of a register gives an element. -/
def State.sysValue (s : State) (k n : Nat) : Word := if n < 0x200 then s.userReg k n else s.readReg n

/-- What a read latches for the element or the device (R299, R302, R386). -/
def State.sysLatch (s : State) (k n : Nat) : State :=
  if n = 4 then s.updElem k fun e => { e with stepHi := e.steps.extractLsb' 32 32 }
  else if n = 6 then s.updElem k fun e => { e with timeHi := s.timeNs.extractLsb' 32 32 }
  else if n ≥ 0x200 then s.latchReg n
  else s

/-- A user spur that names a register of the privileged view raises 0x70 (R298). -/
def State.regFault (s : State) (n : Nat) : Option (Nat × Nat) :=
  if n ≥ 0x200 && !s.privAt (elemCore s.cur.elem) then some (0x70, 0) else none

/-! ## Stops after commit (R303) -/

/-- The address field of a stop: the value in bits 31 to 0, the number in bits 38 to 32 (R357). -/
def stopAddr (value : Word) (n : Nat) : Nat := value.toNat + n * 2 ^ 32

/-- The record of a stop of `trap`, `brk` or `step`, and the hold of its chain (R303, R361). -/
def State.stopSpur (s : State) (k slot handler : Nat) (word ext : Word) (step : BitVec 64) (code addr : Nat) : State :=
  let (stage, spur) := s.stageSpur (elemCore k)
  match s.spurAt (elemCore k) with
  | some p =>
    s.raiseAt p.chain k {
      code := code
      elem := k
      addr := addr
      slot := slot
      handler := handler
      word := word
      ext := if fieldW word then ext else 0
      step := step
      stage := stage
      spur := spur }
  | none => s

/-- The stop is noted for the end of the step; without a step in progress it takes place at once. -/
def State.stopAfter (s : State) (code addr : Nat) : State :=
  match s.walk with
  | some w => { s with walk := some { w with stops := w.stops ++ [(BitVec.ofNat 8 code, BitVec.ofNat 64 addr, s.cur.slot)] } }
  | none => s.stopSpur s.cur.elem s.cur.slot s.curHandler s.curWord s.curExt s.stepStart code addr

/-! ## Configuration writes (R305) -/

/-- Indexes that a kind of configuration word has. -/
def cfgLimit (kind : Nat) : Nat :=
  match kind with
  | 0 => 32
  | 1 => 16
  | 2 => 17
  | 3 => 1
  | 4 => 32
  | _ => 0

/-- The element that a target word names. -/
def cfgTarget (k : Nat) (t : Word) : Nat := coreElem (elemCore k) (bitsOf t 0 4)

/-- Whether a target word is one that `cfg.wr` cannot write (R305). -/
def State.badCfg (s : State) (k : Nat) (t : Word) : Bool :=
  bitsOf t 13 19 ≠ 0 || t.getLsbD 7 || bitsOf t 8 5 ≥ cfgLimit (bitsOf t 4 3)
    || (s.elem (cfgTarget k t)).role ≠ .used

/-- One configuration word of an element is replaced; `g15` keeps its valid bit 0 (R305). -/
def Elem.configure (e : Elem) (t v : Word) : Elem :=
  let i := bitsOf t 8 5
  let e := { e with cfgWritten := true }
  match bitsOf t 4 3 with
  | 0 => { e with slots := e.slots.setIfInBounds i v }
  | 1 => { e with guards := e.guards.setIfInBounds i (if i = 15 then v &&& ~~~1#32 else v) }
  | 2 => { e with handlers := e.handlers.setIfInBounds i (v.extractLsb' 0 16) }
  | 3 => { e with hmask := v.extractLsb' 0 17 }
  | _ => { e with conflict := e.conflict.setIfInBounds i v }

/-- A configuration write takes effect between two steps of its target: at once for another element, after the
step for the element itself (R43, R305). -/
def State.cfgWrite (s : State) (k : Nat) (t v : Word) : State :=
  let j := cfgTarget k t
  match s.walk with
  | some w => if j = w.elem then { s with walk := some { w with cfg := w.cfg ++ [(t, v)] } }
    else s.updElem j (·.configure t v)
  | none => s.updElem j (·.configure t v)

/-! ## Leases (R304, R335) -/

/-- The time in µs that a request is granted; 0 refuses it (R335). -/
def State.leaseGrant (s : State) (k : Nat) (w : Word) : Nat :=
  let cl := elemCluster k
  let dur := bitsOf w 0 16
  let kind := bitsOf w 16 2
  let ask := bitsOf w 18 8
  let within := if kind = 1 then ask ≤ bitsOf (s.preg 0x3D2) 0 6 else ask ≤ bitsOf (s.preg 0x3D3) 0 12
  if bitsOf w 26 6 ≠ 0 || dur < 1 || dur > 50000 || !(kind = 1 || kind = 2) || (s.cluster cl).lease.isSome || !within
      || bitsOf (s.preg (0x310 + cl)) 24 3 ≠ 0 || bitsOf (s.preg (0x370 + cl)) 24 6 ≠ 40 then 0
  else min dur (Config.leaseCap s.tick)

/-- A granted lease starts. -/
def State.startLease (s : State) (k : Nat) (w : Word) (us : Nat) : State :=
  if us = 0 then s
  else
    let cl := elemCluster k
    let chain := match s.spurAt (elemCore k) with
      | some p => p.chain
      | none => 0
    let s := s.updCluster cl fun c => { c with
      lease := some ⟨k, chain, bitsOf w 16 2, bitsOf w 18 8, s.timeNs.toNat + us * 1000⟩ }
    (s.retargetNow cl).settleMeter cl

/-- Whether the spur of the element that fires holds its cluster's lease. -/
def State.holdsLease (s : State) : Bool :=
  match (s.cluster (elemCluster s.cur.elem)).lease, s.spurAt (elemCore s.cur.elem) with
  | some l, some p => p.covers (elemCore l.elem)
  | _, _ => false

/-! ## The rules -/

/-- `sys.rd` (R298): at once, or late where the controller supplies the value. -/
def execSysRd (o : SOp) (s : State) : Host.Outcome State Fault Refusal :=
  let n := o.num.toNat
  fire (.sysRd o) (fun _ => false) (fun s => s.regFault n)
    (fun s =>
      let k := s.cur.elem
      if lateReg n then
        let r := s.newReq (.control o.num) .none
        let (s, d) := s.reserveDst k o.src 1
        s.addReq { r with dst := d, group := s.nextId }
      else (s.sysLatch k n).wr o.src (s.sysValue k n)) s

/-- `sys.wr` (R298): HMASK in the user view, the privileged registers in privileged spurs. -/
def execSysWr (o : SOp) (s : State) : Host.Outcome State Fault Refusal :=
  let n := o.num.toNat
  let dm := one [o.src]
  fire (.sysWr o) (fun _ => false) (fun s => s.regFault n)
    (fun s =>
      let w := s.rd dm o.src
      let s := s.consume dm
      if n = 0x0E then s.updMe fun e => { e with hmask := w.extractLsb' 0 17 }
      else if n ≥ 0x200 then s.writeReg n w
      else s) s

/-- `nop` (R203). -/
def execNop (o : EOp) (s : State) : Host.Outcome State Fault Refusal := fireOp (.nop o) (fun s => s) s

/-- At a halt, an open draw of the spur and its requests that wait for a reply end where they stand (R75). -/
def State.endWaiting (s : State) (p : Spur) : State :=
  s.updCluster p.cluster fun c =>
    let mine (x : Cmd) : Bool := p.covers (elemCore x.elem)
    { c with
      rays := c.rays.filter fun r => !(r.state = .waiting && mine r.cmd)
      raster := if c.raster.isOpen && mine c.raster.cmd then { (default : Raster) with attrs := c.raster.attrs }
        else c.raster }

/-- `halt` (R75): the spur completes; the commands that wait in its queues are discarded, and the walk stops. -/
def execHalt (o : EOp) (s : State) : Host.Outcome State Fault Refusal :=
  fireOp (.halt o) (fun s =>
    match s.spurAt (elemCore s.cur.elem) with
    | none => s
    | some p =>
      let s := s.updSpur p.id fun p => { p with phase := .halted }
      let s := p.cores.foldl (fun s c => s.updCore c fun k =>
        { k with mx := { k.mx with queue := [], seq := k.mx.seq.map fun q => { q with stop := true } }
                 islandQ := .replicate 4 [], drawOpen := false }) s
      let s := s.endWaiting p
      { s with walk := s.walk.map fun (w : Walk) => { w with stop := true } }) s

/-- `trap` (R303): commits, and the spur stops after the step. -/
def execTrap (o : EOp) (s : State) : Host.Outcome State Fault Refusal :=
  let dm := one [o.src]
  fireOp (.trap o) (fun s => (s.consume dm).stopAfter 0x71 (stopAddr (s.rd dm o.src) o.obj.toNat)) s

/-- `brk` (R303): as `trap` where DBG_CTL bit 0 enables it, else nothing. -/
def execBrk (o : EOp) (s : State) : Host.Outcome State Fault Refusal :=
  fireOp (.brk o) (fun s => if (s.preg 0x220).getLsbD 0 then s.stopAfter 0x72 (stopAddr 0 o.obj.toNat) else s) s

/-- `step` (R303): arms or disarms the countdown where DBG_CTL bit 1 enables it. -/
def execStep (o : EOp) (s : State) : Host.Outcome State Fault Refusal :=
  let dm := one [o.src]
  let on (s : State) : Bool := (s.preg 0x220).getLsbD 1
  fire (.step o) (fun s => on s && !namesNothing o.w o.src && bitsOf (s.rd dm o.src) 24 8 ≠ 0) (fun _ => none)
    (fun s =>
      let n := (s.rd dm o.src).extractLsb' 0 24
      let s := s.consume dm
      if on s then
        { s.updMe fun e => { e with countdown := if n = 0 then none else some n } with
          walk := s.walk.map fun (w : Walk) => { w with armed := true } }
      else s) s

/-- `lease.req` (R304, R335): decided at firing, answered late. -/
def execLeaseReq (o : EOp) (s : State) : Host.Outcome State Fault Refusal :=
  let dm := one [o.src]
  fireOp (.leaseReq o) (fun s =>
    let w := s.rd dm o.src
    let us := s.leaseGrant s.cur.elem w
    let r := s.newReq .lease .none
    let (s, d) := (s.consume dm).reserveDst s.cur.elem o.port 1
    (s.addReq { r with dst := d, value := [BitVec.ofNat 32 us], phase := .answered, group := s.nextId }).startLease
      s.cur.elem w us) s

/-- `lease.rel` (R304). -/
def execLeaseRel (o : EOp) (s : State) : Host.Outcome State Fault Refusal :=
  fireOp (.leaseRel o) (fun s => if s.holdsLease then s.endLease (elemCluster s.cur.elem) else s) s

/-- `cfg.wr` (R305). -/
def execCfgWr (o : EOp) (s : State) : Host.Outcome State Fault Refusal :=
  fire (.cfgWr o) (fun s => isPair o.src && s.badCfg s.cur.elem (s.me.reg o.src.toNat)) (fun _ => none)
    (fun s => s.cfgWrite s.cur.elem (s.me.reg o.src.toNat) (s.me.reg (o.src.toNat + 1))) s

end Sys2Proof.Machine
end

