-- ==== Sys2Proof/Machine/MatrixEngine.lean ====
section
/-!
DEFINITION. The matrix engine of a core (R282 to R292, R387): the commands that it takes, tile fetches and their pins,
operations, drains and macro sequences.
-/
namespace Sys2Proof.Machine

/-! ## Parts of the engine -/

/-- Changes the matrix engine of a core. -/
def State.updMx (s : State) (core : Nat) (f : Matrix → Matrix) : State :=
  s.updCore core fun c => { c with mx := f c.mx }
/-- The matrix engine of a core. -/
def State.mx (s : State) (core : Nat) : Matrix := (s.core core).mx
/-- A tile: 0 to 3 `ta`, 4 to 7 `tb`. -/
def Matrix.tile (m : Matrix) (t : Nat) : Tile := m.tiles.getD t Tile.empty
/-- Changes a tile. -/
def State.updTile (s : State) (core t : Nat) (f : Tile → Tile) : State :=
  s.updMx core fun m => { m with tiles := m.tiles.setIfInBounds t (f (m.tile t)) }
/-- The rule of an accumulator. -/
def Matrix.rule (m : Matrix) (n : Nat) : MxRule := m.rules.getD n ⟨false, 0, 0, 0⟩
/-- The B tile of a rule as a tile number. -/
def MxRule.tbNo (r : MxRule) : Nat := 4 + r.tb.toNat
/-- The A tile of a rule. -/
def MxRule.taNo (r : MxRule) : Nat := r.ta.toNat
/-- Whether a rule names a tile. -/
def MxRule.names (r : MxRule) (t : Nat) : Bool := r.taNo = t || r.tbNo = t
/-- Whether a tile holds a fill or one is being fetched. -/
def Tile.active (t : Tile) : Bool := t.full || t.loading
/-- The value of an accumulator at a row and column. -/
def Matrix.value (m : Matrix) (acc r c : Nat) : Word := (m.acc.find (accKey acc r c)).getD 0
/-- Sets every value of an accumulator to +0 (R287). -/
def Matrix.zero (m : Matrix) (acc : Nat) : Matrix :=
  { m with acc := m.acc.filter fun v => v.1 / 1024 ≠ acc, accBad := m.accBad &&& ~~~(1#4 <<< acc) }
/-- The values of a row. -/
def Matrix.row (m : Matrix) (acc r : Nat) : List Word := (List.range 32).map (m.value acc r)
/-- Enabled rules that name a tile (R284). -/
def Matrix.consumersOf (m : Matrix) (t : Nat) : Nat :=
  ((List.range 4).filter fun n => (m.rule n).enable && (m.rule n).names t).length

/-- The fills of a rule's A and B tiles since it was set (R286). -/
def Matrix.seenOf (m : Matrix) (n : Nat) : Nat × Nat := m.seen.getD n (0, 0)
/-- A fill of a tile counts for every rule that names the tile. -/
def Matrix.noteFill (m : Matrix) (t : Nat) : Matrix :=
  { m with seen := Vector.ofFn fun (n : Fin 4) =>
      let x := m.seenOf n.val
      (x.1 + (if (m.rule n.val).taNo = t then 1 else 0), x.2 + (if (m.rule n.val).tbNo = t then 1 else 0)) }

/-- Whether an operation of an accumulator is to come whose two fills have been started: they have the same ordinal among
the fills of their tiles since the rule was set (R286, R287). -/
def Matrix.opPending (m : Matrix) (n : Nat) : Bool :=
  let r := m.rule n
  let a := m.tile r.taNo
  let b := m.tile r.tbNo
  r.enable && a.active && b.active && !a.took.getLsbD n && !b.took.getLsbD n && (m.seenOf n).1 = (m.seenOf n).2
/-- The object index of a command's word (R198). -/
def Cmd.obj (c : Cmd) : Nat := bitsOf c.word 4 6
/-- The op of a command's word. -/
def Cmd.op (c : Cmd) : Nat := bitsOf c.word 0 4

/-- Whether an accumulator is draining (R288). -/
def Matrix.drains? (m : Matrix) (n : Nat) : Bool :=
  match m.draining with
  | some (c, _) => c.obj = n
  | none => false

/-- Whether an operation of an accumulator can fire (R286, R288). -/
def Matrix.opReady (m : Matrix) (n : Nat) : Bool :=
  m.opPending n && !m.drains? n && (m.tile (m.rule n).taNo).full && (m.tile (m.rule n).tbNo).full

/-! ## Tile fetches (R283, R284) -/

/-- A tile becomes empty; its pins await their release (R284). -/
def State.emptyTile (s : State) (core t : Nat) : State :=
  s.updTile core t fun x => { Tile.empty with pinned := x.pinned, held := x.held }

/-- A tile becomes full: its consumers are the enabled rules that name it, or the accumulators of the sequence that
loads `ta0`; without any the fill is discarded (R284, R290). -/
def State.fillTile (s : State) (core t : Nat) : State :=
  let m := s.mx core
  let x := m.tile t
  let n :=
    if x.consumers > 0 then x.consumers
    else match m.seq with
      | some q => if t = 0 && q.cmd.group = x.cmd.group then byteAt q.block 1 else m.consumersOf t
      | none => m.consumersOf t
  if n = 0 then s.emptyTile core t
  else s.updTile core t fun x => { x with full := true, loading := false, consumers := n, fill := s.tick }

/-- The request of row i of a tile. -/
def tileReq (c : Cmd) (core t i va : Nat) : Req :=
  { c.toReq 0 with
    kind := .tile core t i
    dst := .none
    beat := i
    va := BitVec.ofNat 64 va
    size := 64
    phase := .sent }

/-- The row addresses of a tile that cannot be fetched, with the first one's fault (R119, R283). -/
def State.badRow (s : State) (core : Nat) (scratch : Bool) (addrs : List (Option Nat)) : Option (Nat × Nat) :=
  let all := addrs.filterMap id
  let high := all.find? fun a => if scratch then s.rebase core a ≥ 2 ^ 23 else a ≥ 2 ^ 55
  match high with
  | some a => some (if scratch then 0x13 else 0x10, a)
  | none =>
    match all.find? fun a => a % 64 ≠ 0 with
    | some a => some (0x12, a)
    | none => none

/-- The reads of a global tile's rows are sent. -/
def State.sendRows (s : State) (core t : Nat) : State :=
  let x := (s.mx core).tile t
  x.addrs.zipIdx.foldl (fun s a => match a.1 with
    | some va => s.addReq (tileReq x.cmd core t a.2 va)
    | none => s) s

/-- A fetch of a tile starts, or starts again: a scratch tile is full at once (R284). Row addresses that a macro
sequence forms are checked here. -/
def State.issueTile (s : State) (core t : Nat) : State :=
  let x := (s.mx core).tile t
  match s.badRow core x.scratch x.addrs with
  | some (code, a) => s.bump.lateFault { tileReq x.cmd core t 32 a with id := s.nextId } code a
  | none => if x.scratch then s.fillTile core t else s.sendRows core t

/-- A fill of a tile is started by a command (R283). -/
def State.startTile (s : State) (core t : Nat) (scratch : Bool) (addrs : List (Option Nat)) (c : Cmd) : State :=
  let none_ := ((addrs.zipIdx.filter (·.1.isNone)).map (·.2)).foldl (fun (b : BitVec 32) i => b ||| 1#32 <<< i) 0
  let s := s.updTile core t fun _ => { Tile.empty with
    loading := true
    scratch := scratch
    rows := List.replicate 2048 0
    addrs := addrs
    arrived := none_
    cmd := c }
  (s.updMx core (·.noteFill t)).issueTile core t

/-- Whether a fill of a tile may start: it is empty and its earlier pins are released. -/
def State.tileFree (s : State) (core t : Nat) : Bool :=
  !((s.mx core).tile t).active && !s.pins.any fun p => p.core = core && p.tile = t

/-- Whether a line can be pinned: it is, or its slice has a free entry of 64 (R137). -/
def State.pinRoom (s : State) (cl sec : Nat) : Bool :=
  let line (x : Nat) : Nat := x / 4
  let mine := ((s.pins.filter fun p => p.cluster = cl && line p.sector % 8 = line sec % 8).map fun p => line p.sector).eraseDups
  mine.contains (line sec) || mine.length < 64

/-- A row's bytes arrive in the tile. -/
def State.putRow (s : State) (core t i : Nat) (bs : List Byte) : State :=
  s.updTile core t fun x => { x with
    rows := x.rows.take (64 * i) ++ bs ++ x.rows.drop (64 * i + 64)
    arrived := x.arrived ||| 1#32 <<< i }

/-- A row of a global tile binds: through the cluster's copies, whose line it pins, or at the home (R131, R137,
R284). -/
def State.bindTile (s : State) (r : Req) (k core t i : Nat) : State :=
  let cl := coreCluster core
  match s.loadPoison r k with
  | some j => s.lateFault r 0x20 (r.va.toNat + (j - k))
  | none =>
    if r.atHome then (s.putRow core t i (s.homeRead k 64)).dropReq r.id
    else if s.heldAt core then (s.putRow core t i (s.clusterRead cl k 64)).dropReq r.id
    else if !s.pinRoom cl (sectorOf k) then s
    else
      let s := (s.fillSector cl (sectorOf k)).noteLine cl k 64 r.policy
      let s := (s.putRow core t i (s.clusterRead cl k 64)).dropReq r.id
      let now := s.clusterSteps cl
      let s := s.updTile core t fun x => if x.pinned then x else { x with pinned := true, held := now }
      { s with pins := s.pins ++ [⟨cl, sectorOf k, core, t, now⟩] }

/-- `TILE_FILL_COMPLETE` (R284): the tile `b` of the core `a`, when its 32 rows have arrived. -/
def execTileFillComplete (s : State) : Host.Outcome State Fault Refusal :=
  let x := (s.mx s.pick.a).tile s.pick.b
  if x.loading && x.arrived = 0xFFFFFFFF#32 then .next (s.fillTile s.pick.a s.pick.b) else .next s

/-- `PIN_RELEASE` (R137): the pins of the tile `b` of the core `a`, once its consumers have read it. -/
def execPinRelease (s : State) : Host.Outcome State Fault Refusal :=
  if ((s.mx s.pick.a).tile s.pick.b).active then .next s
  else
    let s := { s with pins := s.pins.filter fun p => !(p.core = s.pick.a && p.tile = s.pick.b) }
    .next (s.updTile s.pick.a s.pick.b fun x => { x with pinned := false })

/-- The firing steps of its cluster after which a pin is reported (R387). -/
def pinHoldSteps : Nat := 2 ^ 20

/-- The oldest pin of a cluster whose fill some operation has still to read (R137). -/
def State.oldestPin (s : State) (cl : Nat) : Option Pin :=
  (s.pins.filter fun p => p.cluster == cl && ((s.mx p.core).tile p.tile).active).foldl (fun (best : Option Pin) p => match best with
    | some q => if p.since < q.since then some p else best
    | none => some p) none

/-- `PIN_HOLD_TIMEOUT` (R387): the oldest pin of the cluster `a` has been held for 2^20 of its firing steps: 0x49 on the
`mx.ld` whose fill holds it, without a replay entry; the freeze releases the pins. -/
def execPinHoldTimeout (s : State) : Host.Outcome State Fault Refusal :=
  match s.oldestPin s.pick.a with
  | some p =>
    let x := (s.mx p.core).tile p.tile
    if s.clusterSteps s.pick.a ≥ p.since + pinHoldSteps then
      .next (s.stopSpur x.cmd.elem x.cmd.slot x.cmd.handler x.cmd.word x.cmd.ext x.cmd.step 0x49 0)
    else .next s
  | none => .next s

/-! ## Operations (R286, R108, R109) -/

/-- The bytes of a tile's rows, scratch rows read now, none for a row without an address; or the first poisoned
address (R284, R384). -/
def State.tileRows (s : State) (core : Nat) (x : Tile) : Except Nat (List (Option (List Byte))) :=
  let cl := coreCluster core
  let key (a : Nat) : Nat := scratchKey cl (s.rebase core a)
  let bad := if x.scratch then (x.addrs.filterMap id).findSome? fun a =>
      (s.scratchPoisoned (key a) 64).map fun k => a + (k - key a) else none
  match bad with
  | some a => .error a
  | none => .ok (x.addrs.zipIdx.map fun a => match a.1 with
      | some va => some (if x.scratch then s.scratchRead (key va) 64 else (x.rows.drop (64 * a.2)).take 64)
      | none => none)

/-- Whether a row's format belongs to a group (R286); a row without an address always does (R291). -/
def rowFits (group : Nat) (row : Option (List Byte)) : Bool :=
  match row with
  | some b => fmtGroup (byteAt b 0) = some group
  | none => true

/-- The values of an accumulator after an operation (R108). -/
def Matrix.operate (m : Matrix) (n : Nat) (as_ bs : List (Option (List Byte))) : Matrix :=
  let prep (r : Option (List Byte)) : Option (List Num × Nat) := r.map fun b => (blockElems b, byteAt b 1)
  let aRows := as_.map prep
  let bRows := bs.map prep
  let new := aRows.zipIdx.flatMap fun a => bRows.zipIdx.map fun b =>
    let old := m.value n a.2 b.2
    match a.1, b.1 with
    | some x, some y => (accKey n a.2 b.2, accumulate old x.1 y.1 (x.2 + y.2))
    | _, _ => (accKey n a.2 b.2, old)
  { m with acc := new.foldl (fun (t : Assoc Word) (v : Nat × Word) => if v.2 = 0 then t.del v.1 else t.put v.1 v.2) m.acc }

/-- The tile of a pair whose fill completed it. -/
def Matrix.lastFill (m : Matrix) (r : MxRule) : Nat :=
  if (m.tile r.taNo).fill > (m.tile r.tbNo).fill then r.taNo else r.tbNo

/-- A fault that an operation finds belongs to a tile's `mx.ld`: the fetch counts as not done (R281, R286). -/
def State.opFault (s : State) (core t code addr : Nat) : State :=
  let x := (s.mx core).tile t
  let none_ := ((x.addrs.zipIdx.filter (·.1.isNone)).map (·.2)).foldl (fun (b : BitVec 32) i => b ||| 1#32 <<< i) 0
  let s := s.updTile core t fun x => { x with full := false, loading := true, arrived := none_ }
  s.bump.lateFault { tileReq x.cmd core t 32 0 with id := s.nextId } code addr

/-- An accumulator has consumed a tile (R284). -/
def State.consumeTile (s : State) (core t n : Nat) : State :=
  if ((s.mx core).tile t).consumers ≤ 1 then s.emptyTile core t
  else s.updTile core t fun x => { x with consumers := x.consumers - 1, took := x.took ||| 1#4 <<< n }

/-- The operation of accumulator n of a core fires. -/
def State.operateMx (s : State) (core n : Nat) : State :=
  let m := s.mx core
  let r := m.rule n
  match s.tileRows core (m.tile r.taNo), s.tileRows core (m.tile r.tbNo) with
  | .error a, _ => s.opFault core r.taNo 0x20 a
  | _, .error a => s.opFault core r.tbNo 0x20 a
  | .ok as_, .ok bs =>
    if m.accBad.getLsbD n then s.opFault core (m.lastFill r) 0x20 0
    else if !(as_.all (rowFits r.group.toNat) && bs.all (rowFits r.group.toNat)) then s.opFault core (m.lastFill r) 0x48 0
    else
      let s := s.updMx core fun m => m.operate n as_ bs
      (s.consumeTile core r.taNo n).consumeTile core r.tbNo n

/-- The operation of accumulator n meets a bit error in its operands (R383): with `c` = 1 it is corrected and counted;
with `c` = 2 the A tile (`b` = 0), the B tile (`b` = 1) or the accumulator is poisoned and counted, and a poisoned tile
is fetched again (R384) (DEDUCED, log 48). -/
def State.operateError (s : State) (core n : Nat) : State :=
  let r := (s.mx core).rule n
  if s.pick.c = 1 then (s.countPreg 0x230).operateMx core n
  else if s.pick.c ≠ 2 then s.operateMx core n
  else
    let s := s.countPreg 0x231
    if s.pick.b ≤ 1 then s.opFault core (if s.pick.b = 0 then r.taNo else r.tbNo) 0x20 0
    else (s.updMx core fun m => { m with accBad := m.accBad ||| 1#4 <<< n }).operateMx core n

/-- `MATRIX_OPERATION` (R282, R286): the lowest accumulator of the core `a` whose operation is ready. -/
def execMatrixOperation (s : State) : Host.Outcome State Fault Refusal :=
  let s := s.storageError
  match (List.range 4).find? (s.mx s.pick.a).opReady with
  | some n => .next (s.operateError s.pick.a n)
  | none => .next s

/-! ## Reads and drains (R287, R288) -/

/-- An engine's answer to a command: it waits to be delivered (R280). -/
def State.answerCmd (s : State) (c : Cmd) (ws : List Word) : State :=
  s.addReq { c.toReq 0 with phase := .answered, value := ws }

/-- The words that `mx.read` returns (R287). -/
def Matrix.read (m : Matrix) (acc : Nat) (sel : Word) : List Word :=
  if sel.getLsbD 10 then m.row acc (bitsOf sel 0 5) else [m.value acc (bitsOf sel 0 5) (bitsOf sel 5 5)]

/-- The column of the largest value of a row (R288). -/
def argmaxRow (ws : List Word) : Nat :=
  (ws.zipIdx.foldl (fun (best : Option (Word × Nat)) x =>
    if (val32 x.1).isNan then best
    else match best with
      | none => some (x.1, x.2)
      | some b => if fp32.below b.1.toNat x.1.toNat then some (x.1, x.2) else best) none).elim 0 (·.2)

/-- The bytes of row r that a drain writes: words, blocks, or all rows' columns at once (R288). -/
def Matrix.drainBytes (m : Matrix) (acc : Nat) (x : Word) (r : Nat) : List Byte :=
  let fmt := xBits x 0 8
  match xBits x 14 2 with
  | 2 => bytesOfWords ((List.range 32).map fun i => BitVec.ofNat 32 (argmaxRow (m.row acc i)))
  | 1 =>
    let vals := (m.row acc r).map val32
    let pack (xs : List Num) : List Byte := if x.getLsbD 8 then packBlock fmt xs else packBlockAt fmt 127 xs
    if packBlocks fmt = 2 then pack (vals.take 31) ++ pack (vals.drop 31) else pack vals
  | _ => bytesOfWords (m.row acc r)

/-- The 64-byte writes of row r of a drain. -/
def Matrix.drainWrites (m : Matrix) (acc : Nat) (x : Word) (base r : Nat) : List (Nat × List Byte) :=
  match (drainRows x base)[r]? with
  | some (a, n) =>
    let bs := m.drainBytes acc x r
    (List.range (n / 64)).map fun i => (a + 64 * i, (bs.drop (64 * i)).take 64)
  | none => []

/-- A drain is taken: its accumulator is draining until every write is issued (R288). A poisoned accumulator is 0x20 of
the drain (R384). -/
def State.startDrain (s : State) (core acc : Nat) (c : Cmd) : State :=
  if (s.mx core).accBad.getLsbD acc then s.cmdFault c 0x20 0
  else s.updMx core fun m => { m with draining := some (c, 0) }

/-- The writes of the next row of a drain are issued; behind the last the draining mark clears and the accumulator is
set to +0 when asked (R288). -/
def State.drainRow (s : State) (core : Nat) (c : Cmd) (r : Nat) : State :=
  let x := c.ext
  let m := s.mx core
  let scratch := x.getLsbD 13
  let s := (m.drainWrites c.obj x (baseOf c.ops) r).zipIdx.foldl (fun s w => s.addReq { c.toReq 0 with
    kind := .mxDrain core
    dst := .none
    beat := 2 * r + w.2
    space := if scratch then 1 else 0
    va := BitVec.ofNat 64 w.1.1
    pa := if scratch then some (scratchKey (coreCluster core) (s.rebase core w.1.1)) else none
    size := 64
    ops := wordsOfBytes w.1.2
    phase := if scratch then .ready else .sent }) s
  s.updMx core fun m =>
    if r + 1 < (drainRows x (baseOf c.ops)).length then { m with draining := some (c, r + 1) }
    else
      let m := if x.getLsbD 16 then m.zero c.obj else m
      { m with draining := none, drains := m.drains ++ [⟨c, x.extractLsb' 17 3, s.nextId⟩] }

/-- A write of a drain lands in the cluster's copy, at the home or in scratch (R131, R288). -/
def State.landDrain (s : State) (r : Req) (k : Nat) : State :=
  let cl := elemCluster r.elem
  let bs := (bytesOfWords r.ops).take 64
  if r.space ≠ 0 then (s.scratchWrite k bs).dropReq r.id
  else if s.pinnedPlace cl k 64 then s
  else
    let s := s.landAt cl k r.policy bs
    if r.atHome then s.dropReq r.id else s.updReq r.id fun q => { q with phase := .landed }

/-- Writes of a drain that have not landed. -/
def State.drainOpen (s : State) (d : MxDrain) : Bool :=
  let mine (r : Req) : Bool := r.group = d.cmd.group && r.elem = d.cmd.elem && r.kind ≠ .engine
  s.reqs.any (fun r => mine r && r.phase ≠ .landed) || s.replayed.any mine

/-- A drain whose rows have all landed as the release that its destination word is (R288). -/
def MxDrain.asRelease (d : MxDrain) : Req := { d.cmd.toReq d.last with rel := true, scope := d.scope }

/-- `MATRIX_DRAIN_DONE` (R288): the oldest drain of the core `a` whose writes have all landed: they are performed at its
scope, and its destination receives 0, which is a release at that scope: earlier drains of its `e0` have landed too
(R134). -/
def execMatrixDrainDone (s : State) : Host.Outcome State Fault Refusal :=
  let core := s.pick.a
  match takeFirst (fun d => !s.drainOpen d) (s.mx core).drains with
  | none => .next s
  | some (d, rest) =>
    let r := d.asRelease
    if !s.releaseReady r then .next s
    else
      let s := (s.release r).updMx core fun m => { m with drains := rest }
      .next (s.answerCmd d.cmd [0])

/-! ## Commands (R282) -/

/-- Whether the tiles that a rule names are empty (DEDUCED, log 32). -/
def Matrix.ruleFree (m : Matrix) (r : MxRule) : Bool := !(m.tile r.taNo).active && !(m.tile r.tbNo).active

/-- Whether `mx.rule` can be carried out (R285). -/
def Matrix.canSetRule (m : Matrix) (n : Nat) (r : MxRule) : Bool := m.ruleFree (m.rule n) && m.ruleFree r
/-- Sets the rule of an accumulator, which has seen no fill yet (R286). -/
def Matrix.setRule (m : Matrix) (n : Nat) (r : MxRule) : Matrix :=
  { m with rules := m.rules.setIfInBounds n r, seen := m.seen.setIfInBounds n (0, 0) }

/-- The row addresses of an `mx.ld` command. -/
def ldAddrs (c : Cmd) : List (Option Nat) :=
  (List.range 32).map fun i => some (mxRow (baseOf c.ops) (mxStride (fieldW c.word) c.ext) i)

/-- Removes the head of the queue. -/
def State.popCmd (s : State) (core : Nat) : State := s.updMx core fun m => { m with queue := m.queue.drop 1 }

/-- The checks of a sequence block (R289). -/
def seqOk (conv : Bool) (b : List Byte) : Bool :=
  let f (off n : Nat) : Nat := fieldAt b off n
  let base (flag off : Nat) : Bool := if (byteAt b 3).testBit flag then f off 8 < 2 ^ 23 else f off 8 < 2 ^ 55
  byteAt b 0 = (if conv then 2 else 1) && 1 ≤ byteAt b 1 && byteAt b 1 ≤ 4 && byteAt b 2 ≤ 3 && byteAt b 3 < 8
    && f 4 2 ≠ 0 && f 6 2 = 0 && base 1 0x08 && base 2 0x10 && f 0x18 4 ≠ 0 && f 0x18 4 % 64 = 0
    && f 0x1C 4 ≠ 0 && f 0x1C 4 % 64 = 0 && f 0x20 4 % 64 = 0 && (conv || f 0x24 4 % 64 = 0) && f 0x28 4 % 64 = 0
    && f 0x2C 4 = 0
    && (if conv then f 0x30 2 ≠ 0 && f 0x32 2 ≠ 0 && (List.range 6).all (fun i => byteAt b (0x34 + i) ≠ 0)
          && f 4 2 % (byteAt b 0x34 * byteAt b 0x35) = 0
        else zeroAt b 0x30 16)

/-- A macro sequence is taken: its block is read and checked (R289). -/
def State.startSeq (s : State) (core : Nat) (conv : Bool) (c : Cmd) : State :=
  match s.engRead core (baseOf c.ops) 64 with
  | .error (code, addr) => s.cmdFault c code addr
  | .ok b =>
    if !seqOk conv b then s.cmdFault c 0x40 0
    else s.updMx core fun m => { m with seq := some ⟨c, conv, b, 0, 0, false⟩ }

/-- Accumulators of a sequence. -/
def Seq.n (q : Seq) : Nat := byteAt q.block 1
/-- Commands before the first K block: rules, and zeros when asked (R290). -/
def Seq.setup (q : Seq) : Nat := if (byteAt q.block 3).testBit 0 then 2 * q.n else q.n
/-- K blocks of a sequence. -/
def Seq.nk (q : Seq) : Nat := fieldAt q.block 4 2
/-- Whether every load of the K block under way is issued. -/
def Seq.issued (q : Seq) : Bool := q.step > q.setup + q.n

/-- The A row i of a K block (R290, R291); none for a row of padding. -/
def Seq.aRow (q : Seq) (i : Nat) : Option Nat :=
  let b := q.block
  let base := fieldAt b 0x08 8
  let ars := fieldAt b 0x18 4
  if !q.conv then some (base + q.kb * fieldAt b 0x24 4 + i * ars)
  else
    let kh := byteAt b 0x34
    let kw := byteAt b 0x35
    let cb := q.nk / (kh * kw)
    let c := q.kb % cb
    let kx := q.kb / cb % kw
    let ky := q.kb / (cb * kw)
    let h := fieldAt b 0x30 2
    let w := fieldAt b 0x32 2
    let iy : Int := (fieldAt b 0x3C 2 * byteAt b 0x36 + ky * byteAt b 0x38 : Nat) - (byteAt b 0x3A : Int)
    let ix : Int := ((fieldAt b 0x3E 2 + i) * byteAt b 0x37 + kx * byteAt b 0x39 : Nat) - (byteAt b 0x3B : Int)
    if 0 ≤ iy && iy < h && 0 ≤ ix && ix < w then some (base + (iy.toNat * w + ix.toNat) * ars + c * 64) else none
/-- The B row i of accumulator j in a K block (R290). -/
def Seq.bRow (q : Seq) (j i : Nat) : Nat :=
  let b := q.block
  fieldAt b 0x10 8 + j * fieldAt b 0x20 4 + q.kb * fieldAt b 0x28 4 + i * fieldAt b 0x1C 4

/-- The next command of a sequence, when its condition holds (R290). -/
def State.seqCommand (s : State) (core : Nat) (q : Seq) : State :=
  let m := s.mx core
  let flags := byteAt q.block 3
  let next (s : State) : State := s.updMx core fun m => { m with seq := m.seq.map fun q => { q with step := q.step + 1 } }
  if q.step < q.n then
    let r : MxRule := ⟨true, BitVec.ofNat 3 (byteAt q.block 2), 0, BitVec.ofNat 2 q.step⟩
    if m.canSetRule q.step r then next (s.updMx core fun m => m.setRule q.step r) else s
  else if q.step < q.setup then
    let n := q.step - q.n
    if m.opPending n then s else next (s.updMx core fun m => m.zero n)
  else if q.step = q.setup then
    if s.tileFree core 0 then (next s).startTile core 0 (flags.testBit 1) ((List.range 32).map q.aRow) q.cmd else s
  else if !q.issued then
    let j := q.step - q.setup - 1
    if s.tileFree core (4 + j) then
      (next s).startTile core (4 + j) (flags.testBit 2) ((List.range 32).map fun i => some (q.bRow j i)) q.cmd
    else s
  else s

/-- The command at the head of the queue, when its condition holds (R282 to R289). -/
def State.headCommand (s : State) (core : Nat) (c : Cmd) : State :=
  let m := s.mx core
  let n := c.obj
  match c.op with
  | 0 =>
    if s.tileFree core n then
      (s.popCmd core).startTile core n (mxScratch (fieldW c.word) c.ext) (ldAddrs c) c
    else s
  | 1 =>
    let r := mxRuleOf (c.ops.getD 0 0)
    if m.canSetRule n r then (s.popCmd core).updMx core fun m => m.setRule n r else s
  | 2 => if m.opPending n then s else (s.popCmd core).updMx core fun m => m.zero n
  | 3 =>
    if m.opPending n then s
    else if m.accBad.getLsbD n then (s.popCmd core).cmdFault c 0x20 0
    else (s.popCmd core).answerCmd c (m.read n (c.ops.getD 0 0))
  | 4 => if m.opPending n then s else (s.popCmd core).startDrain core n c
  | 5 => (s.popCmd core).startSeq core false c
  | _ => (s.popCmd core).startSeq core true c

/-- Whether a sequence stands at a boundary: before its first command, before a K block, or after the last operation of
one (R77, R290). -/
def Seq.atRest (q : Seq) (m : Matrix) : Bool :=
  q.step = 0 || q.step = q.setup || (q.issued && !(List.range q.n).any m.opPending)

/-- The head command reads an accumulator in which a bit error is found (R383): as in `State.operateError`. -/
def State.readError (s : State) (core : Nat) (c : Cmd) : State :=
  if (c.op ≠ 3 && c.op ≠ 4) || (s.pick.c ≠ 1 && s.pick.c ≠ 2) then s
  else if s.pick.c = 1 then s.countPreg 0x230
  else (s.countPreg 0x231).updMx core fun m => { m with accBad := m.accBad ||| 1#4 <<< c.obj }

/-- `MATRIX_COMMAND_TAKE` (R282, R288, R290): the engine of the core `a` takes its next command: a row of the drain
under way, a running sequence's next, or the head of its queue. In a frozen ridge a sequence goes on to its next
boundary, and nothing else is taken (R77, R353). -/
def execMatrixCommandTake (s : State) : Host.Outcome State Fault Refusal :=
  let s := s.storageError
  let core := s.pick.a
  let m := s.mx core
  if s.heldAt core then
    match m.seq with
    | some q => if q.atRest m then .next s else .next (s.seqCommand core q)
    | none => .next s
  else
    match m.draining, m.seq, m.queue with
    | some (c, r), _, _ => .next (s.drainRow core c r)
    | none, some q, _ => .next (s.seqCommand core q)
    | none, none, c :: _ => .next ((s.readError core c).headCommand core c)
    | none, none, [] => .next s

/-- `MSEQ_KBLOCK_BOUNDARY` (R290, R292): the sequence of the core `a` has fired every operation of its K block: it goes
on, or ends with the count of K blocks. A frozen sequence stays at its boundary. -/
def execMseqKblockBoundary (s : State) : Host.Outcome State Fault Refusal :=
  let core := s.pick.a
  let m := s.mx core
  match m.seq with
  | none => .next s
  | some q =>
    if !q.issued || (List.range q.n).any m.opPending || s.heldAt core then .next s
    else if q.stop || q.kb + 1 = q.nk then
      .next ((s.updMx core fun m => { m with seq := none }).answerCmd q.cmd [BitVec.ofNat 32 (q.kb + 1)])
    else .next (s.updMx core fun m => { m with seq := some { q with kb := q.kb + 1, step := q.setup } })

end Sys2Proof.Machine
end

