-- ==== Sys2Proof/Machine/Accesses.lean ====
section
/-!
DEFINITION. The binding of every read and the landing of every write (R131), by what sends it: memory rules, prefetches,
`chain.put`, copy firings, tile fetches, drains and signals.
-/
namespace Sys2Proof.Machine

/-- A load that is translated binds at its scratchpad, copy or home. -/
def State.bindLoadAt (s : State) (r : Req) (k : Nat) : State :=
  if r.phase ≠ .ready || !s.beatOrder r then s
  else if r.scratch then (s.joinReplay r).getD (s.bindScratch r k)
  else s.bindLoad r k

/-- A read of a request binds (R131). -/
def State.bindReq (s : State) (r : Req) : State :=
  match r.kind, r.pa with
  | .load _, some k => s.bindLoadAt r k
  | .loadBlock, some k => s.bindLoadAt r k
  | .prefetch, some k => if r.phase = .ready then s.bindPrefetch r k else s
  | .tile core t i, some k => if r.phase = .ready then s.bindTile r k core t i else s
  | .chainPut q, _ => if r.phase = .sent then s.storageError.bindChainPut r q else s
  | .copy core ct, _ => s.storageError.readFiring core ct
  | _, _ => s

/-- `READ_BINDING` (R131): the read of the request `a`; with `flag` it fills a copy. -/
def execReadBinding (s : State) : Host.Outcome State Fault Refusal :=
  match s.req? s.pick.a with
  | some r => .next ((s.softError r).bindReq r)
  | none => .next s

/-- A signal is set once its release is done (R263). -/
def State.landSignal (s : State) (r : Req) (n : Nat) : State :=
  if !s.releaseReady r then s else ((s.release r).dropReq r.id).setSignal n

/-- A write of a request lands (R131). -/
def State.landReq (s : State) (r : Req) : State :=
  match r.kind, r.pa with
  | .store, some k => if r.phase = .ready && s.beatOrder r then s.landStore r k else s
  | .storeBlock, some k => if r.phase = .ready && s.beatOrder r then s.landStore r k else s
  | .mxDrain _, some k => if r.phase = .ready then s.landDrain r k else s
  | .signal n, _ => s.landSignal r n
  | .stopCt ct, _ =>
    if ((s.core (elemCore r.elem)).template ct).firing.isSome || s.ctBefore r ct then s else (s.dropReq r.id).stopTemplate r ct
  | .copy core ct, _ => s.landFiring core ct
  | _, _ => s

/-- `WRITE_LANDING` (R131): the write of the request `a`. -/
def execWriteLanding (s : State) : Host.Outcome State Fault Refusal :=
  match s.req? s.pick.a with
  | some r => .next (s.landReq r)
  | none => .next s

end Sys2Proof.Machine
end

