-- ==== Sys2Proof/Machine/Beats.lean ====
section
/-!
DEFINITION. Beat instructions (cell 0x18, R230).
-/
namespace Sys2Proof.Machine


/-- Addition of a beat type (R230). -/
def vadd (t : BitVec 1) (x y : Word) : Word := if t = 1 then fadd32 x y else x + y
/-- Maximum of a beat type; `.i32` signed (R230). -/
def vmaxW (t : BitVec 1) (x y : Word) : Word := if t = 1 then fmax32 x y else if x.slt y then y else x
/-- Minimum of a beat type. -/
def vminW (t : BitVec 1) (x y : Word) : Word := if t = 1 then fmin32 x y else if y.slt x then y else x
/-- An FP32 NaN made canonical: a beat form writes no NaN with a payload (R97, R230). -/
def canonNan (t : BitVec 1) (x : Word) : Word := if t = 1 && (val32 x).isNan then 0x7FC00000#32 else x
/-- Whether x strictly exceeds the kept value; a number replaces a kept NaN, never the reverse (R230). -/
def vgt (t : BitVec 1) (x kept : Word) : Bool :=
  if t = 1 then !(val32 x).isNan && ((val32 kept).isNan || fp32.below kept.toNat x.toNat) else kept.slt x
/-- Whether x is strictly below the kept value. -/
def vlt (t : BitVec 1) (x kept : Word) : Bool :=
  if t = 1 then !(val32 x).isNan && ((val32 kept).isNan || fp32.below x.toNat kept.toNat) else x.slt kept
/-- q(x) of `vcount` (R230). -/
def vq (t : BitVec 1) (x : Word) : Word :=
  if t = 1 then (if (val32 x).isNan || (val32 x).isZero then 0 else 1) else if x = 0 then 0 else 1
/-- sat16 (R230). -/
def sat16 (x : Word) : Nat := (BitVec.ofInt 16 (clampInt (-32768) 32767 x.toInt)).toNat

/-- A reduction: beat 0 starts from `first`, later beats fold into dst (R230). -/
def State.reduce (s : State) (o : ROp) (cs : List Code) (first : Word → Word → Word)
    (step : Word → Word → Word → Word) :
    State :=
  let dm := one cs
  let x := s.rd dm o.a
  let y := s.rd dm o.b
  let old := s.me.reg o.d.toNat
  (s.consume dm).wr o.d (if s.beatNo = 0 then first x y else step old x y)

/-- `vargmax` and `vargmin`: the pair holds the kept value and its beat (R230). -/
def State.argBest (s : State) (t : BitVec 1) (o : ROp) (better : Word → Word → Bool) : State :=
  let dm := one [o.a]
  let x := s.rd dm o.a
  let r := o.d.toNat
  let kept := s.me.reg r
  let k := s.beatNo
  let s := s.consume dm
  if k = 0 then s.updMe fun e => (e.setReg r (canonNan t x)).setReg (r + 1) 0
  else if better x kept then s.updMe fun e => (e.setReg r x).setReg (r + 1) (BitVec.ofNat 32 k)
  else s

/-- `vscan`: the exclusive prefix; the running sum is kept only while the rule runs (R230). -/
def State.scan (s : State) (t : BitVec 1) (o : ROp) : State :=
  let dm := one [o.a]
  let x := s.rd dm o.a
  let k := s.beatNo
  let sum := match s.me.beat with
    | some b => b.scan
    | none => 0
  let out := if k = 0 then 0 else sum
  let next := if k = 0 then canonNan t x else vadd t sum x
  ((s.consume dm).wr o.d out).updMe fun e => { e with beat := e.beat.map fun b => { b with scan := next } }

/-- `vsum` (R230). -/
def execVsum (o : ROp) (t : BitVec 1) (s : State) : Host.Outcome State Fault Refusal :=
  fireOp (.vsum o t) (fun s => s.reduce o [o.a] (fun x _ => canonNan t x) (fun z x _ => vadd t z x)) s

/-- `vdot` (R230). -/
def execVdot (o : ROp) (t : BitVec 1) (s : State) : Host.Outcome State Fault Refusal :=
  fireOp (.vdot o t) (fun s => s.reduce o [o.a, o.b] (fun x y => if t = 1 then fmul32 x y else x * y)
    (fun z x y => if t = 1 then fma32 x y z else z + x * y)) s

/-- `vmax` (R230). -/
def execVmax (o : ROp) (t : BitVec 1) (s : State) : Host.Outcome State Fault Refusal :=
  fireOp (.vmax o t) (fun s => s.reduce o [o.a] (fun x _ => canonNan t x) (fun z x _ => vmaxW t z x)) s

/-- `vmin` (R230). -/
def execVmin (o : ROp) (t : BitVec 1) (s : State) : Host.Outcome State Fault Refusal :=
  fireOp (.vmin o t) (fun s => s.reduce o [o.a] (fun x _ => canonNan t x) (fun z x _ => vminW t z x)) s

/-- `vargmax` (R230). -/
def execVargmax (o : ROp) (t : BitVec 1) (s : State) : Host.Outcome State Fault Refusal :=
  fireOp (.vargmax o t) (fun s => s.argBest t o (vgt t)) s

/-- `vargmin` (R230). -/
def execVargmin (o : ROp) (t : BitVec 1) (s : State) : Host.Outcome State Fault Refusal :=
  fireOp (.vargmin o t) (fun s => s.argBest t o (vlt t)) s

/-- `vscan` (R230). -/
def execVscan (o : ROp) (t : BitVec 1) (s : State) : Host.Outcome State Fault Refusal :=
  fireOp (.vscan o t) (fun s => s.scan t o) s

/-- `vpack` (R230). -/
def execVpack (o : ROp) (t : BitVec 1) (s : State) : Host.Outcome State Fault Refusal :=
  fireOp (.vpack o t) (fun s => s.bin o.a o.b o.d (fun x y =>
    if t = 1 then joinLanes (fp32.convert fp16 0 x.toNat) (fp32.convert fp16 0 y.toNat)
    else joinLanes (sat16 x) (sat16 y))) s

/-- `vunpack` (R230). -/
def execVunpack (o : ROp) (t : BitVec 1) (s : State) : Host.Outcome State Fault Refusal :=
  fireOp (.vunpack o t) (fun s => s.bin o.a o.b o.d (fun x y =>
    let h := lane (y.toNat % 2) x
    if t = 1 then BitVec.ofNat 32 (fp16.convert fp32 0 h) else (BitVec.ofNat 16 h).signExtend 32)) s

/-- `vcount` (R230). -/
def execVcount (o : ROp) (t : BitVec 1) (s : State) : Host.Outcome State Fault Refusal :=
  fireOp (.vcount o t) (fun s => s.reduce o [o.a] (fun x _ => vq t x) (fun z x _ => z + vq t x)) s

end Sys2Proof.Machine
end

