-- ==== Sys2Proof/Machine/CarryChain.lean ====
section
/-!
DEFINITION. The carry chain (cell 0x10, R222, R61).
-/
namespace Sys2Proof.Machine


/-- A carry-chain rule: the operands and the carry word are read, the word is taken, the result written and the
outgoing carry word put into `co` (R222). -/
def State.chainOp (s : State) (o : ROp) (f : Word → Word → Carry → Word × Carry) : State :=
  let dm := one [o.a, o.b]
  let r := f (s.rd dm o.a) (s.rd dm o.b) s.carryIn
  ((((s.consume dm).takeCarry).wr o.d r.1).writeCo r.2)

/-- `addc`: x + y + carry. -/
def addcF (x y : Word) (c : Carry) : Word × Carry :=
  let t := x.toNat + y.toNat + carryBit c
  (BitVec.ofNat 32 t, mkCarry (t ≥ 2 ^ 32) 0)
/-- `subc`: x - y - borrow. -/
def subcF (x y : Word) (c : Carry) : Word × Carry :=
  let t : Int := (x.toNat : Int) - (y.toNat : Int) - (carryBit c : Int)
  (BitVec.ofInt 32 t, mkCarry (t < 0) 0)
/-- `mulc`: x · y plus the carry word; `co` carries the high word. -/
def mulcF (x y : Word) (c : Carry) : Word × Carry :=
  let t := x.toNat * y.toNat + (carryWord c).toNat
  (BitVec.ofNat 32 t, BitVec.ofNat 33 (t / 2 ^ 32))
/-- `shlc`: bits from the less significant limb enter at the bottom. -/
def shlcF (x y : Word) (c : Carry) : Word × Carry :=
  let n := y.toNat % 32
  (if n = 0 then x else (x <<< n) ||| (carryWord c >>> (32 - n)), mkCarry false x.toNat)
/-- `shrc`: bits from the more significant limb enter at the top. -/
def shrcF (x y : Word) (c : Carry) : Word × Carry :=
  let n := y.toNat % 32
  (if n = 0 then x else (x >>> n) ||| (carryWord c <<< (32 - n)), mkCarry false x.toNat)
/-- `cmpc`: 0 equal, 1 less, 2 greater. -/
def cmpcF (x y : Word) (c : Carry) : Word × Carry :=
  let st := if x.ult y then 1 else if y.ult x then 2 else (carryWord c).toNat % 4
  (BitVec.ofNat 32 st, mkCarry (st = 1) st)

/-- `addc` (R222). -/
def execAddc (o : ROp) (s : State) : Host.Outcome State Fault Refusal :=
  fireOp (.addc o) (fun s => s.chainOp o addcF) s

/-- `subc` (R222). -/
def execSubc (o : ROp) (s : State) : Host.Outcome State Fault Refusal :=
  fireOp (.subc o) (fun s => s.chainOp o subcF) s

/-- `mulc` (R222). -/
def execMulc (o : ROp) (s : State) : Host.Outcome State Fault Refusal :=
  fireOp (.mulc o) (fun s => s.chainOp o mulcF) s

/-- `shlc` (R222). -/
def execShlc (o : ROp) (s : State) : Host.Outcome State Fault Refusal :=
  fireOp (.shlc o) (fun s => s.chainOp o shlcF) s

/-- `shrc` (R222). -/
def execShrc (o : ROp) (s : State) : Host.Outcome State Fault Refusal :=
  fireOp (.shrc o) (fun s => s.chainOp o shrcF) s

/-- `cmpc` (R222). -/
def execCmpc (o : ROp) (s : State) : Host.Outcome State Fault Refusal :=
  fireOp (.cmpc o) (fun s => s.chainOp o cmpcF) s

end Sys2Proof.Machine
end

