-- ==== Sys2Proof/Machine/Channel.lean ====
section
/-!
DEFINITION. Channel instructions (cell 0x20, R233 to R236).
-/
namespace Sys2Proof.Machine


/-- The control channel offset of `steer`: the word that the rule's b operand reads in a beat (R234). A pop of
the channel that `a` pops too is the same word (R35). -/
def State.steerChan (s : State) (o : ROp) (k ahead : Nat) : Nat :=
  (o.d.toNat % 4 + (s.rdAt (one [o.a, o.b]) o.b k ahead).toNat % 4) % 4

/-- `cmrg`: the control chooses the data channel, whose head is read after the control popped (R235). -/
def State.controlMerge (s : State) (o : ROp) : State :=
  let dm := one [o.a]
  let j := (s.rd dm o.a).toNat % 4
  let s := s.consume dm
  let w := s.me.peekWord j 0
  let s := s.popWords s.cur.elem j 1
  if isReg o.d then s.updMe (·.setReg o.d.toNat w.word)
  else s.pushWord s.cur.elem (o.d.toNat % 4) w.tag w.word

/-- The masked input channels of an `amrg` (R236). -/
def mergeMask (o : ROp) : List Nat := [0, 1, 2, 3].filter fun c => o.b.getLsbD c

/-- The masked channels with a data word at an open head, with when it arrived (R236). -/
def State.mergeData (s : State) (k : Nat) (cs : List Nat) : List (Nat × Nat) :=
  cs.filterMap fun c =>
    match (s.elem k).chan c with
    | w :: _ => if w.tag = 3 then none else some (w.stamp, c)
    | [] => none

/-- Whether every masked channel is closed: a tag-3 word at its head (R236). -/
def State.mergeClosed (s : State) (k : Nat) (cs : List Nat) : Bool :=
  cs.all fun c =>
    match (s.elem k).chan c with
    | w :: _ => w.tag = 3
    | [] => false

/-- The first of the least: arrival step first, then the lower channel. -/
def earliest : List (Nat × Nat) → Option (Nat × Nat)
  | [] => none
  | x :: xs =>
    match earliest xs with
    | none => some x
    | some y => if y.1 < x.1 then some y else some x

/-- The channel that closed last; among equals the higher (R236). -/
def lastClosed (e : Elem) : List Nat → Nat → Nat
  | [], best => best
  | c :: cs, best =>
    let t (x : Nat) := ((e.closed.getD x none).getD 0)
    lastClosed e cs (if t c ≥ t best then c else best)

/-- `amrg`: the data word that arrived first moves; when every masked input is closed, one tag-3 word leaves
with the value of the input that closed last (R154, R236). -/
def State.arrivalMerge (s : State) (o : ROp) : State :=
  let k := s.cur.elem
  let cs := mergeMask o
  match earliest (s.mergeData k cs) with
  | some (_, c) =>
    let w := s.me.peekWord c 0
    let s := s.popWords k c 1
    if isReg o.d then s.updMe (·.setReg o.d.toNat w.word) else s.pushWord k (o.d.toNat % 4) w.tag w.word
  | none =>
    if s.mergeClosed k cs then
      let w := s.me.peekWord (lastClosed s.me cs (cs.headD 0)) 0
      let s := cs.foldl (fun s c => s.popWords k c 1) s
      if isReg o.d then s.updMe (·.setReg o.d.toNat w.word) else s.pushWord k (o.d.toNat % 4) 3 w.word
    else s

/-- `mov` (R233). -/
def execMov (o : ROp) (s : State) : Host.Outcome State Fault Refusal :=
  fireOp (.mov o) (fun s => s.un o.a o.d (fun x => x)) s

/-- `send` (R233). -/
def execSend (o : ROp) (s : State) : Host.Outcome State Fault Refusal :=
  fireOp (.send o) (fun s =>
    let dm := one [o.a]
    (s.consume dm).pushWord s.cur.elem (o.d.toNat % 4) (s.tagOf dm o.a) (s.rd dm o.a)) s

/-- `drop` (R233). -/
def execDrop (o : ROp) (s : State) : Host.Outcome State Fault Refusal :=
  fireOp (.drop o) (fun s => s.consume (one [o.a])) s

/-- `dup` (R233). -/
def execDup (o : ROp) (s : State) : Host.Outcome State Fault Refusal :=
  fireOp (.dup o) (fun s => let dm := one [o.a]; let w := s.rd dm o.a; ((s.consume dm).wr o.d w).wr o.b w) s

/-- `retag` (R233). -/
def execRetag (o : ROp) (s : State) : Host.Outcome State Fault Refusal :=
  fireOp (.retag o) (fun s =>
    let dm := one [o.a, o.b]
    (s.consume dm).pushWord s.cur.elem (o.d.toNat % 4) (BitVec.ofNat 2 (s.rd dm o.b).toNat) (s.rd dm o.a)) s

/-- `steer` (R233, R234). -/
def execSteer (o : ROp) (s : State) : Host.Outcome State Fault Refusal :=
  fireOp (.steer o) (fun s =>
    let dm := one [o.a, o.b]
    (s.consume dm).pushWord s.cur.elem (s.steerChan o s.beatNo 0) (BitVec.ofNat 2 (o.d.toNat / 4)) (s.rd dm o.a)) s

/-- `cmrg` (R235). -/
def execCmrg (o : ROp) (s : State) : Host.Outcome State Fault Refusal :=
  fireOp (.cmrg o) (fun s => s.controlMerge o) s

/-- `amrg` (R236). -/
def execAmrg (o : ROp) (s : State) : Host.Outcome State Fault Refusal :=
  fireOp (.amrg o) (fun s => s.arrivalMerge o) s

end Sys2Proof.Machine
end

