-- ==== Sys2Proof/Machine/IslandRules.lean ====
section
/-!
DEFINITION. Commands of `e0` to the sampler, raster, blend and traversal islands (cells 0x3A to 0x3C, R293 to
R297): the rules that queue them. What an island does with a request is in its own file.
-/
namespace Sys2Proof.Machine

/-- Whether a texture descriptor's values are in their ranges (R180). -/
def textureOk (d : List Byte) : Bool :=
  let side (off : Nat) : Bool := fieldAt d off 2 % 4 = 0 && 4 ≤ fieldAt d off 2 && fieldAt d off 2 ≤ 16384
  fieldAt d 0 8 % 64 = 0 && side 8 && side 10 && 1 ≤ byteAt d 12 && byteAt d 12 ≤ 13 && byteAt d 13 % 4 ≤ 2
    && byteAt d 13 / 4 ≤ 2 && 1 ≤ byteAt d 14 && byteAt d 14 ≤ 4 && zeroAt d 15 17

/-- The descriptor channels of a sampler slot as bound, 1 where it is not (R180, R294). -/
def State.boundChannels (s : State) (cl n : Nat) : Nat :=
  let b := (s.cluster cl).sampler.slots.getD n ⟨false, 0, [], 0, 0, 0⟩
  if b.bound then byteAt b.desc 0x0E else 1
/-- The channels that a request of an `e0` meets at a slot: those of the last `smp.bind` of the slot that waits ahead of
it (R157), where its descriptor is sound, else of the slot as bound (R280, R294) (DEDUCED, log 56). -/
def State.slotChannels (s : State) (core n : Nat) : Nat :=
  let binds (c : Cmd) : Bool := bitsOf c.word 0 4 = 0 && bitsOf c.word 4 4 = n
  match ((s.core core).queued 7).reverse.find? binds with
  | none => s.boundChannels (coreCluster core) n
  | some c =>
    match s.engRead core (baseOf c.ops) 32 with
    | .ok d => if textureOk d then byteAt d 0x0E else s.boundChannels (coreCluster core) n
    | .error _ => s.boundChannels (coreCluster core) n
/-- Words that `smp.tex` returns (R294). -/
def State.texWords (s : State) (o : EOp) : Nat := (s.slotChannels (elemCore s.cur.elem) o.obj.toNat + 1) / 2
/-- Words that `smp.dec` returns (R183). -/
def State.decWords (s : State) (o : EOp) : Nat := 16 * s.slotChannels (elemCore s.cur.elem) o.obj.toNat

/-- `smp.bind` (R293). -/
def execSmpBind (o : EOp) (s : State) : Host.Outcome State Fault Refusal :=
  fireOp (.smpBind o) (fun s => s.sendCmd 7 [] (wordsOf64 (s.rdPair o.src)) noResult) s

/-- `wt.ld` (R293). -/
def execWtLd (o : EOp) (s : State) : Host.Outcome State Fault Refusal :=
  fireOp (.wtLd o) (fun s => s.sendCmd 7 [] (wordsOf64 (s.rdPair o.src)) (toPort o.port 1)) s

/-- `wt.drop` (R293). -/
def execWtDrop (o : EOp) (s : State) : Host.Outcome State Fault Refusal :=
  fireOp (.wtDrop o) (fun s => s.sendCmd 7 [] [] noResult) s

/-- `smp.tex` (R294): u, v and lod from three registers or three pops. -/
def execSmpTex (o : EOp) (s : State) : Host.Outcome State Fault Refusal :=
  let dm : Demand := if isPop o.src then [(o.src, 3)] else []
  fire (.smpTex o) (fun _ => false)
    (fun s => if s.texWords o = 2 && isReg o.port && o.port.toNat % 2 = 1 then some (0x04, 0) else none)
    (fun s =>
      let ops := if isPop o.src then (List.range 3).map fun i => (s.atPos (o.src.toNat % 4) i).word
        else s.regBlock o.src 3
      s.sendCmd 7 dm ops fun s =>
        if s.texWords o = 2 && isReg o.port then s.reservePair s.cur.elem o.port.toNat
        else toPort o.port (s.texWords o) s) s

/-- `smp.dec` (R294). -/
def execSmpDec (o : EOp) (s : State) : Host.Outcome State Fault Refusal :=
  fireOp (.smpDec o) (fun s => s.sendCmd 7 [] (wordsOf64 (s.rdPair o.src)) (toPort o.port (s.decWords o))) s

/-- Sets the draw-open bit of a core (R295). -/
def State.setDrawOpen (s : State) (core : Nat) (b : Bool) : State := s.updCore core fun k => { k with drawOpen := b }

/-- `rs.draw` (R295): the `e0`'s draw-open bit is set; a second draw while it is set is an error. -/
def execRsDraw (o : EOp) (s : State) : Host.Outcome State Fault Refusal :=
  fire (.rsDraw o) (fun _ => false)
    (fun s => if (s.core (elemCore s.cur.elem)).drawOpen then some (0x40, 0) else none)
    (fun s => (s.sendCmd 5 [] (s.regBlock o.src 4) noResult).setDrawOpen (elemCore s.cur.elem) true) s

/-- `rs.flush` (R295). -/
def execRsFlush (o : EOp) (s : State) : Host.Outcome State Fault Refusal :=
  fire (.rsFlush o) (fun _ => false)
    (fun s => if (s.core (elemCore s.cur.elem)).drawOpen then none else some (0x40, 0))
    (fun s => s.sendCmd 5 [] [] (toPort o.port 1)) s

/-- `vis.attr` (R295): 18 slots are reserved. -/
def execVisAttr (o : EOp) (s : State) : Host.Outcome State Fault Refusal :=
  fireOp (.visAttr o) (fun s => s.sendCmd 5 [] (s.regBlock o.src 6) (toPort o.port 18)) s

/-- Whether a ticket of the open draw is outstanding and not answered (R295). -/
def State.ticketOpen (s : State) (cl t : Nat) : Bool :=
  let r := (s.cluster cl).raster
  r.isOpen && r.tickets.any fun x => x.ticket = t && x.answer.isNone

/-- `bl.put` (R295). -/
def execBlPut (o : EOp) (s : State) : Host.Outcome State Fault Refusal :=
  fire (.blPut o) (fun _ => false)
    (fun s =>
      let w := s.me.reg o.src.toNat
      if bitsOf w 10 21 ≠ 0 || !s.ticketOpen (elemCluster s.cur.elem) (bitsOf w 0 10) then some (0x40, 0) else none)
    (fun s => s.sendCmd 6 [] (s.regBlock o.src 5) noResult) s

/-- `tr.fmt` (R170). -/
def execTrFmt (o : EOp) (s : State) : Host.Outcome State Fault Refusal :=
  fireOp (.trFmt o) (fun s => s.sendCmd 4 [] (wordsOf64 (s.rdPair o.src)) noResult) s

/-- `tr.ray` (R296). -/
def execTrRay (o : EOp) (s : State) : Host.Outcome State Fault Refusal :=
  fireOp (.trRay o) (fun s => s.sendCmd 4 [] (wordsOf64 (s.rdPair o.src)) (toPort o.port 1)) s

/-- `tr.walk` (R177, R296). -/
def execTrWalk (o : EOp) (s : State) : Host.Outcome State Fault Refusal :=
  fireOp (.trWalk o) (fun s => s.sendCmd 4 [] (wordsOf64 (s.rdPair o.src)) (toPort o.port 1)) s

/-- `tr.march` (R178, R296). -/
def execTrMarch (o : EOp) (s : State) : Host.Outcome State Fault Refusal :=
  fireOp (.trMarch o) (fun s => s.sendCmd 4 [] (wordsOf64 (s.rdPair o.src)) (toPort o.port 1)) s

/-- `tr.res` (R297): 8 slots are reserved. -/
def execTrRes (o : EOp) (s : State) : Host.Outcome State Fault Refusal :=
  let dm := one [o.src]
  fireOp (.trRes o) (fun s => s.sendCmd 4 dm [s.rd dm o.src] (toPort o.port 8)) s

end Sys2Proof.Machine
end

