-- ==== Sys2Proof/Machine/Firing.lean ====
section
/-!
DEFINITION. The firing step of an element (R32 to R56): readiness, handler selection with aging, the walk with its
owed bits, multi-beat rules, and the end of a step. `FIRING_STEP` starts a step; the rules of the step then fire one
at a time, each by the meaning of its decoded word.
-/
namespace Sys2Proof.Machine

/-! ## Readiness (R34) -/

/-- Words that an input channel must hold for the fields of a rule of count n (R34 item 6). -/
def wordsNeeded (u : Uses) (n ch : Nat) : Nat :=
  let on (c : Code) : Bool := 16 ≤ c.toNat && c.toNat < 24 && c.toNat % 4 = ch
  max (if u.srcs.any on then n else 0) (if u.bulk.any on then n * u.popN else 0)

/-- The fields of a rule whose results depend on its operands: `mx.read` of a row, `smp.tex` and `smp.dec`. -/
def State.sized (s : State) (v : View) (u : Uses) : Uses :=
  match v with
  | .e c f o =>
    if c = 0x39 && f = 3 && !namesNothing o.w o.src && (s.rdAt (one [o.src]) o.src 0 0).getLsbD 10 then
      { u with pushN := 32 }
    else if c = 0x3A && f = 3 then
      let m := s.texWords o
      if m = 2 && isReg o.port then { u with regs := u.regs ++ regsFrom o.port 2 } else { u with pushN := m }
    else if c = 0x3A && f = 4 then { u with pushN := s.decWords o }
    else u
  | _ => u

/-- Slots that an output channel must have free for a rule of count n: those that it takes, and n where it is the done
channel, of which the token takes one (R34 item 7, R37, R234, R243). -/
def State.roomNeeded (s : State) (v : View) (u : Uses) (n ch : Nat) : Nat :=
  let on (c : Code) : Bool := isOut c && c.toNat % 4 = ch
  let steered := match v with
    | .r c f o => if c = 0x20 && f = 5 && !namesNothing o.w o.b then (List.range n).countP fun k => s.steerChan o k k = ch else 0
    | _ => 0
  let results := (u.dsts.countP on) * (n * u.pushN) + steered
  if u.done = some ch then max n (results + 1) else results

/-- Whether the data of a merge stands ready: `cmrg` needs the channel that its control names, behind the control
where that is popped from it; `amrg` needs a data word or every masked input closed (R235, R236). -/
def State.mergeReady (s : State) (v : View) : Bool :=
  match v with
  | .r c f o =>
    if c = 0x20 && f = 6 then
      let dm := one [o.a]
      let j := (s.rdAt dm o.a 0 0).toNat % 4
      namesNothing o.w o.a || decide (popsOf dm j + 1 ≤ (s.me.chan j).length)
    else if c = 0x20 && f = 7 then
      (s.mergeData s.cur.elem (mergeMask o)) != [] || s.mergeClosed s.cur.elem (mergeMask o)
    else true
  | _ => true

/-- Free entries that a command queue has at most (R279). -/
def queueCap (q : Nat) : Nat := if q = 0 then 16 else 4

/-- Items 6 to 9 of R34 for the rule at the current slot, with count n. -/
def State.fieldsReady (s : State) (v : View) (n : Nat) : Bool :=
  let e := s.me
  let u := s.sized v (v.uses s.curExt)
  let codes := u.srcs ++ u.bulk
  let regs := (codes ++ u.dsts).flatMap regOf ++ u.regs
  ([0, 1, 2, 3].all fun ch => decide (wordsNeeded u n ch ≤ (e.chan ch).length))
    && s.mergeReady v
    && ([0, 1, 2, 3].all fun ch =>
      let m := s.roomNeeded v u n ch
      m = 0 || decide (m ≤ (e.outCh ch).count))
    && (regs.all fun r => !e.isPending r)
    && (!(u.ci || codes.any fun c => c.toNat = 24) || !s.ciJoined s.cur.elem || e.ci.isSome)
    && (!u.co || (s.coTarget s.cur.elem).isNone || e.co.isNone)
    && (match u.queue with
      | some q => decide (((s.core (elemCore s.cur.elem)).queued q).length < queueCap q)
      | none => true)

/-- Item 2 of R34: the predicate test of a guard (R193). -/
def Elem.predsHold (e : Elem) (g : Word) : Bool :=
  let mask := g.extractLsb' 24 8
  e.p &&& mask = g.extractLsb' 16 8 &&& mask

/-- Items 1 to 5 of R34: the guard of a rule (R193). -/
def Elem.guardHolds (e : Elem) (g : Word) : Bool :=
  let n := guardCount g
  let a := bitsOf g 14 2
  g.getLsbD 0 && e.predsHold g
    && (!g.getLsbD 13 || (decide (n ≤ (e.chan a).length)
      && (!g.getLsbD 10 || ((e.chan a).take n).all fun w => w.tag.toNat = bitsOf g 11 2)))
    && (!g.getLsbD 4 || decide (n ≤ (e.chan (bitsOf g 5 2)).length))
    && (!g.getLsbD 1 || decide (n ≤ (e.outCh (bitsOf g 2 2)).count))

/-- Whether the rule in slot i of element k is ready, its range apart (R34). A word of a reserved form uses no
fields (R370). -/
def State.ready (s : State) (k i : Nat) : Bool :=
  let s := { s.updElem k (fun e => { e with beat := none }) with cur := ⟨k, i⟩ }
  let w := s.me.slot i
  let g := s.me.guard (fieldG w).toNat
  s.me.guardHolds g &&
    (match splitWord w with
      | some v => s.fieldsReady v (guardCount g)
      | none => true)

/-! ## Handler selection (R40 to R46) -/

/-- Whether a trigger word of `e0` is one that an armed template takes: it is not dispatched (R267). -/
def State.templateWord (s : State) (k ch : Nat) (t : Tag) : Bool :=
  isCmd k && (List.range 32).any fun n =>
    let c := (s.core (elemCore k)).template n
    c.state ≠ 0 && tbChan c.block = ch && tbTag c.block = t

/-- Whether a handler entry is valid and not masked. -/
def Elem.entryOn (e : Elem) (h : Nat) : Bool := (e.entry h).getLsbD 15 && !e.hmask.getLsbD h
/-- The priority of a handler entry (R194). -/
def Elem.entryPrio (e : Elem) (h : Nat) : Nat := ((e.entry h).extractLsb' 12 3).toNat

/-- The runnable channel handlers, lowest index first (R41, R43). -/
def State.runnable (s : State) (k : Nat) : List Nat :=
  let e := s.elem k
  [0, 1, 2, 3].filterMap fun ch =>
    match e.chan ch with
    | w :: _ =>
      let h := 4 * ch + w.tag.toNat
      if e.entryOn h && !s.templateWord k ch w.tag then some h else none
    | [] => none

/-- Whether the idle handler may be chosen when no channel handler is runnable (R41). -/
def Elem.idleRunnable (e : Elem) : Bool :=
  e.entryOn 16 && e.predsHold (e.guard (fieldG (e.slot (entryRange (e.entry 16)).1)).toNat)

/-- The handler of the highest priority; ties go to the lower index (R45). -/
def Elem.bestPrio (e : Elem) : List Nat → Option Nat
  | [] => none
  | h :: hs =>
    match e.bestPrio hs with
    | none => some h
    | some j => if e.entryPrio j > e.entryPrio h then some j else some h

/-- One handler is passed over: its counter rises, and at 64 the handler is raised (R45). -/
def Elem.passOver (e : Elem) (h : Nat) : Elem :=
  let n := e.passes.getD h 0
  if n ≥ 64 then e
  else
    { e with
      passes := e.passes.setIfInBounds h (n + 1)
      raised := if n + 1 = 64 then e.raised ++ [h] else e.raised }

/-- A handler is chosen: it is active with its range, its counter is cleared, the other runnable ones age. -/
def Elem.choose (e : Elem) (h : Nat) (others : List Nat) : Elem :=
  let r := entryRange (e.entry h)
  let e := others.foldl Elem.passOver e
  { e with
    active := some ⟨h, r.1, r.2⟩
    passes := e.passes.setIfInBounds h 0
    raised := e.raised.filter (· != h) }

/-- `pick_handler` (R45) (DEDUCED, log 29). -/
def State.pickHandler (s : State) (k : Nat) : Elem :=
  let e := s.elem k
  let run := s.runnable k
  let raised := e.raised.find? (run.contains ·)
  match (match raised with | some h => some h | none => e.bestPrio run) with
  | some h => e.choose h (run.filter (· != h))
  | none => if e.idleRunnable then e.choose 16 [] else e

/-- The slots of a handler's range in slot order, with wrap (R40). -/
def Active.slots (a : Active) : List Nat :=
  if a.first ≤ a.last then (List.range (a.last + 1)).drop a.first
  else (List.range 32).drop a.first ++ List.range (a.last + 1)

/-! ## The start of a step (R51, R56) -/

/-- A walk of an element. -/
def Elem.newWalk (e : Elem) (k : Nat) (todo : List Nat) (single : Bool) : Walk :=
  { elem := k
    todo := todo
    used := []
    fired := []
    stop := false
    closing := false
    counts := false
    single := single
    halted := false
    stops := []
    armed := false
    cfg := []
    handler := match e.active with
      | some a => a.handler
      | none => 0xFF
    startSteps := e.steps }

/-- The step of an element starts: the next beat of the rule in progress, else the lowest owed ready rule alone, else a
walk over the active handler's range (R51, R56). The lowest owed rule is the one with the lowest slot number, in a range
that wraps too (R51; DEDUCED, log 58). Nothing starts where the element selects nothing; an element of a ridge that was frozen in the
same step still takes that step (R361). -/
def State.startStep (s : State) (k : Nat) : State :=
  if (s.spurAt (elemCore k)).isNone then s
  else
    let s := s.updElem k fun e => { e with window := e.window + 1 }
    let e := s.elem k
    match e.beat with
    | some b => { s with walk := some (e.newWalk k [b.slot] true) }
    | none =>
      if !(s.running (elemCore k) || s.sameStep k) || e.role ≠ .used then s
      else
        let s := s.tookStep k
        let e := if e.active.isNone then s.pickHandler k else e
        let s := s.setElem k e
        match e.active with
        | none => s
        | some a =>
          match (List.range 32).find? fun i => a.slots.contains i && e.owed.getLsbD i && s.ready k i with
          | some i => { s with walk := some (e.newWalk k [i] true) }
          | none => { s with walk := some (e.newWalk k a.slots false) }

/-- `FIRING_STEP` (R56): a firing step of the element `a` starts. -/
def execFiringStep (s : State) : Host.Outcome State Fault Refusal :=
  if s.pick.a ≥ elemCount then .fault (.noSuchElement s.pick.a)
  else if s.walk.isSome then .next s
  else .next (s.startStep s.pick.a)

/-! ## The walk (R50 to R53) -/

/-- Whether two slots never fire in one step (R49). -/
def Elem.conflicts (e : Elem) (i j : Nat) : Bool :=
  i ≠ j && ((e.conflict.getD i 0).getLsbD j || (e.conflict.getD j 0).getLsbD i)

/-- Whether a rule is multi-beat: its count exceeds 1, or it is a `.f64` rule (R51, R224). -/
def Elem.multi (e : Elem) (i : Nat) : Bool :=
  let w := e.slot i
  guardCount (e.guard (fieldG w).toNat) > 1 ||
    (match splitWord w with
      | some v => v.isF64
      | none => false)

/-- The unit class of the word in a slot (R47). -/
def Elem.classOf (e : Elem) (i : Nat) : Option UClass := cellClass (fieldCell (e.slot i)).toNat

/-- Whether a ready rule may fire in the walk (R50). -/
def Walk.free (w : Walk) (e : Elem) (i : Nat) : Bool :=
  !w.stop && (w.single || ((match e.classOf i with
    | some c => !w.used.contains c
    | none => true)
    && !(w.fired.any fun j => e.conflicts i j) && !(e.multi i && w.fired != [])))

/-- The next rule that fires, with the slots behind it, and the owed bits of the ready rules passed over (R50,
R51). -/
def State.search (s : State) (w : Walk) : List Nat → BitVec 32 → BitVec 32 × Option (Nat × List Nat)
  | [], o => (o, none)
  | i :: rest, o =>
    if !s.ready w.elem i then s.search w rest o
    else if w.free (s.elem w.elem) i then (o, some (i, rest))
    else s.search w rest (o ||| 1#32 <<< i)

/-- What is noted when a rule has committed: its owed bit is cleared, its class used, the step counts, and an E bit
stops the walk and closes the handler unless beats of the rule remain (R50 to R53). -/
def State.noteFired (s : State) (i : Nat) : State :=
  match s.walk with
  | none => s
  | some w =>
    if (s.spurAt (elemCore w.elem)).isNone then { s with walk := none }
    else if w.halted then s
    else
      let e := s.elem w.elem
      let word := s.curWord
      let f64 := match splitWord word with
        | some v => v.isF64
        | none => false
      let beat : Option Beat :=
        match e.beat with
        | some b => some { b with k := b.k + 1 }
        | none => if f64 then some ⟨i, word, e.extOf i, 4, 1, 0, 0, true, 0⟩ else none
      let ends := fieldE word && beat.isNone
      let s := s.setElem w.elem { e with owed := e.owed &&& ~~~(1#32 <<< i), beat := beat }
      { s with walk := some { w with
          used := w.used ++ (cellClass (fieldCell word).toNat).toList
          fired := w.fired ++ [i]
          counts := true
          stop := w.stop || ends || beat.isSome
          closing := w.closing || ends } }

/-- A beat after the first has run: the rule ends with its last beat, and an E bit then closes the handler (R52,
R53) (DEDUCED, log 43). -/
def State.noteBeat (s : State) : State :=
  match s.walk with
  | none => s
  | some w =>
    if (s.spurAt (elemCore w.elem)).isNone then { s with walk := none }
    else if w.halted then s
    else
      let e := s.elem w.elem
      match e.beat with
      | none => s
      | some b =>
        let last := b.k + 1 ≥ b.n
        let s := s.setElem w.elem { e with beat := if last then none else some { b with k := b.k + 1 } }
        { s with walk := some { w with
            counts := true
            stop := true
            todo := []
            closing := w.closing || (last && fieldE b.word) } }

/-- The rule of a word fires by its meaning; a word that decodes to no instruction faults: a broken pair 0x03, else
0x01 (R371 items 1 and 2). -/
def fireWord (exec : Instr → State → Host.Outcome State Fault Refusal) (word : Word) (s : State) :
    Host.Outcome State Fault Refusal :=
  match decodeWord word with
  | .ok i => exec i s
  | .error _ =>
    let broken := fieldW word && (s.cur.slot = 31 || field s.curExt 28 4 ≠ 0xF)
    .next (s.takeFault (if broken then 0x03 else 0x01) 0)

/-- A next state is passed through a function. -/
def thenDo (f : State → State) : Host.Outcome State Fault Refusal → Host.Outcome State Fault Refusal
  | .next s => .next (f s)
  | .fault r => .fault r
  | .refused r => .refused r

/-- The state in which the rule of slot i fires: it is the current rule, and a rule of several beats is in progress
at beat 0 with the words and the carry word that it starts with (R53, R305). -/
def State.aimAt (s : State) (w : Walk) (i : Nat) (rest : List Nat) : State :=
  let e := s.elem w.elem
  let word := e.slot i
  let n := guardCount (e.guard (fieldG word).toNat)
  let s := { s with cur := ⟨w.elem, i⟩, walk := some { w with todo := rest } }
  if n > 1 then
    s.bump.updElem w.elem fun e => { e with
      beat := some ⟨i, word, e.extOf i, n, 0, s.ciNow w.elem, 0, false, s.nextId⟩ }
  else s

/-- The rule of slot i fires in a walk. -/
def fireSlot (exec : Instr → State → Host.Outcome State Fault Refusal) (s : State) (w : Walk) (i : Nat)
    (rest : List Nat) : Host.Outcome State Fault Refusal :=
  let word := (s.elem w.elem).slot i
  thenDo (·.noteFired i) (fireWord exec word (s.aimAt w i rest))

/-- The next beat of the rule in progress; the steps that a `.f64` rule still takes change nothing (R53, R224). -/
def runBeat (exec : Instr → State → Host.Outcome State Fault Refusal) (s : State) (w : Walk) (b : Beat) :
    Host.Outcome State Fault Refusal :=
  let s := { s with cur := ⟨w.elem, b.slot⟩ }
  if b.spent then .next s.noteBeat else thenDo State.noteBeat (fireWord exec b.word s)

/-- The counter and countdown of an element after a step that counts (R32, R303); whether the countdown ends: it then
stands at 0 until the stop that follows is reported. -/
def Elem.countStep (e : Elem) (armed : Bool) : Elem × Bool :=
  let e := { e with steps := e.steps + 1 }
  match e.countdown with
  | some c =>
    if armed then (e, false)
    else if c.toNat ≤ 1 then ({ e with countdown := some 0 }, true)
    else ({ e with countdown := some (c - 1) }, false)
  | none => (e, false)

/-- The end of a step: a closing handler and its owed bits go, the step is counted, configuration writes of the
element to itself take effect, and the stops of the step's rules are reported (R32, R52, R303, R305). -/
def State.endWalk (s : State) (w : Walk) : State :=
  let s := { s with walk := none }
  if (s.spurAt (elemCore w.elem)).isNone then s
  else
    let e := s.elem w.elem
    let e := if w.closing then { e with active := none, owed := 0 } else e
    let (e, ended) := if w.counts then e.countStep w.armed else (e, false)
    let s := s.setElem w.elem (w.cfg.foldl (fun e c => e.configure c.1 c.2) e)
    let s := if ended then
        { s with agenda := (.stepCountdownExpiry, ⟨w.elem, 0, 0, false, [], []⟩) :: s.agenda } else s
    w.stops.foldl (fun s x =>
      s.stopSpur w.elem x.2.2 w.handler (e.slot x.2.2) (e.extOf x.2.2) w.startSteps x.1.toNat x.2.1.toNat) s

/-- One move of a step in progress: the next beat, the next rule of the walk, or its end. A step whose spur is gone
ends. -/
def walkStep (exec : Instr → State → Host.Outcome State Fault Refusal) (s : State) (w : Walk) :
    Host.Outcome State Fault Refusal :=
  if (s.spurAt (elemCore w.elem)).isNone then .next { s with walk := none }
  else match (s.elem w.elem).beat, w.stop with
  | some b, false => runBeat exec s w b
  | _, _ =>
    match s.search w w.todo (s.elem w.elem).owed with
    | (o, some (i, rest)) => fireSlot exec (s.updElem w.elem fun e => { e with owed := o }) w i rest
    | (o, none) => .next ((s.updElem w.elem fun e => { e with owed := o }).endWalk w)

end Sys2Proof.Machine
end

