-- ==== Sys2Proof/Machine/Delivery.lean ====
section
/-!
DEFINITION. Deliveries between templates (R275, R364, R365): exchange chunks and trigger words on the mesh, the
departure list's decision, and the scree buffer.
-/
namespace Sys2Proof.Machine

/-- Whether a delivery is the first on its way from its sender to its receiver (R275). -/
def State.firstOfPair (s : State) (i : Nat) (d : Delivery) : Bool :=
  !(s.deliveries.take i).any fun x =>
    x.fromCore = d.fromCore && x.fromCt = d.fromCt && x.package = d.package && x.core = d.core && x.ct = d.ct

/-- Removes the delivery i. -/
def State.dropDelivery (s : State) (i : Nat) : State := { s with deliveries := s.deliveries.eraseIdx i }

/-- Whether a core's spur has a template armed (R364). -/
def State.armedAt (s : State) (core ct : Nat) : Bool :=
  (s.spurAt core).isSome && ((s.core core).template ct).state ≠ 0

/-- A chunk lands at its receiver's destination (R275), and how many of its bytes have then landed: into a stream port as
many words as it has room for (R351), of which none may be poisoned (R384). None where the landing waits at a pinned line
or a full port. -/
def State.landChunk (s : State) (d : Delivery) (b : List Byte) (f : Firing) :
    Except (Nat × Nat) (Option (State × Nat)) :=
  let a := tbDst b + d.rank * fieldAt b 0x30 4
  if tbDstKind b = 0 then
    match s.writeGlobal d.core d.ct f a d.bytes d.bad with
    | .ok (some s) => .ok (some (s, d.bytes.length))
    | .ok none => .ok none
    | .error e => .error e
  else if tbDstKind b = 1 then
    match s.landScratch d.core b a d.bytes d.bad with
    | .ok (s, _) => .ok (some (s, d.bytes.length))
    | .error e => .error e
  else
    let cl := coreCluster d.core
    let ws := s.portWords cl (tbDst b)
    let new := ((wordsOfBytes (d.bytes.drop d.landed)).take (16 - ws.length)).map fun w => (⟨w, 0, 0⟩ : ChanWord)
    let m := d.landed + 4 * new.length
    if new = [] || !s.portOpen cl (tbDst b) then .ok none
    else if d.bad.any fun i => d.landed ≤ i && i < m then .error (0x20, 0)
    else .ok (some (s.setPort cl (tbDst b) (ws ++ new), m))

/-- The receiver of a chunk notes what has landed of it; a chunk that has landed whole is one of its round's (R275). -/
def Firing.gotBytes (f : Firing) (d : Delivery) (m : Nat) : Firing :=
  { f with
    gotChunks := if m < d.bytes.length then f.gotChunks else setAdd f.gotChunks d.rank
    written := f.written + (m - d.landed) }

/-- `EXCHANGE_CHUNK_ARRIVAL` (R275): the chunk `a` lands, when its receiver runs the round that it belongs to; a chunk
for another package leaves this one. -/
def execExchangeChunkArrival (s : State) : Host.Outcome State Fault Refusal :=
  let i := s.pick.a
  match s.deliveries[i]? with
  | none => .next s
  | some d =>
    if !d.chunk || !s.firstOfPair i d then .next s
    else if d.package ≠ s.podId then
      .next { s.dropDelivery i with outside := s.outside ++ [.bytes d.bytes] }
    else
      let t := (s.core d.core).template d.ct
      match t.firing with
      | none => .next s
      | some f =>
        let c := fieldAt t.block 0x30 4
        if !s.armedAt d.core d.ct || tbKind t.block ≠ 5 || f.n ≠ d.round || f.faulted || s.heldAt d.core
            || d.bytes.length ≠ c || d.rank ≥ fieldAt t.block 0x34 2 || f.gotChunks.contains d.rank then .next s
        else
          let place := tbDst t.block + d.rank * c
          match if tbDstKind t.block = 0 then s.peerLost d.core place c else none, s.landChunk d t.block f with
          | some a, _ =>
            .next ((s.lostWrite d.core place d.bytes (tbScope t.block)).firingFault d.core d.ct f 0x20 a true)
          | none, .error (code, a) => .next (s.firingFault d.core d.ct f code a true)
          | none, .ok none => .next s
          | none, .ok (some (s, m)) =>
            let s := s.updFiring d.core d.ct fun f => f.gotBytes d m
            if m < d.bytes.length then .next { s with deliveries := s.deliveries.set i { d with landed := m } }
            else .next (s.dropDelivery i)

/-- A trigger word reaches the template that it names: it waits for its event channel (R267, R364). -/
def State.deliverTrigger (s : State) (d : Delivery) : State :=
  let b := ((s.core d.core).template d.ct).block
  s.updCore d.core fun c => { c with events := c.events ++ [(d.ct, BitVec.ofNat 2 (tbChan b), tbTag b)] }

/-! ## The scree buffer (R365) -/

/-- The 64-byte header of a parked delivery (DESIGN CHOICE, log 13): spur index, relative core, template, kind, rank,
round, length, word, bytes landed. -/
def screeHeader (index rel : Nat) (d : Delivery) : List Byte :=
  bytesOfNat 2 index ++ bytesOfNat 1 rel ++ bytesOfNat 1 d.ct ++ bytesOfNat 1 (if d.chunk then 1 else 0)
    ++ bytesOfNat 1 0 ++ bytesOfNat 2 d.rank ++ bytesOfNat 4 d.round ++ bytesOfNat 4 d.bytes.length
    ++ bytesOfNat 4 d.word.toNat ++ bytesOfNat 4 d.landed ++ bytesOfNat 40 0

/-- Bytes of a ring entry with a payload of n bytes. -/
def screeLen (n : Nat) : Nat := 64 + (n + 63) / 64 * 64
/-- Bytes of a chain's ring. -/
def Chain.screeCap (c : Chain) : Nat := c.screeKiB * 1024 - 64

/-- The ring's head, tail and count. -/
def State.screeHead (s : State) (c : Chain) : Option (Nat × Nat × Nat) :=
  if c.screeKiB = 0 then none
  else
    match s.readVirt c.root (needRead c) c.scree 12 with
    | .ok bs => some (fieldAt bs 0 4, fieldAt bs 4 4, fieldAt bs 8 4)
    | .error _ => none

/-- Bytes of the ring in use. -/
def screeUsed (cap : Nat) (h : Nat × Nat × Nat) : Nat :=
  if h.2.2 = 0 then 0 else if h.2.1 > h.1 then h.2.1 - h.1 else cap + h.2.1 - h.1

/-- Bytes into the ring from an offset, around its end. -/
def State.screeWrite (s : State) (c : Chain) (off : Nat) (bs : List Byte) : State :=
  let m := c.screeCap - off
  let s := s.writeVirt c.root (needWrite c) (c.scree + 64 + off) (bs.take m)
  if bs.length ≤ m then s else s.writeVirt c.root (needWrite c) (c.scree + 64) (bs.drop m)
/-- Bytes of the ring from an offset, around its end. -/
def State.screeRead (s : State) (c : Chain) (off n : Nat) : List Byte :=
  let m := min n (c.screeCap - off)
  let get (a k : Nat) : List Byte :=
    match s.readVirt c.root (needRead c) a k with
    | .ok bs => bs
    | .error _ => []
  get (c.scree + 64 + off) m ++ (if n ≤ m then [] else get (c.scree + 64) (n - m))
/-- Head, tail and count are stored. -/
def State.screeSet (s : State) (c : Chain) (head tail count : Nat) : State :=
  s.writeVirt c.root (needWrite c) c.scree (bytesOfNat 4 head ++ bytesOfNat 4 tail ++ bytesOfNat 4 count)

/-- The sector of the ring's byte at an offset, around its end. -/
def State.screeSector (s : State) (c : Chain) (off : Nat) : Option Nat :=
  match s.translate c.root (c.scree + 64 + off % c.screeCap) (needRead c) with
  | .ok k _ => some (sectorOf k)
  | .bad _ _ => none

/-- A delivery is parked in a chain's scree buffer, with the marks of its poisoned bytes (R384); none where it does not
fit. -/
def State.screePark (s : State) (c : Chain) (index rel : Nat) (d : Delivery) : Option State :=
  match s.screeHead c with
  | none => none
  | some h =>
    let n := screeLen d.bytes.length
    if screeUsed c.screeCap h + n > c.screeCap || !s.mapped c.root (needWrite c) c.scree (c.screeKiB * 1024) then none
    else
      let body := fitTo n 0 (screeHeader index rel d ++ d.bytes)
      let s := s.screeWrite c h.2.1 body
      let s := d.bad.foldl (fun s i => match s.screeSector c (h.2.1 + 64 + i) with
        | some sec => { s with poison := setAdd s.poison sec }
        | none => s) s
      some (s.screeSet c h.1 ((h.2.1 + n) % c.screeCap) (h.2.2 + 1))

/-- The parked entries of a ring in park order: spur index, relative core, and the delivery without its core. -/
def State.screeEntries (s : State) (c : Chain) : Nat → Nat → List (Nat × Nat × Delivery)
  | 0, _ => []
  | n + 1, off =>
    let h := s.screeRead c off 64
    let len := fieldAt h 12 4
    let body := (s.screeRead c ((off + 64) % c.screeCap) len).take len
    let d : Delivery := {
      chain := 0
      fromCore := 2 ^ 20
      fromCt := byteAt h 6
      package := s.podId
      core := 0
      ct := byteAt h 3
      chunk := byteAt h 4 = 1
      rank := fieldAt h 6 2
      round := fieldAt h 8 4
      bytes := body
      bad := (List.range body.length).filter fun i => match s.screeSector c (off + 64 + i) with
        | some sec => s.poison.contains sec
        | none => false
      word := wordAt h 16
      landed := fieldAt h 20 4 }
    (fieldAt h 0 2, byteAt h 2, d) :: s.screeEntries c n ((off + screeLen len) % c.screeCap)

/-- A chunk lands where its receiver runs its round; else it waits for that, among its sender's chunks (R275), as does what
a stream port has no room for. -/
def State.giveChunk (s : State) (d : Delivery) : Option State :=
  let t := (s.core d.core).template d.ct
  match t.firing with
  | none => none
  | some f =>
    let c := fieldAt t.block 0x30 4
    if !s.armedAt d.core d.ct || tbKind t.block ≠ 5 || f.n ≠ d.round || f.faulted || d.bytes.length ≠ c
        || d.rank ≥ fieldAt t.block 0x34 2 || f.gotChunks.contains d.rank then none
    else
      match s.landChunk d t.block f with
      | .ok (some (s, m)) =>
        let s := s.updFiring d.core d.ct fun f => f.gotBytes d m
        some (if m < d.bytes.length then { s with deliveries := s.deliveries ++ [{ d with landed := m }] } else s)
      | _ => none

/-- A parked delivery is given to its spur: a trigger reaches an armed template and a chunk its round; what can do
neither yet waits in front of newer deliveries. -/
def State.giveParked (s : State) (d : Delivery) : State :=
  let first := s.firstOfPair s.deliveries.length d
  if d.chunk then
    match if first then s.giveChunk d else none with
    | some t => t
    | none => { s with deliveries := s.deliveries ++ [d] }
  else if first && s.armedAt d.core d.ct then s.deliverTrigger d
  else { s with deliveries := s.deliveries ++ [d] }

/-- At a reload, the parked deliveries of a spur are given to it in park order; the others stay parked (R365). -/
def State.screeReplay (s : State) (p : Spur) : State :=
  match s.chain? p.chain with
  | none => s
  | some c =>
    match s.screeHead c with
    | none => s
    | some h =>
      let all := s.screeEntries c h.2.2 h.1
      let mine := all.filter fun x => x.1 = p.index
      let rest := all.filter fun x => x.1 ≠ p.index
      if mine = [] then s
      else
        let s := s.screeSet c 0 0 0
        let s := rest.foldl (fun s x => (s.screePark c x.1 x.2.1 x.2.2).getD s) s
        let newer := s.deliveries
        let s := mine.foldl (fun s x => s.giveParked { x.2.2 with core := p.coreOf x.2.1 }) { s with deliveries := [] }
        { s with deliveries := s.deliveries ++ newer }

/-! ## The departure list (R364) -/

/-- Whether a departure entry of a cluster covers a core. -/
def Departure.coversCore (d : Departure) (core : Nat) : Bool :=
  let x := coreIdx core % 8
  let y := coreIdx core / 8
  d.x0 ≤ x && x < d.x0 + d.w && d.y0 ≤ y && y < d.y0 + d.h
/-- The relative core byte of a core in a departure entry. -/
def Departure.rel (d : Departure) (core : Nat) : Nat := 8 * (coreIdx core / 8 - d.y0) + (coreIdx core % 8 - d.x0)

/-- An orphan: the sending chain counts it, and a 0x78 record names the sending `e0` and, in its address field, the
sending template, when there is room (R358, R364) (DESIGN CHOICE, log 13). -/
def State.orphan (s : State) (d : Delivery) : State :=
  match s.chain? d.chain with
  | none => s
  | some c =>
    let s := s.updChain d.chain fun c => { c with orphans := c.orphans + 1 }
    let (stage, spur) := s.stageSpur d.fromCore
    let k := coreE0 d.fromCore
    if s.recordFree c c.faults then
      s.putRecord c (s.recordBytes c { code := 0x78, elem := k, addr := d.fromCt, step := (s.elem k).steps, stage := stage, spur := spur })
    else s

/-- What a delivery that finds no armed template meets (R364 items 2 to 5). -/
def State.divert (s : State) (i : Nat) (d : Delivery) : State :=
  let list := ((s.cluster (coreCluster d.core)).departures).filter (·.coversCore d.core)
  match list.find? (·.state == .stored) with
  | some e =>
    match s.chain? e.chain with
    | some c =>
      match (s.dropDelivery i).screePark c e.spur (e.rel d.core) d with
      | some s => s
      | none => s
    | none => s
  | none =>
    match list.find? fun e => match e.state with
      | .moved _ _ _ => true
      | _ => false with
    | some e =>
      match e.state with
      | .moved cl x y =>
        let core := clusterCore cl (x + (coreIdx d.core % 8 - e.x0)) (y + (coreIdx d.core / 8 - e.y0))
        { s with deliveries := s.deliveries.set i { d with core := core } }
      | _ => s
    | none =>
      if list.any (·.state == .exited) then (s.dropDelivery i).orphan d else s

/-- `PEER_DELIVERY_ARRIVAL` (R364): the fate of the delivery `a`. With `flag` one arrives from another package: core
`a`, template `b`, `words` its kind, rank, round and value, `bytes` its payload. -/
def execPeerDeliveryArrival (s : State) : Host.Outcome State Fault Refusal :=
  let p := s.pick
  if p.flag then
    let d : Delivery := {
      chain := 0
      fromCore := 2 ^ 20 + 1
      fromCt := p.c
      package := s.podId
      core := p.a
      ct := p.b
      chunk := p.words.getD 0 0 = 1
      rank := (p.words.getD 1 0).toNat
      round := (p.words.getD 2 0).toNat
      bytes := p.bytes
      bad := []
      word := p.words.getD 3 0 }
    if p.a < 6144 && p.b < 32 then .next { s with deliveries := s.deliveries ++ [d] } else .next s
  else
    match s.deliveries[p.a]? with
    | none => .next s
    | some d =>
      if d.package ≠ s.podId || !s.firstOfPair p.a d then .next s
      else if s.armedAt d.core d.ct then
        if d.chunk then .next s else .next ((s.dropDelivery p.a).deliverTrigger d)
      else .next (s.divert p.a d)

end Sys2Proof.Machine
end

