-- ==== Sys2Proof/Machine/Links.lean ====
section
/-!
DEFINITION. Words on links, slot counts, carry words and delayed results on their way (R36, R37, R57 to R62, R90,
R223, R299, R302): the happenings that move them.
-/
namespace Sys2Proof.Machine

/-- The word that a happening brings. -/
def Pick.word (p : Pick) : Word := p.words.getD 0 0

/-! ## Links (R57 to R59) -/

/-- The queue of an edge-row unit position: key 4 · position + queue. -/
def edgeKey (pos q : Nat) : Nat := 4 * pos + q

/-- Whether words that reach a link's receiver are discarded: its spur has completed, or is at another stage than the
one that the link was bound for (R75, R90). -/
def State.orphaned (s : State) (l : Link) : Bool :=
  match l.receiver with
  | .elemIn k _ =>
    match s.spurAt (elemCore k) with
    | some q => q.chain = l.chain && (q.phase = .complete || q.stage ≠ l.stage)
    | none => false
  | _ => false
/-- Whether a link's receiver stands in the device: an element does with a spur of the link's chain. A word for a region
that is frozen waits, whatever stands on its cores meanwhile (R90). -/
def State.receiverHere (s : State) (l : Link) : Bool :=
  match l.receiver with
  | .elemIn k _ => (match s.spurAt (elemCore k) with
    | some q => q.chain = l.chain
    | none => false)
  | _ => true

/-- Whether a link's receiver has room for a word. -/
def State.receiverRoom (s : State) (r : LinkEnd) : Bool :=
  match r with
  | .edgeIn _ pos _ => decide (s.receiverWords r < Config.unitQueue pos)
  | _ => decide (s.receiverWords r < 16)

/-- A word reaches a link's receiver. A word at an element's input is stamped with the step that it arrives before
(R236). -/
def State.arrive (s : State) (r : LinkEnd) (w : ChanWord) : State :=
  match r with
  | .elemIn k ch => s.updElem k fun e => e.setChan ch (e.chan ch ++ [{ w with stamp := e.window }])
  | .port cl n => s.updCluster cl fun c => { c with ports := c.ports.setIfInBounds n (c.ports.getD n [] ++ [w]) }
  | .edgeIn cl pos q => s.updCluster cl fun c =>
      { c with edgeIn := c.edgeIn.put (edgeKey pos q) ((c.edgeIn.find (edgeKey pos q)).getD [] ++ [w]) }
  | _ => s

/-- The word at the head of a FIFO on a link's route: stage 0 is the sender's side, stage j the j-th pass-through
FIFO. -/
def State.routeHead (s : State) (l : Link) (stage : Nat) : Option ChanWord :=
  match stage with
  | 0 =>
    match l.wire.head?, l.sender with
    | some w, _ => some w
    | none, .port cl n => ((s.cluster cl).ports.getD n []).head?
    | none, .edgeOut cl pos q => (((s.cluster cl).edgeOut.find (edgeKey pos q)).getD []).head?
    | none, _ => none
  | j + 1 =>
    match l.pass[j]? with
    | some f => f.words.head?
    | none => none

/-- Changes the words of a pass-through FIFO. -/
def Link.updPass (l : Link) (j : Nat) (f : List ChanWord → List ChanWord) : Link :=
  { l with pass := l.pass.modify j fun p => { p with words := f p.words } }

/-- The head word of a stage of a link leaves it. -/
def State.takeHead (s : State) (l : Link) (stage : Nat) : State :=
  match stage with
  | 0 =>
    if l.wire ≠ [] then s.updLink l.id fun l => { l with wire := l.wire.drop 1 }
    else
      match l.sender with
      | .port cl n => s.updCluster cl fun c =>
          { c with ports := c.ports.setIfInBounds n ((c.ports.getD n []).drop 1) }
      | .edgeOut cl pos q => s.updCluster cl fun c =>
          { c with edgeOut := c.edgeOut.put (edgeKey pos q) (((c.edgeOut.find (edgeKey pos q)).getD []).drop 1) }
      | _ => s
  | j + 1 => s.updLink l.id (·.updPass j (·.drop 1))

/-- One orphan is counted for a deterministic chain (R90). -/
def State.countOrphans (s : State) (chain n : Nat) : State :=
  s.updChain chain fun c => if c.flagD then { c with orphans := c.orphans + n } else c

/-- A word moves one FIFO on, when that has room; at a completed receiver it is discarded and its slot freed (R59,
R75, R90). -/
def State.moveWord (s : State) (l : Link) (stage : Nat) : State :=
  match s.routeHead l stage with
  | none => s
  | some w =>
    match l.pass[stage]? with
    | some f =>
      if f.words.length < 16 then (s.takeHead l stage).updLink l.id (·.updPass stage (· ++ [w])) else s
    | none =>
      if stage > l.pass.length || !s.receiverHere l then s
      else if s.orphaned l then
        ((s.takeHead l stage).updLink l.id fun l => { l with freed := l.freed + 1 }).countOrphans l.chain 1
      else if s.receiverRoom l.receiver then (s.takeHead l stage).arrive l.receiver w
      else s

/-- A link of a region that has gone on to its next stage goes with its last word (R90). -/
def State.dropTail (s : State) (id : Nat) : State :=
  { s with links := s.links.filter fun l => !(l.id = id && (s.spur? l.spur).isNone && l.wire = []) }

/-- `LINK_WORD_MOVE` (R59): the link `a`, the stage `b` that the word leaves. -/
def execLinkWordMove (s : State) : Host.Outcome State Fault Refusal :=
  match s.link? s.pick.a with
  | some l => .next ((s.moveWord l s.pick.b).dropTail l.id)
  | none => .next s

/-- `SLOT_COUNT_RETURN` (R58): a slot that the receiver of the link `a` freed is counted at the sender. -/
def execSlotCountReturn (s : State) : Host.Outcome State Fault Refusal :=
  match s.link? s.pick.a with
  | some l =>
    if l.freed = 0 then .next s
    else
      let s := s.updLink l.id fun l => { l with freed := l.freed - 1 }
      match l.sender with
      | .elemOut k ch => .next (s.updElem k (·.updOut ch fun o => { o with count := o.count + 1 }))
      | _ => .next s
  | none => .next s

/-! ## The carry link (R61, R223) -/

/-- `CARRY_TRANSFER` (R223): the word in `co` of the element `a` moves into its successor's empty `ci`. -/
def execCarryTransfer (s : State) : Host.Outcome State Fault Refusal :=
  let k := s.pick.a
  match s.coTarget k, (s.elem k).co with
  | some j, some v =>
    if (s.elem j).ci.isSome then .next s
    else .next ((s.updElem k fun e => { e with co := none }).updElem j fun e => { e with ci := some v })
  | _, _ => .next s

/-! ## Delayed results (R36, R37, R239) -/

/-- An earlier firing or beat of the element still owes a result to a register that the request's result writes:
the results reach a register in turn (R239, R242). -/
def State.owedBefore (s : State) (r : Req) : Bool :=
  s.reqs.any fun q => q.elem = r.elem && q.id < r.id && q.dst.regs.any (r.dst.regs.contains ·)

/-- The words with which a request answers, once it can. -/
def State.answer? (s : State) (r : Req) : Option (List Word) :=
  if r.dst = .none || s.owedBefore r then none
  else
    match r.kind with
    | .func =>
      if s.reqs.any fun q => q.kind = .func && q.elem = r.elem && q.id < r.id then none else some r.value
    | .control n =>
      if r.phase = .answered then some r.value
      else if n = 6 || n = 0x214 then none
      else some [s.sysValue r.elem n.toNat]
    | _ => if r.phase = .answered || (r.phase = .landed && r.value ≠ []) then some r.value else none

/-- Where the read of a request for a register is lost on its way to a peer's memory. -/
def State.lostControl (s : State) (r : Req) : Option Nat :=
  match r.kind with
  | .control n => s.paramLost r.elem n.toNat
  | _ => none

/-- `DELAYED_RESULT_ARRIVAL` (R36): the result of the request `a` reaches its register or reserved slots; a parameter word
that a peer's memory does not give is a late fault (R395). -/
def execDelayedResultArrival (s : State) : Host.Outcome State Fault Refusal :=
  match s.req? s.pick.a with
  | some r =>
    match s.answer? r with
    | some ws =>
      match s.lostControl r with
      | some a => .next ((s.countPreg 0x3E6).lateFault r 0x20 a)
      | none =>
        let s := s.deliver r.elem r.id r.dst (fun _ => none) ws
        if r.phase = .landed then .next (s.updReq r.id fun r => { r with dst := .none, value := [] })
        else .next (s.dropReq r.id)
    | none => .next s
  | none => .next s

/-! ## Reads that latch (R299, R302, R386) -/

/-- A late read of a latching register is carried out: its high word latched, its low word on the way back. -/
def State.answerControl (s : State) (n : BitVec 10) : State :=
  match s.req? s.pick.a with
  | some r =>
    if r.kind = .control n && r.phase = .sent then
      (s.sysLatch r.elem n.toNat).updReq r.id fun q => { q with phase := .answered, value := [s.sysValue r.elem n.toNat] }
    else s
  | none => s

/-- `TIME_LO_READ` (R299): the read `a` of TIME_LO by an element is carried out. -/
def execTimeLoRead (s : State) : Host.Outcome State Fault Refusal := .next (s.answerControl 6)

/-- A value that the host reads goes to it. -/
def State.tellHost (s : State) (w : Word) : State := { s with outside := s.outside ++ [.register w] }

/-- `TRANS_SEQ_LO_READ` (R302): with `flag` the host reads, else the read `a` of a privileged spur is carried out. An
invalidation completes in its own happening, so that none is pending. -/
def execTransSeqLoRead (s : State) : Host.Outcome State Fault Refusal :=
  if s.pick.flag then .next ((s.latchReg 0x214).tellHost (s.readReg 0x214)) else .next (s.answerControl 0x214)

end Sys2Proof.Machine
end

