-- ==== Sys2Proof/Machine/RasterIsland.lean ====
section
/-!
DEFINITION. The raster and blend islands (R157 to R169, R295, R394): geometry bindings, coverage and depth, binning,
fragments, tickets and blending, and `vis.attr`.
-/
namespace Sys2Proof.Machine

/-! ## Memory updates of an island -/

/-- One read-modify-write of an island at a scope: in the cluster's copy, or at the home from massif scope on (R138).
None where it waits at a pinned line. As an atomic it faults on host memory (R140) and changes nothing of a bound word
(R151). -/
def State.engUpdate (s : State) (core group va n : Nat) (scope : BitVec 3) (atomic : Bool) (f : List Byte → List Byte) :
    Except (Nat × Nat) (Option State) :=
  let cl := coreCluster core
  match s.pieces cl (s.rootAt core) ⟨true, true, false, s.privAt core⟩ va n with
  | .error e => .error e
  | .ok [] => .ok (some s)
  | .ok (p :: _) =>
    if atomic && keyKind p.key = 1 then .error (0x38, va)
    else if s.pinnedPiece cl p then .ok none
    else
      let home := atHome p.key p.policy || scope.toNat ≥ 3
      let s1 := if home then (s.writeBack cl (sectorOf p.key)).dropL2 cl fun j => p.key ≤ j && j < p.key + n else s
      match s1.poisonedByte cl p.key n with
      | some j => .error (0x20, va + (j - p.key))
      | none =>
        if atomic && !(s.overlapped p.key n).isEmpty then .ok (some ((s.overlapped p.key n).foldl State.countDiscard s))
        else if home then .ok (some (s1.landHome cl p.key (f (s1.homeRead p.key n))))
        else .ok (some ((s1.landAt cl p.key p.policy (f (s1.clusterRead cl p.key n))).noteWritten core group 32 p.key n))

/-! ## Geometry bindings (R158) -/

/-- Bytes of a pixel of a colour format. -/
def pixelSize (fmt : Nat) : Nat := if fmt = 0 then 4 else if fmt = 1 then 8 else 16

/-- Whether a binding's values are in their ranges (R158) (DEDUCED, log 36); an address of 2^55 or more is not (DESIGN
CHOICE, log 36). -/
def bindingOk (b : List Byte) : Bool :=
  let f (off n : Nat) : Nat := fieldAt b off n
  f 0 8 % 16 = 0 && f 0x18 8 % 8 = 0 && f 0x20 8 % 64 = 0 && f 0x28 4 % 64 = 0 && f 0x28 4 ≥ 4096
    && byteAt b 0x2E ≤ 16 && f 0x2C 2 = 16 + 4 * byteAt b 0x2E && [1, 2, 4].contains (byteAt b 0x2F)
    && 1 ≤ f 0x30 2 && f 0x30 2 ≤ 16384 && 1 ≤ f 0x32 2 && f 0x32 2 ≤ 16384 && f 0x34 4 ≥ f 0x30 2
    && byteAt b 0x38 ≤ 2 && byteAt b 0x39 ≤ 2 && 2 ≤ byteAt b 0x3A && byteAt b 0x3A ≤ 5 && byteAt b 0x3B ≤ 5
    && byteAt b 0x3C ≤ 2 && zeroAt b 0x3D 3 && f 0x40 8 % pixelSize (byteAt b 0x3C) = 0 && zeroAt b 0x48 56
    && [0, 8, 0x10, 0x18, 0x20, 0x40].all fun off => f off 8 < 2 ^ 55

/-- Width of a binding's viewport. -/
def gbWidth (b : List Byte) : Nat := fieldAt b 0x30 2
/-- Height. -/
def gbHeight (b : List Byte) : Nat := fieldAt b 0x32 2
/-- Samples. -/
def gbSamples (b : List Byte) : Nat := byteAt b 0x2F
/-- Mode. -/
def gbMode (b : List Byte) : Nat := byteAt b 0x38
/-- Scope of updates. -/
def gbScope (b : List Byte) : BitVec 3 := BitVec.ofNat 3 (byteAt b 0x3A)
/-- The offset of a sample in a buffer of elements of a size (R162, R168). -/
def gbSample (b : List Byte) (base size x y i : Nat) : Nat :=
  base + ((y * fieldAt b 0x34 4 + x) * gbSamples b + i) * size

/-- A binding as an island reads it when it accepts a request; a bad one is 0x40. -/
def State.readBinding (s : State) (core a : Nat) : Except (Nat × Nat) (List Byte) :=
  match blockAddr a with
  | some f => .error f
  | none =>
    match s.engRead core a 128 with
    | .error e => .error e
    | .ok b => if bindingOk b then .ok b else .error (0x40, 0)

/-! ## Primitives (R159, R160) -/

/-- A coordinate snapped to 1/256 pixel, where it has a snapped value in range. -/
def snap (v : Word) : Option Int :=
  match val32 v with
  | .fin n m e =>
    let k := roundToInt 0 n m (e + 8)
    if -(2 ^ 22) ≤ k && k ≤ 2 ^ 23 - 1 then some k else none
  | _ => none

/-- A vertex record, unless it discards its primitive (R159). -/
def vertexOf (bs : List Byte) : Option Vertex :=
  let ws := wordsOfBytes bs
  let z := ws.getD 2 0
  let w := ws.getD 3 0
  match snap (ws.getD 0 0), snap (ws.getD 1 0) with
  | some x, some y =>
    if (val32 z).isNan || (val32 w).isNan || fle32 w 0 then none else some ⟨x, y, z, w, ws.drop 4⟩
  | _, _ => none

/-- The three vertices of a primitive of an instance; none where R159 discards it. The vertex base plus an index wraps at
2^32 (DESIGN CHOICE, log 64). -/
def State.readPrimitive (s : State) (core : Nat) (b : List Byte) (inst prim : Nat) :
    Except (Nat × Nat) (Option (List Vertex)) :=
  match s.engRead core (fieldAt b 0x10 8 + 4 * inst) 4, s.engRead core (fieldAt b 0x08 8 + 12 * prim) 12 with
  | .error e, _ => .error e
  | _, .error e => .error e
  | .ok base, .ok idx =>
    let stride := fieldAt b 0x2C 2
    let at_ (i : Nat) : Nat := fieldAt b 0 8 + stride * ((fieldAt idx (4 * i) 4 + natOfBytes base) % 2 ^ 32)
    match s.engRead core (at_ 0) stride, s.engRead core (at_ 1) stride, s.engRead core (at_ 2) stride with
    | .error e, _, _ => .error e
    | _, .error e, _ => .error e
    | _, _, .error e => .error e
    | .ok v0, .ok v1, .ok v2 =>
      match vertexOf v0, vertexOf v1, vertexOf v2 with
      | some x, some y, some z => .ok (some [x, y, z])
      | _, _, _ => .ok none

/-- Sample positions in 1/16 pixel (R160). -/
def samplePlace (tick n i : Nat) : Nat × Nat :=
  if n = 1 && i = 0 then (8, 8)
  else if n = 2 && i < 2 then (if i = 0 then (4, 4) else (12, 12))
  else if n = 4 && i < 4 then (if i = 0 then (6, 2) else if i = 1 then (14, 6) else if i = 2 then (2, 10) else (10, 14))
  else Config.samplePos tick i

/-- The edge function of the edge from a to b at a point (DEDUCED, log 16). -/
def edgeFn (a b : Vertex) (px py : Int) : Int := (b.x - a.x) * (py - a.y) - (b.y - a.y) * (px - a.x)
/-- Vertex i of a primitive, cyclic. -/
def vtx (vs : List Vertex) (i : Nat) : Vertex := vs.getD (i % 3) default
/-- E_0, E_1 and E_2 at a point, before the sign rule. -/
def edges (vs : List Vertex) (px py : Int) : List Int :=
  (List.range 3).map fun i => edgeFn (vtx vs (i + 1)) (vtx vs (i + 2)) px py
/-- The doubled area A. -/
def area (es : List Int) : Int := es.getD 0 0 + es.getD 1 0 + es.getD 2 0

/-- Whether the edge opposite vertex i is a top or left edge (R160). -/
def topLeft (vs : List Vertex) (i : Nat) : Bool :=
  let a := vtx vs (i + 1)
  let b := vtx vs (i + 2)
  let c := vtx vs i
  if a.y = b.y then c.y > a.y
  else
    let dy := b.y - a.y
    let left := (c.x - a.x) * dy - (b.x - a.x) * (c.y - a.y)
    if dy > 0 then left > 0 else left < 0

/-- The edge functions at a covered sample, all made positive, with the area; none where it is not covered (R160). -/
def coverAt (vs : List Vertex) (cull : Nat) (px py : Int) : Option (List Int × Int) :=
  let es := edges vs px py
  let a := area es
  if a = 0 || (cull = 1 && a < 0) || (cull = 2 && a > 0) then none
  else
    let es := if a < 0 then es.map (- ·) else es
    if es.zipIdx.all fun e => e.1 > 0 || (e.1 = 0 && topLeft vs e.2) then some (es, (a.natAbs : Int)) else none

/-- E_i / A, rounded once. -/
def edgeRatio (e a : Int) : Word := toF32 ((Num.ofInt e).div (Num.ofInt a))

/-- The depth field at a covered sample; none where the sample is discarded (R161). -/
def depthAt (vs : List Vertex) (es : List Int) (a : Int) : Option Nat :=
  let z (i : Nat) : Word := (vtx vs i).z
  let b1 := edgeRatio (es.getD 1 0) a
  let b2 := edgeRatio (es.getD 2 0) a
  let d := fma32 b2 (fsub32 (z 2) (z 0)) (fma32 b1 (fsub32 (z 1) (z 0)) (z 0))
  if flt32 d 0 || flt32 0x3F800000#32 d then none
  else
    match (val32 d).mul (.fin false (2 ^ 24 - 1) 0) with
    | .fin n m e => some (roundToInt 0 n m e).toNat
    | _ => none

/-- The visibility word (R162). -/
def visWord (depth inst prim : Nat) : Nat := depth * 2 ^ 40 + inst * 2 ^ 20 + prim

/-! ## Binning (R165, R394) -/

/-- Tiles of 32 pixels that a range of snapped coordinates touches, inside n tiles. -/
def tileSpan (lo hi : Int) (n : Nat) : List Nat :=
  let first := (max 0 (lo / 8192)).toNat
  let last := max (lo / 8192) ((hi - 1) / 8192)
  (List.range n).filter fun t => first ≤ t && (t : Int) ≤ last
/-- Tiles across a viewport. -/
def gbTilesX (b : List Byte) : Nat := (gbWidth b + 31) / 32
/-- Tiles down a viewport. -/
def gbTilesY (b : List Byte) : Nat := (gbHeight b + 31) / 32
/-- The least and greatest of three coordinates. -/
def span3 (f : Vertex → Int) (vs : List Vertex) : Int × Int :=
  (min (f (vtx vs 0)) (min (f (vtx vs 1)) (f (vtx vs 2))), max (f (vtx vs 0)) (max (f (vtx vs 1)) (f (vtx vs 2))))
/-- The tiles that a primitive's snapped box touches, row-major. -/
def tilesOf (b : List Byte) (vs : List Vertex) : List Nat :=
  let xs := span3 (·.x) vs
  let ys := span3 (·.y) vs
  (tileSpan ys.1 ys.2 (gbTilesY b)).flatMap fun ty => (tileSpan xs.1 xs.2 (gbTilesX b)).map fun tx => ty * gbTilesX b + tx

/-- Changes the raster island of a cluster. -/
def State.updRaster (s : State) (cl : Nat) (f : Raster → Raster) : State :=
  s.updCluster cl fun c => { c with raster := f c.raster }

/-- A fault of the open draw: it stays open and waits for its replay (R281, R394). -/
def State.drawFault (s : State) (cl code addr : Nat) : State :=
  let r := (s.cluster cl).raster
  (s.updRaster cl fun r => { r with stalled := true }).cmdFault r.cmd code addr

/-- The bytes that the island keeps for a primitive in the bin buffer are open (R165). -/
def binBytes (tick a n : Nat) : List Byte := (List.range n).map fun i => Config.binByte tick (a + i)

/-- The setup of a primitive lands in the bin buffer; none where it waits at a pinned line (R137, R165). -/
def State.binWrite (s : State) (cl core : Nat) (b : Binned) : Except (Nat × Nat) (Option State) :=
  match s.writePieces core b.place b.bytes.length with
  | .error e => .error e
  | .ok ps => if ps.any (s.pinnedPiece cl) then .ok none else .ok (some (s.landPieces cl ps b.bytes))

/-- The island stops binning and begins to rasterise what it has binned (R165). -/
def State.startFlush (s : State) (cl : Nat) : State :=
  s.updRaster cl fun r => if r.binned = [] then r else { r with flushing := true, tile := 0, entry := 0, pixel := 0 }

/-- Bins the next primitives in order, until one does not fit or the draw's last is binned; then the bins are rasterised
(R165). Its tables are read once, as plain loads (R131, R159). -/
def State.binFuel (s : State) (cl : Nat) : Nat → State
  | 0 => s
  | fuel + 1 =>
    let r := (s.cluster cl).raster
    let core := elemCore r.cmd.elem
    if r.next > r.last then s.startFlush cl
    else
      match s.readPrimitive core r.block r.inst.toNat r.next with
      | .error (c, a) => s.drawFault cl c a
      | .ok none => (s.updRaster cl fun r => { r with next := r.next + 1 }).binFuel cl fuel
      | .ok (some vs) =>
        let need := 64 + 8 * (tilesOf r.block vs).length
        let size := fieldAt r.block 0x28 4
        if r.used + need > size then
          if r.binned = [] && r.tickets = [] then s.drawFault cl 0x58 r.next else s.startFlush cl
        else
          let a := fieldAt r.block 0x20 8 + r.used
          let b : Binned := ⟨r.next, vs, a, binBytes s.tick a need⟩
          match s.peerLost core a need, s.binWrite cl core b with
          | some x, _ => (s.lostWrite core a b.bytes 2).drawFault cl 0x20 x
          | none, .error (c, x) => s.drawFault cl c x
          | none, .ok none => s
          | none, .ok (some s) =>
            (s.updRaster cl fun r => { r with next := r.next + 1, used := r.used + need, binned := r.binned ++ [b] }).binFuel
              cl fuel

/-- `BIN_FLUSH` (R165): the raster island of the cluster `a` bins primitives as far as they fit, and begins to rasterise
the bins. -/
def execBinFlush (s : State) : Host.Outcome State Fault Refusal :=
  let s := s.storageError
  let cl := s.pick.a
  let r := (s.cluster cl).raster
  if !r.isOpen || r.flushing || r.stalled || s.heldAt (elemCore r.cmd.elem) then .next s
  else .next (s.binFuel cl (r.last + 2 - r.next))

/-! ## Rasterising (R160 to R166) -/

/-- The depth field of sample i of a pixel where a setup covers it: by its vertices (R160, R161), or anyhow where a
program has overwritten the setup's bytes, which then has none (R165). -/
def coverSample (tick : Nat) (b : List Byte) (vs : Option (List Vertex)) (x y i : Nat) : Option Nat :=
  match vs with
  | none => (Config.binSample tick x y i).map (·.toNat)
  | some vs =>
    let p := samplePlace tick (gbSamples b) i
    match coverAt vs (byteAt b 0x39) (256 * x + 16 * p.1) (256 * y + 16 * p.2) with
    | none => none
    | some (es, a) => depthAt vs es a

/-- The covered samples of a pixel with their depth fields; in mode 2 those not behind the visibility buffer. -/
def State.coverPixel (s : State) (core : Nat) (b : List Byte) (vs : Option (List Vertex)) (x y : Nat) :
    Except (Nat × Nat) (List (Nat × Nat)) :=
  (List.range (gbSamples b)).foldl (fun acc i =>
    match acc with
    | .error e => .error e
    | .ok l =>
      match coverSample s.tick b vs x y i with
      | none => .ok l
      | some d =>
        if gbMode b ≠ 2 then .ok (l ++ [(i, d)])
        else
          match s.engRead core (gbSample b (fieldAt b 0x18 8) 8 x y i) 8 with
          | .error e => .error e
          | .ok bs => .ok (if d ≤ natOfBytes bs / 2 ^ 40 then l ++ [(i, d)] else l)) (.ok [])

/-- The next covered pixel of a setup in a tile from a pixel of the tile on, in rows. -/
def State.nextPixel (s : State) (core : Nat) (b : List Byte) (vs : Option (List Vertex)) (tile : Nat) :
    Nat → Nat → Except (Nat × Nat) (Option (Nat × List (Nat × Nat)))
  | 0, _ => .ok none
  | fuel + 1, k =>
    let x := tile % gbTilesX b * 32 + k % 32
    let y := tile / gbTilesX b * 32 + k / 32
    if x ≥ gbWidth b || y ≥ gbHeight b then s.nextPixel core b vs tile fuel (k + 1)
    else
      match s.coverPixel core b vs x y with
      | .error e => .error e
      | .ok [] => s.nextPixel core b vs tile fuel (k + 1)
      | .ok l => .ok (some (k, l))

/-- The visibility updates of a pixel's covered samples (R163). None where one waits at a pinned line. -/
def State.visUpdate (s : State) (core group : Nat) (b : List Byte) (inst prim x y : Nat) :
    List (Nat × Nat) → Except (Nat × Nat) (Option State)
  | [] => .ok (some s)
  | (i, d) :: rest =>
    let v := visWord d inst prim
    match s.engUpdate core group (gbSample b (fieldAt b 0x18 8) 8 x y i) 8 (gbScope b) true fun old =>
        bytesOfNat 8 (min v (natOfBytes old)) with
    | .error e => .error e
    | .ok none => .ok none
    | .ok (some s) => s.visUpdate core group b inst prim x y rest

/-- A word leaves an island's output queue (R166, R175). -/
def State.emitEdge (s : State) (cl pos q : Nat) (ws : List (Word × Tag)) : State :=
  let key := edgeKey pos q
  s.updCluster cl fun c => { c with
    edgeOut := c.edgeOut.put key ((c.edgeOut.find key).getD [] ++ ws.map fun w => ⟨w.1, w.2, 0⟩) }

/-- A covered pixel of a primitive is put out: visibility updates, or a fragment with its ticket (R163, R166). -/
def State.putPixel (s : State) (cl : Nat) (r : Raster) (prim k : Nat) (l : List (Nat × Nat)) : State :=
  let core := elemCore r.cmd.elem
  let b := r.block
  let x := r.tile % gbTilesX b * 32 + k % 32
  let y := r.tile / gbTilesX b * 32 + k / 32
  let on (s : State) : State := s.updRaster cl fun r => { r with pixel := k + 1 }
  if gbMode b = 0 then
    match s.visUpdate core r.cmd.group b r.inst.toNat prim x y l with
    | .error (c, a) => s.drawFault cl c a
    | .ok none => s
    | .ok (some s) => on s
  else if r.tickets.length ≥ 1024 then s
  else
    let cover := l.foldl (fun m p => m ||| 1#4 <<< p.1) 0
    let px := BitVec.ofNat 32 (y * 65536 + x)
    let s := s.emitEdge cl 5 r.queue.toNat [(px, 0), (BitVec.ofNat 32 (prim * 2 ^ 12 + cover.toNat * 2 ^ 8), 0),
      (BitVec.ofNat 32 (r.nextTicket * 2 ^ 20 + r.inst.toNat), 1)]
    on (s.updRaster cl fun r => { r with
      nextTicket := (r.nextTicket + 1) % 1024
      tickets := r.tickets ++ [⟨r.nextTicket, px, cover, none⟩] })

/-- The vertices that a setup in the bin buffer still stands for; none where a program has overwritten it (R165). -/
def State.setupOf (s : State) (core : Nat) (e : Binned) : Except (Nat × Nat) (Option (List Vertex)) :=
  match s.engRead core e.place e.bytes.length with
  | .error x => .error x
  | .ok bs => .ok (if bs = e.bytes then some e.verts else none)

/-- The primitive field of a fragment of a setup; any of the draw's where it is overwritten (R165). -/
def Raster.primOf (r : Raster) (tick : Nat) (e : Binned) (vs : Option (List Vertex)) : Nat :=
  let first := (r.cmd.ops.getD 2 0).toNat
  if vs.isSome then e.prim else first + Config.binPrim tick % (r.last + 1 - first)

/-- The island goes on to its next covered pixel, or ends the flush of its bins. -/
def State.rasterFuel (s : State) (cl : Nat) : Nat → State
  | 0 => s
  | fuel + 1 =>
    let r := (s.cluster cl).raster
    let b := r.block
    let core := elemCore r.cmd.elem
    if r.tile ≥ gbTilesX b * gbTilesY b then
      s.updRaster cl fun r => { r with flushing := false, binned := [], used := 0 }
    else
      match r.binned[r.entry]? with
      | none => (s.updRaster cl fun r => { r with tile := r.tile + 1, entry := 0, pixel := 0 }).rasterFuel cl fuel
      | some e =>
        let skip (s : State) : State :=
          (s.updRaster cl fun r => { r with entry := r.entry + 1, pixel := 0 }).rasterFuel cl fuel
        match s.setupOf core e with
        | .error (c, a) => s.drawFault cl c a
        | .ok vs =>
          if vs.isSome && !(tilesOf b e.verts).contains r.tile then skip s
          else
            match s.nextPixel core b vs r.tile (1024 - r.pixel) r.pixel with
            | .error (c, a) => s.drawFault cl c a
            | .ok none => skip s
            | .ok (some (k, l)) => s.putPixel cl r (r.primOf s.tick e vs) k l

/-- `FRAGMENT_EMIT` (R166): the raster island of the cluster `a` puts out the next covered pixel of its bins: tiles in
rising order, in each tile its primitives in order, each primitive's pixels in rows. -/
def execFragmentEmit (s : State) : Host.Outcome State Fault Refusal :=
  let s := s.storageError
  let cl := s.pick.a
  let r := (s.cluster cl).raster
  if !r.isOpen || !r.flushing || r.stalled || s.heldAt (elemCore r.cmd.elem) then .next s
  else .next (s.rasterFuel cl ((gbTilesX r.block * gbTilesY r.block + 1) * (r.binned.length + 1)))

/-! ## Blending (R167, R168) -/

/-- One channel by a blend equation: s, its alpha, and d (R168). Equation 0 keeps s as it is, also a NaN's payload (DESIGN
CHOICE, log 59). -/
def blendChannel (eq : Nat) (s sa d : Word) : Word :=
  let one := 0x3F800000#32
  match eq with
  | 0 => s
  | 1 => fma32 d (fsub32 one sa) (fmul32 s sa)
  | 2 => fadd32 s d
  | 3 => fmin32 s d
  | 4 => fmax32 s d
  | _ => fma32 d (fsub32 one sa) s

/-- The channels of a stored pixel as FP32. -/
def pixelWords (fmt : Nat) (bs : List Byte) : List Word :=
  (List.range 4).map fun i =>
    if fmt = 0 then toF32 ((Num.ofInt (byteAt bs i)).div (.ofInt 255))
    else if fmt = 1 then toF32 (fp16.decode (fieldAt bs (2 * i) 2))
    else wordAt bs (4 * i)
/-- A channel as RGBA8: clamped, scaled, rounded; NaN is 0. -/
def unorm8 (w : Word) : Nat :=
  let v := val32 w
  if v.isNan || flt32 w 0 then 0
  else if flt32 0x3F800000#32 w then 255
  else
    match v.mul (.ofInt 255) with
    | .fin n m e => (roundToInt 0 n m e).toNat
    | _ => 0
/-- Channels as a stored pixel. -/
def pixelBytes (fmt : Nat) (ws : List Word) : List Byte :=
  if fmt = 0 then ws.flatMap fun w => bytesOfNat 1 (unorm8 w)
  else if fmt = 1 then ws.flatMap fun w => bytesOfNat 2 (fp16.round 0 (val32 w))
  else bytesOfWords ws

/-- A stored pixel blended with a colour. -/
def blendPixel (b : List Byte) (colour : List Word) (old : List Byte) : List Byte :=
  let fmt := byteAt b 0x3C
  let d := pixelWords fmt old
  pixelBytes fmt ((List.range 4).map fun i =>
    blendChannel (byteAt b 0x3B) (colour.getD i 0) (colour.getD 3 0) (d.getD i 0))

/-- The colour updates of the covered samples of a ticket. -/
def State.blendSamples (s : State) (core group : Nat) (b : List Byte) (x y : Nat) (colour : List Word) :
    List Nat → Except (Nat × Nat) (Option State)
  | [] => .ok (some s)
  | i :: rest =>
    let n := pixelSize (byteAt b 0x3C)
    match s.engUpdate core group (gbSample b (fieldAt b 0x40 8) n x y i) n (gbScope b) false (blendPixel b colour) with
    | .error e => .error e
    | .ok none => .ok none
    | .ok (some s) => s.blendSamples core group b x y colour rest

/-- `TICKET_RETIRE` (R167): the blend island of the cluster `a` retires its oldest ticket, once its answer has come. A
fault of its updates belongs to the `bl.put`. -/
def execTicketRetire (s : State) : Host.Outcome State Fault Refusal :=
  let s := s.storageError
  let cl := s.pick.a
  let r := (s.cluster cl).raster
  match r.tickets with
  | t :: rest =>
    match t.answer with
    | none => .next s
    | some c =>
      let retire (s : State) : State := s.updRaster cl fun r => { r with tickets := rest }
      if (c.ops.getD 0 0).getLsbD 31 then .next (retire s)
      else
        let x := bitsOf t.pixel 0 16
        let y := bitsOf t.pixel 16 16
        let is_ := (List.range 4).filter fun i => t.cover.getLsbD i
        match s.blendSamples (elemCore r.cmd.elem) r.cmd.group r.block x y (c.ops.drop 1) is_ with
        | .ok (some s) => .next (retire s)
        | .ok none => .next s
        | .error (code, a) =>
          .next ((s.updRaster cl fun r => { r with tickets := { t with answer := none } :: rest }).cmdFault c code a)
  | [] => .next s

/-! ## The end of a draw (R169) -/

/-- `DRAW_FLUSH_COMPLETE` (R169): the `rs.flush` of the cluster `a` completes; its register write is a release. -/
def execDrawFlushComplete (s : State) : Host.Outcome State Fault Refusal :=
  let cl := s.pick.a
  let r := (s.cluster cl).raster
  match r.flush with
  | none => .next s
  | some c =>
    let q : Req := { c.toReq s.nextId with rel := true, scope := gbScope r.block }
    if r.next ≤ r.last || r.binned ≠ [] || r.flushing || r.tickets ≠ [] || r.stalled || !s.releaseReady q then .next s
    else
      let s := (s.release q).updRaster cl fun r => { (default : Raster) with attrs := r.attrs }
      .next ((s.setDrawOpen (elemCore c.elem) false).answerCmd c [0])

/-! ## Attributes of a visibility sample (R164) -/

/-- The words c1, c2 and the attributes. -/
def attrWords (vs : List Vertex) (n : Nat) (px py : Int) : List Word :=
  let es := edges vs px py
  let a := area es
  let es := if a < 0 then es.map (- ·) else es
  let q (i : Nat) : Word := fdiv32 (edgeRatio (es.getD i 0) a.natAbs) (vtx vs i).w
  let qs := fadd32 (fadd32 (q 0) (q 1)) (q 2)
  let c (i : Nat) : Word := fdiv32 (q i) qs
  let at_ (i k : Nat) : Word := (vtx vs i).attrs.getD k 0
  c 1 :: c 2 :: (List.range n).map fun k =>
    fma32 (c 2) (at_ 2 k) (fma32 (c 1) (at_ 1 k) (fmul32 (c 0) (at_ 0 k)))

/-- The words of a `vis.attr` request. -/
def State.visAttr (s : State) (c : Cmd) : Except (Nat × Nat) (List Word) :=
  let core := elemCore c.elem
  let w (i : Nat) : Word := c.ops.getD i 0
  match s.readBinding core (baseOf c.ops) with
  | .error e => .error e
  | .ok b =>
    let vis := (of64 (w 2) (w 3)).toNat
    if vis = 2 ^ 64 - 1 then .ok [0xFFFFFFFF#32]
    else
      match s.readPrimitive core b (vis / 2 ^ 20 % 2 ^ 20) (vis % 2 ^ 20) with
      | .error e => .error e
      | .ok none => .ok ((List.range (2 + byteAt b 0x2E)).map (Config.attrWord s.tick))
      | .ok (some vs) =>
        let p := samplePlace s.tick (gbSamples b) (w 5).toNat
        .ok (attrWords vs (byteAt b 0x2E) (256 * bitsOf (w 4) 0 16 + 16 * p.1) (256 * bitsOf (w 4) 16 16 + 16 * p.2))

/-- The tag of word i of a result of n words: 3 for the last, another for the others; none is that of the destination
code. -/
def lastTag (n : Nat) (other : Option Tag) (i : Nat) : Option Tag := if i + 1 = n then some 3 else other

/-- `VIS_ATTR_RESULT` (R164): the raster island of the cluster `a` answers its oldest `vis.attr`. -/
def execVisAttrResult (s : State) : Host.Outcome State Fault Refusal :=
  let s := s.storageError
  let cl := s.pick.a
  match ((s.cluster cl).raster).attrs with
  | [] => .next s
  | c :: rest =>
    let t := s.updRaster cl fun r => { r with attrs := rest }
    match s.visAttr c with
    | .error (code, a) => .next (t.cmdFault c code a)
    | .ok ws => .next (t.deliver c.elem 0 c.dst (lastTag ws.length (some 0)) ws)

end Sys2Proof.Machine
end

