-- ==== Sys2Proof/Machine/Trans.lean ====
section
/-!
DEFINITION. Transcendental functions of the function element (R237, R238), correctly rounded to FP32.

Values are fixed-point integers with 512 fraction bits. Exact results are taken out first; every other
result is irrational, and its error here is below 2^-480, far less than its distance from any point where
FP32 rounding changes (DEDUCED, log 8).
-/
namespace Sys2Proof.Machine

/-- Fraction bits of the fixed-point values. -/
def fixBits : Nat := 512
/-- One. -/
def fixOne : Int := 2 ^ 512
/-- The product of two fixed-point values. -/
def fixMul (a b : Int) : Int := a * b / fixOne
/-- The quotient of two fixed-point values. -/
def fixDiv (a b : Int) : Int := a * fixOne / b

/-- Σ z^(2n+1) / (2n+1), or with alternating signs: the terms from n upward; `p` is ±z^(2n+1). -/
def atanSeries : Nat → Nat → Int → Int → Int
  | 0, _, _, _ => 0
  | fuel + 1, n, zz, p => p / (2 * (n : Int) + 1) + atanSeries fuel (n + 1) zz (fixMul p zz)

/-- Artanh of a fixed-point value of magnitude at most 1/3. -/
def fixAtanh (z : Int) : Int := atanSeries 170 0 (fixMul z z) z
/-- Arctan of 1/k. -/
def fixAtanInv (k : Int) : Int := atanSeries 240 0 (-(fixOne / (k * k))) (fixOne / k)
/-- π. -/
def fixPi : Int := 16 * fixAtanInv 5 - 4 * fixAtanInv 239
/-- The natural logarithm of 2. -/
def fixLn2 : Int := 2 * fixAtanh (fixOne / 3)

/-- π with 704 fraction bits, by the same sum at that precision: enough to reduce every FP32 argument. -/
def piSeries : Nat → Nat → Int → Int → Int
  | 0, _, _, _ => 0
  | fuel + 1, n, kk, p => p / (2 * (n : Int) + 1) + piSeries fuel (n + 1) kk (-(p / kk))
/-- π · 2^704, rounded down. -/
def pi704 : Int := 16 * piSeries 320 0 25 (2 ^ 704 / 5) - 4 * piSeries 320 0 57121 (2 ^ 704 / 239)

/-- Σ of a power series whose term n + 1 is term n times `x` over (a n + b) (a n + c): from n upward. -/
def trigSeries : Nat → Nat → Nat → Int → Int → Int
  | 0, _, _, _, _ => 0
  | fuel + 1, n, c, xx, t =>
    t + trigSeries fuel (n + 1) c xx (-(fixMul t xx) / ((2 * (n : Int) + 1 + c) * (2 * (n : Int) + 2 + c)))

/-- Sine of a fixed-point value of magnitude at most 4. -/
def fixSin (x : Int) : Int := trigSeries 130 0 1 (fixMul x x) x
/-- Cosine of a fixed-point value of magnitude at most 4. -/
def fixCos (x : Int) : Int := trigSeries 130 0 0 (fixMul x x) fixOne

/-- Σ x^n / n! from n upward; `t` is the term n. -/
def expSeries : Nat → Nat → Int → Int → Int
  | 0, _, _, _ => 0
  | fuel + 1, n, x, t => t + expSeries fuel (n + 1) x (fixMul t x / ((n : Int) + 1))
/-- e^x for a fixed-point value of magnitude at most 1. -/
def fixExp (x : Int) : Int := expSeries 130 0 x fixOne

/-- e^x - 1 for a fixed-point value of magnitude at most 1, without the loss of a subtraction. -/
def fixExpm1 (x : Int) : Int := expSeries 130 1 x x

/-- Σ (-1)^n x^(2n+1) / (n! (2n+1)) from n upward; `t` is ±x^(2n+1)/n!. -/
def erfSeries : Nat → Nat → Int → Int → Int
  | 0, _, _, _ => 0
  | fuel + 1, n, xx, t =>
    t / (2 * (n : Int) + 1) + erfSeries fuel (n + 1) xx (-(fixMul t xx) / ((n : Int) + 1))

/-- A finite value as fixed point, cut toward −∞; exact for every FP32 value of magnitude below 2^128. -/
def toFix (neg : Bool) (m : Nat) (e : Int) : Int :=
  let k := e + (fixBits : Int)
  signed neg (if k ≥ 0 then m * 2 ^ k.toNat else m / 2 ^ (-k).toNat)

/-- A fixed-point value that is not exact: its last bit marks that digits follow. -/
def ofFix (v : Int) (k : Int) : Num :=
  .fin (decide (v < 0)) (2 * v.natAbs + 1) (k - 1 - (fixBits : Int))

/-- A finite FP32 argument reduced to (−π, π], fixed point. -/
def reduceAngle (neg : Bool) (m : Nat) (e : Int) : Int :=
  let big := signed neg (m * 2 ^ (e + 704).toNat)
  let two := 2 * pi704
  let r := big % two
  let r := if r > pi704 then r - two else r
  r / 2 ^ 192

/-- `sin.f` (R237). -/
def sinF (x : Num) : Num :=
  match x with
  | .fin n m e => if m = 0 then .fin n 0 0 else ofFix (fixSin (reduceAngle n m e)) 0
  | _ => .nan
/-- `cos.f` (R237). -/
def cosF (x : Num) : Num :=
  match x with
  | .fin n m e => if m = 0 then .fin false 1 0 else ofFix (fixCos (reduceAngle n m e)) 0
  | _ => .nan

/-- The FP64 value nearest to 2π as a multiple of 2^-50 (R238: 0x4019_21FB_5444_2D18). -/
def twoPiQ : Nat := 0x1921FB54442D18

/-- Whether |x| ≥ 2^15 · π, or x is NaN (R238). -/
def angleOut (x : Num) : Bool :=
  match x with
  | .fin _ m e => decide ((m : Int) * 2 ^ (e + 704).toNat ≥ 2 ^ 15 * pi704)
  | _ => true

/-- x − k · P in units of 2^-200, k the nearest integer to x / P, ties to even (R238). -/
def reduceQ (neg : Bool) (m : Nat) (e : Int) : Int :=
  let x := signed neg (m * 2 ^ (e + 200).toNat)
  let p : Int := (twoPiQ : Int) * 2 ^ 150
  let k := x / p
  let r := x % p
  let up := decide (2 * r > p) || (decide (2 * r = p) && decide (k % 2 = 1))
  if up then r - p else r

/-- `sin.q` (R238). -/
def sinQ (x : Num) : Num :=
  match x with
  | .fin n m e =>
    if angleOut x then .nan
    else
      let r := reduceQ n m e
      if r = 0 then .fin n 0 0 else ofFix (fixSin (r * 2 ^ 312)) 0
  | _ => .nan
/-- `cos.q` (R238). -/
def cosQ (x : Num) : Num :=
  match x with
  | .fin n m e =>
    if angleOut x then .nan
    else
      let r := reduceQ n m e
      if r = 0 then .fin false 1 0 else ofFix (fixCos (r * 2 ^ 312)) 0
  | _ => .nan

/-- `exp2` (R237): whole exponents are exact. -/
def exp2F (x : Num) : Num :=
  match x with
  | .nan => .nan
  | .inf n => if n then .fin false 0 0 else .inf false
  | .fin n m e =>
    if m = 0 then .fin false 1 0
    else if (Nat.log2 m : Int) + e ≥ 10 then (if n then .fin false 1 (-2000) else .fin false 1 2000)
    else
      let v := toFix n m e
      let k := v / fixOne
      let fr := v % fixOne
      if fr = 0 then .fin false 1 k else ofFix (fixExp (fixMul fr fixLn2)) k

/-- `log2` (R237): powers of two are exact. -/
def log2F (x : Num) : Num :=
  match x with
  | .nan => .nan
  | .inf n => if n then .nan else .inf false
  | .fin n m e =>
    if m = 0 then .inf true
    else if n then .nan
    else
      let l := Nat.log2 m
      let k := (l : Int) + e
      if m = 2 ^ l then .ofInt k
      else
        let f := (m : Int) * 2 ^ (fixBits - l)
        let ln := 2 * fixAtanh (fixDiv (f - fixOne) (f + fixOne))
        ofFix (k * fixOne + fixDiv ln fixLn2) 0

/-- `tanh` (R237). -/
def tanhF (x : Num) : Num :=
  match x with
  | .nan => .nan
  | .inf n => .fin n 1 0
  | .fin n m e =>
    if m = 0 then .fin n 0 0
    else if (Nat.log2 m : Int) + e ≥ 4 then .fin n 1 0
    else
      let y := 2 * toFix false m e
      let k := fixDiv y fixLn2 / fixOne
      let r := y - k * fixLn2
      let em1 := (fixExpm1 r + fixOne) * 2 ^ k.toNat - fixOne
      let em1 := if k = 0 then fixExpm1 r else em1
      let t := fixDiv em1 (em1 + 2 * fixOne)
      ofFix (if n then -t else t) 0

/-- √π, fixed point. -/
def fixSqrtPi : Int := isqrt (fixPi.toNat * 2 ^ fixBits)

/-- `erf` (R237). -/
def erfF (x : Num) : Num :=
  match x with
  | .nan => .nan
  | .inf n => .fin n 1 0
  | .fin n m e =>
    if m = 0 then .fin n 0 0
    else if (Nat.log2 m : Int) + e ≥ 2 then .fin n 1 0
    else
      let v := toFix n m e
      ofFix (fixDiv (2 * erfSeries 260 0 (fixMul v v) v) fixSqrtPi) 0

/-- `rcp` (R237). -/
def rcpF (x : Num) : Num := (Num.fin false 1 0).div x
/-- `rsqrt` (R237): 1/√x, from the square root of an exact reciprocal with enough digits. -/
def rsqrtF (x : Num) : Num :=
  match x with
  | .nan => .nan
  | .inf n => if n then .nan else .fin false 0 0
  | .fin n m e =>
    if m = 0 then .inf n
    else if n then .nan
    else
      let e2 := e - e % 2
      let den := m * 2 ^ (e % 2).toNat
      let k := 2 * Nat.log2 den + 140
      let big := 2 ^ k / den
      let r := isqrt big
      .fin false (2 * r + (if r * r * den = 2 ^ k then 0 else 1)) (-(e2 / 2) - (k : Int) / 2 - 1)

/-- A function of values as a function of FP32 words, rounded once (R237). -/
def onF32 (f : Num → Num) (x : Word) : Word := toF32 (f (val32 x))

end Sys2Proof.Machine
end

