-- ==== Sys2Proof/Machine/RayGeometry.lean ====
section
/-!
DEFINITION. The arithmetic of the traversal island (R170 to R174, R177, R178): vectors, boxes, node formats, and the
tests of triangles, capsules and curves. Where the specification names FP32 arithmetic without writing it out, the order of
operations is the one here (DEDUCED, log 17).
-/
namespace Sys2Proof.Machine

/-! ## Vectors of FP32 -/

/-- x, y and z. -/
structure V3 where
  x : Word
  y : Word
  z : Word
  deriving DecidableEq, Repr, Inhabited

/-- Componentwise. -/
def V3.zip (f : Word → Word → Word) (a b : V3) : V3 := ⟨f a.x b.x, f a.y b.y, f a.z b.z⟩
/-- a − b. -/
def V3.sub (a b : V3) : V3 := V3.zip fsub32 a b
/-- a + b. -/
def V3.add (a b : V3) : V3 := V3.zip fadd32 a b
/-- a scaled. -/
def V3.scale (k : Word) (a : V3) : V3 := ⟨fmul32 k a.x, fmul32 k a.y, fmul32 k a.z⟩
/-- b + k · a, rounded once a component. -/
def V3.axpy (k : Word) (a b : V3) : V3 := ⟨fma32 k a.x b.x, fma32 k a.y b.y, fma32 k a.z b.z⟩
/-- A component by number. -/
def V3.get (a : V3) (i : Nat) : Word := if i = 0 then a.x else if i = 1 then a.y else a.z
/-- A vector of 12 bytes at an offset. -/
def vecAt (b : List Byte) (off : Nat) : V3 := ⟨wordAt b off, wordAt b (off + 4), wordAt b (off + 8)⟩
/-- a · b − c · d, rounded once (R173). -/
def diffProd (a b c d : Word) : Word := toF32 (((val32 a).mul (val32 b)).add ((val32 c).mul (val32 d)).negate)
/-- A cross product (R173). -/
def V3.cross (a b : V3) : V3 :=
  ⟨diffProd a.y b.z a.z b.y, diffProd a.z b.x a.x b.z, diffProd a.x b.y a.y b.x⟩
/-- A dot product (R173). -/
def V3.dot (a b : V3) : Word := fma32 a.z b.z (fma32 a.y b.y (fmul32 a.x b.x))
/-- A square root. -/
def fsqrt32 (x : Word) : Word := toF32 (val32 x).sqrt
/-- The length of a vector. -/
def V3.len (a : V3) : Word := fsqrt32 (a.dot a)
/-- Sign cleared. -/
def fabs32 (x : Word) : Word := BitVec.ofNat 32 (fp32.absBits x.toNat)
/-- 1. -/
def fOne : Word := 0x3F800000#32
/-- 0.5. -/
def fHalf : Word := 0x3F000000#32
/-- A whole number. -/
def fNat (n : Nat) : Word := toF32 (.ofInt n)
/-- x limited to [0, 1]. -/
def clamp01 (x : Word) : Word := fmin32 (fmax32 x 0) fOne

/-! ## Boxes and rays -/

/-- A box by its corners. -/
structure Box where
  lo : V3
  hi : V3
  deriving DecidableEq, Repr, Inhabited

/-- A ray: origin, direction, t0 and t1 (R296). -/
structure Ray where
  o : V3
  d : V3
  t0 : Word
  t1 : Word
  deriving DecidableEq, Repr, Inhabited

/-- Where the ray meets a plane of an axis. -/
def Ray.plane (r : Ray) (i : Nat) (p : Word) : Word := fdiv32 (fsub32 p (r.o.get i)) (r.d.get i)
/-- The slab interval of a box (R172). -/
def Ray.slab (r : Ray) (b : Box) : Word × Word :=
  let near (i : Nat) : Word := fmin32 (r.plane i (b.lo.get i)) (r.plane i (b.hi.get i))
  let far (i : Nat) : Word := fmax32 (r.plane i (b.lo.get i)) (r.plane i (b.hi.get i))
  (fmax32 (fmax32 (near 0) (near 1)) (near 2), fmin32 (fmin32 (far 0) (far 1)) (far 2))
/-- Whether a slab interval misses [t0, t1]. -/
def Ray.misses (r : Ray) (s : Word × Word) : Bool := !(fle32 s.1 s.2 && fle32 r.t0 s.2 && fle32 s.1 r.t1)
/-- The point at t. -/
def Ray.at_ (r : Ray) (t : Word) : V3 := V3.axpy t r.d r.o

/-! ## Node formats (R170) -/

/-- Bytes of a node. -/
def fmtNodeSize (f : List Byte) : Nat := 32 * 2 ^ byteAt f 0
/-- Children of a node. -/
def fmtChildren (f : List Byte) : Nat := byteAt f 1
/-- Bounds kind. -/
def fmtBounds (f : List Byte) : Nat := byteAt f 2
/-- Pointer kind. -/
def fmtPointer (f : List Byte) : Nat := byteAt f 3
/-- Leaf kind. -/
def fmtLeaf (f : List Byte) : Nat := byteAt f 0x0A
/-- Point offset. -/
def fmtPoint (f : List Byte) : Nat := fieldAt f 0x0C 2
/-- Bytes of the bounds. -/
def fmtBoundsSize (f : List Byte) : Nat := if fmtBounds f = 0 then 24 * fmtChildren f else 16 + 6 * fmtChildren f
/-- Bytes of the pointers. -/
def fmtPointerSize (f : List Byte) : Nat :=
  if fmtPointer f = 0 then 8 * fmtChildren f else if fmtPointer f = 1 then 4 * fmtChildren f else 4
/-- Bytes of a leaf record that addressing uses (R171). -/
def fmtLeafSize (f : List Byte) : Nat :=
  match fmtLeaf f with
  | 0 => 48
  | 1 => 48
  | 2 => 80
  | _ => 2 ^ byteAt f 0x0B

/-- Whether two regions (offset, size) have no byte in common. -/
def apart (a b : Nat × Nat) : Bool := a.1 + a.2 ≤ b.1 || b.1 + b.2 ≤ a.1

/-- Whether a node format descriptor is valid (R170) (DEDUCED, log 36). -/
def fmtOk (f : List Byte) : Bool :=
  let bounds := (fieldAt f 4 2, fmtBoundsSize f)
  let ptr := (fieldAt f 6 2, fmtPointerSize f)
  let mark := (fieldAt f 8 2, 2)
  let fits (r : Nat × Nat) : Bool := r.1 + r.2 ≤ fmtNodeSize f
  let userSize := fmtLeaf f = 3 && fmtPointer f ≠ 0
  byteAt f 0 ≤ 2 && [2, 4, 8].contains (fmtChildren f) && fmtBounds f ≤ 1 && fmtPointer f ≤ 2 && fmtLeaf f ≤ 3
    && (if userSize then 4 ≤ byteAt f 0x0B && byteAt f 0x0B ≤ 12 else byteAt f 0x0B = 0)
    && (fmtPoint f = 0xFFFF || fits (fmtPoint f, 12)) && zeroAt f 0x0E 2
    && fits bounds && fits ptr && fits mark && apart bounds ptr && apart bounds mark && apart ptr mark

/-- A quantised bound: origin + q · 2^e, rounded toward −∞ (mode 3) or +∞ (mode 2). -/
def quantBound (mode : Nat) (origin : Word) (q : Nat) (e : Int) : Word :=
  BitVec.ofNat 32 (fp32.round mode ((val32 origin).add (.fin false q e)))

/-- The box of child c of a node. -/
def childBox (f node : List Byte) (c : Nat) : Box :=
  let off := fieldAt f 4 2
  if fmtBounds f = 0 then ⟨vecAt node (off + 24 * c), vecAt node (off + 24 * c + 12)⟩
  else
    let at_ (mode side i : Nat) : Word :=
      quantBound mode (wordAt node (off + 4 * i)) (byteAt node (off + 16 + 6 * c + 3 * side + i)) (sbyteAt node (off + 12 + i))
    ⟨⟨at_ 3 0 0, at_ 3 0 1, at_ 3 0 2⟩, ⟨at_ 2 1 0, at_ 2 1 1, at_ 2 1 2⟩⟩

/-- Whether child c is a leaf. -/
def childLeaf (f node : List Byte) (c : Nat) : Bool := (byteAt node (fieldAt f 8 2)).testBit c
/-- Whether child c exists. -/
def childPresent (f node : List Byte) (c : Nat) : Bool := (byteAt node (fieldAt f 8 2 + 1)).testBit c
/-- The address of child c. -/
def childAddr (f node : List Byte) (c : Nat) : Nat :=
  let off := fieldAt f 6 2
  if fmtPointer f = 0 then fieldAt node (off + 8 * c) 8
  else
    let i := if fmtPointer f = 1 then fieldAt node (off + 4 * c) 4 else fieldAt node off 4 + c
    if childLeaf f node c then (fieldAt f 0x18 8 + i * fmtLeafSize f) % 2 ^ 64
    else (fieldAt f 0x10 8 + i * fmtNodeSize f) % 2 ^ 64
/-- The children that exist, in index order. -/
def children (f node : List Byte) : List Nat := (List.range (fmtChildren f)).filter (childPresent f node)

/-! ## Leaf tests -/

/-- What a leaf test reports: t, u, v. -/
structure Hit where
  t : Word
  u : Word
  v : Word
  deriving DecidableEq, Repr, Inhabited

/-- The triangle test (R173). -/
def hitTriangle (r : Ray) (leaf : List Byte) : Option Hit :=
  let v0 := vecAt leaf 0
  let e1 := (vecAt leaf 12).sub v0
  let e2 := (vecAt leaf 24).sub v0
  let h := r.d.cross e2
  let det := e1.dot h
  let s := r.o.sub v0
  let u := s.dot h
  let q := s.cross e1
  let v := r.d.dot q
  let t := fdiv32 (e2.dot q) det
  let sameSign (x : Word) : Bool := if flt32 0 det then fle32 0 x else fle32 x 0
  if (flt32 det 0 || flt32 0 det) && sameSign u && sameSign v && fle32 (fabs32 (fadd32 u v)) (fabs32 det)
      && fle32 r.t0 t && fle32 t r.t1 then some ⟨t, fdiv32 u det, fdiv32 v det⟩
  else none

/-- A number between a and b at u. -/
def lerp (u a b : Word) : Word := fma32 u (fsub32 b a) a
/-- A point between a and b at u. -/
def lerp3 (u : Word) (a b : V3) : V3 := V3.axpy u (b.sub a) a

/-- A round leaf: control points with radii, and for a capsule the round ends. -/
structure Round where
  pts : List V3
  rads : List Word
  ends : Option (Bool × Bool)
  deriving DecidableEq, Repr, Inhabited

/-- Point i. -/
def Round.p (c : Round) (i : Nat) : V3 := c.pts.getD i default
/-- Radius i. -/
def Round.r (c : Round) (i : Nat) : Word := c.rads.getD i 0

/-- A capsule's record (R171). -/
def capsuleOf (b : List Byte) : Round :=
  ⟨[vecAt b 0, vecAt b 16], [wordAt b 12, wordAt b 28], some ((byteAt b 32).testBit 0, (byteAt b 32).testBit 1)⟩
/-- A curve's record. -/
def curveOf (b : List Byte) : Round :=
  ⟨(List.range 4).map fun i => vecAt b (16 * i), (List.range 4).map fun i => wordAt b (16 * i + 12), none⟩

/-- A cubic Bézier of numbers at u. -/
def bezier (u a b c d : Word) : Word :=
  let ab := lerp u a b
  let bc := lerp u b c
  lerp u (lerp u ab bc) (lerp u bc (lerp u c d))
/-- A quadratic Bézier of numbers at u. -/
def bezier2 (u a b c : Word) : Word := lerp u (lerp u a b) (lerp u b c)
/-- A Bézier of points by components. -/
def onAxes (f : (V3 → Word) → Word) : V3 := ⟨f (·.x), f (·.y), f (·.z)⟩

/-- c(u). -/
def Round.centre (c : Round) (u : Word) : V3 :=
  if c.ends.isSome then lerp3 u (c.p 0) (c.p 1)
  else onAxes fun g => bezier u (g (c.p 0)) (g (c.p 1)) (g (c.p 2)) (g (c.p 3))
/-- ρ(u). -/
def Round.radius (c : Round) (u : Word) : Word :=
  if c.ends.isSome then lerp u (c.r 0) (c.r 1) else bezier u (c.r 0) (c.r 1) (c.r 2) (c.r 3)
/-- c′(u) of a curve. -/
def Round.vel (c : Round) (u : Word) : V3 :=
  let d (i : Nat) : V3 := V3.scale (fNat 3) ((c.p (i + 1)).sub (c.p i))
  onAxes fun g => bezier2 u (g (d 0)) (g (d 1)) (g (d 2))
/-- c″(u) of a curve. -/
def Round.acc (c : Round) (u : Word) : V3 :=
  let d (i : Nat) : V3 := (c.p (i + 1)).sub (c.p i)
  let dd (i : Nat) : V3 := V3.scale (fNat 6) ((d (i + 1)).sub (d i))
  lerp3 u (dd 0) (dd 1)

/-- |p − c(u)| − ρ(u). -/
def Round.gap (c : Round) (p : V3) (u : Word) : Word := fsub32 (p.sub (c.centre u)).len (c.radius u)

/-- Newton steps on (c(u) − p) · c′(u) (R174). -/
def Round.newton (c : Round) (p : V3) : Nat → Word → Word
  | 0, u => u
  | n + 1, u =>
    let w := (c.centre u).sub p
    let v := c.vel u
    let slope := fadd32 (v.dot v) (w.dot (c.acc u))
    if flt32 0 slope then c.newton p n (clamp01 (fsub32 u (fdiv32 (w.dot v) slope))) else u

/-- u* of a point, and whether the point is outside by a flat end (R174). -/
def Round.nearest (c : Round) (p : V3) : Word × Bool :=
  match c.ends with
  | some (e0, e1) =>
    let a := (c.p 1).sub (c.p 0)
    let u := fdiv32 ((p.sub (c.p 0)).dot a) (a.dot a)
    (clamp01 u, (flt32 u 0 && !e0) || (flt32 fOne u && !e1))
  | none =>
    let at_ (i : Nat) : Word := fdiv32 (fNat i) (fNat 8)
    let best := (List.range 8).foldl (fun b i => if flt32 (c.gap p (at_ (i + 1))) (c.gap p (at_ b)) then i + 1 else b) 0
    (c.newton p 3 (at_ best), false)

/-- ρmax. -/
def Round.rmax (c : Round) : Word := c.rads.foldl fmax32 (c.r 0)
/-- σ. -/
def Round.sigma (c : Round) : Word :=
  match c.ends with
  | some _ => fdiv32 (fabs32 (fsub32 (c.r 1) (c.r 0))) ((c.p 1).sub (c.p 0)).len
  | none =>
    let d (i : Nat) : Word := fabs32 (fsub32 (c.r (i + 1)) (c.r i))
    fdiv32 (fmul32 (fNat 3) (fmax32 (fmax32 (d 0) (d 1)) (d 2))) ((c.centre fOne).sub (c.centre 0)).len
/-- The box of the control points, widened. -/
def Round.box (c : Round) : Box :=
  let k := c.rmax
  let lo (g : V3 → Word) : Word := fsub32 ((c.pts.map g).foldl fmin32 (g (c.p 0))) k
  let hi (g : V3 → Word) : Word := fadd32 ((c.pts.map g).foldl fmax32 (g (c.p 0))) k
  ⟨⟨lo (·.x), lo (·.y), lo (·.z)⟩, ⟨hi (·.x), hi (·.y), hi (·.z)⟩⟩

/-- The march along the ray (R174). -/
def Round.march (c : Round) (r : Ray) (exit : Word) : Nat → Word → Option Hit
  | 0, _ => none
  | n + 1, t =>
    if flt32 exit t || flt32 r.t1 t then none
    else
      let p := r.at_ t
      let (u, outside) := c.nearest p
      let g := c.gap p u
      if !outside && fle32 g (fmul32 (toF32 (.fin false 1 (-12))) c.rmax) then some ⟨t, u, 0⟩
      else c.march r exit n (fadd32 t (fdiv32 g (fadd32 fOne c.sigma)))

/-- The test of a capsule or a curve. -/
def hitRound (r : Ray) (c : Round) : Option Hit :=
  let s := r.slab c.box
  if r.misses s then none else c.march r s.2 48 (fmax32 s.1 r.t0)

/-- The identifier of a leaf record. -/
def leafIdent (kind : Nat) (leaf : List Byte) : Word := wordAt leaf (if kind = 0 then 36 else if kind = 1 then 36 else 64)

/-- The test of a leaf of kind 0, 1 or 2. -/
def hitLeaf (r : Ray) (kind : Nat) (leaf : List Byte) : Option Hit :=
  match kind with
  | 0 => hitTriangle r leaf
  | 1 => hitRound r (capsuleOf leaf)
  | _ => hitRound r (curveOf leaf)

/-! ## Walk tests (R177) -/

/-- The longest side of a box. -/
def Box.extent (b : Box) : Word :=
  let d := b.hi.sub b.lo
  fmax32 (fmax32 d.x d.y) d.z
/-- The centre of a box. -/
def Box.centre (b : Box) : V3 := V3.scale fHalf (b.lo.add b.hi)
/-- The squared distance from a point to a box. -/
def Box.dist2 (b : Box) (q : V3) : Word :=
  let d (g : V3 → Word) : Word := fmax32 (fmax32 (fsub32 (g b.lo) (g q)) (fsub32 (g q) (g b.hi))) 0
  let v : V3 := ⟨d (·.x), d (·.y), d (·.z)⟩
  v.dot v

/-! ## Lattice marches (R178) -/

/-- A lattice: cells along each axis, and the cell size. -/
structure Lattice where
  n : Nat × Nat × Nat
  size : Word
  deriving DecidableEq, Repr, Inhabited

/-- A component of a triple. -/
def axis (c : Nat × Nat × Nat) (i : Nat) : Nat := if i = 0 then c.1 else if i = 1 then c.2.1 else c.2.2
/-- A plane of the lattice. -/
def Lattice.plane (l : Lattice) (k : Nat) : Word := fmul32 (fNat k) l.size
/-- The lattice's box. -/
def Lattice.box (l : Lattice) : Box := ⟨⟨0, 0, 0⟩, ⟨l.plane l.n.1, l.plane l.n.2.1, l.plane l.n.2.2⟩⟩
/-- The cell coordinate of a point on an axis: on a boundary, the cell that the ray goes into. -/
def Lattice.cellOn (l : Lattice) (r : Ray) (p : V3) (i : Nat) : Nat :=
  match val32 (fdiv32 (p.get i) l.size) with
  | .fin n m e =>
    let k := if flt32 (r.d.get i) 0 then roundToInt 2 n m e - 1 else roundToInt 3 n m e
    min (axis l.n i - 1) k.toNat
  | _ => 0
/-- The cell at a t. -/
def Lattice.cellAt (l : Lattice) (r : Ray) (t : Word) : Nat × Nat × Nat :=
  let p := r.at_ t
  (l.cellOn r p 0, l.cellOn r p 1, l.cellOn r p 2)
/-- The t of the next crossing of an axis; none for a ray along it. -/
def Lattice.crossing (l : Lattice) (r : Ray) (c : Nat × Nat × Nat) (i : Nat) : Option Word :=
  if flt32 0 (r.d.get i) then some (r.plane i (l.plane (axis c i + 1)))
  else if flt32 (r.d.get i) 0 then some (r.plane i (l.plane (axis c i)))
  else none
/-- The least crossing of a cell. -/
def Lattice.exit (l : Lattice) (r : Ray) (c : Nat × Nat × Nat) : Option Word :=
  ((List.range 3).filterMap (l.crossing r c)).foldl (fun o w => match o with
    | none => some w
    | some x => some (fmin32 x w)) none
/-- The next coordinate of an axis at a crossing; none outside the lattice. -/
def Lattice.stepOn (l : Lattice) (r : Ray) (c : Nat × Nat × Nat) (t : Word) (i : Nat) : Option Nat :=
  match l.crossing r c i with
  | some w =>
    if fle32 w t then
      if flt32 (r.d.get i) 0 then (if axis c i = 0 then none else some (axis c i - 1))
      else if axis c i + 1 < axis l.n i then some (axis c i + 1) else none
    else some (axis c i)
  | none => some (axis c i)
/-- The cell behind a crossing: every axis that reaches its boundary there steps. -/
def Lattice.next (l : Lattice) (r : Ray) (c : Nat × Nat × Nat) (t : Word) : Option (Nat × Nat × Nat) :=
  match l.stepOn r c t 0, l.stepOn r c t 1, l.stepOn r c t 2 with
  | some x, some y, some z => some (x, y, z)
  | _, _, _ => none
/-- The linear index of a cell. -/
def Lattice.index (l : Lattice) (c : Nat × Nat × Nat) : Word :=
  BitVec.ofNat 32 ((c.2.2 * l.n.2.1 + c.2.1) * l.n.1 + c.1)

end Sys2Proof.Machine
end

