-- ==== Sys2Proof/Machine/SamplerIsland.lean ====
section
/-!
DEFINITION. The latent-texture sampler (R179 to R184, R293, R294, R392): bindings, the weight cache, the decoding of
texels, and filtering.
-/
namespace Sys2Proof.Machine

/-! ## Textures (R179, R180) -/

/-- A side at a level. -/
def levelSide (n l : Nat) : Nat := (max 4 (n / 2 ^ l) + 3) / 4 * 4
/-- W_l. -/
def texW (d : List Byte) (l : Nat) : Nat := levelSide (fieldAt d 8 2) l
/-- H_l. -/
def texH (d : List Byte) (l : Nat) : Nat := levelSide (fieldAt d 10 2) l
/-- Blocks before a level. -/
def blocksBefore (d : List Byte) (l : Nat) : Nat :=
  (List.range l).foldl (fun n k => n + texW d k / 4 * (texH d k / 4)) 0
/-- The address of the block of a texel at a level. -/
def texBlock (d : List Byte) (l x y : Nat) : Nat :=
  fieldAt d 0 8 + 64 * (blocksBefore d l + y / 4 * (texW d l / 4) + x / 4)
/-- A texel coordinate by an address mode: 0 repeat, 1 clamp, 2 mirror. -/
def texAddr (mode n : Nat) (i : Int) : Nat :=
  match mode with
  | 0 => (i % (n : Int)).toNat
  | 1 => (clampInt 0 (n - 1 : Int) i).toNat
  | _ =>
    let k := (i % (2 * n : Int)).toNat
    if k < n then k else 2 * n - 1 - k

/-! ## Decoding a texel (R179, R181, R182) -/

/-- A T8 byte. -/
def t8At (b : List Byte) (off : Nat) : Num := fmtDecode 0x21 (byteAt b off)
/-- A weight of the table: its T8 byte times the scale of its layer. -/
def weightAt (w : List Byte) (layer off : Nat) : Word := toF32 ((t8At w off).scale ((byteAt w (1240 + layer) : Int) - 127))
/-- relu. -/
def relu (h : Word) : Word :=
  if (val32 h).isNan then BitVec.ofNat 32 fp32.canon else if fle32 h 0 then 0 else h
/-- One output of a layer: bias, then products in order. -/
def neuron (w : List Byte) (bias : Word) (layer off : Nat) (xs : List Word) : Word :=
  xs.zipIdx.foldl (fun h x => fma32 (weightAt w layer (off + x.2)) x.1 h) bias

/-- The inputs of a texel of a block; a NaN block's latents are all NaN (R104, R106, R179). -/
def texInputs (block : List Byte) (x y : Nat) : List Word :=
  let q := 2 * (y / 2) + x / 2
  let p := 2 * (y % 2) + x % 2
  ((List.range 15).map fun i =>
      if byteAt block 1 = 0xFF then BitVec.ofNat 32 fp32.canon
      else toF32 ((t8At block (2 + 15 * q + i)).scale ((byteAt block 1 : Int) - 127)))
    ++ (List.range 4).map fun i => if i = p then fOne else 0
/-- The channels of texel (x, y) of a block, as FP16. -/
def texel (w : List Byte) (channels : Nat) (block : List Byte) (x y : Nat) : List Nat :=
  if (byteAt block 62).testBit 0 then List.replicate channels 0
  else
    let x0 := texInputs block x y
    let h1 := (List.range 32).map fun j => relu (neuron w (weightAt w 1 (608 + j)) 0 (19 * j) x0)
    let h2 := (List.range 16).map fun j => relu (neuron w (weightAt w 3 (1152 + j)) 2 (640 + 32 * j) h1)
    (List.range channels).map fun c => fp16.round 0 (val32 (neuron w (weightAt w 5 (1232 + c)) 4 (1168 + 16 * c) h2))

/-! ## Filtering (R183) -/

/-- A block that a sample reads; another format is 0x48. -/
def State.readTexBlock (s : State) (core a : Nat) : Except (Nat × Nat) (List Byte) :=
  match s.engRead core a 64 with
  | .error e => .error e
  | .ok b => if byteAt b 0 = 0x41 then .ok b else .error (0x48, a)

/-- A texel by coordinates before the address mode, as FP32 channels. -/
def State.readTexel (s : State) (core : Nat) (d w : List Byte) (l : Nat) (x y : Int) : Except (Nat × Nat) (List Word) :=
  let i := texAddr (byteAt d 13 % 4) (texW d l) x
  let j := texAddr (byteAt d 13 / 4) (texH d l) y
  match s.readTexBlock core (texBlock d l i j) with
  | .error e => .error e
  | .ok b => .ok ((texel w (byteAt d 14) b (i % 4) (j % 4)).map fun c => toF32 (fp16.decode c))

/-- The floor of a finite value. -/
def floorOf (w : Word) : Int :=
  match val32 w with
  | .fin n m e => roundToInt 3 n m e
  | _ => 0
/-- A finite value to the nearest whole number. -/
def nearestOf (w : Word) : Nat :=
  match val32 w with
  | .fin n m e => (roundToInt 0 n m e).toNat
  | _ => 0
/-- round_even(frac(x) · 256) / 256. -/
def frac256 (w : Word) : Word :=
  match (val32 w).add (Num.ofInt (-(floorOf w))) with
  | .fin n m e => toF32 (.fin false (roundToInt 0 n m (e + 8)).toNat (-8))
  | _ => 0

/-- Point filtering at a level. -/
def State.pointAt (s : State) (core : Nat) (d w : List Byte) (u v : Word) (l : Nat) : Except (Nat × Nat) (List Word) :=
  s.readTexel core d w l (floorOf (fmul32 u (fNat (texW d l)))) (floorOf (fmul32 v (fNat (texH d l))))

/-- Bilinear filtering at a level. -/
def State.bilinearAt (s : State) (core : Nat) (d w : List Byte) (u v : Word) (l : Nat) : Except (Nat × Nat) (List Word) :=
  let a := fsub32 (fmul32 u (fNat (texW d l))) fHalf
  let b := fsub32 (fmul32 v (fNat (texH d l))) fHalf
  let i := floorOf a
  let j := floorOf b
  let fx := frac256 a
  let fy := frac256 b
  let gx := fsub32 fOne fx
  let gy := fsub32 fOne fy
  match s.readTexel core d w l i j, s.readTexel core d w l (i + 1) j, s.readTexel core d w l i (j + 1),
      s.readTexel core d w l (i + 1) (j + 1) with
  | .ok t00, .ok t10, .ok t01, .ok t11 =>
    .ok ((List.range (byteAt d 14)).map fun c =>
      let t (l : List Word) : Word := l.getD c 0
      fma32 (fmul32 fx fy) (t t11) (fma32 (fmul32 gx fy) (t t01) (fma32 (fmul32 fx gy) (t t10) (fmul32 (fmul32 gx gy) (t t00)))))
  | .error e, _, _, _ => .error e
  | _, .error e, _, _ => .error e
  | _, _, .error e, _ => .error e
  | _, _, _, .error e => .error e

/-- λ: lod plus the bias of the level-0 block of the texel, clamped to the levels. -/
def State.sampleLod (s : State) (core : Nat) (d : List Byte) (u v lod : Word) : Except (Nat × Nat) Word :=
  let i := texAddr (byteAt d 13 % 4) (texW d 0) (floorOf (fmul32 u (fNat (fieldAt d 8 2))))
  let j := texAddr (byteAt d 13 / 4) (texH d 0) (floorOf (fmul32 v (fNat (fieldAt d 10 2))))
  match s.readTexBlock core (texBlock d 0 i j) with
  | .error e => .error e
  | .ok b =>
    let bias := toF32 ((Num.ofInt (sbyteAt b 63)).scale (-4))
    .ok (fmin32 (fmax32 (fadd32 lod bias) 0) (fNat (byteAt d 12 - 1)))

/-- The FP32 channels of a sample by its filter. -/
def State.filtered (s : State) (core filter : Nat) (d w : List Byte) (u v lod : Word) : Except (Nat × Nat) (List Word) :=
  match s.sampleLod core d u v lod with
  | .error e => .error e
  | .ok lam =>
    match filter with
    | 0 => s.pointAt core d w u v (nearestOf lam)
    | 1 => s.bilinearAt core d w u v (nearestOf lam)
    | _ =>
      let l0 := (floorOf lam).toNat
      let fl := frac256 lam
      match s.bilinearAt core d w u v l0, s.bilinearAt core d w u v (min (l0 + 1) (byteAt d 12 - 1)) with
      | .error e, _ => .error e
      | _, .error e => .error e
      | .ok x, .ok y => .ok ((x.zip y).map fun p => fma32 fl p.2 (fmul32 (fsub32 fOne fl) p.1))

/-- The words of a `smp.tex` result from the FP16 channels (R294). -/
def texResult (cs : List Nat) : List Word :=
  (List.range ((cs.length + 1) / 2)).map fun m => joinLanes (cs.getD (2 * m) 0) (cs.getD (2 * m + 1) 0)

/-- The words that a sample returns (R183, R294). -/
def State.sampleWords (s : State) (x : Sample) (w : List Byte) : Except (Nat × Nat) (List Word) :=
  let core := elemCore x.cmd.elem
  let d := x.slot.desc
  let channels := byteAt d 14
  if x.dec then
    match s.readTexBlock core (baseOf x.cmd.ops) with
    | .error e => .error e
    | .ok b =>
      .ok ((List.range 16).flatMap fun t => (texel w channels b (t % 4) (t / 4)).map fun c => toF32 (fp16.decode c))
  else
    let op (i : Nat) : Word := x.cmd.ops.getD i 0
    let bad (v : Word) : Bool := !(val32 v).finite
    if bad (op 0) || bad (op 1) || bad (op 2) then .ok (texResult (List.replicate channels fp16.canon))
    else
      match s.filtered core x.slot.filter.toNat d w (op 0) (op 1) (op 2) with
      | .error e => .error e
      | .ok cs => .ok (texResult (cs.map fun c => fp16.round 0 (val32 c)))

/-! ## The weight cache (R184, R293, R392) -/

/-- Changes the sampler of a cluster. -/
def State.updSampler (s : State) (cl : Nat) (f : Sampler → Sampler) : State :=
  s.updCluster cl fun c => { c with sampler := f c.sampler }
/-- Whether a binding names an entry. -/
def SamplerSlot.names (b : SamplerSlot) (e : WeightEntry) : Bool := b.bound && b.table = e.table && b.version = e.version
/-- Whether an entry is in use: a slot is bound to it, or a sample that uses it is in flight. -/
def Sampler.inUse (p : Sampler) (e : WeightEntry) : Bool :=
  p.slots.toList.any (·.names e) || p.flight.any fun x => x.slot.names e
/-- The entry that a binding names. -/
def Sampler.entry? (p : Sampler) (b : SamplerSlot) : Option WeightEntry := p.weights.find? b.names
/-- The entry that a `wt.ld` makes, once read. -/
def loadEntry (c : Cmd) (bytes : List Byte) : WeightEntry :=
  ⟨BitVec.ofNat 6 (bitsOf c.word 4 6), BitVec.ofNat 16 (bitsOf c.ext 0 16), bytes, false⟩

/-- Drops the entries that a `wt.drop` names: those not in use go at once, the others once they are not. -/
def Sampler.drop (p : Sampler) (c : Cmd) : Sampler :=
  let named (e : WeightEntry) : Bool :=
    e.table.toNat = bitsOf c.word 4 6 && (!fieldW c.word || e.version.toNat = bitsOf c.ext 0 16)
  { p with weights := (p.weights.filter fun e => !(named e) || p.inUse e).map fun e =>
      if named e then { e with dropped := true } else e }

/-- Dropped entries that are not in use any more leave as the next happenings (R184), the last first. -/
def State.dropUnused (s : State) (cl : Nat) : State :=
  let p := (s.cluster cl).sampler
  let gone := (p.weights.zipIdx.filter fun e => e.1.dropped && !p.inUse e.1).map (·.2)
  { s with
    agenda := (gone.reverse.map fun i => (Instr.weightEntryRemove, { (default : Pick) with a := cl, b := i })) ++ s.agenda }

/-- The island takes a `smp.bind` (R293). -/
def State.takeBind (s : State) (cl core : Nat) (c : Cmd) : State :=
  match s.engRead core (baseOf c.ops) 32 with
  | .error (code, a) => s.cmdFault c code a
  | .ok d =>
    if textureOk d then
      let slot : SamplerSlot := {
        bound := true
        addr := baseOf c.ops
        desc := d
        table := BitVec.ofNat 6 (bitsOf c.ext 22 6)
        version := BitVec.ofNat 16 (bitsOf c.ext 6 16)
        filter := BitVec.ofNat 2 (bitsOf c.ext 4 2) }
      (s.updSampler cl fun p => { p with slots := p.slots.setIfInBounds (bitsOf c.word 4 4) slot }).dropUnused cl
    else s.cmdFault c 0x40 (baseOf c.ops)

/-- The destination of a sample that returns n words, made to fit them where its slot was bound anew after the rule
fired: missing slots are taken behind those that the rule took, a second register is set pending (R280, R294) (DESIGN
CHOICE, log 56). None where it waits for them. -/
def State.fitResult (s : State) (c : Cmd) (n : Nat) : Option (State × Dst) :=
  match c.dst with
  | .reg r =>
    if n < 2 then some (s, c.dst)
    else if (s.elem c.elem).isPending (r + 1) then none
    else some (s.updElem c.elem (·.setPend (r + 1) true), .pair r)
  | .pair r => if n < 2 then some (s.updElem c.elem (·.setPend (r + 1) false), .reg r) else some (s, c.dst)
  | .out ch hs =>
    let m := n - hs.length
    if ((s.elem c.elem).outCh ch).count < m then none
    else
      let (s, more) := s.reserveN c.elem (BitVec.ofNat 5 (bitsOf c.word 10 5)) m
      some (s, .out ch (hs ++ more))
  | .none => some (s, c.dst)

/-- The island takes a sample with its slot's binding (R184); two words do not fit an odd register (R294). None where it
waits. -/
def State.takeSample (s : State) (cl : Nat) (c : Cmd) (dec : Bool) : Option State :=
  let p := (s.cluster cl).sampler
  let b := p.slots.getD (bitsOf c.word 4 4) ⟨false, 0, [], 0, 0, 0⟩
  let n := if dec then 16 * byteAt b.desc 14 else (byteAt b.desc 14 + 1) / 2
  if (p.entry? b).isNone then some (s.cmdFault c 0x50 0)
  else if n = 2 && (match c.dst with | .reg r => r % 2 = 1 | _ => false) then some (s.cmdFault c 0x04 0)
  else
    match s.fitResult c n with
    | none => none
    | some (s, d) => some (s.updSampler cl fun p => { p with flight := p.flight ++ [⟨{ c with dst := d }, dec, b⟩] })

/-- `WEIGHT_LOAD_BIND` (R184, R293, R392): the waiting `wt.ld` of the cluster `a` reads its table, once the entry of its
pair is not in use and a place is free; the entry `b`, when it is not in use, makes place in a full cache. -/
def execWeightLoadBind (s : State) : Host.Outcome State Fault Refusal :=
  let s := s.storageError
  let cl := s.pick.a
  let p := (s.cluster cl).sampler
  match p.waiting with
  | [] => .next s
  | c :: rest =>
    let core := elemCore c.elem
    let new := loadEntry c []
    let same (e : WeightEntry) : Bool := e.table = new.table && e.version = new.version
    let kept := p.weights.filter fun e => !same e
    let kept := if kept.length < 16 then some kept
      else match kept[s.pick.b]? with
        | some e => if p.inUse e then none else some (kept.eraseIdx s.pick.b)
        | none => none
    if s.heldAt core || p.weights.any (fun e => same e && p.inUse e) then .next s
    else
      match kept with
      | none => .next s
      | some ws =>
        let t := s.updSampler cl fun p => { p with waiting := rest }
        match s.engRead core (baseOf c.ops) 2048 with
        | .error (code, a) => .next (t.cmdFault c (if code = 0x20 then 0x51 else code) a)
        | .ok bs =>
          .next ((t.updSampler cl fun p => { p with weights := ws ++ [loadEntry c bs] }).answerCmd c [0])

/-- `WEIGHT_ENTRY_REMOVE` (R184): the dropped entry `b` of the cluster `a` goes, once it is not in use. -/
def execWeightEntryRemove (s : State) : Host.Outcome State Fault Refusal :=
  .next (s.updSampler s.pick.a fun p =>
    match p.weights[s.pick.b]? with
    | some e => if e.dropped && !p.inUse e then { p with weights := p.weights.eraseIdx s.pick.b } else p
    | none => p)

/-- `WEIGHT_ENTRY_POISON` (R392): the entry `b` of the cluster `a` suffers an uncorrectable error, which is counted
(R383), and goes at once. -/
def execWeightEntryPoison (s : State) : Host.Outcome State Fault Refusal :=
  let cl := s.pick.a
  if (s.cluster cl).sampler.weights.length ≤ s.pick.b then .next s
  else .next ((s.countPreg 0x231).updSampler cl fun p => { p with weights := p.weights.eraseIdx s.pick.b })

/-- `SAMPLE_COMPLETE` (R183, R294): the sampler of the cluster `a` completes the sample `b` in flight, when no earlier
one of the same `e0` is in flight. One whose entry has gone raises 0x51 (R392). -/
def execSampleComplete (s : State) : Host.Outcome State Fault Refusal :=
  let s := s.storageError
  let cl := s.pick.a
  let p := (s.cluster cl).sampler
  match p.flight[s.pick.b]? with
  | none => .next s
  | some x =>
    if (p.flight.take s.pick.b).any (·.cmd.elem = x.cmd.elem) then .next s
    else
      let t := (s.updSampler cl fun p => { p with flight := p.flight.eraseIdx s.pick.b }).dropUnused cl
      match p.entry? x.slot with
      | none => .next (t.cmdFault x.cmd 0x51 0)
      | some e =>
        match s.sampleWords x e.bytes with
        | .error (code, a) => .next (t.cmdFault x.cmd code a)
        | .ok ws =>
          let c := x.cmd
          let tag (i : Nat) : Option Tag := if x.dec && i + 1 = ws.length then some 3 else none
          .next (t.deliver c.elem c.group c.dst tag ws)

end Sys2Proof.Machine
end

