-- ==== Sys2Proof/Machine/TraversalIsland.lean ====
section
/-!
DEFINITION. The traversal island (R170 to R178, R296, R297, R393): format slots, request blocks, node visits of rays and
walks, replies, march cells, ends of requests, and poisoned node lines.
-/
namespace Sys2Proof.Machine

/-! ## Request blocks (R296) -/

/-- Whether a request block's fields are in range; kinds 1 ray, 2 walk, 3 march. -/
def trBlockOk (kind : Nat) (b : List Byte) : Bool :=
  byteAt b 0x30 ≤ 3 && byteAt b 0x31 ≤ 3 && zeroAt b 0x32 14
    && match kind with
      | 1 => fieldAt b 0x28 8 % 32 = 0
      | 2 => byteAt b 0x10 ≤ 2 && (byteAt b 0x10 ≠ 2 || zeroAt b 0x0C 4) && zeroAt b 0x11 15 && zeroAt b 0x28 8
      | _ =>
        [0x20, 0x22, 0x24].all (fun off => fieldAt b off 2 ≥ 1) && 1 ≤ byteAt b 0x26 && byteAt b 0x26 ≤ 8
          && zeroAt b 0x27 1 && flt32 0 (wordAt b 0x28) && zeroAt b 0x2C 4

/-- The ray of a request, with its t1 as lowered so far. -/
def TrReq.ray (r : TrReq) : Ray := ⟨vecAt r.block 0, vecAt r.block 0x10, wordAt r.block 0x0C, r.t1⟩
/-- The queue of its words. -/
def TrReq.outQ (r : TrReq) : Nat := byteAt r.block 0x30
/-- The queue of its replies. -/
def TrReq.inQ (r : TrReq) : Nat := byteAt r.block 0x31
/-- The result address of a ray. -/
def TrReq.resultAt (r : TrReq) : Nat := fieldAt r.block 0x28 8
/-- The lattice of a march. -/
def TrReq.lattice (r : TrReq) : Lattice :=
  ⟨(fieldAt r.block 0x20 2, fieldAt r.block 0x22 2, fieldAt r.block 0x24 2), wordAt r.block 0x28⟩
/-- Cells that a march keeps ahead. -/
def TrReq.window (r : TrReq) : Nat := byteAt r.block 0x26
/-- The ticket as a word. -/
def TrReq.ticketWord (r : TrReq) : Word := BitVec.ofNat 32 r.ticket

/-- A request at its start. -/
def TrReq.start (ticket kind : Nat) (c : Cmd) (b f : List Byte) : TrReq :=
  let r : TrReq := { (default : TrReq) with
    ticket := ticket
    kind := kind
    cmd := c
    block := b
    fmt := f
    t1 := wordAt b 0x1C }
  if kind = 3 then
    let s := r.ray.slab r.lattice.box
    let t := fmax32 s.1 (wordAt b 0x0C)
    { r with moving := !r.ray.misses s, tIn := t, cell := r.lattice.cellAt r.ray t }
  else { r with stack := [(fieldAt b 0x20 8, if kind = 1 then wordAt b 0x0C else 0, 0, false)] }

/-! ## The island's requests -/

/-- The request of a ticket. -/
def State.ray? (s : State) (cl ticket : Nat) : Option TrReq := (s.cluster cl).rays.find? (·.ticket == ticket)
/-- Changes the request of a ticket. -/
def State.updRay (s : State) (cl ticket : Nat) (f : TrReq → TrReq) : State :=
  s.updCluster cl fun c => { c with rays := updateIf (·.ticket == ticket) f c.rays }
/-- A ticket is freed. -/
def State.freeRay (s : State) (cl ticket : Nat) : State :=
  s.updCluster cl fun c => { c with rays := c.rays.filter (·.ticket != ticket) }

/-- The island loads a node format (R170, R297); every poisoned line leaves the node cache (R393). -/
def State.takeFmt (s : State) (cl core : Nat) (c : Cmd) : State :=
  match s.engRead core (baseOf c.ops) 32 with
  | .error (code, a) => s.cmdFault c code a
  | .ok f =>
    let s := s.updCluster cl fun k => { k with nodePoison := [] }
    if fmtOk f then s.updCluster cl fun k => { k with fmts := k.fmts.setIfInBounds (bitsOf c.word 4 3) (some f) }
    else s.cmdFault c 0x60 (baseOf c.ops)

/-- Whether another walk or march uses a token queue (R297). -/
def State.queueBusy (s : State) (cl q : Nat) (c : Cmd) : Bool :=
  (s.cluster cl).rays.any fun r => r.kind ≠ 1 && r.outQ = q && r.cmd.group ≠ c.group

/-- The island takes a ray, walk or march (R296, R297): a free ticket goes to the destination. A replay keeps the ticket
that it has. None where the request waits. -/
def State.takeTraversal (s : State) (cl core kind ticket : Nat) (c : Cmd) : Option State :=
  match blockAddr (baseOf c.ops), s.engRead core (baseOf c.ops) 64 with
  | some f, _ => some (s.cmdFault c f.1 f.2)
  | none, .error (code, a) => some (s.cmdFault c code a)
  | none, .ok b =>
    if !trBlockOk kind b then some (s.cmdFault c 0x40 (baseOf c.ops))
    else
      let slot := (s.cluster cl).fmts.getD (bitsOf c.word 4 3) none
      if kind ≠ 3 && slot.isNone then some (s.cmdFault c 0x60 (baseOf c.ops))
      else if kind ≠ 1 && s.queueBusy cl (byteAt b 0x30) c then none
      else
        match (s.cluster cl).rays.find? (·.cmd.group == c.group) with
        | some old => some (s.updRay cl old.ticket fun _ => TrReq.start old.ticket kind c b (slot.getD []))
        | none =>
          if ticket ≥ 1024 || (s.ray? cl ticket).isSome then none
          else
            let r := TrReq.start ticket kind c b (slot.getD [])
            some ((s.updCluster cl fun k => { k with rays := k.rays ++ [r] }).answerCmd c [r.ticketWord])

/-- The island takes a `tr.res` (R297). None where another waits for the same record. -/
def State.takeRes (s : State) (cl : Nat) (c : Cmd) : Option State :=
  match s.ray? cl (c.ops.getD 0 0).toNat with
  | some r =>
    if r.kind ≠ 1 || r.resultAt ≠ 0 then some (s.cmdFault c 0x40 0)
    else if r.res.isSome then none
    else some (s.updRay cl r.ticket fun r => { r with res := some c })
  | none => some (s.cmdFault c 0x40 0)

/-! ## Ends of requests (R176 to R178, R281, R393) -/

/-- A walk or march ends with one word of tag 3, and its ticket is freed. -/
def State.endTokens (s : State) (cl : Nat) (r : TrReq) (w : Word) : State :=
  (s.emitEdge cl 4 r.outQ [(w, 3)]).freeRay cl r.ticket
/-- A request ends with a status of R176. -/
def State.endRequest (s : State) (cl : Nat) (r : TrReq) (status : Nat) : State :=
  if r.kind = 1 then s.updRay cl r.ticket fun r => { r with state := .ended, status := status, stack := [] }
  else s.endTokens cl r (BitVec.ofNat 32 status)
/-- A late fault of a request: it waits for its replay, which runs it from its root. -/
def State.rayFault (s : State) (cl : Nat) (r : TrReq) (code addr : Nat) : State :=
  (s.updRay cl r.ticket fun r => { r with state := .stalled }).cmdFault { r.cmd with dst := .none } code addr

/-- What reading a node or leaf gives: its bytes, a fault, or a poisoned line (R393). -/
inductive NodeRead where
  | bytes (bs : List Byte)
  | fault (code addr : Nat)
  | poisoned (sectors : List Nat) (addr : Nat)
  deriving DecidableEq, Repr

/-- The firing steps of its cluster after which a poisoned line has left the node cache (R393). -/
def nodePoisonSteps : Nat := 2 ^ 16
/-- Whether a line stands poisoned in the node cache of a cluster. -/
def State.nodePoisoned (s : State) (cl sec : Nat) : Bool :=
  match (s.cluster cl).nodePoison.find sec with
  | some since => decide (s.clusterSteps cl < since + nodePoisonSteps)
  | none => false

/-- A read of a node or a leaf record through the node cache. -/
def State.nodeRead (s : State) (core va n : Nat) : NodeRead :=
  match s.readPieces core va n with
  | .error (code, a) => .fault code a
  | .ok ps =>
    let sectors := ps.flatMap fun p => touchedSectors p.key p.len
    if sectors.any (s.nodePoisoned (coreCluster core)) then .poisoned [] va
    else
      match s.engRead core va n with
      | .ok bs => .bytes bs
      | .error (code, a) =>
        if code = 0x20 then
          .poisoned (ps.flatMap fun p => (touchedSectors p.key p.len).filter fun sec =>
            (s.placePoison (coreCluster core) (sec * 64) p.policy 64).isSome) a
        else .fault code a

/-- A request meets a poisoned line: a ray ends with status 3, a walk raises 0x61 after its last word (R393). -/
def State.rayPoison (s : State) (cl : Nat) (r : TrReq) (sectors : List Nat) (addr : Nat) : State :=
  let now := s.clusterSteps cl
  let s := s.updCluster cl fun c => { c with nodePoison := sectors.foldl (fun m sec => m.put sec now) c.nodePoison }
  if r.kind = 1 then s.endRequest cl r 3
  else (s.emitEdge cl 4 r.outQ [(3, 3)]).rayFault cl r 0x61 addr

/-- A hit is accepted: the least t wins, and at equal t the lower leaf address (R172). -/
def TrReq.accept (r : TrReq) (h : Hit) (ident : Word) (leaf : Nat) : TrReq :=
  if r.status = 1 && fle32 r.t h.t && r.leaf ≤ leaf then r
  else { r with status := 1, t := h.t, u := h.u, v := h.v, ident := ident, leaf := leaf, t1 := h.t }

/-! ## Node visits (R172, R175, R177) -/

/-- Inserts a child behind those that do not lie farther. -/
def insertChild (x : Nat × Word × Nat × Bool) : List (Nat × Word × Nat × Bool) → List (Nat × Word × Nat × Bool)
  | [] => [x]
  | y :: ys => if flt32 x.2.1 y.2.1 then x :: y :: ys else y :: insertChild x ys

/-- The children that a ray visits, nearest first, ties to the lower index. -/
def TrReq.rayChildren (r : TrReq) (node : List Byte) (depth : Nat) : List (Nat × Word × Nat × Bool) :=
  (children r.fmt node).foldl (fun l c =>
    let sl := r.ray.slab (childBox r.fmt node c)
    if r.ray.misses sl then l
    else insertChild (childAddr r.fmt node c, fmax32 sl.1 r.ray.t0, depth + 1, childLeaf r.fmt node c) l) []

/-- The point of a child for the opening test: the one in its node, or the centre of its box. -/
def State.childPoint (s : State) (core : Nat) (r : TrReq) (b : Box) (addr : Nat) (leaf : Bool) : Except NodeRead V3 :=
  if leaf || fmtPoint r.fmt = 0xFFFF then .ok b.centre
  else
    match s.nodeRead core (addr + fmtPoint r.fmt) 12 with
    | .bytes bs => .ok (vecAt bs 0)
    | e => .error e

/-- The children of a node that a walk treats, in index order, with what its test decides. -/
def State.walkChildren (s : State) (core : Nat) (r : TrReq) (node : List Byte) (depth : Nat) :
    List Nat → Except NodeRead (List (Nat × Word × Nat × Bool))
  | [] => .ok []
  | c :: cs =>
    let b := childBox r.fmt node c
    let addr := childAddr r.fmt node c
    let leaf := childLeaf r.fmt node c
    let q := vecAt r.block 0
    let p := wordAt r.block 0x0C
    match s.walkChildren core r node depth cs with
    | .error e => .error e
    | .ok rest =>
      match byteAt r.block 0x10 with
      | 0 =>
        match s.childPoint core r b addr leaf with
        | .error e => .error e
        | .ok x =>
          let far : Word := if fle32 (fmul32 p (x.sub q).len) b.extent then 0 else 1
          .ok ((addr, far, depth + 1, leaf) :: rest)
      | 1 => if fle32 (b.dist2 q) (fmul32 p p) then .ok ((addr, 0, depth + 1, leaf) :: rest) else .ok rest
      | _ => .ok ((addr, 2, depth + 1, leaf) :: rest)

/-- Children wait on the stack, which holds 64 entries (R172). -/
def State.pushChildren (s : State) (cl : Nat) (r : TrReq) (cs : List (Nat × Word × Nat × Bool)) : State :=
  if (cs ++ r.stack).length > 64 then s.endRequest cl r 4
  else s.updRay cl r.ticket fun r => { r with stack := cs ++ r.stack }

/-- A request visits a node; `r` is the request without the entry. -/
def State.visitNode (s : State) (cl core : Nat) (r : TrReq) (addr depth : Nat) : State :=
  match s.nodeRead core addr (fmtNodeSize r.fmt) with
  | .fault code a => s.rayFault cl r code a
  | .poisoned secs a => s.rayPoison cl r secs a
  | .bytes node =>
    if r.kind = 1 then s.pushChildren cl r (r.rayChildren node depth)
    else
      match s.walkChildren core r node depth (children r.fmt node) with
      | .ok cs => s.pushChildren cl r cs
      | .error (.fault code a) => s.rayFault cl r code a
      | .error (.poisoned secs a) => s.rayPoison cl r secs a
      | .error (.bytes _) => s

/-- A walk's token (R177). -/
def State.token (s : State) (cl : Nat) (r : TrReq) (addr : Nat) (last : Word) : State :=
  s.emitEdge cl 4 r.outQ [(r.ticketWord, 0), (BitVec.ofNat 32 addr, 0), (last, 1)]

/-- A ray visits a leaf; at a user leaf it asks and waits (R171, R175). -/
def State.visitLeaf (s : State) (cl core : Nat) (r : TrReq) (e : Nat × Word × Nat × Bool) : State :=
  let kind := fmtLeaf r.fmt
  if kind = 3 then
    (s.token cl r e.1 e.2.1).updRay cl r.ticket fun r => { r with state := .waiting, asked := some e }
  else
    match s.nodeRead core e.1 (fmtLeafSize r.fmt) with
    | .fault code a => s.rayFault cl r code a
    | .poisoned secs a => s.rayPoison cl r secs a
    | .bytes leaf =>
      match hitLeaf r.ray kind leaf with
      | some h => s.updRay cl r.ticket fun r => r.accept h (leafIdent kind leaf) e.1
      | none => s

/-- A walk descends to a child: a leaf is emitted, a node is visited. -/
def State.descend (s : State) (cl core : Nat) (r : TrReq) (e : Nat × Word × Nat × Bool) : State :=
  if e.2.2.2 then s.token cl r e.1 1 else s.visitNode cl core r e.1 e.2.2.1

/-- `TRAVERSAL_NODE_VISIT` (R172 to R177): the ray or walk of the ticket `b` in the cluster `a` goes on with the top of
its stack; with none left it ends. -/
def execTraversalNodeVisit (s : State) : Host.Outcome State Fault Refusal :=
  let s := s.storageError
  let cl := s.pick.a
  match s.ray? cl s.pick.b with
  | none => .next s
  | some r =>
    let core := elemCore r.cmd.elem
    if r.state ≠ .running || r.kind = 3 || s.heldAt core then .next s
    else
      match r.stack with
      | [] => .next (if r.kind = 1 then s.endRequest cl r r.status else s.endTokens cl r (Config.endWord s.tick))
      | e :: rest =>
        let r := { r with stack := rest }
        let s := s.updRay cl r.ticket fun _ => r
        if r.kind = 1 then
          if flt32 r.t1 e.2.1 then .next s
          else .next (if e.2.2.2 then s.visitLeaf cl core r e else s.visitNode cl core r e.1 e.2.2.1)
        else if e.2.1 = 0 then .next (s.descend cl core r e)
        else if e.2.1 = 1 then .next (s.token cl r e.1 0)
        else .next ((s.token cl r e.1 (BitVec.ofNat 32 e.2.2.1)).updRay cl r.ticket fun r =>
          { r with state := .waiting, asked := some e })

/-! ## Replies (R175, R177, R178) -/

/-- Takes words from a reply queue of the island. -/
def State.takeReply (s : State) (cl q n : Nat) : State :=
  (s.updCluster cl fun c => { c with
    edgeIn := c.edgeIn.put (edgeKey 4 q) (((c.edgeIn.find (edgeKey 4 q)).getD []).drop n) }).freeSlots (.edgeIn cl 4 q) n

/-- A reply to a ray's user leaf: t and an identifier (R175). -/
def State.rayReply (s : State) (cl : Nat) (r : TrReq) (t ident : Word) : State :=
  s.updRay cl r.ticket fun r =>
    let r := { r with state := .running }
    match r.asked with
    | some e =>
      if fle32 r.ray.t0 t && fle32 t r.t1 then
        { r.accept ⟨t, (Config.rayField s.tick 5).setWidth 32, 0⟩ ident e.1 with asked := none }
      else { r with asked := none }
    | none => r

/-- A reply to a walk's token (R177). -/
def State.walkReply (s : State) (cl core : Nat) (r : TrReq) (w : Word) : State :=
  match r.asked with
  | none => s
  | some e =>
    let r := { r with state := .running, asked := none }
    let s := s.updRay cl r.ticket fun _ => r
    if w = 2 then s.endRequest cl r 2
    else if w = 1 || (w ≠ 0 && Config.oddReply w) then s.descend cl core r e
    else s

/-- A reply to a march's cell (R178). -/
def State.marchReply (s : State) (cl : Nat) (r : TrReq) (w : Word) : State :=
  if w = 0 || (w ≠ 1 && Config.oddReply w) then s.updRay cl r.ticket fun r => { r with ahead := r.ahead - 1 }
  else s.endTokens cl r (Config.endWord s.tick)

/-- Whether a request takes a reply now. -/
def TrReq.awaits (r : TrReq) : Bool := r.state = .waiting || (r.kind = 3 && r.state = .running && r.ahead > 0)

/-- `CALLBACK_REPLY` (R175, R177, R178): the words that stand in its reply queue answer the request of the ticket `b` in
the cluster `a`; with the flag set, a word of the reply queue `c` that no request awaits is discarded (DEDUCED, log 17).
-/
def execCallbackReply (s : State) : Host.Outcome State Fault Refusal :=
  let cl := s.pick.a
  let words (q : Nat) : List ChanWord := ((s.cluster cl).edgeIn.find (edgeKey 4 q)).getD []
  if s.pick.flag then
    let q := s.pick.c % 4
    if words q = [] || (s.cluster cl).rays.any (fun r => r.inQ = q && r.awaits) then .next s else .next (s.takeReply cl q 1)
  else
    match s.ray? cl s.pick.b with
    | none => .next s
    | some r =>
      let core := elemCore r.cmd.elem
      if !r.awaits || s.heldAt core then .next s
      else
        match r.kind, words r.inQ with
        | 1, t :: i :: _ => .next ((s.takeReply cl r.inQ 2).rayReply cl r t.word i.word)
        | 2, w :: _ => .next ((s.takeReply cl r.inQ 1).walkReply cl core r w.word)
        | 3, w :: _ => .next ((s.takeReply cl r.inQ 1).marchReply cl r w.word)
        | _, _ => .next s

/-! ## Marches (R178) -/

/-- `MARCH_CELL_EMIT` (R178): the march of the ticket `b` in the cluster `a` emits its next cell, or ends when it has
left the lattice or passed t1. -/
def execMarchCellEmit (s : State) : Host.Outcome State Fault Refusal :=
  let cl := s.pick.a
  match s.ray? cl s.pick.b with
  | none => .next s
  | some r =>
    if r.kind ≠ 3 || r.state ≠ .running || s.heldAt (elemCore r.cmd.elem) then .next s
    else if !r.moving then .next (s.endTokens cl r (Config.endWord s.tick))
    else if r.ahead ≥ r.window then .next s
    else
      let l := r.lattice
      let out := match l.exit r.ray r.cell with
        | some w => w
        | none => r.t1
      let s := s.emitEdge cl 4 r.outQ [(l.index r.cell, 0), (r.tIn, 0), (fmin32 out r.t1, 1)]
      let next := if flt32 r.t1 out || (l.exit r.ray r.cell).isNone then none else l.next r.ray r.cell out
      .next (s.updRay cl r.ticket fun r =>
        match next with
        | some c => { r with ahead := r.ahead + 1, cell := c, tIn := out }
        | none => { r with ahead := r.ahead + 1, moving := false })

/-! ## Results of rays (R176, R297) -/

/-- The 32 bytes of a ray's record. -/
def TrReq.record (r : TrReq) (tick : Nat) : List Byte :=
  let free (i : Nat) (w : Nat) : Nat := if r.status = 1 then w else (Config.rayField tick i).toNat
  bytesOfNat 4 r.status ++ bytesOfNat 4 (free 0 r.t.toNat) ++ bytesOfNat 4 (free 1 r.u.toNat)
    ++ bytesOfNat 4 (if r.status = 1 then r.v.toNat else 0) ++ bytesOfNat 4 (free 2 r.ident.toNat)
    ++ bytesOfNat 8 (free 3 r.leaf) ++ bytesOfNat 4 0

/-- `RAY_END` (R297): the ended ray of the ticket `b` in the cluster `a` writes its record, or gives it to the `tr.res`
that waits, and its ticket is freed. A kept record waits for its `tr.res`. -/
def execRayEnd (s : State) : Host.Outcome State Fault Refusal :=
  let cl := s.pick.a
  match s.ray? cl s.pick.b with
  | none => .next s
  | some r =>
    let core := elemCore r.cmd.elem
    if r.kind ≠ 1 || r.state ≠ .ended || s.heldAt core then .next s
    else if r.resultAt ≠ 0 then
      match s.writePieces core r.resultAt 32 with
      | .error (code, a) => .next (s.rayFault cl r code a)
      | .ok ps =>
        if ps.any (s.pinnedPiece cl) then .next s
        else
          match s.engWrite core r.resultAt (r.record s.tick) 2 with
          | .error (code, a) => .next (s.rayFault cl r code a)
          | .ok s =>
            .next ((ps.foldl (fun s p => s.noteWritten core r.cmd.group 32 p.key p.len) s).freeRay cl r.ticket)
    else
      match r.res with
      | none => .next s
      | some c =>
        let ws := wordsOfBytes (r.record s.tick)
        .next ((s.freeRay cl r.ticket).deliver c.elem 0 c.dst (lastTag ws.length none) ws)

/-! ## Poisoned node lines (R393) -/

/-- `NODE_POISON_EXPIRY` (R393): the line `b` leaves the node cache of the cluster `a`, by replacement or with its time;
2^16 steps after its fill no read finds it there any more (`State.nodePoisoned`). -/
def execNodePoisonExpiry (s : State) : Host.Outcome State Fault Refusal :=
  .next (s.updCluster s.pick.a fun c => { c with nodePoison := c.nodePoison.del s.pick.b })

end Sys2Proof.Machine
end

