-- ==== Sys2Proof/Machine/IslandAccept.lean ====
section
/-!
DEFINITION. How an island takes a request (R157): round robin over the command links of its cluster, each link in order.
-/
namespace Sys2Proof.Machine

/-- The traversal island takes the head of a link; none where it waits. -/
def State.acceptTraversal (s : State) (cl core ticket : Nat) (c : Cmd) : Option State :=
  match bitsOf c.word 0 4 with
  | 0 => some (s.takeFmt cl core c)
  | 1 => s.takeTraversal cl core 1 ticket c
  | 2 => s.takeTraversal cl core 2 ticket c
  | 3 => s.takeTraversal cl core 3 ticket c
  | _ => s.takeRes cl c

/-- The raster island takes a `rs.draw`; a replay of a draw that stays open reads its binding again (R295, R394). A draw
that faults counts as not fired. -/
def State.takeDraw (s : State) (cl core : Nat) (c : Cmd) : Option State :=
  let r := (s.cluster cl).raster
  let replay := r.isOpen && r.stalled && r.cmd.group = c.group
  if r.isOpen && !replay then none
  else
    let first := (c.ops.getD 2 0).toNat
    let count := (c.ops.getD 3 0).toNat
    match s.readBinding core (baseOf c.ops) with
    | .error (code, a) => some ((s.setDrawOpen core replay).cmdFault c code a)
    | .ok b =>
      if count = 0 || first + count - 1 > 0xFFFFE then some ((s.setDrawOpen core replay).cmdFault c 0x40 0)
      else if replay then some (s.updRaster cl fun r => { r with block := b, cmd := c, stalled := false })
      else
        some ((s.setDrawOpen core true).updRaster cl fun r => { (default : Raster) with
          isOpen := true
          cmd := c
          block := b
          inst := BitVec.ofNat 20 (bitsOf c.ext 0 20)
          queue := BitVec.ofNat 2 (bitsOf c.ext 20 2)
          next := first
          last := first + count - 1
          attrs := r.attrs })

/-- The raster island takes the head of a link; none where it waits (R157, R295). -/
def State.acceptRaster (s : State) (cl core : Nat) (c : Cmd) : Option State :=
  let r := (s.cluster cl).raster
  match bitsOf c.word 0 4 with
  | 0 => s.takeDraw cl core c
  | 1 =>
    if !r.isOpen || r.cmd.elem ≠ c.elem then some (s.cmdFault c 0x40 0)
    else if r.flush.isSome then none
    else some (s.updRaster cl fun r => { r with flush := some c })
  | _ => some (s.updRaster cl fun r => { r with attrs := r.attrs ++ [c] })

/-- The blend island takes a `bl.put` (R167, R295). -/
def State.acceptBlend (s : State) (cl : Nat) (c : Cmd) : State :=
  let t := bitsOf (c.ops.getD 0 0) 0 10
  if s.ticketOpen cl t then
    s.updRaster cl fun r => { r with tickets := updateIf (·.ticket == t) (fun x => { x with answer := some c }) r.tickets }
  else s.cmdFault c 0x40 0

/-- The sampler takes the head of a link; none where it waits: one `wt.ld` waits at a time (R85). -/
def State.acceptSampler (s : State) (cl core : Nat) (c : Cmd) : Option State :=
  match bitsOf c.word 0 4 with
  | 0 => some (s.takeBind cl core c)
  | 1 => if (s.cluster cl).sampler.waiting = [] then
      some (s.updSampler cl fun p => { p with waiting := [c] }) else none
  | 2 => some (s.updSampler cl fun p => p.drop c)
  | 3 => s.takeSample cl c false
  | _ => s.takeSample cl c true

/-- An island at an edge position takes a command: 4 traversal, 5 raster, 6 blend, 7 sampler. -/
def State.acceptAt (s : State) (cl pos core ticket : Nat) (c : Cmd) : Option State :=
  match pos with
  | 4 => s.acceptTraversal cl core ticket c
  | 5 => s.acceptRaster cl core c
  | 6 => some (s.acceptBlend cl c)
  | _ => s.acceptSampler cl core c

/-- The head of a core's link leaves its queue. -/
def State.popIsland (s : State) (core pos : Nat) : State :=
  s.updCore core fun k => { k with islandQ := k.islandQ.setIfInBounds (pos - 4) ((k.queued pos).drop 1) }

/-- The first core of a list whose head request the island takes. -/
def State.acceptFrom (s : State) (cl pos ticket : Nat) : List Nat → State
  | [] => s
  | core :: rest =>
    match (s.core core).queued pos with
    | [] => s.acceptFrom cl pos ticket rest
    | c :: _ =>
      if s.heldAt core then s.acceptFrom cl pos ticket rest
      else
        match (s.popIsland core pos).acceptAt cl pos core ticket c with
        | none => s.acceptFrom cl pos ticket rest
        | some t => t.updCluster cl fun k => { k with turn := k.turn.put pos (coreIdx core) }

/-- `ISLAND_REQUEST_ACCEPT` (R157): the island at the position `b` of the cluster `a` takes one request, in round robin
over the links of its cluster; a traversal request gets the ticket `c`, when it is free. -/
def execIslandRequestAccept (s : State) : Host.Outcome State Fault Refusal :=
  let s := s.storageError
  let cl := s.pick.a
  let pos := 4 + s.pick.b % 4
  let last := ((s.cluster cl).turn.find pos).getD 63
  .next (s.acceptFrom cl pos s.pick.c ((List.range 64).map fun i => cl * 64 + (last + 1 + i) % 64))

end Sys2Proof.Machine
end

