-- ==== Sys2Proof/Machine/IslandImage.lean ====
section
/-!
DEFINITION. The island section of a stored image (R85): its bytes from the islands of a cluster, and the islands' state from
its bytes, with what the layout has no place for taken from beside the image (DESIGN CHOICE, log 7).
-/
namespace Sys2Proof.Machine

/-- Zero bytes. -/
def zeros (n : Nat) : List Byte := List.replicate n 0
/-- Bytes of a layout that the specification leaves open. -/
def openBytes (tick off n : Nat) : List Byte := (List.range n).map fun i => Config.layoutByte tick (off + i)

/-! ## The section (R85) -/

/-- The destination code of a command's rule, or 0xFF. -/
def destCode : Option Cmd → Nat
  | some c => bitsOf c.word 10 5
  | none => 0xFF
/-- A traversal request record (R85). A request stops between two visits: its current node is the one that it asks about
or visits next, and no child of it has been visited. -/
def TrReq.bytes (r : TrReq) (rel tick : Nat) : List Byte :=
  let cross (i : Nat) : Word := (r.lattice.crossing r.ray r.cell i).getD 0
  let asked := r.asked.getD default
  let node := ((r.asked <|> r.stack.head?).map (·.1)).getD 0
  fitTo 64 0 r.block ++ bytesOfNat 2 r.ticket ++ bytesOfNat 1 r.kind ++ bytesOfNat 1 (bitsOf r.cmd.word 4 3)
    ++ bytesOfNat 1 r.stack.length
    ++ bytesOfNat 1 (match r.state with
      | .running => 0
      | .stalled => 0
      | .waiting => 1
      | .ended => 2)
    ++ bytesOfNat 1 rel ++ bytesOfNat 1 (destCode r.res) ++ r.record tick ++ bytesOfNat 8 node ++ bytesOfNat 1 0
    ++ bytesOfNat 1 r.ahead ++ zeros 6 ++ bytesOfNat 2 r.cell.1 ++ bytesOfNat 2 r.cell.2.1 ++ bytesOfNat 2 r.cell.2.2
    ++ zeros 2 ++ bytesOfWords [cross 0, cross 1, cross 2, r.tIn] ++ bytesOfNat 8 asked.1 ++ bytesOfWord asked.2.1
    ++ bytesOfNat 4 (if r.asked.isNone then 0 else if r.kind = 1 then 2 else 1)
    ++ fitTo 1024 0 (r.stack.flatMap fun e => bytesOfNat 8 e.1 ++ bytesOfWord e.2.1 ++ bytesOfNat 2 e.2.2.1 ++ zeros 2)
/-- A ticket record. -/
def Ticket.bytes (t : Ticket) : List Byte :=
  let ops := (t.answer.map (·.ops)).getD []
  bytesOfWord t.pixel ++ bytesOfNat 1 t.cover.toNat
    ++ bytesOfNat 1 ((if t.answer.isSome then 1 else 0) + if (ops.getD 0 0).getLsbD 31 then 2 else 0) ++ zeros 2
    ++ fitTo 16 0 (bytesOfWords (ops.drop 1))
/-- The raster state. -/
def Raster.bytes (r : Raster) (rel : Nat) : List Byte :=
  let px := (r.tile / gbTilesX r.block * 32 + r.pixel / 32) * 65536 + (r.tile % gbTilesX r.block * 32 + r.pixel % 32)
  bytesOfNat 1 ((if r.isOpen then 1 else 0) + if r.flushing then 2 else 0) ++ bytesOfNat 1 r.queue.toNat ++ bytesOfNat 1 rel
    ++ bytesOfNat 1 (destCode r.flush) ++ bytesOfNat 4 r.inst.toNat ++ bytesOfNat 8 (baseOf r.cmd.ops) ++ bytesOfNat 4 r.next
    ++ bytesOfNat 4 r.last ++ bytesOfNat 4 r.tile ++ bytesOfNat 4 r.entry ++ bytesOfNat 4 px ++ bytesOfNat 2 r.nextTicket
    ++ bytesOfNat 2 ((r.tickets.head?.map (·.ticket)).getD r.nextTicket) ++ zeros 24
/-- A sampler slot. -/
def SamplerSlot.bytes (b : SamplerSlot) : List Byte :=
  bytesOfNat 8 b.addr ++ bytesOfNat 1 b.table.toNat ++ bytesOfNat 1 b.filter.toNat ++ bytesOfNat 2 b.version.toNat
    ++ bytesOfNat 1 (if b.bound then 1 else 0) ++ zeros 3
/-- The island section of a cluster (R85); `rel` gives the relative core of an `e0`. -/
def Cluster.islandBytes (c : Cluster) (islands tick : Nat) (rel : Nat → Nat) : List Byte :=
  let w := c.sampler.weights
  let load := match c.sampler.waiting with
    | x :: _ => [1] ++ bytesOfNat 1 (bitsOf x.word 4 6) ++ bytesOfNat 2 (bitsOf x.ext 0 16) ++ bytesOfNat 1 (rel x.elem)
        ++ bytesOfNat 1 (bitsOf x.word 10 5) ++ zeros 2 ++ bytesOfNat 8 (baseOf x.ops)
    | [] => zeros 16
  bytesOfNat 1 islands ++ zeros 3 ++ bytesOfNat 2 w.length ++ bytesOfNat 2 c.rays.length
    ++ bytesOfNat 2 c.raster.tickets.length ++ zeros 6
    ++ c.fmts.toList.flatMap (fun f => fitTo 32 0 (f.getD [0xFF])) ++ c.sampler.slots.toList.flatMap (·.bytes)
    ++ c.raster.bytes (rel c.raster.cmd.elem) ++ load
    ++ w.flatMap (fun e =>
      bytesOfNat 1 e.table.toNat ++ zeros 1 ++ bytesOfNat 2 e.version.toNat ++ zeros 4 ++ fitTo 2048 0 e.bytes)
    ++ c.rays.flatMap (fun r => r.bytes (rel r.cmd.elem) tick) ++ c.raster.tickets.flatMap (·.bytes)

/-! ## From the section back (R85) -/

/-- Four words of a ticket record are the colour of its answer; the first word of the answer holds ticket and discard
flag. -/
def ticketAt (e : List Byte) (ticket : Nat) (old : Option Ticket) : Ticket :=
  let flags := byteAt e 5
  let answer (c : Cmd) : Cmd :=
    let w := c.ops.getD 0 0
    { c with ops := (if flags.testBit 1 then w ||| 0x80000000#32 else w &&& 0x7FFFFFFF#32)
        :: (List.range 4).map fun i => wordAt e (8 + 4 * i) }
  { ticket := ticket
    pixel := wordAt e 0
    cover := BitVec.ofNat 4 (byteAt e 4)
    answer := if flags.testBit 0 then some (answer (((old.map (·.answer)).getD none).getD default)) else none }

/-- A stack entry: whether it is a leaf comes from the entry that stood there. -/
def stackAt (b : List Byte) (old : List (Nat × Word × Nat × Bool)) (i : Nat) : Nat × Word × Nat × Bool :=
  let o := 0xA0 + 16 * i
  let a := fieldAt b o 8
  let leaf : Bool := match old[i]? with
    | some e => e.1 = a && e.2.2.2
    | none => false
  (a, wordAt b (o + 8), fieldAt b (o + 12) 2, leaf)

/-- A traversal request from its record, over the one that was captured under its ticket. -/
def TrReq.withRecord (r : TrReq) (b : List Byte) : TrReq :=
  { r with
    block := b.take 64
    ticket := fieldAt b 0x40 2
    kind := byteAt b 0x42
    stack := (List.range (min 64 (byteAt b 0x44))).map (stackAt b r.stack)
    state := match byteAt b 0x45 with
      | 0 => if r.state = .stalled then .stalled else .running
      | 1 => .waiting
      | _ => .ended
    status := fieldAt b 0x48 4
    t := wordAt b 0x4C
    u := wordAt b 0x50
    v := wordAt b 0x54
    ident := wordAt b 0x58
    leaf := fieldAt b 0x5C 8
    t1 := if fieldAt b 0x48 4 = 1 then wordAt b 0x4C else wordAt b 0x1C
    asked := if fieldAt b 0x9C 4 = 0 then none
      else
        let old := r.asked.getD default
        some (fieldAt b 0x90 8, wordAt b 0x98, old.2.2)
    cell := (fieldAt b 0x78 2, fieldAt b 0x7A 2, fieldAt b 0x7C 2)
    tIn := wordAt b 0x8C
    ahead := byteAt b 0x71
    res := if byteAt b 0x47 = 0xFF then none else r.res }

/-- The raster island from its 64 bytes and its ticket records. -/
def Raster.withState (r : Raster) (b : List Byte) (tickets : List (List Byte)) : Raster :=
  let px := wordAt b 0x20
  let oldest := fieldAt b 0x26 2
  { r with
    isOpen := (byteAt b 0).testBit 0
    flushing := (byteAt b 0).testBit 1
    queue := BitVec.ofNat 2 (byteAt b 1)
    flush := if byteAt b 3 = 0xFF then none else r.flush
    inst := BitVec.ofNat 20 (fieldAt b 4 4)
    cmd := { r.cmd with ops := wordAt b 8 :: wordAt b 12 :: r.cmd.ops.drop 2 }
    next := fieldAt b 0x10 4
    last := fieldAt b 0x14 4
    tile := fieldAt b 0x18 4
    entry := fieldAt b 0x1C 4
    pixel := (bitsOf px 16 16 - fieldAt b 0x18 4 / gbTilesX r.block * 32) * 32
      + (bitsOf px 0 16 - fieldAt b 0x18 4 % gbTilesX r.block * 32)
    nextTicket := fieldAt b 0x24 2
    tickets := tickets.zipIdx.map fun x =>
      let n := (oldest + x.2) % 1024
      ticketAt x.1 n (r.tickets.find? (·.ticket == n)) }

/-- A sampler slot from its 16 bytes; its descriptor stays as it was read. -/
def SamplerSlot.withState (x : SamplerSlot) (b : List Byte) : SamplerSlot :=
  { bound := (byteAt b 12).testBit 0
    addr := fieldAt b 0 8
    desc := x.desc
    table := BitVec.ofNat 6 (byteAt b 8)
    version := BitVec.ofNat 16 (fieldAt b 10 2)
    filter := BitVec.ofNat 2 (byteAt b 9) }

/-- The waiting `wt.ld` from its 16 bytes. -/
def waitingAt (b : List Byte) (old : List Cmd) : List Cmd :=
  match old with
  | c :: _ =>
    if !(byteAt b 0).testBit 0 then []
    else [{ c with
      word := (c.word &&& ~~~0x3F0#32) ||| BitVec.ofNat 32 (byteAt b 1 % 64 * 16)
      ext := (c.ext &&& 0xFFFF0000#32) ||| BitVec.ofNat 32 (fieldAt b 2 2)
      ops := wordAt b 8 :: wordAt b 12 :: c.ops.drop 2 }]
  | [] => []

/-- A weight entry from its 2056 bytes; its bytes are those captured, not those of memory (R85). -/
def weightEntryAt (b : List Byte) (old : List WeightEntry) : WeightEntry :=
  let e : WeightEntry := ⟨BitVec.ofNat 6 (byteAt b 0), BitVec.ofNat 16 (fieldAt b 2 2), (b.drop 8).take 2048, false⟩
  { e with dropped := old.any fun o => o.table = e.table && o.version = e.version && o.dropped }

/-- n pieces of equal size from an offset. -/
def piecesAt (b : List Byte) (off size n : Nat) : List (List Byte) :=
  (List.range n).map fun i => (b.drop (off + size * i)).take size

/-- The islands' state from an island section over what was captured beside it. -/
def IslandState.withSection (x : IslandState) (b : List Byte) : IslandState :=
  let nw := fieldAt b 4 2
  let nt := fieldAt b 6 2
  let nb := fieldAt b 8 2
  let rays := 0x260 + 2056 * nw
  let tickets := rays + 1184 * nt
  { x with
    fmts := Vector.ofFn fun (i : Fin 8) =>
      if byteAt b (0x10 + 32 * i.val) = 0xFF then none else some ((b.drop (0x10 + 32 * i.val)).take 32)
    rays := (piecesAt b rays 1184 nt).map fun r =>
      ((x.rays.find? (·.ticket == fieldAt r 0x40 2)).getD default).withRecord r
    raster := x.raster.withState ((b.drop 0x210).take 64) (piecesAt b tickets 24 nb)
    sampler := { x.sampler with
      slots := Vector.ofFn fun (i : Fin 16) =>
        (x.sampler.slots.getD i.val ⟨false, 0, [], 0, 0, 0⟩).withState ((b.drop (0x110 + 16 * i.val)).take 16)
      weights := (piecesAt b 0x260 2056 nw).map fun w => weightEntryAt w x.sampler.weights
      waiting := waitingAt ((b.drop 0x250).take 16) x.sampler.waiting } }

end Sys2Proof.Machine
end

