-- ==== Sys2Proof/Machine/OrcEvents.lean ====
section
/-!
DEFINITION. Order-repairing cells at their slices (R144 to R153, R254 to R256, R390, R391, R402, R403): requests,
operations and marks as they arrive, views of the watermark, settled loads, and the end of a free.
-/
namespace Sys2Proof.Machine

/-- The cell whose word stands at a place (R148). -/
def State.cellOf (s : State) (k : Nat) : Option Cell := s.cells.find? (·.word == k)

/-- A cell folds through its slice's view (R150). -/
def State.foldCell (s : State) (c : Cell) : State :=
  (s.answerSettled c).updCell c.word (·.foldThrough (s.viewOf c))

/-! ## Domains (R144, R146) -/

/-- Bytes of a domain record, written by the device at its home. -/
def State.writeRecord (s : State) (record off : Nat) (bs : List Byte) : State :=
  { s with mem := s.mem.writeN (record + off) bs }
/-- Domains at the home slice of a record. -/
def State.domainsAt (s : State) (record : Nat) : Nat := (s.domains.filter fun d => sliceOf d.record = sliceOf record).length
/-- The chain of a core, as the model keys it; 0 where none is resident. -/
def State.chainIdAt (s : State) (core : Nat) : Nat :=
  match s.spurAt core with
  | some p => p.chain
  | none => 0
/-- `orc.dom` at the home slice of its record (R254): a fault code, or the domain created or dissolved. A poisoned count
is 0x20 (R384); reserved fields of the record are ignored and stay as they stand, and the count of discarded writes goes on
from what its field holds (DESIGN CHOICE, log 36). A record in a peer package's memory makes a domain at its owner's slice
(DESIGN CHOICE, log 63). -/
def State.domRequest (s : State) (r : Req) (k : Nat) : Except Nat State :=
  let bs := s.homeRead k 0x140
  let count := fieldAt bs 0 2
  if s.poison.contains (sectorOf k) then .error 0x20
  else if count > 64 then .error 0x31
  else if count = 0 then
    if (s.domain? k).isNone || s.cells.any (·.domain == k) then .error 0x31
    else .ok { s with domains := s.domains.filter (·.record != k) }
  else if (s.domain? k).isSome || s.domainsAt k ≥ 8 then .error 0x31
  else
    let chain := s.chainIdAt (elemCore r.elem)
    let d : Domain := ⟨k, chain, count, (byteAt bs 2).testBit 0, [], 0, [0], [], [],
      BitVec.ofNat 64 (fieldAt bs 0x10 8)⟩
    let s := { s with domains := s.domains ++ [d] }
    let s := (s.writeRecord k 4 (bytesOfNat 3 0)).writeRecord k 8 (bytesOfNat 8 (s.chainNameAt (elemCore r.elem)))
    .ok ((List.range 64).foldl (fun s i => s.writeRecord k (0x40 + 4 * i) (bytesOfNat 3 0)) s)

/-- The mark of a source. -/
def Domain.mark (d : Domain) (n : Nat) : BitVec 24 := (d.marks.find n).getD 0
/-- W: the least mark of the domain's sources (R146). -/
def Domain.least (d : Domain) : BitVec 24 :=
  (List.range d.count).foldl (fun w n => if (d.mark n).toNat < w.toNat then d.mark n else w) (d.mark 0)

/-- A source's mark rises, and W with it; both stand in the record before the token (R146). A rise of W is sent to every
slice (R147). -/
def State.raiseMark (s : State) (k n : Nat) (m : BitVec 24) : State :=
  let s := s.updDomain k fun d =>
    let d := { d with marks := d.marks.put n m }
    if d.least = d.w then d else { d with w := d.least, rises := d.rises ++ [d.least], cut := [] }
  let s := s.writeRecord k (0x40 + 4 * n) (bytesOfNat 3 m.toNat)
  match s.domain? k with
  | some d => s.writeRecord k 4 (bytesOfNat 3 d.w.toNat)
  | none => s

/-- `orc.mark` at the home slice (R254). -/
def State.markRequest (s : State) (r : Req) (k : Nat) : Except Nat State :=
  let w := r.ops.getD 0 0
  let n := bitsOf w 24 6
  match s.domain? k with
  | none => .error 0x31
  | some d =>
    if bitsOf w 30 2 ≠ 0 || n ≥ d.count then .error 0x32
    else if bitsOf w 0 24 > (d.mark n).toNat then .ok (s.raiseMark k n (w.extractLsb' 0 24))
    else .ok s

/-! ## Cells (R148, R150, R151) -/

/-- `orc.bind` at the word's slice (R148): the record that the rule names is translated like the word. -/
def State.bindRequest (s : State) (r : Req) (k : Nat) (w64 : Bool) : Except (Nat × Nat) State :=
  let core := elemCore r.elem
  let record := baseOfWords r.ops
  let n := if w64 then 8 else 4
  match s.translateAt (coreCluster core) (s.rootAt core) record ⟨true, true, false, s.privAt core⟩ with
  | .bad c a => .error (c, a)
  | .ok d _ =>
    let taken := (s.cells.filter fun c => sliceOf c.word = sliceOf k).length
    if (s.domain? d).isNone || taken ≥ 1024 || (List.range n).any (fun i => (s.cellAt (k + i)).isSome) then
      .error (0x31, r.va.toNat)
    else
      let c : Cell := ⟨k, w64, d, s.chainIdAt core, BitVec.ofNat 64 (natOfBytes (s.mem.readN k n)), 0, []⟩
      .ok { s with cells := s.cells ++ [c] }
where
  /-- An address from its two words. -/
  baseOfWords (ws : List Word) : Nat := (of64 (ws.getD 0 0) (ws.getD 1 0)).toNat

/-- The stamp of an `orc.op` (R255). -/
def Req.stamp (r : Req) : BitVec 40 := (r.ops.getD 1 0).extractLsb' 0 8 ++ r.ops.getD 0 0
/-- Whether an operation exists in a width (R149). -/
def OrcOp.fits (op : OrcOp) (w64 : Bool) : Bool :=
  match op with
  | .set => true
  | .addInt => true
  | .addF64 => w64
  | _ => !w64

/-- Inserts an entry in ascending stamp order, behind equal stamps (R150). -/
def insertEntry (e : Entry) : List Entry → List Entry
  | [] => [e]
  | x :: xs => if e.stamp < x.stamp then e :: x :: xs else x :: insertEntry e xs

/-- Whether the word of a cell is poisoned (R384). -/
def State.cellPoisoned (s : State) (c : Cell) : Bool := s.poison.contains (sectorOf c.word)

/-- An operation arrives at its cell (R150): accepted, or refused with a code; a fold on the way stays. A poisoned word
raises 0x20 at every operation (R384). -/
def State.opRequest (s : State) (r : Req) (k : Nat) (op : OrcOp) (w64 : Bool) : State × Option Nat :=
  match s.cellOf k with
  | none => (s, some 0x31)
  | some c =>
    let step := stampStep r.stamp
    let count := match s.domain? c.domain with
      | some d => d.count
      | none => 0
    if s.cellPoisoned c then (s, some 0x20)
    else if w64 ≠ c.w64 || !op.fits w64 then (s, some 0x01)
    else if bitsOf (r.ops.getD 1 0) 8 24 ≠ 0 || step = 0 || r.stamp.toNat % 64 ≥ count || step ≤ (s.viewOf c).toNat then
      (s, some 0x32)
    else
      let s := if c.history.length = 15 then s.foldCell c else s
      match s.cellOf k with
      | none => (s, some 0x31)
      | some c =>
        if c.history.length = 15 then (s, some 0x30)
        else (s.updCell k fun c => { c with history := insertEntry ⟨r.stamp, op, r.ops.drop 2⟩ c.history }, none)

/-- Whether a free can end: the view has reached the newest entry, and no settled load waits (R151). -/
def State.freeReady (s : State) (c : Cell) : Bool :=
  (c.history.all fun e => stampStep e.stamp ≤ (s.viewOf c).toNat) && !s.reqs.any (·.waitsAt c.word)

/-- A cell is returned to the pool: every entry folds and the base stands in the word at the home (R151). -/
def State.freeCell (s : State) (c : Cell) : State :=
  { s with
    cells := s.cells.filter (·.word != c.word)
    mem := s.mem.writeN c.word (bytesOfNat c.size c.tentative.toNat) }

/-! ## The happenings -/

/-- Whether a request to a slice may be carried out now: it has been translated, and the order that it asks for at a
peer package is kept (R328, R376). -/
def State.atSlice (s : State) (r : Req) : Bool :=
  r.phase = .ready && s.releaseReady r && s.acquireReady r && s.ordersOk r
/-- The outcome of a request at its slice: a late fault of its rule, or a next state without the request. -/
def State.settle (s : State) (r : Req) (x : Except Nat State) : State :=
  match x with
  | .error c => s.lateFault r c r.va.toNat
  | .ok s => s.dropReq r.id

/-- A load of a cell arrives (R152, R153). -/
def State.cellLoad (s : State) (r : Req) (k : Nat) (settled w64 : Bool) : State :=
  match s.cellOf k with
  | none => s.lateFault r 0x31 r.va.toNat
  | some c =>
    if s.cellPoisoned c then s.lateFault r 0x20 r.va.toNat
    else if c.w64 ≠ w64 then s.lateFault r 0x01 r.va.toNat
    else if !settled then s.updReq r.id fun q => { q with phase := .answered, value := c.words c.tentative }
    else if r.settleStep < c.f.toNat then s.lateFault r 0x33 r.va.toNat
    else (s.updReq r.id fun q => { q with phase := .waiting }).answerLoad r c

/-- `ORC_REQUEST_ARRIVAL` (R254, R256): the request `a` of `orc.dom`, `orc.bind`, `orc.free`, `orc.fold`, `orc.ldt` or
`orc.lds`. -/
def execOrcRequestArrival (s : State) : Host.Outcome State Fault Refusal :=
  match s.req? s.pick.a with
  | none => .next s
  | some r =>
    match r.pa with
    | none => .next s
    | some k =>
      if !s.atSlice r then .next s
      else
        let t := ((s.softError r).release r).acquire r
        match r.kind with
        | .orcCtl .dom _ => .next (t.settle r (t.domRequest r k))
        | .orcCtl .bind w64 =>
          match t.bindRequest r k w64 with
          | .error (c, a) => .next (t.lateFault r c a)
          | .ok u => .next (u.dropReq r.id)
        | .orcCtl .fold _ =>
          match t.cellOf k with
          | some c => .next ((t.foldCell c).dropReq r.id)
          | none => .next (t.lateFault r 0x31 r.va.toNat)
        | .orcCtl .free _ =>
          if (t.cellOf k).isSome then .next (t.updReq r.id fun q => { q with phase := .waiting })
          else .next (t.lateFault r 0x31 r.va.toNat)
        | .orcLoad settled w64 => .next (t.cellLoad r k settled w64)
        | _ => .next s

/-- `ORC_OP_ARRIVAL` (R150): the operation `a` arrives at its cell. -/
def execOrcOpArrival (s : State) : Host.Outcome State Fault Refusal :=
  match s.req? s.pick.a with
  | none => .next s
  | some r =>
    match r.kind, r.pa with
    | .orcOp op w64, some k =>
      if !s.atSlice r then .next s
      else
        match ((s.softError r).release r).opRequest r k op w64 with
        | (t, some c) => .next (t.lateFault r c r.va.toNat)
        | (t, none) => .next (t.dropReq r.id)
    | _, _ => .next s

/-- `ORC_MARK_APPLY` (R146): the mark `a` reaches its home slice. -/
def execOrcMarkApply (s : State) : Host.Outcome State Fault Refusal :=
  match s.req? s.pick.a with
  | none => .next s
  | some r =>
    match r.kind, r.pa with
    | .orcCtl .mark _, some k =>
      if !s.atSlice r then .next s
      else
        let t := s.release r
        .next (t.settle r (t.markRequest r k))
    | _, _ => .next s

/-- Whether a rise of a domain's W reaches a slice: one of the home slice's package over the mesh, one of another
package over Kucor where the domain has the pod flag, and neither where the message was lost (R147, R395). -/
def Domain.reaches (d : Domain) (slice : Nat) : Bool :=
  !d.cut.contains slice && (d.pod || slice / 256 = sliceOf d.record / 256)
/-- The next value of W that a slice's view takes: the rises arrive one by one (R147). -/
def Domain.nextRise (d : Domain) (slice : Nat) : Option (BitVec 24) :=
  d.rises.find? fun w => ((d.views.find slice).getD 0).toNat < w.toNat

/-- `WATERMARK_VIEW_RISE` (R147): the next rise of the domain `a` reaches the slice `b`. -/
def execWatermarkViewRise (s : State) : Host.Outcome State Fault Refusal :=
  .next (s.updDomain s.pick.a fun d =>
    match d.nextRise s.pick.b with
    | some w => if d.reaches s.pick.b then { d with views := d.views.put s.pick.b w } else d
    | none => d)

/-- `SETTLED_LOAD_ANSWER` (R153): the waiting settled load `a` is answered once its step has settled; where its cell has
been released it raises 0x31 (R403). -/
def execSettledLoadAnswer (s : State) : Host.Outcome State Fault Refusal :=
  match s.req? s.pick.a with
  | none => .next s
  | some r =>
    match r.pa with
    | none => if r.orphaned then .next (s.lateFault r 0x31 r.va.toNat) else .next s
    | some k =>
      if !r.waitsAt k then .next s
      else
        match s.cellOf k with
        | some c => .next (s.answerLoad r c)
        | none => .next (s.lateFault r 0x31 r.va.toNat)

/-- `ORC_FREE_END` (R151): the waiting free `a` ends. -/
def execOrcFreeEnd (s : State) : Host.Outcome State Fault Refusal :=
  match s.req? s.pick.a with
  | none => .next s
  | some r =>
    match r.kind, r.pa with
    | .orcCtl .free _, none => if r.orphaned then .next (s.lateFault r 0x31 r.va.toNat) else .next s
    | .orcCtl .free _, some k =>
      if r.phase ≠ .waiting then .next s
      else
        match s.cellOf k with
        | none => .next (s.lateFault r 0x31 r.va.toNat)
        | some c => if s.freeReady c then .next ((s.freeCell c).dropReq r.id) else .next s
    | _, _ => .next s

end Sys2Proof.Machine
end

