-- ==== Sys2Proof/Machine/Sync.lean ====
section
/-!
DEFINITION. Synchronisation rules (cell 0x33, R257 to R264): cols, barriers, drain, quiet, signals and
`chain.put`. What a rule asks of a col, a hub or a queue is a request, which its own happening answers.
-/
namespace Sys2Proof.Machine

/-- The chain and spur of the element that fires. -/
def State.mySpur (s : State) : Option Spur := s.spurAt (elemCore s.cur.elem)

/-- The spur of the same ridge that declares col j (R258). -/
def State.colOf (s : State) (j : Nat) : Option Spur :=
  match s.mySpur with
  | some p => s.spurs.find? fun q => q.chain = p.chain && q.index = j && q.col.isSome
  | none => none

/-- Whether a col request word has a nonzero must-be-0 bit or names a col that no spur declares (R258). -/
def State.badCol (s : State) (w : Word) : Bool :=
  bitsOf w 14 18 ≠ 0 || w.getLsbD 7 || (s.colOf (bitsOf w 0 7)).isNone

/-- A rule whose late result is one word: the operands are consumed, the destination pended or reserved, the
request sent (R36, R37). -/
def State.sendLate (s : State) (dm : Demand) (dst : Code) (kind : ReqKind) (ops : List Word) : State :=
  let r := s.newReq kind .none
  let (s, d) := (s.consume dm).reserveDst s.cur.elem dst 1
  s.addReq { r with dst := d, ops := ops, group := s.nextId }

/-- The barrier that a `bar.arrive` names. -/
def Spur.barOf (p : Spur) (b : Nat) : BarState := p.bars.getD b default

/-- Whether a barrier is not declared by the issuing spur's image (R260). -/
def State.badBar (s : State) (b : Nat) : Bool :=
  match s.mySpur with
  | some p => (p.barOf b).need = 0
  | none => true

/-- The generation that the next arrival of a spur belongs to: the first n of a generation are its own, those
after it belong to the next (R76). The generation is an n32. -/
def BarState.nextGen (b : BarState) : Nat := (b.gen.toNat + b.count / b.need) % 2 ^ 32

/-- `col.req` (R258): the request travels to the col, which grants later. -/
def execColReq (o : ROp) (s : State) : Host.Outcome State Fault Refusal :=
  let dm := one [o.a]
  fire (.colReq o) (fun s => !namesNothing o.w o.a && s.badCol (s.rd dm o.a)) (fun _ => none)
    (fun s =>
      let w := s.rd dm o.a
      s.sendLate dm o.d (.colReq (bitsOf w 0 7) (bitsOf w 8 6)) [w]) s

/-- `col.rel` (R258): the holder's release frees the col; another's has no effect. -/
def execColRel (o : ROp) (s : State) : Host.Outcome State Fault Refusal :=
  let dm := one [o.a]
  fire (.colRel o) (fun s => !namesNothing o.w o.a && s.badCol (s.rd dm o.a)) (fun _ => none)
    (fun s =>
      let w := s.rd dm o.a
      let arc := bitsOf w 8 6
      let s' := s.consume dm
      match s.colOf (bitsOf w 0 7) with
      | some p => s'.updSpur p.id fun p => { p with
          col := p.col.map fun c => if c.holder = some arc then { c with holder := none } else c }
      | none => s') s

/-- `bar.arrive` (R76, R260): one arrival is counted in firing order; its word comes at the release. -/
def execBarArrive (o : ROp) (s : State) : Host.Outcome State Fault Refusal :=
  let dm := one [o.a]
  fire (.barArrive o) (fun s => !namesNothing o.w o.a && s.badBar (bitsOf (s.rd dm o.a) 0 4)) (fun _ => none)
    (fun s =>
      let b := bitsOf (s.rd dm o.a) 0 4
      match s.mySpur with
      | some p =>
        let g := (p.barOf b).nextGen
        (s.sendLate dm o.d (.barrier b g) []).updSpur p.id fun p => { p with
          bars := p.bars.setIfInBounds b { (p.bars.getD b default) with count := (p.bars.getD b default).count + 1 } }
      | none => s) s

/-- `drain` (R261): a drain in progress is joined, else a token starts at the first element. -/
def execDrain (o : ROp) (s : State) : Host.Outcome State Fault Refusal :=
  fireOp (.drain o) (fun s =>
    let s' := s.sendLate [] o.d .drain []
    match s.mySpur with
    | some p => s'.updSpur p.id fun p => { p with
        drain := some (p.drain.getD { todo := p.elemKeys, covered := [] }) }
    | none => s') s

/-- `quiet` (R262). -/
def execQuiet (o : ROp) (s : State) : Host.Outcome State Fault Refusal :=
  fireOp (.quiet o) (fun s =>
    let dm := one [o.a]
    let q := (s.rd dm o.a).getLsbD 0
    match s.mySpur with
    | some p => (s.consume dm).updSpur p.id fun p => { p with quiet := q }
    | none => s.consume dm) s

/-- `sig` (R263, R325): the signal is set once the element's earlier writes are performed at package scope. -/
def execSig (o : ROp) (s : State) : Host.Outcome State Fault Refusal :=
  fireOp (.sig o) (fun s =>
    let dm := one [o.a]
    let n := bitsOf (s.rd dm o.a) 0 6
    let r := s.newReq (.signal n) .none
    (s.consume dm).addReq { r with rel := true, scope := 4, group := s.nextId }) s

/-- `chain.put` (R264): a release, then the read of the record and the append, whose result is late. -/
def execChainPut (o : ROp) (s : State) : Host.Outcome State Fault Refusal :=
  fireOp (.chainPut o) (fun s =>
    let dm := one [o.b]
    let q := bitsOf (s.rd dm o.b) 0 4
    let r := s.newReq (.chainPut q) .none
    let a := s.rdPair o.a
    let (s, d) := (s.consume dm).reserveDst s.cur.elem o.d 1
    s.addReq { r with dst := d, va := a, size := 256, rel := true, scope := 4, group := s.nextId }) s

end Sys2Proof.Machine
end

