-- ==== Sys2Proof/Machine/SyncEvents.lean ====
section
/-!
DEFINITION. Barriers, cols and drains at their hubs (R76, R258 to R261): arrivals, releases, grants, and the drain
token on its way.
-/
namespace Sys2Proof.Machine

/-! ## Barriers (R76, R260) -/

/-- Changes a barrier of a spur. -/
def Spur.updBar (p : Spur) (b : Nat) (f : BarState → BarState) : Spur :=
  { p with bars := p.bars.setIfInBounds b (f (p.barOf b)) }

/-- `BARRIER_ARRIVAL_MESSAGE` (R76): the spur `a` has arrived at the barrier `b`, and its hub tells the root. -/
def execBarrierArrivalMessage (s : State) : Host.Outcome State Fault Refusal :=
  match s.spur? s.pick.a with
  | some p =>
    let x := p.barOf s.pick.b
    if x.need > 0 && x.count ≥ x.need then .next (s.updSpur p.id (·.updBar s.pick.b fun x => { x with reported := true }))
    else .next s
  | none => .next s

/-- A hub delivers the release of a barrier of its spur: one word for each `bar.arrive` of the generation; then the
generation advances (R260). -/
def State.releaseBarrier (s : State) (p : Spur) (b : Nat) : State :=
  let g := (p.barOf b).gen
  let mine (r : Req) : Bool := p.covers (elemCore r.elem) && r.kind = .barrier b g.toNat
  let s := { s with reqs := updateIf mine (fun r => { r with phase := .answered, value := [g] }) s.reqs }
  s.updSpur p.id (·.updBar b fun x => { x with gen := x.gen + 1, count := x.count - x.need, reported := false })

/-- The stages that the spurs of a chain are at: one, but for a deterministic chain under a switch (R90). -/
def State.stagesOf (s : State) (ident : Nat) : List Nat := ((s.spursOf ident).map (·.stage)).eraseDups
/-- Whether every spur of the ridge of stage n that uses the barrier b has arrived: each region has come to that stage,
and one that has gone on had arrived (R76, R90). -/
def State.barrierFull (s : State) (c : Chain) (n b : Nat) : Bool :=
  let here := s.spursOf c.ident
  here.all (fun p => n ≤ p.stage && (p.stage ≠ n || (p.barOf b).need = 0 || (p.barOf b).reported))
    && c.leftBars.all fun x => x.1 ≠ n || (x.2.getD b default).need ≤ (x.2.getD b default).count
/-- The regions that have gone on count the release of a barrier too. -/
def Chain.passBarrier (c : Chain) (n b : Nat) : Chain :=
  { c with leftBars := c.leftBars.map fun x =>
      if x.1 = n then (n, x.2.modify b fun y => { y with count := y.count - y.need }) else x }

/-- `BARRIER_RELEASE` (R76): the barrier `b` of the ridge that the chain `a` has at the stage in place `c` of those that its
spurs are at, once every spur that uses it has arrived. -/
def execBarrierRelease (s : State) : Host.Outcome State Fault Refusal :=
  let b := s.pick.b
  let ns := s.stagesOf s.pick.a
  match s.chain? s.pick.a, ns[s.pick.c % ns.length]? with
  | some c, some n =>
    let users := (s.spursOf c.ident).filter fun p => p.stage = n && (p.barOf b).need > 0
    if users = [] || !s.barrierFull c n b then .next s
    else .next ((users.foldl (fun s p => s.releaseBarrier p b) s).updChain c.ident (·.passBarrier n b))
  | _, _ => .next s

/-! ## Cols (R258, R259) -/

/-- Changes the col of a spur. -/
def State.updCol (s : State) (spur : Nat) (f : Col → Col) : State :=
  s.updSpur spur fun p => { p with col := p.col.map f }

/-- The request that a grant of an arc answers: the one that the entry names, else the first that waits for it. -/
def State.grantee (s : State) (p : Spur) (e : Nat × Nat) : Option Req :=
  s.reqs.find? fun r => r.phase = .waiting && r.kind = .colReq p.index e.1 && (e.2 = 0 || r.id = e.2)
    && (match s.spurAt (elemCore r.elem) with
      | some q => q.chain = p.chain
      | none => false)

/-- A col without a holder grants the head of its FIFO and sends the count of grants before this one (R258). -/
def State.grant (s : State) (p : Spur) : State :=
  match p.col with
  | some c =>
    match c.holder, c.fifo with
    | none, e :: rest =>
      let s' := s.updCol p.id fun c => { c with holder := some e.1, fifo := rest, grants := c.grants + 1 }
      match s.grantee p e with
      | some r => s'.updReq r.id fun q => { q with phase := .answered, value := [c.grants] }
      | none => s'
    | _, _ => s
  | none => s

/-- The spur that declares the col of a request. -/
def State.colFor (s : State) (r : Req) (j : Nat) : Option Spur :=
  match s.spurAt (elemCore r.elem) with
  | some p => s.spurs.find? fun q => q.chain = p.chain && q.index = j && q.col.isSome
  | none => none

/-- An earlier request of the same element to the same col is still in the mesh. -/
def State.colBefore (s : State) (r : Req) (j : Nat) : Bool :=
  s.reqs.any fun q => q.elem = r.elem && q.id < r.id && q.phase = .sent &&
    (match q.kind with
      | .colReq i _ => i = j
      | _ => false)

/-- A request reaches its col: it waits in the mesh while the FIFO is full (R258). DEDUCED: one element's requests
to one col arrive in the order in which they fired (log 46). -/
def State.reachCol (s : State) (r : Req) (j arc : Nat) : State :=
  match s.colFor r j with
  | none => s
  | some p =>
    match p.col with
    | none => s
    | some c =>
      if r.phase ≠ .sent || c.fifo.length ≥ 64 || s.colBefore r j then s
      else
        let s := s.updReq r.id fun q => { q with phase := .waiting }
        let s := s.updCol p.id fun c => { c with fifo := c.fifo ++ [(arc, r.id)] }
        match s.spur? p.id with
        | some p => s.grant p
        | none => s

/-- `COL_GRANT` (R258): with `flag` the request `a` reaches its col; then, or else, the col of the spur `a` grants. -/
def execColGrant (s : State) : Host.Outcome State Fault Refusal :=
  if s.pick.flag then
    match s.req? s.pick.a with
    | some r =>
      match r.kind with
      | .colReq j arc => .next (s.reachCol r j arc)
      | _ => .next s
    | none => .next s
  else
    match s.spur? s.pick.a with
    | some p => .next (s.grant p)
    | none => .next s

/-! ## Drains (R261) -/

/-- Whether a drain waits for a request of a kind: memory accesses and requests of the engines. -/
def ReqKind.drained : ReqKind → Bool
  | .func => false
  | .control _ => false
  | .colReq _ _ => false
  | .barrier _ _ => false
  | .drain => false
  | .signal _ => false
  | .lease => false
  | _ => true

/-- The commands of an `e0` that a drain waits for: matrix drains, and requests to islands. -/
def State.commandsOf (s : State) (core : Nat) : List Cmd :=
  let c := s.core core
  let k := s.cluster (coreCluster core)
  let mine := (k.rays.filter fun r => r.state != .ended || fieldAt r.block 0x28 8 != 0).map (·.cmd) ++
    (if k.raster.isOpen then [k.raster.cmd] else [])
    ++ k.raster.flush.toList ++ k.raster.attrs ++ k.sampler.waiting ++ k.sampler.flight.map (·.cmd)
  c.mx.queue.filter (fun x => x.word.toNat % 16 = 4) ++ (c.mx.draining.map (·.1)).toList ++ c.mx.drains.map (·.cmd)
    ++ c.islandQ.toList.flatten
    ++ mine.filter (fun x => x.elem = coreE0 core)

/-- Firings of a template that have been asked for: run, queued, and triggers that stand in their channel or are on their
way to it. -/
def State.askedFirings (s : State) (core ct : Nat) : Nat :=
  let t := (s.core core).template ct
  t.nextN + t.queued + ((s.core core).events.filter (·.1 == ct)).length
    + (((s.elem (coreE0 core)).chan (tbChan t.block)).filter (·.tag == tbTag t.block)).length

/-- What a drain that passes an element has to wait for: identifiers of requests and commands, and marks of copy
firings (DEDUCED, log 34). -/
def State.toDrain (s : State) (k : Nat) : List Nat :=
  let faulted := s.replayed.filter fun r => r.elem = k && r.kind.drained
  let reqs := (s.reqs.filter fun r => r.elem = k && r.kind.drained && !s.performedAt r 4).map (·.id)
    ++ faulted.map fun r => if r.kind = .engine then r.group else r.id
  if !isCmd k then reqs
  else
    let core := elemCore k
    let marks := ((List.range 32).filter fun ct => ((s.core core).template ct).state ≠ 0).map fun ct =>
      firingMark core ct ((s.core core).template ct).arms (s.askedFirings core ct)
    reqs ++ (s.commandsOf core).map (·.group) ++ marks

/-- Whether something that a drain covers is still outstanding: it has not come to its end, or bytes that it wrote are
not yet at the home (R261, R315). Firings of a later arm are not covered. -/
def State.outstanding (s : State) (p : Spur) (n : Nat) : Bool :=
  if n ≥ 2 ^ 64 then
    let m := n - 2 ^ 64
    let core := m / 2 ^ 64 / 32
    let ct := m / 2 ^ 64 % 32
    let t := (s.core core).template ct
    (t.state ≠ 0 && t.arms = m / 2 ^ 32 % 2 ^ 32 && t.done < m % 2 ^ 32)
      || s.reqs.any fun r => r.kind = .written ct && r.group / 2 ^ 32 = n / 2 ^ 32 && r.group ≤ n && !s.performedAt r 4
  else (s.reqs.any fun r => (r.id = n || r.group = n) && !s.performedAt r 4)
    || (p.cores.any fun c => (s.commandsOf c).any (·.group == n))
    || s.replayed.any fun r => r.id = n || (r.kind = .engine && r.group = n)

/-- `DRAIN_TOKEN_PASS` (R261): the drain token of the spur `a` passes its next element, which is not inside a
multi-beat rule. -/
def execDrainTokenPass (s : State) : Host.Outcome State Fault Refusal :=
  match s.spur? s.pick.a with
  | some p =>
    match p.drain with
    | some d =>
      match d.todo with
      | k :: rest =>
        if (s.elem k).beat.isSome then .next s
        else .next (s.updSpur p.id fun p => { p with drain := some ⟨rest, d.covered ++ s.toDrain k⟩ })
      | [] => .next s
    | none => .next s
  | none => .next s

/-- `DRAIN_END` (R261): the drain of the spur `a` ends, and every `drain` of it receives 0. -/
def execDrainEnd (s : State) : Host.Outcome State Fault Refusal :=
  match s.spur? s.pick.a with
  | some p =>
    match p.drain with
    | some d =>
      if d.todo ≠ [] || d.covered.any (s.outstanding p) then .next s
      else
        let mine (r : Req) : Bool := r.kind = .drain && p.covers (elemCore r.elem)
        let s := { s with reqs := updateIf mine (fun r => { r with phase := .answered, value := [0] }) s.reqs }
        .next (s.updSpur p.id fun p => { p with drain := none })
    | none => .next s
  | none => .next s

end Sys2Proof.Machine
end

