-- ==== Sys2Proof/Machine/ImageWrite.lean ====
section
/-!
DEFINITION. A frozen spur as a relocatable image (R39, R60, R77, R79 to R85, R353, R360): the bytes of its header and
sections, and what the layout has no place for. Bytes whose layout the specification does not give are open (DESIGN CHOICE, log 7).
-/
namespace Sys2Proof.Machine

/-- A section with its header, its body padded to 16 bytes (R81). -/
def sectionBytes (typ core elem links : Nat) (body : List Byte) : List Byte :=
  bytesOfNat 2 typ ++ bytesOfNat 1 core ++ bytesOfNat 1 elem ++ bytesOfNat 4 body.length
    ++ (if typ = 3 then bytesOfNat 2 links ++ zeros 6 else zeros 8) ++ body ++ zeros ((16 - body.length % 16) % 16)

/-! ## Elements (R82) -/

/-- The program section of an element. -/
def Elem.programBytes (e : Elem) : List Byte :=
  bytesOfWords e.slots.toList ++ bytesOfWords e.guards.toList ++ bytesOfWords e.conflict.toList
    ++ e.handlers.toList.flatMap (fun h => bytesOfNat 2 h.toNat) ++ bytesOfNat 3 e.hmask.toNat
    ++ bytesOfNat 1 (if e.join then 1 else 0) ++ zeros 10
/-- A carry word: bit 63 present. -/
def carryBytes : Option Carry → List Byte
  | some c => bytesOfNat 8 (2 ^ 63 + c.toNat)
  | none => zeros 8
/-- The words of a FIFO, 16 places of 8 bytes. -/
def fifoBytes (ws : List ChanWord) : List Byte :=
  fitTo 128 0 (ws.flatMap fun w => bytesOfNat 4 w.word.toNat ++ bytesOfNat 1 w.tag.toNat ++ zeros 3)
/-- The state section of an element. -/
def Elem.stateBytes (e : Elem) : List Byte :=
  let cd := match e.countdown with
    | some n => 2 ^ 31 + n.toNat
    | none => 0
  bytesOfWords e.d.toList ++ bytesOfNat 2 e.pend.toNat ++ bytesOfNat 1 e.p.toNat
    ++ bytesOfNat 1 (match e.active with
      | some a => a.handler
      | none => 0xFF)
    ++ bytesOfNat 4 e.owed.toNat ++ e.passes.toList.flatMap (bytesOfNat 1)
    ++ fitTo 16 0xFF (e.raised.flatMap (bytesOfNat 1)) ++ bytesOfNat 4 cd ++ zeros 3 ++ carryBytes e.ci ++ carryBytes e.co
    ++ bytesOfNat 8 e.steps.toNat ++ e.out.toList.flatMap (fun o => bytesOfNat 2 o.count)
    ++ e.fifo.toList.flatMap (fun q => bytesOfNat 1 q.length) ++ zeros 12 ++ e.fifo.toList.flatMap fifoBytes

/-! ## Links (R60, R83) -/

/-- A word in flight. -/
def flyBytes (w : ChanWord) : List Byte := bytesOfNat 4 w.word.toNat ++ bytesOfNat 1 w.tag.toNat ++ zeros 3
/-- A descriptor before its offsets, with its list and its words in flight. -/
structure DescParts where
  head : List Byte
  cap : Nat
  list : List Byte
  fly : List ChanWord

/-- The words of a link that stand in no element FIFO, oldest first; those of a port that starts it are the newest. -/
def State.flying (s : State) (l : Link) : List ChanWord :=
  let queue := match l.receiver with
    | .edgeIn cl pos q => ((s.cluster cl).edgeIn.find (edgeKey pos q)).getD []
    | .port cl n => (s.cluster cl).ports.getD n []
    | _ => []
  let source := match l.sender with
    | .port cl n => (s.cluster cl).ports.getD n []
    | _ => []
  queue ++ l.pass.reverse.flatMap (·.words) ++ l.wire ++ source

/-- The descriptor of a link of a spur. -/
def State.linkParts (s : State) (p : Spur) (l : Link) : DescParts :=
  let sender : List Byte := match l.sender with
    | .elemOut k ch => [0, BitVec.ofNat 8 (p.relOf (elemCore k)), BitVec.ofNat 8 (elemIdx k + 16 * ch)]
    | .port _ n => [1, BitVec.ofNat 8 n, 0]
    | _ => [0, 0, 0]
  let target (rk spur r rc : Nat) : List Byte := [BitVec.ofNat 8 rk, BitVec.ofNat 8 spur, BitVec.ofNat 8 r, BitVec.ofNat 8 rc]
  let receiver : List Byte := match l.receiver with
    | .elemIn k ch =>
      if p.covers (elemCore k) then target 0 0 (p.relOf (elemCore k)) (elemIdx k + 16 * ch)
      else match s.spurAt (elemCore k) with
        | some q => target 2 q.index (q.relOf (elemCore k)) (elemIdx k + 16 * ch)
        | none => target 2 0 0 (elemIdx k + 16 * ch)
    | .port _ n => target 3 0 n 0
    | .edgeIn _ pos q => target 1 0 pos q
    | _ => target 0 0 0 0
  { head := sender ++ receiver ++ bytesOfNat 1 l.pass.length
    cap := l.capacity
    list := (match l.conv with
      | some w => bytesOfWord w
      | none => []) ++ l.pass.flatMap fun f => [BitVec.ofNat 8 (p.relOf (elemCore f.elem)), BitVec.ofNat 8 (elemIdx f.elem)]
    fly := s.flying l }
/-- The descriptor of a port binding of a spur, with the words of its port. -/
def State.bindParts (s : State) (p : Spur) (b : PortBind) : DescParts :=
  let mem : List Byte := [BitVec.ofNat 8 (p.relOf (elemCore b.elem)), BitVec.ofNat 8 (elemIdx b.elem)]
  { head := (if b.inbound then [1, BitVec.ofNat 8 b.port, 0, 4, 0] ++ mem else [2] ++ mem ++ [3, 0, BitVec.ofNat 8 b.port, 0])
      ++ bytesOfNat 1 0
    cap := 16
    list := []
    fly := (s.cluster b.cluster).ports.getD b.port [] }

/-- The body of a links section: descriptors, then what their offsets name. -/
def linkBody (ds : List DescParts) : List Byte :=
  let r := ds.foldl (fun (a : Nat × List Byte × List Byte) d =>
    let off := a.1
    let fly := d.fly.flatMap flyBytes
    let head := d.head ++ bytesOfNat 2 d.cap ++ bytesOfNat 2 d.fly.length
      ++ bytesOfNat 2 (if d.list = [] then 0 else off) ++ bytesOfNat 2 (if d.fly = [] then 0 else off + d.list.length)
    (off + d.list.length + fly.length, a.2.1 ++ head, a.2.2 ++ d.list ++ fly)) (16 * ds.length, [], [])
  r.2.1 ++ r.2.2

/-! ## Cores (R84, R353) -/

/-- A template record. -/
def Template.bytes (t : Template) : List Byte :=
  let f := t.firing.getD default
  fitTo 64 0 t.block ++ bytesOfNat 8 f.pos ++ bytesOfNat 4 t.queued ++ bytesOfNat 4 t.state ++ bytesOfNat 4 f.words
    ++ bytesOfNat 4 (if f.mapBit then 1 else 0) ++ zeros 40
/-- A cairn record. -/
def Cairn.bytes (c : Cairn) : List Byte :=
  bytesOfNat 4 c.remaining ++ bytesOfNat 4 c.expected ++ bytesOfNat 1 c.ch.toNat ++ bytesOfNat 1 c.tag.toNat
    ++ bytesOfNat 1 (if c.rearm then 1 else 0) ++ zeros 5
/-- The drain state (R353): X in bits 27 to 0 of the extension, and whether the drain waits or is in progress with its
rows. -/
def drainState (c : Cmd) (rows : Option Nat) : List Byte :=
  bytesOfNat 8 (baseOf c.ops) ++ bytesOfNat 4 (xBits c.ext 0 28) ++ bytesOfNat 1 (bitsOf c.word 10 5)
    ++ bytesOfNat 1 (if rows.isSome then 2 else 1) ++ bytesOfNat 2 (rows.getD 0)
/-- The drain that waits behind a running sequence (R353). -/
def Matrix.waitingDrain (m : Matrix) : Option Cmd :=
  match m.seq, m.queue with
  | some _, c :: _ => if c.op = 4 then some c else none
  | _, _ => none
/-- The matrix section. -/
def Matrix.bytes (m : Matrix) (tick : Nat) : List Byte :=
  let tiles := m.tiles.toList
  let reads (n : Nat) : Nat := (m.queue.filter fun c => c.op = 3 && c.obj % 4 = n).length
  let drain := match m.draining, m.waitingDrain with
    | some (c, r), _ => drainState c (some r)
    | none, some c => drainState c none
    | none, none => zeros 16
  (List.range 4096).flatMap (fun i => bytesOfWord ((m.acc.find i).getD 0)) ++ tiles.flatMap (fun t => fitTo 2048 0 t.rows)
    ++ tiles.flatMap (fun t => bytesOfNat 1 ((if t.full then 1 else 0) + t.consumers % 8 * 2 + t.took.toNat * 16))
    ++ m.rules.toList.flatMap (fun r => bytesOfWord r.word ++ zeros 4)
    ++ (List.range 4).flatMap (fun n => bytesOfNat 2 (reads n))
    ++ (if m.seq.isSome then openBytes tick 0x8030 64 else zeros 64) ++ drain

/-- A command-queue entry (R39). -/
def Cmd.entry (c : Cmd) (rel q : Nat) : List Byte :=
  bytesOfNat 1 rel ++ bytesOfNat 1 q ++ bytesOfNat 1 c.slot ++ zeros 1 ++ bytesOfWord c.word
    ++ bytesOfWord (if fieldW c.word then c.ext else 0) ++ fitTo 24 0 (bytesOfWords c.ops) ++ zeros 12
/-- The entries of a core's queues. -/
def Core.entries (c : Core) (rel : Nat) : List Byte :=
  let mx := if c.mx.waitingDrain.isSome then c.mx.queue.drop 1 else c.mx.queue
  mx.flatMap (·.entry rel 0) ++ [4, 5, 6, 7].flatMap fun q => (c.queued q).flatMap (·.entry rel q)

/-! ## Controller and replays (R258, R360) -/

/-- A barrier's 8 bytes; the quiet mark stands in the flags of `b0` (DESIGN CHOICE, log 7). -/
def BarState.bytes (b : BarState) (quiet : Bool) : List Byte :=
  bytesOfNat 2 b.need ++ bytesOfNat 2 b.count ++ bytesOfNat 3 b.gen.toNat
    ++ bytesOfNat 1 ((if b.reported then 1 else 0) + if quiet then 2 else 0)
/-- A col's ticket FIFO state. -/
def Col.bytes (c : Col) : List Byte :=
  bytesOfNat 1 (c.holder.getD 0xFF) ++ bytesOfNat 1 c.fifo.length ++ zeros 2 ++ bytesOfWord c.grants
    ++ fitTo 64 0 (c.fifo.flatMap fun e => bytesOfNat 1 e.1)
/-- The controller section. -/
def Spur.controllerBytes (p : Spur) : List Byte :=
  let bars := p.bars.toList.zipIdx.flatMap fun x => x.1.bytes (x.2 = 0 && p.quiet)
  fitTo 256 0 (bars ++ match p.col with
    | some c => c.bytes
    | none => [])

/-- The operand words of a request: its address, then its operands. -/
def Req.words (r : Req) : List Word :=
  if r.kind = .engine then r.ops else wordsOf64 r.va ++ r.ops
/-- A replay or wait entry; its beat stands for the later accesses of its rule too (R360). -/
def Replay.bytes (x : Replay) (rel : Nat) : List Byte :=
  bytesOfNat 1 rel ++ bytesOfNat 1 (elemIdx x.req.elem) ++ bytesOfNat 1 x.req.slot ++ bytesOfNat 1 x.code.toNat
    ++ bytesOfWord x.req.word ++ bytesOfWord (if fieldW x.req.word then x.req.ext else 0)
    ++ fitTo 16 0 (bytesOfWords x.req.words) ++ bytesOfNat 4 x.req.beat

/-! ## The image (R79, R81) -/

/-- The element keys of a spur's elements with a program. -/
def State.usedKeys (s : State) (p : Spur) : List Nat := p.elemKeys.filter fun k => (s.elem k).role = .used

/-- Slots that a receiver freed and its sender has not counted yet are counted (R60). -/
def State.countFreed (s : State) (spur : Nat) : State :=
  (s.links.filter (·.spur == spur)).foldl (fun s l =>
    let s := s.updLink l.id fun l => { l with freed := 0 }
    match l.sender with
    | .elemOut k ch => s.updElem k (·.updOut ch fun o => { o with count := o.count + l.freed })
    | _ => s) s

/-- The islands that a ridge uses in a cluster. -/
def State.ridgeIslands (s : State) (ident cl : Nat) : Nat :=
  ((s.spursOf ident).filter (·.cluster = cl)).foldl (fun n p => n ||| p.islands.toNat % 8) 0
/-- The cluster of a spur with what the islands of its ridge keep, and nothing of the others (R72, R85). -/
def State.islandsOf (s : State) (p : Spur) : Cluster :=
  (s.cluster p.cluster).without (~~~BitVec.ofNat 8 (s.ridgeIslands p.chain p.cluster))
/-- Whether a spur's image has the island section of its cluster. -/
def State.hasIslands (s : State) (p : Spur) : Bool :=
  s.ridgeIslands p.chain p.cluster ≠ 0
    && !((s.spursOf p.chain).any fun q => q.cluster = p.cluster && q.index < p.index)

/-- Whether a link starts at the output queue of an edge-row unit: no descriptor names such a sender (R83; log 49). -/
def Link.fromUnit (l : Link) : Bool :=
  match l.sender with
  | .edgeOut _ _ _ => true
  | _ => false

/-- The sections of a frozen spur. -/
def State.frozenSections (s : State) (p : Spur) (replays : List Replay) : List (List Byte) :=
  let used := s.usedKeys p
  let links := (s.links.filter fun l => l.spur = p.id && !l.fromUnit).map (s.linkParts p) ++
    (s.binds.filter (·.spur == p.id)).map (s.bindParts p)
  let mine := replays.filter fun x => p.covers (elemCore x.req.elem)
  let cmds := p.cores.flatMap fun c => (s.core c).entries (p.relOf c)
  used.map (fun k => sectionBytes 1 (p.relOf (elemCore k)) (elemIdx k) 0 (s.elem k).programBytes)
    ++ used.map (fun k => sectionBytes 2 (p.relOf (elemCore k)) (elemIdx k) 0 (s.elem k).stateBytes)
    ++ [sectionBytes 3 0 0xFF links.length (linkBody links)]
    ++ p.cores.map (fun c => sectionBytes 4 (p.relOf c) 0xFF 0 ((s.core c).ct.toList.flatMap (·.bytes)))
    ++ p.cores.map (fun c => sectionBytes 5 (p.relOf c) 0xFF 0 ((s.core c).ca.toList.flatMap (·.bytes)))
    ++ p.cores.map (fun c => sectionBytes 6 (p.relOf c) 0xFF 0 ((s.core c).mx.bytes s.tick))
    ++ p.cores.map (fun c => sectionBytes 7 (p.relOf c) 0xFF 0
      (s.scratchRead (scratchKey p.cluster (coreIdx c * 2 ^ 17)) (2 ^ 17)))
    ++ p.cores.map (fun c => sectionBytes 8 (p.relOf c) 0xFF 0 (match (s.core c).l1 with
      | some b => bytesOfNat 8 b.1 ++ bytesOfNat 8 b.2
      | none => zeros 16))
    ++ [sectionBytes 9 0 0xFF 0 p.controllerBytes]
    ++ (if mine = [] then []
      else [sectionBytes 0x0A 0 0xFF 0 (mine.flatMap fun x => x.bytes (p.relOf (elemCore x.req.elem)))])
    ++ (if s.hasIslands p then
        [sectionBytes 0x0B 0 0xFF 0 ((s.islandsOf p).islandBytes (s.ridgeIslands p.chain p.cluster) s.tick
          fun k => p.relOf (elemCore k))] else [])
    ++ (if cmds = [] then [] else [sectionBytes 0x0C 0 0xFF 0 cmds])

/-- The image of a frozen spur: header with its CRC, and sections. -/
def State.frozenImage (s : State) (p : Spur) (replays : List Replay) : List Byte :=
  let ss := s.frozenSections p replays
  let body := ss.flatten
  let head (crc : Nat) : List Byte :=
    bytesOfNat 4 0x4D494C48 ++ bytesOfNat 2 p.version ++ bytesOfNat 2 (p.flags ||| 1#16).toNat ++ bytesOfNat 1 p.w
      ++ bytesOfNat 1 p.h ++ bytesOfNat 2 ss.length ++ bytesOfNat 4 (128 + body.length) ++ bytesOfNat 32 p.features
      ++ bytesOfNat 2 p.cluster ++ bytesOfNat 1 (8 * p.y0 + p.x0) ++ bytesOfNat 1 (8 * p.homeY + p.homeX)
      ++ bytesOfNat 2 p.stage ++ zeros 2 ++ bytesOfNat 8 (s.chainNameAt (clusterCore p.cluster p.x0 p.y0))
      ++ bytesOfNat 4 p.leaseLeft.1 ++ bytesOfNat 1 p.leaseLeft.2.1
      ++ bytesOfNat 1 p.leaseLeft.2.2 ++ bytesOfNat 1 p.islands.toNat ++ zeros 49 ++ bytesOfNat 8 crc
  head (imageCrc (head 0 ++ body)) ++ body

/-! ## What stands beside the image (DESIGN CHOICE, log 7) -/

/-- The islands' state of a cluster. -/
def Cluster.islandState (c : Cluster) : IslandState :=
  ⟨c.fmts, c.rays, c.raster, c.sampler, c.edgeOut.filter fun e => e.1 / 4 ≥ 4 && e.1 / 4 ≤ 7⟩
/-- The words in the output queues of converter nodes whose links are a spur's (R60). -/
def State.converterWords (s : State) (p : Spur) : Assoc (List ChanWord) :=
  (s.cluster p.cluster).edgeOut.filter fun e => (e.1 / 4 = 1 || e.1 / 4 = 3) && s.links.any fun l =>
    l.spur = p.id && l.sender = .edgeOut p.cluster (e.1 / 4) (e.1 % 4)
/-- Whether a captured request is kept beside the image; the others leave as wait entries (R39). -/
def Req.kept (r : Req) : Bool :=
  match r.kind with
  | .colReq _ _ => true
  | .barrier _ _ => true
  | .copy _ _ => true
  | .stopCt _ => true
  | .arm _ => true
  | _ => false
/-- What is kept beside the image of a spur. -/
def State.keptOf (s : State) (p : Spur) : Kept :=
  { index := p.index
    elems := (s.elems.filter fun e => p.covers (elemCore e.1)).map fun e =>
      (16 * p.relOf (elemCore e.1) + elemIdx e.1, e.2)
    cores := (s.cores.filter fun c => p.covers c.1).map fun c => (p.relOf c.1, c.2)
    reqs := (s.reqs.filter fun r => p.covers (elemCore r.elem) && r.kept).map fun r => (16 * p.relOf (elemCore r.elem) + elemIdx r.elem, r)
    dones := (s.dones.filter fun d => p.covers (elemCore d.elem)).map fun d =>
      (16 * p.relOf (elemCore d.elem) + elemIdx d.elem, d)
    gens := p.bars.toList.map (·.gen)
    held := (s.links.filter (·.spur == p.id)).map (·.held)
    outs := s.converterWords p
    island := if s.hasIslands p then some (s.islandsOf p).islandState else none
    phase := p.phase }

/-! ## From an image and what stands beside it back to the device (R39, R78, R360) -/

/-- The words of a FIFO with the stamps of the words that stood in its places (R236). -/
def restamp (ws old : List ChanWord) : List ChanWord :=
  ws.zipIdx.map fun x => { x.1 with stamp := (old.getD x.2 default).stamp }

/-- An element at an image's reload: what the layout has no place for comes from beside the image. -/
def Elem.withKept (e k : Elem) : Elem :=
  { e with
    fifo := Vector.ofFn fun (i : Fin 4) => restamp (e.chan i.val) (k.chan i.val)
    closed := k.closed
    active := match e.active, k.active with
      | some a, some b => if a.handler = b.handler then some b else some a
      | a, _ => a
    out := Vector.ofFn fun (i : Fin 4) => { e.outCh i.val with stage := (k.outCh i.val).stage }
    stepHi := k.stepHi
    timeHi := k.timeHi
    cfgWritten := k.cfgWritten
    cfgBad := k.cfgBad
    window := k.window }

/-- Commands of a queue by its entries in the image: each entry takes the first command of its slot and word, with the
operands and the extension that it now holds. -/
def mergeCmds : List (List Byte) → List Cmd → List Cmd
  | [], _ => []
  | e :: es, cs =>
    match takeFirst (fun c : Cmd => c.slot = byteAt e 2 && c.word = wordAt e 4) cs with
    | some (c, rest) =>
      { c with ext := if fieldW c.word then wordAt e 8 else c.ext
               ops := (List.range c.ops.length).map fun i => wordAt e (0x0C + 4 * i) } :: mergeCmds es rest
    | none => mergeCmds es cs
/-- The entries of a queue of a core in a command-queue section. -/
def queueEntries (body : List Byte) (rel q : Nat) : List (List Byte) :=
  ((List.range (body.length / 48)).map fun i => (body.drop (48 * i)).take 48).filter fun e =>
    byteAt e 0 = rel && byteAt e 1 = q
/-- Commands of another core's `e0` become those of this one. -/
def Cmd.at_ (c : Cmd) (elem : Nat) : Cmd := { c with elem := elem }

/-- A drain as the image's drain state has it, over the one that was captured, whose slot it keeps where its destination is
the same (R353). -/
def Cmd.withDrain (old img : Cmd) : Cmd :=
  { old with
    word := (old.word &&& ~~~0x7C00#32) ||| (img.word &&& 0x7C00#32)
    ext := (old.ext &&& 0xF0000000#32) ||| (img.ext &&& 0x0FFFFFFF#32)
    ops := img.ops
    dst := if bitsOf old.word 10 5 = bitsOf img.word 10 5 then old.dst else img.dst }
/-- The reads that only tokens of the image stand for: those beyond the reads of a queue (R84). -/
def moreReads (tokens queue : List Cmd) : List Cmd :=
  (List.range 4).flatMap fun n =>
    (tokens.filter fun c => c.op = 3 && c.obj = n).drop (queue.filter fun c => c.op = 3 && c.obj % 4 = n).length

/-- The matrix engine of a core at an image's reload: its sections give accumulators, tiles, rules, tokens and the drain
state; the commands themselves come from the queue section and from beside the image (R39, R84, R353). -/
def Matrix.withKept (c k : Matrix) (body : List Byte) (rel e0 : Nat) : Matrix :=
  let merged (q : List Cmd) : List Cmd := (mergeCmds (queueEntries body rel 0) q).map (·.at_ e0)
  let queue := merged (if k.waitingDrain.isSome then k.queue.drop 1 else k.queue)
  let waiting := (c.queue.filter fun x => x.op = 4).map fun x => match k.waitingDrain with
    | some d => (d.at_ e0).withDrain x
    | none => x
  { c with
    tiles := Vector.ofFn fun (t : Fin 8) =>
      let x := c.tile t.val
      let o := k.tile t.val
      { o with
        full := x.full
        rows := if x.full then x.rows else o.rows
        consumers := x.consumers
        took := x.took
        pinned := false
        cmd := o.cmd.at_ e0 }
    accBad := k.accBad
    seen := k.seen
    seq := k.seq.map fun q => { q with cmd := q.cmd.at_ e0 }
    draining := c.draining.map fun x => match k.draining with
      | some d => ((d.1.at_ e0).withDrain x.1, x.2)
      | none => x
    drains := k.drains.map fun d => { d with cmd := d.cmd.at_ e0 }
    queue := waiting ++ queue ++ moreReads c.queue queue }

/-- A core at an image's reload. -/
def Core.withKept (c k : Core) (body : List Byte) (rel e0 : Nat) : Core :=
  { c with
    ct := Vector.ofFn fun (n : Fin 32) =>
      let t := c.ct.getD n.val ⟨0, [], 0, 0, 0, false, none, 0⟩
      let o := k.ct.getD n.val ⟨0, [], 0, 0, 0, false, none, 0⟩
      { t with
        nextN := o.nextN
        done := o.done
        stopping := o.stopping
        firing := match t.firing, o.firing with
          | some f, some g => some { g with pos := f.pos, words := f.words, mapBit := f.mapBit }
          | _, _ => none }
    ca := Vector.ofFn fun (n : Fin 32) => { c.ca.getD n.val default with landed := (k.ca.getD n.val default).landed }
    events := k.events
    mx := c.mx.withKept k.mx body rel e0
    islandQ := Vector.ofFn fun (i : Fin 4) =>
      (mergeCmds (queueEntries body rel (4 + i.val)) (k.queued (4 + i.val))).map (·.at_ e0)
    drawOpen := k.drawOpen }

/-- Replays of a spur by the entries of its replay section: an entry that is gone is never issued, and one that was
edited has the operands that it now holds; with an entry go the later accesses of its rule (R360, R362). -/
def mergeReplays (rel : Nat → Nat) : List (List Byte) → List Replay → List Replay
  | [], _ => []
  | e :: es, xs =>
    match takeFirst (fun x : Replay => rel (elemCore x.req.elem) = byteAt e 0 && elemIdx x.req.elem = byteAt e 1
        && x.req.slot = byteAt e 2 && x.req.word = wordAt e 4 && x.req.beat = fieldAt e 0x1C 4) xs with
    | some (x, rest) =>
      let w (i : Nat) : Word := wordAt e (0x0C + 4 * i)
      let r := if x.req.kind = .engine then
          { x.req with ops := ((List.range 4).map w).take x.req.ops.length ++ x.req.ops.drop 4 }
        else { x.req with
          va := of64 (w 0) (w 1)
          ops := ((List.range 2).map fun i => w (i + 2)).take x.req.ops.length ++ x.req.ops.drop 2 }
      { x with req := { r with ext := if fieldW r.word then wordAt e 8 else r.ext } } :: mergeReplays rel es rest
    | none => mergeReplays rel es xs
/-- The entries of a replay section. -/
def replayEntries (body : List Byte) : List (List Byte) :=
  (List.range (body.length / 32)).map fun i => (body.drop (32 * i)).take 32

/-- A request that named an element or a core of the spur at its old place names the one at its new place. -/
def Req.moved (r : Req) (elem : Nat) : Req :=
  let core := elemCore elem
  { r with
    elem := elem
    kind := match r.kind with
      | .tile _ t i => .tile core t i
      | .mxDrain _ => .mxDrain core
      | .copy _ ct => .copy core ct
      | k => k }

end Sys2Proof.Machine
end

