-- ==== Sys2Proof/Machine/Determinism.lean ====
section
/-!
DEFINITION. The loader's check of deterministic chains (R89, R155): arrival-order merges and their consumers,
`amo.fadd`, `cfg.wr`, writes of HMASK, and the shapes of stages.
-/
namespace Sys2Proof.Machine

/-- The registers that a rule reads or writes. -/
def touchedRegs (i : Instr) (x : Word) : List Nat :=
  let u := i.view.uses x
  (u.srcs ++ u.bulk ++ u.dsts).flatMap regOf ++ u.regs

/-- Whether a code names a channel's words. -/
def namesChan (ch : Nat) (c : Code) : Bool := c.toNat = 16 + ch || c.toNat = 20 + ch

/-- The register that a rule in accumulate form writes; none where it is in no such form (R155). An atomic takes the
merged word as its operand and returns nothing; `amo.inc` reads no operand (R251). -/
def accumReg (ch : Nat) (i : Instr) : Option (List Nat) :=
  let both (o : ROp) : Option (List Nat) :=
    if isReg o.d && ((o.a = o.d && namesChan ch o.b) || (o.b = o.d && namesChan ch o.a)) then some [o.d.toNat] else none
  let left (o : ROp) : Option (List Nat) := if isReg o.d && o.a = o.d && namesChan ch o.b then some [o.d.toNat] else none
  let atomic (o : MOp) : Option (List Nat) := if namesChan ch o.data then some [] else none
  match i with
  | .add o => both o
  | .sub o => left o
  | .minI32 o => both o
  | .maxI32 o => both o
  | .minN32 o => both o
  | .maxN32 o => both o
  | .and o => both o
  | .or o => both o
  | .xor o => both o
  | .addc o => both o
  | .fmin o t => if t = 3 then none else both o
  | .fmax o t => if t = 3 then none else both o
  | .drop _ => some []
  | .addi o => if isReg o.d && o.a = o.d then some [o.d.toNat] else none
  | .amoAdd o => atomic o
  | .amoSub o => atomic o
  | .amoInc o => if isReg o.data then none else some []
  | .amoMin o => atomic o
  | .amoMax o => atomic o
  | .amoAnd o => atomic o
  | .amoOr o => atomic o
  | .amoXor o => atomic o
  | .amoFmin o => atomic o
  | .amoFmax o => atomic o
  | .amoVmin64 o => atomic o
  | _ => none

/-- The slots of the valid entry of a channel and a tag. -/
def Elem.boundSlots (e : Elem) (ch tag : Nat) : List Nat :=
  let h := e.entry (4 * ch + tag)
  if h.getLsbD 15 then
    let r := entryRange h
    (⟨4 * ch + tag, r.1, r.2⟩ : Active).slots
  else []

/-- Whether a slot holds a word that is no rule of the opcode map: neither an empty slot, nor a rule, nor the extension of
one. -/
def Elem.holdsNoRule (e : Elem) (i : Nat) : Bool :=
  fieldG (e.slot i) ≠ 0xF && !e.rules.any fun r =>
    r.1 = i || (r.1 + 1 = i && fieldW r.2.1 && field r.2.2.1 28 4 = 0xF)
/-- Whether the consumers of a merged channel obey R155 items 2 to 5; one operation kind is one cell and form number
(DESIGN CHOICE, log 64). -/
def Elem.mergedOk (e : Elem) (ch : Nat) : Bool :=
  let inside := [0, 1, 2].flatMap (e.boundSlots ch)
  let last := e.boundSlots ch 3
  let mine := e.rules.filter fun r => inside.contains r.1
  let others := e.rules.filter fun r => !inside.contains r.1 && !last.contains r.1
  let written := mine.flatMap fun r => ((accumReg ch r.2.2.2).getD []).map fun d =>
    (d, r.2.2.2.view.cellNo, r.2.2.2.view.formNo)
  !(inside.any e.holdsNoRule)
    && (mine.all fun r => (accumReg ch r.2.2.2).isSome && (r.2.2.2.view.uses r.2.2.1).done.isNone
      && (e.guard (fieldG r.2.1).toNat).extractLsb' 24 8 = 0)
    && (written.all fun d => written.all fun d' => d.1 ≠ d'.1 || d.2 = d'.2)
    && others.all fun r => (touchedRegs r.2.2.2 r.2.2.1).all fun k => !(written.any fun d => d.1 = k)

/-- The element of an image's program section. -/
def progElem (ss : List Sect) (core idx : Nat) : Elem :=
  match ss.find? fun x => x.typ = 1 && x.core = core && x.elem = idx with
  | some x => Elem.reset.withProgram x.body
  | none => Elem.reset

/-- The channel at which an output of an element ends: spur index, core, element and channel; none where its link ends
at no element (R155 item 1). -/
def mergedChannel (own : Nat) (ss : List Sect) (core idx out : Nat) : Option (Nat × Nat × Nat × Nat) :=
  match (descsOf ss).find? fun d => d.sk = 0 && d.s = core && d.sc = idx + 16 * out with
  | some d =>
    if d.rk = 0 then some (own, d.r, d.rc % 16, d.rc / 16)
    else if d.rk = 2 then some (d.spur, d.r, d.rc % 16, d.rc / 16)
    else none
  | none => none

/-- Whether a rule of an element stands in a deterministic chain. -/
def ruleAllowed (stage : List (List Sect)) (own : Nat) (ss : List Sect) (core idx : Nat) (i : Instr) : Bool :=
  match i with
  | .amoFadd _ => false
  | .cfgWr _ => false
  | .sysWr o => o.num ≠ 0x0E
  | .amrg o =>
    isOut o.d && match mergedChannel own ss core idx (o.d.toNat % 4) with
      | some (j, c, k, ch) => (progElem (stage.getD j []) c k).mergedOk ch
      | none => false
  | _ => true

/-- The first rule of an image that breaks the check: relative core, element, slot. -/
def firstOffender (stage : List (List Sect)) (own : Nat) (ss : List Sect) : Option (Nat × Nat × Nat) :=
  ((List.range 64).flatMap fun c => (List.range 16).map fun e => (c, e)).findSome? fun p =>
    if (usedElems ss).contains p then
      ((progElem ss p.1 p.2).rules.find? fun r => !ruleAllowed stage own ss p.1 p.2 r.2.2.2).map fun r => (p.1, p.2, r.1)
    else none

/-- The first offender of a stage: spur index, relative core, element, slot. -/
def stageOffender (stage : List (List Sect)) : Option (Nat × Nat × Nat × Nat) :=
  stage.zipIdx.findSome? fun x => (firstOffender stage x.2 x.1).map fun o => (x.2, o)

end Sys2Proof.Machine
end

