-- ==== Sys2Proof/Machine/Launch.lean ====
section
/-!
DEFINITION. From a launch queue to a started ridge (R66 to R74, R89, R368, R369): taking and checking records, waiting,
placement, fetching images, and start.
-/
namespace Sys2Proof.Machine

/-! ## Reading a chain's tables (R67, R69, R122) -/

/-- The 64 bytes of a stage table entry. -/
def State.stageEntry (s : State) (c : Chain) (stage : Nat) : Except (Nat × Nat) (List Byte) :=
  s.readVirt c.root (needRead c) (c.stageTable + 64 * stage) 64
/-- The spur list entries of a stage, 32 bytes each. -/
def State.spurList (s : State) (c : Chain) (e : List Byte) : Except (Nat × Nat) (List (List Byte)) :=
  match s.readVirt c.root (needRead c) (fieldAt e 0 8) (32 * fieldAt e 8 2) with
  | .error x => .error x
  | .ok bs => .ok ((List.range (fieldAt e 8 2)).map fun i => (bs.drop (32 * i)).take 32)
/-- The bytes of an image: the fetch agent needs read and image-execute permission (R122). -/
def State.readImage (s : State) (c : Chain) (addr len : Nat) : Except (Nat × Nat) (List Byte) :=
  s.readVirt c.root ⟨true, false, true, c.privileged⟩ addr len

/-- A function on every element of a list, or the first error. -/
def mapE {α β ε : Type} (f : α → Except ε β) : List α → Except ε (List β)
  | [] => .ok []
  | x :: xs =>
    match f x, mapE f xs with
    | .error e, _ => .error e
    | _, .error e => .error e
    | .ok y, .ok ys => .ok (y :: ys)

/-! ## Checks of a record (R70) -/

/-- The first offset at which a test holds. -/
def firstBad (l : List (Nat × Bool)) : Option Nat := (l.find? (·.2)).map (·.1)
/-- The offsets of a reserved range, each bad where its byte is not zero. -/
def reserved (b : List Byte) (off n : Nat) : List (Nat × Bool) :=
  (List.range n).map fun i => (off + i, byteAt b (off + i) ≠ 0)

/-- The first bad field of a chain record from a queue. -/
def badRecord (q : Nat) (r : List Byte) : Option Nat :=
  let f (off n : Nat) : Nat := fieldAt r off n
  firstBad [(2, byteAt r 2 ≠ q), (3, byteAt r 3 ≥ 4), (4, f 4 2 = 0 || f 4 2 > 256), (0x10, f 0x10 8 % 64 ≠ 0),
    (0x18, f 0x18 8 % 64 ≠ 0), (0x20, f 0x20 4 = 0), (0x28, f 0x28 8 % 4096 ≠ 0), (0x30, f 0x30 8 % 64 ≠ 0),
    (0x38, f 0x38 8 % 65536 ≠ 0), (0x50, f 0x50 8 % 8 ≠ 0)]
/-- The first bad field of a stage table entry. -/
def badStage (e : List Byte) : Option Nat :=
  let count : Bool := fieldAt e 8 2 = 0 || fieldAt e 8 2 > 96
  let params : Bool := fieldAt e 0x10 8 % 64 ≠ 0
  firstBad ([(8, count)] ++ reserved e 0x0A 6 ++ [(0x10, params)] ++ reserved e 0x18 40)
/-- The first bad field of a spur list entry of index i. -/
def badEntry (i : Nat) (e : List Byte) : Option Nat :=
  let w := byteAt e 0x0C
  let h := byteAt e 0x0D
  let p := byteAt e 0x0E
  firstBad ([(0x0C, w = 0 || w > 8), (0x0D, h = 0 || h > 8), (0x0E, p ≥ 4), (0x0F, p = 2 && byteAt e 0x0F ≥ i),
    (0x10, (p = 1 || p = 3) && fieldAt e 0x10 2 > 95), (0x12, p = 3 && byteAt e 0x12 + w > 8),
    (0x13, p = 3 && byteAt e 0x13 + h > 8)] ++ reserved e 0x14 12)

/-- How a chain fails before it starts: a fault of the fetch agent, or a rejection with what its record names. -/
inductive Refuse where
  | fault (code addr : Nat)
  | reject (sub addr stage spur slot : Nat) (elem : Option Nat)
  deriving DecidableEq, Repr

/-- The first refusal that a function finds in a list. -/
def firstRefuse {α : Type} (f : α → Option Refuse) : List α → Option Refuse := List.findSome? f

/-- Whether the parameter block of a stage entry can be read, where it gives one (R67, R70). -/
def State.checkParams (s : State) (c : Chain) (e : List Byte) : Option Refuse :=
  if fieldAt e 0x10 8 = 0 then none
  else match s.readVirt c.root (needRead c) (fieldAt e 0x10 8) 160 with
    | .error (code, a) => some (.fault code a)
    | .ok _ => none

/-- The check of one stage's entry, parameter block and spur list; a bad field's offset counts from the start of its
table or list (R369). -/
def State.checkStage (s : State) (c : Chain) (stage : Nat) : Option Refuse :=
  match s.stageEntry c stage with
  | .error (code, a) => some (.fault code a)
  | .ok e =>
    match badStage e with
    | some off => some (.reject 6 (64 * stage + off) stage 0xFFFE 0xFF none)
    | none =>
      match s.checkParams c e, s.spurList c e with
      | some r, _ => some r
      | none, .error (code, a) => some (.fault code a)
      | none, .ok l => l.zipIdx.findSome? fun x =>
          (badEntry x.2 x.1).map fun off => .reject 6 (32 * x.2 + off) stage x.2 0xFF none

/-- The sections of a stage's images, for the deterministic check; an image that cannot be taken apart has none, and is
rejected when it is fetched. -/
def State.stageSections (s : State) (c : Chain) (stage : Nat) : Except (Nat × Nat) (List (List Byte × List Sect)) :=
  match s.stageEntry c stage with
  | .error e => .error e
  | .ok e =>
    match s.spurList c e with
    | .error e => .error e
    | .ok l => mapE (fun x =>
        match s.readImage c (fieldAt x 0 8) (fieldAt x 8 4) with
        | .error e => .error e
        | .ok bs => .ok (x, match sections bs with
          | .ok ss => ss
          | .error _ => [])) l

/-- The check of a deterministic chain (R89, R155). -/
def State.checkDeterministic (s : State) (c : Chain) : Option Refuse :=
  match mapE (s.stageSections c) (List.range c.stageCount) with
  | .error (code, a) => some (.fault code a)
  | .ok stages =>
    let shape (l : List (List Byte × List Sect)) : List (Nat × Nat) := l.map fun x => (byteAt x.1 0x0C, byteAt x.1 0x0D)
    let first := shape (stages.headD [])
    stages.zipIdx.findSome? fun st =>
      if shape st.1 ≠ first then
        let at_ := ((List.range (max first.length st.1.length)).find? fun i => (shape st.1)[i]? ≠ first[i]?).getD 0
        some (.reject 1 0 st.2 at_ 0xFF none)
      else
        (stageOffender (st.1.map (·.2))).map fun o =>
          .reject 1 0 st.2 o.1 o.2.2.2 (some (coreElem (clusterCore 0 (o.2.1 % 8) (o.2.1 / 8)) o.2.2.1))

/-- The whole check of a record (R70, R89). -/
def State.checkChain (s : State) (q : Nat) (c : Chain) : Option Refuse :=
  match badRecord q c.record with
  | some off => some (.reject 6 off 0 0xFFFF 0xFF none)
  | none =>
    match (List.range c.stageCount).findSome? (s.checkStage c) with
    | some r => some r
    | none => if c.flagD then s.checkDeterministic c else none

/-- Whether a chain's completion record can be written. -/
def State.completable (s : State) (c : Chain) : Bool :=
  c.completion % 64 = 0 && s.mapped c.root (needWrite c) c.completion 64

/-- A chain ends with a record that names why, when the fault area has room, and with its completion record (R368). -/
def State.refuse (s : State) (ident : Nat) (r : Refuse) : State :=
  match s.chain? ident with
  | none => s
  | some c =>
    let free := Config.noElement s.tick
    let (f, status, sub) : FaultInfo × Nat × Nat :=
      match r with
      | .fault code a => ({ code := code, final := true, elem := free, addr := a, stage := c.stage }, 2, 0)
      | .reject sub a stage spur slot elem =>
        ({ code := 0x7A, sub := sub, final := true, elem := elem.getD free, addr := a, slot := slot, stage := stage
           spur := spur }, (if sub = 7 then 2 else 1), sub)
    let s := if c.faultArea % 64 = 0 && s.recordFree c c.faults then s.putRecord c (s.recordBytes c f) else s
    let s := if s.completable c then s else s.countPreg 0x29A
    s.endChain ident status (if status = 1 then sub else 0)

/-! ## Taking a record (R68, R69, R71) -/

/-- The chains of a home scheduler that are not yet complete. -/
def State.tableOf (s : State) (m : Nat) : List Chain := s.chains.filter fun c => c.home = m && !c.system

/-- A chain joins its scheduler's waiting list, behind the others. -/
def State.lastOrder (s : State) : Nat := (s.chains.map (·.order)).foldl max 0 + 1

/-- A chain of a record taken by a scheduler (DESIGN CHOICE, log 21). -/
def State.newChain (s : State) (m : Nat) (r : List Byte) : Chain :=
  let id := fieldAt r 0x08 8
  { (default : Chain) with
    ident := if (s.chain? id).isSome then 2 ^ 64 + s.nextId else id
    record := r
    home := m
    phase := .waiting
    effPrio := byteAt r 2
    order := s.lastOrder
    waitNs := s.timeNs.toNat }

/-- The highest queue that holds a record. -/
def State.topQueue (s : State) : Option Nat := ((List.range 16).reverse).find? fun q => s.lqFill q > 0

/-- A scheduler of a massif has taken a record of a queue: a resume record goes on to its chain's scheduler, a chain
record is checked, any other one is discarded (R70). -/
def State.takeRecord (s : State) (m q : Nat) (r : List Byte) : State :=
  match fieldAt r 0 2 with
  | 2 => { s with resumes := s.resumes ++ [bytesOfNat 1 q ++ r] }
  | 1 =>
    let c := s.newChain m r
    let t := { s.bump with chains := s.chains ++ [c] }
    match t.checkChain q c with
    | none => t
    | some (.fault code a) => t.refuse c.ident (.fault code a)
    | some why => if t.completable c then t.refuse c.ident why else s.countPreg 0x29A
  | _ => s.countPreg 0x29A

/-- `CHAIN_RECORD_TAKE` (R69, R70): the scheduler of the massif `a` takes the record at the head of the highest queue
that is not empty, when it has room. -/
def execChainRecordTake (s : State) : Host.Outcome State Fault Refusal :=
  let m := s.pick.a
  if !s.started || (s.preg 0x295).getLsbD 3 || m ≥ 4 || (s.tableOf m).length ≥ 256 then .next s
  else
    match s.topQueue with
    | none => .next s
    | some q =>
      let h := s.lqHead q
      let t := s.setPreg (0x2F0 + q) (BitVec.ofNat 32 ((h + 1) % (2 * s.lqSize q)))
      .next (t.takeRecord m q (s.lqRecord q h))

/-- `PRIORITY_AGING` (R71): 4 ms of waiting raise the effective priority of the chain `a`, up to 15. A held chain does
not age (R359). -/
def execPriorityAging (s : State) : Host.Outcome State Fault Refusal :=
  match s.chain? s.pick.a with
  | some c =>
    if c.phase = .waiting && c.waitNs + 4000000 ≤ s.timeNs.toNat then
      .next (s.updChain c.ident fun c => { c with effPrio := min 15 (c.effPrio + 1), waitNs := c.waitNs + 4000000 })
    else .next s
  | none => .next s

/-! ## Placement (R65, R72, R86) -/

/-- What the placer needs of a spur: index, shape, placement field with its j, cluster and origin, the islands and the
image of its header, a fixed origin of an edge-linked image (R86), the spurs whose cluster it must share, and the spur
whose massif it must share (R72). -/
structure Want where
  index : Nat
  w : Nat
  h : Nat
  mode : Nat
  cluster : Nat
  x0 : Nat
  y0 : Nat
  islands : Nat
  image : Nat
  length : Nat
  origin : Option Nat
  same : List Nat
  group : Nat
  deriving DecidableEq, Repr

/-- Whether a placed rectangle covers a core of its cluster. -/
def Place.covers (p : Place) (x y : Nat) : Bool := p.x0 ≤ x && x < p.x0 + p.w && p.y0 ≤ y && y < p.y0 + p.h
/-- The places that stand before their images are loaded, of chains other than one. -/
def State.placedOf (s : State) (ident : Nat) : List Place :=
  (s.chains.filter fun c => c.phase = .placed && c.ident ≠ ident).flatMap (·.places)
/-- Whether a cluster takes part in placement: its bit is clear, and it does not wait for its regulator (R397). -/
def State.clusterOn (s : State) (cl : Nat) : Bool :=
  !(s.preg (0x235 + cl / 32)).getLsbD (cl % 32) && !(s.cluster cl).returning

/-- Whether a rectangle of a cluster holds only free cores. -/
def State.rectFree (s : State) (ident : Nat) (done : List Place) (cl x0 y0 w h : Nat) : Bool :=
  let taken := (done ++ s.placedOf ident).filter (·.cluster = cl)
  (List.range h).all fun j => (List.range w).all fun i =>
    (s.spurAt (clusterCore cl (x0 + i) (y0 + j))).isNone && !(taken.any fun p => p.covers (x0 + i) (y0 + j))
/-- Whether no spur of another chain uses one of the islands in a cluster. -/
def State.islandsFree (s : State) (ident cl islands : Nat) : Bool :=
  !(s.spurs.any fun p => p.cluster = cl && p.chain ≠ ident && p.islands.toNat &&& islands ≠ 0)
    && !((s.placedOf ident).any fun p => p.cluster = cl && p.islands &&& islands ≠ 0)

/-- The clusters of the package in the order of a home massif. -/
def clusterOrder (m : Nat) : List Nat := (List.range 96).map fun i => (24 * m + i) % 96

/-- The clusters that a spur may go to, in the order in which they are tried. -/
def clustersFor (m : Nat) (done : List Place) (w : Want) : List Nat :=
  let at_ (i : Nat) : Option Nat := (done.find? (·.index = i)).map (·.cluster)
  let all := if w.group = w.index then clusterOrder m
    else match at_ w.group with
      | some cl => (List.range 24).map fun i => cl / 24 * 24 + i
      | none => clusterOrder m
  all.filter fun cl => (w.same.all fun j => at_ j = some cl) && (!(w.mode = 1 || w.mode = 3) || cl = w.cluster)
/-- The origins that a spur may take, in row order. -/
def originsFor (w : Want) : List (Nat × Nat) :=
  let all := (List.range (9 - w.h)).flatMap fun y => (List.range (9 - w.w)).map fun x => (x, y)
  all.filter fun o => (w.mode ≠ 3 || o = (w.x0, w.y0)) && (match w.origin with
    | some k => 8 * o.2 + o.1 = k
    | none => true)

/-- The place of one spur. -/
def State.placeOne (s : State) (ident m : Nat) (done : List Place) (w : Want) : Option Place :=
  (clustersFor m done w).findSome? fun cl =>
    if !s.clusterOn cl || !s.islandsFree ident cl w.islands then none
    else
      ((originsFor w).find? fun o => s.rectFree ident done cl o.1 o.2 w.w w.h).map fun o =>
        ⟨w.index, cl, o.1, o.2, w.w, w.h, w.islands, w.image, w.length⟩
/-- The places of a stage's spurs in list order; none when one does not fit. -/
def State.placeAll (s : State) (ident m : Nat) : List Want → List Place → Option (List Place)
  | [], done => some done
  | w :: ws, done =>
    match s.placeOne ident m done w with
    | some p => s.placeAll ident m ws (done ++ [p])
    | none => none

/-- The groups of spurs that links join: the first spur of each spur's group (R72). -/
def linkGroups (links : List (Nat × Nat)) (n : Nat) : List Nat :=
  (List.range n).foldl (fun lab _ =>
    links.foldl (fun (lab : List Nat) l =>
      let k := min (lab.getD l.1 l.1) (lab.getD l.2 l.2)
      (lab.set l.1 k).set l.2 k) lab) (List.range n)

/-- The images that a stage of a chain is loaded from: those of the spur list, or the stored ones (R78). -/
def Chain.imageOf (c : Chain) (i : Nat) (e : List Byte) : Nat × Nat :=
  match c.saved.find? (·.1 = i) with
  | some x => (x.2.1, x.2.2)
  | none => (fieldAt e 0 8, fieldAt e 8 4)

/-- What the placer reads of an image: its header and its links section (R70, R72). -/
structure Front where
  header : List Byte
  links : Option Sect
  deriving DecidableEq, Repr, Inhabited

/-- The links section of an image from an offset on; none where it has none in its length. -/
def State.linksFrom (s : State) (c : Chain) (addr len : Nat) : Nat → Nat → Except (Nat × Nat) (Option Sect)
  | 0, _ => .ok none
  | n + 1, off =>
    if off + 16 > len then .ok none
    else match s.readImage c (addr + off) 16 with
      | .error e => .error e
      | .ok h =>
        let m := fieldAt h 4 4
        if off + 16 + m > len then .ok none
        else if fieldAt h 0 2 = 3 then
          match s.readImage c (addr + off + 16) m with
          | .error e => .error e
          | .ok b => .ok (some ⟨3, byteAt h 2, byteAt h 3, off, fieldAt h 8 2, b⟩)
        else s.linksFrom c addr len n (off + 16 + (m + 15) / 16 * 16)
/-- The front of an image. -/
def State.readFront (s : State) (c : Chain) (addr len : Nat) : Except (Nat × Nat) Front :=
  match s.readImage c addr (min len 128) with
  | .error e => .error e
  | .ok h =>
    match s.linksFrom c addr len (fieldAt h 0x0A 2) 128 with
    | .error e => .error e
    | .ok x => .ok ⟨h, x⟩
/-- Its link descriptors. -/
def Front.descs (f : Front) : List Desc := descsOf f.links.toList

/-- The stored images whose spurs share the islands of a cluster with that of index i: those that use an island there,
and the first one of that cluster, which has the island section (R85, R86). -/
def islandMates (imgs : List Front) (i : Nat) : List Nat :=
  let cl (j : Nat) : Nat := fieldAt (imgs.getD j default).header 0x30 2
  let here := (List.range imgs.length).filter fun j => cl j = cl i
  let users := here.filter fun j => byteAt (imgs.getD j default).header 0x46 ≠ 0
  let mates := if users = [] then [] else setAdd users (here.headD 0)
  if mates.contains i then mates.filter (· < i) else []

/-- The wants of a stage from its list entries and the fronts of its images. -/
def wantsOf (c : Chain) (l : List (List Byte)) (imgs : List Front) : List Want :=
  let joined := imgs.zipIdx.flatMap fun x => (x.1.descs.filter fun d => d.rk = 2).map fun d => (x.2, d.spur)
  let groups := linkGroups joined l.length
  let stored := c.saved ≠ []
  l.zipIdx.map fun x =>
    let e := x.1
    let i := x.2
    let b := (imgs.getD i default).header
    let im := c.imageOf i e
    { index := i
      w := byteAt e 0x0C
      h := byteAt e 0x0D
      mode := byteAt e 0x0E
      cluster := fieldAt e 0x10 2
      x0 := byteAt e 0x12
      y0 := byteAt e 0x13
      islands := byteAt b 0x46 % 8
      image := im.1
      length := im.2
      origin := if stored && (fieldAt b 6 2).testBit 1 then some (byteAt b 0x32) else none
      same := (if byteAt e 0x0E = 2 then [byteAt e 0x0F] else []) ++ if stored then islandMates imgs i else []
      group := groups.getD i i }

/-- What placing a stage of a chain needs, or how the chain fails. -/
def State.stageWants (s : State) (c : Chain) : Except Refuse (List Want) :=
  match s.stageEntry c c.stage with
  | .error (code, a) => .error (.fault code a)
  | .ok e =>
    match s.spurList c e with
    | .error (code, a) => .error (.fault code a)
    | .ok l =>
      match mapE (fun x => s.readFront c (c.imageOf x.2 x.1).1 (c.imageOf x.2 x.1).2) l.zipIdx with
      | .error (code, a) => .error (.fault code a)
      | .ok imgs =>
        let bad := imgs.zipIdx.find? fun x => x.1.descs.any fun d => d.rk = 2 && d.spur ≥ l.length
        match bad with
        | some x => .error (.reject 5 ((x.1.links.map (·.off)).getD 0) c.stage x.2 0xFF none)
        | none => .ok (wantsOf c l imgs)

/-! ## The waiting list and pre-emption (R71, R73) -/

/-- Whether a waiting chain stands before another of the same scheduler. -/
def Chain.ahead (a b : Chain) : Bool :=
  a.home = b.home && a.phase = .waiting && a.ident ≠ b.ident
    && (a.effPrio > b.effPrio || (a.effPrio = b.effPrio && a.order < b.order))
/-- Whether a waiting chain could be placed now. -/
def State.placeable (s : State) (c : Chain) : Bool :=
  match s.stageWants c with
  | .ok ws => (s.placeAll c.ident c.home ws []).isSome
  | .error _ => true
/-- Whether it is a chain's turn: no chain before it in its scheduler's list can be placed (DEDUCED, log 22). -/
def State.turnOf (s : State) (c : Chain) : Bool := !(s.chains.any fun a => a.ahead c && s.placeable a)

/-- The round robin among equals goes on behind the chain that is placed. -/
def State.rotate (s : State) (c : Chain) : State :=
  let n := s.lastOrder
  { s with chains := s.chains.map fun a =>
      if a.home = c.home && a.phase = .waiting && a.effPrio = c.effPrio && a.order < c.order then
        { a with order := a.order + n } else a }

/-- A freeze wave is sent to a chain's ridge: its leases end, its pins are released, and its copy firings park (R77). -/
def State.sendFreeze (s : State) (ident : Nat) : State :=
  ((s.updChain ident fun c => { c with frozen := true }).returnLeases ident).quietCores ident

/-- The victims that a chain may consider, in the order in which they are taken (R73). -/
def State.victims (s : State) (prio : Nat) (fits : Chain → Bool) : List Chain :=
  let all := s.chains.filter fun v => (v.phase = .started || v.phase = .held) && !v.frozen && !v.system
    && v.effPrio < prio && fits v
  let before (a b : Chain) : Bool := a.effPrio < b.effPrio || (a.effPrio = b.effPrio && a.ridgeNs ≥ b.ridgeNs)
  all.mergeSort before

/-- The least number of victims whose cores let a stage be placed. -/
def State.victimsFor (s : State) (c : Chain) (ws : List Want) (vs : List Chain) : Option (List Chain) :=
  ((List.range (vs.length + 1)).map vs.take).find? fun l =>
    let t := { s with spurs := s.spurs.filter fun p => !(l.any (·.ident = p.chain)) }
    (t.placeAll c.ident c.home ws []).isSome

/-- A stage is placed, or victims are frozen for it. -/
def State.placeStage (s : State) (c : Chain) (fits : Chain → Bool) : State :=
  match s.stageWants c with
  | .error why => s.refuse c.ident why
  | .ok ws =>
    match s.placeAll c.ident c.home ws [] with
    | some ps =>
      (s.rotate c).updChain c.ident fun c => { c with phase := .placed, places := ps, effPrio := c.prio }
    | none =>
      if c.prio < 12 || s.chains.any (·.frozen) then s
      else
        match s.victimsFor c ws (s.victims c.prio fits) with
        | some vs => vs.foldl (fun s v => s.sendFreeze v.ident) s
        | none => s

/-! ## Fetching and start (R74) -/

/-- The spur of a place, before its image is loaded. -/
def Place.spur (p : Place) (id chain stage : Nat) (b : List Byte) : Spur :=
  newSpur id chain p.index stage p.cluster p.x0 p.y0 p.w p.h p.image p.length b

/-- The check of one image of a placed stage. -/
def State.checkImage (s : State) (c : Chain) (p : Place) (b : List Byte) : Option Refuse :=
  (s.imageCheck (p.spur 0 c.ident c.stage b) (c.places.map fun q => (q.index, q.w, q.h)) p.image b).map fun r =>
    .reject r.sub r.addr c.stage p.index r.slot (if r.sub = 2 then some r.elem else none)

/-- Whether the frozen image of index i lacks the island section that R81 requires of it: that of the first spur of a
cluster whose islands the ridge uses. -/
def lacksIslands (imgs : List (List Byte)) (i : Nat) : Bool :=
  let b := imgs.getD i []
  let here := (List.range imgs.length).filter fun j => fieldAt (imgs.getD j []) 0x30 2 = fieldAt b 0x30 2
  (fieldAt b 6 2).testBit 0 && here.head? = some i && here.any (fun j => byteAt (imgs.getD j []) 0x46 % 8 ≠ 0)
    && match sections b with
      | .ok ss => !(ss.any (·.typ == 0x0B))
      | .error _ => false

/-- The images of a chain's places, checked. -/
def State.fetchImages (s : State) (c : Chain) : Except Refuse (List (Place × List Byte)) :=
  match mapE (fun p => s.readImage c p.image p.length) c.places with
  | .error (code, a) => .error (.fault code a)
  | .ok bs =>
    let l := c.places.zip bs
    match l.findSome? fun x => s.checkImage c x.1 x.2 with
    | some r => .error r
    | none =>
      match l.zipIdx.find? fun x => lacksIslands (l.map (·.2)) x.2 with
      | some x => .error (.reject 5 0 c.stage x.1.1.index 0xFF none)
      | none => .ok l

/-- What other chains' spurs left in the islands that a spur uses goes. -/
def State.evictLeft (s : State) (p : Spur) : State :=
  let mine (x : Nat × BitVec 8) : Bool := x.1 = p.cluster && x.2 &&& p.islands ≠ 0
  s.chains.foldl (fun (s : State) c =>
    if c.ident = p.chain || !c.isl.any mine then s
    else (c.isl.filter mine).foldl (fun s x => s.freeIslands x.1 (x.2 &&& p.islands))
      (s.updChain c.ident fun c => { c with isl := c.isl.map fun x => if mine x then (x.1, x.2 &&& ~~~p.islands) else x })) s

/-- The spurs of places with their images stand in the device, not started; then their links are bound, so that a link
finds its receiver in another spur. What other chains left in the islands that a spur uses is freed first (DESIGN
CHOICE, log 53). It names a spur and the offset of a section whose template is not valid in a fresh image (R84, R369).
-/
def State.loadSpurs (s : State) (c : Chain) (l : List (Place × List Byte)) (stage : Nat) : State × Option (Nat × Nat) :=
  let secs (b : List Byte) : List Sect := match sections b with
    | .ok ss => ss
    | .error _ => []
  let (s, ps) := l.foldl (fun (a : State × List (Spur × List Byte)) x =>
    let p := x.1.spur a.1.nextId c.ident stage x.2
    ({ a.1.bump with spurs := a.1.spurs ++ [p] }, a.2 ++ [(p, x.2)])) (s, [])
  let s := ps.foldl (fun s x => s.evictLeft x.1) s
  let s := ps.foldl (fun s x => (s.loadElems x.1 (secs x.2)).loadCores x.1 (secs x.2)) s
  let s := ps.foldl (fun s x => s.loadLinks x.1 (secs x.2) ((fieldAt x.2 6 2).testBit 0)) s
  ps.foldl (fun (a : State × Option (Nat × Nat)) x =>
    if (fieldAt x.2 6 2).testBit 0 then a
    else
      let (t, bad) := a.1.freshTemplates x.1
      (t, a.2 <|> bad.map fun core =>
        let sec := (secs x.2).find? fun y => y.typ = 4 && x.1.coreOf y.core = core
        (x.1.index, (sec.map (·.off)).getD 0))) (s, none)

/-- `IMAGE_FETCH` (R74): the images of the placed stage of the chain `a` are fetched, checked and loaded. -/
def execImageFetch (s : State) : Host.Outcome State Fault Refusal :=
  match s.chain? s.pick.a with
  | some c =>
    if c.phase ≠ .placed || c.saved ≠ [] then .next s
    else
      match s.fetchImages c with
      | .error why => .next (s.refuse c.ident why)
      | .ok l =>
        match s.loadSpurs c l c.stage with
        | (t, none) => .next (t.updChain c.ident fun c => { c with phase := .fetched, places := [] })
        | (_, some bad) => .next (s.refuse c.ident (.reject 5 bad.2 c.stage bad.1 0xFF none))
  | none => .next s

end Sys2Proof.Machine
end

