-- ==== Sys2Proof/Machine/Freeze.lean ====
section
/-!
DEFINITION. The freeze of a ridge and the storing of its images (R38, R39, R73, R77, R85, R354, R362, R364, R369, R385).
A freeze is sent by setting a mark in the chain (`State.sendFreeze`, `State.hold`); its agents come to rest by themselves,
and `FREEZE_WAVE` takes the steps that follow.
-/
namespace Sys2Proof.Machine

/-! ## What a freeze waits for (R38, R39, R77 steps 1 to 5) -/

/-- Whether an access waits at its port for what only a rule of the ridge could bring about: a word or a free entry at a
port that no queue pair serves (R39, R247) (DEDUCED, log 7). -/
def State.portStuck (s : State) (r : Req) : Bool :=
  let cl := elemCluster r.elem
  let n := r.va.toNat
  r.space = 3 && r.phase = .waiting && (s.portLinked cl n (r.kind != .store) || !s.ethPort cl n && (match r.kind with
    | .load _ => s.portWords cl n = []
    | _ => decide ((s.portWords cl n).length ≥ 16)))

/-- Whether a free waits for what only a rule could bring about: for a mark, with its cell's newest entry above the
watermark that reaches the slice, or for a settled load whose step is (R39, R151) (DEDUCED, log 7). -/
def State.freeStuck (s : State) (r : Req) : Bool :=
  (match r.kind with
    | .orcCtl .free _ => true
    | _ => false) && r.phase = .waiting &&
  match r.pa.bind s.cellAt with
  | none => false
  | some c =>
    let top := match s.domain? c.domain with
      | some d => if d.reaches (sliceOf c.word) then max d.w.toNat (s.viewOf c).toNat else (s.viewOf c).toNat
      | none => 0
    (c.history.any fun e => decide (top < stampStep e.stamp))
      || s.reqs.any fun q => q.waitsAt c.word && decide (top < q.settleStep)

/-- Whether a release waits behind an earlier write that is one of `xs`, or that waits as a replay entry (R134, R360). -/
def State.releaseHeld (s : State) (xs : List Nat) (r : Req) : Bool :=
  r.rel && ((s.earlierWrites r).any (fun q => xs.contains q.id) || s.replayBefore r)
/-- Requests that join `xs`: those whose release or whose order holds them behind one of it, until none does. -/
def State.heldWith (s : State) : Nat → List Nat → List Nat
  | 0, xs => xs
  | n + 1, xs =>
    let more := s.reqs.filter fun r => (r.phase = .sent || r.phase = .ready) && !xs.contains r.id
      && (s.releaseHeld xs r || (s.aheadOf r).any fun q => xs.contains q.id)
    if more.isEmpty then xs else s.heldWith n (xs ++ more.map (·.id))
/-- Requests that cannot go on unless a rule of a frozen ridge fires: frees that are stuck, and what is held behind one or
behind a replay entry (R39) (DEDUCED, log 7). -/
def State.stuck (s : State) : List Nat := s.heldWith s.reqs.length ((s.reqs.filter s.freeStuck).map (·.id))

/-- A request that an image captures rather than the freeze waiting for it: a settled load that has not settled, a col
or barrier that is waited for, a drain, a copy firing and a stop or an arm of a template at rest, and an access that only
rules could let go on (R39). -/
def State.captured (s : State) (r : Req) : Bool :=
  r.phase ≠ .answered && (match r.kind with
    | .colReq _ _ => true
    | .barrier _ _ => true
    | .drain => true
    | .copy _ _ => true
    | .stopCt _ => true
    | .arm _ => true
    | .orcLoad settled _ => settled && r.phase = .waiting
    | .load _ => s.portStuck r || s.stuck.contains r.id
    | .store => s.portStuck r || s.stuck.contains r.id
    | _ => s.stuck.contains r.id)

/-- Whether a freeze has nothing of a request to wait for: it is captured, or it has landed and owes nothing. -/
def State.reqAtRest (s : State) (r : Req) : Bool :=
  s.captured r || (r.dst = .none && (r.phase = .landed || r.phase = .performed)
    && s.dones.all fun d => d.group ≠ r.group || s.performedAt r d.scope)

/-- Whether a done token waits for a captured request or for a replay. -/
def State.doneAtRest (s : State) (c : Chain) (d : Done) : Bool :=
  s.reqs.any (fun r => r.group = d.group && s.captured r) || c.replays.any fun x => x.req.group = d.group

/-- Whether a firing waits at a stream port for what only others bring about. -/
def State.firingStuck (s : State) (core : Nat) (b : List Byte) (f : Firing) : Bool :=
  let cl := coreCluster core
  (tbSrcKind b = 2 && f.buf = [] && s.sourceWords cl (tbSrc b) = [])
    || (tbDstKind b = 2 && f.buf ≠ [] && s.portWords cl (tbDst b) ≠ [])
/-- Whether a copy firing has come to rest (R77 step 3). -/
def State.templateAtRest (s : State) (core : Nat) (t : Template) : Bool :=
  match t.firing with
  | none => true
  | some f => f.faulted || (t.state = 2 && f.atParking t.block) || s.firingStuck core t.block f

/-- Whether the matrix engine of a core has come to rest (R77 step 4); a drain in progress stands between two of its
rows (R353). -/
def State.mxAtRest (s : State) (c : Chain) (core : Nat) : Bool :=
  let m := s.mx core
  let loading := m.tiles.toList.any fun x => x.loading && x.arrived = 0xFFFFFFFF#32
  let ready := (List.range 4).any m.opReady
  !loading && !ready
    && (match m.seq with
      | some q => q.atRest m || s.seqCommand core q = s
      | none => true)
    && m.drains.all fun d => (c.replays.any fun x => x.req.group = d.cmd.group)
      || (!s.drainOpen d && s.releaseHeld s.stuck d.asRelease)

/-- Whether the islands of a spur's cluster have nothing of it to complete before capture (R77 step 5). -/
def State.islandsAtRest (s : State) (p : Spur) : Bool :=
  let c := s.cluster p.cluster
  let mine (x : Cmd) : Bool := p.covers (elemCore x.elem)
  !(c.sampler.flight.any fun x => mine x.cmd) && !(c.raster.attrs.any mine)

/-- Whether a spur has come to rest (R77 steps 1 to 5). -/
def State.spurAtRest (s : State) (c : Chain) (p : Spur) : Bool :=
  (s.elems.all fun e => !p.covers (elemCore e.1) || e.2.beat.isNone)
    && (s.reqs.all fun r => !p.covers (elemCore r.elem) || s.reqAtRest r)
    && (s.dones.all fun d => !p.covers (elemCore d.elem) || s.doneAtRest c d)
    && (p.cores.all fun k => (s.core k).ct.toList.all (s.templateAtRest k))
    && (p.cores.all fun k => s.mxAtRest c k)
    && s.islandsAtRest p
/-- Whether a ridge has come to rest. -/
def State.ridgeAtRest (s : State) (c : Chain) : Bool := (s.spursOf c.ident).all (s.spurAtRest c)

/-! ## Before capture (R39, R77 step 6) -/

/-- Requests to cols that are still in the message mesh reach them (R39). -/
def State.settleCols (s : State) (ident : Nat) : State :=
  let mine (r : Req) : Bool := (s.spursOf ident).any fun p => p.covers (elemCore r.elem)
  (s.reqs.filter mine).foldl (fun s r => match r.kind with
    | .colReq j arc => s.reachCol r j arc
    | _ => s) s

/-- The dirty L1 lines of a spur's bound ranges are written back (R75, R77) (DEDUCED, log 37). -/
def State.writeBackL1 (s : State) (p : Spur) : State :=
  (p.cores.foldl (fun s k => match (s.core k).l1 with
    | some b =>
      let n := b.2 / 65536
      s.writeBackWhere p.cluster (inRange n (s.rangePages k b.1 n (s.writeNeed k)))
    | none => s) s).prune

/-- Requests that an image holds as wait entries leave for the chain's replays (R39). -/
def State.takeWaits (s : State) (ident : Nat) : State :=
  let mine (r : Req) : Bool := s.captured r && !r.kept && (s.spursOf ident).any fun p => p.covers (elemCore r.elem)
  let waits := s.reqs.filter mine
  ({ s with reqs := s.reqs.filter fun r => !mine r }).updChain ident fun c =>
    { c with replays := c.replays ++ waits.map fun r => (⟨0, r, []⟩ : Replay) }

/-- A copy firing that stands still is captured parked (R84). -/
def State.parkFirings (s : State) (ident : Nat) : State :=
  ((s.spursOf ident).flatMap (·.cores)).foldl (fun s k => s.updCore k fun c =>
    { c with ct := c.ct.map fun t => if t.firing.isSome then { t with state := 2 } else t }) s

/-! ## Storing (R77 step 7) -/

/-- A length rounded up to 64 bytes. -/
def round64 (n : Nat) : Nat := (n + 63) / 64 * 64

/-- The images of a ridge, in spur order. -/
def State.ridgeImages (s : State) (c : Chain) : List (Spur × List Byte) :=
  (s.spursOf c.ident).map fun p => (p, s.frozenImage p c.replays)
/-- Bytes that images need in a save area. -/
def imagesNeed (l : List (Spur × List Byte)) : Nat := (l.map fun x => round64 x.2.length).sum
/-- Whether images of a total length fit a chain's save area. -/
def State.saveFits (s : State) (c : Chain) (need : Nat) : Bool :=
  need ≤ c.saveSize && s.mapped c.root (needWrite c) c.saveArea c.saveSize
/-- Whether a ridge's images would fit its save area (R73). -/
def State.storable (s : State) (c : Chain) : Bool := s.saveFits c (imagesNeed (s.ridgeImages c))

/-- The addresses of images in a save area: in spur order, with free units of 64 bytes before each where there is room
(DESIGN CHOICE, log 7). -/
def saveAddrs (tick : Nat) : Nat → Nat → List Nat → List Nat
  | _, _, [] => []
  | base, slack, n :: ns =>
    let gap := 64 * (Config.saveGap (tick + ns.length) % (slack / 64 + 1))
    (base + gap) :: saveAddrs tick (base + gap + round64 n) (slack - gap) ns

/-- The landed writes of a spur's elements, templates and islands that are not yet performed are written back before the
spur leaves its cluster, so that a release or a drain still orders them where they go on (R134, R315, R316). -/
def State.settleWrites (s : State) (p : Spur) : State :=
  (s.reqs.filter fun r => p.covers (elemCore r.elem) && r.phase = .landed
      && (r.counts || (match r.kind with
        | .written _ => true
        | _ => false))).foldl (fun s r => match r.pa with
    | some k => (touchedSectors k r.size).foldl (fun s sec => s.writeBack p.cluster sec) s
    | none => s) s

/-- The ridge leaves the device for its save area. -/
def State.storeRidge (s : State) (c : Chain) : State :=
  let imgs := s.ridgeImages c
  let need := imagesNeed imgs
  if !s.saveFits c need then
    if c.doomed then s.endChain c.ident 2 0 else s.refuse c.ident (.reject 7 need c.stage 0 0xFF none)
  else
    let at_ := saveAddrs s.tick c.saveArea (c.saveSize - need) (imgs.map (·.2.length))
    let kept := imgs.map fun x => s.keptOf x.1
    let s := (imgs.zip at_).foldl (fun s x => s.writeVirt c.root (needWrite c) x.2 x.1.2) s
    if c.doomed then s.endChain c.ident 2 0
    else
      let s := imgs.foldl (fun s x => s.settleWrites x.1) s
      let s := imgs.foldl (fun s x =>
        ((s.clearSpur x.1).freeIslands x.1.cluster x.1.islands).addDeparture x.1.cluster
          ⟨c.ident, x.1.index, x.1.homeX, x.1.homeY, x.1.w, x.1.h, .stored⟩) s
      let s := s.freeLeft c
      let s := if c.phase = .held then s
        else { s with chains := s.chains.map fun a => { a with order := a.order + 1 } }
      s.updChain c.ident fun a => { a with
        phase := if c.phase = .held then .stored else .waiting
        order := if c.phase = .held then a.order else 0
        waitNs := s.timeNs.toNat
        saved := (imgs.zip at_).map fun x => (x.1.1.index, x.2, x.1.2.length)
        kept := kept
        frozen := false
        debugHold := false }

/-- The rest of a freeze: nothing until the ridge has come to rest; then the dirty L1 lines are written back, and the
images of a frozen ridge are stored. -/
def State.finishFreeze (s : State) (ident : Nat) : State :=
  let s := s.settleCols ident
  match s.chain? ident with
  | none => s
  | some c =>
    if !s.ridgeAtRest c then s
    else
      let s := (s.spursOf ident).foldl State.writeBackL1 s
      if !c.frozen then s
      else
        let s := (s.takeWaits ident).parkFirings ident
        let s := (s.spursOf ident).foldl (fun s p => s.countFreed p.id) s
        match s.chain? ident with
        | none => s
        | some c => s.storeRidge c

/-- `FREEZE_WAVE` (R77): with `flag` a debugger freezes the chain `a` in place, or holds it before its start (R350,
R354). Else a ridge that is frozen or held takes the steps of R77 that follow once it has come to rest (DEDUCED, log 23)
(DESIGN CHOICE, log 25). -/
def execFreezeWave (s : State) : Host.Outcome State Fault Refusal :=
  let ident := s.pick.a
  if s.pick.flag then
    .next (((s.updChain ident fun c => { c with debugHold := true }).returnLeases ident).quietCores ident)
  else
    match s.chain? ident with
    | some c => if c.frozen || c.phase = .held || c.debugHold then .next (s.finishFreeze ident) else .next s
    | none => .next s

/-- `STAGE_PLACEMENT` (R72, R73): the scheduler of the waiting chain `a` tries to place its stage, when it is its turn.
-/
def execStagePlacement (s : State) : Host.Outcome State Fault Refusal :=
  match s.chain? s.pick.a with
  | some c =>
    if c.phase = .waiting && !c.frozen && s.turnOf c then .next (s.placeStage c s.storable) else .next s
  | none => .next s

/-- `CLUSTER_OUT_OF_PLACEMENT` (R397): the regulator of the cluster `a` has not moved its code toward the target for
1 ms. Its ridges are frozen and stored, and stages that are only placed or loaded there go back to wait, their waiting
beginning anew (R71) (DEDUCED, log 39). -/
def execClusterOutOfPlacement (s : State) : Host.Outcome State Fault Refusal :=
  let cl := s.pick.a
  let w := s.preg (0x370 + cl)
  let stuck := bitsOf w 16 6 ≠ bitsOf w 8 6 && s.timeNs.toNat ≥ (s.cluster cl).movedNs + 1000000
  if cl ≥ 96 || !stuck || !s.clusterOn cl then .next s
  else
    let k := 0x235 + cl / 32
    let s := s.setPreg k (s.preg k ||| 1#32 <<< (cl % 32))
    let here (c : Chain) : Bool := (s.spursOf c.ident).any (·.cluster = cl)
    .next (s.chains.foldl (fun (s : State) c =>
      if c.system then s
      else if c.phase = .placed && c.places.any (·.cluster = cl) then
        s.updChain c.ident fun c => { c with phase := .waiting, places := [], waitNs := s.timeNs.toNat }
      else if !here c then s
      else if c.phase = .fetched && c.saved = [] then
        ((s.spursOf c.ident).foldl State.clearSpur s).updChain c.ident fun c =>
          { c with phase := .waiting, waitNs := s.timeNs.toNat }
      else s.sendFreeze c.ident) s)

end Sys2Proof.Machine
end

