-- ==== Sys2Proof/Machine/MemRules.lean ====
section
/-!
DEFINITION. Loads, stores, block transfers, prefetch, atomics and order-repair rules (cells 0x28 to 0x32,
R241 to R256): the firing of each. The request that a firing sends is translated, lands or binds later.
-/
namespace Sys2Proof.Machine


/-- The firing that a request belongs to: one group for all beats of a rule (R243). -/
def State.groupOf (s : State) : State × Nat :=
  match s.me.beat with
  | some b => (s, b.group)
  | none => (s.bump, s.nextId)

/-- The scratch key of an own or cluster-scratch address (R118, R87). -/
def State.scratchPlace (s : State) (elem : Nat) (space : BitVec 2) (a : Nat) : Nat :=
  let core := elemCore elem
  if space = 2 then scratchKey (coreCluster core) (coreIdx core * 2 ^ 17 + a)
  else scratchKey (coreCluster core) (s.rebase core a)

/-- Whether a form is one of order repair, which ignores `.acq` and `.rel` (R376). -/
def ReqKind.repairs : ReqKind → Bool
  | .orcCtl _ _ => true
  | .orcOp _ _ => true
  | .orcLoad _ _ => true
  | _ => false

/-- A memory request of the rule that fires, with the qualifiers of its extension (R197, R244). -/
def State.memReq (s : State) (m : MemForm) (kind : ReqKind) (a : Nat) (ops : List Word) : Req :=
  let x : Word := if m.o.w then s.curExt else 0
  let glob := m.o.space = 0
  let scratch := m.o.space = 1 || m.o.space = 2
  let plain := glob && !kind.repairs
  { s.newReq kind .none with
    space := m.o.space
    va := BitVec.ofNat 64 a
    pa := if scratch then some (s.scratchPlace s.cur.elem m.o.space a) else none
    size := m.size
    ops := ops
    scope := m.o.scope
    acq := plain && x.getLsbD 5
    rel := plain && x.getLsbD 4
    range := BitVec.ofNat 8 (xBits x 6 8)
    ordered := glob && x.getLsbD 3
    hint := if glob then BitVec.ofNat 2 (xBits x 1 2) else 0
    phase := if scratch then .ready else if glob then .sent else .waiting }

/-- The done token of a rule with nonzero scope takes its slot at beat 0 (R132, R243). -/
def State.takeDone (s : State) (o : MOp) (group : Nat) : State :=
  if o.scope = 0 || s.beatNo ≠ 0 then s
  else
    let hole := s.nextId
    let s := s.bump.reserveSlot s.cur.elem o.done.toNat hole 0
    { s with dones := s.dones ++ [⟨group, s.cur.elem, o.done.toNat, hole, o.scope⟩] }

/-- One beat of a memory rule: operands are read, pops taken, the destination pended or reserved, the request
sent, and the done token's slot taken (R241 to R243). -/
def State.sendMem (s : State) (m : MemForm) (kind : ReqKind) (ops : List Word) (reserve : State → State × Dst) :
    State :=
  let r := s.memReq m kind (s.ea m s.beatNo 0) ops
  let (s, g) := (s.consume m.dm).groupOf
  let (s, dst) := reserve s
  (s.addReq { r with group := g, dst := dst }).takeDone m.o g

/-- The address as a source code where the space is not global (R241). -/
def addrDemand (o : MOp) : Demand := if o.space = 0 then [] else [(o.addr, 1)]

/-- The form of a load or store of width code k (R245). -/
def widthOf (k : BitVec 2) : Nat := 2 ^ k.toNat

/-- No destination. -/
def noDst (s : State) : State × Dst := (s, .none)

/-- A load: address checks for every beat, then the request (R245). -/
def fireLoad (i : Instr) (o : MOp) (k : BitVec 2) (bypass : Bool) (s : State) : Host.Outcome State Fault Refusal :=
  let m : MemForm := ⟨o, widthOf k, addrDemand o⟩
  fire i (fun _ => false) (fun s => s.addrFaults m (s.countI i) (some true))
    (fun s => s.sendMem m (.load bypass) [] fun s =>
      if k = 3 then s.reservePair s.cur.elem o.data.toNat else s.reserveDst s.cur.elem o.data 1) s

/-- The data words that a store reads: a pair for `.b64` (R245). -/
def State.storeWords (s : State) (dm : Demand) (o : MOp) (k : BitVec 2) : List Word :=
  if k = 3 then wordsOf64 (s.rdPair o.data) else [s.rd dm o.data]

/-- A block transfer may not name space 3 (R248); its address is aligned to 64 bytes (R119). -/
def blockForm (o : MOp) (dm : Demand) : MemForm := ⟨o, 64, dm⟩

/-- The 16 words that `stblk` takes from its channel (R248). -/
def State.popBlock (s : State) (c : Code) : List Word := (List.range 16).map fun i => (s.atPos (c.toNat % 4) i).word

/-! ### Atomics -/

/-- Whether the atomic that fires acts on 64 bits (R197, R250). -/
def State.amoWide (s : State) (o : MOp) (always : Bool) : Bool := always || (o.w && xW64 s.curExt)

/-- What an atomic reads through its data field (R250): a register or pair, pops, or another code. -/
def amoDemand (o : MOp) (w64 reads : Bool) : Demand :=
  addrDemand o ++ (if reads && !isReg o.data then [(o.data, if w64 then 2 else 1)] else [])

/-- The operand words of an atomic (R250). -/
def State.amoWords (s : State) (dm : Demand) (o : MOp) (w64 : Bool) : List Word :=
  if isReg o.data then (if w64 then wordsOf64 (s.rdPair o.data) else [s.rd dm o.data])
  else if w64 then
    if isPop o.data then [(s.atPos (o.data.toNat % 4) 0).word, (s.atPos (o.data.toNat % 4) 1).word] else [0, 0]
  else [s.rd dm o.data]

/-- Where the old value returns: the data register or pair, else nowhere (R250). -/
def State.amoDst (s : State) (o : MOp) (w64 : Bool) : State × Dst :=
  if !isReg o.data then (s, .none)
  else if w64 then s.reservePair s.cur.elem o.data.toNat else s.reserveDst s.cur.elem o.data 1

/-- Address checks of an atomic or order-repair rule, then 0x38 for a space other than 0 (R140, R253). -/
def State.globalOnly (s : State) (m : MemForm) (n : Nat) : Option (Nat × Nat) :=
  match s.addrFaults m n none with
  | some f => some f
  | none => if m.o.space = 0 then none else some (0x38, s.ea m 0 0)

/-- An atomic fires (R250, R251). -/
def fireAmo (i : Instr) (o : MOp) (op : AmoOp) (always reads : Bool) (s : State) :
    Host.Outcome State Fault Refusal :=
  let w64 := s.amoWide o always
  let dm := amoDemand o w64 reads
  let m : MemForm := ⟨o, if w64 then 8 else 4, dm⟩
  fire i (fun _ => false) (fun s => s.globalOnly m (s.countI i))
    (fun s => s.sendMem m (.amo op w64) (if reads then s.amoWords dm o w64 else []) (·.amoDst o w64)) s

/-! ### Order repair -/

/-- An order-repair rule fires (R254 to R256): count 1, operands read now, its fate decided at its slice. -/
def fireOrc (i : Instr) (o : MOp) (kind : ReqKind) (size : Nat) (ops : State → List Word) (chk : State → Bool)
    (dst : State → State × Dst) (s : State) : Host.Outcome State Fault Refusal :=
  let m : MemForm := ⟨o, size, addrDemand o⟩
  fire i (fun _ => false)
    (fun s => match s.globalOnly m 1 with
      | some f => some f
      | none => if chk s then some (0x32, s.ea m 0 0) else none)
    (fun s => s.sendMem m kind (ops s) dst) s

/-- The width that W64 states (R255, R256). -/
def State.w64Of (s : State) (o : MOp) : Bool := o.w && xW64 s.curExt
/-- The word width in bytes. -/
def wordSize (w64 : Bool) : Nat := if w64 then 8 else 4

/-- `orc.op` with an operation (R255): the stamp and operand registers are read. -/
def fireOrcOp (i : Instr) (o : MOp) (op : OrcOp) (s : State) : Host.Outcome State Fault Refusal :=
  fireOrc i o (.orcOp op (s.w64Of o)) (wordSize (s.w64Of o))
    (fun s => (List.range 4).map fun j => s.me.reg (o.data.toNat + j)) (fun _ => false) noDst s

/-- A load of a cell (R256): a register, or a pair for 64 bits. -/
def State.orcDst (s : State) (o : MOp) : State × Dst :=
  if s.w64Of o then s.reservePair s.cur.elem o.data.toNat else s.reserveDst s.cur.elem o.data 1

/-! ### The rules -/

/-- `ld` (R245). -/
def execLd (o : MOp) (k : BitVec 2) (s : State) : Host.Outcome State Fault Refusal :=
  fireLoad (.ld o k) o k false s

/-- `ld.by` (R245, R246). -/
def execLdBy (o : MOp) (k : BitVec 2) (s : State) : Host.Outcome State Fault Refusal :=
  fireLoad (.ldBy o k) o k true s

/-- `st` (R245). -/
def execSt (o : MOp) (k : BitVec 2) (s : State) : Host.Outcome State Fault Refusal :=
  let dm := addrDemand o ++ (if k = 3 then [] else [(o.data, 1)])
  let m : MemForm := ⟨o, widthOf k, dm⟩
  fire (.st o k) (fun _ => false) (fun s => s.addrFaults m (s.countI (.st o k)) (some false))
    (fun s => s.sendMem m .store (s.storeWords dm o k) noDst) s

/-- `ldblk` (R248). -/
def execLdblk (o : MOp) (s : State) : Host.Outcome State Fault Refusal :=
  let m := blockForm o (addrDemand o)
  fire (.ldblk o) (fun _ => false) (fun s => s.addrFaults m (s.countI (.ldblk o)) none)
    (fun s => s.sendMem m .loadBlock [] (·.reserveDst s.cur.elem o.data 16)) s

/-- `stblk` (R248). -/
def execStblk (o : MOp) (s : State) : Host.Outcome State Fault Refusal :=
  let m := blockForm o (addrDemand o ++ [(o.data, 16)])
  fire (.stblk o) (fun _ => false) (fun s => s.addrFaults m (s.countI (.stblk o)) none)
    (fun s => s.sendMem m .storeBlock (s.popBlock o.data) noDst) s

/-- `pref` (R249: its address is the 256-byte line that holds ea(0)). -/
def execPref (o : MOp) (s : State) : Host.Outcome State Fault Refusal :=
  let m : MemForm := ⟨o, 1, addrDemand o⟩
  fire (.pref o) (fun s => o.space ≠ 0 || o.scope ≠ 0 || s.countI (.pref o) ≠ 1) (fun s => s.addrFaults m 1 none)
    (fun s => s.sendMem m .prefetch [] noDst) s

/-- `amo.add` (R251). -/
def execAmoAdd (o : MOp) (s : State) : Host.Outcome State Fault Refusal :=
  fireAmo (.amoAdd o) o .add false true s

/-- `amo.sub` (R251). -/
def execAmoSub (o : MOp) (s : State) : Host.Outcome State Fault Refusal :=
  fireAmo (.amoSub o) o .sub false true s

/-- `amo.min` (R251). -/
def execAmoMin (o : MOp) (s : State) : Host.Outcome State Fault Refusal :=
  fireAmo (.amoMin o) o .min false true s

/-- `amo.max` (R251). -/
def execAmoMax (o : MOp) (s : State) : Host.Outcome State Fault Refusal :=
  fireAmo (.amoMax o) o .max false true s

/-- `amo.and` (R251). -/
def execAmoAnd (o : MOp) (s : State) : Host.Outcome State Fault Refusal :=
  fireAmo (.amoAnd o) o .and false true s

/-- `amo.or` (R251). -/
def execAmoOr (o : MOp) (s : State) : Host.Outcome State Fault Refusal :=
  fireAmo (.amoOr o) o .or false true s

/-- `amo.xor` (R251). -/
def execAmoXor (o : MOp) (s : State) : Host.Outcome State Fault Refusal :=
  fireAmo (.amoXor o) o .xor false true s

/-- `amo.swap` (R251). -/
def execAmoSwap (o : MOp) (s : State) : Host.Outcome State Fault Refusal :=
  fireAmo (.amoSwap o) o .swap false true s

/-- `amo.inc` (R251). -/
def execAmoInc (o : MOp) (s : State) : Host.Outcome State Fault Refusal :=
  fireAmo (.amoInc o) o .inc false false s

/-- `amo.fmin` (R251). -/
def execAmoFmin (o : MOp) (s : State) : Host.Outcome State Fault Refusal :=
  fireAmo (.amoFmin o) o .fmin false true s

/-- `amo.fmax` (R251). -/
def execAmoFmax (o : MOp) (s : State) : Host.Outcome State Fault Refusal :=
  fireAmo (.amoFmax o) o .fmax false true s

/-- `amo.fadd` (R251). -/
def execAmoFadd (o : MOp) (s : State) : Host.Outcome State Fault Refusal :=
  fireAmo (.amoFadd o) o .fadd false true s

/-- `amo.vmin64` (R251). -/
def execAmoVmin64 (o : MOp) (s : State) : Host.Outcome State Fault Refusal :=
  fireAmo (.amoVmin64 o) o .vmin64 true true s

/-- `amo.cas` (R252: expected and new value from consecutive registers or pairs). -/
def execAmoCas (o : MOp) (s : State) : Host.Outcome State Fault Refusal :=
  let w64 := s.amoWide o false
  let m : MemForm := ⟨o, if w64 then 8 else 4, addrDemand o⟩
  fire (.amoCas o) (fun _ => false) (fun s => s.globalOnly m (s.countI (.amoCas o)))
    (fun s => s.sendMem m (.amo .cas w64)
      ((List.range (if w64 then 4 else 2)).map fun j => s.me.reg (o.data.toNat + j)) (·.amoDst o w64)) s

/-- `orc.dom` (R254, R144). -/
def execOrcDom (o : MOp) (s : State) : Host.Outcome State Fault Refusal :=
  fireOrc (.orcDom o) o (.orcCtl .dom false) 512 (fun _ => []) (fun _ => false) noDst s

/-- `orc.bind` (R254, R148). -/
def execOrcBind (o : MOp) (s : State) : Host.Outcome State Fault Refusal :=
  fireOrc (.orcBind o) o (.orcCtl .bind (s.w64Of o)) (wordSize (s.w64Of o)) (fun s => wordsOf64 (s.rdPair o.data))
    (fun _ => false) noDst s

/-- `orc.free` (R254, R151). -/
def execOrcFree (o : MOp) (s : State) : Host.Outcome State Fault Refusal :=
  fireOrc (.orcFree o) o (.orcCtl .free (s.w64Of o)) (wordSize (s.w64Of o)) (fun _ => []) (fun _ => false) noDst s

/-- `orc.fold` (R254, R150). -/
def execOrcFold (o : MOp) (s : State) : Host.Outcome State Fault Refusal :=
  fireOrc (.orcFold o) o (.orcCtl .fold (s.w64Of o)) (wordSize (s.w64Of o)) (fun _ => []) (fun _ => false) noDst s

/-- `orc.mark` (R254, R146). -/
def execOrcMark (o : MOp) (s : State) : Host.Outcome State Fault Refusal :=
  let dm := addrDemand o ++ [(o.data, 1)]
  let m : MemForm := ⟨o, wordSize (s.w64Of o), dm⟩
  fire (.orcMark o) (fun _ => false) (fun s => s.globalOnly m 1)
    (fun s => s.sendMem m (.orcCtl .mark (s.w64Of o)) [s.rd dm o.data] noDst) s

/-- `orc.op.set` (R255, R149). -/
def execOrcOpSet (o : MOp) (s : State) : Host.Outcome State Fault Refusal :=
  fireOrcOp (.orcOpSet o) o .set s

/-- `orc.op.add.f32` (R255, R149). -/
def execOrcOpAddF32 (o : MOp) (s : State) : Host.Outcome State Fault Refusal :=
  fireOrcOp (.orcOpAddF32 o) o .addF32 s

/-- `orc.op.add.f64` (R255, R149). -/
def execOrcOpAddF64 (o : MOp) (s : State) : Host.Outcome State Fault Refusal :=
  fireOrcOp (.orcOpAddF64 o) o .addF64 s

/-- `orc.op.mul.f32` (R255, R149). -/
def execOrcOpMulF32 (o : MOp) (s : State) : Host.Outcome State Fault Refusal :=
  fireOrcOp (.orcOpMulF32 o) o .mulF32 s

/-- `orc.op.fma.f32` (R255, R149). -/
def execOrcOpFmaF32 (o : MOp) (s : State) : Host.Outcome State Fault Refusal :=
  fireOrcOp (.orcOpFmaF32 o) o .fmaF32 s

/-- `orc.op.max.f32` (R255, R149). -/
def execOrcOpMaxF32 (o : MOp) (s : State) : Host.Outcome State Fault Refusal :=
  fireOrcOp (.orcOpMaxF32 o) o .maxF32 s

/-- `orc.op.min.f32` (R255, R149). -/
def execOrcOpMinF32 (o : MOp) (s : State) : Host.Outcome State Fault Refusal :=
  fireOrcOp (.orcOpMinF32 o) o .minF32 s

/-- `orc.op.add.int` (R255, R149). -/
def execOrcOpAddInt (o : MOp) (s : State) : Host.Outcome State Fault Refusal :=
  fireOrcOp (.orcOpAddInt o) o .addInt s

/-- `orc.ldt` (R256, R152). -/
def execOrcLdt (o : MOp) (s : State) : Host.Outcome State Fault Refusal :=
  fireOrc (.orcLdt o) o (.orcLoad false (s.w64Of o)) (wordSize (s.w64Of o)) (fun _ => []) (fun _ => false) (·.orcDst o) s

/-- `orc.lds` (R256, R153). -/
def execOrcLds (o : MOp) (s : State) : Host.Outcome State Fault Refusal :=
  fireOrc (.orcLds o) o (.orcLoad true (s.w64Of o)) (wordSize (s.w64Of o)) (fun s => [s.me.reg o.data.toNat])
    (fun s => (s.me.reg o.data.toNat).toNat % 2 ^ 24 = 0) (·.orcDst o) s

end Sys2Proof.Machine
end

