-- ==== Sys2Proof/Machine/Resume.lean ====
section
/-!
DEFINITION. The way back of a held, stored or loaded ridge: reissuing replays (R281, R360, R39), the repair of a
configuration (R386), resume records (R362), the reload of stored images (R78, R85 to R88, R364, R365), the start of a
ridge (R74), and the end of a debugger freeze (R350).
-/
namespace Sys2Proof.Machine

/-! ## Reissuing (R360) -/

/-- A request as it is issued again: a scratch address anew from its own, a port access at its port, any other access
before its translation. -/
def State.again (s : State) (q : Req) : Req :=
  if q.space = 0 then { q with phase := .sent, pa := none }
  else if q.space = 3 then { q with phase := .waiting, pa := none }
  else { q with phase := .ready, pa := some (s.scratchPlace q.elem q.space q.va.toNat) }

/-- The command of a replay of an engine or island (R281). -/
def Req.toCmd (r : Req) : Cmd := ⟨r.elem, r.slot, r.word, r.ext, r.group, r.ops, r.dst, r.step, r.handler⟩

/-- A command goes to the front of its queue: ahead of every command that stood behind it (R360); a `rs.draw` sets its
`e0`'s draw-open bit again (R295). -/
def State.requeue (s : State) (c : Cmd) : State :=
  match queueOf (fieldCell c.word).toNat (bitsOf c.word 0 4) with
  | none => s
  | some q => s.updCore (elemCore c.elem) fun k =>
      let k := { k with drawOpen := k.drawOpen || q = 5 && bitsOf c.word 0 4 = 0 }
      if q = 0 then { k with mx := { k.mx with queue := c :: k.mx.queue } }
      else { k with islandQ := k.islandQ.setIfInBounds (q - 4) (c :: k.islandQ.getD (q - 4) []) }

/-- One replay or wait entry is issued, with the later accesses of its rule; commands of engines and islands are not
issued here. -/
def State.reissue (s : State) (x : Replay) : State :=
  let r := x.req
  let core := elemCore r.elem
  match r.kind with
  | .engine => s
  | .arm ct => s.armTemplate r ct
  | .stopCt ct => s.stopTemplate r ct
  | .drain =>
    let s := { s with reqs := s.reqs ++ [{ r with phase := .sent }] }
    match s.spurAt core with
    | some p => s.updSpur p.id fun p => { p with drain := some (p.drain.getD ⟨p.elemKeys, []⟩) }
    | none => s
  | .tile c t row => if row ≥ 32 then s.issueTile c t else { s with reqs := s.reqs ++ [s.again r] }
  | _ => { s with reqs := s.reqs ++ (r :: x.rest).map s.again }

/-- The replays of a chain are issued, its parked templates go on, and its cairns' overruns are forgotten (R360, R380,
R389). -/
def State.reissueAll (s : State) (ident : Nat) : State :=
  match s.chain? ident with
  | none => s
  | some c =>
    let xs := c.replays
    let s := s.updChain ident fun c => { c with replays := [] }
    let s := ((s.spursOf ident).flatMap (·.cores)).foldl (fun s k => s.updCore k fun c =>
      { c with ct := c.ct.map Template.unpark, ca := c.ca.map fun a => { a with overrun := false } }) s
    let s := xs.foldl State.reissue s
    ((xs.filter fun x => x.req.kind = .engine).map (·.req.toCmd)).reverse.foldl State.requeue s

/-! ## Repair of a configuration (R386) -/

/-- The program section of an element in a spur's fresh image, with its stage's list entry; or how the chain fails. -/
def State.freshProgram (s : State) (c : Chain) (p : Spur) (elem : Nat) : Except Refuse (List Byte) :=
  match s.stageEntry c p.stage with
  | .error (code, a) => .error (.fault code a)
  | .ok e =>
    match s.spurList c e with
    | .error (code, a) => .error (.fault code a)
    | .ok l =>
      let x := l.getD p.index []
      match s.readImage c (fieldAt x 0 8) (fieldAt x 8 4) with
      | .error (code, a) => .error (.fault code a)
      | .ok b =>
        let bad := .reject 4 (fieldAt x 0 8) p.stage p.index 0xFF none
        match s.headerCheck b 0 p.w p.h, sections b with
        | none, .ok ss =>
          match ss.find? fun y => y.typ = 1 && y.core = p.relOf (elemCore elem) && y.elem = elemIdx elem with
          | some y => .ok y.body
          | none => .error bad
        | _, _ => .error bad

/-- What the repair of a spur's element reads: its stage's entry and list, and its image. -/
def State.programReads (s : State) (c : Chain) (p : Spur) : List (Nat × Nat) :=
  (c.stageTable + 64 * p.stage, 64) :: match s.stageEntry c p.stage with
    | .ok e => (fieldAt e 0 8, 32 * fieldAt e 8 2) :: match s.spurList c e with
      | .ok l => [(fieldAt (l.getD p.index []) 0 8, fieldAt (l.getD p.index []) 8 4)]
      | .error _ => []
    | .error _ => []

/-- The elements of a chain whose configuration reads wrong get their program anew; where a `cfg.wr` has written one,
the chain ends with status 2 (R386). With `c` = 3 a read of a peer's memory is lost, and ends it too (R395) (DEDUCED,
log 35). A false flag says that the chain has ended. -/
def State.repair (s : State) (c : Chain) : State × Bool :=
  let bad := (s.spursOf c.ident).flatMap fun p => (p.elemKeys.filter fun k => (s.elem k).cfgBad).map fun k => (p, k)
  if bad.any fun x => (s.elem x.2).cfgWritten then (s.endChain c.ident 2 0, false)
  else
    let lost := if s.pick.c = 3 then (bad.flatMap fun x => s.programReads c x.1).findSome? (s.peerVirt c) else none
    let programs := mapE (fun (x : Spur × Nat) => s.freshProgram c x.1 x.2) bad
    match lost, programs with
    | some a, _ => ((s.countPreg 0x3E6).refuse c.ident (.fault 0x20 a), false)
    | none, .error why => (s.refuse c.ident why, false)
    | none, .ok bs =>
      let fix (s : State) (x : (Spur × Nat) × List Byte) : State :=
        s.updElem x.1.2 fun e => { e.withProgram x.2 with cfgBad := false }
      ((bad.zip bs).foldl fix s, true)

/-! ## Resume records (R362) -/

/-- Whether a resume record that queue q brought is well formed: every byte beyond its fields is zero. -/
def resumeOk (q : Nat) (r : List Byte) : Bool :=
  byteAt r 2 = q && byteAt r 3 ≤ 2 && zeroAt r 4 4 && zeroAt r 0x10 240

/-- A freeze that a ridge goes on from in place leaves no trace of the lease that it returned (R79, R88). -/
def State.forgetLeases (s : State) (ident : Nat) : State :=
  { s with spurs := updateIf (·.chain == ident) (fun p => { p with leaseLeft := (0, 0, 0) }) s.spurs }

/-- Action 0 on a held ridge that is resident. -/
def State.resumeInPlace (s : State) (c : Chain) : State :=
  let (t, ok) := (s.forgetLeases c.ident).repair c
  if ok then (t.updChain c.ident fun c => { c with phase := .started, stopped := none }).reissueAll c.ident else t

/-- A chain joins its scheduler's waiting list ahead of its equals (R73). -/
def State.waitFirst (s : State) (ident : Nat) : State :=
  let s := { s with chains := s.chains.map fun (a : Chain) => { a with order := a.order + 1 } }
  s.updChain ident fun c => { c with phase := .waiting, order := 0, waitNs := s.timeNs.toNat }

/-- A resume record acts on a held chain. -/
def State.resume (s : State) (c : Chain) (action : Nat) : State :=
  match action with
  | 0 => if c.phase = .stored then s.waitFirst c.ident else s.resumeInPlace c
  | 1 => if c.phase = .stored then s else s.sendFreeze c.ident
  | _ => s.endChain c.ident 2 0

/-- `RESUME_RECORD` (R362): the record `a` that a scheduler has taken reaches its chain's; records for one chain keep
their order, and wait while its ridge is being frozen (DEDUCED, log 41). -/
def execResumeRecord (s : State) : Host.Outcome State Fault Refusal :=
  match s.resumes[s.pick.a]? with
  | none => .next s
  | some x =>
    let r := x.drop 1
    let ident := fieldAt r 0x08 8
    if (s.resumes.take s.pick.a).any fun y => fieldAt (y.drop 1) 0x08 8 = ident then .next s
    else
      let t := { s with resumes := s.resumes.eraseIdx s.pick.a }
      match s.chain? ident with
      | none => .next t
      | some c =>
        if c.frozen then .next s
        else if !resumeOk (byteAt x 0) r || !(c.phase = .held || c.phase = .stored) then .next t
        else .next (t.resume c (byteAt r 3))

/-! ## Reload (R78, R85, R86, R364) -/

/-- Where a stored image stood: cluster and origin (R79). -/
def oldPlace (b : List Byte) : Nat × Nat × Nat := (fieldAt b 0x30 2, byteAt b 0x32 % 8, byteAt b 0x32 / 8)
/-- The cores that an image's rectangle covered, each with its core at the new place. -/
def coreMoves (p : Place) (b : List Byte) : List (Nat × Nat) :=
  let o := oldPlace b
  (List.range p.h).flatMap fun j => (List.range p.w).map fun i =>
    (clusterCore o.1 (o.2.1 + i) (o.2.2 + j), clusterCore p.cluster (p.x0 + i) (p.y0 + j))
/-- A core or element of a moved ridge at its new place. -/
def movedCore (moves : List (Nat × Nat)) (core : Nat) : Nat := (Assoc.find moves core).getD core
/-- An element at its new place. -/
def movedElem (moves : List (Nat × Nat)) (k : Nat) : Nat := coreElem (movedCore moves (elemCore k)) (elemIdx k)
/-- A command of a moved ridge. -/
def Cmd.moved (moves : List (Nat × Nat)) (c : Cmd) : Cmd := { c with elem := movedElem moves c.elem }

/-- The captured state of islands at its new place: the commands' elements have moved (R85). -/
def IslandState.moved (moves : List (Nat × Nat)) (x : IslandState) : IslandState :=
  let mv := Cmd.moved moves
  { x with
    rays := x.rays.map fun r => { r with cmd := mv r.cmd, res := r.res.map mv }
    raster := { x.raster with
      cmd := mv x.raster.cmd
      tickets := x.raster.tickets.map fun t => { t with answer := t.answer.map mv }
      flush := x.raster.flush.map mv
      attrs := x.raster.attrs.map mv }
    sampler := { x.sampler with
      waiting := x.sampler.waiting.map mv
      flight := x.sampler.flight.map fun f => { f with cmd := mv f.cmd } } }

/-- Islands that keep nothing. -/
def IslandState.empty : IslandState :=
  ⟨.replicate 8 none, [], default, ⟨.replicate 16 ⟨false, 0, [], 0, 0, 0⟩, [], [], []⟩, []⟩

/-- The captured state is placed in the islands of a cluster (R85). -/
def State.placeIslands (s : State) (cl islands : Nat) (x : IslandState) : State :=
  s.updCluster cl fun c =>
    let mine (k : Nat) : Bool := (islands.testBit 0 && k / 4 = 4) || (islands.testBit 1 && (k / 4 = 5 || k / 4 = 6))
      || (islands.testBit 2 && k / 4 = 7)
    let c := (x.outs.filter fun e => mine e.1).foldl (fun (c : Cluster) e => { c with edgeOut := c.edgeOut.put e.1 e.2 }) c
    let c := if islands.testBit 0 then { c with fmts := x.fmts, rays := x.rays } else c
    let c := if islands.testBit 1 then { c with raster := x.raster } else c
    if islands.testBit 2 then { c with sampler := x.sampler } else c

/-- What stands beside an image goes into the spur that is loaded from it: elements, cores, requests, done tokens,
barriers, held values, and islands, whose state is that of the image's island section (R85). -/
def State.withKept (s : State) (p : Spur) (k : Kept) (b : List Byte) (moves : List (Nat × Nat)) : State :=
  let ss : List Sect := match sections b with
    | .ok ss => ss
    | .error _ => []
  let body := (ss.filter fun x => x.typ = 0x0C).flatMap (·.body)
  let elemAt (x : Nat) : Nat := p.elemOf (x / 16) (x % 16)
  let s := k.elems.foldl (fun s x =>
    if (s.elem (elemAt x.1)).role = .unused then s else s.updElem (elemAt x.1) (·.withKept x.2)) s
  let s := k.cores.foldl (fun s x =>
    let core := p.coreOf x.1
    s.updCore core fun c => c.withKept x.2 body x.1 (coreE0 core)) s
  let reqs := k.reqs.map fun (x : Nat × Req) => x.2.moved (elemAt x.1)
  let dones := k.dones.map fun (x : Nat × Done) => { x.2 with elem := elemAt x.1 }
  let s := { s with reqs := s.reqs ++ reqs, dones := s.dones ++ dones }
  let s := s.updSpur p.id fun p => { p with
    phase := match k.phase with
      | .started => .loaded
      | x => x
    bars := Vector.ofFn fun (i : Fin 16) =>
      let x := p.bars.getD i.val default
      let g := k.gens.getD i.val 0
      if g.toNat % 2 ^ 24 = x.gen.toNat then { x with gen := g } else x }
  let mine := s.links.filter (·.spur == p.id)
  let s := if mine.length = k.held.length then
      (mine.zip k.held).foldl (fun s x => s.updLink x.1.id fun l => { l with held := x.2 }) s else s
  let s := k.outs.foldl (fun s x => s.updCluster p.cluster fun c => { c with edgeOut := c.edgeOut.put x.1 x.2 }) s
  match ss.find? fun x => x.typ = 0x0B with
  | some x => s.placeIslands p.cluster (byteAt x.body 0) (((k.island.getD .empty).withSection x.body).moved moves)
  | none => s

/-- The replays of an image's replay section, at their new place. -/
def imageReplays (p : Spur) (b : List Byte) (xs : List Replay) : List Replay :=
  let ss : List Sect := match sections b with
    | .ok ss => ss
    | .error _ => []
  let o := oldPlace b
  let here (r : Req) : Bool := coreCluster (elemCore r.elem) = o.1
    && (let i := coreIdx (elemCore r.elem)
        o.2.1 ≤ i % 8 && i % 8 < o.2.1 + p.w && o.2.2 ≤ i / 8 && i / 8 < o.2.2 + p.h)
  let rel (core : Nat) : Nat := 8 * (coreIdx core / 8 - o.2.2) + (coreIdx core % 8 - o.2.1)
  let es := (ss.filter fun x => x.typ = 0x0A).flatMap fun x => replayEntries x.body
  (mergeReplays rel es (xs.filter fun x => here x.req)).map fun x =>
    let k := p.elemOf (rel (elemCore x.req.elem)) (elemIdx x.req.elem)
    { x with req := x.req.moved k, rest := x.rest.map (·.moved k) }

/-- A reload turns the stored entry of a spur into a moved one (R364). -/
def State.noteMoved (s : State) (p : Spur) : State :=
  { s with clusters := s.clusters.map fun (k : Nat × Cluster) => (k.1, { k.2 with
      departures := k.2.departures.map fun d =>
        if d.chain = p.chain && d.spur = p.index && d.state = .stored then { d with state := .moved p.cluster p.x0 p.y0 }
        else d }) }

/-- A link of a region that has gone on ends at its receiver's new place (R90). -/
def Link.moved (moves : List (Nat × Nat)) (l : Link) : Link :=
  { l with receiver := match l.receiver with
    | .elemIn k ch => .elemIn (movedElem moves k) ch
    | r => r }

/-- The clusters that a reload moves spurs into. -/
def movedInto (l : List (Place × List Byte)) : List Nat :=
  ((l.filter fun x => (oldPlace x.2).1 ≠ x.1.cluster).map (·.1.cluster)).eraseDups
/-- A drain whose destination is an output without a reserved slot takes one (R37, R353). -/
def State.drainSlot (s : State) (e0 : Nat) (c : Cmd) : State × Cmd :=
  let code : Code := BitVec.ofNat 5 (bitsOf c.word 10 5)
  if c.op = 4 && c.dst = .none && isOut code then
    let (t, d) := s.reserveDst e0 code 1
    (t, { c with dst := d })
  else (s, c)
/-- The drains that a core's image brings have their slots. -/
def State.drainSlots (s : State) (core : Nat) : State :=
  let m := s.mx core
  match m.draining, m.queue with
  | some (c, r), _ =>
    let (t, c) := s.drainSlot (coreE0 core) c
    t.updMx core fun m => { m with draining := some (c, r) }
  | none, c :: cs =>
    let (t, c) := s.drainSlot (coreE0 core) c
    t.updMx core fun m => { m with queue := c :: cs }
  | none, [] => s

/-- The firings of which an edit of the stored images took a replay entry away. -/
def lostGroups (old new : List Replay) : List Nat :=
  let groups (xs : List Replay) : List Nat := xs.map (·.req.group)
  (groups old).filter fun g => (groups new).count g < (groups old).count g
/-- The tokens and matrix drains of firings whose entries are never issued do not end: their reserved slots and pending
registers stay as the image holds them (R362). -/
def State.forgetLost (s : State) (ident : Nat) (gs : List Nat) : State :=
  let s := { s with dones := s.dones.filter fun d => !gs.contains d.group }
  ((s.spursOf ident).flatMap (·.cores)).foldl (fun s core =>
    s.updMx core fun m => { m with drains := m.drains.filter fun d => !gs.contains d.cmd.group }) s

/-- The spurs of stored images stand in the device again, not started. What the acquires of a spur dropped in its old
cluster is dropped in its new one too, so that the move shows it no older value (R135, R316). -/
def State.reload (s : State) (c : Chain) (l : List (Place × List Byte)) : State :=
  let moves := l.flatMap fun x => coreMoves x.1 x.2
  let s := { s with links := s.links.map fun (k : Link) => if k.chain = c.ident then k.moved moves else k }
  let (s, _) := s.loadSpurs c l c.stage
  let s := (movedInto l).foldl (fun s cl => s.dropClean cl fun _ => true) s
  let spurs := (s.spursOf c.ident).filterMap fun p =>
    (l.find? fun x => x.1.index = p.index).map fun x => (p, x.2)
  let s := spurs.foldl (fun s x =>
    let s := match c.kept.find? (·.index == x.1.index) with
      | some k => s.withKept x.1 k x.2 moves
      | none => s
    (x.1.cores.foldl State.drainSlots s).noteMoved x.1) s
  let xs := spurs.flatMap fun x => imageReplays x.1 x.2 c.replays
  let carry (d : Delivery) : Delivery :=
    if d.chain = c.ident then { d with fromCore := movedCore moves d.fromCore } else d
  let replays := xs.filter (fun (x : Replay) => x.code ≠ 0) ++ xs.filter fun (x : Replay) => x.code = 0
  let s := s.forgetLost c.ident (lostGroups c.replays xs)
  { s with deliveries := s.deliveries.map carry }.updChain c.ident fun c =>
    { c with phase := .fetched, places := [], replays := replays }

/-- `SPUR_RELOAD` (R78): the stored images of the placed chain `a` are fetched, checked and loaded, once no line is pinned
in a cluster that it moves into (R137). -/
def execSpurReload (s : State) : Host.Outcome State Fault Refusal :=
  match s.chain? s.pick.a with
  | some c =>
    if c.phase ≠ .placed || c.saved = [] then .next s
    else
      match s.fetchImages c with
      | .error why => .next (s.refuse c.ident why)
      | .ok l =>
        if s.pins.any fun p => (movedInto l).contains p.cluster then .next s else .next ((s.reload c l).repair c).1
  | none => .next s

/-! ## Start (R74) -/

/-- The loaded spurs of a chain that start reaches: those of a cluster, or all. -/
def State.startSpurs (s : State) (ident cl : Nat) (all : Bool) : State :=
  let mine (p : Spur) : Bool := p.chain = ident && p.phase = .loaded && (all || p.cluster = cl)
  { s with spurs := updateIf mine (fun p => { p with phase := .started }) s.spurs }

/-- `RIDGE_START` (R74): start reaches the cluster `b` of the chain `a`, with `flag` every cluster. Before the first,
replays are issued and parked deliveries given to their spurs (R362, R365). -/
def execRidgeStart (s : State) : Host.Outcome State Fault Refusal :=
  match s.chain? s.pick.a with
  | some c =>
    if c.debugHold || c.frozen then .next s
    else if c.phase = .fetched then
      let s := s.updChain c.ident fun c => { c with
        phase := .started
        startNs := some (c.startNs.getD s.timeNs.toNat)
        startedAt := c.stage
        ridgeNs := s.timeNs.toNat
        saved := []
        kept := []
        stopped := none }
      let s := s.reissueAll c.ident
      let s := (s.spursOf c.ident).foldl State.screeReplay s
      .next (s.startSpurs c.ident s.pick.b s.pick.flag)
    else if c.phase = .started then .next (s.startSpurs c.ident s.pick.b s.pick.flag)
    else .next s
  | none => .next s

/-- `DEBUGGER_FREEZE_LIFT` (R350): the debugger's hold on the chain `a` ends. -/
def execDebuggerFreezeLift (s : State) : Host.Outcome State Fault Refusal :=
  match s.chain? s.pick.a with
  | some c =>
    let s := s.updChain c.ident fun c => { c with debugHold := false }
    if !c.debugHold || c.frozen || c.phase = .held then .next s
    else
      let s := s.forgetLeases c.ident
      .next (((s.spursOf c.ident).flatMap (·.cores)).foldl (fun s k => s.updCore k fun c =>
        { c with ct := c.ct.map Template.unpark }) s)
  | none => .next s

end Sys2Proof.Machine
end

