-- ==== Sys2Proof/Machine/Completion.lean ====
section
/-!
DEFINITION. The end of a spur's work (R75), the end of a stage and of a chain, and the switch of a region of a
deterministic chain to its next stage (R90).
-/
namespace Sys2Proof.Machine

/-! ## When a halted spur is complete (R75) -/

/-- Whether a request of a halted spur has been performed, or is none that completion waits for; a signal that has been
set is no request any more. -/
def State.reqDone (s : State) (r : Req) : Bool :=
  match r.kind with
  | .signal _ => false
  | _ => !r.kind.drained || s.performedAt r r.scope

/-- Whether a trigger of a core is still to be queued at its template: a word that one takes, or one that can still
reach its channel (R267). -/
def State.triggersLeft (s : State) (core : Nat) : Bool :=
  let k := coreE0 core
  [0, 1, 2, 3].any fun ch =>
    let ws := (s.elem k).chan ch
    (match ws with
      | w :: _ => s.templateWord k ch w.tag
      | [] => false)
      || ((ws.all fun w => s.templateWord k ch w.tag)
        && (s.core core).events.any fun x => x.2.1.toNat = ch && s.templateWord k ch x.2.2)

/-- Whether the templates of a core have no firing left, in flight or asked for. -/
def State.copiesDone (s : State) (core : Nat) : Bool :=
  (s.core core).ct.toList.all fun t => t.state = 0 || (t.firing.isNone && t.queued = 0)
/-- Whether the matrix engine of a core has done what it has taken. -/
def State.mxDone (s : State) (core : Nat) : Bool :=
  let m := s.mx core
  !((List.range 4).any m.opReady) && m.seq.isNone && m.draining.isNone && m.drains = []
    && !(m.tiles.toList.any fun x => x.loading && x.arrived = 0xFFFFFFFF#32)
/-- Whether the islands of a spur's cluster have completed what they have accepted of it; a ray that ended or waits is
not waited for. -/
def State.islandsDone (s : State) (p : Spur) : Bool :=
  let c := s.cluster p.cluster
  let mine (x : Cmd) : Bool := p.covers (elemCore x.elem)
  !(c.rays.any fun r => mine r.cmd && r.state = .running) && !(c.sampler.flight.any fun x => mine x.cmd)
    && !(c.raster.attrs.any mine) && !(c.sampler.waiting.any mine)

/-- Whether everything that a halted spur issued has been performed. -/
def State.spurDone (s : State) (p : Spur) : Bool :=
  (s.elems.all fun e => !p.covers (elemCore e.1) || e.2.beat.isNone)
    && (s.reqs.all fun r => !p.covers (elemCore r.elem) || s.reqDone r)
    && (p.cores.all fun k => s.copiesDone k && !s.triggersLeft k && s.mxDone k)
    && s.islandsDone p

/-- What a completed spur leaves in its islands is freed (R75, R85). -/
def State.freeRays (s : State) (p : Spur) : State :=
  s.updCluster p.cluster fun c => { c with rays := c.rays.filter fun r => !p.covers (elemCore r.cmd.elem) }

/-- The work of a spur is done: its L1 lines are written back, its token is passed, and its cluster's departure list notes
that it has exited (R75, R364). -/
def State.completeSpur (s : State) (p : Spur) : State :=
  let s := (s.writeBackL1 p).freeRays p
  let s := p.cores.foldl (fun s k => s.unpinCore k) s
  (s.updSpur p.id fun p => { p with phase := .complete }).addDeparture p.cluster
    ⟨p.chain, p.index, p.homeX, p.homeY, p.w, p.h, .exited⟩

/-- A completed spur leaves its cores; what the islands keep stays until its chain ends or is frozen (R75, R85). -/
def State.leaveCores (s : State) (c : Chain) (p : Spur) : State :=
  (s.clearSpur p).updChain c.ident fun c =>
    { c with isl := if p.islands = 0 then c.isl else c.isl ++ [(p.cluster, p.islands)] }

/-- The arrivals of a region that goes on stay at the root hub (R76, R90). -/
def State.leaveBars (s : State) (p : Spur) : State :=
  s.updChain p.chain fun c => { c with leftBars := c.leftBars ++ [(p.stage, p.bars.toList)] }

/-- The stage of a chain whose spurs have all completed ends: its cores are freed, and the chain goes on to its next
stage or completes (R75). -/
def State.endStage (s : State) (c : Chain) : State :=
  if c.stage + 1 ≥ c.stageCount then s.endChain c.ident 0 0
  else
    let s := (s.spursOf c.ident).foldl (fun s p => s.leaveCores c p) s
    let n := s.lastOrder
    s.updChain c.ident fun c => { c with
      phase := .waiting
      stage := c.stage + 1
      effPrio := c.prio
      order := n
      waitNs := s.timeNs.toNat }

/-- `SPUR_COMPLETION` (R75): of the halted spur `a`. The last spur of a stage ends it; a deterministic chain's regions
go on one by one (R90) (DEDUCED, log 42). -/
def execSpurCompletion (s : State) : Host.Outcome State Fault Refusal :=
  match s.spur? s.pick.a with
  | none => .next s
  | some p =>
    match s.chain? p.chain with
    | none => .next s
    | some c =>
      if p.phase ≠ .halted || c.phase ≠ .started || c.frozen || c.debugHold || c.system || !s.spurDone p then .next s
      else
        let s := s.completeSpur p
        if !c.flagD && (s.spursOf c.ident).all (·.phase == .complete) then .next (s.endStage c) else .next s

/-! ## Regions (R90) -/

/-- Whether the drain token has nothing left to wait for in a region: no register pending on an access, no access not
performed (R90). -/
def State.regionDrained (s : State) (p : Spur) : Bool :=
  let waits (r : Req) : Bool := match r.kind with
    | .colReq _ _ => false
    | .barrier _ _ => false
    | .drain => false
    | _ => r.dst ≠ .none || !s.performedAt r r.scope
  s.reqs.all fun r => !p.covers (elemCore r.elem) || !waits r

/-- Whether a link of a region ends in another one. -/
def Spur.sendsAway (p : Spur) (l : Link) : Bool :=
  l.spur = p.id && (match l.receiver with
    | .elemIn k _ => !p.covers (elemCore k)
    | _ => false)

/-- Words that stand unread in a region: FIFOs, carry words, link registers; those on the way to another region are not
its own any more (DEDUCED, log 19). -/
def State.leftWords (s : State) (p : Spur) : Nat :=
  let ofElem (k : Nat) : Nat :=
    let e := s.elem k
    (e.fifo.toList.map (·.length)).sum + (if e.ci.isSome then 1 else 0) + (if e.co.isSome then 1 else 0)
  let ofLink (l : Link) : Nat := l.wire.length + (l.pass.map (·.words.length)).sum
  (p.elemKeys.map ofElem).sum + ((s.links.filter fun l => l.spur = p.id && !p.sendsAway l).map ofLink).sum

/-- The slot counts of the links between a region just loaded and the others: 0 where the receiving region is at an
earlier stage, and a region's links from others at its stage start now; a region that is ahead or has finished takes
every word, which is discarded (R90). -/
def State.regionCounts (s : State) (p : Spur) : State :=
  s.links.foldl (fun s l =>
    match l.sender, l.receiver with
    | .elemOut k ch, .elemIn j _ =>
      let set (s : State) (n : Nat) : State := s.updElem k (·.updOut ch fun o => { o with count := n })
      match s.spur? l.spur, s.spurAt (elemCore j) with
      | some a, some b =>
        if a.id = p.id && b.stage < p.stage then set s 0
        else if b.id = p.id && a.id ≠ p.id && a.stage = p.stage && a.chain = p.chain then set s l.capacity
        else s
      | _, _ => s
    | _, _ => s) s

/-- The words that a region has sent to others stay on their way when it goes on to its next stage (R90). -/
def State.tails (s : State) (p : Spur) : List Link :=
  ((s.links.filter p.sendsAway).map fun l =>
    { l with wire := l.pass.reverse.flatMap (·.words) ++ l.wire, pass := [] }).filter fun l => l.wire ≠ []

/-- A region is loaded with its spur of the next stage, and starts at once. -/
def State.loadRegion (s : State) (c : Chain) (p : Spur) : State :=
  let n := p.stage + 1
  let e := match s.stageEntry c n with
    | .error (code, a) => Except.error (Refuse.fault code a)
    | .ok e => match s.spurList c e with
      | .error (code, a) => .error (.fault code a)
      | .ok l =>
        let x := l.getD p.index []
        match s.readImage c (fieldAt x 0 8) (fieldAt x 8 4) with
        | .error (code, a) => .error (.fault code a)
        | .ok b => .ok ((⟨p.index, p.cluster, p.x0, p.y0, p.w, p.h, byteAt b 0x46, fieldAt x 0 8, fieldAt x 8 4⟩ : Place), b)
  match e with
  | .error why => s.refuse c.ident why
  | .ok (q, b) =>
    match s.imageCheck (q.spur 0 c.ident n b) ((s.spursOf c.ident).map fun q => (q.index, q.w, q.h)) q.image b with
    | some r => s.refuse c.ident (.reject r.sub r.addr n p.index r.slot (if r.sub = 2 then some r.elem else none))
    | none =>
      let tails := s.tails p
      let s := s.leaveCores c p
      let s := s.leaveBars p
      let s := { s with links := s.links ++ tails }
      match s.loadSpurs c [(q, b)] n with
      | (_, some bad) => s.refuse c.ident (.reject 5 bad.2 n bad.1 0xFF none)
      | (s, none) =>
        let s := s.updChain c.ident fun c => { c with stage := max c.stage n, startedAt := max c.startedAt n }
        match s.spurAt (clusterCore p.cluster p.x0 p.y0) with
        | some q => (s.regionCounts q).updSpur q.id fun q => { q with phase := .started }
        | none => s

/-- `DETERMINISTIC_STAGE_SWITCH` (R90): the drain token has passed the completed region `a`: what it leaves unread is
counted and discarded, and the region goes on to its next stage. After the last stage it stands empty until every region
has come as far, and the chain completes. -/
def execDeterministicStageSwitch (s : State) : Host.Outcome State Fault Refusal :=
  match s.spur? s.pick.a with
  | none => .next s
  | some p =>
    match s.chain? p.chain with
    | none => .next s
    | some c =>
      if !c.flagD || p.phase ≠ .complete || p.stage ≥ c.stageCount || c.phase ≠ .started || c.frozen || c.debugHold
          || !s.regionDrained p then .next s
      else
        let s := s.countOrphans c.ident (s.leftWords p)
        if p.stage + 1 < c.stageCount then .next (s.loadRegion c p)
        else
          let s := (s.leaveBars p).updSpur p.id fun p => { p with stage := c.stageCount, bars := .replicate 16 default }
          if (s.spursOf c.ident).all (·.stage ≥ c.stageCount) then .next (s.endChain c.ident 0 0) else .next s

end Sys2Proof.Machine
end

