-- ==== Sys2Proof/Machine/FabricEvents.lean ====
section
/-!
DEFINITION. The package's links to the outside and its converters: Kucor ports and peer accesses (R323, R329, R395),
Ethernet queue pairs (R330, R396), and converter nodes (R111 to R117).
-/
namespace Sys2Proof.Machine

/-! ## Kucor (R323, R329, R395) -/

/-- The register and bit of a Kucor port's up bit. -/
def kcrUp (port : Nat) : Nat × Nat := (0x3E0 + port / 32, port % 32)

/-- `KUCOR_PORT_TRAINING` (R323): the port `a` and a peer whose highest and lowest versions are `bytes` agree on the
highest common version, or the port stays down. -/
def execKucorPortTraining (s : State) : Host.Outcome State Fault Refusal :=
  let mine := s.preg 0x293
  let hi := byteAt s.pick.bytes 0
  let lo := byteAt s.pick.bytes 1
  let top := min (bitsOf mine 8 8) hi
  if s.pick.a ≥ 144 || top < bitsOf mine 0 8 || top < lo then .next s
  else
    let (n, b) := kcrUp s.pick.a
    .next { s.setPreg n (s.preg n ||| (1#32 <<< b)) with kucor := s.kucor.put s.pick.a (BitVec.ofNat 8 top) }

/-- `KUCOR_FLIT_RETRY` (R329): a link-level retry is counted. -/
def execKucorFlitRetry (s : State) : Host.Outcome State Fault Refusal := .next (s.countPreg 0x3E5)

/-- `KUCOR_PORT_DOWN` (R329): the port `a` goes down. -/
def execKucorPortDown (s : State) : Host.Outcome State Fault Refusal :=
  if s.pick.a ≥ 144 then .next s
  else
    let (n, b) := kcrUp s.pick.a
    .next { s.setPreg n (s.preg n &&& ~~~(1#32 <<< b)) with kucor := s.kucor.del s.pick.a }

/-- What a request whose answer was lost has done at its owner all the same (R395): a write, an atomic or an
order-repair operation has landed. -/
def State.landLost (s : State) (r : Req) (k : Nat) : State :=
  match r.kind with
  | .store => s.writeHome k r.storeBytes
  | .storeBlock => s.writeHome k r.storeBytes
  | .mxDrain _ => s.writeHome k ((bytesOfWords r.ops).take 64)
  | .amo op w64 =>
    if (s.overlapped k r.size).isEmpty then
      s.writeHome k (bytesOfNat r.size (op.apply w64 (natOfBytes (s.homeRead k r.size)) r.ops))
    else (s.overlapped k r.size).foldl State.countDiscard s
  | .orcOp op w64 => (s.opRequest r k op w64).1
  | .orcCtl .mark _ => match s.markRequest r k with
    | .ok t => t
    | .error _ => s
  | _ => s

/-- A request of memory kind 2 does not reach its owner; with the flag of the happening it was the answer that was lost. A
prefetch is dropped (R378); an access behind an earlier one of its rule waits for that one (R360). -/
def State.loseRequest (s : State) (r : Req) (k : Nat) : State :=
  let t := s.countPreg 0x3E6
  if r.kind = .prefetch then t.dropReq r.id
  else if s.beatBehind r then s
  else (if s.pick.flag then t.landLost r k else t).lateFault r 0x20 r.va.toNat

/-- An exchange chunk to another package is charged to its firing (R380). -/
def State.loseChunk (s : State) (d : Delivery) : State :=
  match ((s.core d.fromCore).template d.fromCt).firing with
  | some f => (s.countPreg 0x3E6).firingFault d.fromCore d.fromCt f 0x20 0 true
  | none => s.countPreg 0x3E6

/-- The record of an ended ray does not reach a peer's memory. -/
def State.loseRecord (s : State) (cl ticket : Nat) : State :=
  match s.ray? cl ticket with
  | none => s
  | some r =>
    let core := elemCore r.cmd.elem
    if r.kind ≠ 1 || r.state ≠ .ended || r.resultAt = 0 || (s.peerPage core [(r.resultAt, 32)]).isNone then s
    else
      (s.lostWrite core r.resultAt (r.record s.tick) 2).rayFault cl r 0x20 r.resultAt

/-- What reads memory for an engine, an island or a scheduler, each at its own happening. -/
def State.reader (s : State) (n : Nat) : Host.Outcome State Fault Refusal :=
  match n with
  | 0 => match s.req? s.pick.a with
    | some r => match r.kind with
      | .chainPut _ => execReadBinding s
      | _ => .next s
    | none => .next s
  | 1 => execMatrixCommandTake s
  | 2 => execIslandRequestAccept s
  | 3 => execTraversalNodeVisit s
  | 4 => execBinFlush s
  | 5 => execFragmentEmit s
  | 6 => execTicketRetire s
  | 7 => execVisAttrResult s
  | 8 => execWeightLoadBind s
  | 9 => execSampleComplete s
  | _ => .next s

/-- The bytes of a sector that an outcome `u` of a state has changed stand in another outcome too. -/
def State.landSector (s u t : State) (sec : Nat) : State :=
  { t with mem := (List.range 64).foldl (fun m i =>
      let k := sec * 64 + i
      if u.mem.read k = s.mem.read k then m else m.write k (u.mem.read k)) t.mem }

/-- A reader meets a sector of a peer's memory that does not answer: it takes a poisoned response, if it reads the
sector. With the flag of the happening an update that it makes there has landed all the same (R395). -/
def State.meetLost (s : State) (n sec : Nat) : State :=
  match ({ s with poison := setAdd s.poison sec }).reader n, s.reader n with
  | .next t, .next u =>
    let t := { t with poison := if s.poison.contains sec then t.poison else setDel t.poison sec }
    if keyKind (sec * 64) ≠ 2 || t = u then s
    else (if s.pick.flag then s.landSector u t sec else t).countPreg 0x3E6
  | _, _ => s

/-- A rise of a domain's watermark does not reach a slice of another package, whose view holds its last value (R147). -/
def State.loseRise (s : State) (record slice : Nat) : State :=
  match s.domain? record with
  | none => s
  | some d =>
    if !d.pod || d.cut.contains slice || slice / 256 = sliceOf record / 256 || (d.nextRise slice).isNone then s
    else (s.updDomain record fun d => { d with cut := d.cut ++ [slice] }).countPreg 0x3E6

/-- The entry of a stage, its spur list and its parameter block, where it gives one (R67, R70). -/
def State.stageReads (s : State) (c : Chain) (stage : Nat) : List (Nat × Nat) :=
  (c.stageTable + 64 * stage, 64) :: match s.stageEntry c stage with
    | .ok e => (fieldAt e 0 8, 32 * fieldAt e 8 2) :: if fieldAt e 0x10 8 = 0 then [] else [(fieldAt e 0x10 8, 160)]
    | .error _ => []
/-- What the scheduler of a chain that waits reads, of every stage before it places the first, the fetch agent of a placed
one, and the start of a fetched one (R69, R70, R74, R365). -/
def State.schedulerReads (s : State) (c : Chain) : List (Nat × Nat) :=
  match c.phase with
  | .waiting =>
    let fronts := match s.stageEntry c c.stage with
      | .ok e => match s.spurList c e with
        | .ok l => l.zipIdx.map fun x => c.imageOf x.2 x.1
        | .error _ => []
      | .error _ => []
    (if c.stage = 0 then List.range c.stageCount else [c.stage]).flatMap (s.stageReads c) ++ fronts
  | .placed => c.places.map fun p => (p.image, p.length)
  | .fetched => if c.screeKiB = 0 then [] else [(c.scree, c.screeKiB * 1024)]
  | _ => []
/-- An access of a chain's scheduler or fetch agent to a peer's memory is lost: a read ends the chain as any fault of the
fetch agent does (R70, R74); with the flag it was a write of a record or an image, or the read of a scree buffer's head for
a delivery that then stays at its sender (R365), which no rule is charged for. -/
def State.loseScheduler (s : State) (ident : Nat) : State :=
  match s.chain? ident with
  | none => s
  | some c =>
    if s.pick.flag then
      let places := [(c.faultArea, 64 * c.faultCap), (c.completion, 64), (c.saveArea, c.saveSize), (c.scree, c.screeKiB * 1024),
        (c.doneAddr, 8)]
      if (places.findSome? (s.peerVirt c)).isSome then s.countPreg 0x3E6 else s
    else match (s.schedulerReads c).findSome? (s.peerVirt c) with
      | some a => (s.countPreg 0x3E6).refuse ident (.fault 0x20 a)
      | none => s

/-- `PEER_ACCESS_TIMEOUT` (R395): an access of memory kind 2 has not reached its owner: counted, and a poisoned
response. The first word tells what it was: 0 the request `a`; 1 the exchange chunk `a` to another package; 2 an access
of the copy firing of the template `b` of the core `a`; 3 the record of the ray `b` of the cluster `a`; 4 a rise of the
domain `a` on its way to the slice `b`; from 5 to 14 a read by an engine or island, of the sector in the next two words;
15 an access of the scheduler or fetch agent of the chain `a`. With the flag a write landed all the same. An access that
takes place within another happening is lost there (`State.peerLost`) (DEDUCED, log 35). -/
def execPeerAccessTimeout (s : State) : Host.Outcome State Fault Refusal :=
  match (s.pick.words.getD 0 0).toNat with
  | 0 => match s.req? s.pick.a with
    | some r => match r.pa with
      | some k => .next (if keyKind k ≠ 2 || r.phase ≠ .ready then s else s.loseRequest r k)
      | none => .next s
    | none => .next s
  | 1 => match s.deliveries[s.pick.a]? with
    | some d => .next (if !d.chunk || d.package = s.podId then s else s.loseChunk d)
    | none => .next s
  | 2 => .next (s.loseFiring s.pick.a s.pick.b)
  | 3 => .next (s.loseRecord s.pick.a s.pick.b)
  | 4 => .next (s.loseRise s.pick.a s.pick.b)
  | 15 => .next (s.loseScheduler s.pick.a)
  | n + 5 => .next (s.meetLost n (of64 (s.pick.words.getD 1 0) (s.pick.words.getD 2 0)).toNat)

/-! ## Queue pairs (R330, R396) -/

/-- Every word at a queue pair's port goes. -/
def State.clearPort (s : State) (qp : Nat) : State :=
  let (cl, n) := s.qpPort qp
  ((s.portWords cl n).foldl (fun s _ => s.takePort cl n) s).setRecv cl n []

/-- The packets of a message of n bytes. -/
def packets (e : List Byte) (n : Nat) : Nat :=
  let size := 1024 * 2 ^ (byteAt e 0 / 16 % 4)
  max 1 ((n + size - 1) / size)

/-- A message leaves: of an RDMA WRITE the address and the key stand before the bytes. Counters and the sequence number
advance. -/
def State.sendMessage (s : State) (qp : Nat) (ws : List Word) : State :=
  let e := s.qpBytes qp
  let bs := bytesOfWords ws
  let q := s.qp qp
  let write := fieldAt e 0x48 4 = 1
  let len := fieldAt e 0x58 8
  let head := if write then bytesOfNat 8 (fieldAt e 0x50 8 + q.offset) ++ bytesOfNat 4 (fieldAt e 0x44 4) else []
  let s := { s with outside := s.outside ++ [Outside.ethernet qp (head ++ bs)] }
  let s := s.updQp qp fun q => { q with
    words := []
    offset := if write then (if len = 0 then 0 else (q.offset + bs.length) % len) else q.offset }
  (s.qpWrite qp 0x0C 4 ((fieldAt e 0x0C 4 + packets e bs.length) % 2 ^ 24)).qpWrite qp 0xE0 8 (fieldAt e 0xE0 8 + 1)

/-- `ETH_MESSAGE_SEND` (R330, R396): the word at the head of the port of the queue pair `a` joins its message; a tag-3
word ends it. The port of a queue pair in error discards every word, and a port that serves a link or a binding sends
none (R351). -/
def execEthMessageSend (s : State) : Host.Outcome State Fault Refusal :=
  let qp := s.pick.a
  if !s.qpExists qp || s.portServes (s.qpPort qp).1 (s.qpPort qp).2 then .next s
  else if (byteAt (s.qpBytes qp) 0).testBit 1 then .next (s.clearPort qp)
  else
    let (cl, n) := s.qpPort qp
    match s.portWords cl n with
    | w :: _ =>
      if !s.qpRuns qp then .next s
      else
        let s := s.takePort cl n
        let ws := (s.qp qp).words ++ [w.word]
        if w.tag = 3 then .next (s.sendMessage qp ws) else .next (s.updQp qp fun q => { q with words := ws })
    | [] => .next s

/-- Received words move to the port while it has room: to the queue of the link or binding that it serves, else to the
words that templates read. -/
def State.fillPort (s : State) (qp : Nat) : State :=
  let (cl, n) := s.qpPort qp
  let serves := s.portServes cl n
  let have_ := if serves then s.portWords cl n else s.recvWords cl n
  let room := 16 - have_.length
  let ws := have_ ++ (s.qp qp).inbox.take room
  (if serves then s.setPort cl n ws else s.setRecv cl n ws).updQp qp fun q => { q with inbox := q.inbox.drop room }

/-- Words of a received message: the last carries tag 3 (R330). -/
def messageWords : List Word → List ChanWord
  | [] => []
  | [w] => [⟨w, 3, 0⟩]
  | w :: ws => ⟨w, 0, 0⟩ :: messageWords ws

/-- `ETH_SEND_RECEIVE` (R330): a SEND of `words` reaches the queue pair `a`; without words, those received before move
on to the port. -/
def execEthSendReceive (s : State) : Host.Outcome State Fault Refusal :=
  let qp := s.pick.a
  if !s.qpRuns qp then .next s
  else if s.pick.words = [] then .next (s.fillPort qp)
  else
    let e := s.qpBytes qp
    let ws := s.pick.words
    let s := s.updQp qp fun q => { q with inbox := q.inbox ++ messageWords ws }
    let s := s.qpWrite qp 0x10 4 ((fieldAt e 0x10 4 + packets e (4 * ws.length)) % 2 ^ 24)
    .next ((s.qpWrite qp 0xE8 8 (fieldAt e 0xE8 8 + 1)).fillPort qp)

/-- Whether a registered range with a key grants an access to n bytes at a physical address. -/
def rangeGrants (e : List Byte) (key : Word) (a n bit : Nat) : Bool :=
  (List.range 4).any fun i =>
    let o := 0x60 + 32 * i
    let base := fieldAt e o 8
    let len := fieldAt e (o + 8) 8
    len ≠ 0 && fieldAt e (o + 16) 4 = key.toNat && (fieldAt e (o + 20) 4).testBit bit && base ≤ a && a + n ≤ base + len
      && a + n ≤ hbmBytes

/-- `ETH_RDMA_WRITE_RECEIVE` (R330): bytes for the physical address `b` reach the queue pair `a` with a key. -/
def execEthRdmaWriteReceive (s : State) : Host.Outcome State Fault Refusal :=
  let qp := s.pick.a
  let e := s.qpBytes qp
  let n := s.pick.bytes.length
  if !s.qpRuns qp || !rangeGrants e s.pick.word s.pick.b n 0 then .next s
  else
    let s := s.writeHome (physKey 0 s.pick.b) s.pick.bytes
    let s := s.qpWrite qp 0x10 4 ((fieldAt e 0x10 4 + packets e n) % 2 ^ 24)
    .next (s.qpWrite qp 0xE8 8 (fieldAt e 0xE8 8 + 1))

/-- `ETH_RDMA_READ_RECEIVE` (R330): a read of `c` bytes at the physical address `b` reaches the queue pair `a`. -/
def execEthRdmaReadReceive (s : State) : Host.Outcome State Fault Refusal :=
  let qp := s.pick.a
  let e := s.qpBytes qp
  if !s.qpRuns qp || !rangeGrants e s.pick.word s.pick.b s.pick.c 1 then .next s
  else
    let s := { s with outside := s.outside ++ [Outside.ethernet qp (s.homeRead (physKey 0 s.pick.b) s.pick.c)] }
    .next (s.qpWrite qp 0x10 4 ((fieldAt e 0x10 4 + packets e s.pick.c) % 2 ^ 24))

/-- `QP_VALID_CLEAR` (R330): the device sees that valid of the queue pair `a` is clear: it stops it, discards its queued
words and sets quiesced. -/
def execQpValidClear (s : State) : Host.Outcome State Fault Refusal :=
  let qp := s.pick.a
  let c := byteAt (s.qpBytes qp) 0
  if !s.qpExists qp || c.testBit 0 || (s.qp qp).stopped then .next s
  else
    let s := (s.clearPort qp).updQp qp fun _ => { (default : Qp) with stopped := true }
    .next (s.qpWrite qp 0 1 (c ||| 4))

/-- `QP_VALID_SET` (R330): valid of the stopped queue pair `a` is set again with quiesced clear: error and syndrome are
cleared and the entry is used. -/
def execQpValidSet (s : State) : Host.Outcome State Fault Refusal :=
  let qp := s.pick.a
  let c := byteAt (s.qpBytes qp) 0
  if !s.qpExists qp || !c.testBit 0 || c.testBit 2 || !(s.qp qp).stopped then .next s
  else
    let s := s.updQp qp fun _ => default
    .next ((s.qpWrite qp 0 1 (c - (if c.testBit 1 then 2 else 0))).qpWrite qp 0xF0 4 0)

/-- `QP_ERROR` (R396): the queue pair `a` enters error with a syndrome; its port delivers and keeps no word. -/
def execQpError (s : State) : Host.Outcome State Fault Refusal :=
  let qp := s.pick.a
  if !s.qpRuns qp then .next s
  else
    let c := byteAt (s.qpBytes qp) 0
    let s := (s.clearPort qp).updQp qp fun q => { q with words := [], inbox := [] }
    .next ((s.qpWrite qp 0 1 (c ||| 2)).qpWrite qp 0xF0 4 s.pick.word.toNat)

/-- `ETH_PORT_STATE_CHANGE` (R336): the Ethernet port `a` is up with `flag`, else down. -/
def execEthPortStateChange (s : State) : Host.Outcome State Fault Refusal :=
  if s.pick.a ≥ 16 then .next s
  else
    let bit := 1#32 <<< s.pick.a
    .next (s.setPreg 0x3F3 (if s.pick.flag then s.preg 0x3F3 ||| bit else s.preg 0x3F3 &&& ~~~bit))

/-! ## Converter nodes (R111 to R117) -/

/-- The direction, format and word type of a conversion word (R111). -/
def convDir (w : Word) : Nat := bitsOf w 30 2
/-- Its format. -/
def convFmt (w : Word) : Nat := bitsOf w 16 8
/-- Its word type. -/
def convType (w : Word) : Nat := bitsOf w 12 2

/-- The words that a link holds for its node, oldest first: its queue, its pass-through FIFOs from the last, and those
still travelling (R112). -/
def State.linkWords (s : State) (l : Link) (cl pos q : Nat) : List ChanWord :=
  (((s.cluster cl).edgeIn.find (edgeKey pos q)).getD []) ++ l.pass.reverse.flatMap (·.words) ++ l.wire

/-- Takes one word, the oldest, from a link for its node. -/
def State.takeLinkWord (s : State) (id cl pos q : Nat) : State :=
  match s.link? id with
  | none => s
  | some l =>
    let queue := ((s.cluster cl).edgeIn.find (edgeKey pos q)).getD []
    let s := s.updLink id fun l => { l with freed := l.freed + 1 }
    if queue ≠ [] then s.updCluster cl fun c => { c with edgeIn := c.edgeIn.put (edgeKey pos q) (queue.drop 1) }
    else
      match (List.range l.pass.length).reverse.find? fun j => (l.pass.getD j ⟨0, 0, []⟩).words != [] with
      | some j => s.updLink id (·.updPass j (·.drop 1))
      | none => s.updLink id fun l => { l with wire := l.wire.drop 1 }

/-- Words of a group of a direction that is not cut short: 0 where the group is counted in elements (R112, R116). A group
of MX words holds a block's worth only with the whole of its last MX group (DESIGN CHOICE, log 62). -/
def groupWords (conv : Word) (held : Nat) : Nat :=
  let n := fmtCount (convFmt conv)
  match convDir conv with
  | 0 => if convType conv = 0 then n else (n - held + 1) / 2
  | 2 => ((n - held + 31) / 32) * (1 + fmtWidth (convFmt conv))
  | _ => 16

/-- The complete group at the head of a link, and whether a tag-3 word ends it (R112). -/
def completeGroup (conv : Word) (held : Nat) (ws : List ChanWord) : Option (List Word × Bool) :=
  let n := groupWords conv held
  let head := ws.take n
  match head.findIdx? (·.tag = 3) with
  | some i => some ((head.take (i + 1)).map (·.word), true)
  | none => if ws.length ≥ n then some (head.map (·.word), false) else none

/-- MX groups of words, each a scale word and its elements; element words that a tag-3 word has cut off are 0 (DESIGN
CHOICE, log 59). -/
def mxGroups (code : Nat) : Nat → List Word → List Num
  | 0, _ => []
  | fuel + 1, ws =>
    if ws = [] then []
    else mxValues code (ws.take (1 + fmtWidth code)) ++ mxGroups code fuel (ws.drop (1 + fmtWidth code))

/-- Values packed into blocks of n, the last one short. -/
def packAll (code n : Nat) : Nat → List Num → List Word
  | 0, _ => []
  | fuel + 1, xs => if xs = [] then [] else wordsOfBytes (packBlock code (xs.take n)) ++ packAll code n fuel (xs.drop n)
/-- Values regrouped into MX groups of 32, the last one filled with zeros (R117). -/
def exportAll (code : Nat) : Nat → List Num → List Word
  | 0, _ => []
  | fuel + 1, xs => if xs = [] then [] else mxGroup code (xs.take 32) ++ exportAll code fuel (xs.drop 32)

/-- The words that a group becomes, the values kept for the next (a lane 1 behind a block's last element among them), or
a format that cannot be consumed (R106, R113 to R117): a latent block is none that a converter takes. Lane 1 of a lane-pair
word with tag 3 is an element, unless it lies behind the block's last one (DESIGN CHOICE, log 62). Bytes of a block that
a tag-3 word has cut off are 0 (DESIGN CHOICE, log 59). -/
def convertGroup (conv : Word) (held : List Num) (ws : List Word) (ends : Bool) : Except Nat (List Word × List Num) :=
  let code := convFmt conv
  let n := fmtCount code
  let block := fitTo 64 0 (bytesOfWords ws)
  match convDir conv with
  | 0 =>
    let xs := held ++ ws.flatMap (wordValues (convType conv))
    .ok (wordsOfBytes (packBlock code (xs.take n)), if ends then [] else xs.drop n)
  | 1 =>
    if (fmtGroup (byteAt block 0)).isNone then .error 0x48
    else .ok (valuesToWords (convType conv) (blockValues block), [])
  | 2 =>
    let xs := held ++ mxGroups code (ws.length + 1) ws
    if ends then .ok (packAll code n (xs.length + 1) xs, [])
    else .ok (wordsOfBytes (packBlock code (xs.take n)), xs.drop n)
  | _ =>
    if (fmtGroup (byteAt block 0)).isNone then .error 0x48
    else
      let xs := held ++ blockValues block
      if ends then .ok (exportAll code (xs.length + 1) xs, [])
      else
        let k := xs.length / 32 * 32
        .ok (exportAll code (xs.length + 1) (xs.take k), xs.drop k)

/-- The tags of a node's words: 3 for the last of an unpacked block and of an ended export, 0 for the others of an
unpacked block; the rest are open (DESIGN CHOICE, log 15). -/
def State.convWords (s : State) (conv : Word) (ends : Bool) (ws : List Word) : List ChanWord :=
  ws.zipIdx.map fun x =>
    let last := x.2 + 1 = ws.length
    let tag : Tag :=
      if convDir conv = 1 then (if last then 3 else 0)
      else if convDir conv = 3 && ends && last then 3
      else Config.convTag s.tick x.2
    ⟨x.1, tag, 0⟩

/-- The fault of a converter on a link (R106): its record names the link's sending element with its step counter, or no
element where a stream port sends, and no rule, address 0; no replay entry is made, and the group stays in the link
(DESIGN CHOICE, log 15). A ridge that is held already gets no second record. -/
def State.convertFault (s : State) (l : Link) (code : Nat) : State :=
  match s.spur? l.spur with
  | none => s
  | some p =>
    let k := match l.sender with
      | .elemOut k _ => k
      | _ => Config.noElement s.tick
    let step := match l.sender with
      | .elemOut k _ => (s.elem k).steps
      | _ => 0
    match s.chain? p.chain with
    | some c =>
      if c.phase = .held || c.frozen then s
      else s.raise p.chain { code := code, elem := k, stage := p.stage, spur := p.index, step := step }
    | none => s

/-- The group at the head of a link is converted (R112). -/
def State.convertLink (s : State) (l : Link) (conv : Word) (cl pos q : Nat) : State :=
  match completeGroup conv l.held.length (s.linkWords l cl pos q) with
  | none => s
  | some (ws, ends) =>
    match convertGroup conv l.held ws ends with
    | .error code => (s.convertFault l code).updCluster cl fun c => { c with turn := c.turn.put pos (q + 1) }
    | .ok (out, held) =>
      let s := ws.foldl (fun s _ => s.takeLinkWord l.id cl pos q) s
      let s := s.updLink l.id fun l => { l with held := held }
      let key := edgeKey pos q
      let words := s.convWords conv ends out
      s.updCluster cl fun c => { c with
        edgeOut := c.edgeOut.put key ((c.edgeOut.find key).getD [] ++ words)
        turn := c.turn.put pos (q + 1) }

/-- The links bound to a node's queues, from the one whose turn it is (R112). -/
def State.nodeLinks (s : State) (cl pos : Nat) : List (Link × Word × Nat) :=
  let first := ((s.cluster cl).turn.find pos).getD 0
  (List.range 4).filterMap fun i =>
    let q := (first + i) % 4
    match s.linkTo (.edgeIn cl pos q) with
    | some l => l.conv.map fun w => (l, w, q)
    | none => none

/-- `CONVERTER_GROUP` (R112): node A of the cluster `a`, with `flag` node B, converts the next complete group of its
links in round robin. -/
def execConverterGroup (s : State) : Host.Outcome State Fault Refusal :=
  let cl := s.pick.a
  let pos := if s.pick.flag then 3 else 1
  match (s.nodeLinks cl pos).find? fun x =>
      (completeGroup x.2.1 x.1.held.length (s.linkWords x.1 cl pos x.2.2)).isSome with
  | some (l, conv, q) => .next (s.convertLink l conv cl pos q)
  | none => .next s

end Sys2Proof.Machine
end

