-- ==== Sys2Proof/Machine/Float.lean ====
section
/-!
DEFINITION. Floating point (cells 0x11 to 0x14, R224 to R229).
-/
namespace Sys2Proof.Machine


/-- A float operand as a pattern: a pair for `.f64`, else a word (R224). -/
def State.rdF (s : State) (t : BitVec 2) (dm : Demand) (c : Code) : BitVec 64 :=
  if t = 3 then s.rdPair c else (s.rd dm c).setWidth 64
/-- A float result written: a pair for `.f64` (R224). -/
def State.wrF (s : State) (t : BitVec 2) (c : Code) (v : BitVec 64) : State :=
  if t = 3 then s.wrPair c v else s.wr c (v.setWidth 32)
/-- The codes that a rule of a type reads as source codes: none for `.f64`, whose operands are pairs. -/
def floatDemand (t : BitVec 2) (cs : List Code) : Demand := if t = 3 then [] else one cs

/-- An operation on patterns of a type, lane by lane for packed types (R95). -/
def onLanes (t : BitVec 2) (f : FloatFmt → Nat → Nat → Nat → Nat) (x y z : BitVec 64) : BitVec 64 :=
  let g := f (typeFmt t)
  if isPacked t then
    let l (i : Nat) := g (lane i (x.setWidth 32)) (lane i (y.setWidth 32)) (lane i (z.setWidth 32))
    (joinLanes (l 0) (l 1)).setWidth 64
  else BitVec.ofNat 64 (g x.toNat y.toNat z.toNat)

/-- Two float operands, one result (R225). -/
def State.fbin (s : State) (t : BitVec 2) (o : ROp) (f : FloatFmt → Nat → Nat → Nat) : State :=
  let dm := floatDemand t [o.a, o.b]
  (s.consume dm).wrF t o.d (onLanes t (fun m x y _ => f m x y) (s.rdF t dm o.a) (s.rdF t dm o.b) 0)
/-- One float operand, one result (R225). -/
def State.fun1 (s : State) (t : BitVec 2) (o : ROp) (f : FloatFmt → Nat → Nat) : State :=
  let dm := floatDemand t [o.a]
  (s.consume dm).wrF t o.d (onLanes t (fun m x _ _ => f m x) (s.rdF t dm o.a) 0 0)
/-- A fused form: the old value of dst is the addend (R226, R212). -/
def State.fused (s : State) (t : BitVec 2) (o : ROp) (f : FloatFmt → Nat → Nat → Nat → Nat) : State :=
  let dm := floatDemand t [o.a, o.b]
  let z := if t = 3 then s.rdPair o.d else (s.me.reg o.d.toNat).setWidth 64
  (s.consume dm).wrF t o.d (onLanes t f (s.rdF t dm o.a) (s.rdF t dm o.b) z)
/-- A float comparison into a predicate (R227). -/
def State.fcompare (s : State) (t : BitVec 2) (o : POp) (rel : Nat) : State :=
  let dm := floatDemand t [o.a, o.b]
  (s.consume dm).setp o.pd (fcond t rel (s.rdF t dm o.a) (s.rdF t dm o.b)) o.pop

/-- The rounding mode of a rule of cell 0x14 (R228). -/
def modeOf (o : ROp) : Nat := o.b.toNat % 8
/-- The target type of `fcvt` (R228). -/
def targetOf (o : ROp) : BitVec 2 := BitVec.ofNat 2 (o.b.toNat / 8)

/-- The word of `fclass`: packed types write lane 1 in bits 25 to 16 (R229). -/
def classWord (t : BitVec 2) (x : BitVec 64) : Word :=
  let f := typeFmt t
  if isPacked t then
    BitVec.ofNat 32 (f.classMask (lane 0 (x.setWidth 32)) + f.classMask (lane 1 (x.setWidth 32)) * 65536)
  else BitVec.ofNat 32 (f.classMask x.toNat)

/-- The pattern that a scalar conversion reads: lane 0 of packed types (R228). -/
def scalarOf (t : BitVec 2) (x : BitVec 64) : Nat :=
  if isPacked t then lane 0 (x.setWidth 32) else if t = 3 then x.toNat else x.toNat % 2 ^ 32

/-- `f2i` of a pattern to a range (R94, R228). -/
def f2iWord (t : BitVec 2) (mode : Nat) (lo hi : Int) (x : BitVec 64) : Word :=
  BitVec.ofInt 32 (((typeFmt t).decode (scalarOf t x)).toInt mode lo hi)

/-- `i2f` of an integer; packed types write lane 0 and +0 in lane 1 (R228). -/
def i2fBits (t : BitVec 2) (mode : Nat) (i : Int) : BitVec 64 := BitVec.ofNat 64 ((typeFmt t).round mode (Num.ofInt i))

/-- `fcvt` of a pattern (R228): both lanes between packed types, else one value into lane 0 or the whole. -/
def fcvtBits (t u : BitVec 2) (mode : Nat) (x : BitVec 64) : BitVec 64 :=
  let c := (typeFmt t).convert (typeFmt u) mode
  if isPacked t && isPacked u then
    (joinLanes (c (lane 0 (x.setWidth 32))) (c (lane 1 (x.setWidth 32)))).setWidth 64
  else BitVec.ofNat 64 (c (scalarOf t x))

/-- A conversion from a float to one word. -/
def State.toWord (s : State) (t : BitVec 2) (o : ROp) (f : BitVec 64 → Word) : State :=
  let dm := floatDemand t [o.a]
  (s.consume dm).wr o.d (f (s.rdF t dm o.a))
/-- A conversion from an integer word to a float. -/
def State.fromWord (s : State) (t : BitVec 2) (o : ROp) (f : Word → BitVec 64) : State :=
  let dm := one [o.a]
  (s.consume dm).wrF t o.d (f (s.rd dm o.a))

/-- `fadd` (R225). -/
def execFadd (o : ROp) (t : BitVec 2) (s : State) : Host.Outcome State Fault Refusal :=
  fireOp (.fadd o t) (fun s => s.fbin t o FloatFmt.add) s

/-- `fsub` (R225). -/
def execFsub (o : ROp) (t : BitVec 2) (s : State) : Host.Outcome State Fault Refusal :=
  fireOp (.fsub o t) (fun s => s.fbin t o FloatFmt.sub) s

/-- `fmul` (R225). -/
def execFmul (o : ROp) (t : BitVec 2) (s : State) : Host.Outcome State Fault Refusal :=
  fireOp (.fmul o t) (fun s => s.fbin t o FloatFmt.mul) s

/-- `fmin` (R225). -/
def execFmin (o : ROp) (t : BitVec 2) (s : State) : Host.Outcome State Fault Refusal :=
  fireOp (.fmin o t) (fun s => s.fbin t o FloatFmt.min) s

/-- `fmax` (R225). -/
def execFmax (o : ROp) (t : BitVec 2) (s : State) : Host.Outcome State Fault Refusal :=
  fireOp (.fmax o t) (fun s => s.fbin t o FloatFmt.max) s

/-- `fabs` (R225, R97). -/
def execFabs (o : ROp) (t : BitVec 2) (s : State) : Host.Outcome State Fault Refusal :=
  fireOp (.fabs o t) (fun s => s.fun1 t o FloatFmt.absBits) s

/-- `fneg` (R225, R97). -/
def execFneg (o : ROp) (t : BitVec 2) (s : State) : Host.Outcome State Fault Refusal :=
  fireOp (.fneg o t) (fun s => s.fun1 t o FloatFmt.negBits) s

/-- `ffma` (R226). -/
def execFfma (o : ROp) (t : BitVec 2) (s : State) : Host.Outcome State Fault Refusal :=
  fireOp (.ffma o t) (fun s => s.fused t o FloatFmt.fma) s

/-- `ffms` (R226). -/
def execFfms (o : ROp) (t : BitVec 2) (s : State) : Host.Outcome State Fault Refusal :=
  fireOp (.ffms o t) (fun s => s.fused t o (fun m x y z => m.fma x y (m.negBits z))) s

/-- `fnma` (R226). -/
def execFnma (o : ROp) (t : BitVec 2) (s : State) : Host.Outcome State Fault Refusal :=
  fireOp (.fnma o t) (fun s => s.fused t o (fun m x y z => m.fma (m.negBits x) y z)) s

/-- `fcmp.eq` (R227). -/
def execFcmpEq (o : POp) (t : BitVec 2) (s : State) : Host.Outcome State Fault Refusal :=
  fireOp (.fcmpEq o t) (fun s => s.fcompare t o 0) s

/-- `fcmp.lt` (R227). -/
def execFcmpLt (o : POp) (t : BitVec 2) (s : State) : Host.Outcome State Fault Refusal :=
  fireOp (.fcmpLt o t) (fun s => s.fcompare t o 1) s

/-- `fcmp.le` (R227). -/
def execFcmpLe (o : POp) (t : BitVec 2) (s : State) : Host.Outcome State Fault Refusal :=
  fireOp (.fcmpLe o t) (fun s => s.fcompare t o 2) s

/-- `fcmp.un` (R227). -/
def execFcmpUn (o : POp) (t : BitVec 2) (s : State) : Host.Outcome State Fault Refusal :=
  fireOp (.fcmpUn o t) (fun s => s.fcompare t o 3) s

/-- `fclass` (R229). -/
def execFclass (o : ROp) (t : BitVec 2) (s : State) : Host.Outcome State Fault Refusal :=
  fireOp (.fclass o t) (fun s => s.toWord t o (classWord t)) s

/-- `frnd` (R228). -/
def execFrnd (o : ROp) (t : BitVec 2) (s : State) : Host.Outcome State Fault Refusal :=
  fireOp (.frnd o t) (fun s => s.fun1 t o (fun m x => m.round 0 ((m.decode x).integral (modeOf o)))) s

/-- `f2i.i32` (R228, R94). -/
def execF2iI32 (o : ROp) (t : BitVec 2) (s : State) : Host.Outcome State Fault Refusal :=
  fireOp (.f2iI32 o t) (fun s => s.toWord t o (f2iWord t (modeOf o) (-(2 ^ 31)) (2 ^ 31 - 1))) s

/-- `f2i.n32` (R228, R94). -/
def execF2iN32 (o : ROp) (t : BitVec 2) (s : State) : Host.Outcome State Fault Refusal :=
  fireOp (.f2iN32 o t) (fun s => s.toWord t o (f2iWord t (modeOf o) 0 (2 ^ 32 - 1))) s

/-- `i2f.i32` (R228). -/
def execI2fI32 (o : ROp) (t : BitVec 2) (s : State) : Host.Outcome State Fault Refusal :=
  fireOp (.i2fI32 o t) (fun s => s.fromWord t o (fun x => i2fBits t (modeOf o) x.toInt)) s

/-- `i2f.n32` (R228). -/
def execI2fN32 (o : ROp) (t : BitVec 2) (s : State) : Host.Outcome State Fault Refusal :=
  fireOp (.i2fN32 o t) (fun s => s.fromWord t o (fun x => i2fBits t (modeOf o) x.toNat)) s

/-- `fcvt` (R228). -/
def execFcvt (o : ROp) (t : BitVec 2) (s : State) : Host.Outcome State Fault Refusal :=
  fireOp (.fcvt o t) (fun s =>
    let dm := floatDemand t [o.a]
    (s.consume dm).wrF (targetOf o) o.d (fcvtBits t (targetOf o) (modeOf o) (s.rdF t dm o.a))) s

end Sys2Proof.Machine
end

