-- ==== Sys2Proof/Machine/Func.lean ====
section
/-!
DEFINITION. The function element (cell 0x21, R237 to R239).
-/
namespace Sys2Proof.Machine


/-- A function-element rule fires: its destination is pending or reserved, and its result is under way
(R237, R239). -/
def State.sendFunc (s : State) (o : ROp) (cs : List Code) (f : Word → Word → Word) : State :=
  let dm := one cs
  let w := f (s.rd dm o.a) (s.rd dm o.b)
  let r := s.newReq .func .none
  let (s, dst) := (s.consume dm).reserveDst s.cur.elem o.d 1
  s.addReq { r with dst := dst, value := [w], phase := .answered }

/-- `sin.f` (R237). -/
def execSinF (o : ROp) (s : State) : Host.Outcome State Fault Refusal :=
  fireOp (.sinF o) (fun s => s.sendFunc o [o.a] (fun x _ => onF32 sinF x)) s

/-- `cos.f` (R237). -/
def execCosF (o : ROp) (s : State) : Host.Outcome State Fault Refusal :=
  fireOp (.cosF o) (fun s => s.sendFunc o [o.a] (fun x _ => onF32 cosF x)) s

/-- `sin.q` (R238). -/
def execSinQ (o : ROp) (s : State) : Host.Outcome State Fault Refusal :=
  fireOp (.sinQ o) (fun s => s.sendFunc o [o.a] (fun x _ => onF32 sinQ x)) s

/-- `cos.q` (R238). -/
def execCosQ (o : ROp) (s : State) : Host.Outcome State Fault Refusal :=
  fireOp (.cosQ o) (fun s => s.sendFunc o [o.a] (fun x _ => onF32 cosQ x)) s

/-- `exp2` (R237). -/
def execExp2 (o : ROp) (s : State) : Host.Outcome State Fault Refusal :=
  fireOp (.exp2 o) (fun s => s.sendFunc o [o.a] (fun x _ => onF32 exp2F x)) s

/-- `log2` (R237). -/
def execLog2 (o : ROp) (s : State) : Host.Outcome State Fault Refusal :=
  fireOp (.log2 o) (fun s => s.sendFunc o [o.a] (fun x _ => onF32 log2F x)) s

/-- `rcp` (R237). -/
def execRcp (o : ROp) (s : State) : Host.Outcome State Fault Refusal :=
  fireOp (.rcp o) (fun s => s.sendFunc o [o.a] (fun x _ => onF32 rcpF x)) s

/-- `rsqrt` (R237). -/
def execRsqrt (o : ROp) (s : State) : Host.Outcome State Fault Refusal :=
  fireOp (.rsqrt o) (fun s => s.sendFunc o [o.a] (fun x _ => onF32 rsqrtF x)) s

/-- `sqrt` (R237). -/
def execSqrt (o : ROp) (s : State) : Host.Outcome State Fault Refusal :=
  fireOp (.sqrt o) (fun s => s.sendFunc o [o.a] (fun x _ => onF32 Num.sqrt x)) s

/-- `tanh` (R237). -/
def execTanh (o : ROp) (s : State) : Host.Outcome State Fault Refusal :=
  fireOp (.tanh o) (fun s => s.sendFunc o [o.a] (fun x _ => onF32 tanhF x)) s

/-- `erf` (R237). -/
def execErf (o : ROp) (s : State) : Host.Outcome State Fault Refusal :=
  fireOp (.erf o) (fun s => s.sendFunc o [o.a] (fun x _ => onF32 erfF x)) s

/-- `fdiv` (R237). -/
def execFdiv (o : ROp) (s : State) : Host.Outcome State Fault Refusal :=
  fireOp (.fdiv o) (fun s => s.sendFunc o [o.a, o.b] fdiv32) s

/-- `idiv.i32` (R237). -/
def execIdivI32 (o : ROp) (s : State) : Host.Outcome State Fault Refusal :=
  fireOp (.idivI32 o) (fun s => s.sendFunc o [o.a, o.b] Machine.idivI32) s

/-- `idiv.n32` (R237). -/
def execIdivN32 (o : ROp) (s : State) : Host.Outcome State Fault Refusal :=
  fireOp (.idivN32 o) (fun s => s.sendFunc o [o.a, o.b] Machine.idivN32) s

/-- `irem.i32` (R237). -/
def execIremI32 (o : ROp) (s : State) : Host.Outcome State Fault Refusal :=
  fireOp (.iremI32 o) (fun s => s.sendFunc o [o.a, o.b] Machine.iremI32) s

/-- `irem.n32` (R237). -/
def execIremN32 (o : ROp) (s : State) : Host.Outcome State Fault Refusal :=
  fireOp (.iremN32 o) (fun s => s.sendFunc o [o.a, o.b] Machine.iremN32) s

/-- `sin.q.p7` (R238: `p7` is written in the firing step). -/
def execSinQP7 (o : ROp) (s : State) : Host.Outcome State Fault Refusal :=
  fireOp (.sinQP7 o) (fun s =>
    let out := angleOut (val32 (s.rd (one [o.a]) o.a))
    (s.sendFunc o [o.a] (fun x _ => onF32 sinQ x)).updMe (·.setPred 7 out)) s

/-- `cos.q.p7` (R238: `p7` is written in the firing step). -/
def execCosQP7 (o : ROp) (s : State) : Host.Outcome State Fault Refusal :=
  fireOp (.cosQP7 o) (fun s =>
    let out := angleOut (val32 (s.rd (one [o.a]) o.a))
    (s.sendFunc o [o.a] (fun x _ => onF32 cosQ x)).updMe (·.setPred 7 out)) s

end Sys2Proof.Machine
end

