-- ==== Sys2Proof/Machine/HostEvents.lean ====
section
/-!
DEFINITION. What the host and the board do to the device: reset and start (R320, R321), writes of registers (R317, R324,
R325, R332, R333, R397), reads that latch (R299, R302, R386), host memory (R318, R319), and the operating point over time
(R332 to R335).
-/
namespace Sys2Proof.Machine

/-! ## Reset and start (R320, R321) -/

/-- `RESET` (R320): the device is as `State.reset` says; the count of happenings goes on (DEDUCED, log 14). -/
def execReset (s : State) : Host.Outcome State Fault Refusal := .next { State.reset with tick := s.tick }

/-- `SELF_TEST_COMPLETE` (R320): self-test is done; bits 3 to 0 of `a` are the massifs that fail it (R336). -/
def execSelfTestComplete (s : State) : Host.Outcome State Fault Refusal :=
  let w := s.preg 0x295
  .next (s.setPreg 0x295 ((w &&& ~~~0xF0#32) ||| 1#32 ||| BitVec.ofNat 32 (s.pick.a % 16 * 16)))

/-- `DEV_START_WRITE` (R320). -/
def execDevStartWrite (s : State) : Host.Outcome State Fault Refusal := .next (s.writeReg 0x294 s.pick.word)

/-! ## Register writes (R317) -/

/-- `LQ_TAIL_WRITE` (R68): of the queue `a`. -/
def execLqTailWrite (s : State) : Host.Outcome State Fault Refusal :=
  if s.pick.a < 16 then .next (s.writeReg (0x300 + s.pick.a) s.pick.word) else .next s

/-- `LQ_BASE_SIZE_WRITE` (R324): of the register `a`. -/
def execLqBaseSizeWrite (s : State) : Host.Outcome State Fault Refusal :=
  if 0x2C0 ≤ s.pick.a && s.pick.a ≤ 0x2EF then .next (s.writeReg s.pick.a s.pick.word) else .next s

/-- `TRANS_INVAL_HI_WRITE` (R302). -/
def execTransInvalHiWrite (s : State) : Host.Outcome State Fault Refusal := .next (s.writeReg 0x213 s.pick.word)

/-- `CHAIN_KILL_HI_WRITE` (R302). -/
def execChainKillHiWrite (s : State) : Host.Outcome State Fault Refusal := .next (s.writeReg 0x222 s.pick.word)

/-- `SIG_PEND_WRITE` (R325): of the upper register with `flag`. -/
def execSigPendWrite (s : State) : Host.Outcome State Fault Refusal :=
  .next (s.writeReg (sigPend s.pick.flag) s.pick.word)

/-- `SIG_EN_WRITE` (R325): of the upper register with `flag`. -/
def execSigEnWrite (s : State) : Host.Outcome State Fault Refusal := .next (s.writeReg (sigEn s.pick.flag) s.pick.word)

/-- `VREG_WRITE` (R332): of the cluster `a`. -/
def execVregWrite (s : State) : Host.Outcome State Fault Refusal :=
  if s.pick.a < 96 then .next (s.writeReg (0x370 + s.pick.a) s.pick.word) else .next s

/-- `METER_WRITE` (R333): of the cluster `a`. -/
def execMeterWrite (s : State) : Host.Outcome State Fault Refusal :=
  if s.pick.a < 96 then .next (s.writeReg (0x310 + s.pick.a) s.pick.word) else .next s

/-- `CLUS_OFF_WRITE` (R397): of the register `a`. -/
def execClusOffWrite (s : State) : Host.Outcome State Fault Refusal :=
  if s.pick.a < 3 then .next (s.writeReg (0x235 + s.pick.a) s.pick.word) else .next s

/-- A value that a host access of BAR0 reads: registers by aligned words, nothing below the privileged view, all ones
for another size or alignment (R317). -/
def State.barRead (s : State) (off size : Nat) : Word :=
  if size ≠ 4 || off % 4 ≠ 0 then 0xFFFFFFFF#32 else if off < 0x800 then 0 else s.readReg (off / 4)
/-- What that access latches. -/
def State.barLatch (s : State) (off size : Nat) : State :=
  if size ≠ 4 || off % 4 ≠ 0 || off < 0x800 then s else s.latchReg (off / 4)
/-- A host write at an offset of BAR0 (R317). -/
def State.barWrite (s : State) (off size : Nat) (w : Word) : State :=
  if size ≠ 4 || off % 4 ≠ 0 || off < 0x800 then s else s.writeReg (off / 4) w

/-- `REGISTER_WRITE` (R298, R317): of the register `a` of the privileged view; below it a write is ignored. With `flag`
the host accesses `b` bytes at the offset `a` of BAR0 instead: with `c` = 1 it reads them, else it writes them. -/
def execRegisterWrite (s : State) : Host.Outcome State Fault Refusal :=
  if s.pick.flag then
    let off := s.pick.a % 4096
    if s.pick.c = 1 then .next ((s.barLatch off s.pick.b).tellHost (s.barRead off s.pick.b))
    else .next (s.barWrite off s.pick.b s.pick.word)
  else if 0x200 ≤ s.pick.a && s.pick.a < 0x400 then .next (s.writeReg s.pick.a s.pick.word) else .next s

/-! ## Reads that latch (R299, R386) -/

/-- `STEP_LO_READ` (R299): a read of STEP_LO of the element `a`: the high word is latched, the low word returned. -/
def execStepLoRead (s : State) : Host.Outcome State Fault Refusal :=
  .next ((s.sysLatch s.pick.a 4).tellHost (s.userReg s.pick.a 4))

/-- `ECC_LAST_LO_READ` (R386): the high word of the last uncorrectable address is latched, the low word returned. -/
def execEccLastLoRead (s : State) : Host.Outcome State Fault Refusal :=
  .next ((s.latchReg 0x232).tellHost (s.readReg 0x232))

/-- `HMASK_WRITE` (R43, R299): the handler mask of the element `a` changes, between two of its firing steps. -/
def execHmaskWrite (s : State) : Host.Outcome State Fault Refusal :=
  .next (s.updElem s.pick.a fun e => { e with hmask := s.pick.word.extractLsb' 0 17 })

/-! ## Host memory (R318, R319) -/

/-- `HOST_MEM_READ` (R318): `b` bytes at the device physical address `a` bind at the home. -/
def execHostMemRead (s : State) : Host.Outcome State Fault Refusal :=
  if s.pick.a + s.pick.b ≤ hbmBytes then
    .next { s with outside := s.outside ++ [.bytes (s.homeRead (physKey 0 s.pick.a) s.pick.b)] }
  else .next s

/-- `HOST_MEM_WRITE` (R318): the bytes land at the home at the device physical address `a`. -/
def execHostMemWrite (s : State) : Host.Outcome State Fault Refusal :=
  if s.pick.a + s.pick.bytes.length ≤ hbmBytes then .next (s.writeHome (physKey 0 s.pick.a) s.pick.bytes) else .next s

/-- Drops every copy of lines of 256 bytes in every cluster, dirty or not (R127, R319). -/
def State.dropEverywhere (s : State) (lines : List Nat) : State :=
  let hit (c : Nat) : Bool := lines.contains (sectorOf (c % 2 ^ 54) / 4)
  { s with
    copies := s.copies.filter fun c => !hit c.1
    early := s.early.filter fun q => !lines.contains (q % 2 ^ 46)
    copyPoison := s.copyPoison.filter fun q => !lines.contains (q % 2 ^ 48 / 4)
    l1 := s.l1.filter fun c => !hit c.1 }

/-- `HOST_LINE_WRITE` (R319): the host writes bytes at the host physical address `a`; the device drops its copies of the
lines first, once none of them is pinned (R137). -/
def execHostLineWrite (s : State) : Host.Outcome State Fault Refusal :=
  let k := physKey 1 s.pick.a
  let secs := touchedSectors k s.pick.bytes.length
  if s.pick.a + s.pick.bytes.length > 2 ^ 43 || secs.any (fun sec => s.pins.any fun p => p.sector / 4 = sec / 4) then .next s
  else .next ((s.dropEverywhere (secs.map (· / 4))).writeHome k s.pick.bytes)

/-! ## Operating point (R332 to R335) -/

/-- `REGULATOR_STEP` (R332): the current code of the cluster `a` moves one code toward its target; where it reaches it,
a cluster that waits for that returns to placement (R397). -/
def execRegulatorStep (s : State) : Host.Outcome State Fault Refusal :=
  let cl := s.pick.a
  let w := s.preg (0x370 + cl)
  let cur := bitsOf w 8 6
  let target := bitsOf w 16 6
  if cl ≥ 96 || cur = target then .next s
  else
    let next := if cur < target then cur + 1 else cur - 1
    .next (((s.noteSteps cl).setPreg (0x370 + cl) (vregWord (bitsOf w 24 6) target next (bitsOf w 0 6))).updCluster cl fun c =>
      { c with movedNs := s.timeNs.toNat, returning := c.returning && next ≠ target })

/-- The count c of a meter's ceiling is set (R333). -/
def State.setMeterC (s : State) (cl c : Nat) : State :=
  let w := s.preg (0x310 + cl)
  (s.setPreg (0x310 + cl) ((w &&& ~~~0x07000000#32) ||| (BitVec.ofNat 32 (c % 8) <<< 24))).settleMeter cl
/-- The voltage ceiling of a cluster is set (R332). -/
def State.setCeiling (s : State) (cl v : Nat) : State := s.retarget cl v (bitsOf (s.preg (0x370 + cl)) 0 6)
/-- The count c of a cluster's meter. -/
def State.meterC (s : State) (cl : Nat) : Nat := bitsOf (s.preg (0x310 + cl)) 24 3
/-- The voltage ceiling of a cluster. -/
def State.ceiling (s : State) (cl : Nat) : Nat := bitsOf (s.preg (0x370 + cl)) 24 6

/-- The observer limits a cluster by one more: c first, then its voltage ceiling (R334). -/
def State.limitMore (s : State) (cl : Nat) : State :=
  if s.meterC cl < 7 then s.setMeterC cl (s.meterC cl + 1) else s.setCeiling cl (s.ceiling cl - 1)
/-- The observer takes back its last limit of a cluster: the voltage ceiling rises first, then c falls (R334). -/
def State.limitLess (s : State) (cl : Nat) : State :=
  if s.ceiling cl < 40 then s.setCeiling cl (s.ceiling cl + 1)
  else if s.meterC cl > 0 then s.setMeterC cl (s.meterC cl - 1)
  else s

/-- The clusters of a massif (R13). -/
def massifClusters (m : Nat) : List Nat := (List.range 24).map (24 * m + ·)
/-- Bits of OBS_STAT after a period: the observer runs, whether it limits a cluster, and no fallback is held (R336). -/
def State.observeStat (s : State) (m : Nat) : State :=
  let limits := (massifClusters m).any fun cl => s.meterC cl > 0 || s.ceiling cl < 40
  let w := s.preg 0x3D8
  let w := (w ||| (1#32 <<< m)) &&& ~~~((1#32 <<< (8 + m)) ||| (1#32 <<< (4 + m)))
  s.setPreg 0x3D8 (if limits then w ||| (1#32 <<< (4 + m)) else w)

/-- `THERMAL_OBSERVER_PERIOD` (R334): the observer in the system spur of the massif `a` completes a period. The hottest
sensor, the predicted temperature and the predicted package power, which is compared with PWR_LIMIT, are the observer's
own (DESIGN CHOICE, log 6). -/
def execThermalObserverPeriod (s : State) : Host.Outcome State Fault Refusal :=
  let m := s.pick.a
  match s.chain? (0xFFFFFFFFFFFFFFF0 + m) with
  | none => .next s
  | some _ =>
    if m ≥ 4 then .next s
    else
      let (hot, pred, power) := Config.prediction s.tick m
      let limit := bitsOf (s.preg 0x3D0) 0 8
      let powerLimit := bitsOf (s.preg 0x3D1) 0 16
      let s := s.setPreg (0x3D4 + m) (hot ++ pred).toNat
      let s := if pred.toNat > limit || power.toNat > powerLimit then (massifClusters m).foldl State.limitMore s
        else if pred.toNat + 2 ≤ limit && decide (power.toNat < powerLimit) then (massifClusters m).foldl State.limitLess s
        else s
      let s := (massifClusters m).foldl (fun s cl => s.updCluster cl fun c => { c with observedNs := s.timeNs.toNat }) s
      .next (s.observeStat m)

/-- `OBSERVER_FALLBACK` (R334): the massif `a`'s observer has completed no period for 1 ms. -/
def execObserverFallback (s : State) : Host.Outcome State Fault Refusal :=
  let m := s.pick.a
  if m < 4 && s.started && s.timeNs.toNat ≥ (s.cluster (24 * m)).observedNs + 1000000 then
    let s := s.fallback m
    .next (s.setPreg 0x3D8 (s.preg 0x3D8 &&& ~~~(1#32 <<< m)))
  else .next s

/-- `LEASE_EXPIRY` (R335): the lease of the cluster `a` has run out. -/
def execLeaseExpiry (s : State) : Host.Outcome State Fault Refusal :=
  match (s.cluster s.pick.a).lease with
  | some l => if l.endNs ≤ s.timeNs.toNat then .next (s.endLease s.pick.a) else .next s
  | none => .next s

/-- `METER_RATE_RISE` (R333): the admitted level of the cluster `a` rises toward its level, by at most the ramp; a ramp
of 0 sets no limit. -/
def execMeterRateRise (s : State) : Host.Outcome State Fault Refusal :=
  let cl := s.pick.a
  let level := s.meterLevel cl
  let ramp := bitsOf (s.preg (0x310 + cl)) 12 12
  if cl ≥ 96 then .next s
  else .next (s.updCluster cl fun c =>
    { c with level := if ramp = 0 then level else max c.level (min level (c.level + ramp)) })

end Sys2Proof.Machine
end

