-- ==== Sys2Proof/Machine/IntAlu.lean ====
section
/-!
DEFINITION. Integer instructions (cells 0x00 to 0x09, R213 to R221).
-/
namespace Sys2Proof.Machine


/-- A signed value clamped to 32 bits (R213). -/
def satI32 (v : Int) : Word := BitVec.ofInt 32 (if v < -(2 ^ 31) then -(2 ^ 31) else if v > 2 ^ 31 - 1 then 2 ^ 31 - 1 else v)
/-- `shl` (R214). -/
def shlW (x y : Word) : Word := if y.toNat < 32 then x <<< y.toNat else 0
/-- `shr` (R214). -/
def shrW (x y : Word) : Word := if y.toNat < 32 then x >>> y.toNat else 0
/-- `sar` (R214). -/
def sarW (x y : Word) : Word := x.sshiftRight (min y.toNat 31)
/-- `rol` (R214). -/
def rolW (x y : Word) : Word := x.rotateLeft (y.toNat % 32)
/-- Number of one bits among the lowest n. -/
def onesBelow (x : Word) : Nat → Nat
  | 0 => 0
  | n + 1 => (if x.getLsbD n then 1 else 0) + onesBelow x n
/-- Trailing zeros, counted from bit i with n bits left. -/
def trailing (x : Word) : Nat → Nat → Nat
  | _, 0 => 0
  | i, n + 1 => if x.getLsbD i then 0 else 1 + trailing x (i + 1) n
/-- `popc` (R214). -/
def popcW (x : Word) : Word := BitVec.ofNat 32 (onesBelow x 32)
/-- `brev` (R214). -/
def brevW (x : Word) : Word := x.reverse
/-- `ctz` (R214). -/
def ctzW (x : Word) : Word := BitVec.ofNat 32 (trailing x 0 32)
/-- `clz` (R214). -/
def clzW (x : Word) : Word := ctzW (brevW x)
/-- The high word of the signed product (R215). -/
def mulhS (x y : Word) : Word := BitVec.ofInt 32 (x.toInt * y.toInt / 2 ^ 32)
/-- The high word of the unsigned product (R215). -/
def mulhU (x y : Word) : Word := BitVec.ofNat 32 (x.toNat * y.toNat / 2 ^ 32)

/-- `add` (R213). -/
def execAdd (o : ROp) (s : State) : Host.Outcome State Fault Refusal :=
  fireOp (.add o) (fun s => s.bin o.a o.b o.d (· + ·)) s

/-- `sub` (R213). -/
def execSub (o : ROp) (s : State) : Host.Outcome State Fault Refusal :=
  fireOp (.sub o) (fun s => s.bin o.a o.b o.d (· - ·)) s

/-- `neg` (R213). -/
def execNeg (o : ROp) (s : State) : Host.Outcome State Fault Refusal :=
  fireOp (.neg o) (fun s => s.un o.a o.d (fun x => 0 - x)) s

/-- `abs` (R213). -/
def execAbs (o : ROp) (s : State) : Host.Outcome State Fault Refusal :=
  fireOp (.abs o) (fun s => s.un o.a o.d (fun x => if 0 ≤ x.toInt then x else 0 - x)) s

/-- `min.i32` (R213). -/
def execMinI32 (o : ROp) (s : State) : Host.Outcome State Fault Refusal :=
  fireOp (.minI32 o) (fun s => s.bin o.a o.b o.d (fun x y => if y.slt x then y else x)) s

/-- `max.i32` (R213). -/
def execMaxI32 (o : ROp) (s : State) : Host.Outcome State Fault Refusal :=
  fireOp (.maxI32 o) (fun s => s.bin o.a o.b o.d (fun x y => if x.slt y then y else x)) s

/-- `min.n32` (R213). -/
def execMinN32 (o : ROp) (s : State) : Host.Outcome State Fault Refusal :=
  fireOp (.minN32 o) (fun s => s.bin o.a o.b o.d (fun x y => if y.ult x then y else x)) s

/-- `max.n32` (R213). -/
def execMaxN32 (o : ROp) (s : State) : Host.Outcome State Fault Refusal :=
  fireOp (.maxN32 o) (fun s => s.bin o.a o.b o.d (fun x y => if x.ult y then y else x)) s

/-- `satadd.i32` (R213). -/
def execSataddI32 (o : ROp) (s : State) : Host.Outcome State Fault Refusal :=
  fireOp (.sataddI32 o) (fun s => s.bin o.a o.b o.d (fun x y => satI32 (x.toInt + y.toInt))) s

/-- `satsub.i32` (R213). -/
def execSatsubI32 (o : ROp) (s : State) : Host.Outcome State Fault Refusal :=
  fireOp (.satsubI32 o) (fun s => s.bin o.a o.b o.d (fun x y => satI32 (x.toInt - y.toInt))) s

/-- `and` (R214). -/
def execAnd (o : ROp) (s : State) : Host.Outcome State Fault Refusal :=
  fireOp (.and o) (fun s => s.bin o.a o.b o.d (· &&& ·)) s

/-- `or` (R214). -/
def execOr (o : ROp) (s : State) : Host.Outcome State Fault Refusal :=
  fireOp (.or o) (fun s => s.bin o.a o.b o.d (· ||| ·)) s

/-- `xor` (R214). -/
def execXor (o : ROp) (s : State) : Host.Outcome State Fault Refusal :=
  fireOp (.xor o) (fun s => s.bin o.a o.b o.d (· ^^^ ·)) s

/-- `andn` (R214). -/
def execAndn (o : ROp) (s : State) : Host.Outcome State Fault Refusal :=
  fireOp (.andn o) (fun s => s.bin o.a o.b o.d (fun x y => x &&& ~~~y)) s

/-- `not` (R214). -/
def execNot (o : ROp) (s : State) : Host.Outcome State Fault Refusal :=
  fireOp (.not o) (fun s => s.un o.a o.d (fun x => ~~~x)) s

/-- `shl` (R214). -/
def execShl (o : ROp) (s : State) : Host.Outcome State Fault Refusal :=
  fireOp (.shl o) (fun s => s.bin o.a o.b o.d shlW) s

/-- `shr` (R214). -/
def execShr (o : ROp) (s : State) : Host.Outcome State Fault Refusal :=
  fireOp (.shr o) (fun s => s.bin o.a o.b o.d shrW) s

/-- `sar` (R214). -/
def execSar (o : ROp) (s : State) : Host.Outcome State Fault Refusal :=
  fireOp (.sar o) (fun s => s.bin o.a o.b o.d sarW) s

/-- `rol` (R214). -/
def execRol (o : ROp) (s : State) : Host.Outcome State Fault Refusal :=
  fireOp (.rol o) (fun s => s.bin o.a o.b o.d rolW) s

/-- `clz` (R214). -/
def execClz (o : ROp) (s : State) : Host.Outcome State Fault Refusal :=
  fireOp (.clz o) (fun s => s.un o.a o.d clzW) s

/-- `ctz` (R214). -/
def execCtz (o : ROp) (s : State) : Host.Outcome State Fault Refusal :=
  fireOp (.ctz o) (fun s => s.un o.a o.d ctzW) s

/-- `popc` (R214). -/
def execPopc (o : ROp) (s : State) : Host.Outcome State Fault Refusal :=
  fireOp (.popc o) (fun s => s.un o.a o.d popcW) s

/-- `brev` (R214). -/
def execBrev (o : ROp) (s : State) : Host.Outcome State Fault Refusal :=
  fireOp (.brev o) (fun s => s.un o.a o.d brevW) s

/-- `mul` (R215). -/
def execMul (o : ROp) (s : State) : Host.Outcome State Fault Refusal :=
  fireOp (.mul o) (fun s => s.bin o.a o.b o.d (· * ·)) s

/-- `mulh.i32` (R215). -/
def execMulhI32 (o : ROp) (s : State) : Host.Outcome State Fault Refusal :=
  fireOp (.mulhI32 o) (fun s => s.bin o.a o.b o.d mulhS) s

/-- `mulh.n32` (R215). -/
def execMulhN32 (o : ROp) (s : State) : Host.Outcome State Fault Refusal :=
  fireOp (.mulhN32 o) (fun s => s.bin o.a o.b o.d mulhU) s

/-- `mad` (R215, R212). -/
def execMad (o : ROp) (s : State) : Host.Outcome State Fault Refusal :=
  fireOp (.mad o) (fun s => let z := s.me.reg o.d.toNat; s.bin o.a o.b o.d (fun x y => z + x * y)) s

/-- `sel` (R216). -/
def execSel (o : ROp) (k : BitVec 3) (s : State) : Host.Outcome State Fault Refusal :=
  fireOp (.sel o k) (fun s => let c := s.me.pred k.toNat; s.bin o.a o.b o.d (fun x y => if c then x else y)) s

/-- `ext.i8` (R217). -/
def execExtI8 (o : ROp) (l : BitVec 2) (s : State) : Host.Outcome State Fault Refusal :=
  fireOp (.extI8 o l) (fun s => s.un o.a o.d (fun x => (x.toNat / 2 ^ (8 * l.toNat) % 256 |> BitVec.ofNat 8).signExtend 32)) s

/-- `ext.i16` (R217). -/
def execExtI16 (o : ROp) (l : BitVec 2) (s : State) : Host.Outcome State Fault Refusal :=
  fireOp (.extI16 o l) (fun s => s.un o.a o.d
    (fun x => (x.toNat / 2 ^ (16 * l.toNat) % 65536 |> BitVec.ofNat 16).signExtend 32)) s

/-- `ext.n8` (R217). -/
def execExtN8 (o : ROp) (l : BitVec 2) (s : State) : Host.Outcome State Fault Refusal :=
  fireOp (.extN8 o l) (fun s => s.un o.a o.d (fun x => BitVec.ofNat 32 (x.toNat / 2 ^ (8 * l.toNat) % 256))) s

/-- `ext.n16` (R217). -/
def execExtN16 (o : ROp) (l : BitVec 2) (s : State) : Host.Outcome State Fault Refusal :=
  fireOp (.extN16 o l) (fun s => s.un o.a o.d (fun x => BitVec.ofNat 32 (x.toNat / 2 ^ (16 * l.toNat) % 65536))) s

/-- A lane of w bits of a word replaced (R218). -/
def insLane (w l : Nat) (old x : Word) : Word :=
  let m : Word := BitVec.ofNat 32 ((2 ^ w - 1) * 2 ^ (w * l))
  (old &&& ~~~m) ||| ((x <<< (w * l)) &&& m)

/-- `ins.n8` (R218, R212). -/
def execInsN8 (o : ROp) (l : BitVec 2) (s : State) : Host.Outcome State Fault Refusal :=
  fireOp (.insN8 o l) (fun s => let z := s.me.reg o.d.toNat; s.un o.a o.d (insLane 8 l.toNat z)) s

/-- `ins.n16` (R218, R212). -/
def execInsN16 (o : ROp) (l : BitVec 2) (s : State) : Host.Outcome State Fault Refusal :=
  fireOp (.insN16 o l) (fun s => let z := s.me.reg o.d.toNat; s.un o.a o.d (insLane 16 l.toNat z)) s

/-- The operand of an immediate form: imm10, or X when W = 1 (R219). -/
def State.imm (s : State) (o : IOp) : Word := if o.w then xSigned s.curExt else o.i.signExtend 32

/-- `addi` (R219). -/
def execAddi (o : IOp) (s : State) : Host.Outcome State Fault Refusal :=
  fireOp (.addi o) (fun s => let v := s.imm o; s.un o.a o.d (fun x => x + v)) s

/-- `andi` (R219). -/
def execAndi (o : IOp) (s : State) : Host.Outcome State Fault Refusal :=
  fireOp (.andi o) (fun s => let v := s.imm o; s.un o.a o.d (fun x => x &&& v)) s

/-- `ori` (R219). -/
def execOri (o : IOp) (s : State) : Host.Outcome State Fault Refusal :=
  fireOp (.ori o) (fun s => let v := s.imm o; s.un o.a o.d (fun x => x ||| v)) s

/-- `xori` (R219). -/
def execXori (o : IOp) (s : State) : Host.Outcome State Fault Refusal :=
  fireOp (.xori o) (fun s => let v := s.imm o; s.un o.a o.d (fun x => x ^^^ v)) s

/-- `shli` (R219). -/
def execShli (o : IOp) (s : State) : Host.Outcome State Fault Refusal :=
  fireOp (.shli o) (fun s => s.un o.a o.d (fun x => shlW x (o.i.setWidth 32))) s

/-- `shri` (R219). -/
def execShri (o : IOp) (s : State) : Host.Outcome State Fault Refusal :=
  fireOp (.shri o) (fun s => s.un o.a o.d (fun x => shrW x (o.i.setWidth 32))) s

/-- `sari` (R219). -/
def execSari (o : IOp) (s : State) : Host.Outcome State Fault Refusal :=
  fireOp (.sari o) (fun s => s.un o.a o.d (fun x => sarW x (o.i.setWidth 32))) s

/-- `li` (R220). -/
def execLi (o : IOp) (s : State) : Host.Outcome State Fault Refusal :=
  fireOp (.li o) (fun s => s.wr o.d (xSigned (s.me.slot o.a.toNat) <<< (o.i.toNat % 32))) s

/-- `cmp.eq` (R221, R196). -/
def execCmpEq (o : POp) (s : State) : Host.Outcome State Fault Refusal :=
  fireOp (.cmpEq o) (fun s => s.cond2 o (fun x y => x == y)) s

/-- `cmp.ne` (R221, R196). -/
def execCmpNe (o : POp) (s : State) : Host.Outcome State Fault Refusal :=
  fireOp (.cmpNe o) (fun s => s.cond2 o (fun x y => x != y)) s

/-- `cmp.lt.i32` (R221, R196). -/
def execCmpLtI32 (o : POp) (s : State) : Host.Outcome State Fault Refusal :=
  fireOp (.cmpLtI32 o) (fun s => s.cond2 o (fun x y => x.slt y)) s

/-- `cmp.le.i32` (R221, R196). -/
def execCmpLeI32 (o : POp) (s : State) : Host.Outcome State Fault Refusal :=
  fireOp (.cmpLeI32 o) (fun s => s.cond2 o (fun x y => x.sle y)) s

/-- `cmp.lt.n32` (R221, R196). -/
def execCmpLtN32 (o : POp) (s : State) : Host.Outcome State Fault Refusal :=
  fireOp (.cmpLtN32 o) (fun s => s.cond2 o (fun x y => x.ult y)) s

/-- `cmp.le.n32` (R221, R196). -/
def execCmpLeN32 (o : POp) (s : State) : Host.Outcome State Fault Refusal :=
  fireOp (.cmpLeN32 o) (fun s => s.cond2 o (fun x y => x.ule y)) s

end Sys2Proof.Machine
end

