-- ==== Sys2Proof/Machine/Monitoring.lean ====
section
/-!
DEFINITION. What watches a spur from outside its program: the quiescence detector (R366, R367, R400, R401), the
configuration scrub (R386), parity errors of element state (R385), and the end of a step countdown (R303).
-/
namespace Sys2Proof.Machine

/-! ## The quiescence detector (R366) -/

/-- A period in firing steps of the cluster at its momentary rate (R366). -/
def periodSteps : Nat := 2 ^ 16

/-- What a raster island does for a spur: its open draw, flush and attribute requests. -/
def Raster.of (r : Raster) (mine : Cmd → Bool) : Raster :=
  { (if r.isOpen && mine r.cmd then r else default) with flush := r.flush.filter mine, attrs := r.attrs.filter mine }
/-- What a sampler island does for a spur: its requests that wait or are in flight. -/
def Sampler.of (x : Sampler) (mine : Cmd → Bool) : Sampler :=
  ⟨.replicate 16 default, [], x.waiting.filter mine, x.flight.filter fun f => mine f.cmd⟩
/-- What the detector sees of a spur. -/
def State.glance (s : State) (p : Spur) : Glance :=
  let c := s.cluster p.cluster
  let mine (k : Nat) : Bool := p.covers (elemCore k)
  { steps := p.elemKeys.map fun k => (s.elem k).steps
    fifos := p.elemKeys.map fun k => (s.elem k).fifo
    links := s.links.filter fun l => l.spur = p.id || (match l.receiver with
      | .elemIn k _ => mine k
      | _ => false)
    reqs := s.reqs.filter fun r => mine r.elem
    cores := p.cores.map s.core
    rays := c.rays.filter fun r => mine r.cmd.elem
    raster := c.raster.of fun x => mine x.elem
    sampler := c.sampler.of fun x => mine x.elem }

/-- Whether a request is a wait that only the program can end, or owes nothing more (R366). -/
def State.reqIdle (s : State) (r : Req) : Bool :=
  match r.kind with
  | .colReq _ _ => r.phase = .waiting
  | .barrier _ _ => r.phase ≠ .answered
  | .drain => r.phase ≠ .answered
  | .copy _ _ => true
  | .stopCt _ => true
  | .orcLoad settled _ => settled && r.phase = .waiting
  | _ => (r.space = 3 && r.phase = .waiting) || s.reqAtRest r

/-- Whether the detector looks at a spur: it and its ridge run, its quiet mark is clear. A completed spur is not
reported (DEDUCED, log 20), nor a system spur, which has no fault area (DESIGN CHOICE, log 51). -/
def State.watched (s : State) (p : Spur) : Bool :=
  !p.quiet && (p.phase = .started || p.phase = .halted)
    && (match s.chain? p.chain with
      | some c => c.phase = .started && !c.frozen && !c.debugHold && !c.system
      | none => false)

/-- Whether a spur has made no progress through a whole period. -/
def State.quiescent (s : State) (p : Spur) : Bool :=
  s.watched p && ((s.glance p).reqs.all s.reqIdle)
    && (match p.seen with
      | some (t, g) => t + periodSteps ≤ s.clusterSteps p.cluster && g = s.glance p
      | none => false)

/-- Four bits, bit i from a test of i. -/
def nibble (f : Nat → Bool) : Nat := ((List.range 4).map fun i => if f i then 2 ^ i else 0).sum

/-- Whether a program section gave an element a rule: a slot under another guard than 15, which never fires; a used
element without one holds no program (R205, R340, R401). -/
def Elem.hasRule (e : Elem) : Bool := e.slots.toList.any fun w => w.extractLsb' 28 4 != 15#4

/-- The snapshot word of an element (R367, R401). -/
def State.snapWord (s : State) (k : Nat) : Word :=
  let e := s.elem k
  let unused := e.role ≠ .used || !e.hasRule
  let held (ch : Nat) : Nat :=
    if e.role = .used then (if unused then 0 else (e.chan ch).length)
    else ((s.links.flatMap (·.pass)).filter fun f => f.elem = k && f.ch = ch).foldl (fun n f => n + f.words.length) 0
  let unbound (ch : Nat) : Bool := unused || (e.outCh ch).link.isNone
  let handler : Nat := match e.active with
    | some a => if unused then 31 else a.handler
    | none => 31
  BitVec.ofNat 32 ((if unused then 2 ^ 23 else 0) + (if !unused && e.pend ≠ 0 then 2 ^ 22 else 0) + handler * 2 ^ 17
    + nibble unbound * 2 ^ 12 + nibble (fun ch => !unbound ch && (e.outCh ch).count = 0) * 2 ^ 8
    + nibble (fun ch => held ch ≥ 16) * 2 ^ 4 + nibble fun ch => held ch > 0)
/-- The snapshot record of a core. -/
def State.snapRecord (s : State) (core : Nat) : List Byte :=
  (List.range 16).flatMap fun i => bytesOfWord (s.snapWord (coreElem core i))

/-- How many snapshot records find room behind a record of a chain. -/
def State.snapRoom (s : State) (c : Chain) : Nat → Nat
  | 0 => 0
  | n + 1 => if s.recordFree c (c.faults + 1 + n) then n + 1 else s.snapRoom c n

/-- A report of a spur: its record and its snapshot; without room for the record the chain ends (R358, R366, R367,
R400). -/
def State.report (s : State) (p : Spur) : State :=
  match s.chain? p.chain with
  | none => s
  | some c =>
    if !s.recordFree c c.faults then s.endChain c.ident 2 0
    else
      let n := s.snapRoom c p.cores.length
      let snaps := (p.cores.take n).map s.snapRecord
      let f : FaultInfo := {
        code := 0x79
        elem := coreElem (clusterCore p.cluster p.x0 p.y0) 0
        stage := p.stage
        spur := p.index
        following := n
        snapshot := true }
      (s.recordBytes c f :: snaps).foldl (fun s b => match s.chain? c.ident with
        | some c => s.putRecord c b
        | none => s) s

/-- `QUIESCENCE_PERIOD` (R366): the detector looks at the spur `a`. When it has stood still through a period, it and the
spurs of its ridge in its cluster that did so too are reported, and the ridge is held. -/
def execQuiescencePeriod (s : State) : Host.Outcome State Fault Refusal :=
  match s.spur? s.pick.a with
  | none => .next s
  | some p =>
    if s.quiescent p then
      let ps := (s.spursOf p.chain).filter fun q => q.cluster = p.cluster && s.quiescent q
      .next ((ps.foldl State.report s).hold p.chain)
    else
      let g := s.glance p
      let fresh : Bool := match p.seen with
        | some (_, h) => h ≠ g || !s.watched p || !(g.reqs.all s.reqIdle)
        | none => true
      if fresh then .next (s.updSpur p.id fun p => { p with seen := some (s.clusterSteps p.cluster, g) }) else .next s

/-! ## Errors of configuration and element state (R385, R386) -/

/-- A record that names an element and no rule. -/
def State.elemRecord (s : State) (p : Spur) (k code addr : Nat) : FaultInfo :=
  { code := code
    elem := k
    addr := addr
    step := (s.elem k).steps
    stage := p.stage
    spur := p.index }

/-- `CONFIG_SCRUB_VISIT` (R386): the scrub visits the element `a`; `flag` says that its configuration's CRC holds
(DESIGN CHOICE, log 24). -/
def execConfigScrubVisit (s : State) : Host.Outcome State Fault Refusal :=
  let k := s.pick.a
  match s.spurAt (elemCore k) with
  | none => .next s
  | some p =>
    if s.pick.flag || (s.elem k).role ≠ .used then .next s
    else
      let n := bitsOf (s.preg 0x234) 0 16
      let s := s.setPreg 0x234 (BitVec.ofNat 32 (min 0xFFFF (n + 1)))
      let s := s.updElem k fun e => { e with cfgBad := true }
      .next (s.raise p.chain (s.elemRecord p k 0x21 0))

/-- `PARITY_ERROR` (R385): of the element `a`. The record is final; the ridge is frozen, its images are stored, and the
chain then ends with status 2 (DEDUCED, log 38). -/
def execParityError (s : State) : Host.Outcome State Fault Refusal :=
  let k := s.pick.a
  match s.spurAt (elemCore k) with
  | none => .next s
  | some p =>
    match s.chain? p.chain with
    | none => .next s
    | some c =>
      if !s.recordFree c c.faults then .next (s.endChain c.ident 2 0)
      else
        let f := { s.elemRecord p k 0x20 0xFFFFFFFFFFFFFFFF with final := true }
        let s := (s.putRecord c (s.recordBytes c f)).hold c.ident
        .next ((s.updChain c.ident fun c => { c with doomed := true }).sendFreeze c.ident)

/-! ## The end of a step countdown (R303) -/

/-- `STEP_COUNTDOWN_EXPIRY` (R303): the countdown of the element `a` has come to its end: the spur freezes with 0x72 and
breakpoint number 64, and the countdown is disarmed (DEDUCED, log 40). -/
def execStepCountdownExpiry (s : State) : Host.Outcome State Fault Refusal :=
  let k := s.pick.a
  match (s.elem k).countdown, s.spurAt (elemCore k) with
  | some n, some p =>
    if n ≠ 0 then .next s
    else
      let s := s.updElem k fun e => { e with countdown := none }
      let handler := match (s.elem k).active with
        | some a => a.handler
        | none => 0xFF
      let step := (s.elem k).steps - 1
      .next (s.raise p.chain { s.elemRecord p k 0x72 (stopAddr 0 64) with handler := handler, step := step })
  | _, _ => .next s

end Sys2Proof.Machine
end

