-- ==== Sys2Proof/Machine/Pred.lean ====
section
/-!
DEFINITION. Predicate instructions (cells 0x19 to 0x1B, R231).
-/
namespace Sys2Proof.Machine


/-- Predicate `p`(ia) of a rule of cell 0x19: its body bits 11 to 9 (R231). -/
def State.pa (s : State) (o : POp) : Bool := s.me.pred (o.a.toNat % 8)
/-- Predicate `p`(ib): body bits 6 to 4. -/
def State.pb (s : State) (o : POp) : Bool := s.me.pred (o.b.toNat % 8)
/-- The channel C of `pchan`: body bits 10 to 9 (R231). -/
def chanOf (o : POp) : Nat := o.a.toNat % 4

/-- `pset` (R231). -/
def execPset (o : POp) (s : State) : Host.Outcome State Fault Refusal :=
  fireOp (.pset o) (fun s => s.setp o.pd true o.pop) s

/-- `pclr` (R231). -/
def execPclr (o : POp) (s : State) : Host.Outcome State Fault Refusal :=
  fireOp (.pclr o) (fun s => s.setp o.pd false o.pop) s

/-- `pnot` (R231). -/
def execPnot (o : POp) (s : State) : Host.Outcome State Fault Refusal :=
  fireOp (.pnot o) (fun s => s.setp o.pd (!s.pa o) o.pop) s

/-- `pand` (R231). -/
def execPand (o : POp) (s : State) : Host.Outcome State Fault Refusal :=
  fireOp (.pand o) (fun s => s.setp o.pd (s.pa o && s.pb o) o.pop) s

/-- `por` (R231). -/
def execPor (o : POp) (s : State) : Host.Outcome State Fault Refusal :=
  fireOp (.por o) (fun s => s.setp o.pd (s.pa o || s.pb o) o.pop) s

/-- `pxor` (R231). -/
def execPxor (o : POp) (s : State) : Host.Outcome State Fault Refusal :=
  fireOp (.pxor o) (fun s => s.setp o.pd (s.pa o != s.pb o) o.pop) s

/-- `pmov` (R231). -/
def execPmov (o : POp) (s : State) : Host.Outcome State Fault Refusal :=
  fireOp (.pmov o) (fun s => s.setp o.pd (s.pa o) o.pop) s

/-- `pbit` (R231). -/
def execPbit (o : POp) (s : State) : Host.Outcome State Fault Refusal :=
  fireOp (.pbit o) (fun s => let dm := one [o.a]; (s.consume dm).setp o.pd ((s.rd dm o.a).getLsbD o.b.toNat) o.pop) s

/-- `pchan.ne` (R231). -/
def execPchanNe (o : POp) (x : BitVec 2) (s : State) : Host.Outcome State Fault Refusal :=
  fireOp (.pchanNe o x) (fun s => s.setp o.pd (s.me.chan (chanOf o) != []) o.pop) s

/-- `pchan.tag` (R231). -/
def execPchanTag (o : POp) (x : BitVec 2) (s : State) : Host.Outcome State Fault Refusal :=
  fireOp (.pchanTag o x) (fun s => s.setp o.pd (match s.me.chan (chanOf o) with | w :: _ => w.tag == x | [] => false) o.pop) s

/-- `pchan.room` (R231). -/
def execPchanRoom (o : POp) (x : BitVec 2) (s : State) : Host.Outcome State Fault Refusal :=
  fireOp (.pchanRoom o x) (fun s => s.setp o.pd ((s.me.outCh (chanOf o)).count ≥ 1) o.pop) s

end Sys2Proof.Machine
end

