-- ==== Sys2Proof/Machine/Dispatch.lean ====
section
/-!
DEFINITION. The dispatch of an instruction to its meaning, one arm per constructor of `Instr`.
-/
namespace Sys2Proof.Machine

open Sys2Proof

/-- The effect of an instruction: of the rule at the current slot, or of a happening with the state's pick. -/
def exec (i : Instr) (s : State) : Host.Outcome State Fault Refusal :=
  match i with
  | .add o => Sys2Proof.Machine.execAdd o s
  | .sub o => Sys2Proof.Machine.execSub o s
  | .neg o => Sys2Proof.Machine.execNeg o s
  | .abs o => Sys2Proof.Machine.execAbs o s
  | .minI32 o => Sys2Proof.Machine.execMinI32 o s
  | .maxI32 o => Sys2Proof.Machine.execMaxI32 o s
  | .minN32 o => Sys2Proof.Machine.execMinN32 o s
  | .maxN32 o => Sys2Proof.Machine.execMaxN32 o s
  | .sataddI32 o => Sys2Proof.Machine.execSataddI32 o s
  | .satsubI32 o => Sys2Proof.Machine.execSatsubI32 o s
  | .and o => Sys2Proof.Machine.execAnd o s
  | .or o => Sys2Proof.Machine.execOr o s
  | .xor o => Sys2Proof.Machine.execXor o s
  | .andn o => Sys2Proof.Machine.execAndn o s
  | .not o => Sys2Proof.Machine.execNot o s
  | .shl o => Sys2Proof.Machine.execShl o s
  | .shr o => Sys2Proof.Machine.execShr o s
  | .sar o => Sys2Proof.Machine.execSar o s
  | .rol o => Sys2Proof.Machine.execRol o s
  | .clz o => Sys2Proof.Machine.execClz o s
  | .ctz o => Sys2Proof.Machine.execCtz o s
  | .popc o => Sys2Proof.Machine.execPopc o s
  | .brev o => Sys2Proof.Machine.execBrev o s
  | .mul o => Sys2Proof.Machine.execMul o s
  | .mulhI32 o => Sys2Proof.Machine.execMulhI32 o s
  | .mulhN32 o => Sys2Proof.Machine.execMulhN32 o s
  | .mad o => Sys2Proof.Machine.execMad o s
  | .sel o k => Sys2Proof.Machine.execSel o k s
  | .cmpEq o => Sys2Proof.Machine.execCmpEq o s
  | .cmpNe o => Sys2Proof.Machine.execCmpNe o s
  | .cmpLtI32 o => Sys2Proof.Machine.execCmpLtI32 o s
  | .cmpLeI32 o => Sys2Proof.Machine.execCmpLeI32 o s
  | .cmpLtN32 o => Sys2Proof.Machine.execCmpLtN32 o s
  | .cmpLeN32 o => Sys2Proof.Machine.execCmpLeN32 o s
  | .extI8 o l => Sys2Proof.Machine.execExtI8 o l s
  | .extI16 o l => Sys2Proof.Machine.execExtI16 o l s
  | .extN8 o l => Sys2Proof.Machine.execExtN8 o l s
  | .extN16 o l => Sys2Proof.Machine.execExtN16 o l s
  | .insN8 o l => Sys2Proof.Machine.execInsN8 o l s
  | .insN16 o l => Sys2Proof.Machine.execInsN16 o l s
  | .addi o => Sys2Proof.Machine.execAddi o s
  | .andi o => Sys2Proof.Machine.execAndi o s
  | .ori o => Sys2Proof.Machine.execOri o s
  | .xori o => Sys2Proof.Machine.execXori o s
  | .shli o => Sys2Proof.Machine.execShli o s
  | .shri o => Sys2Proof.Machine.execShri o s
  | .sari o => Sys2Proof.Machine.execSari o s
  | .li o => Sys2Proof.Machine.execLi o s
  | .addc o => Sys2Proof.Machine.execAddc o s
  | .subc o => Sys2Proof.Machine.execSubc o s
  | .mulc o => Sys2Proof.Machine.execMulc o s
  | .shlc o => Sys2Proof.Machine.execShlc o s
  | .shrc o => Sys2Proof.Machine.execShrc o s
  | .cmpc o => Sys2Proof.Machine.execCmpc o s
  | .fadd o t => Sys2Proof.Machine.execFadd o t s
  | .fsub o t => Sys2Proof.Machine.execFsub o t s
  | .fmul o t => Sys2Proof.Machine.execFmul o t s
  | .fmin o t => Sys2Proof.Machine.execFmin o t s
  | .fmax o t => Sys2Proof.Machine.execFmax o t s
  | .fabs o t => Sys2Proof.Machine.execFabs o t s
  | .fneg o t => Sys2Proof.Machine.execFneg o t s
  | .ffma o t => Sys2Proof.Machine.execFfma o t s
  | .ffms o t => Sys2Proof.Machine.execFfms o t s
  | .fnma o t => Sys2Proof.Machine.execFnma o t s
  | .fcmpEq o t => Sys2Proof.Machine.execFcmpEq o t s
  | .fcmpLt o t => Sys2Proof.Machine.execFcmpLt o t s
  | .fcmpLe o t => Sys2Proof.Machine.execFcmpLe o t s
  | .fcmpUn o t => Sys2Proof.Machine.execFcmpUn o t s
  | .fclass o t => Sys2Proof.Machine.execFclass o t s
  | .frnd o t => Sys2Proof.Machine.execFrnd o t s
  | .f2iI32 o t => Sys2Proof.Machine.execF2iI32 o t s
  | .f2iN32 o t => Sys2Proof.Machine.execF2iN32 o t s
  | .i2fI32 o t => Sys2Proof.Machine.execI2fI32 o t s
  | .i2fN32 o t => Sys2Proof.Machine.execI2fN32 o t s
  | .fcvt o t => Sys2Proof.Machine.execFcvt o t s
  | .vsum o t => Sys2Proof.Machine.execVsum o t s
  | .vdot o t => Sys2Proof.Machine.execVdot o t s
  | .vmax o t => Sys2Proof.Machine.execVmax o t s
  | .vmin o t => Sys2Proof.Machine.execVmin o t s
  | .vargmax o t => Sys2Proof.Machine.execVargmax o t s
  | .vargmin o t => Sys2Proof.Machine.execVargmin o t s
  | .vscan o t => Sys2Proof.Machine.execVscan o t s
  | .vpack o t => Sys2Proof.Machine.execVpack o t s
  | .vunpack o t => Sys2Proof.Machine.execVunpack o t s
  | .vcount o t => Sys2Proof.Machine.execVcount o t s
  | .pset o => Sys2Proof.Machine.execPset o s
  | .pclr o => Sys2Proof.Machine.execPclr o s
  | .pnot o => Sys2Proof.Machine.execPnot o s
  | .pand o => Sys2Proof.Machine.execPand o s
  | .por o => Sys2Proof.Machine.execPor o s
  | .pxor o => Sys2Proof.Machine.execPxor o s
  | .pmov o => Sys2Proof.Machine.execPmov o s
  | .pbit o => Sys2Proof.Machine.execPbit o s
  | .pchanNe o x => Sys2Proof.Machine.execPchanNe o x s
  | .pchanTag o x => Sys2Proof.Machine.execPchanTag o x s
  | .pchanRoom o x => Sys2Proof.Machine.execPchanRoom o x s
  | .mov o => Sys2Proof.Machine.execMov o s
  | .send o => Sys2Proof.Machine.execSend o s
  | .drop o => Sys2Proof.Machine.execDrop o s
  | .dup o => Sys2Proof.Machine.execDup o s
  | .retag o => Sys2Proof.Machine.execRetag o s
  | .steer o => Sys2Proof.Machine.execSteer o s
  | .cmrg o => Sys2Proof.Machine.execCmrg o s
  | .amrg o => Sys2Proof.Machine.execAmrg o s
  | .sinF o => Sys2Proof.Machine.execSinF o s
  | .cosF o => Sys2Proof.Machine.execCosF o s
  | .sinQ o => Sys2Proof.Machine.execSinQ o s
  | .cosQ o => Sys2Proof.Machine.execCosQ o s
  | .exp2 o => Sys2Proof.Machine.execExp2 o s
  | .log2 o => Sys2Proof.Machine.execLog2 o s
  | .rcp o => Sys2Proof.Machine.execRcp o s
  | .rsqrt o => Sys2Proof.Machine.execRsqrt o s
  | .sqrt o => Sys2Proof.Machine.execSqrt o s
  | .fdiv o => Sys2Proof.Machine.execFdiv o s
  | .tanh o => Sys2Proof.Machine.execTanh o s
  | .erf o => Sys2Proof.Machine.execErf o s
  | .idivI32 o => Sys2Proof.Machine.execIdivI32 o s
  | .idivN32 o => Sys2Proof.Machine.execIdivN32 o s
  | .iremI32 o => Sys2Proof.Machine.execIremI32 o s
  | .iremN32 o => Sys2Proof.Machine.execIremN32 o s
  | .sinQP7 o => Sys2Proof.Machine.execSinQP7 o s
  | .cosQP7 o => Sys2Proof.Machine.execCosQP7 o s
  | .ld o k => Sys2Proof.Machine.execLd o k s
  | .st o k => Sys2Proof.Machine.execSt o k s
  | .ldBy o k => Sys2Proof.Machine.execLdBy o k s
  | .ldblk o => Sys2Proof.Machine.execLdblk o s
  | .stblk o => Sys2Proof.Machine.execStblk o s
  | .pref o => Sys2Proof.Machine.execPref o s
  | .amoAdd o => Sys2Proof.Machine.execAmoAdd o s
  | .amoSub o => Sys2Proof.Machine.execAmoSub o s
  | .amoMin o => Sys2Proof.Machine.execAmoMin o s
  | .amoMax o => Sys2Proof.Machine.execAmoMax o s
  | .amoAnd o => Sys2Proof.Machine.execAmoAnd o s
  | .amoOr o => Sys2Proof.Machine.execAmoOr o s
  | .amoXor o => Sys2Proof.Machine.execAmoXor o s
  | .amoSwap o => Sys2Proof.Machine.execAmoSwap o s
  | .amoCas o => Sys2Proof.Machine.execAmoCas o s
  | .amoInc o => Sys2Proof.Machine.execAmoInc o s
  | .amoFmin o => Sys2Proof.Machine.execAmoFmin o s
  | .amoFmax o => Sys2Proof.Machine.execAmoFmax o s
  | .amoFadd o => Sys2Proof.Machine.execAmoFadd o s
  | .amoVmin64 o => Sys2Proof.Machine.execAmoVmin64 o s
  | .orcDom o => Sys2Proof.Machine.execOrcDom o s
  | .orcBind o => Sys2Proof.Machine.execOrcBind o s
  | .orcFree o => Sys2Proof.Machine.execOrcFree o s
  | .orcFold o => Sys2Proof.Machine.execOrcFold o s
  | .orcMark o => Sys2Proof.Machine.execOrcMark o s
  | .orcOpSet o => Sys2Proof.Machine.execOrcOpSet o s
  | .orcOpAddF32 o => Sys2Proof.Machine.execOrcOpAddF32 o s
  | .orcOpAddF64 o => Sys2Proof.Machine.execOrcOpAddF64 o s
  | .orcOpMulF32 o => Sys2Proof.Machine.execOrcOpMulF32 o s
  | .orcOpFmaF32 o => Sys2Proof.Machine.execOrcOpFmaF32 o s
  | .orcOpMaxF32 o => Sys2Proof.Machine.execOrcOpMaxF32 o s
  | .orcOpMinF32 o => Sys2Proof.Machine.execOrcOpMinF32 o s
  | .orcOpAddInt o => Sys2Proof.Machine.execOrcOpAddInt o s
  | .orcLdt o => Sys2Proof.Machine.execOrcLdt o s
  | .orcLds o => Sys2Proof.Machine.execOrcLds o s
  | .colReq o => Sys2Proof.Machine.execColReq o s
  | .colRel o => Sys2Proof.Machine.execColRel o s
  | .barArrive o => Sys2Proof.Machine.execBarArrive o s
  | .drain o => Sys2Proof.Machine.execDrain o s
  | .quiet o => Sys2Proof.Machine.execQuiet o s
  | .sig o => Sys2Proof.Machine.execSig o s
  | .chainPut o => Sys2Proof.Machine.execChainPut o s
  | .ctArm o => Sys2Proof.Machine.execCtArm o s
  | .ctFire o => Sys2Proof.Machine.execCtFire o s
  | .ctStop o => Sys2Proof.Machine.execCtStop o s
  | .ctStat o => Sys2Proof.Machine.execCtStat o s
  | .caSet o => Sys2Proof.Machine.execCaSet o s
  | .caGet o => Sys2Proof.Machine.execCaGet o s
  | .mxLd o => Sys2Proof.Machine.execMxLd o s
  | .mxRule o => Sys2Proof.Machine.execMxRule o s
  | .mxZero o => Sys2Proof.Machine.execMxZero o s
  | .mxRead o => Sys2Proof.Machine.execMxRead o s
  | .mxDrain o => Sys2Proof.Machine.execMxDrain o s
  | .mseqGemm o => Sys2Proof.Machine.execMseqGemm o s
  | .mseqConv o => Sys2Proof.Machine.execMseqConv o s
  | .mseqStop o => Sys2Proof.Machine.execMseqStop o s
  | .smpBind o => Sys2Proof.Machine.execSmpBind o s
  | .wtLd o => Sys2Proof.Machine.execWtLd o s
  | .wtDrop o => Sys2Proof.Machine.execWtDrop o s
  | .smpTex o => Sys2Proof.Machine.execSmpTex o s
  | .smpDec o => Sys2Proof.Machine.execSmpDec o s
  | .rsDraw o => Sys2Proof.Machine.execRsDraw o s
  | .rsFlush o => Sys2Proof.Machine.execRsFlush o s
  | .visAttr o => Sys2Proof.Machine.execVisAttr o s
  | .blPut o => Sys2Proof.Machine.execBlPut o s
  | .trFmt o => Sys2Proof.Machine.execTrFmt o s
  | .trRay o => Sys2Proof.Machine.execTrRay o s
  | .trWalk o => Sys2Proof.Machine.execTrWalk o s
  | .trMarch o => Sys2Proof.Machine.execTrMarch o s
  | .trRes o => Sys2Proof.Machine.execTrRes o s
  | .sysRd o => Sys2Proof.Machine.execSysRd o s
  | .sysWr o => Sys2Proof.Machine.execSysWr o s
  | .nop o => Sys2Proof.Machine.execNop o s
  | .halt o => Sys2Proof.Machine.execHalt o s
  | .trap o => Sys2Proof.Machine.execTrap o s
  | .brk o => Sys2Proof.Machine.execBrk o s
  | .leaseReq o => Sys2Proof.Machine.execLeaseReq o s
  | .leaseRel o => Sys2Proof.Machine.execLeaseRel o s
  | .step o => Sys2Proof.Machine.execStep o s
  | .cfgWr o => Sys2Proof.Machine.execCfgWr o s
  | .reset => Sys2Proof.Machine.execReset s
  | .selfTestComplete => Sys2Proof.Machine.execSelfTestComplete s
  | .devStartWrite => Sys2Proof.Machine.execDevStartWrite s
  | .lqTailWrite => Sys2Proof.Machine.execLqTailWrite s
  | .lqBaseSizeWrite => Sys2Proof.Machine.execLqBaseSizeWrite s
  | .chainRecordTake => Sys2Proof.Machine.execChainRecordTake s
  | .resumeRecord => Sys2Proof.Machine.execResumeRecord s
  | .stagePlacement => Sys2Proof.Machine.execStagePlacement s
  | .priorityAging => Sys2Proof.Machine.execPriorityAging s
  | .freezeWave => Sys2Proof.Machine.execFreezeWave s
  | .imageFetch => Sys2Proof.Machine.execImageFetch s
  | .ridgeStart => Sys2Proof.Machine.execRidgeStart s
  | .spurCompletion => Sys2Proof.Machine.execSpurCompletion s
  | .deterministicStageSwitch => Sys2Proof.Machine.execDeterministicStageSwitch s
  | .spurReload => Sys2Proof.Machine.execSpurReload s
  | .firingStep => Sys2Proof.Machine.execFiringStep s
  | .linkWordMove => Sys2Proof.Machine.execLinkWordMove s
  | .slotCountReturn => Sys2Proof.Machine.execSlotCountReturn s
  | .carryTransfer => Sys2Proof.Machine.execCarryTransfer s
  | .delayedResultArrival => Sys2Proof.Machine.execDelayedResultArrival s
  | .writeLanding => Sys2Proof.Machine.execWriteLanding s
  | .readBinding => Sys2Proof.Machine.execReadBinding s
  | .doneTokenEmit => Sys2Proof.Machine.execDoneTokenEmit s
  | .copyEvict => Sys2Proof.Machine.execCopyEvict s
  | .copyWriteBack => Sys2Proof.Machine.execCopyWriteBack s
  | .copyFill => Sys2Proof.Machine.execCopyFill s
  | .atomicApply => Sys2Proof.Machine.execAtomicApply s
  | .translationWalk => Sys2Proof.Machine.execTranslationWalk s
  | .pinRelease => Sys2Proof.Machine.execPinRelease s
  | .pinHoldTimeout => Sys2Proof.Machine.execPinHoldTimeout s
  | .transInvalHiWrite => Sys2Proof.Machine.execTransInvalHiWrite s
  | .transSeqLoRead => Sys2Proof.Machine.execTransSeqLoRead s
  | .chainKillHiWrite => Sys2Proof.Machine.execChainKillHiWrite s
  | .stepLoRead => Sys2Proof.Machine.execStepLoRead s
  | .timeLoRead => Sys2Proof.Machine.execTimeLoRead s
  | .eccLastLoRead => Sys2Proof.Machine.execEccLastLoRead s
  | .hmaskWrite => Sys2Proof.Machine.execHmaskWrite s
  | .sigPendWrite => Sys2Proof.Machine.execSigPendWrite s
  | .sigEnWrite => Sys2Proof.Machine.execSigEnWrite s
  | .vregWrite => Sys2Proof.Machine.execVregWrite s
  | .meterWrite => Sys2Proof.Machine.execMeterWrite s
  | .clusOffWrite => Sys2Proof.Machine.execClusOffWrite s
  | .registerWrite => Sys2Proof.Machine.execRegisterWrite s
  | .regulatorStep => Sys2Proof.Machine.execRegulatorStep s
  | .thermalObserverPeriod => Sys2Proof.Machine.execThermalObserverPeriod s
  | .observerFallback => Sys2Proof.Machine.execObserverFallback s
  | .clusterOutOfPlacement => Sys2Proof.Machine.execClusterOutOfPlacement s
  | .leaseExpiry => Sys2Proof.Machine.execLeaseExpiry s
  | .hostMemRead => Sys2Proof.Machine.execHostMemRead s
  | .hostMemWrite => Sys2Proof.Machine.execHostMemWrite s
  | .hostLineWrite => Sys2Proof.Machine.execHostLineWrite s
  | .kucorPortTraining => Sys2Proof.Machine.execKucorPortTraining s
  | .kucorFlitRetry => Sys2Proof.Machine.execKucorFlitRetry s
  | .kucorPortDown => Sys2Proof.Machine.execKucorPortDown s
  | .peerAccessTimeout => Sys2Proof.Machine.execPeerAccessTimeout s
  | .ethMessageSend => Sys2Proof.Machine.execEthMessageSend s
  | .ethSendReceive => Sys2Proof.Machine.execEthSendReceive s
  | .ethRdmaWriteReceive => Sys2Proof.Machine.execEthRdmaWriteReceive s
  | .ethRdmaReadReceive => Sys2Proof.Machine.execEthRdmaReadReceive s
  | .qpValidClear => Sys2Proof.Machine.execQpValidClear s
  | .qpValidSet => Sys2Proof.Machine.execQpValidSet s
  | .qpError => Sys2Proof.Machine.execQpError s
  | .portAccessComplete => Sys2Proof.Machine.execPortAccessComplete s
  | .converterGroup => Sys2Proof.Machine.execConverterGroup s
  | .eventChannelPlace => Sys2Proof.Machine.execEventChannelPlace s
  | .templateTriggerAccept => Sys2Proof.Machine.execTemplateTriggerAccept s
  | .copyFiringStart => Sys2Proof.Machine.execCopyFiringStart s
  | .copyFiringCompletion => Sys2Proof.Machine.execCopyFiringCompletion s
  | .shadowPageReturn => Sys2Proof.Machine.execShadowPageReturn s
  | .exchangeChunkArrival => Sys2Proof.Machine.execExchangeChunkArrival s
  | .cairnLanding => Sys2Proof.Machine.execCairnLanding s
  | .peerDeliveryArrival => Sys2Proof.Machine.execPeerDeliveryArrival s
  | .matrixCommandTake => Sys2Proof.Machine.execMatrixCommandTake s
  | .tileFillComplete => Sys2Proof.Machine.execTileFillComplete s
  | .matrixOperation => Sys2Proof.Machine.execMatrixOperation s
  | .matrixDrainDone => Sys2Proof.Machine.execMatrixDrainDone s
  | .mseqKblockBoundary => Sys2Proof.Machine.execMseqKblockBoundary s
  | .islandRequestAccept => Sys2Proof.Machine.execIslandRequestAccept s
  | .visAttrResult => Sys2Proof.Machine.execVisAttrResult s
  | .binFlush => Sys2Proof.Machine.execBinFlush s
  | .fragmentEmit => Sys2Proof.Machine.execFragmentEmit s
  | .ticketRetire => Sys2Proof.Machine.execTicketRetire s
  | .drawFlushComplete => Sys2Proof.Machine.execDrawFlushComplete s
  | .traversalNodeVisit => Sys2Proof.Machine.execTraversalNodeVisit s
  | .callbackReply => Sys2Proof.Machine.execCallbackReply s
  | .marchCellEmit => Sys2Proof.Machine.execMarchCellEmit s
  | .rayEnd => Sys2Proof.Machine.execRayEnd s
  | .sampleComplete => Sys2Proof.Machine.execSampleComplete s
  | .weightLoadBind => Sys2Proof.Machine.execWeightLoadBind s
  | .weightEntryRemove => Sys2Proof.Machine.execWeightEntryRemove s
  | .weightEntryPoison => Sys2Proof.Machine.execWeightEntryPoison s
  | .nodePoisonExpiry => Sys2Proof.Machine.execNodePoisonExpiry s
  | .orcOpArrival => Sys2Proof.Machine.execOrcOpArrival s
  | .orcMarkApply => Sys2Proof.Machine.execOrcMarkApply s
  | .watermarkViewRise => Sys2Proof.Machine.execWatermarkViewRise s
  | .settledLoadAnswer => Sys2Proof.Machine.execSettledLoadAnswer s
  | .orcFreeEnd => Sys2Proof.Machine.execOrcFreeEnd s
  | .barrierArrivalMessage => Sys2Proof.Machine.execBarrierArrivalMessage s
  | .barrierRelease => Sys2Proof.Machine.execBarrierRelease s
  | .colGrant => Sys2Proof.Machine.execColGrant s
  | .drainTokenPass => Sys2Proof.Machine.execDrainTokenPass s
  | .drainEnd => Sys2Proof.Machine.execDrainEnd s
  | .quiescencePeriod => Sys2Proof.Machine.execQuiescencePeriod s
  | .configScrubVisit => Sys2Proof.Machine.execConfigScrubVisit s
  | .parityError => Sys2Proof.Machine.execParityError s
  | .stepCountdownExpiry => Sys2Proof.Machine.execStepCountdownExpiry s
  | .orcRequestArrival => Sys2Proof.Machine.execOrcRequestArrival s
  | .meterRateRise => Sys2Proof.Machine.execMeterRateRise s
  | .debuggerFreezeLift => Sys2Proof.Machine.execDebuggerFreezeLift s
  | .ethPortStateChange => Sys2Proof.Machine.execEthPortStateChange s

end Sys2Proof.Machine
end

