-- ==== Sys2Proof/Machine/Next.lean ====
section
/-!
DEFINITION. What takes place next (R9, R56): a move of the firing step in progress, a happening that is scheduled,
or one that the device chooses; and the placing of a word where the next step fires it.
-/
namespace Sys2Proof.Machine

/-- The next happening with what it concerns: the head of the agenda, else the device's choice (DESIGN CHOICE, log 5).
-/
def State.upcoming (s : State) : Instr × Pick :=
  match s.agenda with
  | x :: _ => x
  | [] => Config.nextHappening s.tick

/-- The state in which a happening takes place: device time has passed and the pick is its own. -/
def State.begin (s : State) (p : Pick) : State :=
  { s with
    agenda := s.agenda.drop 1
    pick := p
    tick := s.tick + 1
    timeNs := s.timeNs + Config.elapsed s.tick }

/-- A happening takes place; a rule form fires in firing steps only. -/
def happen (exec : Instr → State → Host.Outcome State Fault Refusal) (s : State) :
    Host.Outcome State Fault Refusal :=
  let x := s.upcoming
  if x.1.isRule then .next (s.begin x.2) else exec x.1 (s.begin x.2)

/-- One step: the firing step in progress goes on, else the next happening takes place. -/
def stepWith (exec : Instr → State → Host.Outcome State Fault Refusal) (s : State) :
    Host.Outcome State Fault Refusal :=
  match s.walk with
  | some w => walkStep exec { s with tick := s.tick + 1 } w
  | none => happen exec s

/-! ## Placing a word (DESIGN CHOICE, log 10) -/

/-- An element of core 0 that has the forms of a cell. -/
def elemFor (cell : Nat) : Nat :=
  if 0x28 ≤ cell && cell ≤ 0x33 then 12 else if cell = 0x21 then 14 else if 0x38 ≤ cell && cell ≤ 0x3C then 15 else 0

/-- An element with a word in slot 0, an empty extension behind it, a guard that holds, input words and output room,
and slot 0 as the active handler's range. -/
def Elem.withWord (e : Elem) (w : Word) : Elem :=
  let g := (fieldG w).toNat
  { e with
    slots := (e.slots.setIfInBounds 0 w).setIfInBounds 1 0xF0000000#32
    guards := e.guards.setIfInBounds g 1#32
    fifo := .replicate 4 (List.replicate 16 ⟨0, 0, 0⟩)
    closed := .replicate 4 none
    out := .replicate 4 ⟨none, 1008, []⟩
    pend := 0
    beat := none
    join := false
    owed := 0
    active := some ⟨0, 0, 0⟩
    role := .used }

/-- The state with a word placed where the next step fires it: a started spur holds core 0, and a step of the
element is in progress at slot 0. -/
def State.placeWord (s : State) (w : Word) : State :=
  let k := elemFor (fieldCell w).toNat
  let e := (s.elem k).withWord w
  let c : Chain := { (default : Chain) with ident := 1, phase := .started, startNs := some 0 }
  let p : Spur := { newSpur s.nextId 1 0 0 0 0 0 1 1 0 0 [] with phase := .started }
  { (s.setElem k e).bump with
    chains := c :: s.chains
    spurs := p :: s.spurs
    walk := some (e.newWalk k [0] false)
    cur := ⟨k, 0⟩ }

end Sys2Proof.Machine
end

