-- ==== Sys2Proof/Machine/Step.lean ====
section
/-!
DEFINITION. The step function of the device.
-/
namespace Sys2Proof.Machine

/-- One step of the device (R9, R56). -/
def step (s : State) : Host.Outcome State Fault Refusal := stepWith exec s

/-- The state with an instruction word where `step` fires its next instruction. -/
def State.withFetchWord (s : State) (nbits w : Nat) : State := s.placeWord (BitVec.ofNat 32 (w % 2 ^ nbits))

end Sys2Proof.Machine
end

