-- ==== Sys2Proof/Safety.lean ====
section
/-!
DEFINITION. What a safe run is, in the terms that claims use: the invariant that every step keeps.
-/
namespace Sys2Proof

open Machine

/-- The memories are in canonical form. -/
def MemoryInv (s : State) : Prop := s.mem.wf = true ∧ s.scratch.wf = true

end Sys2Proof
end

