-- ==== Sys2Proof/Certificates/Slice0/Obligations.lean ====
section
/-!
DEFINITION. The statements about the HL840 model: what each instruction does when nothing stands against it, what a fault
does, what an instruction leaves unchanged, how decoding and encoding agree, and what every step keeps.

The terms that statements share stand in `Sys2Proof.Claims`. Each statement's docstring names the rules of the
spec that it formalises.
-/
namespace Sys2Proof.Claims

open Machine

/-! ## Terms about a rule that fires -/

/-- None of the faults under items 1 to 5 of R371 stands against the rule, or it is in a beat after the first, for which
they were tested before (R53, R54). -/
def Fits (i : Instr) (s : State) : Prop :=
  s.beatNo = 0 →
    (i.view.wide = true → s.cur.slot ≠ 31 ∧ field s.curExt 28 4 = 0xF) ∧
    elemHas i.view.cellNo (elemIdx s.cur.elem) = true ∧
    badCount (s.me.guard i.view.guardNo) = false ∧
    i.view.subOk s.curExt (decide (s.countOf i.view = 1)) = true ∧
    i.view.codesOk s.curExt = true

/-- Everything but the elements and the links is as it was. -/
def OnlyElemsAndLinks (s t : State) : Prop := t = { s with elems := t.elems, links := t.links }

/-- Every element but one is as it was. -/
def OthersAsBefore (s t : State) (k : Nat) : Prop := ∀ j, j ≠ k → t.elem j = s.elem j

/-- The registers of an element outside a list are as they were. -/
def RegsAsBeforeBut (e f : Elem) (rs : List Nat) : Prop := ∀ r, r < 16 → r ∉ rs → f.reg r = e.reg r ∧
  f.isPending r = e.isPending r

/-- The predicates, configuration, handlers, counters, carry words and carry join of an element are as they were. -/
def RestOfElemAsBefore (e f : Elem) : Prop :=
  f.p = e.p ∧ f.ci = e.ci ∧ f.co = e.co ∧ f.slots = e.slots ∧ f.guards = e.guards ∧ f.conflict = e.conflict ∧
  f.handlers = e.handlers ∧ f.hmask = e.hmask ∧ f.active = e.active ∧ f.passes = e.passes ∧ f.raised = e.raised ∧
  f.owed = e.owed ∧ f.join = e.join ∧ f.steps = e.steps ∧ f.countdown = e.countdown ∧ f.beat = e.beat ∧
  f.stepHi = e.stepHi ∧ f.timeHi = e.timeHi ∧ f.role = e.role ∧ f.cfgWritten = e.cfgWritten ∧ f.cfgBad = e.cfgBad ∧
  f.window = e.window

/-- The rule has sent a request, or a command, and changed nothing else but its operands, its destination's pending
bit or slots and its done token's slot: memory, scratchpads, copies, cells and every register's value are as before. -/
def OnlySends (s t : State) : Prop :=
  t = { s with elems := t.elems, links := t.links, reqs := t.reqs, dones := t.dones, nextId := t.nextId } ∧
  OthersAsBefore s t s.cur.elem ∧ (∀ r, r < 16 → (t.elem s.cur.elem).reg r = s.me.reg r) ∧
  RestOfElemAsBefore s.me { t.elem s.cur.elem with ci := s.me.ci, p := s.me.p }

/-- A number as a word, modulo 2^32 (R211 item 4). -/
def wrap (v : Int) : Word := BitVec.ofInt 32 v

/-- A number clamped to the range of i32 (R213). -/
def clamp (v : Int) : Int := max (-(2 ^ 31)) (min (2 ^ 31 - 1) v)

/-- The index of the first bit that a test selects, 32 where none is selected. -/
def firstBit (p : Nat → Bool) : Word := BitVec.ofNat 32 (((List.range 32).find? p).getD 32)

/-- Lane `l` of width `w` of a word: bits [w·l + w − 1 : w·l] (R217). -/
def laneOf (w l : Nat) (x : Word) : BitVec w := x.extractLsb' (w * l) w

/-! ## Integer rules -/

/-- The integer forms of two operands x = rd(a) and y = rd(b), each with its result (R213 to R215). -/
def twoOperands : List ((ROp → Instr) × (Word → Word → Word)) := [
  (.add, fun x y => wrap (x.toNat + y.toNat)),
  (.sub, fun x y => wrap (x.toNat - y.toNat)),
  (.minI32, fun x y => if x.toInt ≤ y.toInt then x else y),
  (.maxI32, fun x y => if y.toInt ≤ x.toInt then x else y),
  (.minN32, fun x y => if x.toNat ≤ y.toNat then x else y),
  (.maxN32, fun x y => if y.toNat ≤ x.toNat then x else y),
  (.sataddI32, fun x y => wrap (clamp (x.toInt + y.toInt))),
  (.satsubI32, fun x y => wrap (clamp (x.toInt - y.toInt))),
  (.and, fun x y => x &&& y),
  (.or, fun x y => x ||| y),
  (.xor, fun x y => x ^^^ y),
  (.andn, fun x y => x &&& ~~~y),
  (.shl, fun x y => if y.toNat ≤ 31 then wrap (x.toNat * 2 ^ y.toNat) else 0),
  (.shr, fun x y => if y.toNat ≤ 31 then wrap (x.toNat / 2 ^ y.toNat) else 0),
  (.sar, fun x y => if y.toNat ≤ 31 then wrap (x.toInt / 2 ^ y.toNat) else if x.toInt < 0 then 0xFFFFFFFF else 0),
  (.rol, fun x y => x.rotateLeft (y.toNat % 32)),
  (.mul, fun x y => wrap (x.toNat * y.toNat)),
  (.mulhI32, fun x y => wrap (x.toInt * y.toInt / 2 ^ 32)),
  (.mulhN32, fun x y => wrap (x.toNat * y.toNat / 2 ^ 32))]

/-- The integer forms of one operand x = rd(a), each with its result (R213, R214). -/
def oneOperand : List ((ROp → Instr) × (Word → Word)) := [
  (.neg, fun x => wrap (0 - x.toNat)),
  (.abs, fun x => if 0 ≤ x.toInt then x else wrap (0 - x.toInt)),
  (.not, fun x => ~~~x),
  (.clz, fun x => firstBit fun i => x.getLsbD (31 - i)),
  (.ctz, fun x => firstBit fun i => x.getLsbD i),
  (.popc, fun x => wrap ((List.range 32).countP fun i => x.getLsbD i)),
  (.brev, fun x => x.reverse)]

/-- The lane forms `ext` with their results for the lane l (R217). -/
def laneExtracts : List ((ROp → BitVec 2 → Instr) × (Nat → Word → Word)) := [
  (.extI8, fun l x => (laneOf 8 l x).signExtend 32),
  (.extI16, fun l x => (laneOf 16 l x).signExtend 32),
  (.extN8, fun l x => (laneOf 8 l x).setWidth 32),
  (.extN16, fun l x => (laneOf 16 l x).setWidth 32)]

/-- The lane forms `ins` with the lane's width (R218). -/
def laneInserts : List ((ROp → BitVec 2 → Instr) × Nat) := [(.insN8, 8), (.insN16, 16)]

/-- A word with its lane replaced, bit by bit (R218). -/
def withLane (w l : Nat) (old x v : Word) : Prop :=
  ∀ i, v.getLsbD i = if w * l ≤ i ∧ i < w * l + w ∧ i < 32 then x.getLsbD (i - w * l) else old.getLsbD i

/-- The immediate forms with their results for x = rd(a) and the operand v (R219). -/
def immediates : List ((IOp → Instr) × (Word → Word → Word)) := [
  (.addi, fun x v => wrap (x.toNat + v.toNat)),
  (.andi, fun x v => x &&& v),
  (.ori, fun x v => x ||| v),
  (.xori, fun x v => x ^^^ v)]

/-- The shifts by an immediate n (R219). -/
def shiftImmediates : List ((IOp → Instr) × (Word → Nat → Word)) := [
  (.shli, fun x n => wrap (x.toNat * 2 ^ n)),
  (.shri, fun x n => wrap (x.toNat / 2 ^ n)),
  (.sari, fun x n => wrap (x.toInt / 2 ^ n))]

/-- The compare forms with their conditions of x = rd(a) and y = rd(b) (R196, R221). -/
def compares : List ((POp → Instr) × (Word → Word → Bool)) := [
  (.cmpEq, fun x y => decide (x = y)),
  (.cmpNe, fun x y => decide (x ≠ y)),
  (.cmpLtI32, fun x y => decide (x.toInt < y.toInt)),
  (.cmpLeI32, fun x y => decide (x.toInt ≤ y.toInt)),
  (.cmpLtN32, fun x y => decide (x.toNat < y.toNat)),
  (.cmpLeN32, fun x y => decide (x.toNat ≤ y.toNat))]

/-- The predicate's new value by the combine code (R195). -/
def combined (pop : Nat) (old c : Bool) : Bool :=
  if pop = 0 then c
  else if pop = 1 then old && c
  else if pop = 2 then old || c
  else if pop = 3 then xor old c
  else if pop = 4 then !c
  else if pop = 5 then old && !c
  else if pop = 6 then old || !c
  else old

/-- A state whose firing element has predicate `pd` set to what the combine code makes of a condition (R195). -/
def withPred (s : State) (pd : BitVec 3) (pop : BitVec 3) (c : Bool) : State :=
  s.updMe fun e => e.setPred pd.toNat (combined pop.toNat (e.pred pd.toNat) c)

end Sys2Proof.Claims

open Sys2Proof Sys2Proof.Machine Sys2Proof.Claims

/-- R213, R214, R215: every integer form of two source operands writes its result to its destination, and its operands'
pop codes pop.

R213, R214: every integer form of one source operand writes its result to its destination; b is not read. -/
def Obligations.IntegerResults : Prop :=
  (∀ f ∈ twoOperands, ∀ (o : ROp) (s : State), Fits (f.1 o) s →
     exec (f.1 o) s = .next ((s.consume (one [o.a, o.b])).wr o.d
       (f.2 (s.rd (one [o.a, o.b]) o.a) (s.rd (one [o.a, o.b]) o.b)))) ∧
  (∀ f ∈ oneOperand, ∀ (o : ROp) (s : State), Fits (f.1 o) s →
     exec (f.1 o) s = .next ((s.consume (one [o.a])).wr o.d (f.2 (s.rd (one [o.a]) o.a))))

/-- R215, R216, R217, R218, R212: `mad` adds the product to the old value of its register, `sel` keeps the operand that
its predicate names and pops both, `ext` extends a lane, and `ins` replaces a lane of its register.

R219, R220: every immediate form takes v from imm10, or from X where W = 1; a shift takes its amount n from imm10, which
R219 holds to 0 to 31; `li` writes the shifted low 28 bits of the slot that it names. -/
def Obligations.MadLaneAndImmediateResults : Prop :=
  ((∀ (o : ROp) (s : State), Fits (.mad o) s →
     exec (.mad o) s = .next ((s.consume (one [o.a, o.b])).wr o.d (wrap ((s.me.reg o.d.toNat).toNat +
       (s.rd (one [o.a, o.b]) o.a).toNat * (s.rd (one [o.a, o.b]) o.b).toNat)))) ∧
   (∀ (o : ROp) (n : BitVec 3) (s : State), Fits (.sel o n) s →
     exec (.sel o n) s = .next ((s.consume (one [o.a, o.b])).wr o.d
       (if s.me.p.getLsbD n.toNat then s.rd (one [o.a, o.b]) o.a else s.rd (one [o.a, o.b]) o.b))) ∧
   (∀ f ∈ laneExtracts, ∀ (o : ROp) (l : BitVec 2) (s : State), Fits (f.1 o l) s →
     exec (f.1 o l) s = .next ((s.consume (one [o.a])).wr o.d (f.2 l.toNat (s.rd (one [o.a]) o.a)))) ∧
   (∀ f ∈ laneInserts, ∀ (o : ROp) (l : BitVec 2) (s : State), Fits (f.1 o l) s →
     ∃ v, withLane f.2 l.toNat (s.me.reg o.d.toNat) (s.rd (one [o.a]) o.a) v ∧
       exec (f.1 o l) s = .next ((s.consume (one [o.a])).wr o.d v))) ∧
  ((∀ f ∈ immediates, ∀ (o : IOp) (s : State), Fits (f.1 o) s →
     exec (f.1 o) s = .next ((s.consume (one [o.a])).wr o.d (f.2 (s.rd (one [o.a]) o.a)
       (if o.w then (s.curExt.extractLsb' 0 28).signExtend 32 else o.i.signExtend 32)))) ∧
   (∀ f ∈ shiftImmediates, ∀ (o : IOp) (s : State), o.i.toNat ≤ 31 → Fits (f.1 o) s →
     exec (f.1 o) s = .next ((s.consume (one [o.a])).wr o.d (f.2 (s.rd (one [o.a]) o.a) o.i.toNat))) ∧
   (∀ (o : IOp) (s : State), o.i.toNat ≤ 31 → Fits (.li o) s →
     exec (.li o) s = .next (s.wr o.d
       (wrap ((((s.me.slot o.a.toNat).extractLsb' 0 28).signExtend 32).toInt * 2 ^ o.i.toNat)))))
namespace Sys2Proof.Claims

/-! ## The carry chain -/

/-- The forms of the carry chain: the result word and the 33-bit word for `co`, from x, y and the carry word c (R222). -/
def carryForms : List ((ROp → Instr) × (Word → Word → Carry → Word × Carry)) := [
  (.addc, fun x y c =>
    let t := x.toNat + y.toNat + (c.extractLsb' 32 1).toNat
    (wrap t, if t ≥ 2 ^ 32 then BitVec.ofNat 33 (2 ^ 32) else 0)),
  (.subc, fun x y c =>
    let t : Int := x.toNat - y.toNat - (c.extractLsb' 32 1).toNat
    (wrap t, if t < 0 then BitVec.ofNat 33 (2 ^ 32) else 0)),
  (.mulc, fun x y c =>
    let t := x.toNat * y.toNat + (c.extractLsb' 0 32).toNat
    (wrap t, BitVec.ofNat 33 (t / 2 ^ 32))),
  (.shlc, fun x y c =>
    let n := (y.extractLsb' 0 5).toNat
    (if n = 0 then x else wrap (x.toNat * 2 ^ n) ||| wrap ((c.extractLsb' 0 32).toNat / 2 ^ (32 - n)), x.setWidth 33)),
  (.shrc, fun x y c =>
    let n := (y.extractLsb' 0 5).toNat
    (if n = 0 then x else wrap (x.toNat / 2 ^ n) ||| wrap ((c.extractLsb' 0 32).toNat * 2 ^ (32 - n)), x.setWidth 33)),
  (.cmpc, fun x y c =>
    let st := if x.toNat < y.toNat then 1 else if y.toNat < x.toNat then 2 else (c.extractLsb' 0 2).toNat
    (wrap st, if st = 1 then BitVec.ofNat 33 (2 ^ 32 + 1) else BitVec.ofNat 33 st))]

/-- The state in which a joined `ci` has been read: it is empty (R61, R62). -/
def carryTaken (s : State) : State := s.takeCarry

/-! ## Floating point -/

/-- A float form of two operands acts as R95 and R224 say: on words for `.f32`, lane by lane for the packed types, on
pairs for `.f64`. -/
def FloatTwo (i : ROp → BitVec 2 → Instr) (f : FloatFmt → Nat → Nat → Nat) : Prop :=
  ∀ (o : ROp) (s : State),
    let x := s.rd (one [o.a, o.b]) o.a
    let y := s.rd (one [o.a, o.b]) o.b
    (Fits (i o 0) s →
      exec (i o 0) s = .next ((s.consume (one [o.a, o.b])).wr o.d (BitVec.ofNat 32 (f fp32 x.toNat y.toNat)))) ∧
    (∀ t m, (t = 1 ∧ m = fp16) ∨ (t = 2 ∧ m = bf16) → Fits (i o t) s →
      exec (i o t) s = .next ((s.consume (one [o.a, o.b])).wr o.d
        (joinLanes (f m (lane 0 x) (lane 0 y)) (f m (lane 1 x) (lane 1 y))))) ∧
    (Fits (i o 3) s →
      exec (i o 3) s = .next ((s.consume []).wrPair o.d
        (BitVec.ofNat 64 (f fp64 (s.rdPair o.a).toNat (s.rdPair o.b).toNat))))

/-- The same for a form of one operand. -/
def FloatOne (i : ROp → BitVec 2 → Instr) (f : ROp → FloatFmt → Nat → Nat) : Prop :=
  ∀ (o : ROp) (s : State),
    let x := s.rd (one [o.a]) o.a
    (Fits (i o 0) s →
      exec (i o 0) s = .next ((s.consume (one [o.a])).wr o.d (BitVec.ofNat 32 (f o fp32 x.toNat)))) ∧
    (∀ t m, (t = 1 ∧ m = fp16) ∨ (t = 2 ∧ m = bf16) → Fits (i o t) s →
      exec (i o t) s = .next ((s.consume (one [o.a])).wr o.d (joinLanes (f o m (lane 0 x)) (f o m (lane 1 x))))) ∧
    (Fits (i o 3) s →
      exec (i o 3) s = .next ((s.consume []).wrPair o.d (BitVec.ofNat 64 (f o fp64 (s.rdPair o.a).toNat))))

/-- The same for a fused form, which reads the old value z of its destination (R226). -/
def FloatFused (i : ROp → BitVec 2 → Instr) (f : FloatFmt → Nat → Nat → Nat → Nat) : Prop :=
  ∀ (o : ROp) (s : State),
    let x := s.rd (one [o.a, o.b]) o.a
    let y := s.rd (one [o.a, o.b]) o.b
    let z := s.me.reg o.d.toNat
    (Fits (i o 0) s →
      exec (i o 0) s = .next ((s.consume (one [o.a, o.b])).wr o.d
        (BitVec.ofNat 32 (f fp32 x.toNat y.toNat z.toNat)))) ∧
    (∀ t m, (t = 1 ∧ m = fp16) ∨ (t = 2 ∧ m = bf16) → Fits (i o t) s →
      exec (i o t) s = .next ((s.consume (one [o.a, o.b])).wr o.d
        (joinLanes (f m (lane 0 x) (lane 0 y) (lane 0 z)) (f m (lane 1 x) (lane 1 y) (lane 1 z))))) ∧
    (Fits (i o 3) s →
      exec (i o 3) s = .next ((s.consume []).wrPair o.d
        (BitVec.ofNat 64 (f fp64 (s.rdPair o.a).toNat (s.rdPair o.b).toNat (s.rdPair o.d).toNat))))

/-- A relation of two values (R227): 0 `eq`, 1 `lt`, 2 `le`, 3 `un`. -/
def relates (rel : Nat) (x y : Machine.Num) : Bool :=
  let un := x.isNan || y.isNan
  if rel = 3 then un
  else if rel = 2 then !un && decide (x.cmp y ≤ 0)
  else if rel = 1 then !un && decide (x.cmp y < 0)
  else !un && decide (x.cmp y = 0)

/-- A float comparison acts as R227 says. -/
def FloatCompare (i : POp → BitVec 2 → Instr) (rel : Nat) : Prop :=
  ∀ (o : POp) (s : State),
    let x := s.rd (one [o.a, o.b]) o.a
    let y := s.rd (one [o.a, o.b]) o.b
    (Fits (i o 0) s →
      exec (i o 0) s = .next (withPred (s.consume (one [o.a, o.b])) o.pd o.pop
        (relates rel (fp32.decode x.toNat) (fp32.decode y.toNat)))) ∧
    (∀ t m, (t = 1 ∧ m = fp16) ∨ (t = 2 ∧ m = bf16) → Fits (i o t) s →
      exec (i o t) s = .next (withPred (s.consume (one [o.a, o.b])) o.pd o.pop
        (let c (l : Nat) := relates rel (m.decode (lane l x)) (m.decode (lane l y))
         if rel = 3 then c 0 || c 1 else c 0 && c 1))) ∧
    (Fits (i o 3) s →
      exec (i o 3) s = .next (withPred (s.consume []) o.pd o.pop
        (relates rel (fp64.decode (s.rdPair o.a).toNat) (fp64.decode (s.rdPair o.b).toNat))))

/-- A conversion from a float to one word: `.f32`, lane 0 of the packed types, a pair for `.f64` (R228). -/
def FloatToWord (i : ROp → BitVec 2 → Instr) (f : ROp → Machine.Num → Word) : Prop :=
  ∀ (o : ROp) (s : State),
    let x := s.rd (one [o.a]) o.a
    (Fits (i o 0) s →
      exec (i o 0) s = .next ((s.consume (one [o.a])).wr o.d (f o (fp32.decode x.toNat)))) ∧
    (∀ t m, (t = 1 ∧ m = fp16) ∨ (t = 2 ∧ m = bf16) → Fits (i o t) s →
      exec (i o t) s = .next ((s.consume (one [o.a])).wr o.d (f o (m.decode (lane 0 x))))) ∧
    (Fits (i o 3) s →
      exec (i o 3) s = .next ((s.consume []).wr o.d (f o (fp64.decode (s.rdPair o.a).toNat))))

/-- A conversion from an integer word: `.f32`, lane 0 with lane 1 cleared, or a pair (R228). -/
def FloatFromWord (i : ROp → BitVec 2 → Instr) (f : Word → Int) : Prop :=
  ∀ (o : ROp) (s : State),
    let v := Machine.Num.ofInt (f (s.rd (one [o.a]) o.a))
    let m := o.b.toNat % 8
    (Fits (i o 0) s →
      exec (i o 0) s = .next ((s.consume (one [o.a])).wr o.d (BitVec.ofNat 32 (fp32.round m v)))) ∧
    (∀ t g, (t = 1 ∧ g = fp16) ∨ (t = 2 ∧ g = bf16) → Fits (i o t) s →
      exec (i o t) s = .next ((s.consume (one [o.a])).wr o.d (BitVec.ofNat 32 (g.round m v)))) ∧
    (Fits (i o 3) s →
      exec (i o 3) s = .next ((s.consume (one [o.a])).wrPair o.d (BitVec.ofNat 64 (fp64.round m v))))

/-- The class of a pattern as the number of its bit in the mask (R229). -/
def classBit (m : FloatFmt) (x : Nat) : Nat :=
  let sign := x / 2 ^ (m.ew + m.fw) % 2
  let expo := x / 2 ^ m.fw % 2 ^ m.ew
  let frac := x % 2 ^ m.fw
  if expo = 2 ^ m.ew - 1 then (if frac ≠ 0 then 8 else if sign = 1 then 0 else 7)
  else if expo = 0 then (if frac = 0 then (if sign = 1 then 3 else 4) else if sign = 1 then 2 else 5)
  else if sign = 1 then 1 else 6

/-- The format of a type code (R200). -/
def formatOf (t : BitVec 2) : FloatFmt := if t = 0 then fp32 else if t = 1 then fp16 else if t = 2 then bf16 else fp64

/-! ## Beats -/

/-- A beat reduction into a register: beat 0 starts from x and y, a later beat folds them into the register (R230). -/
def Reduces (i : ROp → BitVec 1 → Instr) (t : BitVec 1) (two : Bool) (first : Word → Word → Word)
    (fold : Word → Word → Word → Word) : Prop :=
  ∀ (o : ROp) (s : State),
    let dm := one (if two then [o.a, o.b] else [o.a])
    let x := s.rd dm o.a
    let y := s.rd dm o.b
    Fits (i o t) s →
      exec (i o t) s = .next ((s.consume dm).wr o.d
        (if s.beatNo = 0 then first x y else fold (s.me.reg o.d.toNat) x y))

/-- `vargmax` and `vargmin`: the pair holds the kept value and its beat (R230). -/
def KeepsBest (i : ROp → BitVec 1 → Instr) (t : BitVec 1) (start : Word → Word) (better : Word → Word → Bool) : Prop :=
  ∀ (o : ROp) (s : State),
    let x := s.rd (one [o.a]) o.a
    let r := o.d.toNat
    Fits (i o t) s →
      exec (i o t) s = .next (
        if s.beatNo = 0 then (s.consume (one [o.a])).updMe fun e => (e.setReg r (start x)).setReg (r + 1) 0
        else if better x (s.me.reg r) then
          (s.consume (one [o.a])).updMe fun e => (e.setReg r x).setReg (r + 1) (BitVec.ofNat 32 s.beatNo)
        else s.consume (one [o.a]))

/-- Whether an FP32 word is NaN. -/
def isNaN (x : Word) : Bool := (fp32.decode x.toNat).isNan

/-- A word with its NaN made canonical (R97). -/
def canonical (x : Word) : Word := if isNaN x then 0x7FC00000 else x

/-- A 16-bit integer lane with saturation (R230). -/
def sat (x : Word) : BitVec 16 := BitVec.ofInt 16 (max (-32768) (min 32767 x.toInt))

/-- `vscan`: the running sum leaves before the beat's word joins it (R230). -/
def Scans (t : BitVec 1) (start : Word → Word) (add : Word → Word → Word) : Prop :=
  ∀ (o : ROp) (s : State),
    let x := s.rd (one [o.a]) o.a
    let sum := if s.beatNo = 0 then 0 else match s.me.beat with
      | some b => b.scan
      | none => 0
    Fits (.vscan o t) s →
      exec (.vscan o t) s = .next (((s.consume (one [o.a])).wr o.d sum).updMe fun e => { e with
        beat := e.beat.map fun b => { b with scan := if s.beatNo = 0 then start x else add sum x } })

end Sys2Proof.Claims

/-- R222, R61, R62: every carry-chain form reads its `ci` once, writes its result and puts its carry word into `co`. -/
def Obligations.CarryChainResults : Prop :=
  ∀ f ∈ carryForms, ∀ (o : ROp) (s : State), Fits (f.1 o) s →
    let r := f.2 (s.rd (one [o.a, o.b]) o.a) (s.rd (one [o.a, o.b]) o.b) s.carryIn
    exec (f.1 o) s = .next (((carryTaken (s.consume (one [o.a, o.b]))).wr o.d r.1).writeCo r.2)

/-- R225, R226, R96 to R98: every float form computes its exact value and rounds it once with mode 0, in each type. -/
def Obligations.FloatArithmeticResults : Prop :=
  FloatTwo .fadd (fun m x y => m.round 0 ((m.decode x).add (m.decode y))) ∧
  FloatTwo .fsub (fun m x y => m.round 0 ((m.decode x).add (m.decode y).negate)) ∧
  FloatTwo .fmul (fun m x y => m.round 0 ((m.decode x).mul (m.decode y))) ∧
  FloatTwo .fmin FloatFmt.min ∧
  FloatTwo .fmax FloatFmt.max ∧
  FloatOne .fabs (fun _ m x => x % 2 ^ (m.ew + m.fw)) ∧
  FloatOne .fneg (fun _ m x =>
    if x / 2 ^ (m.ew + m.fw) % 2 = 1 then x % 2 ^ (m.ew + m.fw) else x % 2 ^ (m.ew + m.fw) + 2 ^ (m.ew + m.fw)) ∧
  FloatFused .ffma (fun m x y z => m.round 0 (((m.decode x).mul (m.decode y)).add (m.decode z))) ∧
  FloatFused .ffms (fun m x y z => m.fma x y (m.negBits z)) ∧
  FloatFused .fnma (fun m x y z => m.fma (m.negBits x) y z)

/-- R221, R195, R196: every `cmp` sets its predicate from its condition by its combine code, and its pop codes pop.

R227: every float comparison sets its predicate by its relation and combine code, in each type. -/
def Obligations.ComparisonResults : Prop :=
  (∀ f ∈ compares, ∀ (o : POp) (s : State), Fits (f.1 o) s →
     exec (f.1 o) s = .next (withPred (s.consume (one [o.a, o.b])) o.pd o.pop
       (f.2 (s.rd (one [o.a, o.b]) o.a) (s.rd (one [o.a, o.b]) o.b)))) ∧
  (FloatCompare .fcmpEq 0 ∧ FloatCompare .fcmpLt 1 ∧ FloatCompare .fcmpLe 2 ∧ FloatCompare .fcmpUn 3)
/-- R228, R94: rounding to integral values, and every conversion between floats, words and types. -/
def Obligations.FloatConversionResults : Prop :=
  FloatOne .frnd (fun o m x => m.round 0 ((m.decode x).integral (o.b.toNat % 8))) ∧
  FloatToWord .f2iI32 (fun o v => wrap (v.toInt (o.b.toNat % 8) (-(2 ^ 31)) (2 ^ 31 - 1))) ∧
  FloatToWord .f2iN32 (fun o v => wrap (v.toInt (o.b.toNat % 8) 0 (2 ^ 32 - 1))) ∧
  FloatFromWord .i2fI32 (fun x => x.toInt) ∧
  FloatFromWord .i2fN32 (fun x => x.toNat) ∧
  (∀ (o : ROp) (t : BitVec 2) (s : State), Fits (.fcvt o t) s →
    let u := BitVec.ofNat 2 (o.b.toNat / 8)
    let c := (formatOf t).convert (formatOf u) (o.b.toNat % 8)
    let dm : Demand := if t = 3 then [] else one [o.a]
    let x := s.rd (one [o.a]) o.a
    (u = 0 → t ≠ 3 → exec (.fcvt o t) s = .next ((s.consume dm).wr o.d
      (BitVec.ofNat 32 (c (if t = 0 then x.toNat else lane 0 x))))) ∧
    (u = 0 → t = 3 → exec (.fcvt o t) s = .next ((s.consume dm).wr o.d (BitVec.ofNat 32 (c (s.rdPair o.a).toNat)))) ∧
    (u = 3 → t ≠ 3 → exec (.fcvt o t) s = .next ((s.consume dm).wrPair o.d
      (BitVec.ofNat 64 (c (if t = 0 then x.toNat else lane 0 x))))) ∧
    (u = 1 ∨ u = 2 → t = 1 ∨ t = 2 → exec (.fcvt o t) s = .next ((s.consume dm).wr o.d
      (joinLanes (c (lane 0 x)) (c (lane 1 x))))) ∧
    (u = 1 ∨ u = 2 → t = 0 → exec (.fcvt o t) s = .next ((s.consume dm).wr o.d (BitVec.ofNat 32 (c x.toNat)))) ∧
    (u = 1 ∨ u = 2 → t = 3 →
      exec (.fcvt o t) s = .next ((s.consume dm).wr o.d (BitVec.ofNat 32 (c (s.rdPair o.a).toNat)))))

/-- R229: `fclass` writes a mask with exactly one bit set per lane, lane 1 of packed types in bits 25 to 16. -/
def Obligations.FloatClassResults : Prop :=
  ∀ (o : ROp) (t : BitVec 2) (s : State), Fits (.fclass o t) s →
    let m := formatOf t
    let x := s.rd (one [o.a]) o.a
    (t = 0 → exec (.fclass o t) s = .next ((s.consume (one [o.a])).wr o.d (1#32 <<< classBit m x.toNat))) ∧
    (t = 1 ∨ t = 2 → exec (.fclass o t) s = .next ((s.consume (one [o.a])).wr o.d
      ((1#32 <<< classBit m (x.toNat % 2 ^ 16)) ||| (1#32 <<< (16 + classBit m (x.toNat / 2 ^ 16)))))) ∧
    (t = 3 → exec (.fclass o t) s = .next ((s.consume []).wr o.d (1#32 <<< classBit m (s.rdPair o.a).toNat)))

/-- R230, R53, R97: every form of cell 0x18 on the current beat, for `.i32` (0) and `.f32` (1). -/
def Obligations.BeatResults : Prop :=
  Reduces .vsum 0 false (fun x _ => x) (fun d x _ => wrap (d.toNat + x.toNat)) ∧
  Reduces .vsum 1 false (fun x _ => canonical x) (fun d x _ => fadd32 d x) ∧
  Reduces .vdot 0 true (fun x y => wrap (x.toNat * y.toNat)) (fun d x y => wrap (d.toNat + x.toNat * y.toNat)) ∧
  Reduces .vdot 1 true fmul32 (fun d x y => fma32 x y d) ∧
  Reduces .vmax 0 false (fun x _ => x) (fun d x _ => if x.toInt ≤ d.toInt then d else x) ∧
  Reduces .vmax 1 false (fun x _ => canonical x) (fun d x _ => fmax32 d x) ∧
  Reduces .vmin 0 false (fun x _ => x) (fun d x _ => if d.toInt ≤ x.toInt then d else x) ∧
  Reduces .vmin 1 false (fun x _ => canonical x) (fun d x _ => fmin32 d x) ∧
  Reduces .vcount 0 false (fun x _ => if x = 0 then 0 else 1) (fun d x _ => d + if x = 0 then 0 else 1) ∧
  Reduces .vcount 1 false (fun x _ => if isNaN x || (fp32.decode x.toNat).isZero then 0 else 1)
    (fun d x _ => d + if isNaN x || (fp32.decode x.toNat).isZero then 0 else 1) ∧
  KeepsBest .vargmax 0 (fun x => x) (fun x kept => decide (kept.toInt < x.toInt)) ∧
  KeepsBest .vargmax 1 canonical
    (fun x kept => !isNaN x && (isNaN kept || fp32.below kept.toNat x.toNat)) ∧
  KeepsBest .vargmin 0 (fun x => x) (fun x kept => decide (x.toInt < kept.toInt)) ∧
  KeepsBest .vargmin 1 canonical
    (fun x kept => !isNaN x && (isNaN kept || fp32.below x.toNat kept.toNat)) ∧
  Scans 0 (fun x => x) (fun a b => wrap (a.toNat + b.toNat)) ∧
  Scans 1 canonical fadd32 ∧
  (∀ (o : ROp) (s : State), Fits (.vpack o 0) s →
    exec (.vpack o 0) s = .next ((s.consume (one [o.a, o.b])).wr o.d
      (sat (s.rd (one [o.a, o.b]) o.b) ++ sat (s.rd (one [o.a, o.b]) o.a)))) ∧
  (∀ (o : ROp) (s : State), Fits (.vpack o 1) s →
    exec (.vpack o 1) s = .next ((s.consume (one [o.a, o.b])).wr o.d
      (joinLanes (fp16.round 0 (fp32.decode (s.rd (one [o.a, o.b]) o.a).toNat))
        (fp16.round 0 (fp32.decode (s.rd (one [o.a, o.b]) o.b).toNat))))) ∧
  (∀ (o : ROp) (s : State), Fits (.vunpack o 0) s →
    exec (.vunpack o 0) s = .next ((s.consume (one [o.a, o.b])).wr o.d
      ((laneOf 16 ((s.rd (one [o.a, o.b]) o.b).toNat % 2) (s.rd (one [o.a, o.b]) o.a)).signExtend 32))) ∧
  (∀ (o : ROp) (s : State), Fits (.vunpack o 1) s →
    exec (.vunpack o 1) s = .next ((s.consume (one [o.a, o.b])).wr o.d
      (BitVec.ofNat 32 (fp32.round 0 (fp16.decode
        (lane ((s.rd (one [o.a, o.b]) o.b).toNat % 2) (s.rd (one [o.a, o.b]) o.a)))))))

namespace Sys2Proof.Claims

/-! ## Predicates, moves and functions -/

/-- The predicate forms of cell 0x19 with their conditions of p(ia) and p(ib) (R231). -/
def predicateForms : List ((POp → Instr) × (Bool → Bool → Bool)) := [
  (.pset, fun _ _ => true),
  (.pclr, fun _ _ => false),
  (.pnot, fun a _ => !a),
  (.pand, fun a b => a && b),
  (.por, fun a b => a || b),
  (.pxor, fun a b => xor a b),
  (.pmov, fun a _ => a)]

/-- The tag that `send` keeps: that of the word of a peek or pop code, 0 for any other code (R210, R233). -/
def keptTag (s : State) (c : Code) : Tag :=
  if 16 ≤ c.toNat ∧ c.toNat ≤ 23 then
    (s.me.peekWord (c.toNat % 4) (if 20 ≤ c.toNat then 0 else s.beatNo)).tag
  else 0

/-- The functions of one FP32 operand (R237, R238). -/
def unaryFunctions : List ((ROp → Instr) × (Machine.Num → Machine.Num)) := [
  (.sinF, sinF), (.cosF, cosF), (.sinQ, sinQ), (.cosQ, cosQ), (.exp2, exp2F), (.log2, log2F), (.rcp, rcpF),
  (.rsqrt, rsqrtF), (.sqrt, Machine.Num.sqrt), (.tanh, tanhF), (.erf, erfF)]

/-- The forms that also write `p7` (R238). -/
def angleFunctions : List ((ROp → Instr) × (Machine.Num → Machine.Num)) := [(.sinQP7, sinQ), (.cosQP7, cosQ)]

/-- The functions of two operands (R237). -/
def binaryFunctions : List ((ROp → Instr) × (Word → Word → Word)) := [
  (.fdiv, fun x y => BitVec.ofNat 32 (fp32.round 0 ((fp32.decode x.toNat).div (fp32.decode y.toNat)))),
  (.idivI32, fun x y => if y = 0 then 0xFFFFFFFF else wrap (x.toInt.tdiv y.toInt)),
  (.idivN32, fun x y => if y = 0 then 0xFFFFFFFF else wrap (x.toNat / y.toNat)),
  (.iremI32, fun x y => if y = 0 then x else wrap (x.toInt.tmod y.toInt)),
  (.iremN32, fun x y => if y = 0 then x else wrap (x.toNat % y.toNat))]

/-- The registers that a late result will write: one register, none for an output code (R36, R37). -/
def lateRegs (c : Code) : List Nat := if c.toNat < 16 then [c.toNat] else []

/-- Whether the operands `cs` name the pop code of channel `ch` (R189). -/
def pops (cs : List Code) (ch : Nat) : Bool := cs.any fun c => decide (c.toNat = 20 + ch)

/-- A rule with a late result of one word has fired from `s` into `t`: one request `q` of the rule stands at the end of
the requests, with its destination code `c`, and the operands `cs` have
taken their pops; a register is pending and an output has one slot less (R36, R37). -/
def SentLate (s t : State) (cs : List Code) (c : Code) (q : Req) : Prop :=
  OnlySends s t ∧ (∀ ch, ch < 4 →
    (t.elem s.cur.elem).chan ch = (s.me.chan ch).drop (if pops cs ch = true then 1 else 0)) ∧
  t.reqs = s.reqs ++ [q] ∧ q.elem = s.cur.elem ∧ q.slot = s.cur.slot ∧ q.word = s.curWord ∧ q.beat = s.beatNo ∧
  q.dst.regs = lateRegs c ∧ (∀ r ∈ lateRegs c, (t.elem s.cur.elem).isPending r = true) ∧
  (16 ≤ c.toNat → ((t.elem s.cur.elem).outCh (c.toNat % 4)).count = (s.me.outCh (c.toNat % 4)).count - 1)

end Sys2Proof.Claims

/-- R231, R195: every predicate form computes its condition and sets its predicate by its combine code. -/
def Obligations.PredicateResults : Prop :=
  (∀ f ∈ predicateForms, ∀ (o : POp) (s : State), Fits (f.1 o) s →
    exec (f.1 o) s = .next (withPred s o.pd o.pop
      (f.2 (s.me.p.getLsbD (o.a.toNat % 8)) (s.me.p.getLsbD (o.b.toNat % 8))))) ∧
  (∀ (o : POp) (s : State), Fits (.pbit o) s →
    exec (.pbit o) s = .next (withPred (s.consume (one [o.a])) o.pd o.pop ((s.rd (one [o.a]) o.a).getLsbD o.b.toNat))) ∧
  (∀ (o : POp) (x : BitVec 2) (s : State), Fits (.pchanNe o x) s →
    exec (.pchanNe o x) s = .next (withPred s o.pd o.pop (decide (s.me.chan (o.a.toNat % 4) ≠ [])))) ∧
  (∀ (o : POp) (x : BitVec 2) (s : State), Fits (.pchanTag o x) s →
    exec (.pchanTag o x) s = .next (withPred s o.pd o.pop
      (decide ((s.me.chan (o.a.toNat % 4)).head?.map (·.tag) = some x)))) ∧
  (∀ (o : POp) (x : BitVec 2) (s : State), Fits (.pchanRoom o x) s →
    exec (.pchanRoom o x) s = .next (withPred s o.pd o.pop (decide (1 ≤ (s.me.outCh (o.a.toNat % 4)).count))))

/-- R233, R234: `mov`, `send`, `drop`, `dup`, `retag` and `steer` move words unchanged, each with its tag.

R235, R236: `cmrg` moves the head of the channel that its control names, with its tag; `amrg` moves the data word that
arrived first among its masked open channels, the lower channel first among equals. -/
def Obligations.MoveAndMergeResults : Prop :=
  ((∀ (o : ROp) (s : State), Fits (.mov o) s →
     exec (.mov o) s = .next ((s.consume (one [o.a])).wr o.d (s.rd (one [o.a]) o.a))) ∧
   (∀ (o : ROp) (s : State), Fits (.send o) s →
     exec (.send o) s = .next ((s.consume (one [o.a])).pushWord s.cur.elem (o.d.toNat % 4) (keptTag s o.a)
       (s.rd (one [o.a]) o.a))) ∧
   (∀ (o : ROp) (s : State), Fits (.drop o) s → exec (.drop o) s = .next (s.consume (one [o.a]))) ∧
   (∀ (o : ROp) (s : State), Fits (.dup o) s →
     exec (.dup o) s = .next (((s.consume (one [o.a])).wr o.d (s.rd (one [o.a]) o.a)).wr o.b (s.rd (one [o.a]) o.a))) ∧
   (∀ (o : ROp) (s : State), Fits (.retag o) s →
     exec (.retag o) s = .next ((s.consume (one [o.a, o.b])).pushWord s.cur.elem (o.d.toNat % 4)
       ((s.rd (one [o.a, o.b]) o.b).extractLsb' 0 2) (s.rd (one [o.a, o.b]) o.a))) ∧
   (∀ (o : ROp) (s : State), Fits (.steer o) s →
     exec (.steer o) s = .next ((s.consume (one [o.a, o.b])).pushWord s.cur.elem
       ((o.d.toNat % 4 + (s.rd (one [o.a, o.b]) o.b).toNat % 4) % 4) (BitVec.ofNat 2 (o.d.toNat / 4))
       (s.rd (one [o.a, o.b]) o.a)))) ∧
  ((∀ (o : ROp) (s : State), Fits (.cmrg o) s →
     let j := (s.rd (one [o.a]) o.a).toNat % 4
     let u := s.consume (one [o.a])
     let w := u.me.peekWord j 0
     exec (.cmrg o) s = .next (
       if o.d.toNat < 16 then (u.popWords s.cur.elem j 1).updMe (·.setReg o.d.toNat w.word)
       else (u.popWords s.cur.elem j 1).pushWord s.cur.elem (o.d.toNat % 4) w.tag w.word)) ∧
   (∀ (o : ROp) (s : State) (c : Nat) (w : ChanWord) (ws : List ChanWord), Fits (.amrg o) s → c < 4 →
     o.b.getLsbD c = true → s.me.chan c = w :: ws → w.tag ≠ 3 →
     (∀ c' w' ws', c' < 4 → o.b.getLsbD c' = true → s.me.chan c' = w' :: ws' → w'.tag ≠ 3 →
       w.stamp < w'.stamp ∨ (w.stamp = w'.stamp ∧ c ≤ c')) →
     exec (.amrg o) s = .next (
       if o.d.toNat < 16 then (s.popWords s.cur.elem c 1).updMe (·.setReg o.d.toNat w.word)
       else (s.popWords s.cur.elem c 1).pushWord s.cur.elem (o.d.toNat % 4) w.tag w.word)) ∧
   (∀ (o : ROp) (s : State) (c : Nat) (w : ChanWord) (ws : List ChanWord), Fits (.amrg o) s → c < 4 →
     o.b.toNat < 16 →
     (∀ c', c' < 4 → o.b.getLsbD c' = true → ∃ w' ws', s.me.chan c' = w' :: ws' ∧ w'.tag = 3) →
     o.b.getLsbD c = true → s.me.chan c = w :: ws →
     (∀ c', c' < 4 → o.b.getLsbD c' = true →
       (s.me.closed.getD c' none).getD 0 < (s.me.closed.getD c none).getD 0 ∨
       ((s.me.closed.getD c' none).getD 0 = (s.me.closed.getD c none).getD 0 ∧ c' ≤ c)) →
     let u := ([0, 1, 2, 3].filter fun c => o.b.getLsbD c).foldl (fun s' c' => s'.popWords s.cur.elem c' 1) s
     exec (.amrg o) s = .next (
       if o.d.toNat < 16 then u.updMe (·.setReg o.d.toNat w.word)
       else u.pushWord s.cur.elem (o.d.toNat % 4) 3 w.word)))
/-- R237, R238, R36, R37: every function form sends one request that holds its result already, its destination is
pending or reserved, and the `.p7` forms write `p7` in the firing step. Their words are the exact values rounded once,
as the model evaluates them in fixed point with 512 fraction bits: that this gives the correctly rounded result of R237
and R238 is the model's reading (DEDUCED, log 8). -/
def Obligations.FunctionResults : Prop :=
  (∀ f ∈ unaryFunctions, ∀ (o : ROp) (s : State), Fits (f.1 o) s →
    ∃ t q, exec (f.1 o) s = .next t ∧ SentLate s t [o.a] o.d q ∧ q.phase = .answered ∧
      q.value = [BitVec.ofNat 32 (fp32.round 0 (f.2 (fp32.decode (s.rd (one [o.a]) o.a).toNat)))] ∧
      (t.elem s.cur.elem).p = s.me.p) ∧
  (∀ f ∈ binaryFunctions, ∀ (o : ROp) (s : State), Fits (f.1 o) s →
    ∃ t q, exec (f.1 o) s = .next t ∧ SentLate s t [o.a, o.b] o.d q ∧ q.phase = .answered ∧
      q.value = [f.2 (s.rd (one [o.a, o.b]) o.a) (s.rd (one [o.a, o.b]) o.b)] ∧ (t.elem s.cur.elem).p = s.me.p) ∧
  (∀ f ∈ angleFunctions, ∀ (o : ROp) (s : State), Fits (f.1 o) s →
    ∃ t q, exec (f.1 o) s = .next t ∧ SentLate s t [o.a] o.d q ∧ q.phase = .answered ∧
      q.value = [BitVec.ofNat 32 (fp32.round 0 (f.2 (fp32.decode (s.rd (one [o.a]) o.a).toNat)))] ∧
      (t.elem s.cur.elem).p = (s.me.setPred 7 (angleOut (fp32.decode (s.rd (one [o.a]) o.a).toNat))).p)

/-- R189, R35: what an operand reads by its source code in the current beat: a register, the word at position k of a
channel that the rule does not pop, the head of one that it pops, the carry word, zero, the beat, the coordinate word,
or the extension's 28 bits. -/
def Obligations.SourceCodesRead : Prop :=
  ∀ (s : State) (cs : List Code) (c : Code),
    (c.toNat ≤ 15 → s.rd (one cs) c = s.me.reg c.toNat) ∧
    (∀ ch, c.toNat = 16 + ch → ch < 4 → pops cs ch = false →
      s.rd (one cs) c = (s.me.peekWord ch s.beatNo).word) ∧
    (∀ ch, c.toNat = 16 + ch → ch < 4 → pops cs ch = true → s.rd (one cs) c = (s.me.peekWord ch 0).word) ∧
    (∀ ch, c.toNat = 20 + ch → ch < 4 → c ∈ cs → s.rd (one cs) c = (s.me.peekWord ch 0).word) ∧
    (c = 24 → s.rd (one cs) c = s.carryIn.extractLsb' 0 32) ∧
    (c = 25 → s.rd (one cs) c = 0) ∧
    (c = 26 → s.rd (one cs) c = BitVec.ofNat 32 s.beatNo) ∧
    (c = 27 → s.rd (one cs) c = s.coordWord s.cur.elem) ∧
    (c = 28 → s.rd (one cs) c = (s.curExt.extractLsb' 0 28).signExtend 32)

/-- R190: the element coordinate word holds package, cluster, core and element in their bits, and zeros elsewhere. -/
def Obligations.CoordinateWord : Prop :=
  ∀ (s : State) (k : Nat), k < 98304 →
    let w := s.coordWord k
    (w.extractLsb' 23 9).toNat = s.podId ∧ (w.extractLsb' 16 7).toNat = k / 1024 ∧ (w.extractLsb' 14 2).toNat = 0 ∧
    (w.extractLsb' 8 6).toNat = k / 16 % 64 ∧ (w.extractLsb' 4 4).toNat = 0 ∧ (w.extractLsb' 0 4).toNat = k % 16

/-- R35, R58, R61: reading the operands removes one word from each channel that some operand pops, however many operands
name it, notes the freed slot at the link, empties a joined `ci` that an operand reads in beat 0, and changes nothing
else. -/
def Obligations.OperandsConsumed : Prop :=
  ∀ (s : State) (cs : List Code),
    let t := s.consume (one cs)
    let k := s.cur.elem
    OnlyElemsAndLinks s t ∧ OthersAsBefore s t k ∧ RegsAsBeforeBut s.me (t.elem k) [] ∧
    RestOfElemAsBefore s.me { t.elem k with ci := s.me.ci } ∧
    (∀ ch, ch < 4 → (t.elem k).chan ch = (s.me.chan ch).drop (if pops cs ch then 1 else 0)) ∧
    (∀ ch, ch < 4 → (t.elem k).outCh ch = s.me.outCh ch) ∧
    ((t.elem k).ci = if (24 : Code) ∈ cs ∧ s.ciJoined k = true ∧ s.beatNo = 0 then none else s.me.ci) ∧
    t.links = s.links.map fun l => { l with freed := l.freed + (match l.receiver with
      | .elemIn e ch => if e = k ∧ ch < 4 ∧ pops cs ch = true ∧ s.me.chan ch ≠ [] then 1 else 0
      | _ => 0) }

/-- R191, R37, R57, R58: a result goes to the register of its code, or is pushed with the code's tag onto the code's
output channel: one slot of the channel is taken, and the word enters the link unless a reserved slot stands before it.
Nothing else changes. -/
def Obligations.ResultsWritten : Prop :=
  ∀ (s : State) (c : Code) (w : Word),
    let t := s.wr c w
    let k := s.cur.elem
    OnlyElemsAndLinks s t ∧ OthersAsBefore s t k ∧ RestOfElemAsBefore s.me (t.elem k) ∧
    (∀ ch, ch < 4 → (t.elem k).chan ch = s.me.chan ch) ∧
    (c.toNat ≤ 15 → (t.elem k).reg c.toNat = w ∧ RegsAsBeforeBut s.me (t.elem k) [c.toNat] ∧ t.links = s.links ∧
      (t.elem k).isPending c.toNat = s.me.isPending c.toNat ∧ ∀ ch, ch < 4 → (t.elem k).outCh ch = s.me.outCh ch) ∧
    (∀ ch tag, c.toNat = 16 + 4 * tag + ch → ch < 4 → tag < 4 →
      RegsAsBeforeBut s.me (t.elem k) [] ∧ (∀ j, j < 4 → j ≠ ch → (t.elem k).outCh j = s.me.outCh j) ∧
      ((t.elem k).outCh ch).count = (s.me.outCh ch).count - 1 ∧ ((t.elem k).outCh ch).link = (s.me.outCh ch).link ∧
      ((s.me.outCh ch).stage = [] → ((t.elem k).outCh ch).stage = [] ∧
        t.links = match (s.me.outCh ch).link with
          | some n => s.links.map fun l =>
              if l.id = n then { l with wire := l.wire ++ [⟨w, BitVec.ofNat 2 tag, 0⟩] } else l
          | none => s.links) ∧
      (∀ id tg es, (s.me.outCh ch).stage = .hole id tg :: es →
        ((t.elem k).outCh ch).stage = (s.me.outCh ch).stage ++ [.word w (BitVec.ofNat 2 tag)] ∧ t.links = s.links))

namespace Sys2Proof.Claims

/-! ## Memory rules -/

/-- The demand of a memory rule: its address code outside global space, then data codes with the words that each takes. -/
def memDemand (o : MOp) (data : List (Code × Nat)) : Demand := (if o.space = 0 then [] else [(o.addr, 1)]) ++ data

/-- One access meets no address fault: 0x10, 0x13, 0x14 and 0x12 (R119, R241, R247). A port access has a direction. -/
def AddrFits (s : State) (space : BitVec 2) (a size : Nat) (dir : Option Bool) : Prop :=
  (space = 0 → a < 2 ^ 55 ∧ a % size = 0) ∧
  (space = 1 → s.rebase (elemCore s.cur.elem) a < 2 ^ 23 ∧ s.rebase (elemCore s.cur.elem) a % size = 0) ∧
  (space = 2 → a < 2 ^ 17 ∧ a % size = 0) ∧
  (space = 3 → ∀ d, dir = some d → a < 32 ∧ s.boundPort s.cur.elem a d = true)

/-- No beat of the rule meets an address fault; this is tested before beat 0 commits (R54). -/
def Reaches (s : State) (m : MemForm) (n : Nat) (dir : Option Bool) : Prop :=
  s.beatNo = 0 → ∀ k, k < n → AddrFits s m.o.space (s.ea m k k) m.size dir

/-- A done token takes its slot on channel `ch` in this beat (R132, R243). -/
def takesDone (s : State) (o : MOp) (ch : Nat) : Bool :=
  decide (o.scope ≠ 0 ∧ s.beatNo = 0 ∧ o.done.toNat = ch)

/-- A memory rule has sent the request `q` in its beat: the address of the beat, the operands and the qualifiers stand in
it; the operands' pops are taken, the destination is pending or reserved, and in beat 0 of a rule of nonzero scope one
done token takes its slot (R197, R241 to R244). `n` words of an output are reserved where the data code is one. -/
def SentMem (s t : State) (m : MemForm) (kind : ReqKind) (ops : List Word) (n : Nat) (q : Req) : Prop :=
  OnlySends s t ∧ t.reqs = s.reqs ++ [q] ∧
  q.kind = kind ∧ q.elem = s.cur.elem ∧ q.slot = s.cur.slot ∧ q.word = s.curWord ∧ q.ext = s.curExt ∧
  q.beat = s.beatNo ∧ q.space = m.o.space ∧ q.va = BitVec.ofNat 64 (s.ea m s.beatNo 0) ∧ q.size = m.size ∧ q.ops = ops ∧
  q.scope = m.o.scope ∧ (∀ b, s.me.beat = some b → q.group = b.group) ∧
  (q.acq = true ↔ kind.repairs = false ∧ m.o.space = 0 ∧ m.o.w = true ∧ s.curExt.getLsbD 5 = true) ∧
  (q.rel = true ↔ kind.repairs = false ∧ m.o.space = 0 ∧ m.o.w = true ∧ s.curExt.getLsbD 4 = true) ∧
  (q.ordered = true ↔ m.o.space = 0 ∧ m.o.w = true ∧ s.curExt.getLsbD 3 = true) ∧
  (m.o.w = true → q.range = s.curExt.extractLsb' 6 8) ∧
  (∀ ch, ch < 4 → (t.elem s.cur.elem).chan ch = (s.me.chan ch).drop (popsOf m.dm ch)) ∧
  (∀ ch, ch < 4 → ((t.elem s.cur.elem).outCh ch).count =
    (s.me.outCh ch).count - (if n ≠ 0 ∧ 16 ≤ m.o.data.toNat ∧ m.o.data.toNat % 4 = ch then n else 0) -
      (if takesDone s m.o ch = true then 1 else 0)) ∧
  (m.o.scope ≠ 0 → s.beatNo = 0 → ∃ d, t.dones = s.dones ++ [d] ∧ d.group = q.group ∧ d.elem = s.cur.elem ∧
    d.ch = m.o.done.toNat ∧ d.scope = m.o.scope) ∧
  (m.o.scope = 0 ∨ s.beatNo ≠ 0 → t.dones = s.dones)

/-- A late result of `n` words goes to the destination of code `c`: a register, which is pending, or reserved slots. -/
def Awaits (s t : State) (q : Req) (c : Code) (n : Nat) : Prop :=
  (c.toNat < 16 → q.dst = .reg c.toNat ∧ (t.elem s.cur.elem).isPending c.toNat = true) ∧
  (16 ≤ c.toNat → ∃ hs, hs.length = n ∧ q.dst = .out (c.toNat % 4) hs)

/-- A late result goes to a register pair, both registers of which are pending (R93). -/
def AwaitsPair (s t : State) (q : Req) (c : Code) : Prop :=
  q.dst = .pair c.toNat ∧ (t.elem s.cur.elem).isPending c.toNat = true ∧
  (t.elem s.cur.elem).isPending (c.toNat + 1) = true

/-- The two words of a pair. -/
def pairWords (s : State) (c : Code) : List Word := [s.me.reg c.toNat, s.me.reg (c.toNat + 1)]

/-- The first `n` words of the channel that a code names. -/
def headWords (s : State) (c : Code) (n : Nat) : List Word :=
  (List.range n).map fun i => (s.me.peekWord (c.toNat % 4) i).word

/-- The loads, with whether each passes by the copies (R246). -/
def loads : List ((MOp → BitVec 2 → Instr) × Bool) := [(.ld, false), (.ldBy, true)]

/-- The atomics of one operand with their operations (R251). -/
def atomics : List ((MOp → Instr) × AmoOp) := [
  (.amoAdd, .add), (.amoSub, .sub), (.amoMin, .min), (.amoMax, .max), (.amoAnd, .and), (.amoOr, .or), (.amoXor, .xor),
  (.amoSwap, .swap), (.amoFmin, .fmin), (.amoFmax, .fmax), (.amoFadd, .fadd)]

/-- Whether the extension's W64 bit makes an atomic or order-repair rule act on 64 bits (R197). -/
def wide64 (s : State) (o : MOp) : Bool := o.w && s.curExt.getLsbD 0

/-- The operand words of an atomic of one operand (R250). -/
def atomicWords (s : State) (o : MOp) (w64 : Bool) : List Word :=
  if w64 = false then [s.rd (one [o.data]) o.data]
  else if o.data.toNat < 16 then pairWords s o.data
  else if o.data = 25 then [0, 0]
  else headWords s o.data 2

/-- Where the old value of an atomic returns (R250). -/
def OldValueTo (s t : State) (o : MOp) (w64 : Bool) (q : Req) : Prop :=
  if 16 ≤ o.data.toNat then q.dst = .none
  else if w64 = true then AwaitsPair s t q o.data else Awaits s t q o.data 1

/-- What an atomic pops: one word, or two of 64 bits, of a channel. -/
def atomicDemand (o : MOp) (w64 : Bool) : Demand :=
  memDemand o (if o.data.toNat < 16 then [] else [(o.data, if w64 = true then 2 else 1)])

/-- The `orc.op` forms with their operations (R149, R255). -/
def orcOps : List ((MOp → Instr) × OrcOp) := [
  (.orcOpSet, .set), (.orcOpAddF32, .addF32), (.orcOpAddF64, .addF64), (.orcOpMulF32, .mulF32), (.orcOpFmaF32, .fmaF32),
  (.orcOpMaxF32, .maxF32), (.orcOpMinF32, .minF32), (.orcOpAddInt, .addInt)]

/-- The order-repair controls without operands: size in bytes by W64, and their kinds (R254). -/
def orcPlain : List ((MOp → Instr) × (Bool → Nat) × (Bool → ReqKind)) := [
  (.orcDom, fun _ => 512, fun _ => .orcCtl .dom false),
  (.orcFree, fun w => if w then 8 else 4, fun w => .orcCtl .free w),
  (.orcFold, fun w => if w then 8 else 4, fun w => .orcCtl .fold w)]

/-- The registers named by a code and the `n` - 1 after it. -/
def regsAt (s : State) (c : Code) (n : Nat) : List Word := (List.range n).map fun i => s.me.reg (c.toNat + i)

end Sys2Proof.Claims

/-- R241: the effective address of beat k is the base plus the signed offset plus k times the access size, modulo 2^64;
the base is a register pair in global space and an operand elsewhere, and a port's number stands alone.

R119, R241, R247, R371: the address fault of one access, and none where the access fits: beyond the address's range 0x10
or 0x13, a port that is not bound in the direction 0x14, and a misaligned address 0x12, in this order. -/
def Obligations.AddressesAndTheirFaults : Prop :=
  (∀ (s : State) (m : MemForm) (k ahead : Nat),
     (m.o.space = 0 → m.o.addr.toNat + 1 < 16 →
       BitVec.ofNat 64 (s.ea m k ahead) =
         (s.me.reg m.o.addr.toNat).setWidth 64 + (s.me.reg (m.o.addr.toNat + 1)).setWidth 64 * 2 ^ 32 +
           (if m.o.w then (s.curExt.extractLsb' 14 14).signExtend 64 else 0) +
           BitVec.ofNat 64 (k * m.size)) ∧
     (m.o.space = 1 ∨ m.o.space = 2 →
       BitVec.ofNat 64 (s.ea m k ahead) = (s.rdAt m.dm m.o.addr k ahead).setWidth 64 +
           (if m.o.w then (s.curExt.extractLsb' 14 14).signExtend 64 else 0) +
           BitVec.ofNat 64 (k * m.size)) ∧
     (m.o.space ≠ 3 → s.ea m k ahead < 2 ^ 64) ∧
     (m.o.space = 3 → s.ea m k ahead = (s.rdAt m.dm m.o.addr k ahead).toNat)) ∧
  (∀ (s : State) (space : BitVec 2) (a size : Nat) (dir : Option Bool),
     let b := s.rebase (elemCore s.cur.elem) a
     (s.addrFault space a size dir = none ↔ AddrFits s space a size dir) ∧
     (space = 0 → 2 ^ 55 ≤ a → s.addrFault space a size dir = some (0x10, a)) ∧
     (space = 0 → a < 2 ^ 55 → a % size ≠ 0 → s.addrFault space a size dir = some (0x12, a)) ∧
     (space = 1 → 2 ^ 23 ≤ b → s.addrFault space a size dir = some (0x13, a)) ∧
     (space = 1 → b < 2 ^ 23 → b % size ≠ 0 → s.addrFault space a size dir = some (0x12, a)) ∧
     (space = 2 → 2 ^ 17 ≤ a → s.addrFault space a size dir = some (0x13, a)) ∧
     (space = 2 → a < 2 ^ 17 → a % size ≠ 0 → s.addrFault space a size dir = some (0x12, a)) ∧
     (∀ d, space = 3 → dir = some d → (32 ≤ a ∨ s.boundPort s.cur.elem a d = false) →
       s.addrFault space a size dir = some (0x14, a)))
/-- R245 to R249: loads, stores, block transfers and prefetches send one request in each beat: a load awaits its result
in a register, a pair or an output, a block load reserves 16 slots, and a store holds its data. -/
def Obligations.LoadStoreFiring : Prop :=
  (∀ f ∈ loads, ∀ (o : MOp) (k : BitVec 2) (s : State), Fits (f.1 o k) s →
    Reaches s ⟨o, 2 ^ k.toNat, memDemand o []⟩ (s.countOf (f.1 o k).view) (some true) →
    ∃ t q, exec (f.1 o k) s = .next t ∧
      SentMem s t ⟨o, 2 ^ k.toNat, memDemand o []⟩ (.load f.2) [] (if k = 3 then 0 else 1) q ∧
      (if k = 3 then AwaitsPair s t q o.data else Awaits s t q o.data 1)) ∧
  (∀ (o : MOp) (k : BitVec 2) (s : State), Fits (.st o k) s →
    let m : MemForm := ⟨o, 2 ^ k.toNat, memDemand o (if k = 3 then [] else [(o.data, 1)])⟩
    Reaches s m (s.countOf (Instr.st o k).view) (some false) →
    ∃ t q, exec (.st o k) s = .next t ∧
      SentMem s t m .store (if k = 3 then pairWords s o.data else [s.rd m.dm o.data]) 0 q ∧ q.dst = .none) ∧
  (∀ (o : MOp) (s : State), Fits (.ldblk o) s →
    Reaches s ⟨o, 64, memDemand o []⟩ (s.countOf (Instr.ldblk o).view) none →
    ∃ t q, exec (.ldblk o) s = .next t ∧ SentMem s t ⟨o, 64, memDemand o []⟩ .loadBlock [] 16 q ∧ Awaits s t q o.data 16) ∧
  (∀ (o : MOp) (s : State), Fits (.stblk o) s →
    Reaches s ⟨o, 64, memDemand o [(o.data, 16)]⟩ (s.countOf (Instr.stblk o).view) none →
    ∃ t q, exec (.stblk o) s = .next t ∧
      SentMem s t ⟨o, 64, memDemand o [(o.data, 16)]⟩ .storeBlock (headWords s o.data 16) 0 q ∧ q.dst = .none) ∧
  (∀ (o : MOp) (s : State), Fits (.pref o) s → Reaches s ⟨o, 1, memDemand o []⟩ 1 none →
    (s.beatNo = 0 → o.space = 0 ∧ o.scope = 0 ∧ s.countOf (Instr.pref o).view = 1) →
    ∃ t q, exec (.pref o) s = .next t ∧ SentMem s t ⟨o, 1, memDemand o []⟩ .prefetch [] 0 q ∧ q.dst = .none)

/-- R250 to R252: every atomic sends one request to the home of its address, with its operands: a register or pair, to
which the old value returns, or words of a channel, and then the old value is discarded. -/
def Obligations.AtomicFiring : Prop :=
  (∀ f ∈ atomics, ∀ (o : MOp) (s : State), Fits (f.1 o) s → o.space = 0 →
    (wide64 s o = true → o.data.toNat < 16 ∨ (20 ≤ o.data.toNat ∧ o.data.toNat < 24) ∨ o.data = 25) →
    let m : MemForm := ⟨o, if wide64 s o then 8 else 4, atomicDemand o (wide64 s o)⟩
    Reaches s m (s.countOf (f.1 o).view) none →
    ∃ t q, exec (f.1 o) s = .next t ∧
      SentMem s t m (.amo f.2 (wide64 s o)) (atomicWords s o (wide64 s o)) 0 q ∧ OldValueTo s t o (wide64 s o) q) ∧
  (∀ (o : MOp) (s : State), Fits (.amoVmin64 o) s → o.space = 0 →
    (o.data.toNat < 16 ∨ (20 ≤ o.data.toNat ∧ o.data.toNat < 24) ∨ o.data = 25) →
    Reaches s ⟨o, 8, atomicDemand o true⟩ (s.countOf (Instr.amoVmin64 o).view) none →
    ∃ t q, exec (.amoVmin64 o) s = .next t ∧
      SentMem s t ⟨o, 8, atomicDemand o true⟩ (.amo .vmin64 true) (atomicWords s o true) 0 q ∧ OldValueTo s t o true q) ∧
  (∀ (o : MOp) (s : State), Fits (.amoInc o) s → o.space = 0 →
    let m : MemForm := ⟨o, if wide64 s o then 8 else 4, memDemand o []⟩
    Reaches s m (s.countOf (Instr.amoInc o).view) none →
    ∃ t q, exec (.amoInc o) s = .next t ∧ SentMem s t m (.amo .inc (wide64 s o)) [] 0 q ∧
      OldValueTo s t o (wide64 s o) q) ∧
  (∀ (o : MOp) (s : State), Fits (.amoCas o) s → o.space = 0 →
    let m : MemForm := ⟨o, if wide64 s o then 8 else 4, memDemand o []⟩
    Reaches s m (s.countOf (Instr.amoCas o).view) none →
    ∃ t q, exec (.amoCas o) s = .next t ∧
      SentMem s t m (.amo .cas (wide64 s o)) (regsAt s o.data (if wide64 s o then 4 else 2)) 0 q ∧
      OldValueTo s t o (wide64 s o) q)

/-- R254 to R256: every order-repair rule sends one request to the home of its cell, with the operands that it reads:
`orc.bind` a pair, `orc.mark` one operand, `orc.op` a stamp and operands from four registers, `orc.lds` a stamp that is
not 0; the loads await a register or, of 64 bits, a pair. -/
def Obligations.OrderRepairFiring : Prop :=
  (∀ f ∈ orcPlain, ∀ (o : MOp) (s : State), Fits (f.1 o) s → o.space = 0 →
    let m : MemForm := ⟨o, f.2.1 (wide64 s o), memDemand o []⟩
    Reaches s m 1 none →
    ∃ t q, exec (f.1 o) s = .next t ∧ SentMem s t m (f.2.2 (wide64 s o)) [] 0 q ∧ q.dst = .none) ∧
  (∀ (o : MOp) (s : State), Fits (.orcBind o) s → o.space = 0 →
    let m : MemForm := ⟨o, if wide64 s o then 8 else 4, memDemand o []⟩
    Reaches s m 1 none →
    ∃ t q, exec (.orcBind o) s = .next t ∧ SentMem s t m (.orcCtl .bind (wide64 s o)) (pairWords s o.data) 0 q ∧
      q.dst = .none) ∧
  (∀ (o : MOp) (s : State), Fits (.orcMark o) s → o.space = 0 →
    let m : MemForm := ⟨o, if wide64 s o then 8 else 4, memDemand o [(o.data, 1)]⟩
    Reaches s m 1 none →
    ∃ t q, exec (.orcMark o) s = .next t ∧
      SentMem s t m (.orcCtl .mark (wide64 s o)) [s.rd (one [o.data]) o.data] 0 q ∧ q.dst = .none) ∧
  (∀ f ∈ orcOps, ∀ (o : MOp) (s : State), Fits (f.1 o) s → o.space = 0 →
    let m : MemForm := ⟨o, if wide64 s o then 8 else 4, memDemand o []⟩
    Reaches s m 1 none →
    ∃ t q, exec (f.1 o) s = .next t ∧ SentMem s t m (.orcOp f.2 (wide64 s o)) (regsAt s o.data 4) 0 q ∧ q.dst = .none) ∧
  (∀ (o : MOp) (s : State) (settled : Bool), o.space = 0 →
    let i := if settled then Instr.orcLds o else Instr.orcLdt o
    let m : MemForm := ⟨o, if wide64 s o then 8 else 4, memDemand o []⟩
    Fits i s → Reaches s m 1 none →
    (settled = true → s.beatNo = 0 → (s.me.reg o.data.toNat).extractLsb' 0 24 ≠ 0) →
    ∃ t q, exec i s = .next t ∧
      SentMem s t m (.orcLoad settled (wide64 s o)) (if settled then [s.me.reg o.data.toNat] else []) 0 q ∧
      (if wide64 s o then AwaitsPair s t q o.data else Awaits s t q o.data 1))

namespace Sys2Proof.Claims

/-! ## Synchronisation, engines and the system -/

/-- A field of a word as a number. -/
def bitsAt (w : Word) (lo n : Nat) : Nat := (w.extractLsb' lo n).toNat

/-- A col word without nonzero must-be-0 bits that names a col of a spur of the same ridge (R258). -/
def ColNamed (s : State) (w : Word) : Prop :=
  bitsAt w 14 18 = 0 ∧ w.getLsbD 7 = false ∧ (s.colOf (bitsAt w 0 7)).isSome = true

/-- A state with the spur of identifier `id` changed. -/
def withSpur (s : State) (id : Nat) (f : Spur → Spur) : State :=
  { s with spurs := s.spurs.map fun p => if p.id = id then f p else p }

/-- A rule has put the command `c` at the end of a queue of its core: its words and operands stand in it, the pops of the
demand are taken, and everything else but the destination's pending bit or slots is as before (R39, R279). -/
def SentCmd (s t : State) (queue : Nat) (dm : Demand) (ops : List Word) (c : Cmd) : Prop :=
  let k := s.cur.elem
  let n := elemCore k
  t = { s with elems := t.elems, links := t.links, cores := t.cores, nextId := t.nextId } ∧
  OthersAsBefore s t k ∧ (∀ r, r < 16 → (t.elem k).reg r = s.me.reg r) ∧
  RestOfElemAsBefore s.me { t.elem k with ci := s.me.ci } ∧
  (∀ ch, ch < 4 → (t.elem k).chan ch = (s.me.chan ch).drop (popsOf dm ch)) ∧
  (∀ j, j ≠ n → t.core j = s.core j) ∧
  (t.core n).queued queue = (s.core n).queued queue ++ [c] ∧
  (∀ q ∈ [0, 4, 5, 6, 7], q ≠ queue → (t.core n).queued q = (s.core n).queued q) ∧
  { t.core n with mx := { (t.core n).mx with queue := (s.core n).mx.queue }, islandQ := (s.core n).islandQ } = s.core n ∧
  c.elem = k ∧ c.slot = s.cur.slot ∧ c.word = s.curWord ∧ c.ext = s.curExt ∧ c.ops = ops

/-- A command's result of `n` words goes to the destination of a code: a register, which is pending, or slots of an output,
which are reserved (R280). -/
def CmdTo (s t : State) (c : Cmd) (code : Code) (n : Nat) : Prop :=
  (code.toNat < 16 → c.dst = .reg code.toNat ∧ (t.elem s.cur.elem).isPending code.toNat = true) ∧
  (16 ≤ code.toNat → (∃ hs, hs.length = n ∧ c.dst = .out (code.toNat % 4) hs) ∧
    ((t.elem s.cur.elem).outCh (code.toNat % 4)).count = (s.me.outCh (code.toNat % 4)).count - n)

/-- The commands whose operands are registers: the queue, the operand registers after the source code, and the words of
the result where the command has one. -/
def commands : List ((EOp → Instr) × Nat × Nat × (State → EOp → Option Nat)) := [
  (.mxZero, 0, 0, fun _ _ => none),
  (.mseqGemm, 0, 2, fun _ _ => some 1), (.mseqConv, 0, 2, fun _ _ => some 1),
  (.smpBind, 7, 2, fun _ _ => none), (.wtLd, 7, 2, fun _ _ => some 1), (.wtDrop, 7, 0, fun _ _ => none),
  (.smpDec, 7, 2, fun s o => some (s.decWords o)),
  (.visAttr, 5, 6, fun _ _ => some 18),
  (.trFmt, 4, 2, fun _ _ => none), (.trRay, 4, 2, fun _ _ => some 1), (.trWalk, 4, 2, fun _ _ => some 1),
  (.trMarch, 4, 2, fun _ _ => some 1)]

/-- A result of some words goes to the port, or the command has none. -/
def ResultTo (s t : State) (c : Cmd) (port : Code) : Option Nat → Prop
  | some n => CmdTo s t c port n
  | none => c.dst = .none

/-- Rows of bytes aligned to 64, each 64-byte block of them within range: in scratch after rebasing, or of global memory
(R119, R283). -/
def RowsFit (s : State) (scratch : Bool) (rows : List (Nat × Nat)) : Prop :=
  ∀ r ∈ rows, r.1 % 64 = 0 ∧ ∀ j, j < r.2 / 64 →
    (if scratch = true then s.rebase (elemCore s.cur.elem) (r.1 + 64 * j) < 2 ^ 23 else r.1 + 64 * j < 2 ^ 55)

/-- The base of a matrix transfer: a pair in global space, an operand in scratch. -/
def matrixBase (s : State) (o : EOp) (scratch : Bool) : List Word :=
  if scratch = true then [s.rd (one [o.src]) o.src, 0] else pairWords s o.src

/-- A number from its two words, low word first. -/
def ofPair (ws : List Word) : Nat := (ws.getD 0 0).toNat + (ws.getD 1 0).toNat * 2 ^ 32

/-- A spur after `halt`: no rule of it fires any more. -/
def halted (p : Spur) : Spur := { p with phase := .halted }

/-- The rules of a chain's element that may name a register: any in the user view, and all in a privileged chain. -/
def MayName (s : State) (n : Nat) : Prop := s.beatNo = 0 → n < 0x200 ∨ s.privAt (elemCore s.cur.elem) = true

/-- Whether a register's value comes late, from the cluster controller (R298). -/
def suppliedLate (n : Nat) : Prop := n = 6 ∨ (8 ≤ n ∧ n ≤ 0x0C) ∨ (0x10 ≤ n ∧ n ≤ 0x37) ∨ n = 0x214

/-- A write of registers leaves every other register than one as it was. -/
def OnlyReg (s t : State) (n : Nat) : Prop := ∀ m, m ≠ n → t.preg m = s.preg m

/-- A boost lease is granted (R304, R335): the request is well formed, no lease is held, the code or level asked for is within
LEASE_MAX_V or LEASE_MAX_M, the observer's c is 0, and the voltage ceiling is 40. -/
def Grantable (s : State) (cl : Nat) (w : Word) : Prop :=
  bitsAt w 26 6 = 0 ∧ 1 ≤ bitsAt w 0 16 ∧ bitsAt w 0 16 ≤ 50000 ∧ (s.cluster cl).lease = none ∧
  ((bitsAt w 16 2 = 1 ∧ bitsAt w 18 8 ≤ bitsAt (s.preg 0x3D2) 0 6) ∨
   (bitsAt w 16 2 = 2 ∧ bitsAt w 18 8 ≤ bitsAt (s.preg 0x3D3) 0 12)) ∧
  bitsAt (s.preg (0x310 + cl)) 24 3 = 0 ∧ bitsAt (s.preg (0x370 + cl)) 24 6 = 40

/-- What an element reads in the user view, and what a read latches (R17, R18, R66, R67, R299, R300). -/
def UserView (s : State) (k : Nat) : Prop :=
  let v := s.sysValue k
  let core := k / 16 % 64
  let cl := k / 1024
  v 0x00 = BitVec.ofNat 32 (k % 16) ∧
  (bitsAt (v 0x01) 0 3 = core % 8 ∧ bitsAt (v 0x01) 4 3 = core / 8 ∧ bitsAt (v 0x01) 8 6 = core ∧ v 0x01 &&& 0xFFFFC088 = 0) ∧
  (cl < 96 → bitsAt (v 0x02) 0 7 = cl ∧ bitsAt (v 0x02) 8 2 = cl / 24 ∧ bitsAt (v 0x02) 10 5 = cl % 24 ∧
    bitsAt (v 0x02) 23 9 = bitsAt (s.preg 0x296) 0 9 ∧ v 0x02 &&& 0x007F8080 = 0) ∧
  (∀ p, s.spurAt (k / 16) = some p → p.w ≤ 8 → p.h ≤ 8 → p.x0 < 8 → p.y0 < 8 → p.index < 96 →
    bitsAt (v 0x03) 0 4 = p.w ∧ bitsAt (v 0x03) 4 4 = p.h ∧ bitsAt (v 0x03) 8 3 = p.x0 ∧ bitsAt (v 0x03) 12 3 = p.y0 ∧
    bitsAt (v 0x03) 16 7 = p.index ∧ v 0x03 &&& 0xFF808800 = 0) ∧
  v 0x04 = (s.elem k).steps.extractLsb' 0 32 ∧ v 0x05 = (s.elem k).stepHi ∧ v 0x06 = s.timeNs.extractLsb' 0 32 ∧
  v 0x07 = (s.elem k).timeHi ∧ v 0x08 = BitVec.ofNat 32 (bitsAt (s.preg (0x370 + cl)) 8 6) ∧
  ((s.cluster cl).lease = none → v 0x09 = 0) ∧
  (∀ l, (s.cluster cl).lease = some l → v 0x09 = BitVec.ofNat 32 ((l.endNs - s.timeNs.toNat) / 1000)) ∧
  (∀ p c, s.spurAt (k / 16) = some p → s.chain? p.chain = some c →
    v 0x0A = BitVec.ofNat 32 (fieldAt c.record 8 8) ∧ v 0x0B = BitVec.ofNat 32 (fieldAt c.record 8 8 / 2 ^ 32) ∧
    v 0x0C = BitVec.ofNat 32 p.stage ∧
    v 0x0D = BitVec.ofNat 32 ((if c.privileged then 1 else 0) + (if c.flagD then 2 else 0)) ∧
    (∀ (i : Nat) (bs : List Byte), i < 40 → c.system = false →
      s.readVirt c.root ⟨true, false, false, c.privileged⟩ (c.stageTable + 64 * p.stage + 0x10) 8 = .ok bs →
      (natOfBytes bs = 0 → v (0x10 + i) = BitVec.ofNat 32 (fieldAt c.record (0x60 + 4 * i) 4)) ∧
      (∀ ws, natOfBytes bs ≠ 0 →
        s.readVirt c.root ⟨true, false, false, c.privileged⟩ (natOfBytes bs + 4 * i) 4 = .ok ws →
        v (0x10 + i) = BitVec.ofNat 32 (natOfBytes ws)))) ∧
  v 0x0E = (s.elem k).hmask.setWidth 32 ∧ v 0x0F = 0 ∧ (∀ n, 0x38 ≤ n → n < 0x200 → v n = 0) ∧
  (∀ n, 0x200 ≤ n → v n = s.readReg n) ∧
  ((s.sysLatch k 4).elem k).stepHi = (s.elem k).steps.extractLsb' 32 32 ∧
  ((s.sysLatch k 6).elem k).timeHi = s.timeNs.extractLsb' 32 32 ∧
  (∀ n, n < 0x200 → n ≠ 4 → n ≠ 6 → s.sysLatch k n = s)

end Sys2Proof.Claims

/-- R257 to R264, R76: the synchronisation rules. A col's request and a queue's append are sent; a col is released by
its holder alone; an arrival is counted at once; a drain starts or joins the one in progress; `quiet` sets its spur's
mark. Which work a drain covers is the model's reading (log 34). -/
def Obligations.SynchronisationFiring : Prop :=
  (∀ (o : ROp) (s : State), Fits (.colReq o) s → (s.beatNo = 0 → ColNamed s (s.rd (one [o.a]) o.a)) →
    let w := s.rd (one [o.a]) o.a
    ∃ t q, exec (.colReq o) s = .next t ∧ SentLate s t [o.a] o.d q ∧ q.kind = .colReq (bitsAt w 0 7) (bitsAt w 8 6)) ∧
  (∀ (o : ROp) (s : State) (p : Spur), Fits (.colRel o) s → (s.beatNo = 0 → ColNamed s (s.rd (one [o.a]) o.a)) →
    let w := s.rd (one [o.a]) o.a
    s.colOf (bitsAt w 0 7) = some p →
    exec (.colRel o) s = .next (withSpur (s.consume (one [o.a])) p.id fun p => { p with
      col := p.col.map fun c => if c.holder = some (bitsAt w 8 6) then { c with holder := none } else c })) ∧
  (∀ (o : ROp) (s : State) (p : Spur), Fits (.barArrive o) s → s.mySpur = some p →
    let b := bitsAt (s.rd (one [o.a]) o.a) 0 4
    let r := p.bars.getD b default
    (s.beatNo = 0 → r.need ≠ 0) →
    ∃ u q, exec (.barArrive o) s = .next (withSpur u p.id fun p => { p with
        bars := p.bars.setIfInBounds b { p.bars.getD b default with count := (p.bars.getD b default).count + 1 } }) ∧
      SentLate s u [o.a] o.d q ∧ q.kind = .barrier b ((r.gen.toNat + r.count / r.need) % 2 ^ 32)) ∧
  (∀ (o : ROp) (s : State) (p : Spur), Fits (.drain o) s → s.mySpur = some p →
    ∃ u q, exec (.drain o) s = .next (withSpur u p.id fun p => { p with
        drain := some (p.drain.getD { todo := p.elemKeys, covered := [] }) }) ∧
      SentLate s u [] o.d q ∧ q.kind = .drain) ∧
  (∀ (o : ROp) (s : State) (p : Spur), Fits (.quiet o) s → s.mySpur = some p →
    exec (.quiet o) s = .next (withSpur (s.consume (one [o.a])) p.id fun p => { p with
      quiet := (s.rd (one [o.a]) o.a).getLsbD 0 })) ∧
  (∀ (o : ROp) (s : State), Fits (.sig o) s →
    ∃ t q, exec (.sig o) s = .next t ∧ OnlySends s t ∧ t.reqs = s.reqs ++ [q] ∧
      q.kind = .signal (bitsAt (s.rd (one [o.a]) o.a) 0 6) ∧ q.rel = true ∧ q.scope = 4 ∧ q.elem = s.cur.elem) ∧
  (∀ (o : ROp) (s : State), Fits (.chainPut o) s →
    ∃ t q, exec (.chainPut o) s = .next t ∧ SentLate s t [o.b] o.d q ∧
      q.kind = .chainPut (bitsAt (s.rd (one [o.b]) o.b) 0 4) ∧ q.va = s.me.pair o.a.toNat ∧ q.size = 256 ∧
      q.rel = true ∧ q.scope = 4)

/-- R276, R277, R266: the copy rules: `ct.arm` reads and checks a block and arms its template with the register pending,
or faults late, unless a `ct.stop` waits to write its record or the block's owner does not answer, which the pick `c` =
3 says (log 35); `ct.fire` queues a trigger; `ct.stop` discards the queued ones and ends the arm, at once or behind the
firing that has started; `ct.stat`, `ca.set` and `ca.get` report and set what the core holds. That nonzero reserved
bytes of a block are out of range is the model's reading (log 36). -/
def Obligations.CopyRuleResults : Prop :=
  (∀ (o : EOp) (s : State) (b : List Byte), Fits (.ctArm o) s → s.beatNo = 0 →
    let core := elemCore s.cur.elem
    let a := (s.me.pair o.src.toNat).toNat
    a < 2 ^ 55 → a % 64 = 0 → ((s.core core).template o.obj.toNat).busy = false →
    s.bump.engRead core a 64 = .ok b → s.pick.c ≠ 3 → ((s.core core).template o.obj.toNat).stopping = false →
    (blockOk b = true → s.triggerTaken core o.obj.toNat b = false →
      ∃ t, exec (.ctArm o) s = .next t ∧ t.reqs = s.reqs ∧ t.mem = s.mem ∧
        (o.obj.toNat < 32 → (t.core core).template o.obj.toNat =
          ⟨1, b, 0, 0, 0, false, none, ((s.core core).template o.obj.toNat).arms + 1⟩) ∧
        (∀ n, n ≠ o.obj.toNat → (t.core core).template n = (s.core core).template n) ∧
        (tbReg b < 16 → (t.elem (coreE0 core)).isPending (tbReg b) = true)) ∧
    (blockOk b = false → ∃ t q, exec (.ctArm o) s = .next t ∧ t = s.bump.lateFault q 0x40 0 ∧
      q.elem = s.cur.elem ∧ q.slot = s.cur.slot)) ∧
  (∀ (o : EOp) (s : State), Fits (.ctFire o) s →
    let core := elemCore s.cur.elem
    let b := ((s.core core).template o.obj.toNat).block
    (s.beatNo = 0 → ((s.core core).template o.obj.toNat).state ≠ 0) →
    exec (.ctFire o) s = .next (s.updCore core fun c => { c with
      events := c.events ++ [(o.obj.toNat, BitVec.ofNat 2 (tbChan b), tbTag b)] })) ∧
  (∀ (o : EOp) (s : State), Fits (.ctStop o) s → o.obj.toNat < 32 →
    let core := elemCore s.cur.elem
    let x := (s.core core).template o.obj.toNat
    (s.beatNo = 0 → x.state ≠ 0) →
    (x.firing.isSome = true →
      ∃ t, exec (.ctStop o) s = .next t ∧ (t.core core).template o.obj.toNat = { x with queued := 0, stopping := true }) ∧
    (x.firing = none → tbRec x.block = 0 → x.stopping = false → (∀ q ∈ s.reqs, q.kind ≠ .arm o.obj.toNat) →
      ∃ t, exec (.ctStop o) s = .next t ∧ (t.core core).template o.obj.toNat = { x with queued := 0, stopping := false, state := 0 } ∧
        (tbReg x.block < 16 → (t.elem (coreE0 core)).reg (tbReg x.block) = BitVec.ofNat 32 x.done ∧
          (t.elem (coreE0 core)).isPending (tbReg x.block) = false))) ∧
  (∀ (o : EOp) (s : State), Fits (.ctStat o) s →
    let x := (s.core (elemCore s.cur.elem)).template o.obj.toNat
    exec (.ctStat o) s = .next (s.wr o.port
      (BitVec.ofNat 32 (x.state + (if x.firing.isSome then 4 else 0) + x.queued * 2 ^ 16)))) ∧
  (∀ (o : EOp) (s : State), Fits (.caSet o) s →
    let n := s.rd (one [o.src, o.port]) o.src
    let c := s.rd (one [o.src, o.port]) o.port
    (s.beatNo = 0 → ∀ k, k < s.countOf (Instr.caSet o).view →
      let n := (s.rdAt (one [o.src, o.port]) o.src k k).toNat
      let c := s.rdAt (one [o.src, o.port]) o.port k k
      1 ≤ n ∧ n ≤ 2 ^ 17 ∧ bitsAt c 5 27 = 0 ∧ s.linked s.cur.elem (bitsAt c 0 2) = false) →
    exec (.caSet o) s = .next ((s.consume (one [o.src, o.port])).updCa (elemCore s.cur.elem) o.obj.toNat fun x => { x with
      remaining := n.toNat, expected := n.toNat, ch := c.extractLsb' 0 2, tag := c.extractLsb' 2 2,
      rearm := c.getLsbD 4, overrun := false })) ∧
  (∀ (o : EOp) (s : State), Fits (.caGet o) s →
    exec (.caGet o) s = .next (s.wr o.port
      (BitVec.ofNat 32 ((s.core (elemCore s.cur.elem)).cairn o.obj.toNat).remaining)))

/-- R279, R280, R293 to R297: the commands to the matrix engine and to the islands whose operands are registers: one
command stands at the end of the engine's queue, and its result's destination is pending or reserved. Which binding
sizes the result of a sample is the model's choice (log 56). -/
def Obligations.CommandFiring : Prop :=
  (∀ f ∈ commands, ∀ (o : EOp) (s : State), Fits (f.1 o) s →
    ∃ t c, exec (f.1 o) s = .next t ∧ SentCmd s t f.2.1 [] (regsAt s o.src f.2.2.1) c ∧
      ResultTo s t c o.port (f.2.2.2 s o)) ∧
  (∀ (o : EOp) (s : State), Fits (.trRes o) s →
    ∃ t c, exec (.trRes o) s = .next t ∧ SentCmd s t 4 (one [o.src]) [s.rd (one [o.src]) o.src] c ∧ CmdTo s t c o.port 8) ∧
  (∀ (o : EOp) (s : State), Fits (.smpTex o) s →
    let m := s.texWords o
    let ops := if 20 ≤ o.src.toNat ∧ o.src.toNat ≤ 23 then headWords s o.src 3 else regsAt s o.src 3
    (s.beatNo = 0 → ¬ (m = 2 ∧ o.port.toNat < 16 ∧ o.port.toNat % 2 = 1)) →
    ∃ t c, exec (.smpTex o) s = .next t ∧
      SentCmd s t 7 (if 20 ≤ o.src.toNat ∧ o.src.toNat ≤ 23 then [(o.src, 3)] else []) ops c ∧
      (if m = 2 ∧ o.port.toNat < 16 then c.dst = .pair o.port.toNat else CmdTo s t c o.port m)) ∧
  (∀ (o : EOp) (s : State), Fits (.rsDraw o) s → (s.beatNo = 0 → (s.core (elemCore s.cur.elem)).drawOpen = false) →
    ∃ u c, exec (.rsDraw o) s = .next (u.updCore (elemCore s.cur.elem) fun x => { x with drawOpen := true }) ∧
      SentCmd s u 5 [] (regsAt s o.src 4) c ∧ c.dst = .none) ∧
  (∀ (o : EOp) (s : State), Fits (.rsFlush o) s → (s.beatNo = 0 → (s.core (elemCore s.cur.elem)).drawOpen = true) →
    ∃ t c, exec (.rsFlush o) s = .next t ∧ SentCmd s t 5 [] [] c ∧ CmdTo s t c o.port 1) ∧
  (∀ (o : EOp) (s : State), Fits (.blPut o) s →
    (s.beatNo = 0 → bitsAt (s.me.reg o.src.toNat) 10 21 = 0 ∧
      s.ticketOpen (elemCluster s.cur.elem) (bitsAt (s.me.reg o.src.toNat) 0 10) = true) →
    ∃ t c, exec (.blPut o) s = .next t ∧ SentCmd s t 6 [] (regsAt s o.src 5) c ∧ c.dst = .none)

/-- R283 to R288, R292: the matrix commands with operands to check: `mx.ld` and `mx.drain` within range, `mx.rule` and
`mx.read` with a valid operand word; `mseq.stop` marks the running sequence. -/
def Obligations.MatrixFiring : Prop :=
  (∀ (o : EOp) (s : State), Fits (.mxLd o) s →
    let scr := o.w && s.curExt.getLsbD 27
    let stride := if o.w then bitsAt s.curExt 0 20 else 1
    (s.beatNo = 0 → RowsFit s scr ((List.range 32).map fun i => (ofPair (matrixBase s o scr) + i * 64 * stride, 64))) →
    ∃ t c, exec (.mxLd o) s = .next t ∧
      SentCmd s t 0 (if scr = true then [(o.src, 1)] else []) (matrixBase s o scr) c ∧ c.dst = .none) ∧
  (∀ (o : EOp) (s : State), Fits (.mxRule o) s →
    let w := s.rd (one [o.src]) o.src
    (s.beatNo = 0 → bitsAt w 8 24 = 0 ∧ bitsAt w 4 3 < 4) →
    ∃ t c, exec (.mxRule o) s = .next t ∧ SentCmd s t 0 (one [o.src]) [w] c ∧ c.dst = .none) ∧
  (∀ (o : EOp) (s : State), Fits (.mxRead o) s →
    let w := s.rd (one [o.src]) o.src
    (s.beatNo = 0 → bitsAt w 11 21 = 0 ∧ ¬ (w.getLsbD 10 = true ∧ o.port.toNat < 16)) →
    ∃ t c, exec (.mxRead o) s = .next t ∧ SentCmd s t 0 (one [o.src]) [w] c ∧
      CmdTo s t c o.port (if w.getLsbD 10 then 32 else 1)) ∧
  (∀ (o : EOp) (s : State), Fits (.mxDrain o) s →
    let scr := s.curExt.getLsbD 13
    (s.beatNo = 0 → RowsFit s scr (drainRows s.curExt (ofPair (matrixBase s o scr)))) →
    ∃ t c, exec (.mxDrain o) s = .next t ∧
      SentCmd s t 0 (if scr = true then [(o.src, 1)] else []) (matrixBase s o scr) c ∧ CmdTo s t c o.port 1) ∧
  (∀ (o : EOp) (s : State), Fits (.mseqStop o) s →
    exec (.mseqStop o) s = .next (s.updCore (elemCore s.cur.elem) fun c =>
      { c with mx := { c.mx with seq := c.mx.seq.map fun q => { q with stop := true } } }))

/-- R298 to R302, R66, R67: the user view holds an element's position, spur, counters, chain, stage, parameters and
mask, and what a read latches; `sys.rd` gives a register's value at once, or sends a request where the controller
supplies it; `sys.wr` writes HMASK in the user view, and a privileged register in a privileged chain; other registers of
the user view do not change.

R203, R75, R303, R304, R305, R335: `nop` changes nothing; `halt` ends its spur's execution and discards the commands in
its queues; `trap`, and an enabled `brk`, note a stop for the end of the step, or stop at once outside a step; an
enabled `step` sets the countdown; a lease is requested and released; `cfg.wr` writes a configuration word. The time
that a lease is given is capped by the model's free value (log 6). -/
def Obligations.SystemRules : Prop :=
  ((∀ (o : SOp) (s : State), Fits (.sysRd o) s → MayName s o.num.toNat →
     (¬ suppliedLate o.num.toNat →
       exec (.sysRd o) s = .next ((s.sysLatch s.cur.elem o.num.toNat).wr o.src (s.sysValue s.cur.elem o.num.toNat))) ∧
     (suppliedLate o.num.toNat →
       ∃ t q, exec (.sysRd o) s = .next t ∧ SentLate s t [] o.src q ∧ q.kind = .control o.num)) ∧
   (∀ (o : SOp) (s : State), Fits (.sysWr o) s → MayName s o.num.toNat →
     let w := s.rd (one [o.src]) o.src
     let u := s.consume (one [o.src])
     (o.num = 0x0E → exec (.sysWr o) s = .next (u.updMe fun e => { e with hmask := w.extractLsb' 0 17 })) ∧
     (o.num.toNat < 0x200 → o.num ≠ 0x0E → exec (.sysWr o) s = .next u) ∧
     (0x200 ≤ o.num.toNat → exec (.sysWr o) s = .next (u.writeReg o.num.toNat w))) ∧
   (∀ (s : State) (k : Nat), UserView s k) ∧
   (∀ (s : State) (n : Nat), (n = 0x212 ∨ n = 0x213 ∨ n = 0x221 ∨ n = 0x222 → s.readReg n = 0) ∧
     s.readReg 0x214 = s.transSeq.extractLsb' 0 32 ∧
     (n ∉ [0x212, 0x213, 0x214, 0x221, 0x222] → s.readReg n = s.preg n))) ∧
  ((∀ (o : EOp) (s : State), Fits (.nop o) s → exec (.nop o) s = .next s) ∧
   (∀ (o : EOp) (s : State) (p : Spur), Fits (.halt o) s → s.mySpur = some p →
     ∃ t, exec (.halt o) s = .next t ∧ t.spurs = (withSpur s p.id halted).spurs ∧ t.elems = s.elems ∧ t.reqs = s.reqs ∧
       t.mem = s.mem ∧ t.walk = s.walk.map (fun (w : Walk) => { w with stop := true }) ∧
       (∀ c, c ∈ p.cores → (t.core c).mx.queue = [] ∧ (t.core c).islandQ = .replicate 4 [] ∧ (t.core c).drawOpen = false) ∧
       (∀ c, c ∉ p.cores → t.core c = s.core c)) ∧
   (∀ (o : EOp) (s : State), Fits (.trap o) s →
     let u := s.consume (one [o.src])
     let addr := (s.rd (one [o.src]) o.src).toNat + o.obj.toNat * 2 ^ 32
     (∀ w, s.walk = some w → exec (.trap o) s = .next { u with
       walk := some { w with stops := w.stops ++ [(0x71, BitVec.ofNat 64 addr, s.cur.slot)] } }) ∧
     (s.walk = none → exec (.trap o) s = .next (u.stopSpur u.cur.elem u.cur.slot u.curHandler u.curWord u.curExt
       u.stepStart 0x71 addr))) ∧
   (∀ (o : EOp) (s : State), Fits (.brk o) s →
     ((s.preg 0x220).getLsbD 0 = false → exec (.brk o) s = .next s) ∧
     ((s.preg 0x220).getLsbD 0 = true → ∀ w, s.walk = some w → exec (.brk o) s = .next { s with
       walk := some { w with stops := w.stops ++ [(0x72, BitVec.ofNat 64 (o.obj.toNat * 2 ^ 32), s.cur.slot)] } }) ∧
     ((s.preg 0x220).getLsbD 0 = true → s.walk = none → exec (.brk o) s = .next (s.stopSpur s.cur.elem s.cur.slot
       s.curHandler s.curWord s.curExt s.stepStart 0x72 (o.obj.toNat * 2 ^ 32)))) ∧
   (∀ (o : EOp) (s : State), Fits (.step o) s →
     let n := s.rd (one [o.src]) o.src
     ((s.preg 0x220).getLsbD 1 = false → exec (.step o) s = .next (s.consume (one [o.src]))) ∧
     ((s.preg 0x220).getLsbD 1 = true → (s.beatNo = 0 → bitsAt n 24 8 = 0) →
       ∃ t, exec (.step o) s = .next t ∧
         (t.elem s.cur.elem).countdown = (if n.extractLsb' 0 24 = 0 then none else some (n.extractLsb' 0 24)) ∧
         t.walk = s.walk.map (fun (w : Walk) => { w with armed := true }))) ∧
   (∀ (o : EOp) (s : State), Fits (.leaseReq o) s →
     let w := s.rd (one [o.src]) o.src
     let cl := elemCluster s.cur.elem
     let us := min (bitsAt w 0 16) (Config.leaseCap s.tick)
     let sends (u : State) (n : Nat) : Prop :=
       ∃ q, SentLate s u [o.src] o.port q ∧ q.value = [BitVec.ofNat 32 n] ∧ q.phase = .answered
     (¬Grantable s cl w → ∃ t, exec (.leaseReq o) s = .next t ∧ sends t 0) ∧
     (Grantable s cl w → us = 0 → ∃ t, exec (.leaseReq o) s = .next t ∧ sends t 0) ∧
     (Grantable s cl w → us ≠ 0 → ∃ t u l, exec (.leaseReq o) s = .next t ∧ sends u us ∧
       t = { u with clusters := t.clusters, regs := t.regs } ∧ (t.cluster cl).lease = some l ∧ l.elem = s.cur.elem ∧
       l.kind = bitsAt w 16 2 ∧ l.code = bitsAt w 18 8 ∧ l.endNs = s.timeNs.toNat + us * 1000 ∧
       bitsAt (t.preg (0x370 + cl)) 16 6 =
         min 40 (max (bitsAt (s.preg (0x370 + cl)) 0 6) (if bitsAt w 16 2 = 1 then bitsAt w 18 8 else 0)) ∧
       OnlyReg s t (0x370 + cl))) ∧
   (∀ (o : EOp) (s : State), Fits (.leaseRel o) s →
     let cl := elemCluster s.cur.elem
     let mine : Prop := ∃ l p, (s.cluster cl).lease = some l ∧ s.spurAt (elemCore s.cur.elem) = some p ∧
       p.covers (elemCore l.elem) = true
     (¬mine → exec (.leaseRel o) s = .next s) ∧
     (mine → ∃ t, exec (.leaseRel o) s = .next t ∧ (t.cluster cl).lease = none ∧ OnlyReg s t (0x370 + cl) ∧
       bitsAt (t.preg (0x370 + cl)) 16 6 = min (bitsAt (s.preg (0x370 + cl)) 24 6) (bitsAt (s.preg (0x370 + cl)) 0 6) ∧
       t.elems = s.elems ∧ t.reqs = s.reqs)) ∧
   (∀ (o : EOp) (s : State), Fits (.cfgWr o) s →
     let x := s.me.reg o.src.toNat
     let v := s.me.reg (o.src.toNat + 1)
     let j := elemCore s.cur.elem * 16 + bitsAt x 0 4
     let i := bitsAt x 8 5
     (s.beatNo = 0 → bitsAt x 13 19 = 0 ∧ x.getLsbD 7 = false ∧ i < [32, 16, 17, 1, 32].getD (bitsAt x 4 3) 0 ∧
       (s.elem j).role = .used) →
     (∀ w, s.walk = some w → w.elem = j →
       exec (.cfgWr o) s = .next { s with walk := some { w with cfg := w.cfg ++ [(x, v)] } }) ∧
     ((∀ w, s.walk = some w → w.elem ≠ j) → ∃ t, exec (.cfgWr o) s = .next t ∧ t = { s with elems := t.elems } ∧
       OthersAsBefore s t j ∧ t.elem j = (s.elem j).configure x v)) ∧
   (∀ (e : Elem) (x v : Word), let i := bitsAt x 8 5
     let f := { e with cfgWritten := true }
     (bitsAt x 4 3 = 0 → e.configure x v = { f with slots := e.slots.setIfInBounds i v }) ∧
     (bitsAt x 4 3 = 1 → e.configure x v =
       { f with guards := e.guards.setIfInBounds i (if i = 15 then v &&& 0xFFFFFFFE else v) }) ∧
     (bitsAt x 4 3 = 2 → e.configure x v = { f with handlers := e.handlers.setIfInBounds i (v.extractLsb' 0 16) }) ∧
     (bitsAt x 4 3 = 3 → e.configure x v = { f with hmask := v.extractLsb' 0 17 }) ∧
     (bitsAt x 4 3 = 4 → e.configure x v = { f with conflict := e.conflict.setIfInBounds i v })))
namespace Sys2Proof.Claims

/-! ## Faults, handlers, steps and decoding -/

/-- The forms whose operand word has must-be-zero bits or a reserved field, found when they would fire. -/
def checksOperandWord : Instr → Bool
  | .colReq _ | .colRel _ | .barArrive _ | .pref _ | .mxRule _ | .mxRead _ | .step _ | .cfgWr _ => true
  | _ => false

/-- A wide rule whose next slot is no extension (R188). -/
def Broken (i : Instr) (s : State) : Prop :=
  i.view.wide = true ∧ (s.cur.slot = 31 ∨ field s.curExt 28 4 ≠ 0xF)

/-- The `n` bytes of a list from offset `at_` as a number, low byte first. -/
def numberAt (bs : List Byte) (at_ n : Nat) : Nat :=
  ((bs.drop at_).take n).foldr (fun b v => b.toNat + 256 * v) 0

/-- The place of an address code in the order of R371: 0x10, 0x13, 0x14, 0x12. -/
def addressRank (c : Nat) : Nat := if c = 0x10 then 0 else if c = 0x13 then 1 else if c = 0x14 then 2 else 3

/-- Among the address faults that the beats 0 to n - 1 of a rule meet, the first code in the order of R371 is `c`, and `j`
is the lowest beat that meets it, at the address `a`. -/
def FirstFault (at_ : Nat → Option (Nat × Nat)) (n j c a : Nat) : Prop :=
  j < n ∧ at_ j = some (c, a) ∧ (∀ b x y, b < n → at_ b = some (x, y) → addressRank c ≤ addressRank x) ∧
  ∀ b y, b < j → at_ b ≠ some (c, y)

/-- The state in which the record of a fault is written: the rule in progress and the walk have stopped. -/
def atFault (s : State) : State :=
  { s.updMe fun e => { e with beat := none } with
    walk := s.walk.map fun (w : Walk) => { w with stop := true, halted := true, todo := [] } }

end Sys2Proof.Claims

/-- R258, R260, R285, R287, R303, R305: a rule whose operand word has a nonzero must-be-0 bit, a reserved field, or
names a col or barrier that is not there raises 0x01 when nothing stands before it.

R276, R294, R295, R287, R298, R140, R253, R402: what a rule finds when it would fire, after the words are in order: a
template that is not armed or busy, a cairn's bad count, a draw that is open or not, an answered ticket 0x40, a register
destination of a row or an odd pair 0x04, a privileged register in a user chain 0x70, an atomic outside global space
0x38, a settled load of step 0 0x32.

R371, R54, R119: a load, store or block transfer some beat of which meets an address fault takes the fault of the first
code in the order 0x10, 0x13, 0x14, 0x12 that some beat meets, at the lowest such beat, and no beat of it is carried
out. -/
def Obligations.RuleFaultsTaken : Prop :=
  (∀ (s : State), s.beatNo = 0 →
     (∀ o : ROp, Fits (.colReq o) s → ¬ ColNamed s (s.rd (one [o.a]) o.a) →
       exec (.colReq o) s = .next (s.takeFault 0x01 0)) ∧
     (∀ o : ROp, Fits (.colRel o) s → ¬ ColNamed s (s.rd (one [o.a]) o.a) →
       exec (.colRel o) s = .next (s.takeFault 0x01 0)) ∧
     (∀ (o : ROp) (p : Spur), Fits (.barArrive o) s → s.mySpur = some p →
       (p.bars.getD (bitsAt (s.rd (one [o.a]) o.a) 0 4) default).need = 0 →
       exec (.barArrive o) s = .next (s.takeFault 0x01 0)) ∧
     (∀ o : EOp, Fits (.mxRule o) s →
       (bitsAt (s.rd (one [o.src]) o.src) 8 24 ≠ 0 ∨ 4 ≤ bitsAt (s.rd (one [o.src]) o.src) 4 3) →
       exec (.mxRule o) s = .next (s.takeFault 0x01 0)) ∧
     (∀ o : EOp, Fits (.mxRead o) s → bitsAt (s.rd (one [o.src]) o.src) 11 21 ≠ 0 →
       exec (.mxRead o) s = .next (s.takeFault 0x01 0)) ∧
     (∀ o : EOp, Fits (.step o) s → (s.preg 0x220).getLsbD 1 = true → bitsAt (s.rd (one [o.src]) o.src) 24 8 ≠ 0 →
       exec (.step o) s = .next (s.takeFault 0x01 0)) ∧
     (∀ o : EOp, Fits (.cfgWr o) s → s.badCfg s.cur.elem (s.me.reg o.src.toNat) = true →
       exec (.cfgWr o) s = .next (s.takeFault 0x01 0))) ∧
  (∀ (s : State), s.beatNo = 0 →
     let core := s.core (elemCore s.cur.elem)
     (∀ o : EOp, Fits (.ctFire o) s → (core.template o.obj.toNat).state = 0 →
       exec (.ctFire o) s = .next (s.takeFault 0x40 0)) ∧
     (∀ o : EOp, Fits (.ctStop o) s → (core.template o.obj.toNat).state = 0 →
       exec (.ctStop o) s = .next (s.takeFault 0x40 0)) ∧
     (∀ o : EOp, Fits (.ctArm o) s → (s.me.pair o.src.toNat).toNat < 2 ^ 55 → (s.me.pair o.src.toNat).toNat % 64 = 0 →
       (core.template o.obj.toNat).busy = true → exec (.ctArm o) s = .next (s.takeFault 0x40 0)) ∧
     (∀ o : EOp, Fits (.ctArm o) s → 2 ^ 55 ≤ (s.me.pair o.src.toNat).toNat →
       exec (.ctArm o) s = .next (s.takeFault 0x10 (s.me.pair o.src.toNat).toNat)) ∧
     (∀ (o : EOp) (k : Nat), Fits (.caSet o) s → k < s.countOf (Instr.caSet o).view →
       let n := (s.rdAt (one [o.src, o.port]) o.src k k).toNat
       let c := s.rdAt (one [o.src, o.port]) o.port k k
       (n = 0 ∨ 2 ^ 17 < n ∨ bitsAt c 5 27 ≠ 0 ∨ s.linked s.cur.elem (bitsAt c 0 2) = true) →
       exec (.caSet o) s = .next (s.takeFault 0x40 0)) ∧
     (∀ o : EOp, Fits (.rsDraw o) s → core.drawOpen = true → exec (.rsDraw o) s = .next (s.takeFault 0x40 0)) ∧
     (∀ o : EOp, Fits (.rsFlush o) s → core.drawOpen = false → exec (.rsFlush o) s = .next (s.takeFault 0x40 0)) ∧
     (∀ o : EOp, Fits (.blPut o) s →
       s.ticketOpen (elemCluster s.cur.elem) (bitsAt (s.me.reg o.src.toNat) 0 10) = false →
       exec (.blPut o) s = .next (s.takeFault 0x40 0)) ∧
     (∀ o : EOp, Fits (.mxRead o) s → bitsAt (s.rd (one [o.src]) o.src) 11 21 = 0 →
       (s.rd (one [o.src]) o.src).getLsbD 10 = true → o.port.toNat < 16 →
       exec (.mxRead o) s = .next (s.takeFault 0x04 0)) ∧
     (∀ o : EOp, Fits (.smpTex o) s → s.texWords o = 2 → o.port.toNat < 16 → o.port.toNat % 2 = 1 →
       exec (.smpTex o) s = .next (s.takeFault 0x04 0)) ∧
     (∀ o : SOp, Fits (.sysRd o) s → 0x200 ≤ o.num.toNat → s.privAt (elemCore s.cur.elem) = false →
       exec (.sysRd o) s = .next (s.takeFault 0x70 0)) ∧
     (∀ o : SOp, Fits (.sysWr o) s → 0x200 ≤ o.num.toNat → s.privAt (elemCore s.cur.elem) = false →
       exec (.sysWr o) s = .next (s.takeFault 0x70 0)) ∧
     (∀ f ∈ atomics, ∀ o : MOp, Fits (f.1 o) s → o.space ≠ 0 →
       let m : MemForm := ⟨o, if wide64 s o then 8 else 4, atomicDemand o (wide64 s o)⟩
       Reaches s m (s.countOf (f.1 o).view) none → exec (f.1 o) s = .next (s.takeFault 0x38 (s.ea m 0 0))) ∧
     (∀ o : MOp, Fits (.orcLds o) s → o.space = 0 →
       let m : MemForm := ⟨o, if wide64 s o then 8 else 4, memDemand o []⟩
       Reaches s m 1 none → (s.me.reg o.data.toNat).extractLsb' 0 24 = 0 →
       exec (.orcLds o) s = .next (s.takeFault 0x32 (s.ea m 0 0)))) ∧
  (∀ (s : State), s.beatNo = 0 →
     (∀ f ∈ loads, ∀ (o : MOp) (k : BitVec 2) (j c a : Nat), Fits (f.1 o k) s →
       FirstFault (fun b => s.addrFault o.space (s.ea ⟨o, 2 ^ k.toNat, memDemand o []⟩ b b) (2 ^ k.toNat) (some true))
         (s.countOf (f.1 o k).view) j c a →
       exec (f.1 o k) s = .next (s.takeFault c a)) ∧
     (∀ (o : MOp) (k : BitVec 2) (j c a : Nat), Fits (.st o k) s →
       FirstFault (fun b => s.addrFault o.space
           (s.ea ⟨o, 2 ^ k.toNat, memDemand o (if k = 3 then [] else [(o.data, 1)])⟩ b b) (2 ^ k.toNat) (some false))
         (s.countOf (Instr.st o k).view) j c a →
       exec (.st o k) s = .next (s.takeFault c a)) ∧
     (∀ (o : MOp) (j c a : Nat), Fits (.ldblk o) s →
       FirstFault (fun b => s.addrFault o.space (s.ea ⟨o, 64, memDemand o []⟩ b b) 64 none)
         (s.countOf (Instr.ldblk o).view) j c a →
       exec (.ldblk o) s = .next (s.takeFault c a)) ∧
     (∀ (o : MOp) (j c a : Nat), Fits (.stblk o) s →
       FirstFault (fun b => s.addrFault o.space (s.ea ⟨o, 64, memDemand o [(o.data, 16)]⟩ b b) 64 none)
         (s.countOf (Instr.stblk o).view) j c a →
       exec (.stblk o) s = .next (s.takeFault c a)) ∧
     (∀ (o : MOp) (c a : Nat), Fits (.pref o) s → o.scope = 0 → o.space = 0 → s.countOf (Instr.pref o).view = 1 →
       s.addrFault o.space (s.ea ⟨o, 1, memDemand o []⟩ 0 0) 1 none = some (c, a) →
       exec (.pref o) s = .next (s.takeFault c a)))

/-- R357: the 64 bytes of a fault record hold their fields at the offsets of its table. -/
def Obligations.FaultRecordLayout : Prop :=
  ∀ (s : State) (c : Chain) (f : FaultInfo),
    let r := s.recordBytes c f
    r.length = 64 ∧ numberAt r 0x00 1 = f.code % 256 ∧ numberAt r 0x01 1 = f.sub % 256 ∧
    (numberAt r 0x02 1).testBit 0 = f.late ∧ (numberAt r 0x02 1).testBit 1 = f.final ∧
    (numberAt r 0x02 1).testBit 2 = f.snapshot ∧
    numberAt r 0x03 1 = s.opPoint (elemCluster f.elem) % 256 ∧ numberAt r 0x04 4 = (s.coordWord f.elem).toNat ∧
    numberAt r 0x08 8 = numberAt c.record 0x08 8 ∧
    numberAt r 0x10 8 = f.step.toNat ∧ numberAt r 0x18 8 = f.addr % 2 ^ 64 ∧
    numberAt r 0x20 1 = f.slot % 256 ∧ numberAt r 0x21 1 = f.handler % 256 ∧ numberAt r 0x22 2 = f.stage % 2 ^ 16 ∧
    numberAt r 0x24 4 = f.word.toNat ∧ numberAt r 0x28 4 = f.ext.toNat ∧ numberAt r 0x2C 2 = f.following % 2 ^ 16 ∧
    numberAt r 0x2E 2 = f.spur % 2 ^ 16 ∧ numberAt r 0x30 8 = s.timeNs.toNat ∧ numberAt r 0x38 8 = 0

/-- R357, R359, R372: a fault writes one record behind those of its chain, with its code, its address, the coordinates,
the words of the rule and the step; the chain is held; the rule in progress and the walk end, and the element is
otherwise as before: no register, channel or output changes.

R358: a fault that finds no free record ends its chain with status 2. A fault of the system chain, which has no fault
area, holds that chain without a record: the model's choice (log 51). -/
def Obligations.FaultsWriteRecords : Prop :=
  (∀ (s : State) (code addr : Nat) (p : Spur) (c : Chain), s.spurAt (elemCore s.cur.elem) = some p →
     s.chain? p.chain = some c → c.system = false → s.recordFree c c.faults = true →
     let t := s.takeFault code addr
     t.elem s.cur.elem = { s.me with beat := none } ∧ OthersAsBefore s t s.cur.elem ∧ t.links = s.links ∧
     t.reqs = s.reqs ∧ t.walk = (atFault s).walk ∧
     (∃ d, t.chain? p.chain = some d ∧ d.faults = c.faults + 1 ∧ d.phase = (if c.phase = .started then .held else c.phase) ∧
        d.stopped = some s.cur.elem) ∧
     ∃ f : FaultInfo, f.code = code ∧ f.addr = addr ∧ f.elem = s.cur.elem ∧ f.slot = s.cur.slot ∧ f.handler = s.curHandler ∧
       f.word = s.curWord ∧ f.ext = (if fieldW s.curWord then s.curExt else 0) ∧ f.step = s.stepStart ∧
       f.stage = p.stage ∧ f.spur = p.index ∧ f.late = false ∧ f.final = false ∧
       t.mem = ((atFault s).writeVirt c.root (needWrite c) (c.faultArea + 64 * c.faults) (s.recordBytes c f)).mem) ∧
  (∀ (s : State) (ident : Nat) (c : Chain) (f : FaultInfo), s.chain? ident = some c →
     (c.system = false → s.recordFree c c.faults = false → s.raise ident f = s.endChain ident 2 0) ∧
     (c.system = true → s.raise ident f = s.hold ident))
/-- R360: a late fault takes its request, and the accesses of its rule behind it, out of the requests and keeps them as
one replay entry of its chain with its code; what the element did since stays done. -/
def Obligations.LateFaultKeepsReplays : Prop :=
  ∀ (s : State) (r : Req) (code addr : Nat) (p : Spur) (c : Chain), s.spurAt (elemCore r.elem) = some p →
    s.chain? p.chain = some c → c.system = false → s.recordFree c c.faults = true →
    let all := r :: s.restOfRule r
    let t := s.lateFault r code addr
    t.elems = s.elems ∧ t.links = s.links ∧
    t.reqs = s.reqs.filter (fun q => !(all.any fun x => decide (x.id = q.id))) ∧
    ∃ d, t.chain? p.chain = some d ∧ d.faults = c.faults + 1 ∧
      d.replays = c.replays ++ [⟨BitVec.ofNat 8 code, { r with phase := .faulted },
        (s.restOfRule r).map fun q => { q with phase := .faulted }⟩]

/-- R359, R361, R42, R56: an element whose chain is not started, or is held, frozen or stopped by a debugger, starts no
walk, unless it takes its step of the moment at which an element before it froze the ridge (log 45); its state is as
before but for the window of its step.

R41, R43, R45, R267: a channel handler is runnable when a word stands at the head of its channel with its tag, its entry
is valid and not masked, and no template takes the word. A raised runnable handler is chosen first, in the order of
raising; else the highest priority wins, ties by the lower index; the chosen handler's counter is cleared and the other
runnable ones' rise to at most 64; with no handler to choose, the idle handler is. The order of handlers raised at once
is the model's reading (log 29). -/
def Obligations.HandlersSelected : Prop :=
  (∀ (s : State) (k : Nat) (p : Spur) (c : Chain), s.spurAt (elemCore k) = some p → s.chain? p.chain = some c →
     (c.phase ≠ .started ∨ c.debugHold = true ∨ c.frozen = true) → (s.elem k).beat = none → s.sameStep k = false →
     s.startStep k = s.updElem k fun e => { e with window := e.window + 1 }) ∧
  (∀ (s : State) (k : Nat),
     let e := s.elem k
     let t := s.pickHandler k
     (∀ h, h ∈ s.runnable k ↔ ∃ ch w ws, ch < 4 ∧ e.chan ch = w :: ws ∧ h = 4 * ch + w.tag.toNat ∧
       (e.entry h).getLsbD 15 = true ∧ e.hmask.getLsbD h = false ∧ s.templateWord k ch w.tag = false) ∧
     (∀ h, e.raised.find? ((s.runnable k).contains ·) = some h →
       t.active = some ⟨h, (entryRange (e.entry h)).1, (entryRange (e.entry h)).2⟩) ∧
     (e.raised.find? ((s.runnable k).contains ·) = none → ∀ h ∈ s.runnable k,
       (∀ j ∈ s.runnable k, e.entryPrio j < e.entryPrio h ∨ (e.entryPrio j = e.entryPrio h ∧ h ≤ j)) →
       t.active = some ⟨h, (entryRange (e.entry h)).1, (entryRange (e.entry h)).2⟩ ∧ t.passes.getD h 0 = 0 ∧
       ∀ j ∈ s.runnable k, j ≠ h → t.passes.getD j 0 = max (e.passes.getD j 0) (min 64 (e.passes.getD j 0 + 1))) ∧
     (s.runnable k = [] → t.active = if e.idleRunnable then
       some ⟨16, (entryRange (e.entry 16)).1, (entryRange (e.entry 16)).2⟩ else e.active))
/-- R49, R50, R51: the next rule that fires is the first ready one of the rest of the range whose class is free, which
conflicts with none that fired and is not multi-beat after one fired; every ready rule that is passed over has its owed
bit set, and no other bit changes. -/
def Obligations.WalkSelectsRules : Prop :=
  ∀ (s : State) (w : Walk) (todo : List Nat) (o : BitVec 32),
    let e := s.elem w.elem
    let may (i : Nat) : Prop := w.stop = false ∧ (w.single = true ∨
      ((∀ u, e.classOf i = some u → u ∉ w.used) ∧
       (∀ j ∈ w.fired, i ≠ j → (e.conflict.getD i 0).getLsbD j = false ∧ (e.conflict.getD j 0).getLsbD i = false) ∧
       (e.multi i = true → w.fired = [])))
    let passed (pre : List Nat) (v : BitVec 32) : Prop := ∀ b, b < 32 →
      v.getLsbD b = (o.getLsbD b || (pre.any fun j => decide (j = b) && s.ready w.elem j))
    (∀ v i rest, s.search w todo o = (v, some (i, rest)) →
      ∃ pre, todo = pre ++ i :: rest ∧ s.ready w.elem i = true ∧ may i ∧
        (∀ j ∈ pre, s.ready w.elem j = true → ¬ may j) ∧ passed pre v) ∧
    (∀ v, s.search w todo o = (v, none) → (∀ j ∈ todo, s.ready w.elem j = true → ¬ may j) ∧ passed todo v)

/-- R32, R44, R50 to R53, R56: one step of the model runs exactly what stands next: the rule that the walk finds, by the
instruction that its slot's word decodes to, after which the walk notes it; the next beat of a rule in progress by its
own word; and where no firing step is in progress, the next happening, those on the agenda first. A rule that has fired
owes nothing more, uses up its class, and with its E bit stops the walk and closes the handler. A walk that finds no
rule ends: a closed handler and its owed bits go, the step counts when a rule fired, the countdown falls, configuration
writes of the element to itself take effect, and the stops of its rules are reported. Which happening is next and how
much time passes are the model's free values (DESIGN CHOICE, log 5). -/
def Obligations.StepRunsDecodedInstruction : Prop :=
  (∀ (s : State) (w : Walk) (v : BitVec 32) (n : Nat) (rest : List Nat) (i : Instr), s.walk = some w →
    let u := { s with tick := s.tick + 1 }
    let t := u.updElem w.elem fun e => { e with owed := v }
    (s.spurAt (elemCore w.elem)).isSome = true → ((s.elem w.elem).beat = none ∨ w.stop = true) →
    u.search w w.todo (s.elem w.elem).owed = (v, some (n, rest)) → decodeWord ((s.elem w.elem).slot n) = .ok i →
    step s = thenDo (·.noteFired n) (exec i (t.aimAt w n rest))) ∧
  (∀ (s : State) (w : Walk) (b : Beat) (i : Instr), s.walk = some w →
    (s.spurAt (elemCore w.elem)).isSome = true → (s.elem w.elem).beat = some b → w.stop = false → b.spent = false →
    decodeWord b.word = .ok i →
    step s = thenDo State.noteBeat (exec i { s with tick := s.tick + 1, cur := ⟨w.elem, b.slot⟩ })) ∧
  (∀ (s : State) (i : Instr) (p : Pick) (rest : List (Instr × Pick)), s.walk = none → s.agenda = (i, p) :: rest →
    i.isRule = false →
    step s = exec i { s with agenda := rest, pick := p, tick := s.tick + 1, timeNs := s.timeNs + Config.elapsed s.tick }) ∧
  (∀ (s : State), s.walk = none → s.agenda = [] → (Config.nextHappening s.tick).1.isRule = false →
    step s = exec (Config.nextHappening s.tick).1 { s with
      pick := (Config.nextHappening s.tick).2, tick := s.tick + 1, timeNs := s.timeNs + Config.elapsed s.tick }) ∧
  (∀ (s : State) (w : Walk) (i : Nat), s.walk = some w → (s.spurAt (elemCore w.elem)).isSome = true → w.halted = false →
    (s.elem w.elem).beat = none → (∀ v, splitWord s.curWord = some v → v.isF64 = false) →
    let ends := s.curWord.getLsbD 27
    ∃ t, s.noteFired i = t ∧ OthersAsBefore s t w.elem ∧ t.mem = s.mem ∧
      t.elem w.elem = { s.elem w.elem with owed := (s.elem w.elem).owed &&& ~~~(1#32 <<< i) } ∧
      t.walk = some { w with
        used := w.used ++ (cellClass (bitsAt s.curWord 20 6)).toList
        fired := w.fired ++ [i]
        counts := true
        stop := w.stop || ends
        closing := w.closing || ends }) ∧
  (∀ (s : State) (w : Walk) (o : BitVec 32), s.walk = some w → (s.spurAt (elemCore w.elem)).isSome = true →
    ((s.elem w.elem).beat = none ∨ w.stop = true) →
    let u := { s with tick := s.tick + 1 }
    u.search w w.todo (s.elem w.elem).owed = (o, none) →
    let e := s.elem w.elem
    let counted := w.counts && !w.armed
    let expires : Prop := counted = true ∧ ∃ c, e.countdown = some c ∧ c.toNat ≤ 1
    let f := { e with
      active := if w.closing then none else e.active
      owed := if w.closing then 0 else o
      steps := if w.counts then e.steps + 1 else e.steps
      countdown := e.countdown.map fun c => if counted then (if c.toNat ≤ 1 then 0 else c - 1) else c }
    ∃ t, step s = .next (w.stops.foldl (fun t x => t.stopSpur w.elem x.2.2 w.handler (e.slot x.2.2)
        (e.extOf x.2.2) w.startSteps x.1.toNat x.2.1.toNat) t) ∧
      t = { u with walk := none, elems := t.elems, agenda := t.agenda } ∧ OthersAsBefore s t w.elem ∧
      t.elem w.elem = w.cfg.foldl (fun e c => e.configure c.1 c.2) f ∧
      (expires → t.agenda = (.stepCountdownExpiry, { (default : Pick) with a := w.elem }) :: s.agenda) ∧
      (¬expires → t.agenda = s.agenda))

/-- R371, R33, R188, R193, R48, R374: for every rule form, before beat 0 commits, the first of these faults that stands
is taken: a broken pair 0x03, a form that the element has not 0x01, a reserved count 0x02, a reserved sub-field 0x01,
and a code that its field cannot take 0x04, which a fault in an operand word may precede. What a rule with a reserved
field waits for is the model's reading (log 44).

R204, R370, R374: a word of a reserved cell or form is no instruction; where its rule would fire it raises 0x01, or 0x03
where it is wide and its next slot is no extension. -/
def Obligations.WordFaultsTaken : Prop :=
  (∀ (i : Instr) (s : State), i.isRule = true → s.beatNo = 0 →
     let there := elemHas i.view.cellNo (elemIdx s.cur.elem)
     let count := badCount (s.me.guard i.view.guardNo)
     let subs := i.view.subOk s.curExt (decide (s.countOf i.view = 1))
     (Broken i s → exec i s = .next (s.takeFault 0x03 0)) ∧
     (¬ Broken i s → there = false → exec i s = .next (s.takeFault 0x01 0)) ∧
     (¬ Broken i s → there = true → count = true → exec i s = .next (s.takeFault 0x02 0)) ∧
     (¬ Broken i s → there = true → count = false → subs = false → exec i s = .next (s.takeFault 0x01 0)) ∧
     (¬ Broken i s → there = true → count = false → subs = true → i.view.codesOk s.curExt = false →
       exec i s = .next (s.takeFault 0x04 0) ∨
       (checksOperandWord i = true ∧ exec i s = .next (s.takeFault 0x01 0)))) ∧
  (∀ (word : Word) (s : State) (d : DecodeError), decodeWord word = .error d →
     fireWord exec word s = .next (s.takeFault
       (if fieldW word = true ∧ (s.cur.slot = 31 ∨ field s.curExt 28 4 ≠ 0xF) then 0x03 else 0x01) 0))
/-- R185, R186, R199 to R203: words of the spec's own worked encodings decode to the rules that they stand for. -/
def Obligations.DecodedWords : Prop :=
  decodeWord 0x08008680 = .ok (.add ⟨0, true, false, 1, 1, 20⟩) ∧
  decodeWord 0x220A8720 = .ok (.mov ⟨2, false, false, 21, 1, 25⟩) ∧
  decodeWord 0x3682910A = .ok (.ld ⟨3, false, true, 5, 4, 0, 2, 2⟩ 2) ∧
  decodeWord 0x48468362 = .ok (.cmpLtI32 ⟨4, true, false, 3, 2, 1, 22⟩) ∧
  decodeWord 0x2AC3200C = .ok (.amoAdd ⟨2, true, false, 6, 8, 0, 3, 0⟩) ∧
  decodeWord 0x13816450 = .ok (.ctArm ⟨1, false, false, 2, 25, 5⟩) ∧
  decodeWord 0x0390E401 = .ok (.mxRule ⟨0, false, false, 1, 25, 0⟩) ∧
  decodeWord 0x10F32000 = .ok (.li ⟨1, false, false, 6, 8, 0⟩)

/-- R185, R186, R199 to R203: every rule form, with every operand at every value of its field, is read back from the one
word that encodes it.

R185, R186, R204: every word that decodes is the word that encodes its rule, so that no bit of it is dropped. -/
def Obligations.DecodeAndEncodeAgree : Prop :=
  (∀ i : Instr, i.isRule = true → ∃ w, encode i = [w] ∧ decodeWord w = .ok i) ∧
  (∀ (w : Word) (i : Instr), decodeWord w = .ok i → i.isRule = true ∧ encode i = [w])
/-- R13, R301, R336, R386: after reset no memory byte is listed, no work is in the device, and the registers of the
privileged view read as their reset columns say, where these state a value. That nothing is in the registers of elements
and cores, that memory and scratchpads are empty, and DEV_STATUS are the model's (logs 1, 2, 4 and 14). -/
def Obligations.ResetValues : Prop :=
  State.reset.mem = [] ∧ State.reset.scratch = [] ∧ State.reset.chains = [] ∧ State.reset.spurs = [] ∧
  State.reset.reqs = [] ∧ State.reset.transSeq = 0 ∧
  (∀ n ∈ [0x210, 0x211, 0x212, 0x213, 0x214, 0x215, 0x220, 0x221, 0x222, 0x230, 0x231, 0x232, 0x233, 0x234, 0x235, 0x236,
      0x237, 0x294, 0x296, 0x297, 0x298, 0x299, 0x29A, 0x2A0, 0x2A1, 0x2A2, 0x2A3, 0x2A4, 0x3D4, 0x3D5, 0x3D6, 0x3D7, 0x3D8,
      0x3E0, 0x3E1, 0x3E2, 0x3E3, 0x3E4, 0x3E5, 0x3E6, 0x3F0,
      0x3F1, 0x3F2, 0x3F3], State.reset.readReg n = 0) ∧
  (∀ n, 0x288 ≤ n → n ≤ 0x28F → State.reset.readReg n = 0) ∧
  (∀ n, 0x2B0 ≤ n → n ≤ 0x2DF → State.reset.readReg n = 0) ∧
  (∀ n, 0x2E0 ≤ n → n ≤ 0x2EF → State.reset.readReg n = 4) ∧
  (∀ n, 0x2F0 ≤ n → n ≤ 0x36F → State.reset.readReg n = 0) ∧
  (∀ n, 0x370 ≤ n → n ≤ 0x3CF → State.reset.readReg n = 0x28191919) ∧
  State.reset.readReg 0x290 = 0x00010000 ∧ State.reset.readReg 0x291 = 1 ∧ State.reset.readReg 0x292 = 1 ∧
  State.reset.readReg 0x293 = 0x0101 ∧ State.reset.readReg 0x3D0 = 95 ∧ State.reset.readReg 0x3D2 = 25 ∧
  State.reset.readReg 0x3D3 = 4095 ∧
  (State.reset.readReg 0x200).extractLsb' 0 16 = 0x0840 ∧ (State.reset.readReg 0x200).extractLsb' 24 8 = 0

/-- The invariant of `StepKeepsMemoryForm` holds at reset; the canonical form is the model's own (log 2). -/
def Obligations.MemoryFormAtReset : Prop := MemoryInv State.reset

/-- Every step keeps the canonical form of both memories: addresses rise strictly and no entry equals what an unlisted
address reads as, so that equal memories are equal data. The form is the model's own (log 2). -/
def Obligations.StepKeepsMemoryForm : Prop :=
  ∀ s t : State, MemoryInv s → step s = .next t → MemoryInv t

/-- R210: a rule of the element's own cells, from integer to function, changes neither memory nor work nor another
element, and nothing of its element's configuration or handlers. -/
def Obligations.ComputeRulesFrame : Prop :=
  ∀ (i : Instr) (s : State), i.isRule = true → i.view.cellNo ≤ 0x21 → Fits i s →
    ∃ t, exec i s = .next t ∧
      t = { s with elems := t.elems, links := t.links, reqs := t.reqs, nextId := t.nextId } ∧
      OthersAsBefore s t s.cur.elem ∧
      let e := s.me
      let f := t.elem s.cur.elem
      f.slots = e.slots ∧ f.guards = e.guards ∧ f.conflict = e.conflict ∧ f.handlers = e.handlers ∧ f.hmask = e.hmask ∧
      f.active = e.active ∧ f.passes = e.passes ∧ f.raised = e.raised ∧ f.owed = e.owed ∧ f.join = e.join ∧
      f.steps = e.steps ∧ f.countdown = e.countdown ∧ f.role = e.role

namespace Sys2Proof.Claims

/-! ## Happenings on links and in memory -/

/-- The links with the one of identifier `id` changed. -/
def linksWith (s : State) (id : Nat) (f : Link → Link) : List Link := s.links.map fun l => if l.id = id then f l else l

/-- The requests with the one of identifier `id` changed. -/
def reqsWith (s : State) (id : Nat) (f : Req → Req) : List Req := s.reqs.map fun r => if r.id = id then f r else r

/-- The requests without the one of identifier `id`. -/
def reqsWithout (s : State) (id : Nat) : List Req := s.reqs.filter fun r => decide (r.id ≠ id)

/-- The request that a happening concerns. -/
def Concerns (s : State) (r : Req) : Prop := s.req? s.pick.a = some r

/-- Bytes from an address upward hold a list of bytes, and every other byte reads as before. -/
def Stored (m n : Memory) (a : Nat) (bs : List Byte) : Prop :=
  ∀ x, n.read x = if a ≤ x ∧ x < a + bs.length then bs.getD (x - a) 0 else m.read x

/-- The first bytes of words, low byte first. -/
def firstBytes (ws : List Word) (n : Nat) : List Byte :=
  (List.range n).map fun i => (ws.getD (i / 4) 0).extractLsb' (8 * (i % 4)) 8

/-- The words of a list of bytes, low byte first; the last word is filled up with zeros. -/
def asWords (bs : List Byte) : List Word :=
  (List.range ((bs.length + 3) / 4)).map fun i => BitVec.ofNat 32 (numberAt bs (4 * i) 4)

/-- A signed number of 32 or 64 bits. -/
def signedAt (w64 : Bool) (x : Nat) : Int :=
  let m := if w64 then 2 ^ 64 else 2 ^ 32
  if 2 * x < m then x else (x : Int) - m

/-- The new value of an atomic's word from the old value x and an operand v (R251). -/
def atomicResult (op : AmoOp) (w64 : Bool) (x v : Nat) : Nat :=
  let m := if w64 then 2 ^ 64 else 2 ^ 32
  let f := if w64 then fp64 else fp32
  match op with
  | .add => (x + v) % m
  | .sub => (x + (m - v)) % m
  | .min => if signedAt w64 x ≤ signedAt w64 v then x else v
  | .max => if signedAt w64 v ≤ signedAt w64 x then x else v
  | .and => x &&& v
  | .or => x ||| v
  | .xor => x ^^^ v
  | .swap => v
  | .inc => (x + 1) % m
  | .fmin => f.min x v
  | .fmax => f.max x v
  | .fadd => f.add x v
  | .vmin64 => min x v
  | .cas => x

/-- A request that bears neither release nor acquire nor the ordered bit. -/
def Plain (r : Req) : Prop := r.rel = false ∧ r.acq = false ∧ r.ordered = false

/-- The L2 slice of every line that `n` bytes from a key touch holds that line for the cluster already, or has room for one
more of it (R21, R127). -/
def HasRoom (s : State) (cl k n : Nat) : Prop :=
  ∀ l ∈ (touchedSectors k n).map (· / 4), l ∈ s.heldLines cl l ∨ (s.heldLines cl l).length < 2048

/-- No bit error comes with the read of a happening (log 48). -/
abbrev NoReadError (s : State) : Prop := s.pick.c ≠ 1 ∧ s.pick.c ≠ 2

/-- No bit error comes with what an engine, an island or a copy firing reads in a happening (log 48). -/
abbrev NoStorageError (s : State) : Prop := s.pick.words.getD 0 0 ≠ 1 ∧ s.pick.words.getD 0 0 ≠ 2

/-- No access of the rule of a request waits as a replay entry (R360). -/
abbrev NotReplayed (s : State) (r : Req) : Prop := ∀ q ∈ s.replayed, q.elem = r.elem → q.group ≠ r.group

/-- No byte is pinned, bound to an order-repairing cell or poisoned. -/
def Unmarked (s : State) : Prop :=
  s.pins = [] ∧ s.cells = [] ∧ s.poison = [] ∧ s.copyPoison = [] ∧ s.scratchPoison = []

end Sys2Proof.Claims

/-- R57 to R59, R61, R223, R236, R90: a word moves along a link to its receiver's channel when that has room, with the
window of its arrival; a freed slot is counted at the sender; a carry word moves into its successor's empty `ci`. That
words for a region that has gone on are discarded as orphans is the model's reading (log 19).

R36, R37, R239, R280, R360: a late result of one word is written to its register, and one of two words to its register
pair; these are pending no longer unless another result of them, one of a beat still to fire or one that waits as a
replay entry is owed. A result for an output fills its reserved slots in order, from which its words enter the link,
unless a reserved slot of another result stands before them. Its request goes. -/
def Obligations.LinksAndLateResults : Prop :=
  ((∀ (s : State) (l : Link) (w : ChanWord) (ws : List ChanWord) (k ch : Nat), s.link? s.pick.a = some l → s.pick.b = 0 →
     l.pass = [] → l.wire = w :: ws → l.receiver = .elemIn k ch → ch < 4 → s.orphaned l = false →
     (s.spurAt (elemCore k)).isSome = true → (s.spur? l.spur).isSome = true → ((s.elem k).chan ch).length < 16 →
     ∃ t, exec .linkWordMove s = .next t ∧ t = { s with elems := t.elems, links := t.links } ∧
       t.links = linksWith s l.id (fun l => { l with wire := l.wire.drop 1 }) ∧ OthersAsBefore s t k ∧
       (t.elem k).chan ch = (s.elem k).chan ch ++ [{ w with stamp := (s.elem k).window }] ∧
       (∀ j, j ≠ ch → (t.elem k).chan j = (s.elem k).chan j) ∧ RestOfElemAsBefore (s.elem k) (t.elem k) ∧
       RegsAsBeforeBut (s.elem k) (t.elem k) []) ∧
   (∀ (s : State) (l : Link) (f : PassFifo) (fs : List PassFifo) (w : ChanWord) (ws : List ChanWord),
     s.link? s.pick.a = some l → s.pick.b = 0 → l.pass = f :: fs → l.wire = w :: ws → f.words.length < 16 →
     (s.spur? l.spur).isSome = true →
     ∃ t, exec .linkWordMove s = .next t ∧ t.elems = s.elems ∧
       t.links = linksWith s l.id (fun l => { l with
         wire := l.wire.drop 1
         pass := l.pass.modify 0 fun p => { p with words := p.words ++ [w] } })) ∧
   (∀ (s : State) (l : Link) (k ch : Nat), s.link? s.pick.a = some l → l.freed ≠ 0 → l.sender = .elemOut k ch → ch < 4 →
     ∃ t, exec .slotCountReturn s = .next t ∧ t = { s with elems := t.elems, links := t.links } ∧
       t.links = linksWith s l.id (fun l => { l with freed := l.freed - 1 }) ∧ OthersAsBefore s t k ∧
       ((t.elem k).outCh ch).count = ((s.elem k).outCh ch).count + 1 ∧
       RestOfElemAsBefore (s.elem k) (t.elem k) ∧ RegsAsBeforeBut (s.elem k) (t.elem k) []) ∧
   (∀ (s : State) (j : Nat) (v : Carry), s.coTarget s.pick.a = some j → (s.elem s.pick.a).co = some v →
     (s.elem j).ci = none →
     ∃ t, exec .carryTransfer s = .next t ∧ t = { s with elems := t.elems } ∧ (t.elem s.pick.a).co = none ∧
       (t.elem j).ci = some v ∧ ∀ i, i ≠ s.pick.a → i ≠ j → t.elem i = s.elem i)) ∧
  ((∀ (s : State) (r : Req) (n : Nat) (w : Word), Concerns s r → r.dst = .reg n → n < 16 → r.phase ≠ .landed →
     s.answer? r = some [w] → s.pick.c ≠ 3 →
     ∃ t, exec .delayedResultArrival s = .next t ∧ t = { s with elems := t.elems, reqs := t.reqs } ∧
       t.reqs = reqsWithout s r.id ∧ OthersAsBefore s t r.elem ∧ (t.elem r.elem).reg n = w ∧
       (t.elem r.elem).isPending n = (s.owesReg r.elem r.dst r.id || s.owesBeats r.elem r.id) ∧
       RegsAsBeforeBut (s.elem r.elem) (t.elem r.elem) [n] ∧ RestOfElemAsBefore (s.elem r.elem) (t.elem r.elem)) ∧
   (∀ (s : State) (r : Req) (n : Nat) (w w' : Word), Concerns s r → r.dst = .pair n → n + 1 < 16 → r.phase ≠ .landed →
     s.answer? r = some [w, w'] → s.pick.c ≠ 3 →
     ∃ t, exec .delayedResultArrival s = .next t ∧ t = { s with elems := t.elems, reqs := t.reqs } ∧
       t.reqs = reqsWithout s r.id ∧ OthersAsBefore s t r.elem ∧ (t.elem r.elem).reg n = w ∧ (t.elem r.elem).reg (n + 1) = w' ∧
       (∀ j, j = n ∨ j = n + 1 →
         (t.elem r.elem).isPending j = (s.owesReg r.elem r.dst r.id || s.owesBeats r.elem r.id)) ∧
       RegsAsBeforeBut (s.elem r.elem) (t.elem r.elem) [n, n + 1] ∧ RestOfElemAsBefore (s.elem r.elem) (t.elem r.elem)) ∧
   (∀ (s : State) (r : Req) (ch : Nat) (hs : List Nat) (ws : List Word) (tags : List Tag) (l : Nat), Concerns s r →
     r.dst = .out ch hs → ch < 4 → r.phase ≠ .landed → s.answer? r = some ws → s.pick.c ≠ 3 → hs.Nodup →
     ws.length = hs.length → tags.length = hs.length →
     ((s.elem r.elem).outCh ch).stage = (hs.zip tags).map (fun x => .hole x.1 x.2) →
     ((s.elem r.elem).outCh ch).link = some l →
     ∃ t, exec .delayedResultArrival s = .next t ∧ ((t.elem r.elem).outCh ch).stage = [] ∧
       ((t.elem r.elem).outCh ch).count = ((s.elem r.elem).outCh ch).count ∧
       t.links = linksWith s l (fun l => { l with wire := l.wire ++ (ws.zip tags).map fun x => ⟨x.1, x.2, 0⟩ }) ∧
       t.reqs = reqsWithout s r.id) ∧
   (∀ (s : State) (r : Req) (ch g hole : Nat) (w : Word) (gt tag : Tag), Concerns s r → r.dst = .out ch [hole] → ch < 4 →
     r.phase ≠ .landed → s.answer? r = some [w] → s.pick.c ≠ 3 → g ≠ hole →
     ((s.elem r.elem).outCh ch).stage = [.hole g gt, .hole hole tag] →
     ∃ t, exec .delayedResultArrival s = .next t ∧ ((t.elem r.elem).outCh ch).stage = [.hole g gt, .word w tag] ∧
       t.links = s.links ∧ t.reqs = reqsWithout s r.id))
/-- R299, R302, R386, R318: reads that latch: the low word is returned and the high word stands in its own register; the
host's reads of memory return the bytes at the home. -/
def Obligations.LatchingReads : Prop :=
  (∀ (s : State) (r : Req), Concerns s r → r.kind = .control 6 → r.phase = .sent →
    ∃ t, exec .timeLoRead s = .next t ∧ (t.elem r.elem).timeHi = s.timeNs.extractLsb' 32 32 ∧
      t.reqs = reqsWith s r.id (fun q => { q with phase := .answered, value := [s.timeNs.extractLsb' 0 32] })) ∧
  (∀ s : State, s.pick.flag = true →
    ∃ t, exec .transSeqLoRead s = .next t ∧ t.outside = s.outside ++ [.register (s.transSeq.extractLsb' 0 32)] ∧
      t.readReg 0x215 = s.transSeq.extractLsb' 32 32) ∧
  (∀ s : State, ∃ t, exec .stepLoRead s = .next t ∧
      t.outside = s.outside ++ [.register ((s.elem s.pick.a).steps.extractLsb' 0 32)] ∧
      (t.elem s.pick.a).stepHi = (s.elem s.pick.a).steps.extractLsb' 32 32) ∧
  (∀ s : State, ∃ t, exec .eccLastLoRead s = .next t ∧ t.outside = s.outside ++ [.register (s.preg 0x232)] ∧
      t.readReg 0x233 = s.preg 0x432) ∧
  (∀ s : State, s.pick.a + s.pick.b ≤ 640 * 2 ^ 30 → s.cells = [] →
    exec .hostMemRead s = .next { s with
      outside := s.outside ++ [.bytes ((List.range s.pick.b).map fun i => s.mem.read (s.pick.a + i))] })

/-- R121, R122, R123: what a leaf entry gives an access: 0x11 where a permission is missing, or its memory kind or
policy is reserved; else the page's place with the address's bits within the page, or 0x10 beyond the memory of 640 GiB.
In peer memory the top bits of the address name the package, whose memory is the device's own where that is this package
(log 35).

R122, R124, R140, R253, R381, R382, R139: the cluster keeps the leaf that a walk finds, whether or not the access may
use it. A request none of whose rule waits as a replay is translated in the beat order of its rule (log 26): it then
stands behind the requests that were translated before it, with its place; a page that fails is a late fault, and so is
an atomic on host memory. -/
def Obligations.Translation : Prop :=
  (∀ (s : State) (e : BitVec 64) (bits va : Nat) (n : Need),
     let kind := bitsAt (e.extractLsb' 0 32) 8 2
     let policy := e.extractLsb' 6 2
     let pa := e.toNat / 2 ^ 16 % 2 ^ 36 * 2 ^ 16 / 2 ^ bits * 2 ^ bits + va % 2 ^ bits
     let may := (n.read = true → e.getLsbD 2 = true) ∧ (n.write = true → e.getLsbD 3 = true) ∧
       (n.exec = true → e.getLsbD 4 = true) ∧ (e.getLsbD 5 = true → n.priv = true)
     (¬ may ∨ kind = 3 ∨ policy = 3 → s.useLeaf e bits va n = .bad 0x11 va) ∧
     (may → policy ≠ 3 → kind = 0 → pa % 2 ^ 43 < 640 * 2 ^ 30 → s.useLeaf e bits va n = .ok (pa % 2 ^ 43) policy) ∧
     (may → policy ≠ 3 → kind = 0 → 640 * 2 ^ 30 ≤ pa % 2 ^ 43 → s.useLeaf e bits va n = .bad 0x10 va) ∧
     (may → policy ≠ 3 → kind = 1 → s.useLeaf e bits va n = .ok (2 ^ 52 + pa % 2 ^ 43) policy) ∧
     (may → policy ≠ 3 → kind = 2 → pa / 2 ^ 43 = s.podId → s.useLeaf e bits va n =
       if pa % 2 ^ 43 < 640 * 2 ^ 30 then .ok (pa % 2 ^ 43) policy else .bad 0x10 va) ∧
     (may → policy ≠ 3 → kind = 2 → pa / 2 ^ 43 ≠ s.podId → s.useLeaf e bits va n =
       if pa % 2 ^ 43 < 640 * 2 ^ 30 then .ok (2 * 2 ^ 52 + pa) policy else .bad 0x10 pa)) ∧
  (∀ (s : State) (r : Req) (n : Need), Concerns s r → s.reqNeed r = some n → r.phase = .sent →
     (∀ q ∈ s.reqs, q.elem = r.elem → q.group = r.group → q.beat < r.beat → q.phase ≠ .sent) → NotReplayed s r →
     let core := elemCore r.elem
     let u := s.cacheLeaf (coreCluster core) (s.rootAt core) r.va.toNat
     let place := u.translateAt (coreCluster core) (s.rootAt core) r.va.toNat n
     (∀ k p, place = .ok k p → ¬ (k / 2 ^ 52 = 1 ∧ r.kind.noHost = true) →
       ∃ t, exec .translationWalk s = .next t ∧ t.mem = s.mem ∧ t.elems = s.elems ∧ t.cached = u.cached ∧
         t.reqs = reqsWithout s r.id ++ [{ r with
           pa := some k
           phase := .ready
           policy := if p.toNat < r.hint.toNat then r.hint else p
           atHome := decide (k / 2 ^ 52 = 2 ∨ (if p.toNat < r.hint.toNat then r.hint else p) = 2) }]) ∧
     (∀ k p, place = .ok k p → k / 2 ^ 52 = 1 → r.kind.noHost = true →
       exec .translationWalk s = .next (u.lateFault r 0x38 r.va.toNat)) ∧
     (∀ c a, place = .bad c a → r.kind ≠ .prefetch → exec .translationWalk s = .next (u.lateFault r c a)) ∧
     (∀ c a, place = .bad c a → r.kind = .prefetch → exec .translationWalk s = .next { u with reqs := reqsWithout s r.id }))

/-- R131, R136, R245: a load that meets no bit error, and none of whose rule waits as a replay, binds the bytes of its
scratchpad, of its cluster's copies with the home behind them, or, where it is not cached, of the home; it then holds
them as its result, and no byte changes. Bit errors come with a read by its free pick (log 48).

R131, R136, R245: a store lands once: in its scratchpad, or at the home where it is not cached, and then exactly the
bytes of its width change and its request goes; or in its cluster's copies, where these have room, which are dirty
there, and then no byte of the home changes and the request counts as landed. -/
def Obligations.LoadsBindStoresLand : Prop :=
  (∀ (s : State) (r : Req) (k : Nat), Concerns s r → (r.kind = .load false ∨ r.kind = .load true ∨ r.kind = .loadBlock) →
     r.pa = some k → r.phase = .ready → Plain r → Unmarked s → s.pick.flag = false → NoReadError s →
     NotReplayed s r → s.l1ReadOnly = false →
     (r.space = 1 ∨ r.space = 2 → (∀ q ∈ s.reqs, q.group = r.group → q.elem = r.elem → q.beat < r.beat → q.phase ≠ .ready) →
       exec .readBinding s = .next { s with reqs := reqsWith s r.id fun q => { q with
         phase := .answered
         value := asWords ((List.range r.size).map fun i => s.scratch.read (k + i)) } }) ∧
     (r.space = 0 → (r.policy = 2 ∨ k / 2 ^ 52 = 2) → r.atHome = true →
       exec .readBinding s = .next { s with reqs := reqsWith s r.id fun q => { q with
         phase := .answered
         value := asWords ((List.range r.size).map fun i => s.mem.read (k + i)) } }) ∧
     (r.space = 0 → r.policy ≠ 2 → k / 2 ^ 52 ≠ 2 → r.atHome = false →
       exec .readBinding s = .next { s with reqs := reqsWith s r.id fun q => { q with
         phase := .answered
         value := asWords ((List.range r.size).map fun i => match s.copyByte? (elemCluster r.elem) (k + i) with
           | some c => c.val
           | none => s.mem.read (k + i)) } })) ∧
  (∀ (s : State) (r : Req) (k : Nat), Concerns s r → (r.kind = .store ∨ r.kind = .storeBlock) → r.pa = some k →
     r.phase = .ready → Plain r → Unmarked s → MemoryInv s → r.size ≤ 4 * r.ops.length →
     let bs := firstBytes r.ops r.size
     (r.space = 1 ∨ r.space = 2 → (∀ q ∈ s.reqs, q.group = r.group → q.elem = r.elem → q.beat < r.beat → q.phase ≠ .ready) →
       ∃ t, exec .writeLanding s = .next t ∧ Stored s.scratch t.scratch k bs ∧ t.mem = s.mem ∧ t.copies = s.copies ∧
         t.elems = s.elems ∧ t.reqs = reqsWithout s r.id) ∧
     (r.space = 0 → (r.policy = 2 ∨ k / 2 ^ 52 = 2) → r.atHome = true →
       ∃ t, exec .writeLanding s = .next t ∧ Stored s.mem t.mem k bs ∧ t.scratch = s.scratch ∧ t.elems = s.elems ∧
         t.reqs = reqsWithout s r.id) ∧
     (r.space = 0 → r.policy ≠ 2 → k / 2 ^ 52 ≠ 2 → r.atHome = false → HasRoom s (elemCluster r.elem) k r.size →
       ∃ t, exec .writeLanding s = .next t ∧ t.mem = s.mem ∧ t.scratch = s.scratch ∧ t.elems = s.elems ∧
         (∀ x, t.copies.find x = if copyKey (elemCluster r.elem) k ≤ x ∧ x < copyKey (elemCluster r.elem) k + r.size then
           some ⟨bs.getD (x - copyKey (elemCluster r.elem) k) 0, true⟩ else s.copies.find x) ∧
         t.reqs = reqsWith s r.id fun q => { q with phase := .landed }))
/-- R250 to R252: what each atomic makes of the old value and its operand; `amo.cas` stores its second value where the
first equals the old one.

R138, R250, R251, R127: an atomic at its home is one read-modify-write of its word: the old value is its result, exactly
the word's bytes change, and its request is answered, or goes where nothing awaits the old value; where no bit error is
met. While its cluster holds copies, an atomic of an uncached word or of a wide scope first takes the dirty bytes of its
sector home, and the cluster holds the word no more; one of a cached word and a narrow scope takes place in the copies,
where these have room, and its request counts as landed. -/
def Obligations.AtomicsAtHome : Prop :=
  (∀ (op : AmoOp) (x : Nat) (a b c d : Word),
     (x < 2 ^ 32 → op ≠ .cas → op.apply false x [a] = atomicResult op false x a.toNat) ∧
     (x < 2 ^ 64 → op ≠ .cas → op.apply true x [a, b] = atomicResult op true x (a.toNat + b.toNat * 2 ^ 32)) ∧
     (op = .cas → op.apply false x [a, b] = if x = a.toNat then b.toNat else x) ∧
     (op = .cas → op.apply true x [a, b, c, d] =
       if x = a.toNat + b.toNat * 2 ^ 32 then c.toNat + d.toNat * 2 ^ 32 else x)) ∧
  ((  ∀ (s : State) (r : Req) (op : AmoOp) (w64 : Bool) (k : Nat), Concerns s r → r.kind = .amo op w64 → r.pa = some k →
     r.phase = .ready → Plain r → Unmarked s → MemoryInv s → r.atHome = true → s.copies = [] →
     NoReadError s → r.size = (if w64 then 8 else 4) →
     let old := numberAt ((List.range r.size).map fun i => s.mem.read (k + i)) 0 r.size
     ∃ t, exec .atomicApply s = .next t ∧
       Stored s.mem t.mem k (firstBytes [BitVec.ofNat 32 (op.apply w64 old r.ops),
         BitVec.ofNat 32 (op.apply w64 old r.ops / 2 ^ 32)] r.size) ∧
       t.scratch = s.scratch ∧ t.elems = s.elems ∧
       (r.dst = .none → t.reqs = reqsWithout s r.id) ∧
       (r.dst ≠ .none → t.reqs = reqsWith s r.id fun q => { q with
         phase := .answered
         value := if w64 then [BitVec.ofNat 32 old, BitVec.ofNat 32 (old / 2 ^ 32)] else [BitVec.ofNat 32 old] })) ∧
  (∀ (s : State) (r : Req) (op : AmoOp) (w64 : Bool) (k : Nat), Concerns s r → r.kind = .amo op w64 → r.pa = some k →
     r.phase = .ready → Plain r → Unmarked s → MemoryInv s → NoReadError s → r.size = (if w64 then 8 else 4) →
     k % r.size = 0 → k + r.size ≤ 2 ^ 54 → (s.copies.map (·.1)).Nodup →
     let cl := elemCluster r.elem
     let word (x : Nat) : List Byte :=
       firstBytes [BitVec.ofNat 32 (op.apply w64 x r.ops), BitVec.ofNat 32 (op.apply w64 x r.ops / 2 ^ 32)] r.size
     let ws (x : Nat) : List Word :=
       if w64 then [BitVec.ofNat 32 x, BitVec.ofNat 32 (x / 2 ^ 32)] else [BitVec.ofNat 32 x]
     (r.atHome = true ∨ 3 ≤ r.scope.toNat →
       let home (x : Nat) : Byte := match s.copyByte? cl x with
         | some c => if c.dirty = true ∧ x / 64 = k / 64 then c.val else s.mem.read x
         | none => s.mem.read x
       let old := numberAt ((List.range r.size).map fun i => home (k + i)) 0 r.size
       ∃ t, exec .atomicApply s = .next t ∧
         (∀ x, x < 2 ^ 54 → t.mem.read x =
           if k ≤ x ∧ x < k + r.size then (word old).getD (x - k) 0 else home x) ∧
         (∀ x, k ≤ x → x < k + r.size → t.copyByte? cl x = none) ∧
         (r.dst = .none → t.reqs = reqsWithout s r.id) ∧
         (r.dst ≠ .none → t.reqs = reqsWith s r.id fun q => { q with phase := .answered, value := ws old })) ∧
     (r.atHome = false → r.policy ≠ 2 → k / 2 ^ 52 ≠ 2 → r.scope.toNat < 3 → HasRoom s cl k r.size →
       let old := numberAt ((List.range r.size).map fun i => match s.copyByte? cl (k + i) with
         | some c => c.val
         | none => s.mem.read (k + i)) 0 r.size
       ∃ t, exec .atomicApply s = .next t ∧ t.mem = s.mem ∧
         (∀ x, t.copies.find x = if copyKey cl k ≤ x ∧ x < copyKey cl k + r.size then
           some ⟨(word old).getD (x - copyKey cl k) 0, true⟩ else s.copies.find x) ∧
         (r.dst = .none → t.reqs = reqsWith s r.id fun q => { q with phase := .landed }) ∧
         (r.dst ≠ .none → t.reqs = reqsWith s r.id fun q => { q with phase := .landed, value := ws old }))))
/-- R132, R243, R247, R351: a done token is pushed into its reserved slot when no beat of its firing is left and every
access of it is performed at the rule's scope; a port load takes the word at the head of its port, and a port store
appends one, where no link has the port (R351). Accesses to one port complete in any order (log 47). -/
def Obligations.DoneTokensAndPorts : Prop :=
  (∀ (s : State) (d : Done) (tag : Tag) (l : Nat), s.dones.find? (fun x => decide (x.group = s.pick.a)) = some d →
    s.beatsLeft d = false → d.ch < 4 → (∀ r ∈ s.reqs, r.elem = d.elem → r.group = d.group → s.performedAt r d.scope = true) →
    (∀ r ∈ s.replayed, r.elem = d.elem → r.group ≠ d.group) →
    ((s.elem d.elem).outCh d.ch).stage = [.hole d.hole tag] → ((s.elem d.elem).outCh d.ch).link = some l →
    ∃ t, exec .doneTokenEmit s = .next t ∧ t.dones = s.dones.filter (fun x => decide (x ≠ d)) ∧ t.mem = s.mem ∧
      ((t.elem d.elem).outCh d.ch).stage = [] ∧
      t.links = linksWith s l (fun l => { l with wire := l.wire ++ [⟨0, tag, 0⟩] })) ∧
  (∀ (s : State) (r : Req) (by_ : Bool) (w : ChanWord) (ws : List ChanWord), Concerns s r → r.kind = .load by_ →
    r.space = 3 → r.phase = .waiting → r.va.toNat < 32 →
    (s.cluster (elemCluster r.elem)).ports.getD r.va.toNat [] = w :: ws → s.portLinked (elemCluster r.elem) r.va.toNat true = false →
    ∃ t, exec .portAccessComplete s = .next t ∧
      (t.cluster (elemCluster r.elem)).ports.getD r.va.toNat [] = ws ∧
      t.reqs = reqsWith s r.id fun q => { q with phase := .answered, value := [w.word] }) ∧
  (∀ (s : State) (r : Req) (w : Word), Concerns s r → r.kind = .store → r.ops = [w] → r.space = 3 → r.phase = .waiting →
    r.va.toNat < 32 → ((s.cluster (elemCluster r.elem)).ports.getD r.va.toNat []).length < 16 →
    s.portLinked (elemCluster r.elem) r.va.toNat false = false →
    ∃ t, exec .portAccessComplete s = .next t ∧
      (t.cluster (elemCluster r.elem)).ports.getD r.va.toNat [] =
        (s.cluster (elemCluster r.elem)).ports.getD r.va.toNat [] ++ [⟨w, 0, 0⟩] ∧ t.reqs = reqsWithout s r.id)

/-- R130, R127, R129: the freedoms of copies: a clean sector that is not pinned may go, the dirty bytes of a sector may
go home, exactly to their places, and the absent bytes of a sector that the tables make cacheable may be filled from the
home, where L2 has room (log 30). -/
def Obligations.CopyFreedoms : Prop :=
  (∀ s : State, (∀ c ∈ s.copies, inSector s.pick.a s.pick.b c = true → c.2.dirty = false) → s.pins = [] →
    ∃ t, exec .copyEvict s = .next t ∧ t.mem = s.mem ∧
      t.copies = s.copies.filter (fun c => !inSector s.pick.a s.pick.b c)) ∧
  (∀ s : State, MemoryInv s → s.cells = [] →
    ∃ t, exec .copyWriteBack s = .next t ∧
      (∀ c ∈ s.copies, inSector s.pick.a s.pick.b c = true → c.2.dirty = true →
        (∀ d ∈ s.copies, inSector s.pick.a s.pick.b d = true → d.2.dirty = true → d.1 % 2 ^ 54 = c.1 % 2 ^ 54 → d = c) →
        t.mem.read (c.1 % 2 ^ 54) = c.2.val) ∧
      (∀ x, (∀ c ∈ s.copies, inSector s.pick.a s.pick.b c = true → c.2.dirty = true → c.1 % 2 ^ 54 ≠ x) →
        t.mem.read x = s.mem.read x) ∧
      (∀ c ∈ t.copies, inSector s.pick.a s.pick.b c = true → c.2.dirty = false) ∧
      t.copies.map (fun c => (c.1, c.2.val)) = s.copies.map (fun c => (c.1, c.2.val))) ∧
  (∀ (s : State) (k : Nat) (p : BitVec 2), s.cacheable s.pick.a s.pick.b s.pick.c = some (k, p) → s.pick.flag = false →
    HasRoom s s.pick.a (k / 64 * 64) 64 →
    ∃ t, exec .copyFill s = .next t ∧ t.mem = s.mem ∧
      ∀ i, i < 64 → t.copyByte? s.pick.a (k / 64 * 64 + i) =
        some ((s.copyByte? s.pick.a (k / 64 * 64 + i)).getD ⟨s.homeByte (k / 64 * 64 + i), false⟩))

namespace Sys2Proof.Claims

/-! ## Happenings at cells, copies, the matrix engine and hubs -/

/-- A request at its slice that bears neither release nor acquire nor the ordered bit. -/
def AtSlice (s : State) (r : Req) (k : Nat) : Prop :=
  Concerns s r ∧ r.pa = some k ∧ r.phase = .ready ∧ r.rel = false ∧ r.acq = false ∧ r.ordered = false

/-- Entries in ascending stamp order. -/
def Ascending : List Entry → Prop
  | [] => True
  | e :: es => (∀ x ∈ es, e.stamp.toNat ≤ x.stamp.toNat) ∧ Ascending es

/-- A barrier of a spur changed. -/
def withBar (b : Nat) (f : BarState → BarState) (p : Spur) : Spur :=
  { p with bars := p.bars.setIfInBounds b (f (p.bars.getD b default)) }

/-- The templates of a core take triggers: its ridge is not held, and its spur runs, or has halted and completes what it
issued (R75, R267). -/
def TakesTriggers (s : State) (core : Nat) : Prop := s.running core = true ∨ (s.heldAt core = false ∧
  ∃ p c, s.spurAt core = some p ∧ s.chainAt core = some c ∧ p.phase = .halted ∧ c.phase = .started)

/-- Lists of one length whose elements, place by place, are related. -/
def Each {α : Type} (rel : α → α → Prop) (xs ys : List α) : Prop :=
  xs.length = ys.length ∧ ∀ (i : Nat) (x y : α), xs[i]? = some x → ys[i]? = some y → rel x y

/-- A spur of the ridge that the chain `a` has at stage n uses the barrier `b`. -/
def UsesBarrier (s : State) (n : Nat) (p : Spur) : Prop :=
  p.chain = s.pick.a ∧ p.stage = n ∧ (p.bars.getD s.pick.b default).need ≠ 0

/-! ### What a copy firing reads and lands (R268 to R275), from the fields of its block (R265) -/

/-- Bytes that a core's cluster sees at virtual addresses of one page that the core may read: those of its copies with the
home behind them, or of the home where the page is uncached or a peer's (R127, R131). -/
def PageSees (s : State) (core a : Nat) (bs : List Byte) : Prop :=
  a % 65536 + bs.length ≤ 65536 ∧ ∃ k p,
    s.translateAt (coreCluster core) (s.rootAt core) a ⟨true, false, false, s.privAt core⟩ = .ok k p ∧
    bs = (List.range bs.length).map fun i =>
      if k / 2 ^ 52 = 2 ∨ p = 2 then s.mem.read (k + i)
      else match s.copyByte? (coreCluster core) (k + i) with
        | some c => c.val
        | none => s.mem.read (k + i)
/-- The same for bytes that may cross from one page into the next. -/
def Sees (s : State) (core a : Nat) (bs : List Byte) : Prop :=
  PageSees s core a bs ∨ ∃ xs ys, bs = xs ++ ys ∧ xs ≠ [] ∧ ys ≠ [] ∧ (a + xs.length) % 65536 = 0 ∧
    PageSees s core a xs ∧ PageSees s core (a + xs.length) ys
/-- The bytes of a block's source from an address: of global memory, or of the cluster's scratchpads, rebased (R87). -/
def SourceHolds (s : State) (core : Nat) (b : List Byte) (a : Nat) (bs : List Byte) : Prop :=
  (byteAt b 4 = 0 ∧ Sees s core a bs) ∨
  (byteAt b 4 = 1 ∧ bs ≠ [] ∧ s.rebase core a < 2 ^ 23 ∧ s.rebase core (a + bs.length - 1) < 2 ^ 23 ∧
    bs = (List.range bs.length).map fun i => s.scratch.read (coreCluster core * 2 ^ 23 + s.rebase core a + i))

/-- The bytes of a firing: B, or L where B is 0; of a gather or scatter, whole entries (R268, R272, R273). -/
def bytesOfFiring (b : List Byte) : Nat :=
  if byteAt b 0 = 2 ∨ byteAt b 0 = 3 then numberAt b 0x18 4 / numberAt b 0x24 2 * numberAt b 0x24 2
  else if numberAt b 0x1C 4 = 0 then numberAt b 0x18 4 else numberAt b 0x1C 4
/-- Where firing n of a plain block begins in its run: at n · B modulo L (R268). -/
def startOfFiring (b : List Byte) (n : Nat) : Nat :=
  if numberAt b 0x1C 4 = 0 then 0 else n * numberAt b 0x1C 4 % numberAt b 0x18 4
/-- Whether a firing makes words for a stream port of the bytes of its rows (R271). -/
abbrev MakesWords (b : List Byte) : Prop := byteAt b 0 ≤ 1 ∧ byteAt b 4 ≠ 2 ∧ byteAt b 5 = 2

/-- Whether a firing reads before it lands: it holds no piece, of an exchange no whole chunk, of a stream no word. -/
def Wants (b : List Byte) (f : Firing) : Prop :=
  if byteAt b 0 = 5 then f.buf.length < numberAt b 0x30 4
  else if MakesWords b then f.buf.length < 4 ∧ (f.buf = [] ∨ f.pos + f.buf.length < bytesOfFiring b)
  else f.buf = []
/-- The firing of the template ct of a core, with its block, where the happening concerns its request and nothing stops
it. -/
def FiringAt (s : State) (core ct : Nat) (b : List Byte) (f : Firing) : Prop :=
  ∃ r, Concerns s r ∧ r.kind = .copy core ct ∧ r.pa = none ∧ ct < 32 ∧ ((s.core core).template ct).block = b ∧
    ((s.core core).template ct).firing = some f ∧ f.faulted = false ∧ Unmarked s ∧ NoStorageError s
/-- The same of one that may read. -/
def FiringReads (s : State) (core ct : Nat) (b : List Byte) (f : Firing) : Prop :=
  FiringAt s core ct b f ∧ f.ended = false ∧ s.heldAt core = false
/-- A happening changes the firing of a template to g, and no byte of memory, of a copy or of a scratchpad. -/
def ReadTo (s : State) (i : Instr) (core ct : Nat) (g : Firing) : Prop :=
  ∃ t, exec i s = .next t ∧
    (t.core core).template ct = { (s.core core).template ct with firing := some g } ∧
    t.mem = s.mem ∧ t.copies = s.copies ∧ t.scratch = s.scratch ∧ t.elems = s.elems

/-- The address and length of the next piece that a firing reads: of a plain copy or exchange up to a 256-byte boundary, of
a strided one within its row, of a gather or scatter the rest of its entry (R271 to R273, R275). -/
def nextPiece (b : List Byte) (f : Firing) : Nat × Nat :=
  let p := f.pos + f.buf.length
  let left := bytesOfFiring b - p
  let row := numberAt b 0x30 4
  let e := numberAt b 0x24 2
  let piece (a left : Nat) : Nat :=
    if byteAt b 0 ≤ 1 ∧ byteAt b 4 ≠ 2 ∧ byteAt b 5 = 2 then min left (max 4 ((256 - a % 256) / 4 * 4)) else min (256 - a % 256) left
  match byteAt b 0 with
  | 0 => (numberAt b 8 8 + startOfFiring b f.n + p, piece (numberAt b 8 8 + startOfFiring b f.n + p) left)
  | 1 =>
    let a := numberAt b 8 8 + p / row * numberAt b 0x38 4 + p % row
    (a, min (row - p % row) (piece a left))
  | 2 => (numberAt b 8 8 + (f.index.headD 0).toNat * e + f.pos % e, e - f.pos % e)
  | 3 => (numberAt b 8 8 + f.pos / e * e + f.pos % e, e - f.pos % e)
  | _ => (numberAt b 8 8 + p, piece (numberAt b 8 8 + p) (row - f.buf.length))
/-- The index of a gather's or scatter's entry has been read and names a place (R272, R273); other kinds have none. -/
def NamesPlace (b : List Byte) (f : Firing) : Prop :=
  byteAt b 0 = 2 ∨ byteAt b 0 = 3 → f.index ≠ [] ∧ f.index.headD 0 ≠ 0xFFFFFFFF#32 ∧ (f.index.headD 0).toNat < numberAt b 0x38 4

/-- A coordinate brought into a plane of size n by a boundary policy: periodic, clamped or reflected; none where it is
outside and the constant stands for it (R274). -/
def brought (policy n : Nat) (c : Int) : Option Nat :=
  if 0 ≤ c ∧ c < n then some c.toNat
  else if policy = 0 then some (c % n).toNat
  else if policy = 1 then some (if c < 0 then 0 else n - 1)
  else if policy = 3 then some (if c < 0 then -1 - c else 2 * n - 1 - c).toNat
  else none
/-- A plane block's segment size, its segments in a row, the row and first site of a granule, and the sites of its segment. -/
def segSize (b : List Byte) : Nat := 2 ^ (byteAt b 0x37 % 8)
def segsOf (b : List Byte) : Nat := (numberAt b 0x30 2 + segSize b - 1) / segSize b
def sitesOf (b : List Byte) (g : Nat) : Nat :=
  min (numberAt b 0x30 2) ((g % segsOf b + 1) * segSize b) - g % segsOf b * segSize b
/-- A plane stream reads its activity map. -/
def MapRead (b : List Byte) : Prop := (byteAt b 0x37).testBit 7 = true ∧ numberAt b 0x20 8 ≠ 0

/-- Where the bytes that a firing has read land (R271 to R273). -/
def nextPlace (b : List Byte) (f : Firing) : Nat :=
  let row := numberAt b 0x30 4
  let e := numberAt b 0x24 2
  match byteAt b 0 with
  | 1 => numberAt b 0x10 8 + f.pos / row * numberAt b 0x3C 4 + f.pos % row
  | 3 => numberAt b 0x10 8 + (f.index.headD 0).toNat * e + f.pos % e
  | _ => numberAt b 0x10 8 + startOfFiring b f.n + f.pos
/-- Bytes that land at once: within a row of a strided destination, and within a page of global memory or one scratchpad. -/
def landsAtOnce (b : List Byte) (f : Firing) (unit : Nat) : Nat :=
  let row := numberAt b 0x30 4
  min (if byteAt b 0 = 1 then min f.buf.length (row - f.pos % row) else f.buf.length) (unit - nextPlace b f % unit)
/-- A firing that has a piece to land. -/
def FiringLands (s : State) (core ct : Nat) (b : List Byte) (f : Firing) : Prop :=
  FiringAt s core ct b f ∧ f.buf ≠ [] ∧ ¬Wants b f ∧ MemoryInv s ∧ (byteAt b 0 = 2 ∨ byteAt b 0 = 3 → f.index ≠ []) ∧
    (byteAt b 0 = 3 → NamesPlace b f)
/-- A firing of which m bytes have landed, w of them counted as written: the rest waits, its place advances, and behind an
entry its index goes; a plain or strided copy of storage ends with its last byte. -/
def Advanced (b : List Byte) (f g : Firing) (m w : Nat) : Prop :=
  g.buf = f.buf.drop m ∧ g.written = f.written + w ∧ g.pos = (if byteAt b 0 = 4 then f.pos else f.pos + m) ∧ g.n = f.n ∧
  g.skipped = f.skipped ∧ (g.buf ≠ [] → g.index = f.index ∧ g.ended = f.ended) ∧
  (g.buf = [] → g.index = if byteAt b 0 = 2 ∨ byteAt b 0 = 3 then f.index.drop 1 else f.index) ∧
  (g.buf = [] → byteAt b 0 ≠ 4 → byteAt b 4 ≠ 2 →
    (g.ended = true ↔ f.ended = true ∨ bytesOfFiring b ≤ g.pos))

/-! ### The matrix engine (R104 to R110, R283 to R291) -/

/-- The formats of a group (R107) and the bits of an element of a format (R105). -/
def formatsOf (group : Nat) : List Nat :=
  match group with
  | 0 => [0x11, 0x12, 0x21]
  | 1 => [0x22]
  | 2 => [0x14]
  | 3 => [0x31, 0x32]
  | _ => []
def widthOf (code : Nat) : Nat :=
  if code = 0x14 then 4 else if code = 0x22 then 6 else if code = 0x31 ∨ code = 0x32 then 16 else 8
/-- The elements of a block, without its scale; of a NaN block all are NaN (R105, R106). -/
def elementsOf (b : List Byte) : List Machine.Num :=
  let w := widthOf (byteAt b 0)
  (List.range (496 / w)).map fun i =>
    if byteAt b 1 = 0xFF then .nan else fmtDecode (byteAt b 0) (numberAt b 2 62 / 2 ^ (w * i) % 2 ^ w)
/-- The exact sum of the products of two rows of elements. -/
def sumOfProducts (xs ys : List Machine.Num) : Machine.Num :=
  (List.zipWith Machine.Num.mul xs ys).foldr Machine.Num.add (.fin false 0 0)
/-- The value of an accumulator after a pair of blocks: the exact sum of the products, scaled by both blocks, is added and
the sum rounded once; a sum of exactly zero leaves the value as it is (R108, R109). -/
def afterBlocks (old : Word) (x y : List Byte) : Word :=
  match sumOfProducts (elementsOf x) (elementsOf y) with
  | .fin _ 0 _ => old
  | p => toF32 ((val32 old).add (p.scale (((byteAt x 1 + byteAt y 1 : Nat) : Int) - 254)))
/-- The rows of a tile: those fetched, or those of the scratchpads as they stand now; none without an address (R284, R291). -/
def rowsOf (s : State) (core : Nat) (x : Tile) : List (Option (List Byte)) :=
  (List.range 32).map fun i => (x.addrs.getD i none).map fun a =>
    (List.range 64).map fun j =>
      if x.scratch then s.scratch.read (coreCluster core * 2 ^ 23 + s.rebase core a + j) else x.rows.getD (64 * i + j) 0

/-- Addresses of a tile's rows that may be fetched: aligned, and within range, in scratch after rebasing (R119, R283). -/
def RowsOk (s : State) (core : Nat) (scratch : Bool) (addrs : List (Option Nat)) : Prop :=
  ∀ a, some a ∈ addrs → a % 64 = 0 ∧ if scratch = true then s.rebase core a < 2 ^ 23 else a < 2 ^ 55
/-- No fill of a tile is held or under way, and no pin of one is left (R283, R284). -/
def TileEmpty (s : State) (core n : Nat) : Prop :=
  ((s.mx core).tile n).full = false ∧ ((s.mx core).tile n).loading = false ∧
    ∀ p ∈ s.pins, ¬(p.core = core ∧ p.tile = n)
/-- A fetch of a global tile starts: the rows that have addresses are read, 64 bytes each, and the others have arrived. -/
def FetchStarts (s t : State) (core n : Nat) (addrs : List (Option Nat)) (c : Cmd) : Prop :=
  let x := (t.mx core).tile n
  x.loading = true ∧ x.full = false ∧ x.scratch = false ∧ x.addrs = addrs ∧ x.cmd = c ∧ x.rows.length = 2048 ∧
  (∀ i, i < 32 → x.arrived.getLsbD i = (addrs.getD i none).isNone) ∧
  ∃ qs, t.reqs = s.reqs ++ qs ∧
    qs.map (fun q => (q.kind, q.va)) = (List.range 32).filterMap (fun i => (addrs.getD i none).map fun a =>
      (ReqKind.tile core n i, BitVec.ofNat 64 a)) ∧
    ∀ q ∈ qs, q.size = 64 ∧ q.phase = .sent ∧ q.space = 0 ∧ q.elem = c.elem ∧ q.dst = .none
/-- A fill of a tile in scratch is full at once for its consumers, or discarded where it has none (R284). -/
def FillsAtOnce (s t : State) (core n : Nat) (addrs : List (Option Nat)) (c : Cmd) (consumers : Nat) : Prop :=
  let x := (t.mx core).tile n
  t.reqs = s.reqs ∧ x.loading = false ∧ (consumers = 0 → x.full = false) ∧
  (consumers ≠ 0 → x.full = true ∧ x.scratch = true ∧ x.addrs = addrs ∧ x.cmd = c ∧ x.consumers = consumers)
/-- A tile's fill starts as its command says. -/
def FillStarts (s t : State) (core n : Nat) (scratch : Bool) (addrs : List (Option Nat)) (c : Cmd) (consumers : Nat) : Prop :=
  if scratch = true then FillsAtOnce s t core n addrs c consumers else FetchStarts s t core n addrs c

/-- A sequence block within its limits (R289). -/
def SequenceBlock (conv : Bool) (b : List Byte) : Prop :=
  let f (off n : Nat) : Nat := numberAt b off n
  f 0 1 = (if conv = true then 2 else 1) ∧ 1 ≤ f 1 1 ∧ f 1 1 ≤ 4 ∧ f 2 1 ≤ 3 ∧ f 3 1 < 8 ∧ f 4 2 ≠ 0 ∧ f 6 2 = 0 ∧
  (if (f 3 1).testBit 1 then f 0x08 8 < 2 ^ 23 else f 0x08 8 < 2 ^ 55) ∧
  (if (f 3 1).testBit 2 then f 0x10 8 < 2 ^ 23 else f 0x10 8 < 2 ^ 55) ∧
  f 0x18 4 ≠ 0 ∧ f 0x18 4 % 64 = 0 ∧ f 0x1C 4 ≠ 0 ∧ f 0x1C 4 % 64 = 0 ∧ f 0x20 4 % 64 = 0 ∧
  (conv = false → f 0x24 4 % 64 = 0) ∧ f 0x28 4 % 64 = 0 ∧ f 0x2C 4 = 0 ∧
  (conv = false → ∀ i, i < 16 → f (0x30 + i) 1 = 0) ∧
  (conv = true → f 0x30 2 ≠ 0 ∧ f 0x32 2 ≠ 0 ∧ (∀ i, i < 6 → f (0x34 + i) 1 ≠ 0) ∧ f 4 2 % (f 0x34 1 * f 0x35 1) = 0)
/-- Row i of the A tile of a K block: of a product, and of a convolution (R290, R291). -/
def sequenceRow (conv : Bool) (b : List Byte) (kb i : Nat) : Option Nat :=
  let f (off n : Nat) : Nat := numberAt b off n
  if conv = true then
    let cb := f 4 2 / (f 0x34 1 * f 0x35 1)
    let iy : Int := (f 0x3C 2 * f 0x36 1 + kb / (cb * f 0x35 1) * f 0x38 1 : Nat) - (f 0x3A 1 : Int)
    let ix : Int := ((f 0x3E 2 + i) * f 0x37 1 + kb / cb % f 0x35 1 * f 0x39 1 : Nat) - (f 0x3B 1 : Int)
    if 0 ≤ iy ∧ iy < f 0x30 2 ∧ 0 ≤ ix ∧ ix < f 0x32 2 then
      some (f 0x08 8 + (iy.toNat * f 0x32 2 + ix.toNat) * f 0x18 4 + kb % cb * 64)
    else none
  else some (f 0x08 8 + kb * f 0x24 4 + i * f 0x18 4)

/-- A column that holds the largest value of a row, the lowest such column; 0 for a row of NaNs (R288). -/
def LargestColumn (v : Nat → Word) (k : Nat) : Prop :=
  ((∀ j, j < 32 → isNaN (v j) = true) ∧ k = 0) ∨
  (k < 32 ∧ isNaN (v k) = false ∧ ∀ j, j < 32 → isNaN (v j) = false →
    fp32.below (v k).toNat (v j).toNat = false ∧ (j < k → fp32.below (v j).toNat (v k).toNat = true))
/-- The bytes of row r of accumulator n that a drain with the extension x writes: words, described blocks, or the largest
columns of all rows (R288, R113). -/
def DrainHolds (m : Matrix) (n : Nat) (x : Word) (r : Nat) (bs : List Byte) : Prop :=
  let fmt := bitsAt x 0 8
  let vs := (List.range 32).map fun v => val32 (m.value n r v)
  let pack (xs : List Machine.Num) : List Byte := if x.getLsbD 8 then packBlock fmt xs else packBlockAt fmt 127 xs
  (bitsAt x 14 2 = 0 → bs = firstBytes ((List.range 32).map (m.value n r)) 128) ∧
  (bitsAt x 14 2 = 1 → bs = if fmt = 0x31 ∨ fmt = 0x32 then pack (vs.take 31) ++ pack (vs.drop 31) else pack vs) ∧
  (bitsAt x 14 2 = 2 → ∃ ks : List Nat, ks.length = 32 ∧ bs = firstBytes (ks.map (BitVec.ofNat 32)) 128 ∧
    ∀ i, i < 32 → LargestColumn (m.value n i) (ks.getD i 0))

end Sys2Proof.Claims

/-- R148 to R152: a cell keeps its entries in ascending stamp order, an entry behind those of equal stamps; a fold
through a watermark keeps the tentative value, raises F, and leaves only entries of later steps.

R144, R146, R148, R150 to R153, R254 to R256, R403: requests at the slices of order-repairing cells: a domain is made, a
word bound to a cell with its value at the home as base, a cell folded, a free begun and ended; loads answer the
tentative value, or the settled one once the view has reached their step; an operation is inserted; a mark raises W; a
view takes the rises of W one by one. No bit error is met (log 48). The order of checks is the model's reading (log 28).
-/
def Obligations.OrderRepair : Prop :=
  ((∀ (e : Entry) (es : List Entry), Ascending es → Ascending (insertEntry e es) ∧
     insertEntry e es = (es.filter fun x => decide (x.stamp.toNat ≤ e.stamp.toNat)) ++ [e] ++
       es.filter fun x => decide (e.stamp.toNat < x.stamp.toNat)) ∧
   (∀ (c : Cell) (w : BitVec 24), Ascending c.history →
     (c.foldThrough w).tentative = c.tentative ∧ (c.foldThrough w).f.toNat = max c.f.toNat w.toNat ∧
     (∀ e ∈ (c.foldThrough w).history, w.toNat < e.stamp.toNat / 2 ^ 16) ∧ Ascending (c.foldThrough w).history ∧
     (∀ step, w.toNat ≤ step → (c.foldThrough w).settled step = c.settled step))) ∧
  ((∀ (s : State) (r : Req) (k : Nat) (w64 : Bool), AtSlice s r k → r.kind = .orcCtl .dom w64 →
     let n := fieldAt (s.homeRead k 0x140) 0 2
     1 ≤ n → n ≤ 64 → s.domain? k = none → s.domainsAt k < 8 → s.poison.contains (k / 64) = false → NoReadError s →
     ∃ t d, exec .orcRequestArrival s = .next t ∧ t.domains = s.domains ++ [d] ∧ d.record = k ∧ d.count = n ∧
       d.chain = s.chainIdAt (elemCore r.elem) ∧ d.w = 0 ∧ d.marks = [] ∧ d.views = [] ∧ t.reqs = reqsWithout s r.id) ∧
   (∀ (s : State) (r : Req) (k d : Nat) (p : BitVec 2) (w64 : Bool), AtSlice s r k → r.kind = .orcCtl .bind w64 →
     let core := elemCore r.elem
     let n := if w64 then 8 else 4
     s.translateAt (coreCluster core) (s.rootAt core) (ofPair r.ops) ⟨true, true, false, s.privAt core⟩ = .ok d p →
     (s.domain? d).isSome = true → (s.cells.filter fun c => decide (sliceOf c.word = sliceOf k)).length < 1024 →
     (∀ i, i < n → s.cellAt (k + i) = none) → NoReadError s →
     ∃ t, exec .orcRequestArrival s = .next t ∧ t.mem = s.mem ∧ t.reqs = reqsWithout s r.id ∧
       t.cells = s.cells ++ [⟨k, w64, d, s.chainIdAt core,
         BitVec.ofNat 64 (numberAt ((List.range n).map fun i => s.mem.read (k + i)) 0 n), 0, []⟩]) ∧
   (∀ (s : State) (r : Req) (k : Nat) (c : Cell) (w64 : Bool), AtSlice s r k → r.kind = .orcCtl .fold w64 →
     s.cellOf k = some c → (∀ q ∈ s.reqs, q.waitsAt k = false) → NoReadError s →
     ∃ t, exec .orcRequestArrival s = .next t ∧ t.mem = s.mem ∧ t.reqs = reqsWithout s r.id ∧
       t.cellOf k = some (c.foldThrough (s.viewOf c))) ∧
   (∀ (s : State) (r : Req) (k : Nat) (c : Cell) (w64 : Bool), AtSlice s r k → r.kind = .orcCtl .free w64 →
     s.cellOf k = some c → NoReadError s →
     exec .orcRequestArrival s = .next { s with reqs := reqsWith s r.id fun q => { q with phase := .waiting } }) ∧
   (∀ (s : State) (r : Req) (k : Nat) (c : Cell), AtSlice s r k → r.kind = .orcLoad false c.w64 → s.cellOf k = some c →
     s.poison.contains (k / 64) = false → NoReadError s →
     exec .orcRequestArrival s = .next { s with reqs := reqsWith s r.id fun q => { q with
       phase := .answered
       value := if c.w64 then wordsOf64 c.tentative else [c.tentative.extractLsb' 0 32] } }) ∧
   (∀ (s : State) (r : Req) (k : Nat) (c : Cell) (w : Word), AtSlice s r k → r.kind = .orcLoad true c.w64 →
     s.cellOf k = some c → r.ops = [w] → c.f.toNat ≤ bitsAt w 0 24 → (s.viewOf c).toNat < bitsAt w 0 24 →
     s.poison.contains (k / 64) = false → NoReadError s →
     exec .orcRequestArrival s = .next { s with reqs := reqsWith s r.id fun q => { q with phase := .waiting } }) ∧
   (∀ (s : State) (r : Req) (k : Nat) (c : Cell) (w : Word), Concerns s r → r.pa = some k → r.phase = .waiting →
     r.kind = .orcLoad true c.w64 → s.cellOf k = some c → r.ops = [w] → bitsAt w 0 24 ≤ (s.viewOf c).toNat →
     exec .settledLoadAnswer s = .next { s with reqs := reqsWith s r.id fun q => { q with
       phase := .answered
       value := if c.w64 then wordsOf64 (c.settled (bitsAt w 0 24)) else [(c.settled (bitsAt w 0 24)).extractLsb' 0 32] } }) ∧
   (∀ (s : State) (r : Req) (k : Nat) (c : Cell) (d : Domain) (op : OrcOp) (lo hi a b : Word), AtSlice s r k →
     r.kind = .orcOp op c.w64 → s.cellOf k = some c → s.domain? c.domain = some d → r.ops = [lo, hi, a, b] →
     s.poison.contains (k / 64) = false → NoReadError s → op.fits c.w64 = true → bitsAt hi 8 24 = 0 →
     let stamp : BitVec 40 := hi.extractLsb' 0 8 ++ lo
     (s.viewOf c).toNat < stamp.toNat / 2 ^ 16 → stamp.toNat % 64 < d.count → c.history.length < 15 →
     ∃ t, exec .orcOpArrival s = .next t ∧ t.mem = s.mem ∧ t.reqs = reqsWithout s r.id ∧
       t.cellOf k = some { c with history := insertEntry ⟨stamp, op, [a, b]⟩ c.history }) ∧
   (∀ (s : State) (r : Req) (k : Nat) (d : Domain) (w : Word) (w64 : Bool), AtSlice s r k → r.kind = .orcCtl .mark w64 →
     s.domain? k = some d → r.ops = [w] → bitsAt w 30 2 = 0 → bitsAt w 24 6 < d.count →
     (d.mark (bitsAt w 24 6)).toNat < bitsAt w 0 24 →
     ∃ t e, exec .orcMarkApply s = .next t ∧ t.reqs = reqsWithout s r.id ∧ t.domain? k = some e ∧
       (∀ n, e.mark n = if n = bitsAt w 24 6 then w.extractLsb' 0 24 else d.mark n) ∧ e.views = d.views ∧
       (∀ n, n < d.count → e.w.toNat ≤ (e.mark n).toNat) ∧ (∃ n, n < d.count ∧ e.w = e.mark n)) ∧
   (∀ (s : State) (d : Domain) (before after : List (BitVec 24)) (w : BitVec 24), s.domain? s.pick.a = some d →
     let view := (d.views.find s.pick.b).getD 0
     d.rises = before ++ w :: after → (∀ v ∈ before, v.toNat ≤ view.toNat) → view.toNat < w.toNat →
     (d.pod = true ∨ s.pick.b / 256 = sliceOf d.record / 256) → s.pick.b ∉ d.cut →
     ∃ t e, exec .watermarkViewRise s = .next t ∧ t.domain? s.pick.a = some e ∧ e.views.find s.pick.b = some w ∧
       e.marks = d.marks ∧ t.mem = s.mem ∧ t.cells = s.cells) ∧
   (∀ (s : State) (r : Req) (k : Nat) (c : Cell) (w64 : Bool), Concerns s r → r.kind = .orcCtl .free w64 → r.pa = some k →
     r.phase = .waiting → s.cellOf k = some c → MemoryInv s →
     (∀ e ∈ c.history, e.stamp.toNat / 2 ^ 16 ≤ (s.viewOf c).toNat) → (∀ q ∈ s.reqs, q.waitsAt c.word = false) →
     ∃ t, exec .orcFreeEnd s = .next t ∧ t.reqs = reqsWithout s r.id ∧ t.cellOf k = none ∧
       Stored s.mem t.mem k (firstBytes (wordsOf64 c.tentative) (if c.w64 then 8 else 4))))

/-- R267 to R270, R276, R142, R277: event words are placed in order, an armed template takes its trigger, a firing
starts and completes with its count in the register, a shadow page returns to its pool, a landing is counted at its
cairn. That a piece has at most 256 bytes and that a shadow pool is used as a stack are the model's choices (DESIGN
CHOICE, logs 11 and 12).

R268, R271 to R275, R131: what a copy firing reads and lands. It reads its source in order: pieces of storage, words of
a stream port with their tags, chunks of its index list before the entries that they name, fill values, headers, skip
words and sites of a plane. What it has read lands at its destination, in place, in a shadow page, in a scratchpad or in
each of a peer mask, or enters a stream port; a chunk of an exchange leaves for its peer. That a piece has at most 256
bytes, and a word that a row does not fill waits for the next, are the model's choices (DESIGN CHOICE, log 11).

R275, R364, R365: a peer delivery to an armed template is a trigger, one to a core without it is diverted, one from
another package joins the deliveries; a chunk for another package leaves the device, and one of this package lands at
its receiver, the words for a stream port as far as that has room. What the record of an orphan names is the model's
choice (log 13). -/
def Obligations.CopiesAndDeliveries : Prop :=
  ((∀ (s : State) (src : Nat) (ch : BitVec 2) (tag : Tag), (s.core s.pick.a).events[s.pick.b]? = some (src, ch, tag) →
     (∀ e ∈ (s.core s.pick.a).events.take s.pick.b, e.1 ≠ src) →
     ((s.elem (coreE0 s.pick.a)).chan ch.toNat).length < 16 →
     ∃ t, exec .eventChannelPlace s = .next t ∧
       (t.core s.pick.a).events = (s.core s.pick.a).events.eraseIdx s.pick.b ∧
       (t.elem (coreE0 s.pick.a)).chan ch.toNat = (s.elem (coreE0 s.pick.a)).chan ch.toNat ++
         [⟨0, tag, (s.elem (coreE0 s.pick.a)).window⟩]) ∧
   (∀ (s : State) (w : ChanWord) (ws : List ChanWord), s.pick.b < 32 →
     let x := (s.core s.pick.a).template s.pick.b
     (s.elem (coreE0 s.pick.a)).chan (tbChan x.block) = w :: ws → tbChan x.block < 4 → x.state ≠ 0 →
     w.tag = tbTag x.block → x.queued < 65535 → TakesTriggers s s.pick.a →
     ∃ t, exec .templateTriggerAccept s = .next t ∧
       (t.core s.pick.a).template s.pick.b = { x with queued := x.queued + 1 } ∧
       (t.elem (coreE0 s.pick.a)).chan (tbChan x.block) = ws) ∧
   (∀ (s : State) (p : Spur), s.pick.b < 32 →
     let x := (s.core s.pick.a).template s.pick.b
     x.state = 1 → x.queued ≠ 0 → x.firing = none → x.stopping = false → s.heldAt s.pick.a = false → s.spurAt s.pick.a = some p →
     wholePages x.block x.nextN = [] → (tbScope x.block).toNat < 3 →
     ∃ t f, exec .copyFiringStart s = .next t ∧ t.mem = s.mem ∧
       (t.core s.pick.a).template s.pick.b =
         { x with queued := x.queued - 1, nextN := x.nextN + 1, firing := some f } ∧
       f.n = x.nextN ∧ f.pages = [] ∧ f.written = 0) ∧
   (∀ (s : State) (f : Firing), s.pick.b < 32 →
     let x := (s.core s.pick.a).template s.pick.b
     x.firing = some f → f.ended = true → f.buf = [] → s.firingMoves s.pick.a x f = true →
     s.roundDone s.pick.a s.pick.b x.block f = true → f.recording = true → tbRec x.block = 0 → x.state = 1 →
     tbReg x.block < 16 → (∀ q ∈ s.reqs, q.kind ≠ .stopCt s.pick.b) → NoStorageError s →
     ∃ t, exec .copyFiringCompletion s = .next t ∧
       (t.core s.pick.a).template s.pick.b = { x with done := x.done + 1, firing := none } ∧
       (t.elem (coreE0 s.pick.a)).reg (tbReg x.block) = BitVec.ofNat 32 (x.done + 1) ∧
       (t.elem (coreE0 s.pick.a)).isPending (tbReg x.block) = false ∧ t.mem = s.mem ∧ t.reqs = reqsWithout s f.req) ∧
   (∀ (s : State) (m page : Nat), s.oldPages[s.pick.a]? = some (m, page) → s.pageBusy page = false → s.cells = [] → m < 4 →
     MemoryInv s → page < 2 ^ 64 → (∀ p ∈ s.pins, p.sector / 1024 ≠ page / 65536) →
     ∃ t, exec .shadowPageReturn s = .next t ∧ t.oldPages = s.oldPages.eraseIdx s.pick.a ∧
       t.preg (0x2B3 + 4 * m) = s.preg (0x2B3 + 4 * m) + 1 ∧
       Stored s.mem t.mem (s.poolEntry m (s.preg (0x2B3 + 4 * m)).toNat) (bytesOfNat 8 page)) ∧
   (∀ (s : State) (n : Nat) (rest : List Nat), s.pick.b < 32 →
     let c := (s.core s.pick.a).cairn s.pick.b
     c.landed = n :: rest → c.overrun = false →
     (n < c.remaining → ∃ t, exec .cairnLanding s = .next t ∧
       (t.core s.pick.a).cairn s.pick.b = { c with landed := rest, remaining := c.remaining - n } ∧
       (t.core s.pick.a).events = (s.core s.pick.a).events) ∧
     (n = c.remaining → 0 < n → ∃ t, exec .cairnLanding s = .next t ∧
       (t.core s.pick.a).cairn s.pick.b = { c with landed := rest, remaining := if c.rearm then c.expected else 0 } ∧
       (t.core s.pick.a).events = (s.core s.pick.a).events ++ [(32 + s.pick.b, c.ch, c.tag)]))) ∧
  ((∀ (s : State) (core ct : Nat) (b : List Byte) (f : Firing) (bs : List Byte), FiringReads s core ct b f → Wants b f →
     byteAt b 0 ∈ [0, 1, 2, 3, 5] → NamesPlace b f → (nextPiece b f).2 = bs.length →
     SourceHolds s core b (nextPiece b f).1 bs → ReadTo s .readBinding core ct { f with buf := f.buf ++ bs }) ∧
   (∀ (s : State) (core ct : Nat) (b : List Byte) (f : Firing) (w : ChanWord) (ws : List ChanWord), FiringReads s core ct b f →
     Wants b f → byteAt b 0 ≤ 1 → byteAt b 4 = 2 → f.pos < bytesOfFiring b →
     s.portServes (coreCluster core) (numberAt b 8 8) = false → s.ethPort (coreCluster core) (numberAt b 8 8) = false →
     (s.cluster (coreCluster core)).ports.getD (numberAt b 8 8) [] = w :: ws →
     ∃ t, exec .readBinding s = .next t ∧ (t.cluster (coreCluster core)).ports.getD (numberAt b 8 8) [] = ws ∧
       t.mem = s.mem ∧ ((t.core core).template ct).firing = some { f with
         buf := firstBytes [w.word] (min 4 (bytesOfFiring b - f.pos))
         tags := f.tags ++ [w.tag]
         ended := decide (byteAt b 0 = 0 ∧ byteAt b 5 ≠ 2 ∧ w.tag = 3) }) ∧
   (∀ (s : State) (core ct : Nat) (b : List Byte) (f : Firing) (ws rest : List ChanWord), FiringReads s core ct b f →
     Wants b f → byteAt b 0 ∈ [2, 3, 5] → byteAt b 4 = 2 → NamesPlace b f →
     let n := if byteAt b 0 = 5 then min 4 (numberAt b 0x30 4 - f.buf.length) else (nextPiece b f).2
     s.portServes (coreCluster core) (numberAt b 8 8) = false → s.ethPort (coreCluster core) (numberAt b 8 8) = false →
     (s.cluster (coreCluster core)).ports.getD (numberAt b 8 8) [] = ws ++ rest → ws.length = (n + 3) / 4 →
     ∃ t, exec .readBinding s = .next t ∧ (t.cluster (coreCluster core)).ports.getD (numberAt b 8 8) [] = rest ∧
       t.mem = s.mem ∧ ((t.core core).template ct).firing = some { f with
         buf := f.buf ++ firstBytes (ws.map (·.word)) n
         tags := f.tags ++ ws.map (·.tag) }) ∧
   (∀ (s : State) (core ct : Nat) (b : List Byte) (f : Firing) (bs : List Byte), FiringReads s core ct b f →
     (byteAt b 0 = 2 ∨ byteAt b 0 = 3) → f.index = [] → bs.length = 64 →
     let m := f.pos / numberAt b 0x24 2
     Sees s core (numberAt b 0x30 8 + 64 * (m / 16)) bs →
     ReadTo s .readBinding core ct { f with index := (asWords bs).drop (m % 16) }) ∧
   (∀ (s : State) (core ct : Nat) (b : List Byte) (f : Firing) (i : Word) (is : List Word), FiringReads s core ct b f → Wants b f →
     f.index = i :: is → (i = 0xFFFFFFFF#32 ∨ numberAt b 0x38 4 ≤ i.toNat) →
     let e := numberAt b 0x24 2
     let stops := i ≠ 0xFFFFFFFF#32 ∧ (byteAt b 1).testBit 3 = true
     (stops → (byteAt b 0 = 2 ∨ byteAt b 0 = 3) → exec .readBinding s =
       .next (s.firingFault core ct f 0x41 (numberAt b 0x30 8 + 4 * (f.pos / e)) true)) ∧
     (¬stops → byteAt b 0 = 2 → ReadTo s .readBinding core ct { f with
       buf := ((List.range e).map fun j => b.getD (0x20 + j % 4) 0).drop (f.pos % e) }) ∧
     (¬stops → byteAt b 0 = 3 → byteAt b 4 ≠ 2 → ReadTo s .readBinding core ct { f with
       index := is
       pos := f.pos + e
       outOfRange := f.outOfRange + (if i = 0xFFFFFFFF#32 then 0 else 1)
       ended := decide (bytesOfFiring b ≤ f.pos + e) })) ∧
   (∀ (s : State) (core ct : Nat) (b : List Byte) (f : Firing), FiringReads s core ct b f → f.buf = [] → byteAt b 0 = 4 →
     byteAt b 4 ≤ 1 →
     let mode := byteAt b 0x37
     let g := f.pos / 2 ^ 32
     let i := f.pos % 2 ^ 32
     let first := g / segsOf b * segsOf b
     let row (bs : List Byte) : Prop := g % segsOf b = 0 ∧ i = 0 ∧ bs.length = (first + segsOf b - 1) / 8 - first / 8 + 1 ∧
       Sees s core (numberAt b 0x20 8 + first / 8) bs
     let bit (bs : List Byte) (v : Bool) : Prop := (¬MapRead b ∧ bs = [] ∧ v = true) ∨
       (MapRead b ∧ (row bs ∨ ((g % segsOf b ≠ 0 ∨ i ≠ 0) ∧ bs = f.mapRow)) ∧
         v = if bs = [] ∨ i ≠ 0 then f.mapBit else (byteAt bs (g / 8 - first / 8)).testBit (g % 8))
     (∀ bs, bit bs false → ReadTo s .readBinding core ct { f with
       buf := firstBytes [if mode.testBit 3 then 0x80000000#32 else 0xFFFFFFFF#32] 4
       tags := [3]
       mapBit := false
       mapRow := bs
       pos := (g + 1) * 2 ^ 32
       skipped := f.skipped + 1 }) ∧
     (∀ bs, bit bs true → mode.testBit 3 = true → i = 0 → ReadTo s .readBinding core ct { f with
       buf := firstBytes [BitVec.ofNat 32 (sitesOf b g)] 4
       tags := [3]
       mapBit := true
       mapRow := bs
       pos := f.pos + 1 }) ∧
     (∀ bs vs, bit bs true → (mode.testBit 3 = true → i ≠ 0) →
       let j := if mode.testBit 3 then i - 1 else i
       let x := g % segsOf b * segSize b + j
       let y := g / segsOf b
       let place : Option Nat :=
         match brought (mode / 16 % 4) (numberAt b 0x30 2) ((x : Int) - (b.getD 0x38 0).toInt),
           brought (mode / 16 % 4) (numberAt b 0x32 2) ((y : Int) - (b.getD 0x39 0).toInt) with
         | some sx, some sy => some (numberAt b 8 8 + (sy * numberAt b 0x34 2 + sx) * byteAt b 0x36)
         | _, _ => none
       byteAt b 0x36 ∈ [2, 4] → numberAt b 0x30 2 ≠ 0 → numberAt b 0x32 2 ≠ 0 →
       (∀ a, place = some a → vs.length = byteAt b 0x36 ∧ SourceHolds s core b a vs) →
       (place = none → vs = (List.range (byteAt b 0x36)).map fun k => b.getD (0x3C + k) 0) →
       ∀ tag : Byte, (if mode.testBit 6 then
           SourceHolds s core b (numberAt b 8 8 + numberAt b 0x18 4 + y * numberAt b 0x34 2 + x) [tag] else tag = 0) →
       ReadTo s .readBinding core ct { f with
         buf := (List.range 4).map fun k => vs.getD k 0
         tags := [tag.extractLsb' 0 2]
         mapBit := true
         mapRow := bs
         pos := if sitesOf b g ≤ j + 1 then (g + 1) * 2 ^ 32 else f.pos + 1 })) ∧
   (∀ (s : State) (core ct : Nat) (b : List Byte) (f : Firing) (k : Nat) (p : BitVec 2), FiringLands s core ct b f →
     byteAt b 0 ∈ [0, 1, 2, 3] → byteAt b 5 = 0 →
     let a := nextPlace b f
     let m := landsAtOnce b f 65536
     let inPlace : Prop := f.pages.find? (fun x => decide (x.1 = a / 65536)) = none
     0 < m → s.translateAt (coreCluster core) (s.rootAt core) a ⟨false, true, false, s.privAt core⟩ = .ok k p →
     (inPlace → (k / 2 ^ 52 = 2 ∨ p = 2) → ∃ t g, exec .writeLanding s = .next t ∧
       Stored s.mem t.mem k (f.buf.take m) ∧ t.scratch = s.scratch ∧ t.elems = s.elems ∧
       ((t.core core).template ct).firing = some g ∧ Advanced b f g m m) ∧
     (inPlace → k / 2 ^ 52 ≠ 2 → p ≠ 2 → HasRoom s (coreCluster core) k m → ∃ t g, exec .writeLanding s = .next t ∧
       t.mem = s.mem ∧ t.scratch = s.scratch ∧ t.elems = s.elems ∧
       (∀ x, t.copies.find x = if copyKey (coreCluster core) k ≤ x ∧ x < copyKey (coreCluster core) k + m then
         some ⟨f.buf.getD (x - copyKey (coreCluster core) k) 0, true⟩ else s.copies.find x) ∧
       ((t.core core).template ct).firing = some g ∧ Advanced b f g m m) ∧
     (∀ page, f.pages.find? (fun x => decide (x.1 = a / 65536)) = some (a / 65536, page) → s.largePage core a = false →
       ∃ t g, exec .writeLanding s = .next t ∧ Stored s.mem t.mem (physKey 0 (page + a % 65536)) (f.buf.take m) ∧
         t.copies = s.copies ∧ t.scratch = s.scratch ∧ t.elems = s.elems ∧
         ((t.core core).template ct).firing = some g ∧ Advanced b f g m m)) ∧
   (∀ (s : State) (core ct : Nat) (b : List Byte) (f : Firing), FiringLands s core ct b f → byteAt b 0 ∈ [0, 1, 2, 3] →
     byteAt b 5 = 1 →
     let a := nextPlace b f
     let m := landsAtOnce b f (2 ^ 17)
     let k := coreCluster core * 2 ^ 23 + s.rebase core a
     let cairn := byteAt b 6
     0 < m →
     ((byteAt b 0 ≤ 1 → numberAt b 0x20 8 = 0) → s.rebase core a < 2 ^ 23 → s.rebase core (a + m - 1) < 2 ^ 23 →
       ∃ t g, exec .writeLanding s = .next t ∧ Stored s.scratch t.scratch k (f.buf.take m) ∧ t.mem = s.mem ∧
         t.copies = s.copies ∧ t.elems = s.elems ∧
         (cairn < 32 → ((t.core (k / 2 ^ 17)).cairn cairn).landed = ((s.core (k / 2 ^ 17)).cairn cairn).landed ++ [m]) ∧
         ((t.core core).template ct).firing = some g ∧ Advanced b f g m m) ∧
     (∀ q, byteAt b 0 ≤ 1 → numberAt b 0x20 8 ≠ 0 → s.spurAt core = some q →
       let off := numberAt b 0x10 8 % 2 ^ 17 + (a - numberAt b 0x10 8)
       let bits := (List.range 64).filter fun i => (numberAt b 0x20 8).testBit i
       off + m ≤ 2 ^ 17 →
       ∃ t g, exec .writeLanding s = .next t ∧ t.mem = s.mem ∧ t.copies = s.copies ∧ t.elems = s.elems ∧
         (∀ x, t.scratch.read x = if (∃ i ∈ bits, x / 2 ^ 17 = coreCluster core * 64 + q.rebaseCore i) ∧ off ≤ x % 2 ^ 17 ∧
           x % 2 ^ 17 < off + m then f.buf.getD (x % 2 ^ 17 - off) 0 else s.scratch.read x) ∧
         ((t.core core).template ct).firing = some g ∧ Advanced b f g m (m * bits.length))) ∧
   (∀ (s : State) (core ct : Nat) (b : List Byte) (f : Firing), FiringLands s core ct b f → byteAt b 0 ≤ 4 → byteAt b 5 = 2 →
     let port := numberAt b 0x10 8
     let ws := (s.cluster (coreCluster core)).ports.getD port []
     let whole := if MakesWords b ∧ f.pos + f.buf.length < bytesOfFiring b then f.buf.length / 4 else (f.buf.length + 3) / 4
     let n := min (16 - ws.length) whole
     port < 32 → s.portOpen (coreCluster core) port = true → 0 < n →
     ∃ t g, exec .writeLanding s = .next t ∧ t.mem = s.mem ∧ t.elems = s.elems ∧
       (t.cluster (coreCluster core)).ports.getD port [] = ws ++
         (List.range n).map (fun j => ⟨(asWords f.buf).getD j 0, f.tags.getD j 0, 0⟩) ∧
       ((t.core core).template ct).firing = some g ∧ Advanced b f g (min (4 * n) f.buf.length) (4 * n)) ∧
   (∀ (s : State) (core ct : Nat) (b : List Byte) (f : Firing) (p : Spur) (es : List Byte), FiringLands s core ct b f →
     byteAt b 0 = 5 → s.spurAt core = some p → es.length = 4 →
     Sees s core (numberAt b 0x38 8 + 4 * (f.pos / numberAt b 0x30 4)) es →
     let e : Word := BitVec.ofNat 32 (numberAt es 0 4)
     ∃ t g d, exec .writeLanding s = .next t ∧ t.mem = s.mem ∧ t.elems = s.elems ∧ t.deliveries = s.deliveries ++ [d] ∧
       d.package = bitsAt e 23 9 ∧ d.core = bitsAt e 16 7 * 64 + bitsAt e 8 6 ∧ d.ct = bitsAt e 0 5 ∧ d.chunk = true ∧
       d.chain = p.chain ∧ d.fromCore = core ∧ d.fromCt = ct ∧ d.rank = numberAt b 0x36 2 ∧ d.round = f.n ∧ d.bytes = f.buf ∧
       ((t.core core).template ct).firing = some g ∧ Advanced b f g f.buf.length 0 ∧ g.sentChunks = f.sentChunks + 1)) ∧
  ((∀ (s : State) (d : Delivery), s.pick.flag = false → s.deliveries[s.pick.a]? = some d → d.package = s.podId →
     s.firstOfPair s.pick.a d = true →
     (s.armedAt d.core d.ct = true → d.chunk = false →
       exec .peerDeliveryArrival s = .next ((s.dropDelivery s.pick.a).deliverTrigger d)) ∧
     (s.armedAt d.core d.ct = false → exec .peerDeliveryArrival s = .next (s.divert s.pick.a d))) ∧
   (∀ s : State, s.pick.flag = true → s.pick.a < 6144 → s.pick.b < 32 →
     ∃ t d, exec .peerDeliveryArrival s = .next t ∧ t = { s with deliveries := s.deliveries ++ [d] } ∧
       d.core = s.pick.a ∧ d.ct = s.pick.b ∧ d.package = s.podId ∧ d.bytes = s.pick.bytes) ∧
   (∀ (s : State) (d : Delivery), s.deliveries[s.pick.a]? = some d → d.chunk = true → s.firstOfPair s.pick.a d = true →
     d.package ≠ s.podId →
     exec .exchangeChunkArrival s = .next { s.dropDelivery s.pick.a with outside := s.outside ++ [.bytes d.bytes] }) ∧
   (∀ (s u : State) (d : Delivery) (f : Firing), s.deliveries[s.pick.a]? = some d → d.chunk = true →
     s.firstOfPair s.pick.a d = true → d.package = s.podId → s.armedAt d.core d.ct = true → s.heldAt d.core = false →
     let x := (s.core d.core).template d.ct
     x.firing = some f → tbKind x.block = 5 → f.n = d.round → f.faulted = false → d.bytes.length = fieldAt x.block 0x30 4 →
     d.rank < fieldAt x.block 0x34 2 → d.rank ∉ f.gotChunks → s.pick.c ≠ 3 →
     ∀ m, s.landChunk d x.block f = .ok (some (u, m)) →
     (d.bytes.length ≤ m → exec .exchangeChunkArrival s = .next ((u.updFiring d.core d.ct fun f => { f with
       gotChunks := setAdd f.gotChunks d.rank
       written := f.written + (m - d.landed) }).dropDelivery s.pick.a)) ∧
     (m < d.bytes.length → ∃ t, exec .exchangeChunkArrival s = .next t ∧
       t.deliveries = u.deliveries.set s.pick.a { d with landed := m } ∧ t.mem = u.mem)))
/-- R76, R90, R258, R260, R261: a barrier's arrivals are reported and, once every spur of the ridge that uses it has
arrived, those of regions that have gone on included, its words come with the generation of each spur, which advances;
while a spur has not, nothing changes; a col without a holder grants the head of its FIFO with its count of grants; a
drain passes its elements one by one and ends when nothing that it covers is outstanding. What a drain waits for and
that an element's requests to a col keep their order are the model's readings (logs 34 and 46). -/
def Obligations.HubHappenings : Prop :=
  (∀ (s : State) (p : Spur), s.spur? s.pick.a = some p → (∀ q ∈ s.spurs, q.id = p.id → q = p) →
    (p.bars.getD s.pick.b default).need ≠ 0 →
    (p.bars.getD s.pick.b default).need ≤ (p.bars.getD s.pick.b default).count →
    exec .barrierArrivalMessage s = .next (withSpur s p.id (withBar s.pick.b fun x => { x with reported := true }))) ∧
  (∀ (s : State) (c : Chain) (n : Nat), s.chain? s.pick.a = some c →
    (s.stagesOf s.pick.a)[s.pick.c % (s.stagesOf s.pick.a).length]? = some n → s.pick.b < 16 →
    let bar (p : Spur) : BarState := p.bars.getD s.pick.b default
    (∃ p ∈ s.spurs, UsesBarrier s n p) → (∀ p ∈ s.spurs, p.chain = s.pick.a → n ≤ p.stage) →
    (∀ p ∈ s.spurs, UsesBarrier s n p → (bar p).reported = true) →
    (∀ x ∈ c.leftBars, x.1 = n → (x.2.getD s.pick.b default).need ≤ (x.2.getD s.pick.b default).count) →
    (s.spurs.map (·.id)).Nodup →
    (∀ p ∈ s.spurs, ∀ q ∈ s.spurs, UsesBarrier s n p → UsesBarrier s n q → p ≠ q →
      ∀ core, ¬(p.covers core = true ∧ q.covers core = true)) →
    ∃ t, exec .barrierRelease s = .next t ∧ t.elems = s.elems ∧
      Each (fun r q =>
        (∀ p ∈ s.spurs, UsesBarrier s n p → p.covers (elemCore r.elem) = true →
          r.kind = .barrier s.pick.b (bar p).gen.toNat → q = { r with phase := .answered, value := [(bar p).gen] }) ∧
        ((∀ p ∈ s.spurs, UsesBarrier s n p → p.covers (elemCore r.elem) = true →
          r.kind ≠ .barrier s.pick.b (bar p).gen.toNat) → q = r)) s.reqs t.reqs ∧
      Each (fun p q =>
        (UsesBarrier s n p → q = withBar s.pick.b (fun x =>
          { x with gen := x.gen + 1, count := x.count - x.need, reported := false }) p) ∧
        (¬UsesBarrier s n p → q = p)) s.spurs t.spurs ∧
      t.chain? s.pick.a = some { c with leftBars := c.leftBars.map fun x => if x.1 = n then
        (n, x.2.modify s.pick.b fun y => { y with count := y.count - y.need }) else x }) ∧
  (∀ (s : State) (p : Spur), p ∈ s.spurs →
    (s.stagesOf s.pick.a)[s.pick.c % (s.stagesOf s.pick.a).length]? = some p.stage → UsesBarrier s p.stage p →
    (p.bars.getD s.pick.b default).reported = false → exec .barrierRelease s = .next s) ∧
  (∀ (s : State) (p : Spur) (c : Col) (e : Nat × Nat) (rest : List (Nat × Nat)) (r : Req), s.pick.flag = false →
    s.spur? s.pick.a = some p → p.col = some c → c.holder = none → c.fifo = e :: rest → s.grantee p e = some r →
    ∃ t, exec .colGrant s = .next t ∧
      t.spurs = (withSpur s p.id fun p => { p with col := p.col.map fun c =>
        { c with holder := some e.1, fifo := rest, grants := c.grants + 1 } }).spurs ∧
      t.reqs = reqsWith s r.id fun q => { q with phase := .answered, value := [c.grants] }) ∧
  (∀ (s : State) (p : Spur) (d : Drain) (k : Nat) (ks : List Nat), s.spur? s.pick.a = some p → p.drain = some d →
    d.todo = k :: ks → (s.elem k).beat = none →
    exec .drainTokenPass s = .next (withSpur s p.id fun p => { p with drain := some ⟨ks, d.covered ++ s.toDrain k⟩ })) ∧
  (∀ (s : State) (p : Spur) (d : Drain), s.spur? s.pick.a = some p → p.drain = some d → d.todo = [] →
    (∀ n ∈ d.covered, s.outstanding p n = false) →
    ∃ t, exec .drainEnd s = .next t ∧ t.spurs = (withSpur s p.id fun p => { p with drain := none }).spurs ∧
      t.reqs = s.reqs.map fun r => if r.kind = .drain ∧ p.covers (elemCore r.elem) = true then
        { r with phase := .answered, value := [0] } else r)

/-- R104 to R109, R282 to R291, R137, R387: the matrix engine takes its commands in order: a tile's fetch starts when
the tile is empty, and a tile in scratch is full at once; a rule is set when the tiles that it names are empty, an
accumulator is zeroed, read or drained when no operation of it is to come; a sequence's block is read and checked, and
its commands are those that R290 lists. A row binds in the cluster's copies, whose line it pins, or at the home; a tile
whose rows have arrived is full; an accumulator whose two tiles are full adds to each value the exact sum of the
products of a row of A and a row of B, rounded once, and consumes the tiles. A drain writes row after row as words,
blocks or largest columns; it ends once its writes and the earlier ones of its `e0` have landed, a sequence goes on, and
pins are released. The oldest pin of a cluster whose tile still has consumers, held for 2^20 of its firing steps, raises
0x49; the rate of firing steps at a code between those of R332 is the model's free value (log 33). A tile under fetch is
not empty for `mx.rule` (log 32). -/
def Obligations.MatrixHappenings : Prop :=
  (∀ (s : State) (c : Cmd) (cs : List Cmd), s.heldAt s.pick.a = false → (s.mx s.pick.a).draining = none →
    (s.mx s.pick.a).seq = none → (s.mx s.pick.a).queue = c :: cs → NoStorageError s →
    let n := bitsAt c.word 4 6
    (bitsAt c.word 0 4 = 1 → (s.mx s.pick.a).canSetRule n (mxRuleOf (c.ops.getD 0 0)) = true → n < 4 →
      ∃ t, exec .matrixCommandTake s = .next t ∧ (t.mx s.pick.a).queue = cs ∧
        (t.mx s.pick.a).rule n = mxRuleOf (c.ops.getD 0 0) ∧ (t.mx s.pick.a).acc = (s.mx s.pick.a).acc) ∧
    (bitsAt c.word 0 4 = 2 → (s.mx s.pick.a).opPending n = false →
      ∃ t, exec .matrixCommandTake s = .next t ∧ (t.mx s.pick.a).queue = cs ∧
        (∀ r v, r < 32 → v < 32 → (t.mx s.pick.a).value n r v = 0) ∧
        (∀ m r v, m ≠ n → r < 32 → v < 32 → (t.mx s.pick.a).value m r v = (s.mx s.pick.a).value m r v)) ∧
    (bitsAt c.word 0 4 = 3 → (s.mx s.pick.a).opPending n = false → (s.mx s.pick.a).accBad.getLsbD n = false →
      NoReadError s → ∃ t q, exec .matrixCommandTake s = .next t ∧ (t.mx s.pick.a).queue = cs ∧ t.reqs = s.reqs ++ [q] ∧
        q.dst = c.dst ∧ q.elem = c.elem ∧ q.phase = .answered ∧
        q.value = (if (c.ops.getD 0 0).getLsbD 10 then
          (List.range 32).map fun v => (s.mx s.pick.a).value n (bitsAt (c.ops.getD 0 0) 0 5) v
          else [(s.mx s.pick.a).value n (bitsAt (c.ops.getD 0 0) 0 5) (bitsAt (c.ops.getD 0 0) 5 5)])) ∧
    (bitsAt c.word 0 4 = 4 → (s.mx s.pick.a).opPending n = false → (s.mx s.pick.a).accBad.getLsbD n = false →
      NoReadError s → ∃ t, exec .matrixCommandTake s = .next t ∧ (t.mx s.pick.a).queue = cs ∧
        (t.mx s.pick.a).draining = some (c, 0) ∧ (t.mx s.pick.a).acc = (s.mx s.pick.a).acc)) ∧
  (∀ s : State, s.pick.b < 8 →
    let x := (s.mx s.pick.a).tile s.pick.b
    x.loading = true → x.arrived = 0xFFFFFFFF → x.consumers = 0 → (s.mx s.pick.a).seq = none →
    (s.mx s.pick.a).consumersOf s.pick.b ≠ 0 →
    ∃ t, exec .tileFillComplete s = .next t ∧ (t.mx s.pick.a).tile s.pick.b = { x with
      full := true
      loading := false
      consumers := (s.mx s.pick.a).consumersOf s.pick.b
      fill := s.tick }) ∧
  (∀ s : State, ((s.mx s.pick.a).tile s.pick.b).full = false → ((s.mx s.pick.a).tile s.pick.b).loading = false →
    ∃ t, exec .pinRelease s = .next t ∧ t.pins = (s.pins.filter fun p => !decide (p.core = s.pick.a ∧ p.tile = s.pick.b)) ∧
      t.mem = s.mem ∧ t.copies = s.copies) ∧
  (∀ (s : State) (before after : List Pin) (p : Pin), s.pins = before ++ p :: after → p.cluster = s.pick.a →
    let active (q : Pin) : Prop := q.cluster = s.pick.a ∧ ((s.mx q.core).tile q.tile).active = true
    active p → (∀ q ∈ before, active q → p.since < q.since) → (∀ q ∈ after, active q → p.since ≤ q.since) →
    p.since + 2 ^ 20 ≤ s.clusterSteps s.pick.a →
    let x := (s.mx p.core).tile p.tile
    exec .pinHoldTimeout s = .next (s.stopSpur x.cmd.elem x.cmd.slot x.cmd.handler x.cmd.word x.cmd.ext x.cmd.step 0x49 0)) ∧
  (∀ (s : State) (n : Nat),
    let m := s.mx s.pick.a
    let r := m.rule n
    let a := m.tile r.ta.toNat
    let b := m.tile (4 + r.tb.toNat)
    n < 4 → m.opReady n = true → m.accBad.getLsbD n = false → NoReadError s → NoStorageError s → (∀ j, j < n → m.opReady j = false) →
    s.scratchPoison = [] → m.acc.wf = true → a.addrs.length = 32 → b.addrs.length = 32 → a.rows.length = 2048 →
    b.rows.length = 2048 →
    (∀ x, some x ∈ rowsOf s s.pick.a a ∨ some x ∈ rowsOf s s.pick.a b → byteAt x 0 ∈ formatsOf r.group.toNat) →
    ∃ t, exec .matrixOperation s = .next t ∧ t.mem = s.mem ∧ t.elems = s.elems ∧ t.reqs = s.reqs ∧
      (∀ i j, i < 32 → j < 32 → (t.mx s.pick.a).value n i j =
        match (rowsOf s s.pick.a a).getD i none, (rowsOf s s.pick.a b).getD j none with
        | some x, some y => afterBlocks (m.value n i j) x y
        | _, _ => m.value n i j) ∧
      (∀ k i j, k ≠ n → i < 32 → j < 32 → (t.mx s.pick.a).value k i j = m.value k i j) ∧
      ∀ k, k = r.ta.toNat ∨ k = 4 + r.tb.toNat →
        (1 < (m.tile k).consumers → ((t.mx s.pick.a).tile k).full = true ∧
          ((t.mx s.pick.a).tile k).consumers = (m.tile k).consumers - 1) ∧
        ((m.tile k).consumers ≤ 1 → ((t.mx s.pick.a).tile k).full = false ∧ ((t.mx s.pick.a).tile k).loading = false)) ∧
  (∀ (old : Word) (x y : List Byte), let ps := List.zipWith Machine.Num.mul (elementsOf x) (elementsOf y)
    ((.nan ∈ ps ∨ (.inf true ∈ ps ∧ .inf false ∈ ps)) → afterBlocks old x y = 0x7FC00000#32) ∧
    (isNaN old = true → isNaN (afterBlocks old x y) = true) ∧
    (∀ g, .nan ∉ ps → .inf g ∈ ps → .inf (!g) ∉ ps → isNaN old = false →
      afterBlocks old x y = toF32 ((val32 old).add (.inf g)))) ∧
  (∀ (s : State) (c : Cmd) (cs : List Cmd), s.heldAt s.pick.a = false → (s.mx s.pick.a).draining = none →
    (s.mx s.pick.a).seq = none → (s.mx s.pick.a).queue = c :: cs → NoStorageError s →
    let n := bitsAt c.word 4 6
    let wide := c.word.getLsbD 26
    let scratch := wide && c.ext.getLsbD 27
    let rows := (List.range 32).map fun i =>
      some (ofPair c.ops + i * 64 * (if wide = true then bitsAt c.ext 0 20 else 1))
    (bitsAt c.word 0 4 = 0 → n < 8 → TileEmpty s s.pick.a n → RowsOk s s.pick.a scratch rows →
      ∃ t, exec .matrixCommandTake s = .next t ∧ (t.mx s.pick.a).queue = cs ∧ (t.mx s.pick.a).acc = (s.mx s.pick.a).acc ∧
        FillStarts s t s.pick.a n scratch rows c ((s.mx s.pick.a).consumersOf n)) ∧
    (∀ bs : List Byte, (bitsAt c.word 0 4 = 5 ∨ bitsAt c.word 0 4 = 6) → Unmarked s → bs.length = 64 →
      Sees s s.pick.a (ofPair c.ops) bs →
      let conv := decide (bitsAt c.word 0 4 = 6)
      (SequenceBlock conv bs → ∃ t, exec .matrixCommandTake s = .next t ∧ (t.mx s.pick.a).queue = cs ∧ t.reqs = s.reqs ∧
        (t.mx s.pick.a).seq = some ⟨c, conv, bs, 0, 0, false⟩) ∧
      (¬SequenceBlock conv bs → ∃ u : State, exec .matrixCommandTake s = .next (u.cmdFault c 0x40 0) ∧
        u = { s with cores := u.cores } ∧ (u.mx s.pick.a).queue = cs ∧ (u.mx s.pick.a).seq = none))) ∧
  (∀ (s : State) (q : Seq), s.heldAt s.pick.a = false → (s.mx s.pick.a).draining = none → (s.mx s.pick.a).seq = some q →
    NoStorageError s →
    let m := s.mx s.pick.a
    let n := byteAt q.block 1
    let flags := byteAt q.block 3
    let setup := if flags.testBit 0 then 2 * n else n
    let goesOn (t : State) : Prop := (t.mx s.pick.a).seq = some { q with step := q.step + 1 } ∧ (t.mx s.pick.a).queue = m.queue
    let bRows (j : Nat) : List (Option Nat) := (List.range 32).map fun i => some (numberAt q.block 0x10 8 +
      j * numberAt q.block 0x20 4 + q.kb * numberAt q.block 0x28 4 + i * numberAt q.block 0x1C 4)
    (q.step < n → n ≤ 4 → m.canSetRule q.step ⟨true, BitVec.ofNat 3 (byteAt q.block 2), 0, BitVec.ofNat 2 q.step⟩ = true →
      ∃ t, exec .matrixCommandTake s = .next t ∧ goesOn t ∧
        (t.mx s.pick.a).rule q.step = ⟨true, BitVec.ofNat 3 (byteAt q.block 2), 0, BitVec.ofNat 2 q.step⟩) ∧
    (n ≤ q.step → q.step < setup → m.opPending (q.step - n) = false →
      ∃ t, exec .matrixCommandTake s = .next t ∧ goesOn t ∧
        (∀ i j, i < 32 → j < 32 → (t.mx s.pick.a).value (q.step - n) i j = 0) ∧
        ∀ k i j, k ≠ q.step - n → i < 32 → j < 32 → (t.mx s.pick.a).value k i j = m.value k i j) ∧
    (q.step = setup → 1 ≤ n → TileEmpty s s.pick.a 0 →
      let rows := (List.range 32).map (sequenceRow q.conv q.block q.kb)
      RowsOk s s.pick.a (flags.testBit 1) rows →
      ∃ t, exec .matrixCommandTake s = .next t ∧ goesOn t ∧ FillStarts s t s.pick.a 0 (flags.testBit 1) rows q.cmd n) ∧
    (∀ j, q.step = setup + 1 + j → j < n → n ≤ 4 → TileEmpty s s.pick.a (4 + j) →
      RowsOk s s.pick.a (flags.testBit 2) (bRows j) →
      ∃ t, exec .matrixCommandTake s = .next t ∧ goesOn t ∧
        FillStarts s t s.pick.a (4 + j) (flags.testBit 2) (bRows j) q.cmd (m.consumersOf (4 + j)))) ∧
  (∀ (s : State) (c : Cmd) (r : Nat), (s.mx s.pick.a).draining = some (c, r) → s.heldAt s.pick.a = false → NoStorageError s →
    let m := s.mx s.pick.a
    let x := c.ext
    let acc := bitsAt c.word 4 6
    let mode := bitsAt x 14 2
    let count := if mode = 2 then 1 else 32
    let len := if mode = 1 ∧ bitsAt x 0 8 ≠ 0x31 ∧ bitsAt x 0 8 ≠ 0x32 then 64 else 128
    let at_ := if mode = 2 then ofPair c.ops else ofPair c.ops + r * 64 * bitsAt x 20 8
    mode ≠ 3 → (mode = 1 → bitsAt x 0 8 ∈ [0x11, 0x12, 0x14, 0x21, 0x22, 0x31, 0x32]) → r < count →
    ∃ t qs bs, exec .matrixCommandTake s = .next t ∧ t.reqs = s.reqs ++ qs ∧ DrainHolds m acc x r bs ∧ bs.length = len ∧
      qs.length = len / 64 ∧
      (∀ i q, qs[i]? = some q → q.kind = .mxDrain s.pick.a ∧ q.elem = c.elem ∧ q.group = c.group ∧ q.size = 64 ∧
        q.va = BitVec.ofNat 64 (at_ + 64 * i) ∧ firstBytes q.ops 64 = (bs.drop (64 * i)).take 64 ∧
        (x.getLsbD 13 = false → q.space = 0 ∧ q.phase = .sent) ∧
        (x.getLsbD 13 = true → q.space = 1 ∧ q.phase = .ready ∧
          q.pa = some (coreCluster s.pick.a * 2 ^ 23 + s.rebase s.pick.a (at_ + 64 * i)))) ∧
      (r + 1 < count → (t.mx s.pick.a).draining = some (c, r + 1) ∧ (t.mx s.pick.a).acc = m.acc ∧
        (t.mx s.pick.a).drains = m.drains) ∧
      (r + 1 = count → (t.mx s.pick.a).draining = none ∧
        (∃ d, (t.mx s.pick.a).drains = m.drains ++ [d] ∧ d.cmd = c ∧ d.scope = x.extractLsb' 17 3) ∧
        ∀ k i j, i < 32 → j < 32 → (t.mx s.pick.a).value k i j =
          if x.getLsbD 16 = true ∧ k = acc then 0 else m.value k i j)) ∧
  (∀ (s : State) (r : Req) (k core : Nat), Concerns s r → r.kind = .mxDrain core → r.pa = some k → r.phase = .ready →
    Unmarked s → MemoryInv s → r.ops.length = 16 →
    let bs := firstBytes r.ops 64
    (r.space ≠ 0 → ∃ t, exec .writeLanding s = .next t ∧ Stored s.scratch t.scratch k bs ∧ t.mem = s.mem ∧
      t.copies = s.copies ∧ t.reqs = reqsWithout s r.id) ∧
    (r.space = 0 → (r.policy = 2 ∨ k / 2 ^ 52 = 2) → r.atHome = true → ∃ t, exec .writeLanding s = .next t ∧
      Stored s.mem t.mem k bs ∧ t.scratch = s.scratch ∧ t.reqs = reqsWithout s r.id) ∧
    (r.space = 0 → r.policy ≠ 2 → k / 2 ^ 52 ≠ 2 → r.atHome = false → HasRoom s (elemCluster r.elem) k 64 →
      ∃ t, exec .writeLanding s = .next t ∧ t.mem = s.mem ∧ t.scratch = s.scratch ∧
        (∀ x, t.copies.find x = if copyKey (elemCluster r.elem) k ≤ x ∧ x < copyKey (elemCluster r.elem) k + 64 then
          some ⟨bs.getD (x - copyKey (elemCluster r.elem) k) 0, true⟩ else s.copies.find x) ∧
        t.reqs = reqsWith s r.id fun q => { q with phase := .landed })) ∧
  (∀ (s : State) (r : Req) (k core n i : Nat), Concerns s r → r.kind = .tile core n i → r.pa = some k → r.phase = .ready →
    r.space = 0 → n < 8 → i < 32 → k % 64 = 0 → Unmarked s → NoReadError s → s.heldAt core = false →
    ((s.mx core).tile n).rows.length = 2048 → HasRoom s (coreCluster core) k 64 →
    ∃ t, exec .readBinding s = .next t ∧ t.mem = s.mem ∧ t.reqs = reqsWithout s r.id ∧
      ((t.mx core).tile n).arrived.getLsbD i = true ∧
      ((t.mx core).tile n).rows = (List.range 2048).map (fun j => if 64 * i ≤ j ∧ j < 64 * i + 64 then
          (match (if r.atHome = true then none else s.copyByte? (coreCluster core) (k + (j - 64 * i))) with
            | some c => c.val
            | none => s.mem.read (k + (j - 64 * i)))
        else ((s.mx core).tile n).rows.getD j 0) ∧
      (r.atHome = true → t.pins = [] ∧ t.copies = s.copies) ∧
      (r.atHome = false → ∃ p, t.pins = [p] ∧ p.cluster = coreCluster core ∧ p.sector = k / 64 ∧ p.core = core ∧ p.tile = n)) ∧
  (∀ (s : State) (d : MxDrain) (ds : List MxDrain), (s.mx s.pick.a).drains = d :: ds → s.drainOpen d = false →
    d.scope.toNat < 3 → (∀ q ∈ s.reqs, q.elem = d.cmd.elem → q.kind.writes = true → q.phase = .landed) →
    (∀ q ∈ s.replayed, q.elem ≠ d.cmd.elem) →
    ∃ t q, exec .matrixDrainDone s = .next t ∧ (t.mx s.pick.a).drains = ds ∧ t.reqs = s.reqs ++ [q] ∧ q.dst = d.cmd.dst ∧
      q.elem = d.cmd.elem ∧ q.phase = .answered ∧ q.value = [0]) ∧
  (∀ (s : State) (q : Seq), (s.mx s.pick.a).seq = some q → q.issued = true →
    (∀ n, n < q.n → (s.mx s.pick.a).opPending n = false) → s.heldAt s.pick.a = false →
    (q.stop = true ∨ q.kb + 1 = q.nk → ∃ t x, exec .mseqKblockBoundary s = .next t ∧ (t.mx s.pick.a).seq = none ∧
      t.reqs = s.reqs ++ [x] ∧ x.dst = q.cmd.dst ∧ x.value = [BitVec.ofNat 32 (q.kb + 1)]) ∧
    (q.stop = false → q.kb + 1 ≠ q.nk → ∃ t, exec .mseqKblockBoundary s = .next t ∧ t.reqs = s.reqs ∧
      (t.mx s.pick.a).seq = some { q with kb := q.kb + 1, step := q.setup }))

namespace Sys2Proof.Claims

/-! ## Islands -/

/-- The raster island of the cluster that a happening names. -/
def rasterAt (s : State) : Raster := (s.cluster s.pick.a).raster

/-- The sampler of the cluster that a happening names. -/
def samplerAt (s : State) : Sampler := (s.cluster s.pick.a).sampler

/-- Words that an output queue of an island of the named cluster has gained. -/
def Gained (s t : State) (pos q : Nat) (ws : List ChanWord) : Prop :=
  (t.cluster s.pick.a).edgeOut.find (edgeKey pos q) =
    some (((s.cluster s.pick.a).edgeOut.find (edgeKey pos q)).getD [] ++ ws)

/-- A command is answered: a request that holds its result stands behind the others. -/
def AnswersCmd (s t : State) (c : Cmd) (ws : List Word) : Prop :=
  ∃ q, t.reqs = s.reqs ++ [q] ∧ q.dst = c.dst ∧ q.elem = c.elem ∧ q.phase = .answered ∧ q.value = ws

/-- The words that stand in a reply queue of the traversal island of the named cluster. -/
def replies (s : State) (r : TrReq) : List ChanWord := ((s.cluster s.pick.a).edgeIn.find (edgeKey 4 r.inQ)).getD []

/-- A sample's destination has room for exactly its n words: its slot was not bound anew after the rule fired (R294). -/
def FitsWords : Dst → Nat → Prop
  | .none, _ => True
  | .reg _, n => n < 2
  | .pair _, n => 2 ≤ n
  | .out _ hs, n => hs.length = n

/-- The request that a happening of the traversal island concerns; its chain runs. -/
def Traverses (s : State) (r : TrReq) : Prop :=
  s.ray? s.pick.a s.pick.b = some r ∧ s.heldAt (elemCore r.cmd.elem) = false

/-- A weight-cache entry is in use: a slot of those given is bound to it, or a sample in flight uses it (R184). -/
def InUse (slots : List SamplerSlot) (p : Sampler) (e : WeightEntry) : Prop :=
  (∃ b ∈ slots, b.names e = true) ∨ ∃ x ∈ p.flight, x.slot.names e = true

end Sys2Proof.Claims

/-- R163 to R169: the raster and blend islands bin primitives as far as they fit, put out the covered pixels of the bins
as visibility updates or as three-word fragments with a ticket, retire tickets in order, answer attributes, and complete
a flush when nothing of the draw is left, where no bit error is met (log 48) and the bins' owner answers (log 35). The
order of its computations, the bin buffer's bytes and what an overwritten setup makes are the model's (log 16). -/
def Obligations.RasterHappenings : Prop :=
  ∀ s : State,
    let r := rasterAt s
    let core := elemCore r.cmd.elem
    let a := fieldAt r.block 0x20 8 + r.used
    (∀ (c : Cmd) (cs : List Cmd) (ws : List Word), r.attrs = c :: cs → s.visAttr c = .ok ws → NoStorageError s →
      exec .visAttrResult s = .next ((s.updRaster s.pick.a fun r => { r with attrs := cs }).deliver c.elem 0 c.dst
        (fun i => some (if i + 1 = ws.length then 3 else 0)) ws)) ∧
    (∀ (c : Cmd) (b : List Byte), s.readBinding (elemCore c.elem) (baseOf c.ops) = .ok b → c.ops.getD 2 0 = 0xFFFFFFFF →
      c.ops.getD 3 0 = 0xFFFFFFFF → s.visAttr c = .ok [0xFFFFFFFF]) ∧
    (∀ (vs : List Vertex) (ps : List Piece), r.isOpen = true → r.flushing = false → r.stalled = false → s.heldAt core = false →
      r.next = r.last → s.readPrimitive core r.block r.inst.toNat r.next = .ok (some vs) →
      let need := 64 + 8 * (tilesOf r.block vs).length
      r.used + need ≤ fieldAt r.block 0x28 4 → s.writePieces core a need = .ok ps →
      (∀ p ∈ ps, s.pinnedPiece s.pick.a p = false) → NoStorageError s → s.pick.c ≠ 3 →
      let u := s.landPieces s.pick.a ps (binBytes s.tick a need)
      ∃ t, exec .binFlush s = .next t ∧ t.mem = u.mem ∧ t.copies = u.copies ∧ rasterAt t = { r with
        next := r.next + 1
        used := r.used + need
        binned := r.binned ++ [⟨r.next, vs, a, binBytes s.tick a need⟩]
        flushing := true
        tile := 0
        entry := 0
        pixel := 0 }) ∧
    (∀ (e : Binned) (k : Nat) (vs : Option (List Vertex)) (l : List (Nat × Nat)), r.isOpen = true → r.flushing = true →
      r.stalled = false → s.heldAt core = false → r.tile < gbTilesX r.block * gbTilesY r.block →
      r.binned[r.entry]? = some e → s.setupOf core e = .ok vs → (vs.isSome = true → r.tile ∈ tilesOf r.block e.verts) →
      s.nextPixel core r.block vs r.tile (1024 - r.pixel) r.pixel = .ok (some (k, l)) → NoStorageError s →
      let prim := r.primOf s.tick e vs
      (vs.isSome = true → prim = e.prim) ∧
      let x := r.tile % gbTilesX r.block * 32 + k % 32
      let y := r.tile / gbTilesX r.block * 32 + k / 32
      (∀ u, gbMode r.block = 0 → s.visUpdate core r.cmd.group r.block r.inst.toNat prim x y l = .ok (some u) →
        exec .fragmentEmit s = .next (u.updRaster s.pick.a fun r => { r with pixel := k + 1 })) ∧
      (gbMode r.block ≠ 0 → r.tickets.length < 1024 →
        ∃ t cover, exec .fragmentEmit s = .next t ∧ t.mem = s.mem ∧
          Gained s t 5 r.queue.toNat [⟨BitVec.ofNat 32 (y * 65536 + x), 0, 0⟩,
            ⟨BitVec.ofNat 32 (prim * 2 ^ 12 + cover.toNat * 2 ^ 8), 0, 0⟩,
            ⟨BitVec.ofNat 32 (r.nextTicket * 2 ^ 20 + r.inst.toNat), 1, 0⟩] ∧
          (∀ i, i < 4 → (cover.getLsbD i = true ↔ ∃ d, (i, d) ∈ l)) ∧
          rasterAt t = { r with
            pixel := k + 1
            nextTicket := (r.nextTicket + 1) % 1024
            tickets := r.tickets ++ [⟨r.nextTicket, BitVec.ofNat 32 (y * 65536 + x), cover, none⟩] })) ∧
    (∀ (x : Ticket) (xs : List Ticket) (c : Cmd), r.tickets = x :: xs → x.answer = some c → NoStorageError s →
      ((c.ops.getD 0 0).getLsbD 31 = true → ∃ t, exec .ticketRetire s = .next t ∧ t.mem = s.mem ∧
        rasterAt t = { r with tickets := xs }) ∧
      (∀ u, (c.ops.getD 0 0).getLsbD 31 = false →
        s.blendSamples core r.cmd.group r.block (bitsAt x.pixel 0 16) (bitsAt x.pixel 16 16) (c.ops.drop 1)
          ((List.range 4).filter fun i => x.cover.getLsbD i) = .ok (some u) →
        exec .ticketRetire s = .next (u.updRaster s.pick.a fun r => { r with tickets := xs }))) ∧
    (∀ c : Cmd, r.flush = some c → r.last < r.next → r.binned = [] → r.flushing = false → r.tickets = [] →
      r.stalled = false → (gbScope r.block).toNat < 3 →
      (∀ q ∈ s.earlierWrites { c.toReq s.nextId with rel := true, scope := gbScope r.block }, q.phase = .landed) →
      (∀ q ∈ s.replayed, q.elem ≠ c.elem) →
      ∃ t, exec .drawFlushComplete s = .next t ∧ (rasterAt t).isOpen = false ∧ (rasterAt t).attrs = r.attrs ∧
        (t.core (elemCore c.elem)).drawOpen = false ∧ AnswersCmd s t c [0] ∧ t.mem = s.mem)

/-- R157, R158, R170, R184, R293 to R297: an island takes a request from the head of a command link of its cluster and
remembers that link for its round robin. The traversal island loads a node format, takes a ray, walk or march with a
free ticket, which it answers, and a `tr.res` for a kept ray; the raster island a draw with its binding, when no draw is
open, and a flush of its open draw; the blend island the answer of an open ticket; the sampler a binding of a slot,
behind which the dropped entries that are in use no more leave at once, a `wt.ld` when none waits, a `wt.drop`, and a
sample with the binding of its slot. A sample whose slot is bound anew fits its result then (log 56), which is not
stated here.

R183, R184, R293, R392: a weight table is read into a free place once no entry of its pair is in use, a dropped entry
goes once it is not in use, a poisoned one at once; a sample completes with its words in the order of its element. The
order of its computations is the model's reading (log 17). -/
def Obligations.IslandsAndSampler : Prop :=
  (∀ (s : State) (k : Nat) (c : Cmd) (cs : List Cmd),
     let pos := 4 + s.pick.b % 4
     k / 64 = s.pick.a → (s.core k).queued pos = c :: cs → s.heldAt k = false → NoStorageError s →
     (∀ j, j / 64 = s.pick.a → j ≠ k → (s.core j).queued pos = []) →
     let taken (t : State) : Prop := exec .islandRequestAccept s = .next t ∧ (t.core k).queued pos = cs ∧
       (t.cluster s.pick.a).turn.find pos = some (k % 64)
     let at_ := ofPair c.ops
     (∀ bs : List Byte, pos = 4 → bitsAt c.word 0 4 = 0 → Unmarked s → bs.length = 32 → Sees s k at_ bs → fmtOk bs = true →
       ∃ t, taken t ∧ (t.cluster s.pick.a).fmts.getD (bitsAt c.word 4 3) none = some bs ∧
         (∀ n, n ≠ bitsAt c.word 4 3 → (t.cluster s.pick.a).fmts.getD n none = (s.cluster s.pick.a).fmts.getD n none) ∧
         (t.cluster s.pick.a).nodePoison = [] ∧ (t.cluster s.pick.a).rays = (s.cluster s.pick.a).rays) ∧
     (∀ (bs : List Byte) (kind : Nat), pos = 4 → bitsAt c.word 0 4 = kind → 1 ≤ kind → kind ≤ 3 → Unmarked s → at_ % 64 = 0 →
       bs.length = 64 → Sees s k at_ bs → trBlockOk kind bs = true →
       let fmt := (s.cluster s.pick.a).fmts.getD (bitsAt c.word 4 3) none
       (kind ≠ 3 → fmt.isSome = true) →
       (∀ r ∈ (s.cluster s.pick.a).rays, r.cmd.group ≠ c.group ∧ r.ticket ≠ s.pick.c ∧
         (kind ≠ 1 → r.kind ≠ 1 → byteAt r.block 0x30 ≠ byteAt bs 0x30)) → s.pick.c < 1024 →
       ∃ t r, taken t ∧ (t.cluster s.pick.a).rays = (s.cluster s.pick.a).rays ++ [r] ∧ r.ticket = s.pick.c ∧ r.kind = kind ∧
         r.cmd = c ∧ r.block = bs ∧ r.fmt = fmt.getD [] ∧ r.state = .running ∧ r.t1 = BitVec.ofNat 32 (numberAt bs 0x1C 4) ∧
         r.res = none ∧
         (kind ≠ 3 → r.stack = [(numberAt bs 0x20 8, if kind = 1 then BitVec.ofNat 32 (numberAt bs 0x0C 4) else 0, 0, false)]) ∧
         AnswersCmd s t c [BitVec.ofNat 32 s.pick.c]) ∧
     (∀ r, pos = 4 → bitsAt c.word 0 4 = 4 → s.ray? s.pick.a (c.ops.getD 0 0).toNat = some r → r.kind = 1 →
       numberAt r.block 0x28 8 = 0 → r.res = none →
       ∃ t, taken t ∧ t.ray? s.pick.a (c.ops.getD 0 0).toNat = some { r with res := some c } ∧ t.reqs = s.reqs) ∧
     (∀ bs : List Byte, pos = 5 → bitsAt c.word 0 4 = 0 → (rasterAt s).isOpen = false → Unmarked s → at_ % 64 = 0 →
       bs.length = 128 → Sees s k at_ bs → bindingOk bs = true →
       let first := (c.ops.getD 2 0).toNat
       let count := (c.ops.getD 3 0).toNat
       1 ≤ count → first + count - 1 ≤ 0xFFFFE →
       ∃ t, taken t ∧ (t.core k).drawOpen = true ∧ rasterAt t = { (default : Raster) with
         isOpen := true
         cmd := c
         block := bs
         inst := BitVec.ofNat 20 (bitsAt c.ext 0 20)
         queue := BitVec.ofNat 2 (bitsAt c.ext 20 2)
         next := first
         last := first + count - 1
         attrs := (rasterAt s).attrs }) ∧
     (pos = 5 → bitsAt c.word 0 4 = 0 → (rasterAt s).isOpen = true → (rasterAt s).cmd.group ≠ c.group →
       exec .islandRequestAccept s = .next s) ∧
     (∀ bs : List Byte, pos = 7 → bitsAt c.word 0 4 = 0 → Unmarked s → bs.length = 32 → Sees s k at_ bs → textureOk bs = true →
       let slots := (samplerAt s).slots.setIfInBounds (bitsAt c.word 4 4) { (default : SamplerSlot) with
         bound := true
         addr := at_
         desc := bs
         table := c.ext.extractLsb' 22 6
         version := c.ext.extractLsb' 6 16
         filter := c.ext.extractLsb' 4 2 }
       ∃ (t : State) (gone : List Nat), taken t ∧ samplerAt t = { samplerAt s with slots := slots } ∧
         t.agenda = gone.map (fun i => (Instr.weightEntryRemove, { (default : Pick) with a := s.pick.a, b := i })) ++ s.agenda ∧
         gone.Pairwise (· > ·) ∧
         ∀ i, i ∈ gone ↔ ∃ e, (samplerAt s).weights[i]? = some e ∧ e.dropped = true ∧ ¬InUse slots.toList (samplerAt s) e) ∧
     (pos = 7 → bitsAt c.word 0 4 = 1 → (samplerAt s).waiting = [] →
       ∃ t, taken t ∧ samplerAt t = { samplerAt s with waiting := [c] }) ∧
     (pos = 7 → bitsAt c.word 0 4 = 1 → (samplerAt s).waiting ≠ [] → exec .islandRequestAccept s = .next s) ∧
     (pos = 7 → bitsAt c.word 0 4 = 2 →
       let named (e : WeightEntry) : Prop := e.table.toNat = bitsAt c.word 4 6 ∧
         (c.word.getLsbD 26 = true → e.version.toNat = bitsAt c.ext 0 16)
       ∃ t, taken t ∧ samplerAt t = { samplerAt s with weights := (samplerAt t).weights } ∧
         ∀ e, e ∈ (samplerAt t).weights ↔ ∃ d ∈ (samplerAt s).weights,
           (¬named d ∧ e = d) ∨ (named d ∧ InUse (samplerAt s).slots.toList (samplerAt s) d ∧ e = { d with dropped := true })) ∧
     (pos = 5 → bitsAt c.word 0 4 = 1 → (rasterAt s).isOpen = true → (rasterAt s).cmd.elem = c.elem →
       (rasterAt s).flush = none → ∃ t, taken t ∧ rasterAt t = { rasterAt s with flush := some c }) ∧
     (pos = 6 → s.ticketOpen s.pick.a (bitsAt (c.ops.getD 0 0) 0 10) = true →
       ∃ t, taken t ∧ rasterAt t = { rasterAt s with
         tickets := (rasterAt s).tickets.map fun x =>
           if x.ticket = bitsAt (c.ops.getD 0 0) 0 10 then { x with answer := some c } else x }) ∧
     (pos = 7 → bitsAt c.word 0 4 = 3 →
       let b := (samplerAt s).slots.getD (bitsAt c.word 4 4) ⟨false, 0, [], 0, 0, 0⟩
       (∃ e ∈ (samplerAt s).weights, b.bound = true ∧ b.table = e.table ∧ b.version = e.version) →
       FitsWords c.dst ((byteAt b.desc 14 + 1) / 2) →
       ∃ t, taken t ∧ samplerAt t = { samplerAt s with flight := (samplerAt s).flight ++ [⟨c, false, b⟩] })) ∧
  (∀ s : State,
     let p := samplerAt s
     (∀ (c : Cmd) (cs : List Cmd) (bs : List Byte), p.waiting = c :: cs → s.heldAt (elemCore c.elem) = false →
       let others := p.weights.filter fun e =>
         !decide (e.table.toNat = bitsAt c.word 4 6 ∧ e.version.toNat = bitsAt c.ext 0 16)
       others = p.weights → others.length < 16 → NoStorageError s → s.engRead (elemCore c.elem) (baseOf c.ops) 2048 = .ok bs →
       ∃ t, exec .weightLoadBind s = .next t ∧ AnswersCmd s t c [0] ∧ samplerAt t = { p with
         waiting := cs
         weights := others ++ [⟨BitVec.ofNat 6 (bitsAt c.word 4 6), BitVec.ofNat 16 (bitsAt c.ext 0 16), bs, false⟩] }) ∧
     (∀ e, p.weights[s.pick.b]? = some e → e.dropped = true → (∀ b ∈ p.slots.toList, b.names e = false) →
       (∀ x ∈ p.flight, x.slot.names e = false) →
       ∃ t, exec .weightEntryRemove s = .next t ∧ samplerAt t = { p with weights := p.weights.eraseIdx s.pick.b }) ∧
     (∃ t, exec .weightEntryPoison s = .next t ∧ samplerAt t = { p with weights := p.weights.eraseIdx s.pick.b }) ∧
     (∀ (x : Sample) (e : WeightEntry) (n : Nat) (w : Word), p.flight[s.pick.b]? = some x →
       (∀ y ∈ p.flight.take s.pick.b, y.cmd.elem ≠ x.cmd.elem) → p.entry? x.slot = some e →
       s.sampleWords x e.bytes = .ok [w] → NoStorageError s → x.cmd.dst = .reg n → n < 16 →
       ∃ t, exec .sampleComplete s = .next t ∧ samplerAt t = { p with flight := p.flight.eraseIdx s.pick.b } ∧
         (t.elem x.cmd.elem).reg n = w ∧ RegsAsBeforeBut (s.elem x.cmd.elem) (t.elem x.cmd.elem) [n] ∧
         OthersAsBefore s t x.cmd.elem ∧ t.mem = s.mem) ∧
     (∀ (x : Sample) (w : List Byte), x.dec = false → (val32 (x.cmd.ops.getD 0 0)).finite = false →
       byteAt x.slot.desc 14 = 1 → s.sampleWords x w = .ok [0x00007E00]))
/-- R172 to R178, R296, R297, R393: a ray leaves out what lies beyond its nearest hit, asks at a user leaf, accepts a
hit, pushes the children that it meets, at most 64 entries, and ends with an empty stack; a walk then ends with its last
word; replies let requests go on; a march emits its cells; an ended ray gives its record to a waiting `tr.res`, each
word with the tag of the destination code but the last with 3, or to memory; a node line stays poisoned for 2^16 firing
steps of its cluster at most. No bit error is met (log 48). The order of its computations, that a march's t is clipped
to t1, that every child met counts toward the 64 entries, and its end words are the model's (log 17). -/
def Obligations.TraversalHappenings : Prop :=
  ∀ (s : State) (r : TrReq), Traverses s r →
    let core := elemCore r.cmd.elem
    let becomes (i : Instr) (x : TrReq) : Prop := ∃ t, exec i s = .next t ∧ t.ray? s.pick.a s.pick.b = some x ∧ t.mem = s.mem
    let endsWithWord (i : Instr) : Prop := ∃ t w, exec i s = .next t ∧ t.ray? s.pick.a s.pick.b = none ∧
      Gained s t 4 r.outQ [⟨w, 3, 0⟩] ∧ t.mem = s.mem
    (r.state = .running → r.stack = [] → r.kind = 1 → NoStorageError s → becomes .traversalNodeVisit { r with state := .ended, stack := [] }) ∧
    (r.state = .running → r.stack = [] → r.kind = 2 → NoStorageError s → endsWithWord .traversalNodeVisit) ∧
    (∀ (addr depth : Nat) (t : Word) (leaf : Bool) (rest : List (Nat × Word × Nat × Bool)), r.state = .running →
      r.kind = 1 → r.stack = (addr, t, depth, leaf) :: rest → NoStorageError s →
      (flt32 r.t1 t = true → becomes .traversalNodeVisit { r with stack := rest }) ∧
      (flt32 r.t1 t = false → leaf = true → fmtLeaf r.fmt = 3 →
        ∃ u, exec .traversalNodeVisit s = .next u ∧
          Gained s u 4 r.outQ [⟨r.ticketWord, 0, 0⟩, ⟨BitVec.ofNat 32 addr, 0, 0⟩, ⟨t, 1, 0⟩] ∧
          u.ray? s.pick.a s.pick.b =
            some { r with stack := rest, state := .waiting, asked := some (addr, t, depth, leaf) }) ∧
      (∀ (bs : List Byte) (h : Hit), flt32 r.t1 t = false → leaf = true → fmtLeaf r.fmt ≠ 3 →
        s.nodeRead core addr (fmtLeafSize r.fmt) = .bytes bs → hitLeaf r.ray (fmtLeaf r.fmt) bs = some h →
        r.status ≠ 1 → becomes .traversalNodeVisit { r with
          stack := rest
          status := 1
          t := h.t
          u := h.u
          v := h.v
          ident := leafIdent (fmtLeaf r.fmt) bs
          leaf := addr
          t1 := h.t }) ∧
      (∀ bs : List Byte, flt32 r.t1 t = false → leaf = false → s.nodeRead core addr (fmtNodeSize r.fmt) = .bytes bs →
        ((r.rayChildren bs depth ++ rest).length ≤ 64 →
          becomes .traversalNodeVisit { r with stack := r.rayChildren bs depth ++ rest }) ∧
        (64 < (r.rayChildren bs depth ++ rest).length →
          becomes .traversalNodeVisit { r with state := .ended, status := 4, stack := [] }))) ∧
    (∀ (t i : ChanWord) (ws : List ChanWord) (e : Nat × Word × Nat × Bool), s.pick.flag = false → r.kind = 1 →
      r.state = .waiting → r.asked = some e → replies s r = t :: i :: ws →
      (fle32 r.ray.t0 t.word && fle32 t.word r.t1) = false →
      becomes .callbackReply { r with state := .running, asked := none }) ∧
    (∀ (w : ChanWord) (ws : List ChanWord), s.pick.flag = false → r.kind = 3 → r.state = .running → 0 < r.ahead →
      replies s r = w :: ws →
      (w.word = 0 → becomes .callbackReply { r with ahead := r.ahead - 1 }) ∧
      (w.word = 1 → endsWithWord .callbackReply)) ∧
    (r.kind = 3 → r.state = .running → r.moving = false → endsWithWord .marchCellEmit) ∧
    (∀ out : Word, r.kind = 3 → r.state = .running → r.moving = true → r.ahead < r.window →
      r.lattice.exit r.ray r.cell = some out →
      ∃ t x, exec .marchCellEmit s = .next t ∧ t.ray? s.pick.a s.pick.b = some x ∧ x.ahead = r.ahead + 1 ∧
        Gained s t 4 r.outQ [⟨r.lattice.index r.cell, 0, 0⟩, ⟨r.tIn, 0, 0⟩, ⟨fmin32 out r.t1, 1, 0⟩] ∧
        (x.moving = true → x.tIn = out ∧ flt32 r.t1 out = false)) ∧
    (∀ c : Cmd, r.kind = 1 → r.state = .ended → r.resultAt = 0 → r.res = some c →
      exec .rayEnd s = .next ((s.freeRay s.pick.a s.pick.b).deliver c.elem 0 c.dst
        (fun i => if i + 1 = (wordsOfBytes (r.record s.tick)).length then some 3 else none)
        (wordsOfBytes (r.record s.tick)))) ∧
    (∀ (ps : List Piece) (u : State), r.kind = 1 → r.state = .ended → r.resultAt ≠ 0 →
      s.writePieces core r.resultAt 32 = .ok ps → (∀ p ∈ ps, s.pinnedPiece s.pick.a p = false) →
      s.engWrite core r.resultAt (r.record s.tick) 2 = .ok u →
      exec .rayEnd s = .next
        ((ps.foldl (fun v p => v.noteWritten core r.cmd.group 32 p.key p.len) u).freeRay s.pick.a s.pick.b)) ∧
    (∃ t, exec .nodePoisonExpiry s = .next t ∧ (∀ n, n ≠ s.pick.b →
        (t.cluster s.pick.a).nodePoison.find n = (s.cluster s.pick.a).nodePoison.find n) ∧
      ((s.cluster s.pick.a).nodePoison.wf = true → (t.cluster s.pick.a).nodePoison.find s.pick.b = none)) ∧
    (∀ sec since, (s.cluster s.pick.a).nodePoison.find sec = some since →
      (s.nodePoisoned s.pick.a sec = true ↔ s.clusterSteps s.pick.a < since + 2 ^ 16))

namespace Sys2Proof.Claims

/-! ## Chains, the host, the operating point, monitoring and the fabric -/

/-- The chain that a happening concerns. -/
def ChainAt (s : State) (c : Chain) : Prop := s.chain? s.pick.a = some c

/-- The record at the head of a launch queue: 256 bytes of its ring in local HBM, whose base stands in the registers of the
queue (R68, R324); beyond 640 GiB it reads as zero (DESIGN CHOICE, log 61). -/
def headRecord (s : State) (q : Nat) : List Byte :=
  let base := bitsAt (s.preg (0x2D0 + q)) 0 20 * 2 ^ 32 + bitsAt (s.preg (0x2C0 + q)) 8 24 * 256
  let a := (base + 256 * (s.lqHead q % s.lqSize q)) % 2 ^ 43
  if a < 640 * 2 ^ 30 then s.homeRead a 256 else List.replicate 256 0

/-- A queue is the highest one that holds a record (R69). -/
def Highest (s : State) (q : Nat) : Prop := q < 16 ∧ 0 < s.lqFill q ∧ ∀ j, q < j → j < 16 → s.lqFill j = 0

/-- Home bytes outside a queue pair's entry are as they were, but for bytes stored from an address upward. -/
def StoredOutside (s t : State) (qp a : Nat) (bs : List Byte) : Prop :=
  ∀ x, ¬ (s.qpEntry qp ≤ x ∧ x < s.qpEntry qp + 256) →
    t.mem.read x = if a ≤ x ∧ x < a + bs.length then bs.getD (x - a) 0 else s.mem.read x

/-- The registers of the privileged view that a write may change or that act on one (R301, R336, R386); every other number is
read-only or unassigned. -/
def Written (n : Nat) : Prop :=
  n ∈ [0x210, 0x211, 0x212, 0x213, 0x220, 0x221, 0x222, 0x235, 0x236, 0x237, 0x294, 0x296, 0x297, 0x298, 0x299, 0x2A0, 0x2A1,
    0x2A2, 0x2A3, 0x2A4, 0x3D0, 0x3D1, 0x3D2, 0x3D3, 0x3F0, 0x3F1, 0x3F2] ∨
  (0x288 ≤ n ∧ n ≤ 0x28F) ∨ (0x2B0 ≤ n ∧ n ≤ 0x2BF ∧ n % 4 ≠ 3) ∨ (0x2C0 ≤ n ∧ n ≤ 0x2EF) ∨ (0x300 ≤ n ∧ n ≤ 0x3CF)

end Sys2Proof.Claims

/-- R69 to R75, R90: a scheduler takes the record at the head of the highest queue that holds one; a waiting chain ages,
is placed when it is its turn and its stage fits, has its images fetched and checked, and starts; a spur completes when
nothing of it is left, and the last one of a stage ends it. Whose turn it is and what a drained region waits for are the
model's readings (DEDUCED, logs 19, 22 and 42), a chain's internal name is its choice (log 21). -/
def Obligations.ChainHappenings : Prop :=
  (∀ (s : State) (q : Nat), s.started = true → (s.preg 0x295).getLsbD 3 = false → s.pick.a < 4 →
    (s.tableOf s.pick.a).length < 256 → Highest s q →
    let u := s.setPreg (0x2F0 + q) (BitVec.ofNat 32 ((s.lqHead q + 1) % (2 * s.lqSize q)))
    let r := headRecord s q
    (fieldAt r 0 2 = 2 → ∃ t, exec .chainRecordTake s = .next t ∧ t.resumes = s.resumes ++ [bytesOfNat 1 q ++ r] ∧
      t.readReg (0x2F0 + q) = BitVec.ofNat 32 ((s.lqHead q + 1) % (2 * s.lqSize q)) ∧ t.chains = s.chains) ∧
    (fieldAt r 0 2 = 1 →
      ({ u.bump with chains := u.chains ++ [u.newChain s.pick.a r] } : State).checkChain q (u.newChain s.pick.a r) = none →
      ∃ t c, exec .chainRecordTake s = .next t ∧ t.chains = s.chains ++ [c] ∧ c.record = r ∧ c.home = s.pick.a ∧
        c.phase = .waiting ∧ c.stage = 0 ∧ c.effPrio = byteAt r 2 ∧ c.waitNs = s.timeNs.toNat ∧
        (∀ a ∈ s.chains, a.order < c.order) ∧ (s.chain? (fieldAt r 8 8) = none → c.ident = fieldAt r 8 8))) ∧
  (∀ (s : State) (c : Chain), ChainAt s c → c.phase = .waiting → c.waitNs + 4000000 ≤ s.timeNs.toNat →
    ∃ t, exec .priorityAging s = .next t ∧
      t.chain? s.pick.a = some { c with effPrio := min 15 (c.effPrio + 1), waitNs := c.waitNs + 4000000 } ∧
      t = { s with chains := t.chains }) ∧
  (∀ (s : State) (c : Chain) (ws : List Want) (ps : List Place), ChainAt s c → c.phase = .waiting → c.frozen = false →
    s.turnOf c = true → s.stageWants c = .ok ws → s.placeAll c.ident c.home ws [] = some ps →
    ∃ t, exec .stagePlacement s = .next t ∧ t = { s with chains := t.chains } ∧
      t.chain? s.pick.a = some { c with phase := .placed, places := ps, effPrio := c.prio }) ∧
  (∀ (s u : State) (c : Chain) (l : List (Place × List Byte)), ChainAt s c → c.phase = .placed → c.saved = [] →
    s.fetchImages c = .ok l → s.loadSpurs c l c.stage = (u, none) →
    exec .imageFetch s = .next (u.updChain c.ident fun c => { c with phase := .fetched, places := [] })) ∧
  (∀ (s : State) (c : Chain), ChainAt s c → c.debugHold = false → c.frozen = false → c.replays = [] →
    (c.phase = .fetched → ∃ t d, exec .ridgeStart s = .next t ∧ t.chain? s.pick.a = some d ∧ d.phase = .started ∧
      d.startedAt = c.stage ∧ d.startNs = some (c.startNs.getD s.timeNs.toNat) ∧
      ∀ p ∈ t.spurs, p.chain = c.ident → (s.pick.flag = true ∨ p.cluster = s.pick.b) → p.phase ≠ .loaded) ∧
    (c.phase = .started → exec .ridgeStart s = .next { s with spurs := s.spurs.map fun p =>
      if p.chain = c.ident ∧ p.phase = .loaded ∧ (s.pick.flag = true ∨ p.cluster = s.pick.b) then
        { p with phase := .started } else p })) ∧
  (∀ (s : State) (p : Spur) (c : Chain), s.spur? s.pick.a = some p → s.chain? p.chain = some c → p.phase = .halted →
    c.phase = .started → c.frozen = false → c.debugHold = false → c.system = false → s.spurDone p = true →
    ((c.flagD = true ∨ ∃ q ∈ (s.completeSpur p).spursOf c.ident, q.phase ≠ .complete) →
      exec .spurCompletion s = .next (s.completeSpur p)) ∧
    (c.flagD = false → (∀ q ∈ (s.completeSpur p).spursOf c.ident, q.phase = .complete) → c.stage + 1 = c.stageCount →
      exec .spurCompletion s = .next ((s.completeSpur p).endChain c.ident 0 0)) ∧
    (c.flagD = false → (∀ q ∈ (s.completeSpur p).spursOf c.ident, q.phase = .complete) → c.stage + 1 < c.stageCount →
      ∃ t d, exec .spurCompletion s = .next t ∧ t.chain? c.ident = some d ∧ d.phase = .waiting ∧ d.stage = c.stage + 1 ∧
        d.effPrio = c.prio)) ∧
  (∀ (s : State) (p : Spur) (c : Chain), s.spur? s.pick.a = some p → s.chain? p.chain = some c → c.flagD = true →
    p.phase = .complete → c.phase = .started → c.frozen = false → c.debugHold = false → s.regionDrained p = true →
    p.stage + 1 < c.stageCount →
    exec .deterministicStageSwitch s = .next ((s.countOrphans c.ident (s.leftWords p)).loadRegion c p))

/-- R75, R302, R368: the end of a chain removes it, a system chain has none (R321, log 51), and its completion record
holds the identifier, the status, the subcode, the stage it started at, its fault records, the times of start and end
and its orphans at the table's offsets.

R77, R79, R350, R362, R397: a debugger holds a chain and lets it go; a ridge that has come to rest writes its dirty L1
lines back; a stored ridge is reloaded from its images; a resume record starts, queues or ends its chain; a cluster
whose regulator is stuck leaves placement. Turns of a waiting list, the happenings of a freeze, the lines written back
and the stages that go back to wait are the model's readings (logs 22, 23, 25, 37, 39 and 41). -/
def Obligations.FreezesAndEnds : Prop :=
  ((∀ (c : Chain) (status sub endNs : Nat),
     let r := completionBytes c status sub endNs
     r.length = 64 ∧ numberAt r 0x00 8 = numberAt c.record 0x08 8 ∧ numberAt r 0x08 1 = status % 256 ∧
     numberAt r 0x09 1 = sub % 256 ∧ numberAt r 0x0A 2 = c.startedAt % 2 ^ 16 ∧ numberAt r 0x0C 4 = c.faults % 2 ^ 32 ∧
     numberAt r 0x10 8 = c.startNs.getD 0 % 2 ^ 64 ∧ numberAt r 0x18 8 = endNs % 2 ^ 64 ∧
     numberAt r 0x20 8 = c.orphans % 2 ^ 64 ∧ ∀ i, 0x28 ≤ i → i < 64 → byteAt r i = 0) ∧
   (∀ (s : State) (ident status sub : Nat),
     let t := s.endChain ident status sub
     ((∀ c ∈ s.chains, c.system = false) → t.chain? ident = none) ∧
     (∀ c, s.chain? ident = some c → c.system = true → t = s) ∧ (∀ c ∈ t.chains, c ∈ s.chains) ∧ (∀ c ∈ s.chains, c.ident ≠ ident → c ∈ t.chains)) ∧
   (∀ s : State, let id := s.pick.word.toNat * 2 ^ 32 + (s.preg 0x221).toNat
     exec .chainKillHiWrite s = .next (s.endChain id 3 0))) ∧
  ((∀ (s : State) (c : Chain), ChainAt s c → s.pick.flag = true →
     ∃ t, exec .freezeWave s = .next t ∧ t.chain? s.pick.a = some { c with debugHold := true } ∧ t.mem = s.mem ∧
       t.elems = s.elems ∧ t.reqs = s.reqs) ∧
   (∀ (s : State) (c : Chain), ChainAt s c → s.pick.flag = false → c.frozen = false → c.debugHold = true →
     (∀ r ∈ s.reqs, ∀ j a, r.kind ≠ .colReq j a) →
     exec .freezeWave s = .next (if s.ridgeAtRest c = true then (s.spursOf c.ident).foldl State.writeBackL1 s else s)) ∧
   (∀ (s : State) (c : Chain) (l : List (Place × List Byte)), ChainAt s c → c.phase = .placed → c.saved ≠ [] →
     s.fetchImages c = .ok l → s.pins = [] → exec .spurReload s = .next ((s.reload c l).repair c).1) ∧
   (∀ (s : State) (c : Chain), ChainAt s c →
     ∃ t, exec .debuggerFreezeLift s = .next t ∧ t.chain? s.pick.a = some { c with debugHold := false } ∧ t.mem = s.mem ∧
       t.elems = s.elems ∧ t.reqs = s.reqs) ∧
   (∀ (s : State) (x : List Byte) (c : Chain), s.resumes[s.pick.a]? = some x →
     (∀ y ∈ s.resumes.take s.pick.a, fieldAt (y.drop 1) 8 8 ≠ fieldAt (x.drop 1) 8 8) →
     s.chain? (fieldAt (x.drop 1) 8 8) = some c → c.frozen = false → resumeOk (byteAt x 0) (x.drop 1) = true →
     let u := { s with resumes := s.resumes.eraseIdx s.pick.a }
     (c.phase = .stored → byteAt (x.drop 1) 3 = 0 → ∃ t, exec .resumeRecord s = .next t ∧ t.resumes = u.resumes ∧
       t.chain? c.ident = some { c with phase := .waiting, order := 0, waitNs := s.timeNs.toNat }) ∧
     (∀ v, c.phase = .held → byteAt (x.drop 1) 3 = 0 → (u.forgetLeases c.ident).repair c = (v, true) →
       exec .resumeRecord s = .next ((v.updChain c.ident fun c => { c with phase := .started, stopped := none }).reissueAll c.ident)) ∧
     (c.phase = .held → byteAt (x.drop 1) 3 = 1 →
       ∃ t d, exec .resumeRecord s = .next t ∧ t.chain? c.ident = some d ∧ d.frozen = true ∧ d.phase = .held) ∧
     (c.phase = .held ∨ c.phase = .stored → byteAt (x.drop 1) 3 = 2 →
       exec .resumeRecord s = .next (u.endChain c.ident 2 0))) ∧
   (∀ s : State, s.pick.a < 96 → bitsAt (s.preg (0x370 + s.pick.a)) 16 6 ≠ bitsAt (s.preg (0x370 + s.pick.a)) 8 6 →
     (s.cluster s.pick.a).movedNs + 1000000 ≤ s.timeNs.toNat → s.clusterOn s.pick.a = true →
     ∃ t, exec .clusterOutOfPlacement s = .next t ∧ t.clusterOn s.pick.a = false ∧
       ∀ c ∈ t.chains, c.system = false → c.phase = .placed → ∀ p ∈ c.places, p.cluster ≠ s.pick.a))
/-- R68, R124, R298, R302, R317, R322, R324 to R326, R332, R333, R397, R43: what the host's accesses of registers do:
writes, and reads through BAR0. -/
def Obligations.RegisterWrites : Prop :=
  ∀ s : State,
    let w := s.pick.word
    let a := s.pick.a
    (s.started = true → exec .devStartWrite s = .next s) ∧
    (s.started = false → w.getLsbD 0 = true → ∃ t, exec .devStartWrite s = .next t ∧ t.started = true ∧
      t.readReg 0x294 = 1) ∧
    (a < 16 → ∃ t, exec .lqTailWrite s = .next t ∧ OnlyReg s t (0x300 + a) ∧ t.preg (0x300 + a) =
      if bitsAt w 0 17 < 2 * s.lqSize a ∧
        (bitsAt w 0 17 + 2 * s.lqSize a - s.lqHead a) % (2 * s.lqSize a) ≤ s.lqSize a
      then BitVec.ofNat 32 (bitsAt w 0 17) else s.preg (0x300 + a)) ∧
    (0x2C0 ≤ a → a ≤ 0x2EF → s.lqHead (a % 16) ≠ s.lqTail (a % 16) → exec .lqBaseSizeWrite s = .next s) ∧
    (0x2C0 ≤ a → a ≤ 0x2CF → s.lqHead (a % 16) = s.lqTail (a % 16) → ∃ t, exec .lqBaseSizeWrite s = .next t ∧
      t.preg a = w &&& 0xFFFFFF00 ∧ t.preg (0x2F0 + a % 16) = 0 ∧ t.preg (0x300 + a % 16) = 0) ∧
    (∀ q, q < 16 → s.lqHead q = s.lqTail q →
      (a = 0x2D0 + q → ∃ t, exec .lqBaseSizeWrite s = .next t ∧ t.preg a = w &&& 0xFFFFF ∧ t.preg (0x2F0 + q) = 0 ∧
        t.preg (0x300 + q) = 0 ∧ ∀ m, m ≠ a → m ≠ 0x2F0 + q → m ≠ 0x300 + q → t.preg m = s.preg m) ∧
      (a = 0x2E0 + q → 4 ≤ bitsAt w 0 5 → bitsAt w 0 5 ≤ 16 → ∃ t, exec .lqBaseSizeWrite s = .next t ∧
        t.lqSize q = 2 ^ bitsAt w 0 5 ∧ t.preg a = BitVec.ofNat 32 (bitsAt w 0 5) ∧ t.preg (0x2F0 + q) = 0 ∧
        t.preg (0x300 + q) = 0 ∧ ∀ m, m ≠ a → m ≠ 0x2F0 + q → m ≠ 0x300 + q → t.preg m = s.preg m) ∧
      (a = 0x2E0 + q → bitsAt w 0 5 < 4 ∨ 16 < bitsAt w 0 5 → exec .lqBaseSizeWrite s = .next s)) ∧
    (s.pick.flag = false → 0x288 ≤ a → a ≤ 0x28F →
      (s.started = true → exec .registerWrite s = .next s) ∧
      (s.started = false → ∃ t, exec .registerWrite s = .next t ∧ OnlyReg s t a ∧
        ∀ i, (t.preg a).getLsbD i = (w.getLsbD i && (s.preg (a - 8)).getLsbD i))) ∧
    (∀ m, s.pick.flag = false → m < 4 →
      (∀ n, n < 4 → a = 0x2B0 + 4 * m + n → s.started = true → exec .registerWrite s = .next s) ∧
      (s.started = false → a = 0x2B0 + 4 * m → ∃ t, exec .registerWrite s = .next t ∧ OnlyReg s t a ∧ t.preg a = w) ∧
      (s.started = false → a = 0x2B1 + 4 * m → ∃ t, exec .registerWrite s = .next t ∧ OnlyReg s t a ∧
        t.preg a = w &&& 0xFFFFF) ∧
      (s.started = false → a = 0x2B2 + 4 * m → ∃ t, exec .registerWrite s = .next t ∧ t.preg a = w ∧ t.preg (a + 1) = w ∧
        ∀ n, n ≠ a → n ≠ a + 1 → t.preg n = s.preg n) ∧
      (a = 0x2B3 + 4 * m → exec .registerWrite s = .next s)) ∧
    (s.pick.flag = false → ¬Written a → exec .registerWrite s = .next s) ∧
    (∃ t, exec .transInvalHiWrite s = .next t ∧ t = { s with transSeq := s.transSeq + 1, cached := t.cached } ∧
      ∀ c, c ∈ t.cached ↔ c ∈ s.cached ∧
        c.meets (bitsAt w 0 23 * 2 ^ 32 + bitsAt (s.preg 0x212) 16 16 * 65536) (invalBits (bitsAt (s.preg 0x212) 0 2)) = false) ∧
    (∃ t, exec .sigPendWrite s = .next t ∧ t.outside = s.outside ∧ OnlyReg s t (sigPend s.pick.flag) ∧
      t.preg (sigPend s.pick.flag) = s.preg (sigPend s.pick.flag) &&& ~~~w) ∧
    (let new := w &&& ~~~(s.preg (sigEn s.pick.flag)) &&& s.preg (sigPend s.pick.flag)
     ∃ t, exec .sigEnWrite s = .next t ∧ OnlyReg s t (sigEn s.pick.flag) ∧ t.preg (sigEn s.pick.flag) = w ∧
      t.outside = s.outside ++ (((List.range 32).filter new.getLsbD).map fun i =>
        Outside.vector (i + if s.pick.flag then 32 else 0))) ∧
    (a < 96 → 40 < bitsAt w 0 6 → exec .vregWrite s = .next s) ∧
    (a < 96 → bitsAt w 0 6 ≤ 40 → ∃ t, exec .vregWrite s = .next t ∧ OnlyReg s t (0x370 + a) ∧
      let old := s.preg (0x370 + a)
      let v := t.preg (0x370 + a)
      bitsAt v 0 6 = bitsAt w 0 6 ∧ bitsAt v 8 6 = bitsAt old 8 6 ∧ bitsAt v 24 6 = bitsAt old 24 6 ∧
      bitsAt v 16 6 = min (bitsAt old 24 6) (max (bitsAt w 0 6) (s.leaseCode a)) ∧
      v.getLsbD 31 = decide (bitsAt v 8 6 ≠ bitsAt v 16 6)) ∧
    (a < 96 → ∃ t, exec .meterWrite s = .next t ∧ OnlyReg s t (0x310 + a) ∧
      t.preg (0x310 + a) = (w &&& 0x80FFFFFF) ||| (s.preg (0x310 + a) &&& 0x07000000) ∧
      (t.cluster a).level = (if t.meterLevel a < (s.cluster a).level ∨ bitsAt w 12 12 = 0 then t.meterLevel a
        else (s.cluster a).level)) ∧
    (a < 3 → ∃ t, exec .clusOffWrite s = .next t ∧ t.preg (0x235 + a) = s.preg (0x235 + a) &&& ~~~w ∧
      ∀ i, i < 32 → bitsAt (t.preg (0x370 + (32 * a + i))) 0 6 =
        if (s.preg (0x235 + a)).getLsbD i = true ∧ w.getLsbD i = true then 25
        else bitsAt (s.preg (0x370 + (32 * a + i))) 0 6) ∧
    (∀ x ∈ ([(0x212, 0xFFFF0003), (0x220, 3), (0x221, 0xFFFFFFFF), (0x2A4, 1), (0x3D0, 0xFF), (0x3D1, 0xFFFF), (0x3D2, 0x3F),
        (0x3D3, 0xFFF)] : List (Nat × Word)), a = x.1 →
      s.pick.flag = false → ∃ t, exec .registerWrite s = .next t ∧ t.preg a = w &&& x.2 ∧ OnlyReg s t a) ∧
    (∀ x ∈ ([(0x210, 0xFFFF0000), (0x211, 0xFFFFF), (0x296, 0x1FF), (0x297, 0xFFFFFFFF), (0x298, 0xFFFFFFFF),
        (0x299, 0xFFFFFFFF), (0x3F0, 0xFFFFFFFF), (0x3F1, 0xFFFFFFFF), (0x3F2, 0x1FFF)] : List (Nat × Word)), a = x.1 →
      s.pick.flag = false →
      (s.started = true → exec .registerWrite s = .next s) ∧
      (s.started = false → ∃ t, exec .registerWrite s = .next t ∧ t.preg a = w &&& x.2 ∧ OnlyReg s t a)) ∧
    (s.pick.flag = true → let off := a % 4096
      (s.pick.c = 1 →
        (s.pick.b ≠ 4 ∨ off % 4 ≠ 0 → exec .registerWrite s = .next (s.tellHost 0xFFFFFFFF)) ∧
        (s.pick.b = 4 → off % 4 = 0 → off < 0x800 → exec .registerWrite s = .next (s.tellHost 0)) ∧
        (s.pick.b = 4 → off % 4 = 0 → 0x800 ≤ off →
          exec .registerWrite s = .next ((s.latchReg (off / 4)).tellHost (s.readReg (off / 4))))) ∧
      (s.pick.c ≠ 1 →
        (s.pick.b ≠ 4 ∨ off % 4 ≠ 0 ∨ off < 0x800 → exec .registerWrite s = .next s) ∧
        (s.pick.b = 4 → off % 4 = 0 → 0x800 ≤ off → exec .registerWrite s = .next (s.writeReg (off / 4) w)))) ∧
    (∃ t, exec .hmaskWrite s = .next t ∧ t = { s with elems := t.elems } ∧ OthersAsBefore s t a ∧
      t.elem a = { s.elem a with hmask := w.extractLsb' 0 17 })

/-- R318 to R320, R51, R53, R56: reset gives the state after reset, self-test sets its bits, the host's writes land at
the home, a line of host memory leaves every copy first; and a firing step starts the next beat of a rule in progress,
else the lowest owed ready rule alone, else a walk over the range of the active handler. That reset empties memory too
and that the bit of the start stays at a self-test are the model's (logs 4 and 14); the lowest owed rule is the one of
the lowest slot number (R51), in a range that wraps too (DEDUCED, log 58). -/
def Obligations.HostAndReset : Prop :=
  (∀ s : State, exec .reset s = .next { State.reset with tick := s.tick }) ∧
  (∀ s : State, ∃ t, exec .selfTestComplete s = .next t ∧ OnlyReg s t 0x295 ∧ (t.preg 0x295).getLsbD 0 = true ∧
    bitsAt (t.preg 0x295) 4 4 = s.pick.a % 16 ∧ bitsAt (t.preg 0x295) 1 3 = bitsAt (s.preg 0x295) 1 3 ∧
    bitsAt (t.preg 0x295) 8 24 = bitsAt (s.preg 0x295) 8 24) ∧
  (∀ s : State, MemoryInv s → s.cells = [] → s.pick.a + s.pick.bytes.length ≤ 640 * 2 ^ 30 →
    ∃ t, exec .hostMemWrite s = .next t ∧ Stored s.mem t.mem s.pick.a s.pick.bytes ∧ t.copies = s.copies ∧
      t.elems = s.elems ∧ t.reqs = s.reqs) ∧
  (∀ s : State, MemoryInv s → s.cells = [] → s.pins = [] → s.pick.a + s.pick.bytes.length ≤ 2 ^ 43 →
    ∃ t, exec .hostLineWrite s = .next t ∧ Stored s.mem t.mem (2 ^ 52 + s.pick.a) s.pick.bytes ∧ t.elems = s.elems ∧
      ∀ cl x, 2 ^ 52 + s.pick.a ≤ x → x < 2 ^ 52 + s.pick.a + s.pick.bytes.length → t.copyByte? cl x = none) ∧
  (∀ (s : State) (h : Active), s.pick.a < elemCount → s.walk = none → (s.elem s.pick.a).beat = none →
    s.running (elemCore s.pick.a) = true → (s.elem s.pick.a).role = .used → (s.elem s.pick.a).active = some h →
    let u := s.updElem s.pick.a fun e => { e with window := e.window + 1 }
    let starts (todo : List Nat) (single : Bool) : Prop :=
      ∃ t w, exec .firingStep s = .next t ∧ t.walk = some w ∧ w.elem = s.pick.a ∧ w.todo = todo ∧ w.used = [] ∧
        w.fired = [] ∧ w.stop = false ∧ w.closing = false ∧ w.counts = false ∧ w.single = single ∧ w.handler = h.handler ∧
        w.startSteps = (s.elem s.pick.a).steps ∧ t.mem = s.mem ∧ OthersAsBefore s t s.pick.a ∧
        t.elem s.pick.a = { s.elem s.pick.a with window := (s.elem s.pick.a).window + 1 }
    let owes (i : Nat) : Prop := i < 32 ∧ i ∈ h.slots ∧ (s.elem s.pick.a).owed.getLsbD i = true ∧ u.ready s.pick.a i = true
    ((∀ i, ¬owes i) → starts h.slots false) ∧
    (∀ i, owes i → (∀ j, owes j → i ≤ j) → starts [i] true)) ∧
  (∀ (s : State) (b : Beat), s.pick.a < elemCount → s.walk = none → (s.elem s.pick.a).beat = some b →
    (s.spurAt (elemCore s.pick.a)).isSome = true →
    ∃ t w, exec .firingStep s = .next t ∧ t.walk = some w ∧ w.elem = s.pick.a ∧ w.todo = [b.slot] ∧ w.single = true ∧
      t.mem = s.mem ∧ (t.elem s.pick.a).beat = some b)

/-- R332 to R335: a regulator moves one code toward its target; a period of the observer tightens or eases every cluster
of its massif by its prediction of temperature and power, the model's free value (DESIGN CHOICE, log 6); without a
period for 1 ms the fallback holds; a lease ends at its end; a meter's level rises by its ramp. -/
def Obligations.OperatingPoint : Prop :=
  ∀ s : State,
    let a := s.pick.a
    let v := s.preg (0x370 + a)
    (a < 96 → bitsAt v 8 6 ≠ bitsAt v 16 6 → ∃ t, exec .regulatorStep s = .next t ∧ OnlyReg s t (0x370 + a) ∧
      bitsAt (t.preg (0x370 + a)) 8 6 = (if bitsAt v 8 6 < bitsAt v 16 6 then bitsAt v 8 6 + 1 else bitsAt v 8 6 - 1) ∧
      bitsAt (t.preg (0x370 + a)) 16 6 = bitsAt v 16 6 ∧ bitsAt (t.preg (0x370 + a)) 0 6 = bitsAt v 0 6 ∧
      bitsAt (t.preg (0x370 + a)) 24 6 = bitsAt v 24 6 ∧ (t.cluster a).movedNs = s.timeNs.toNat) ∧
    (∀ hot pred power, a < 4 → (s.chain? (0xFFFFFFFFFFFFFFF0 + a)).isSome = true →
      Config.prediction s.tick a = (hot, pred, power) →
      let limit := bitsAt (s.preg 0x3D0) 0 8
      let powerLimit := bitsAt (s.preg 0x3D1) 0 16
      ∃ t, exec .thermalObserverPeriod s = .next t ∧ t.preg (0x3D4 + a) = BitVec.ofNat 32 (hot ++ pred).toNat ∧
        (t.preg 0x3D8).getLsbD a = true ∧ (t.preg 0x3D8).getLsbD (8 + a) = false ∧
        ∀ cl, 24 * a ≤ cl → cl < 24 * a + 24 →
          (t.cluster cl).observedNs = s.timeNs.toNat ∧
          (limit < pred.toNat ∨ powerLimit < power.toNat →
            (s.meterC cl < 7 → t.meterC cl = s.meterC cl + 1 ∧ t.ceiling cl = s.ceiling cl) ∧
            (s.meterC cl = 7 → t.meterC cl = 7 ∧ t.ceiling cl = s.ceiling cl - 1)) ∧
          (pred.toNat + 2 ≤ limit → power.toNat < powerLimit →
            (s.ceiling cl < 40 → t.ceiling cl = s.ceiling cl + 1 ∧ t.meterC cl = s.meterC cl) ∧
            (40 ≤ s.ceiling cl → t.ceiling cl = s.ceiling cl ∧ t.meterC cl = s.meterC cl - 1)) ∧
          (pred.toNat ≤ limit → power.toNat ≤ powerLimit → (limit < pred.toNat + 2 ∨ power.toNat = powerLimit) →
            t.ceiling cl = s.ceiling cl ∧ t.meterC cl = s.meterC cl)) ∧
    (a < 4 → s.started = true → (s.cluster (24 * a)).observedNs + 1000000 ≤ s.timeNs.toNat →
      ∃ t, exec .observerFallback s = .next t ∧ (t.preg 0x3D8).getLsbD a = false ∧
        (t.preg 0x3D8).getLsbD (8 + a) = true ∧
        ∀ cl, 24 * a ≤ cl → cl < 24 * a + 24 → t.meterC cl = 7 ∧ t.ceiling cl = 15) ∧
    (∀ l, (s.cluster a).lease = some l → l.endNs ≤ s.timeNs.toNat →
      ∃ t, exec .leaseExpiry s = .next t ∧ (t.cluster a).lease = none ∧
        bitsAt (t.preg (0x370 + a)) 16 6 = min (bitsAt v 24 6) (bitsAt v 0 6)) ∧
    (a < 96 → ∃ t, exec .meterRateRise s = .next t ∧ (t.cluster a).level =
      (if bitsAt (s.preg (0x310 + a)) 12 12 = 0 then s.meterLevel a
       else max (s.cluster a).level (min (s.meterLevel a) ((s.cluster a).level + bitsAt (s.preg (0x310 + a)) 12 12))) ∧
      t.regs = s.regs)

namespace Sys2Proof.Claims

/-- A fault record without slot, handler and word: it names an element, and the spur that holds it. -/
def elemFaultInfo (s : State) (p : Spur) (code k addr : Nat) : FaultInfo :=
  { code := code
    elem := k
    addr := addr
    step := (s.elem k).steps
    stage := p.stage
    spur := p.index }

/-- The chain of a spur after a record of it has been written: one record more, and held where it ran. -/
def HeldWithRecord (c d : Chain) : Prop :=
  d.faults = c.faults + 1 ∧ d.phase = (if c.phase = .started then .held else c.phase) ∧ d.stage = c.stage ∧
    d.replays = c.replays ∧ d.stopped = c.stopped

/-! ### What converters put out (R106, R113 to R117) -/

/-- The smallest scale of 0 to 254 that brings every finite value within the largest element of a format; 254 where none
does (R113). -/
def ScaleFor (fmt : Nat) (xs : List Machine.Num) (s : Nat) : Prop :=
  let fits (x : Machine.Num) (r : Nat) : Prop := (x.abs.scale (127 - (r : Int))).cmp (fmtMax fmt) ≤ 0
  s ≤ 254 ∧ (s = 254 ∨ ∀ x ∈ xs, x.finite = true → fits x s) ∧ ∀ r, r < s → ∃ x ∈ xs, x.finite = true ∧ ¬fits x r
/-- The element codes of a format that stand in a payload, w bits each: the values scaled and rounded, then zeros. -/
def CodesAre (fmt : Nat) (xs : List Machine.Num) (s payload count : Nat) : Prop :=
  ∀ i, i < count → payload / 2 ^ (widthOf fmt * i) % 2 ^ widthOf fmt =
    match xs[i]? with
    | some x => fmtRound fmt (x.scale (127 - (s : Int)))
    | none => 0
/-- A described block of 64 bytes packed from values; an FP4 block with a NaN is a NaN block (R104, R113, R114). -/
def Packed (fmt : Nat) (xs : List Machine.Num) (b : List Byte) : Prop :=
  b.length = 64 ∧ byteAt b 0 = fmt ∧
  (fmt = 0x14 → .nan ∈ xs → byteAt b 1 = 0xFF ∧ numberAt b 2 62 = 0) ∧
  (¬(fmt = 0x14 ∧ .nan ∈ xs) → ScaleFor fmt xs (byteAt b 1) ∧
    CodesAre fmt xs (byteAt b 1) (numberAt b 2 62) (496 / widthOf fmt))
/-- An MX group of a scale word and element words, packed from at most 32 values (R116, R117). -/
def MxPacked (fmt : Nat) (xs : List Machine.Num) (g : List Word) : Prop :=
  let x := (g.getD 0 0).toNat
  let payload := numberAt (firstBytes (g.drop 1) (4 * widthOf fmt)) 0 (4 * widthOf fmt)
  g.length = 1 + widthOf fmt ∧ (fmt = 0x14 → .nan ∈ xs → x = 0xFF ∧ payload = 0) ∧
  (¬(fmt = 0x14 ∧ .nan ∈ xs) → ScaleFor fmt xs x ∧ CodesAre fmt xs x payload 32)
/-- The values of an MX group: its elements times its scale, all NaN with the scale 0xFF (R116). -/
def mxGroupValues (fmt : Nat) (g : List Word) : List Machine.Num :=
  let w := widthOf fmt
  let x := bitsAt (g.getD 0 0) 0 8
  (List.range 32).map fun i =>
    if x = 0xFF then .nan
    else (fmtDecode fmt (numberAt (firstBytes (g.drop 1) (4 * w)) 0 (4 * w) / 2 ^ (w * i) % 2 ^ w)).scale ((x : Int) - 127)
/-- The values that a packed word supplies, lane 0 first (R113), and the values of a described block (R106). -/
def wordHolds (type : Nat) (w : Word) : List Machine.Num :=
  if type = 0 then [val32 w]
  else [(formatOf (BitVec.ofNat 2 type)).decode (bitsAt w 0 16), (formatOf (BitVec.ofNat 2 type)).decode (bitsAt w 16 16)]
def blockHolds (b : List Byte) : List Machine.Num :=
  (elementsOf b).map fun x => x.scale (((byteAt b 1 : Nat) : Int) - 127)
/-- A conversion of a whole group: what it puts out, and the values that it keeps for the next group. MX words whose last
group is cut off are left out, and bytes of a block that are cut off are zero (DESIGN CHOICE, log 59). -/
def Converts (conv : Word) (held : List Machine.Num) (ws : List Word) (ends : Bool) (out : List Word)
    (kept : List Machine.Num) : Prop :=
  let fmt := bitsAt conv 16 8
  let type := bitsAt conv 12 2
  let n := 496 / widthOf fmt
  let b := (List.range 64).map fun i => (ws.getD (i / 4) 0).extractLsb' (8 * (i % 4)) 8
  let known : Prop := byteAt b 0 ∈ formatsOf 0 ++ formatsOf 1 ++ formatsOf 2 ++ formatsOf 3
  (bitsAt conv 30 2 = 0 → type ≤ 2 →
    let xs := held ++ ws.flatMap (wordHolds type)
    (∃ p, Packed fmt (xs.take n) p ∧ out = asWords p) ∧ kept = if ends then [] else xs.drop n) ∧
  (bitsAt conv 30 2 = 1 → known ∧ kept = [] ∧
    let vs := blockHolds b
    (type = 0 → out = vs.map toF32) ∧
    (type = 1 ∨ type = 2 → out = (List.range ((vs.length + 1) / 2)).map fun m =>
      let lane (i : Nat) : Nat := match vs[i]? with
        | some x => (formatOf (BitVec.ofNat 2 type)).round 0 x
        | none => 0
      BitVec.ofNat 32 (lane (2 * m) + 2 ^ 16 * lane (2 * m + 1)))) ∧
  (bitsAt conv 30 2 = 2 → ∀ gs : List (List Word), ws = gs.flatten → (∀ g ∈ gs, g.length = 1 + widthOf fmt) →
    let xs := held ++ gs.flatMap (mxGroupValues fmt)
    (ends = false → (∃ p, Packed fmt (xs.take n) p ∧ out = asWords p) ∧ kept = xs.drop n) ∧
    (ends = true → kept = [] ∧ ∃ ps : List (List Byte), out = ps.flatMap asWords ∧ ps.length = (xs.length + n - 1) / n ∧
      ∀ i p, ps[i]? = some p → Packed fmt ((xs.drop (n * i)).take n) p)) ∧
  (bitsAt conv 30 2 = 3 → known ∧
    let xs := held ++ blockHolds b
    let count := if ends then (xs.length + 31) / 32 else xs.length / 32
    (∃ gs : List (List Word), out = gs.flatten ∧ gs.length = count ∧
      ∀ i g, gs[i]? = some g → MxPacked fmt ((xs.drop (32 * i)).take 32) g) ∧
    kept = if ends then [] else xs.drop (32 * count))

end Sys2Proof.Claims

/-- R303, R358, R366, R385, R386: a spur that stood still for a period is reported with 0x79 and its chain held, else
the detector notes what it sees; a configuration whose CRC fails is counted, noted and recorded with 0x21; a parity
error is recorded with 0x20, final, and stops its chain for good, which then freezes; a step countdown that has run out
is recorded with 0x72 and breakpoint 64. Where there is no room for the record, the chain ends with status 2. That a
completed spur is not looked at, that the CRC is an input, and the details of the last two are the model's (logs 20, 24,
38, 40 and 51). -/
def Obligations.MonitoringHappenings : Prop :=
  (∀ s : State, ∃ t, exec .quiescencePeriod s = .next t) ∧
  (∀ (s : State) (p : Spur), s.spur? s.pick.a = some p → s.quiescent p = true →
    exec .quiescencePeriod s = .next ((((s.spursOf p.chain).filter fun q =>
      decide (q.cluster = p.cluster) && s.quiescent q).foldl State.report s).hold p.chain)) ∧
  (∀ (s : State) (p : Spur), s.spur? s.pick.a = some p → s.quiescent p = false → p.seen = none →
    ∃ t, exec .quiescencePeriod s = .next t ∧ t = { s with spurs := t.spurs } ∧
      t.spur? s.pick.a = some { p with seen := some (s.clusterSteps p.cluster, s.glance p) }) ∧
  (∀ (s : State) (p : Spur) (c : Chain), s.chain? p.chain = some c →
    (s.recordFree c c.faults = false → s.report p = s.endChain c.ident 2 0) ∧
    (s.recordFree c c.faults = true → s.recordFree c (c.faults + p.cores.length) = true →
      s.report p = (s.recordBytes c { elemFaultInfo s p 0x79 (coreElem (clusterCore p.cluster p.x0 p.y0) 0) 0 with
        step := 0
        following := p.cores.length
        snapshot := true } :: p.cores.map s.snapRecord).foldl (fun u b => match u.chain? c.ident with
          | some d => u.putRecord d b
          | none => u) s)) ∧
  (∀ (s : State) (p : Spur), s.spurAt (elemCore s.pick.a) = some p → s.pick.flag = false →
    (s.elem s.pick.a).role = .used →
    let u := (s.setPreg 0x234 (BitVec.ofNat 32 (min 0xFFFF (bitsAt (s.preg 0x234) 0 16 + 1)))).updElem s.pick.a fun e =>
      { e with cfgBad := true }
    let f := elemFaultInfo s p 0x21 s.pick.a 0
    exec .configScrubVisit s = .next (u.raise p.chain f) ∧
    ∀ c, s.chain? p.chain = some c → c.system = false →
      (s.recordFree c c.faults = false → u.raise p.chain f = u.endChain p.chain 2 0) ∧
      (s.recordFree c c.faults = true → ∃ t d, exec .configScrubVisit s = .next t ∧
        t = (u.putRecord c (u.recordBytes c f)).hold p.chain ∧ (t.elem s.pick.a).cfgBad = true ∧
        t.preg 0x234 = u.preg 0x234 ∧ t.chain? p.chain = some d ∧ HeldWithRecord c d)) ∧
  (∀ s : State, s.pick.flag = true ∨ (s.elem s.pick.a).role ≠ .used → exec .configScrubVisit s = .next s) ∧
  (∀ (s : State) (p : Spur) (c : Chain), s.spurAt (elemCore s.pick.a) = some p → s.chain? p.chain = some c →
    (s.recordFree c c.faults = false → exec .parityError s = .next (s.endChain c.ident 2 0)) ∧
    (s.recordFree c c.faults = true →
      let f := { elemFaultInfo s p 0x20 s.pick.a 0xFFFFFFFFFFFFFFFF with final := true }
      let u := ((s.putRecord c (s.recordBytes c f)).hold c.ident).updChain c.ident fun c => { c with doomed := true }
      ∃ d, exec .parityError s = .next (u.sendFreeze c.ident) ∧ (u.sendFreeze c.ident).chain? p.chain = some d ∧
        HeldWithRecord c d ∧ d.doomed = true ∧ d.frozen = true)) ∧
  (∀ (s : State) (p : Spur), s.spurAt (elemCore s.pick.a) = some p → (s.elem s.pick.a).countdown = some 0 →
    let u := s.updElem s.pick.a fun e => { e with countdown := none }
    let f := { elemFaultInfo s p 0x72 s.pick.a (stopAddr 0 64) with
      handler := ((s.elem s.pick.a).active.map (·.handler)).getD 0xFF
      step := (s.elem s.pick.a).steps - 1 }
    exec .stepCountdownExpiry s = .next (u.raise p.chain f) ∧
    ∀ c, s.chain? p.chain = some c → c.system = false →
      (s.recordFree c c.faults = false → u.raise p.chain f = u.endChain p.chain 2 0) ∧
      (s.recordFree c c.faults = true → ∃ t d, exec .stepCountdownExpiry s = .next t ∧
        t = (u.putRecord c (u.recordBytes c f)).hold p.chain ∧ (t.elem s.pick.a).countdown = none ∧
        t.chain? p.chain = some d ∧ HeldWithRecord c d)) ∧
  (∀ (s : State) (n : Nat), (s.elem s.pick.a).countdown = some (n + 1) → exec .stepCountdownExpiry s = .next s)

/-- R106, R112 to R117, R323, R329, R330, R395, R396: ports come up and go down, retries and timeouts are counted, queue
pairs send, receive, stop, restart and fail, and a converter takes a complete group and puts out its packed blocks,
unpacked words or MX groups. Tags that no rule gives are free (log 15). That received words have a queue of their own
and that the turn of a converter moves on are the model's (log 15), and peers' memory lies in this state (log 35). -/
def Obligations.FabricHappenings : Prop :=
  ∀ s : State,
    let a := s.pick.a
    let entry := s.qpEntry a
    let port := s.qpPort a
    let words := s.portWords port.1 port.2
    (let top := min (bitsAt (s.preg 0x293) 8 8) (byteAt s.pick.bytes 0)
     a < 144 → bitsAt (s.preg 0x293) 0 8 ≤ top → byteAt s.pick.bytes 1 ≤ top →
      ∃ t, exec .kucorPortTraining s = .next t ∧ t.kucor.find a = some (BitVec.ofNat 8 top) ∧
        t.preg (0x3E0 + a / 32) = s.preg (0x3E0 + a / 32) ||| (1 <<< (a % 32)) ∧ OnlyReg s t (0x3E0 + a / 32)) ∧
    (∃ t, exec .kucorFlitRetry s = .next t ∧ OnlyReg s t 0x3E5 ∧
      (t.preg 0x3E5).toNat = min 0xFFFFFFFF ((s.preg 0x3E5).toNat + 1)) ∧
    (a < 144 → s.kucor.wf = true → ∃ t, exec .kucorPortDown s = .next t ∧ t.kucor.find a = none ∧
      (t.preg (0x3E0 + a / 32)).getLsbD (a % 32) = false ∧ OnlyReg s t (0x3E0 + a / 32)) ∧
    (∀ r k, s.pick.words.getD 0 0 = 0 → Concerns s r → r.pa = some k → k / 2 ^ 52 = 2 → r.phase = .ready →
      (r.kind = .prefetch → exec .peerAccessTimeout s = .next { s.countPreg 0x3E6 with reqs := reqsWithout s r.id }) ∧
      (r.kind ≠ .prefetch → s.beatBehind r = false → s.pick.flag = false → exec .peerAccessTimeout s = .next ((s.countPreg 0x3E6).lateFault r 0x20 r.va.toNat)) ∧
      (s.pick.flag = true → r.kind = .store → s.beatBehind r = false →
        exec .peerAccessTimeout s = .next (((s.countPreg 0x3E6).writeHome k r.storeBytes).lateFault r 0x20 r.va.toNat))) ∧
    (∀ w ws, s.qpRuns a = true → s.portServes port.1 port.2 = false → words = w :: ws →
      (w.tag ≠ 3 → ∃ t, exec .ethMessageSend s = .next t ∧ (t.qp a).words = (s.qp a).words ++ [w.word] ∧
        t.outside = s.outside ∧ t.mem = s.mem) ∧
      (w.tag = 3 → fieldAt (s.qpBytes a) 0x48 4 ≠ 1 → ∃ t, exec .ethMessageSend s = .next t ∧ (t.qp a).words = [] ∧
        t.outside = s.outside ++ [.ethernet a (bytesOfWords ((s.qp a).words ++ [w.word]))])) ∧
    (MemoryInv s → s.cells = [] → s.qpRuns a = true →
      (s.pick.words ≠ [] → port.2 < 32 → ∃ t, exec .ethSendReceive s = .next t ∧ StoredOutside s t a 0 [] ∧
        (s.portServes port.1 port.2 = false → t.portWords port.1 port.2 = words ∧
          t.recvWords port.1 port.2 ++ (t.qp a).inbox =
            s.recvWords port.1 port.2 ++ (s.qp a).inbox ++ messageWords s.pick.words) ∧
        (s.portServes port.1 port.2 = true →
          t.portWords port.1 port.2 ++ (t.qp a).inbox = words ++ (s.qp a).inbox ++ messageWords s.pick.words)) ∧
      (rangeGrants (s.qpBytes a) s.pick.word s.pick.b s.pick.bytes.length 0 = true →
        ∃ t, exec .ethRdmaWriteReceive s = .next t ∧ StoredOutside s t a s.pick.b s.pick.bytes) ∧
      (rangeGrants (s.qpBytes a) s.pick.word s.pick.b s.pick.c 1 = true →
        ∃ t, exec .ethRdmaReadReceive s = .next t ∧ StoredOutside s t a 0 [] ∧ t.outside = s.outside ++ [.ethernet a
          ((List.range s.pick.c).map fun i => s.mem.read (s.pick.b + i))]) ∧
      (∃ t, exec .qpError s = .next t ∧ StoredOutside s t a 0 [] ∧ (t.qp a).words = [] ∧ (t.qp a).inbox = [] ∧
        t.mem.read entry = s.mem.read entry ||| 2 ∧
        ∀ i, i < 4 → t.mem.read (entry + 0xF0 + i) = s.pick.word.extractLsb' (8 * i) 8)) ∧
    (MemoryInv s → s.cells = [] → s.qpExists a = true →
      ((s.mem.read entry).getLsbD 0 = false → (s.qp a).stopped = false →
        ∃ t, exec .qpValidClear s = .next t ∧ StoredOutside s t a 0 [] ∧ (t.qp a).stopped = true ∧
          t.mem.read entry = s.mem.read entry ||| 4) ∧
      ((s.mem.read entry).getLsbD 0 = true → (s.mem.read entry).getLsbD 2 = false → (s.qp a).stopped = true →
        ∃ t, exec .qpValidSet s = .next t ∧ StoredOutside s t a 0 [] ∧ (t.qp a).stopped = false ∧
          t.mem.read entry = s.mem.read entry &&& 0xFD ∧ ∀ i, i < 4 → t.mem.read (entry + 0xF0 + i) = 0)) ∧
    (a < 16 → ∃ t, exec .ethPortStateChange s = .next t ∧ (t.preg 0x3F3).getLsbD a = s.pick.flag ∧
      (∀ i, i ≠ a → (t.preg 0x3F3).getLsbD i = (s.preg 0x3F3).getLsbD i) ∧ OnlyReg s t 0x3F3) ∧
    (∀ l conv q ws ends out held, let pos := if s.pick.flag then 3 else 1
      (s.nodeLinks a pos).head? = some (l, conv, q) →
      completeGroup conv l.held.length (s.linkWords l a pos q) = some (ws, ends) →
      convertGroup conv l.held ws ends = .ok (out, held) → l.wire.length ≥ ws.length → l.pass = [] →
      (s.cluster a).edgeIn.find (edgeKey pos q) = none → (∀ m ∈ s.links, m.id = l.id → m = l) → l ∈ s.links →
      ∃ t xs, exec .converterGroup s = .next t ∧ (t.cluster a).turn.find pos = some (q + 1) ∧
        t.link? l.id = some { l with wire := l.wire.drop ws.length, freed := l.freed + ws.length, held := held } ∧
        Gained s t pos q xs ∧ xs.map (·.word) = out ∧ t.elems = s.elems ∧
        (bitsAt conv 30 2 = 1 → ∀ i x, xs[i]? = some x → x.tag = if i + 1 = xs.length then 3 else 0) ∧
        (bitsAt conv 30 2 = 3 → ends = true → ∀ x, xs.getLast? = some x → x.tag = 3)) ∧
    (∀ conv held ws ends out kept, convertGroup conv held ws ends = .ok (out, kept) →
      bitsAt conv 16 8 ∈ [0x11, 0x12, 0x14, 0x21, 0x22, 0x31, 0x32] → Converts conv held ws ends out kept)

/-- R325: a signal sets its pending bit and no other, and sends its vector when the bit is newly pending and enabled, so
that a second signal sends none; writing 1 clears; enabling a pending bit sends its vector at once; CPL_IRQ[0] enables
vector 64. -/
def Obligations.SignalsSendVectors : Prop :=
  (∀ (s : State) (n : Nat), n < 64 →
    let pend := sigPend (decide (32 ≤ n))
    let en := sigEn (decide (32 ≤ n))
    let t := s.setSignal n
    (∀ i, i < 32 → (t.preg pend).getLsbD i = ((s.preg pend).getLsbD i || decide (i = n % 32))) ∧ OnlyReg s t pend ∧
    t.outside = s.outside ++ (if (s.preg pend).getLsbD (n % 32) = false ∧ (s.preg en).getLsbD (n % 32) = true then
      [Outside.vector n] else []) ∧
    (t.setSignal n).outside = t.outside) ∧
  (∀ s : State, let pend := sigPend s.pick.flag
    ∃ t, exec .sigPendWrite s = .next t ∧ t.outside = s.outside ∧
      ∀ i, i < 32 → (t.preg pend).getLsbD i = ((s.preg pend).getLsbD i && !s.pick.word.getLsbD i)) ∧
  (∀ s : State, let pend := sigPend s.pick.flag
    let en := sigEn s.pick.flag
    ∃ t, exec .sigEnWrite s = .next t ∧ t.preg en = s.pick.word ∧ t.preg pend = s.preg pend ∧
      t.outside = s.outside ++ ((List.range 32).filter fun i => s.pick.word.getLsbD i && !(s.preg en).getLsbD i &&
        (s.preg pend).getLsbD i).map fun i => Outside.vector (i + if s.pick.flag then 32 else 0)) ∧
  (∀ (s : State) (c : Chain), c.notify = true →
    (s.notify c).outside = s.outside ++ if (s.preg 0x2A4).getLsbD 0 = true then [Outside.vector 64] else [])
end

