-- ==== Sys2Proof/Laws/State.lean ====
section
/-!
SUPPORT. The fields of the state and of an element after each update: one lemma per field per update, each true by
its definition, so that no later proof opens a record update.
-/
namespace Sys2Proof.Machine

/-! ### `State.setElem` -/

@[simp] theorem State.setElem_elems (s : State) (k : Nat) (e : Elem) : (s.setElem k e).elems = s.elems.put k e := rfl
@[simp] theorem State.setElem_cores (s : State) (k : Nat) (e : Elem) : (s.setElem k e).cores = s.cores := rfl
@[simp] theorem State.setElem_clusters (s : State) (k : Nat) (e : Elem) : (s.setElem k e).clusters = s.clusters := rfl
@[simp] theorem State.setElem_links (s : State) (k : Nat) (e : Elem) : (s.setElem k e).links = s.links := rfl
@[simp] theorem State.setElem_binds (s : State) (k : Nat) (e : Elem) : (s.setElem k e).binds = s.binds := rfl
@[simp] theorem State.setElem_mem (s : State) (k : Nat) (e : Elem) : (s.setElem k e).mem = s.mem := rfl
@[simp] theorem State.setElem_scratch (s : State) (k : Nat) (e : Elem) : (s.setElem k e).scratch = s.scratch := rfl
@[simp] theorem State.setElem_copies (s : State) (k : Nat) (e : Elem) : (s.setElem k e).copies = s.copies := rfl
@[simp] theorem State.setElem_early (s : State) (k : Nat) (e : Elem) : (s.setElem k e).early = s.early := rfl
@[simp] theorem State.setElem_l1 (s : State) (k : Nat) (e : Elem) : (s.setElem k e).l1 = s.l1 := rfl
@[simp] theorem State.setElem_poison (s : State) (k : Nat) (e : Elem) : (s.setElem k e).poison = s.poison := rfl
@[simp] theorem State.setElem_copyPoison (s : State) (k : Nat) (e : Elem) :
    (s.setElem k e).copyPoison = s.copyPoison := rfl
@[simp] theorem State.setElem_scratchPoison (s : State) (k : Nat) (e : Elem) :
    (s.setElem k e).scratchPoison = s.scratchPoison := rfl
@[simp] theorem State.setElem_cached (s : State) (k : Nat) (e : Elem) : (s.setElem k e).cached = s.cached := rfl
@[simp] theorem State.setElem_pins (s : State) (k : Nat) (e : Elem) : (s.setElem k e).pins = s.pins := rfl
@[simp] theorem State.setElem_reqs (s : State) (k : Nat) (e : Elem) : (s.setElem k e).reqs = s.reqs := rfl
@[simp] theorem State.setElem_dones (s : State) (k : Nat) (e : Elem) : (s.setElem k e).dones = s.dones := rfl
@[simp] theorem State.setElem_domains (s : State) (k : Nat) (e : Elem) : (s.setElem k e).domains = s.domains := rfl
@[simp] theorem State.setElem_cells (s : State) (k : Nat) (e : Elem) : (s.setElem k e).cells = s.cells := rfl
@[simp] theorem State.setElem_spurs (s : State) (k : Nat) (e : Elem) : (s.setElem k e).spurs = s.spurs := rfl
@[simp] theorem State.setElem_chains (s : State) (k : Nat) (e : Elem) : (s.setElem k e).chains = s.chains := rfl
@[simp] theorem State.setElem_resumes (s : State) (k : Nat) (e : Elem) : (s.setElem k e).resumes = s.resumes := rfl
@[simp] theorem State.setElem_deliveries (s : State) (k : Nat) (e : Elem) :
    (s.setElem k e).deliveries = s.deliveries := rfl
@[simp] theorem State.setElem_oldPages (s : State) (k : Nat) (e : Elem) : (s.setElem k e).oldPages = s.oldPages := rfl
@[simp] theorem State.setElem_regs (s : State) (k : Nat) (e : Elem) : (s.setElem k e).regs = s.regs := rfl
@[simp] theorem State.setElem_transSeq (s : State) (k : Nat) (e : Elem) : (s.setElem k e).transSeq = s.transSeq := rfl
@[simp] theorem State.setElem_qps (s : State) (k : Nat) (e : Elem) : (s.setElem k e).qps = s.qps := rfl
@[simp] theorem State.setElem_kucor (s : State) (k : Nat) (e : Elem) : (s.setElem k e).kucor = s.kucor := rfl
@[simp] theorem State.setElem_outside (s : State) (k : Nat) (e : Elem) : (s.setElem k e).outside = s.outside := rfl
@[simp] theorem State.setElem_timeNs (s : State) (k : Nat) (e : Elem) : (s.setElem k e).timeNs = s.timeNs := rfl
@[simp] theorem State.setElem_tick (s : State) (k : Nat) (e : Elem) : (s.setElem k e).tick = s.tick := rfl
@[simp] theorem State.setElem_nextId (s : State) (k : Nat) (e : Elem) : (s.setElem k e).nextId = s.nextId := rfl
@[simp] theorem State.setElem_agenda (s : State) (k : Nat) (e : Elem) : (s.setElem k e).agenda = s.agenda := rfl
@[simp] theorem State.setElem_pick (s : State) (k : Nat) (e : Elem) : (s.setElem k e).pick = s.pick := rfl
@[simp] theorem State.setElem_walk (s : State) (k : Nat) (e : Elem) : (s.setElem k e).walk = s.walk := rfl
@[simp] theorem State.setElem_cur (s : State) (k : Nat) (e : Elem) : (s.setElem k e).cur = s.cur := rfl

/-! ### `State.updElem` -/

@[simp] theorem State.updElem_elems (s : State) (k : Nat) (f : Elem → Elem) :
    (s.updElem k f).elems = s.elems.put k (f (s.elem k)) := rfl
@[simp] theorem State.updElem_cores (s : State) (k : Nat) (f : Elem → Elem) : (s.updElem k f).cores = s.cores := rfl
@[simp] theorem State.updElem_clusters (s : State) (k : Nat) (f : Elem → Elem) :
    (s.updElem k f).clusters = s.clusters := rfl
@[simp] theorem State.updElem_links (s : State) (k : Nat) (f : Elem → Elem) : (s.updElem k f).links = s.links := rfl
@[simp] theorem State.updElem_binds (s : State) (k : Nat) (f : Elem → Elem) : (s.updElem k f).binds = s.binds := rfl
@[simp] theorem State.updElem_mem (s : State) (k : Nat) (f : Elem → Elem) : (s.updElem k f).mem = s.mem := rfl
@[simp] theorem State.updElem_scratch (s : State) (k : Nat) (f : Elem → Elem) :
    (s.updElem k f).scratch = s.scratch := rfl
@[simp] theorem State.updElem_copies (s : State) (k : Nat) (f : Elem → Elem) :
    (s.updElem k f).copies = s.copies := rfl
@[simp] theorem State.updElem_early (s : State) (k : Nat) (f : Elem → Elem) :
    (s.updElem k f).early = s.early := rfl
@[simp] theorem State.updElem_l1 (s : State) (k : Nat) (f : Elem → Elem) : (s.updElem k f).l1 = s.l1 := rfl
@[simp] theorem State.updElem_poison (s : State) (k : Nat) (f : Elem → Elem) :
    (s.updElem k f).poison = s.poison := rfl
@[simp] theorem State.updElem_copyPoison (s : State) (k : Nat) (f : Elem → Elem) :
    (s.updElem k f).copyPoison = s.copyPoison := rfl
@[simp] theorem State.updElem_scratchPoison (s : State) (k : Nat) (f : Elem → Elem) :
    (s.updElem k f).scratchPoison = s.scratchPoison := rfl
@[simp] theorem State.updElem_cached (s : State) (k : Nat) (f : Elem → Elem) :
    (s.updElem k f).cached = s.cached := rfl
@[simp] theorem State.updElem_pins (s : State) (k : Nat) (f : Elem → Elem) : (s.updElem k f).pins = s.pins := rfl
@[simp] theorem State.updElem_reqs (s : State) (k : Nat) (f : Elem → Elem) : (s.updElem k f).reqs = s.reqs := rfl
@[simp] theorem State.updElem_dones (s : State) (k : Nat) (f : Elem → Elem) : (s.updElem k f).dones = s.dones := rfl
@[simp] theorem State.updElem_domains (s : State) (k : Nat) (f : Elem → Elem) :
    (s.updElem k f).domains = s.domains := rfl
@[simp] theorem State.updElem_cells (s : State) (k : Nat) (f : Elem → Elem) : (s.updElem k f).cells = s.cells := rfl
@[simp] theorem State.updElem_spurs (s : State) (k : Nat) (f : Elem → Elem) : (s.updElem k f).spurs = s.spurs := rfl
@[simp] theorem State.updElem_chains (s : State) (k : Nat) (f : Elem → Elem) :
    (s.updElem k f).chains = s.chains := rfl
@[simp] theorem State.updElem_resumes (s : State) (k : Nat) (f : Elem → Elem) :
    (s.updElem k f).resumes = s.resumes := rfl
@[simp] theorem State.updElem_deliveries (s : State) (k : Nat) (f : Elem → Elem) :
    (s.updElem k f).deliveries = s.deliveries := rfl
@[simp] theorem State.updElem_oldPages (s : State) (k : Nat) (f : Elem → Elem) :
    (s.updElem k f).oldPages = s.oldPages := rfl
@[simp] theorem State.updElem_regs (s : State) (k : Nat) (f : Elem → Elem) : (s.updElem k f).regs = s.regs := rfl
@[simp] theorem State.updElem_transSeq (s : State) (k : Nat) (f : Elem → Elem) :
    (s.updElem k f).transSeq = s.transSeq := rfl
@[simp] theorem State.updElem_qps (s : State) (k : Nat) (f : Elem → Elem) : (s.updElem k f).qps = s.qps := rfl
@[simp] theorem State.updElem_kucor (s : State) (k : Nat) (f : Elem → Elem) : (s.updElem k f).kucor = s.kucor := rfl
@[simp] theorem State.updElem_outside (s : State) (k : Nat) (f : Elem → Elem) :
    (s.updElem k f).outside = s.outside := rfl
@[simp] theorem State.updElem_timeNs (s : State) (k : Nat) (f : Elem → Elem) :
    (s.updElem k f).timeNs = s.timeNs := rfl
@[simp] theorem State.updElem_tick (s : State) (k : Nat) (f : Elem → Elem) : (s.updElem k f).tick = s.tick := rfl
@[simp] theorem State.updElem_nextId (s : State) (k : Nat) (f : Elem → Elem) :
    (s.updElem k f).nextId = s.nextId := rfl
@[simp] theorem State.updElem_agenda (s : State) (k : Nat) (f : Elem → Elem) :
    (s.updElem k f).agenda = s.agenda := rfl
@[simp] theorem State.updElem_pick (s : State) (k : Nat) (f : Elem → Elem) : (s.updElem k f).pick = s.pick := rfl
@[simp] theorem State.updElem_walk (s : State) (k : Nat) (f : Elem → Elem) : (s.updElem k f).walk = s.walk := rfl
@[simp] theorem State.updElem_cur (s : State) (k : Nat) (f : Elem → Elem) : (s.updElem k f).cur = s.cur := rfl

/-! ### `State.updMe` -/

@[simp] theorem State.updMe_elems (s : State) (f : Elem → Elem) :
    (s.updMe f).elems = s.elems.put s.cur.elem (f s.me) := rfl
@[simp] theorem State.updMe_cores (s : State) (f : Elem → Elem) : (s.updMe f).cores = s.cores := rfl
@[simp] theorem State.updMe_clusters (s : State) (f : Elem → Elem) : (s.updMe f).clusters = s.clusters := rfl
@[simp] theorem State.updMe_links (s : State) (f : Elem → Elem) : (s.updMe f).links = s.links := rfl
@[simp] theorem State.updMe_binds (s : State) (f : Elem → Elem) : (s.updMe f).binds = s.binds := rfl
@[simp] theorem State.updMe_mem (s : State) (f : Elem → Elem) : (s.updMe f).mem = s.mem := rfl
@[simp] theorem State.updMe_scratch (s : State) (f : Elem → Elem) : (s.updMe f).scratch = s.scratch := rfl
@[simp] theorem State.updMe_copies (s : State) (f : Elem → Elem) : (s.updMe f).copies = s.copies := rfl
@[simp] theorem State.updMe_early (s : State) (f : Elem → Elem) : (s.updMe f).early = s.early := rfl
@[simp] theorem State.updMe_l1 (s : State) (f : Elem → Elem) : (s.updMe f).l1 = s.l1 := rfl
@[simp] theorem State.updMe_poison (s : State) (f : Elem → Elem) : (s.updMe f).poison = s.poison := rfl
@[simp] theorem State.updMe_copyPoison (s : State) (f : Elem → Elem) : (s.updMe f).copyPoison = s.copyPoison := rfl
@[simp] theorem State.updMe_scratchPoison (s : State) (f : Elem → Elem) :
    (s.updMe f).scratchPoison = s.scratchPoison := rfl
@[simp] theorem State.updMe_cached (s : State) (f : Elem → Elem) : (s.updMe f).cached = s.cached := rfl
@[simp] theorem State.updMe_pins (s : State) (f : Elem → Elem) : (s.updMe f).pins = s.pins := rfl
@[simp] theorem State.updMe_reqs (s : State) (f : Elem → Elem) : (s.updMe f).reqs = s.reqs := rfl
@[simp] theorem State.updMe_dones (s : State) (f : Elem → Elem) : (s.updMe f).dones = s.dones := rfl
@[simp] theorem State.updMe_domains (s : State) (f : Elem → Elem) : (s.updMe f).domains = s.domains := rfl
@[simp] theorem State.updMe_cells (s : State) (f : Elem → Elem) : (s.updMe f).cells = s.cells := rfl
@[simp] theorem State.updMe_spurs (s : State) (f : Elem → Elem) : (s.updMe f).spurs = s.spurs := rfl
@[simp] theorem State.updMe_chains (s : State) (f : Elem → Elem) : (s.updMe f).chains = s.chains := rfl
@[simp] theorem State.updMe_resumes (s : State) (f : Elem → Elem) : (s.updMe f).resumes = s.resumes := rfl
@[simp] theorem State.updMe_deliveries (s : State) (f : Elem → Elem) : (s.updMe f).deliveries = s.deliveries := rfl
@[simp] theorem State.updMe_oldPages (s : State) (f : Elem → Elem) : (s.updMe f).oldPages = s.oldPages := rfl
@[simp] theorem State.updMe_regs (s : State) (f : Elem → Elem) : (s.updMe f).regs = s.regs := rfl
@[simp] theorem State.updMe_transSeq (s : State) (f : Elem → Elem) : (s.updMe f).transSeq = s.transSeq := rfl
@[simp] theorem State.updMe_qps (s : State) (f : Elem → Elem) : (s.updMe f).qps = s.qps := rfl
@[simp] theorem State.updMe_kucor (s : State) (f : Elem → Elem) : (s.updMe f).kucor = s.kucor := rfl
@[simp] theorem State.updMe_outside (s : State) (f : Elem → Elem) : (s.updMe f).outside = s.outside := rfl
@[simp] theorem State.updMe_timeNs (s : State) (f : Elem → Elem) : (s.updMe f).timeNs = s.timeNs := rfl
@[simp] theorem State.updMe_tick (s : State) (f : Elem → Elem) : (s.updMe f).tick = s.tick := rfl
@[simp] theorem State.updMe_nextId (s : State) (f : Elem → Elem) : (s.updMe f).nextId = s.nextId := rfl
@[simp] theorem State.updMe_agenda (s : State) (f : Elem → Elem) : (s.updMe f).agenda = s.agenda := rfl
@[simp] theorem State.updMe_pick (s : State) (f : Elem → Elem) : (s.updMe f).pick = s.pick := rfl
@[simp] theorem State.updMe_walk (s : State) (f : Elem → Elem) : (s.updMe f).walk = s.walk := rfl
@[simp] theorem State.updMe_cur (s : State) (f : Elem → Elem) : (s.updMe f).cur = s.cur := rfl

/-! ### `State.setCore` -/

@[simp] theorem State.setCore_elems (s : State) (k : Nat) (c : Core) : (s.setCore k c).elems = s.elems := rfl
@[simp] theorem State.setCore_cores (s : State) (k : Nat) (c : Core) : (s.setCore k c).cores = s.cores.put k c := rfl
@[simp] theorem State.setCore_clusters (s : State) (k : Nat) (c : Core) : (s.setCore k c).clusters = s.clusters := rfl
@[simp] theorem State.setCore_links (s : State) (k : Nat) (c : Core) : (s.setCore k c).links = s.links := rfl
@[simp] theorem State.setCore_binds (s : State) (k : Nat) (c : Core) : (s.setCore k c).binds = s.binds := rfl
@[simp] theorem State.setCore_mem (s : State) (k : Nat) (c : Core) : (s.setCore k c).mem = s.mem := rfl
@[simp] theorem State.setCore_scratch (s : State) (k : Nat) (c : Core) : (s.setCore k c).scratch = s.scratch := rfl
@[simp] theorem State.setCore_copies (s : State) (k : Nat) (c : Core) : (s.setCore k c).copies = s.copies := rfl
@[simp] theorem State.setCore_early (s : State) (k : Nat) (c : Core) : (s.setCore k c).early = s.early := rfl
@[simp] theorem State.setCore_l1 (s : State) (k : Nat) (c : Core) : (s.setCore k c).l1 = s.l1 := rfl
@[simp] theorem State.setCore_poison (s : State) (k : Nat) (c : Core) : (s.setCore k c).poison = s.poison := rfl
@[simp] theorem State.setCore_copyPoison (s : State) (k : Nat) (c : Core) :
    (s.setCore k c).copyPoison = s.copyPoison := rfl
@[simp] theorem State.setCore_scratchPoison (s : State) (k : Nat) (c : Core) :
    (s.setCore k c).scratchPoison = s.scratchPoison := rfl
@[simp] theorem State.setCore_cached (s : State) (k : Nat) (c : Core) : (s.setCore k c).cached = s.cached := rfl
@[simp] theorem State.setCore_pins (s : State) (k : Nat) (c : Core) : (s.setCore k c).pins = s.pins := rfl
@[simp] theorem State.setCore_reqs (s : State) (k : Nat) (c : Core) : (s.setCore k c).reqs = s.reqs := rfl
@[simp] theorem State.setCore_dones (s : State) (k : Nat) (c : Core) : (s.setCore k c).dones = s.dones := rfl
@[simp] theorem State.setCore_domains (s : State) (k : Nat) (c : Core) : (s.setCore k c).domains = s.domains := rfl
@[simp] theorem State.setCore_cells (s : State) (k : Nat) (c : Core) : (s.setCore k c).cells = s.cells := rfl
@[simp] theorem State.setCore_spurs (s : State) (k : Nat) (c : Core) : (s.setCore k c).spurs = s.spurs := rfl
@[simp] theorem State.setCore_chains (s : State) (k : Nat) (c : Core) : (s.setCore k c).chains = s.chains := rfl
@[simp] theorem State.setCore_resumes (s : State) (k : Nat) (c : Core) : (s.setCore k c).resumes = s.resumes := rfl
@[simp] theorem State.setCore_deliveries (s : State) (k : Nat) (c : Core) :
    (s.setCore k c).deliveries = s.deliveries := rfl
@[simp] theorem State.setCore_oldPages (s : State) (k : Nat) (c : Core) : (s.setCore k c).oldPages = s.oldPages := rfl
@[simp] theorem State.setCore_regs (s : State) (k : Nat) (c : Core) : (s.setCore k c).regs = s.regs := rfl
@[simp] theorem State.setCore_transSeq (s : State) (k : Nat) (c : Core) : (s.setCore k c).transSeq = s.transSeq := rfl
@[simp] theorem State.setCore_qps (s : State) (k : Nat) (c : Core) : (s.setCore k c).qps = s.qps := rfl
@[simp] theorem State.setCore_kucor (s : State) (k : Nat) (c : Core) : (s.setCore k c).kucor = s.kucor := rfl
@[simp] theorem State.setCore_outside (s : State) (k : Nat) (c : Core) : (s.setCore k c).outside = s.outside := rfl
@[simp] theorem State.setCore_timeNs (s : State) (k : Nat) (c : Core) : (s.setCore k c).timeNs = s.timeNs := rfl
@[simp] theorem State.setCore_tick (s : State) (k : Nat) (c : Core) : (s.setCore k c).tick = s.tick := rfl
@[simp] theorem State.setCore_nextId (s : State) (k : Nat) (c : Core) : (s.setCore k c).nextId = s.nextId := rfl
@[simp] theorem State.setCore_agenda (s : State) (k : Nat) (c : Core) : (s.setCore k c).agenda = s.agenda := rfl
@[simp] theorem State.setCore_pick (s : State) (k : Nat) (c : Core) : (s.setCore k c).pick = s.pick := rfl
@[simp] theorem State.setCore_walk (s : State) (k : Nat) (c : Core) : (s.setCore k c).walk = s.walk := rfl
@[simp] theorem State.setCore_cur (s : State) (k : Nat) (c : Core) : (s.setCore k c).cur = s.cur := rfl

/-! ### `State.updCore` -/

@[simp] theorem State.updCore_elems (s : State) (k : Nat) (f : Core → Core) : (s.updCore k f).elems = s.elems := rfl
@[simp] theorem State.updCore_cores (s : State) (k : Nat) (f : Core → Core) :
    (s.updCore k f).cores = s.cores.put k (f (s.core k)) := rfl
@[simp] theorem State.updCore_clusters (s : State) (k : Nat) (f : Core → Core) :
    (s.updCore k f).clusters = s.clusters := rfl
@[simp] theorem State.updCore_links (s : State) (k : Nat) (f : Core → Core) : (s.updCore k f).links = s.links := rfl
@[simp] theorem State.updCore_binds (s : State) (k : Nat) (f : Core → Core) : (s.updCore k f).binds = s.binds := rfl
@[simp] theorem State.updCore_mem (s : State) (k : Nat) (f : Core → Core) : (s.updCore k f).mem = s.mem := rfl
@[simp] theorem State.updCore_scratch (s : State) (k : Nat) (f : Core → Core) :
    (s.updCore k f).scratch = s.scratch := rfl
@[simp] theorem State.updCore_copies (s : State) (k : Nat) (f : Core → Core) :
    (s.updCore k f).copies = s.copies := rfl
@[simp] theorem State.updCore_early (s : State) (k : Nat) (f : Core → Core) :
    (s.updCore k f).early = s.early := rfl
@[simp] theorem State.updCore_l1 (s : State) (k : Nat) (f : Core → Core) : (s.updCore k f).l1 = s.l1 := rfl
@[simp] theorem State.updCore_poison (s : State) (k : Nat) (f : Core → Core) :
    (s.updCore k f).poison = s.poison := rfl
@[simp] theorem State.updCore_copyPoison (s : State) (k : Nat) (f : Core → Core) :
    (s.updCore k f).copyPoison = s.copyPoison := rfl
@[simp] theorem State.updCore_scratchPoison (s : State) (k : Nat) (f : Core → Core) :
    (s.updCore k f).scratchPoison = s.scratchPoison := rfl
@[simp] theorem State.updCore_cached (s : State) (k : Nat) (f : Core → Core) :
    (s.updCore k f).cached = s.cached := rfl
@[simp] theorem State.updCore_pins (s : State) (k : Nat) (f : Core → Core) : (s.updCore k f).pins = s.pins := rfl
@[simp] theorem State.updCore_reqs (s : State) (k : Nat) (f : Core → Core) : (s.updCore k f).reqs = s.reqs := rfl
@[simp] theorem State.updCore_dones (s : State) (k : Nat) (f : Core → Core) : (s.updCore k f).dones = s.dones := rfl
@[simp] theorem State.updCore_domains (s : State) (k : Nat) (f : Core → Core) :
    (s.updCore k f).domains = s.domains := rfl
@[simp] theorem State.updCore_cells (s : State) (k : Nat) (f : Core → Core) : (s.updCore k f).cells = s.cells := rfl
@[simp] theorem State.updCore_spurs (s : State) (k : Nat) (f : Core → Core) : (s.updCore k f).spurs = s.spurs := rfl
@[simp] theorem State.updCore_chains (s : State) (k : Nat) (f : Core → Core) :
    (s.updCore k f).chains = s.chains := rfl
@[simp] theorem State.updCore_resumes (s : State) (k : Nat) (f : Core → Core) :
    (s.updCore k f).resumes = s.resumes := rfl
@[simp] theorem State.updCore_deliveries (s : State) (k : Nat) (f : Core → Core) :
    (s.updCore k f).deliveries = s.deliveries := rfl
@[simp] theorem State.updCore_oldPages (s : State) (k : Nat) (f : Core → Core) :
    (s.updCore k f).oldPages = s.oldPages := rfl
@[simp] theorem State.updCore_regs (s : State) (k : Nat) (f : Core → Core) : (s.updCore k f).regs = s.regs := rfl
@[simp] theorem State.updCore_transSeq (s : State) (k : Nat) (f : Core → Core) :
    (s.updCore k f).transSeq = s.transSeq := rfl
@[simp] theorem State.updCore_qps (s : State) (k : Nat) (f : Core → Core) : (s.updCore k f).qps = s.qps := rfl
@[simp] theorem State.updCore_kucor (s : State) (k : Nat) (f : Core → Core) : (s.updCore k f).kucor = s.kucor := rfl
@[simp] theorem State.updCore_outside (s : State) (k : Nat) (f : Core → Core) :
    (s.updCore k f).outside = s.outside := rfl
@[simp] theorem State.updCore_timeNs (s : State) (k : Nat) (f : Core → Core) :
    (s.updCore k f).timeNs = s.timeNs := rfl
@[simp] theorem State.updCore_tick (s : State) (k : Nat) (f : Core → Core) : (s.updCore k f).tick = s.tick := rfl
@[simp] theorem State.updCore_nextId (s : State) (k : Nat) (f : Core → Core) :
    (s.updCore k f).nextId = s.nextId := rfl
@[simp] theorem State.updCore_agenda (s : State) (k : Nat) (f : Core → Core) :
    (s.updCore k f).agenda = s.agenda := rfl
@[simp] theorem State.updCore_pick (s : State) (k : Nat) (f : Core → Core) : (s.updCore k f).pick = s.pick := rfl
@[simp] theorem State.updCore_walk (s : State) (k : Nat) (f : Core → Core) : (s.updCore k f).walk = s.walk := rfl
@[simp] theorem State.updCore_cur (s : State) (k : Nat) (f : Core → Core) : (s.updCore k f).cur = s.cur := rfl

/-! ### `State.setCluster` -/

@[simp] theorem State.setCluster_elems (s : State) (k : Nat) (c : Cluster) : (s.setCluster k c).elems = s.elems := rfl
@[simp] theorem State.setCluster_cores (s : State) (k : Nat) (c : Cluster) : (s.setCluster k c).cores = s.cores := rfl
@[simp] theorem State.setCluster_clusters (s : State) (k : Nat) (c : Cluster) :
    (s.setCluster k c).clusters = s.clusters.put k c := rfl
@[simp] theorem State.setCluster_links (s : State) (k : Nat) (c : Cluster) : (s.setCluster k c).links = s.links := rfl
@[simp] theorem State.setCluster_binds (s : State) (k : Nat) (c : Cluster) : (s.setCluster k c).binds = s.binds := rfl
@[simp] theorem State.setCluster_mem (s : State) (k : Nat) (c : Cluster) : (s.setCluster k c).mem = s.mem := rfl
@[simp] theorem State.setCluster_scratch (s : State) (k : Nat) (c : Cluster) :
    (s.setCluster k c).scratch = s.scratch := rfl
@[simp] theorem State.setCluster_copies (s : State) (k : Nat) (c : Cluster) :
    (s.setCluster k c).copies = s.copies := rfl
@[simp] theorem State.setCluster_early (s : State) (k : Nat) (c : Cluster) :
    (s.setCluster k c).early = s.early := rfl
@[simp] theorem State.setCluster_l1 (s : State) (k : Nat) (c : Cluster) : (s.setCluster k c).l1 = s.l1 := rfl
@[simp] theorem State.setCluster_poison (s : State) (k : Nat) (c : Cluster) :
    (s.setCluster k c).poison = s.poison := rfl
@[simp] theorem State.setCluster_copyPoison (s : State) (k : Nat) (c : Cluster) :
    (s.setCluster k c).copyPoison = s.copyPoison := rfl
@[simp] theorem State.setCluster_scratchPoison (s : State) (k : Nat) (c : Cluster) :
    (s.setCluster k c).scratchPoison = s.scratchPoison := rfl
@[simp] theorem State.setCluster_cached (s : State) (k : Nat) (c : Cluster) :
    (s.setCluster k c).cached = s.cached := rfl
@[simp] theorem State.setCluster_pins (s : State) (k : Nat) (c : Cluster) : (s.setCluster k c).pins = s.pins := rfl
@[simp] theorem State.setCluster_reqs (s : State) (k : Nat) (c : Cluster) : (s.setCluster k c).reqs = s.reqs := rfl
@[simp] theorem State.setCluster_dones (s : State) (k : Nat) (c : Cluster) : (s.setCluster k c).dones = s.dones := rfl
@[simp] theorem State.setCluster_domains (s : State) (k : Nat) (c : Cluster) :
    (s.setCluster k c).domains = s.domains := rfl
@[simp] theorem State.setCluster_cells (s : State) (k : Nat) (c : Cluster) : (s.setCluster k c).cells = s.cells := rfl
@[simp] theorem State.setCluster_spurs (s : State) (k : Nat) (c : Cluster) : (s.setCluster k c).spurs = s.spurs := rfl
@[simp] theorem State.setCluster_chains (s : State) (k : Nat) (c : Cluster) :
    (s.setCluster k c).chains = s.chains := rfl
@[simp] theorem State.setCluster_resumes (s : State) (k : Nat) (c : Cluster) :
    (s.setCluster k c).resumes = s.resumes := rfl
@[simp] theorem State.setCluster_deliveries (s : State) (k : Nat) (c : Cluster) :
    (s.setCluster k c).deliveries = s.deliveries := rfl
@[simp] theorem State.setCluster_oldPages (s : State) (k : Nat) (c : Cluster) :
    (s.setCluster k c).oldPages = s.oldPages := rfl
@[simp] theorem State.setCluster_regs (s : State) (k : Nat) (c : Cluster) : (s.setCluster k c).regs = s.regs := rfl
@[simp] theorem State.setCluster_transSeq (s : State) (k : Nat) (c : Cluster) :
    (s.setCluster k c).transSeq = s.transSeq := rfl
@[simp] theorem State.setCluster_qps (s : State) (k : Nat) (c : Cluster) : (s.setCluster k c).qps = s.qps := rfl
@[simp] theorem State.setCluster_kucor (s : State) (k : Nat) (c : Cluster) : (s.setCluster k c).kucor = s.kucor := rfl
@[simp] theorem State.setCluster_outside (s : State) (k : Nat) (c : Cluster) :
    (s.setCluster k c).outside = s.outside := rfl
@[simp] theorem State.setCluster_timeNs (s : State) (k : Nat) (c : Cluster) :
    (s.setCluster k c).timeNs = s.timeNs := rfl
@[simp] theorem State.setCluster_tick (s : State) (k : Nat) (c : Cluster) : (s.setCluster k c).tick = s.tick := rfl
@[simp] theorem State.setCluster_nextId (s : State) (k : Nat) (c : Cluster) :
    (s.setCluster k c).nextId = s.nextId := rfl
@[simp] theorem State.setCluster_agenda (s : State) (k : Nat) (c : Cluster) :
    (s.setCluster k c).agenda = s.agenda := rfl
@[simp] theorem State.setCluster_pick (s : State) (k : Nat) (c : Cluster) : (s.setCluster k c).pick = s.pick := rfl
@[simp] theorem State.setCluster_walk (s : State) (k : Nat) (c : Cluster) : (s.setCluster k c).walk = s.walk := rfl
@[simp] theorem State.setCluster_cur (s : State) (k : Nat) (c : Cluster) : (s.setCluster k c).cur = s.cur := rfl

/-! ### `State.updCluster` -/

@[simp] theorem State.updCluster_elems (s : State) (k : Nat) (f : Cluster → Cluster) :
    (s.updCluster k f).elems = s.elems := rfl
@[simp] theorem State.updCluster_cores (s : State) (k : Nat) (f : Cluster → Cluster) :
    (s.updCluster k f).cores = s.cores := rfl
@[simp] theorem State.updCluster_clusters (s : State) (k : Nat) (f : Cluster → Cluster) :
    (s.updCluster k f).clusters = s.clusters.put k (f (s.cluster k)) := rfl
@[simp] theorem State.updCluster_links (s : State) (k : Nat) (f : Cluster → Cluster) :
    (s.updCluster k f).links = s.links := rfl
@[simp] theorem State.updCluster_binds (s : State) (k : Nat) (f : Cluster → Cluster) :
    (s.updCluster k f).binds = s.binds := rfl
@[simp] theorem State.updCluster_mem (s : State) (k : Nat) (f : Cluster → Cluster) :
    (s.updCluster k f).mem = s.mem := rfl
@[simp] theorem State.updCluster_scratch (s : State) (k : Nat) (f : Cluster → Cluster) :
    (s.updCluster k f).scratch = s.scratch := rfl
@[simp] theorem State.updCluster_copies (s : State) (k : Nat) (f : Cluster → Cluster) :
    (s.updCluster k f).copies = s.copies := rfl
@[simp] theorem State.updCluster_early (s : State) (k : Nat) (f : Cluster → Cluster) :
    (s.updCluster k f).early = s.early := rfl
@[simp] theorem State.updCluster_l1 (s : State) (k : Nat) (f : Cluster → Cluster) :
    (s.updCluster k f).l1 = s.l1 := rfl
@[simp] theorem State.updCluster_poison (s : State) (k : Nat) (f : Cluster → Cluster) :
    (s.updCluster k f).poison = s.poison := rfl
@[simp] theorem State.updCluster_copyPoison (s : State) (k : Nat) (f : Cluster → Cluster) :
    (s.updCluster k f).copyPoison = s.copyPoison := rfl
@[simp] theorem State.updCluster_scratchPoison (s : State) (k : Nat) (f : Cluster → Cluster) :
    (s.updCluster k f).scratchPoison = s.scratchPoison := rfl
@[simp] theorem State.updCluster_cached (s : State) (k : Nat) (f : Cluster → Cluster) :
    (s.updCluster k f).cached = s.cached := rfl
@[simp] theorem State.updCluster_pins (s : State) (k : Nat) (f : Cluster → Cluster) :
    (s.updCluster k f).pins = s.pins := rfl
@[simp] theorem State.updCluster_reqs (s : State) (k : Nat) (f : Cluster → Cluster) :
    (s.updCluster k f).reqs = s.reqs := rfl
@[simp] theorem State.updCluster_dones (s : State) (k : Nat) (f : Cluster → Cluster) :
    (s.updCluster k f).dones = s.dones := rfl
@[simp] theorem State.updCluster_domains (s : State) (k : Nat) (f : Cluster → Cluster) :
    (s.updCluster k f).domains = s.domains := rfl
@[simp] theorem State.updCluster_cells (s : State) (k : Nat) (f : Cluster → Cluster) :
    (s.updCluster k f).cells = s.cells := rfl
@[simp] theorem State.updCluster_spurs (s : State) (k : Nat) (f : Cluster → Cluster) :
    (s.updCluster k f).spurs = s.spurs := rfl
@[simp] theorem State.updCluster_chains (s : State) (k : Nat) (f : Cluster → Cluster) :
    (s.updCluster k f).chains = s.chains := rfl
@[simp] theorem State.updCluster_resumes (s : State) (k : Nat) (f : Cluster → Cluster) :
    (s.updCluster k f).resumes = s.resumes := rfl
@[simp] theorem State.updCluster_deliveries (s : State) (k : Nat) (f : Cluster → Cluster) :
    (s.updCluster k f).deliveries = s.deliveries := rfl
@[simp] theorem State.updCluster_oldPages (s : State) (k : Nat) (f : Cluster → Cluster) :
    (s.updCluster k f).oldPages = s.oldPages := rfl
@[simp] theorem State.updCluster_regs (s : State) (k : Nat) (f : Cluster → Cluster) :
    (s.updCluster k f).regs = s.regs := rfl
@[simp] theorem State.updCluster_transSeq (s : State) (k : Nat) (f : Cluster → Cluster) :
    (s.updCluster k f).transSeq = s.transSeq := rfl
@[simp] theorem State.updCluster_qps (s : State) (k : Nat) (f : Cluster → Cluster) :
    (s.updCluster k f).qps = s.qps := rfl
@[simp] theorem State.updCluster_kucor (s : State) (k : Nat) (f : Cluster → Cluster) :
    (s.updCluster k f).kucor = s.kucor := rfl
@[simp] theorem State.updCluster_outside (s : State) (k : Nat) (f : Cluster → Cluster) :
    (s.updCluster k f).outside = s.outside := rfl
@[simp] theorem State.updCluster_timeNs (s : State) (k : Nat) (f : Cluster → Cluster) :
    (s.updCluster k f).timeNs = s.timeNs := rfl
@[simp] theorem State.updCluster_tick (s : State) (k : Nat) (f : Cluster → Cluster) :
    (s.updCluster k f).tick = s.tick := rfl
@[simp] theorem State.updCluster_nextId (s : State) (k : Nat) (f : Cluster → Cluster) :
    (s.updCluster k f).nextId = s.nextId := rfl
@[simp] theorem State.updCluster_agenda (s : State) (k : Nat) (f : Cluster → Cluster) :
    (s.updCluster k f).agenda = s.agenda := rfl
@[simp] theorem State.updCluster_pick (s : State) (k : Nat) (f : Cluster → Cluster) :
    (s.updCluster k f).pick = s.pick := rfl
@[simp] theorem State.updCluster_walk (s : State) (k : Nat) (f : Cluster → Cluster) :
    (s.updCluster k f).walk = s.walk := rfl
@[simp] theorem State.updCluster_cur (s : State) (k : Nat) (f : Cluster → Cluster) :
    (s.updCluster k f).cur = s.cur := rfl

/-! ### `State.bump` -/

@[simp] theorem State.bump_elems (s : State) : (s.bump).elems = s.elems := rfl
@[simp] theorem State.bump_cores (s : State) : (s.bump).cores = s.cores := rfl
@[simp] theorem State.bump_clusters (s : State) : (s.bump).clusters = s.clusters := rfl
@[simp] theorem State.bump_links (s : State) : (s.bump).links = s.links := rfl
@[simp] theorem State.bump_binds (s : State) : (s.bump).binds = s.binds := rfl
@[simp] theorem State.bump_mem (s : State) : (s.bump).mem = s.mem := rfl
@[simp] theorem State.bump_scratch (s : State) : (s.bump).scratch = s.scratch := rfl
@[simp] theorem State.bump_copies (s : State) : (s.bump).copies = s.copies := rfl
@[simp] theorem State.bump_early (s : State) : (s.bump).early = s.early := rfl
@[simp] theorem State.bump_l1 (s : State) : (s.bump).l1 = s.l1 := rfl
@[simp] theorem State.bump_poison (s : State) : (s.bump).poison = s.poison := rfl
@[simp] theorem State.bump_copyPoison (s : State) : (s.bump).copyPoison = s.copyPoison := rfl
@[simp] theorem State.bump_scratchPoison (s : State) : (s.bump).scratchPoison = s.scratchPoison := rfl
@[simp] theorem State.bump_cached (s : State) : (s.bump).cached = s.cached := rfl
@[simp] theorem State.bump_pins (s : State) : (s.bump).pins = s.pins := rfl
@[simp] theorem State.bump_reqs (s : State) : (s.bump).reqs = s.reqs := rfl
@[simp] theorem State.bump_dones (s : State) : (s.bump).dones = s.dones := rfl
@[simp] theorem State.bump_domains (s : State) : (s.bump).domains = s.domains := rfl
@[simp] theorem State.bump_cells (s : State) : (s.bump).cells = s.cells := rfl
@[simp] theorem State.bump_spurs (s : State) : (s.bump).spurs = s.spurs := rfl
@[simp] theorem State.bump_chains (s : State) : (s.bump).chains = s.chains := rfl
@[simp] theorem State.bump_resumes (s : State) : (s.bump).resumes = s.resumes := rfl
@[simp] theorem State.bump_deliveries (s : State) : (s.bump).deliveries = s.deliveries := rfl
@[simp] theorem State.bump_oldPages (s : State) : (s.bump).oldPages = s.oldPages := rfl
@[simp] theorem State.bump_regs (s : State) : (s.bump).regs = s.regs := rfl
@[simp] theorem State.bump_transSeq (s : State) : (s.bump).transSeq = s.transSeq := rfl
@[simp] theorem State.bump_qps (s : State) : (s.bump).qps = s.qps := rfl
@[simp] theorem State.bump_kucor (s : State) : (s.bump).kucor = s.kucor := rfl
@[simp] theorem State.bump_outside (s : State) : (s.bump).outside = s.outside := rfl
@[simp] theorem State.bump_timeNs (s : State) : (s.bump).timeNs = s.timeNs := rfl
@[simp] theorem State.bump_tick (s : State) : (s.bump).tick = s.tick := rfl
@[simp] theorem State.bump_nextId (s : State) : (s.bump).nextId = s.nextId + 1 := rfl
@[simp] theorem State.bump_agenda (s : State) : (s.bump).agenda = s.agenda := rfl
@[simp] theorem State.bump_pick (s : State) : (s.bump).pick = s.pick := rfl
@[simp] theorem State.bump_walk (s : State) : (s.bump).walk = s.walk := rfl
@[simp] theorem State.bump_cur (s : State) : (s.bump).cur = s.cur := rfl

/-! ### `State.updSpur` -/

@[simp] theorem State.updSpur_elems (s : State) (n : Nat) (f : Spur → Spur) : (s.updSpur n f).elems = s.elems := rfl
@[simp] theorem State.updSpur_cores (s : State) (n : Nat) (f : Spur → Spur) : (s.updSpur n f).cores = s.cores := rfl
@[simp] theorem State.updSpur_clusters (s : State) (n : Nat) (f : Spur → Spur) :
    (s.updSpur n f).clusters = s.clusters := rfl
@[simp] theorem State.updSpur_links (s : State) (n : Nat) (f : Spur → Spur) : (s.updSpur n f).links = s.links := rfl
@[simp] theorem State.updSpur_binds (s : State) (n : Nat) (f : Spur → Spur) : (s.updSpur n f).binds = s.binds := rfl
@[simp] theorem State.updSpur_mem (s : State) (n : Nat) (f : Spur → Spur) : (s.updSpur n f).mem = s.mem := rfl
@[simp] theorem State.updSpur_scratch (s : State) (n : Nat) (f : Spur → Spur) :
    (s.updSpur n f).scratch = s.scratch := rfl
@[simp] theorem State.updSpur_copies (s : State) (n : Nat) (f : Spur → Spur) :
    (s.updSpur n f).copies = s.copies := rfl
@[simp] theorem State.updSpur_early (s : State) (n : Nat) (f : Spur → Spur) :
    (s.updSpur n f).early = s.early := rfl
@[simp] theorem State.updSpur_l1 (s : State) (n : Nat) (f : Spur → Spur) : (s.updSpur n f).l1 = s.l1 := rfl
@[simp] theorem State.updSpur_poison (s : State) (n : Nat) (f : Spur → Spur) :
    (s.updSpur n f).poison = s.poison := rfl
@[simp] theorem State.updSpur_copyPoison (s : State) (n : Nat) (f : Spur → Spur) :
    (s.updSpur n f).copyPoison = s.copyPoison := rfl
@[simp] theorem State.updSpur_scratchPoison (s : State) (n : Nat) (f : Spur → Spur) :
    (s.updSpur n f).scratchPoison = s.scratchPoison := rfl
@[simp] theorem State.updSpur_cached (s : State) (n : Nat) (f : Spur → Spur) :
    (s.updSpur n f).cached = s.cached := rfl
@[simp] theorem State.updSpur_pins (s : State) (n : Nat) (f : Spur → Spur) : (s.updSpur n f).pins = s.pins := rfl
@[simp] theorem State.updSpur_reqs (s : State) (n : Nat) (f : Spur → Spur) : (s.updSpur n f).reqs = s.reqs := rfl
@[simp] theorem State.updSpur_dones (s : State) (n : Nat) (f : Spur → Spur) : (s.updSpur n f).dones = s.dones := rfl
@[simp] theorem State.updSpur_domains (s : State) (n : Nat) (f : Spur → Spur) :
    (s.updSpur n f).domains = s.domains := rfl
@[simp] theorem State.updSpur_cells (s : State) (n : Nat) (f : Spur → Spur) : (s.updSpur n f).cells = s.cells := rfl
@[simp] theorem State.updSpur_spurs (s : State) (n : Nat) (f : Spur → Spur) :
    (s.updSpur n f).spurs = updateIf (·.id == n) f s.spurs := rfl
@[simp] theorem State.updSpur_chains (s : State) (n : Nat) (f : Spur → Spur) :
    (s.updSpur n f).chains = s.chains := rfl
@[simp] theorem State.updSpur_resumes (s : State) (n : Nat) (f : Spur → Spur) :
    (s.updSpur n f).resumes = s.resumes := rfl
@[simp] theorem State.updSpur_deliveries (s : State) (n : Nat) (f : Spur → Spur) :
    (s.updSpur n f).deliveries = s.deliveries := rfl
@[simp] theorem State.updSpur_oldPages (s : State) (n : Nat) (f : Spur → Spur) :
    (s.updSpur n f).oldPages = s.oldPages := rfl
@[simp] theorem State.updSpur_regs (s : State) (n : Nat) (f : Spur → Spur) : (s.updSpur n f).regs = s.regs := rfl
@[simp] theorem State.updSpur_transSeq (s : State) (n : Nat) (f : Spur → Spur) :
    (s.updSpur n f).transSeq = s.transSeq := rfl
@[simp] theorem State.updSpur_qps (s : State) (n : Nat) (f : Spur → Spur) : (s.updSpur n f).qps = s.qps := rfl
@[simp] theorem State.updSpur_kucor (s : State) (n : Nat) (f : Spur → Spur) : (s.updSpur n f).kucor = s.kucor := rfl
@[simp] theorem State.updSpur_outside (s : State) (n : Nat) (f : Spur → Spur) :
    (s.updSpur n f).outside = s.outside := rfl
@[simp] theorem State.updSpur_timeNs (s : State) (n : Nat) (f : Spur → Spur) :
    (s.updSpur n f).timeNs = s.timeNs := rfl
@[simp] theorem State.updSpur_tick (s : State) (n : Nat) (f : Spur → Spur) : (s.updSpur n f).tick = s.tick := rfl
@[simp] theorem State.updSpur_nextId (s : State) (n : Nat) (f : Spur → Spur) :
    (s.updSpur n f).nextId = s.nextId := rfl
@[simp] theorem State.updSpur_agenda (s : State) (n : Nat) (f : Spur → Spur) :
    (s.updSpur n f).agenda = s.agenda := rfl
@[simp] theorem State.updSpur_pick (s : State) (n : Nat) (f : Spur → Spur) : (s.updSpur n f).pick = s.pick := rfl
@[simp] theorem State.updSpur_walk (s : State) (n : Nat) (f : Spur → Spur) : (s.updSpur n f).walk = s.walk := rfl
@[simp] theorem State.updSpur_cur (s : State) (n : Nat) (f : Spur → Spur) : (s.updSpur n f).cur = s.cur := rfl

/-! ### `State.updChain` -/

@[simp] theorem State.updChain_elems (s : State) (n : Nat) (f : Chain → Chain) :
    (s.updChain n f).elems = s.elems := rfl
@[simp] theorem State.updChain_cores (s : State) (n : Nat) (f : Chain → Chain) :
    (s.updChain n f).cores = s.cores := rfl
@[simp] theorem State.updChain_clusters (s : State) (n : Nat) (f : Chain → Chain) :
    (s.updChain n f).clusters = s.clusters := rfl
@[simp] theorem State.updChain_links (s : State) (n : Nat) (f : Chain → Chain) :
    (s.updChain n f).links = s.links := rfl
@[simp] theorem State.updChain_binds (s : State) (n : Nat) (f : Chain → Chain) :
    (s.updChain n f).binds = s.binds := rfl
@[simp] theorem State.updChain_mem (s : State) (n : Nat) (f : Chain → Chain) : (s.updChain n f).mem = s.mem := rfl
@[simp] theorem State.updChain_scratch (s : State) (n : Nat) (f : Chain → Chain) :
    (s.updChain n f).scratch = s.scratch := rfl
@[simp] theorem State.updChain_copies (s : State) (n : Nat) (f : Chain → Chain) :
    (s.updChain n f).copies = s.copies := rfl
@[simp] theorem State.updChain_early (s : State) (n : Nat) (f : Chain → Chain) :
    (s.updChain n f).early = s.early := rfl
@[simp] theorem State.updChain_l1 (s : State) (n : Nat) (f : Chain → Chain) : (s.updChain n f).l1 = s.l1 := rfl
@[simp] theorem State.updChain_poison (s : State) (n : Nat) (f : Chain → Chain) :
    (s.updChain n f).poison = s.poison := rfl
@[simp] theorem State.updChain_copyPoison (s : State) (n : Nat) (f : Chain → Chain) :
    (s.updChain n f).copyPoison = s.copyPoison := rfl
@[simp] theorem State.updChain_scratchPoison (s : State) (n : Nat) (f : Chain → Chain) :
    (s.updChain n f).scratchPoison = s.scratchPoison := rfl
@[simp] theorem State.updChain_cached (s : State) (n : Nat) (f : Chain → Chain) :
    (s.updChain n f).cached = s.cached := rfl
@[simp] theorem State.updChain_pins (s : State) (n : Nat) (f : Chain → Chain) : (s.updChain n f).pins = s.pins := rfl
@[simp] theorem State.updChain_reqs (s : State) (n : Nat) (f : Chain → Chain) : (s.updChain n f).reqs = s.reqs := rfl
@[simp] theorem State.updChain_dones (s : State) (n : Nat) (f : Chain → Chain) :
    (s.updChain n f).dones = s.dones := rfl
@[simp] theorem State.updChain_domains (s : State) (n : Nat) (f : Chain → Chain) :
    (s.updChain n f).domains = s.domains := rfl
@[simp] theorem State.updChain_cells (s : State) (n : Nat) (f : Chain → Chain) :
    (s.updChain n f).cells = s.cells := rfl
@[simp] theorem State.updChain_spurs (s : State) (n : Nat) (f : Chain → Chain) :
    (s.updChain n f).spurs = s.spurs := rfl
@[simp] theorem State.updChain_chains (s : State) (n : Nat) (f : Chain → Chain) :
    (s.updChain n f).chains = updateIf (·.ident == n) f s.chains := rfl
@[simp] theorem State.updChain_resumes (s : State) (n : Nat) (f : Chain → Chain) :
    (s.updChain n f).resumes = s.resumes := rfl
@[simp] theorem State.updChain_deliveries (s : State) (n : Nat) (f : Chain → Chain) :
    (s.updChain n f).deliveries = s.deliveries := rfl
@[simp] theorem State.updChain_oldPages (s : State) (n : Nat) (f : Chain → Chain) :
    (s.updChain n f).oldPages = s.oldPages := rfl
@[simp] theorem State.updChain_regs (s : State) (n : Nat) (f : Chain → Chain) : (s.updChain n f).regs = s.regs := rfl
@[simp] theorem State.updChain_transSeq (s : State) (n : Nat) (f : Chain → Chain) :
    (s.updChain n f).transSeq = s.transSeq := rfl
@[simp] theorem State.updChain_qps (s : State) (n : Nat) (f : Chain → Chain) : (s.updChain n f).qps = s.qps := rfl
@[simp] theorem State.updChain_kucor (s : State) (n : Nat) (f : Chain → Chain) :
    (s.updChain n f).kucor = s.kucor := rfl
@[simp] theorem State.updChain_outside (s : State) (n : Nat) (f : Chain → Chain) :
    (s.updChain n f).outside = s.outside := rfl
@[simp] theorem State.updChain_timeNs (s : State) (n : Nat) (f : Chain → Chain) :
    (s.updChain n f).timeNs = s.timeNs := rfl
@[simp] theorem State.updChain_tick (s : State) (n : Nat) (f : Chain → Chain) : (s.updChain n f).tick = s.tick := rfl
@[simp] theorem State.updChain_nextId (s : State) (n : Nat) (f : Chain → Chain) :
    (s.updChain n f).nextId = s.nextId := rfl
@[simp] theorem State.updChain_agenda (s : State) (n : Nat) (f : Chain → Chain) :
    (s.updChain n f).agenda = s.agenda := rfl
@[simp] theorem State.updChain_pick (s : State) (n : Nat) (f : Chain → Chain) : (s.updChain n f).pick = s.pick := rfl
@[simp] theorem State.updChain_walk (s : State) (n : Nat) (f : Chain → Chain) : (s.updChain n f).walk = s.walk := rfl
@[simp] theorem State.updChain_cur (s : State) (n : Nat) (f : Chain → Chain) : (s.updChain n f).cur = s.cur := rfl

/-! ### `State.updLink` -/

@[simp] theorem State.updLink_elems (s : State) (n : Nat) (f : Link → Link) : (s.updLink n f).elems = s.elems := rfl
@[simp] theorem State.updLink_cores (s : State) (n : Nat) (f : Link → Link) : (s.updLink n f).cores = s.cores := rfl
@[simp] theorem State.updLink_clusters (s : State) (n : Nat) (f : Link → Link) :
    (s.updLink n f).clusters = s.clusters := rfl
@[simp] theorem State.updLink_links (s : State) (n : Nat) (f : Link → Link) :
    (s.updLink n f).links = updateIf (·.id == n) f s.links := rfl
@[simp] theorem State.updLink_binds (s : State) (n : Nat) (f : Link → Link) : (s.updLink n f).binds = s.binds := rfl
@[simp] theorem State.updLink_mem (s : State) (n : Nat) (f : Link → Link) : (s.updLink n f).mem = s.mem := rfl
@[simp] theorem State.updLink_scratch (s : State) (n : Nat) (f : Link → Link) :
    (s.updLink n f).scratch = s.scratch := rfl
@[simp] theorem State.updLink_copies (s : State) (n : Nat) (f : Link → Link) :
    (s.updLink n f).copies = s.copies := rfl
@[simp] theorem State.updLink_early (s : State) (n : Nat) (f : Link → Link) :
    (s.updLink n f).early = s.early := rfl
@[simp] theorem State.updLink_l1 (s : State) (n : Nat) (f : Link → Link) : (s.updLink n f).l1 = s.l1 := rfl
@[simp] theorem State.updLink_poison (s : State) (n : Nat) (f : Link → Link) :
    (s.updLink n f).poison = s.poison := rfl
@[simp] theorem State.updLink_copyPoison (s : State) (n : Nat) (f : Link → Link) :
    (s.updLink n f).copyPoison = s.copyPoison := rfl
@[simp] theorem State.updLink_scratchPoison (s : State) (n : Nat) (f : Link → Link) :
    (s.updLink n f).scratchPoison = s.scratchPoison := rfl
@[simp] theorem State.updLink_cached (s : State) (n : Nat) (f : Link → Link) :
    (s.updLink n f).cached = s.cached := rfl
@[simp] theorem State.updLink_pins (s : State) (n : Nat) (f : Link → Link) : (s.updLink n f).pins = s.pins := rfl
@[simp] theorem State.updLink_reqs (s : State) (n : Nat) (f : Link → Link) : (s.updLink n f).reqs = s.reqs := rfl
@[simp] theorem State.updLink_dones (s : State) (n : Nat) (f : Link → Link) : (s.updLink n f).dones = s.dones := rfl
@[simp] theorem State.updLink_domains (s : State) (n : Nat) (f : Link → Link) :
    (s.updLink n f).domains = s.domains := rfl
@[simp] theorem State.updLink_cells (s : State) (n : Nat) (f : Link → Link) : (s.updLink n f).cells = s.cells := rfl
@[simp] theorem State.updLink_spurs (s : State) (n : Nat) (f : Link → Link) : (s.updLink n f).spurs = s.spurs := rfl
@[simp] theorem State.updLink_chains (s : State) (n : Nat) (f : Link → Link) :
    (s.updLink n f).chains = s.chains := rfl
@[simp] theorem State.updLink_resumes (s : State) (n : Nat) (f : Link → Link) :
    (s.updLink n f).resumes = s.resumes := rfl
@[simp] theorem State.updLink_deliveries (s : State) (n : Nat) (f : Link → Link) :
    (s.updLink n f).deliveries = s.deliveries := rfl
@[simp] theorem State.updLink_oldPages (s : State) (n : Nat) (f : Link → Link) :
    (s.updLink n f).oldPages = s.oldPages := rfl
@[simp] theorem State.updLink_regs (s : State) (n : Nat) (f : Link → Link) : (s.updLink n f).regs = s.regs := rfl
@[simp] theorem State.updLink_transSeq (s : State) (n : Nat) (f : Link → Link) :
    (s.updLink n f).transSeq = s.transSeq := rfl
@[simp] theorem State.updLink_qps (s : State) (n : Nat) (f : Link → Link) : (s.updLink n f).qps = s.qps := rfl
@[simp] theorem State.updLink_kucor (s : State) (n : Nat) (f : Link → Link) : (s.updLink n f).kucor = s.kucor := rfl
@[simp] theorem State.updLink_outside (s : State) (n : Nat) (f : Link → Link) :
    (s.updLink n f).outside = s.outside := rfl
@[simp] theorem State.updLink_timeNs (s : State) (n : Nat) (f : Link → Link) :
    (s.updLink n f).timeNs = s.timeNs := rfl
@[simp] theorem State.updLink_tick (s : State) (n : Nat) (f : Link → Link) : (s.updLink n f).tick = s.tick := rfl
@[simp] theorem State.updLink_nextId (s : State) (n : Nat) (f : Link → Link) :
    (s.updLink n f).nextId = s.nextId := rfl
@[simp] theorem State.updLink_agenda (s : State) (n : Nat) (f : Link → Link) :
    (s.updLink n f).agenda = s.agenda := rfl
@[simp] theorem State.updLink_pick (s : State) (n : Nat) (f : Link → Link) : (s.updLink n f).pick = s.pick := rfl
@[simp] theorem State.updLink_walk (s : State) (n : Nat) (f : Link → Link) : (s.updLink n f).walk = s.walk := rfl
@[simp] theorem State.updLink_cur (s : State) (n : Nat) (f : Link → Link) : (s.updLink n f).cur = s.cur := rfl

/-! ### `State.updReq` -/

@[simp] theorem State.updReq_elems (s : State) (n : Nat) (f : Req → Req) : (s.updReq n f).elems = s.elems := rfl
@[simp] theorem State.updReq_cores (s : State) (n : Nat) (f : Req → Req) : (s.updReq n f).cores = s.cores := rfl
@[simp] theorem State.updReq_clusters (s : State) (n : Nat) (f : Req → Req) :
    (s.updReq n f).clusters = s.clusters := rfl
@[simp] theorem State.updReq_links (s : State) (n : Nat) (f : Req → Req) : (s.updReq n f).links = s.links := rfl
@[simp] theorem State.updReq_binds (s : State) (n : Nat) (f : Req → Req) : (s.updReq n f).binds = s.binds := rfl
@[simp] theorem State.updReq_mem (s : State) (n : Nat) (f : Req → Req) : (s.updReq n f).mem = s.mem := rfl
@[simp] theorem State.updReq_scratch (s : State) (n : Nat) (f : Req → Req) : (s.updReq n f).scratch = s.scratch := rfl
@[simp] theorem State.updReq_copies (s : State) (n : Nat) (f : Req → Req) : (s.updReq n f).copies = s.copies := rfl
@[simp] theorem State.updReq_early (s : State) (n : Nat) (f : Req → Req) : (s.updReq n f).early = s.early := rfl
@[simp] theorem State.updReq_l1 (s : State) (n : Nat) (f : Req → Req) : (s.updReq n f).l1 = s.l1 := rfl
@[simp] theorem State.updReq_poison (s : State) (n : Nat) (f : Req → Req) : (s.updReq n f).poison = s.poison := rfl
@[simp] theorem State.updReq_copyPoison (s : State) (n : Nat) (f : Req → Req) :
    (s.updReq n f).copyPoison = s.copyPoison := rfl
@[simp] theorem State.updReq_scratchPoison (s : State) (n : Nat) (f : Req → Req) :
    (s.updReq n f).scratchPoison = s.scratchPoison := rfl
@[simp] theorem State.updReq_cached (s : State) (n : Nat) (f : Req → Req) : (s.updReq n f).cached = s.cached := rfl
@[simp] theorem State.updReq_pins (s : State) (n : Nat) (f : Req → Req) : (s.updReq n f).pins = s.pins := rfl
@[simp] theorem State.updReq_reqs (s : State) (n : Nat) (f : Req → Req) :
    (s.updReq n f).reqs = updateIf (·.id == n) f s.reqs := rfl
@[simp] theorem State.updReq_dones (s : State) (n : Nat) (f : Req → Req) : (s.updReq n f).dones = s.dones := rfl
@[simp] theorem State.updReq_domains (s : State) (n : Nat) (f : Req → Req) : (s.updReq n f).domains = s.domains := rfl
@[simp] theorem State.updReq_cells (s : State) (n : Nat) (f : Req → Req) : (s.updReq n f).cells = s.cells := rfl
@[simp] theorem State.updReq_spurs (s : State) (n : Nat) (f : Req → Req) : (s.updReq n f).spurs = s.spurs := rfl
@[simp] theorem State.updReq_chains (s : State) (n : Nat) (f : Req → Req) : (s.updReq n f).chains = s.chains := rfl
@[simp] theorem State.updReq_resumes (s : State) (n : Nat) (f : Req → Req) : (s.updReq n f).resumes = s.resumes := rfl
@[simp] theorem State.updReq_deliveries (s : State) (n : Nat) (f : Req → Req) :
    (s.updReq n f).deliveries = s.deliveries := rfl
@[simp] theorem State.updReq_oldPages (s : State) (n : Nat) (f : Req → Req) :
    (s.updReq n f).oldPages = s.oldPages := rfl
@[simp] theorem State.updReq_regs (s : State) (n : Nat) (f : Req → Req) : (s.updReq n f).regs = s.regs := rfl
@[simp] theorem State.updReq_transSeq (s : State) (n : Nat) (f : Req → Req) :
    (s.updReq n f).transSeq = s.transSeq := rfl
@[simp] theorem State.updReq_qps (s : State) (n : Nat) (f : Req → Req) : (s.updReq n f).qps = s.qps := rfl
@[simp] theorem State.updReq_kucor (s : State) (n : Nat) (f : Req → Req) : (s.updReq n f).kucor = s.kucor := rfl
@[simp] theorem State.updReq_outside (s : State) (n : Nat) (f : Req → Req) : (s.updReq n f).outside = s.outside := rfl
@[simp] theorem State.updReq_timeNs (s : State) (n : Nat) (f : Req → Req) : (s.updReq n f).timeNs = s.timeNs := rfl
@[simp] theorem State.updReq_tick (s : State) (n : Nat) (f : Req → Req) : (s.updReq n f).tick = s.tick := rfl
@[simp] theorem State.updReq_nextId (s : State) (n : Nat) (f : Req → Req) : (s.updReq n f).nextId = s.nextId := rfl
@[simp] theorem State.updReq_agenda (s : State) (n : Nat) (f : Req → Req) : (s.updReq n f).agenda = s.agenda := rfl
@[simp] theorem State.updReq_pick (s : State) (n : Nat) (f : Req → Req) : (s.updReq n f).pick = s.pick := rfl
@[simp] theorem State.updReq_walk (s : State) (n : Nat) (f : Req → Req) : (s.updReq n f).walk = s.walk := rfl
@[simp] theorem State.updReq_cur (s : State) (n : Nat) (f : Req → Req) : (s.updReq n f).cur = s.cur := rfl

/-! ### `State.dropReq` -/

@[simp] theorem State.dropReq_elems (s : State) (n : Nat) : (s.dropReq n).elems = s.elems := rfl
@[simp] theorem State.dropReq_cores (s : State) (n : Nat) : (s.dropReq n).cores = s.cores := rfl
@[simp] theorem State.dropReq_clusters (s : State) (n : Nat) : (s.dropReq n).clusters = s.clusters := rfl
@[simp] theorem State.dropReq_links (s : State) (n : Nat) : (s.dropReq n).links = s.links := rfl
@[simp] theorem State.dropReq_binds (s : State) (n : Nat) : (s.dropReq n).binds = s.binds := rfl
@[simp] theorem State.dropReq_mem (s : State) (n : Nat) : (s.dropReq n).mem = s.mem := rfl
@[simp] theorem State.dropReq_scratch (s : State) (n : Nat) : (s.dropReq n).scratch = s.scratch := rfl
@[simp] theorem State.dropReq_copies (s : State) (n : Nat) : (s.dropReq n).copies = s.copies := rfl
@[simp] theorem State.dropReq_early (s : State) (n : Nat) : (s.dropReq n).early = s.early := rfl
@[simp] theorem State.dropReq_l1 (s : State) (n : Nat) : (s.dropReq n).l1 = s.l1 := rfl
@[simp] theorem State.dropReq_poison (s : State) (n : Nat) : (s.dropReq n).poison = s.poison := rfl
@[simp] theorem State.dropReq_copyPoison (s : State) (n : Nat) : (s.dropReq n).copyPoison = s.copyPoison := rfl
@[simp] theorem State.dropReq_scratchPoison (s : State) (n : Nat) :
    (s.dropReq n).scratchPoison = s.scratchPoison := rfl
@[simp] theorem State.dropReq_cached (s : State) (n : Nat) : (s.dropReq n).cached = s.cached := rfl
@[simp] theorem State.dropReq_pins (s : State) (n : Nat) : (s.dropReq n).pins = s.pins := rfl
@[simp] theorem State.dropReq_reqs (s : State) (n : Nat) : (s.dropReq n).reqs = s.reqs.filter (·.id != n) := rfl
@[simp] theorem State.dropReq_dones (s : State) (n : Nat) : (s.dropReq n).dones = s.dones := rfl
@[simp] theorem State.dropReq_domains (s : State) (n : Nat) : (s.dropReq n).domains = s.domains := rfl
@[simp] theorem State.dropReq_cells (s : State) (n : Nat) : (s.dropReq n).cells = s.cells := rfl
@[simp] theorem State.dropReq_spurs (s : State) (n : Nat) : (s.dropReq n).spurs = s.spurs := rfl
@[simp] theorem State.dropReq_chains (s : State) (n : Nat) : (s.dropReq n).chains = s.chains := rfl
@[simp] theorem State.dropReq_resumes (s : State) (n : Nat) : (s.dropReq n).resumes = s.resumes := rfl
@[simp] theorem State.dropReq_deliveries (s : State) (n : Nat) : (s.dropReq n).deliveries = s.deliveries := rfl
@[simp] theorem State.dropReq_oldPages (s : State) (n : Nat) : (s.dropReq n).oldPages = s.oldPages := rfl
@[simp] theorem State.dropReq_regs (s : State) (n : Nat) : (s.dropReq n).regs = s.regs := rfl
@[simp] theorem State.dropReq_transSeq (s : State) (n : Nat) : (s.dropReq n).transSeq = s.transSeq := rfl
@[simp] theorem State.dropReq_qps (s : State) (n : Nat) : (s.dropReq n).qps = s.qps := rfl
@[simp] theorem State.dropReq_kucor (s : State) (n : Nat) : (s.dropReq n).kucor = s.kucor := rfl
@[simp] theorem State.dropReq_outside (s : State) (n : Nat) : (s.dropReq n).outside = s.outside := rfl
@[simp] theorem State.dropReq_timeNs (s : State) (n : Nat) : (s.dropReq n).timeNs = s.timeNs := rfl
@[simp] theorem State.dropReq_tick (s : State) (n : Nat) : (s.dropReq n).tick = s.tick := rfl
@[simp] theorem State.dropReq_nextId (s : State) (n : Nat) : (s.dropReq n).nextId = s.nextId := rfl
@[simp] theorem State.dropReq_agenda (s : State) (n : Nat) : (s.dropReq n).agenda = s.agenda := rfl
@[simp] theorem State.dropReq_pick (s : State) (n : Nat) : (s.dropReq n).pick = s.pick := rfl
@[simp] theorem State.dropReq_walk (s : State) (n : Nat) : (s.dropReq n).walk = s.walk := rfl
@[simp] theorem State.dropReq_cur (s : State) (n : Nat) : (s.dropReq n).cur = s.cur := rfl

/-! ### `State.addReq` -/

@[simp] theorem State.addReq_elems (s : State) (r : Req) : (s.addReq r).elems = s.elems := rfl
@[simp] theorem State.addReq_cores (s : State) (r : Req) : (s.addReq r).cores = s.cores := rfl
@[simp] theorem State.addReq_clusters (s : State) (r : Req) : (s.addReq r).clusters = s.clusters := rfl
@[simp] theorem State.addReq_links (s : State) (r : Req) : (s.addReq r).links = s.links := rfl
@[simp] theorem State.addReq_binds (s : State) (r : Req) : (s.addReq r).binds = s.binds := rfl
@[simp] theorem State.addReq_mem (s : State) (r : Req) : (s.addReq r).mem = s.mem := rfl
@[simp] theorem State.addReq_scratch (s : State) (r : Req) : (s.addReq r).scratch = s.scratch := rfl
@[simp] theorem State.addReq_copies (s : State) (r : Req) : (s.addReq r).copies = s.copies := rfl
@[simp] theorem State.addReq_early (s : State) (r : Req) : (s.addReq r).early = s.early := rfl
@[simp] theorem State.addReq_l1 (s : State) (r : Req) : (s.addReq r).l1 = s.l1 := rfl
@[simp] theorem State.addReq_poison (s : State) (r : Req) : (s.addReq r).poison = s.poison := rfl
@[simp] theorem State.addReq_copyPoison (s : State) (r : Req) : (s.addReq r).copyPoison = s.copyPoison := rfl
@[simp] theorem State.addReq_scratchPoison (s : State) (r : Req) : (s.addReq r).scratchPoison = s.scratchPoison := rfl
@[simp] theorem State.addReq_cached (s : State) (r : Req) : (s.addReq r).cached = s.cached := rfl
@[simp] theorem State.addReq_pins (s : State) (r : Req) : (s.addReq r).pins = s.pins := rfl
@[simp] theorem State.addReq_reqs (s : State) (r : Req) :
    (s.addReq r).reqs = s.reqs ++ [{ r with id := s.nextId }] := rfl
@[simp] theorem State.addReq_dones (s : State) (r : Req) : (s.addReq r).dones = s.dones := rfl
@[simp] theorem State.addReq_domains (s : State) (r : Req) : (s.addReq r).domains = s.domains := rfl
@[simp] theorem State.addReq_cells (s : State) (r : Req) : (s.addReq r).cells = s.cells := rfl
@[simp] theorem State.addReq_spurs (s : State) (r : Req) : (s.addReq r).spurs = s.spurs := rfl
@[simp] theorem State.addReq_chains (s : State) (r : Req) : (s.addReq r).chains = s.chains := rfl
@[simp] theorem State.addReq_resumes (s : State) (r : Req) : (s.addReq r).resumes = s.resumes := rfl
@[simp] theorem State.addReq_deliveries (s : State) (r : Req) : (s.addReq r).deliveries = s.deliveries := rfl
@[simp] theorem State.addReq_oldPages (s : State) (r : Req) : (s.addReq r).oldPages = s.oldPages := rfl
@[simp] theorem State.addReq_regs (s : State) (r : Req) : (s.addReq r).regs = s.regs := rfl
@[simp] theorem State.addReq_transSeq (s : State) (r : Req) : (s.addReq r).transSeq = s.transSeq := rfl
@[simp] theorem State.addReq_qps (s : State) (r : Req) : (s.addReq r).qps = s.qps := rfl
@[simp] theorem State.addReq_kucor (s : State) (r : Req) : (s.addReq r).kucor = s.kucor := rfl
@[simp] theorem State.addReq_outside (s : State) (r : Req) : (s.addReq r).outside = s.outside := rfl
@[simp] theorem State.addReq_timeNs (s : State) (r : Req) : (s.addReq r).timeNs = s.timeNs := rfl
@[simp] theorem State.addReq_tick (s : State) (r : Req) : (s.addReq r).tick = s.tick := rfl
@[simp] theorem State.addReq_nextId (s : State) (r : Req) : (s.addReq r).nextId = s.nextId + 1 := rfl
@[simp] theorem State.addReq_agenda (s : State) (r : Req) : (s.addReq r).agenda = s.agenda := rfl
@[simp] theorem State.addReq_pick (s : State) (r : Req) : (s.addReq r).pick = s.pick := rfl
@[simp] theorem State.addReq_walk (s : State) (r : Req) : (s.addReq r).walk = s.walk := rfl
@[simp] theorem State.addReq_cur (s : State) (r : Req) : (s.addReq r).cur = s.cur := rfl

/-! ### `State.setPreg` -/

@[simp] theorem State.setPreg_elems (s : State) (n : Nat) (w : Word) : (s.setPreg n w).elems = s.elems := rfl
@[simp] theorem State.setPreg_cores (s : State) (n : Nat) (w : Word) : (s.setPreg n w).cores = s.cores := rfl
@[simp] theorem State.setPreg_clusters (s : State) (n : Nat) (w : Word) : (s.setPreg n w).clusters = s.clusters := rfl
@[simp] theorem State.setPreg_links (s : State) (n : Nat) (w : Word) : (s.setPreg n w).links = s.links := rfl
@[simp] theorem State.setPreg_binds (s : State) (n : Nat) (w : Word) : (s.setPreg n w).binds = s.binds := rfl
@[simp] theorem State.setPreg_mem (s : State) (n : Nat) (w : Word) : (s.setPreg n w).mem = s.mem := rfl
@[simp] theorem State.setPreg_scratch (s : State) (n : Nat) (w : Word) : (s.setPreg n w).scratch = s.scratch := rfl
@[simp] theorem State.setPreg_copies (s : State) (n : Nat) (w : Word) : (s.setPreg n w).copies = s.copies := rfl
@[simp] theorem State.setPreg_early (s : State) (n : Nat) (w : Word) : (s.setPreg n w).early = s.early := rfl
@[simp] theorem State.setPreg_l1 (s : State) (n : Nat) (w : Word) : (s.setPreg n w).l1 = s.l1 := rfl
@[simp] theorem State.setPreg_poison (s : State) (n : Nat) (w : Word) : (s.setPreg n w).poison = s.poison := rfl
@[simp] theorem State.setPreg_copyPoison (s : State) (n : Nat) (w : Word) :
    (s.setPreg n w).copyPoison = s.copyPoison := rfl
@[simp] theorem State.setPreg_scratchPoison (s : State) (n : Nat) (w : Word) :
    (s.setPreg n w).scratchPoison = s.scratchPoison := rfl
@[simp] theorem State.setPreg_cached (s : State) (n : Nat) (w : Word) : (s.setPreg n w).cached = s.cached := rfl
@[simp] theorem State.setPreg_pins (s : State) (n : Nat) (w : Word) : (s.setPreg n w).pins = s.pins := rfl
@[simp] theorem State.setPreg_reqs (s : State) (n : Nat) (w : Word) : (s.setPreg n w).reqs = s.reqs := rfl
@[simp] theorem State.setPreg_dones (s : State) (n : Nat) (w : Word) : (s.setPreg n w).dones = s.dones := rfl
@[simp] theorem State.setPreg_domains (s : State) (n : Nat) (w : Word) : (s.setPreg n w).domains = s.domains := rfl
@[simp] theorem State.setPreg_cells (s : State) (n : Nat) (w : Word) : (s.setPreg n w).cells = s.cells := rfl
@[simp] theorem State.setPreg_spurs (s : State) (n : Nat) (w : Word) : (s.setPreg n w).spurs = s.spurs := rfl
@[simp] theorem State.setPreg_chains (s : State) (n : Nat) (w : Word) : (s.setPreg n w).chains = s.chains := rfl
@[simp] theorem State.setPreg_resumes (s : State) (n : Nat) (w : Word) : (s.setPreg n w).resumes = s.resumes := rfl
@[simp] theorem State.setPreg_deliveries (s : State) (n : Nat) (w : Word) :
    (s.setPreg n w).deliveries = s.deliveries := rfl
@[simp] theorem State.setPreg_oldPages (s : State) (n : Nat) (w : Word) : (s.setPreg n w).oldPages = s.oldPages := rfl
@[simp] theorem State.setPreg_regs (s : State) (n : Nat) (w : Word) : (s.setPreg n w).regs = s.regs.put n w := rfl
@[simp] theorem State.setPreg_transSeq (s : State) (n : Nat) (w : Word) : (s.setPreg n w).transSeq = s.transSeq := rfl
@[simp] theorem State.setPreg_qps (s : State) (n : Nat) (w : Word) : (s.setPreg n w).qps = s.qps := rfl
@[simp] theorem State.setPreg_kucor (s : State) (n : Nat) (w : Word) : (s.setPreg n w).kucor = s.kucor := rfl
@[simp] theorem State.setPreg_outside (s : State) (n : Nat) (w : Word) : (s.setPreg n w).outside = s.outside := rfl
@[simp] theorem State.setPreg_timeNs (s : State) (n : Nat) (w : Word) : (s.setPreg n w).timeNs = s.timeNs := rfl
@[simp] theorem State.setPreg_tick (s : State) (n : Nat) (w : Word) : (s.setPreg n w).tick = s.tick := rfl
@[simp] theorem State.setPreg_nextId (s : State) (n : Nat) (w : Word) : (s.setPreg n w).nextId = s.nextId := rfl
@[simp] theorem State.setPreg_agenda (s : State) (n : Nat) (w : Word) : (s.setPreg n w).agenda = s.agenda := rfl
@[simp] theorem State.setPreg_pick (s : State) (n : Nat) (w : Word) : (s.setPreg n w).pick = s.pick := rfl
@[simp] theorem State.setPreg_walk (s : State) (n : Nat) (w : Word) : (s.setPreg n w).walk = s.walk := rfl
@[simp] theorem State.setPreg_cur (s : State) (n : Nat) (w : Word) : (s.setPreg n w).cur = s.cur := rfl

/-! ### `State.updDomain` -/

@[simp] theorem State.updDomain_elems (s : State) (n : Nat) (f : Domain → Domain) :
    (s.updDomain n f).elems = s.elems := rfl
@[simp] theorem State.updDomain_cores (s : State) (n : Nat) (f : Domain → Domain) :
    (s.updDomain n f).cores = s.cores := rfl
@[simp] theorem State.updDomain_clusters (s : State) (n : Nat) (f : Domain → Domain) :
    (s.updDomain n f).clusters = s.clusters := rfl
@[simp] theorem State.updDomain_links (s : State) (n : Nat) (f : Domain → Domain) :
    (s.updDomain n f).links = s.links := rfl
@[simp] theorem State.updDomain_binds (s : State) (n : Nat) (f : Domain → Domain) :
    (s.updDomain n f).binds = s.binds := rfl
@[simp] theorem State.updDomain_mem (s : State) (n : Nat) (f : Domain → Domain) : (s.updDomain n f).mem = s.mem := rfl
@[simp] theorem State.updDomain_scratch (s : State) (n : Nat) (f : Domain → Domain) :
    (s.updDomain n f).scratch = s.scratch := rfl
@[simp] theorem State.updDomain_copies (s : State) (n : Nat) (f : Domain → Domain) :
    (s.updDomain n f).copies = s.copies := rfl
@[simp] theorem State.updDomain_early (s : State) (n : Nat) (f : Domain → Domain) :
    (s.updDomain n f).early = s.early := rfl
@[simp] theorem State.updDomain_l1 (s : State) (n : Nat) (f : Domain → Domain) : (s.updDomain n f).l1 = s.l1 := rfl
@[simp] theorem State.updDomain_poison (s : State) (n : Nat) (f : Domain → Domain) :
    (s.updDomain n f).poison = s.poison := rfl
@[simp] theorem State.updDomain_copyPoison (s : State) (n : Nat) (f : Domain → Domain) :
    (s.updDomain n f).copyPoison = s.copyPoison := rfl
@[simp] theorem State.updDomain_scratchPoison (s : State) (n : Nat) (f : Domain → Domain) :
    (s.updDomain n f).scratchPoison = s.scratchPoison := rfl
@[simp] theorem State.updDomain_cached (s : State) (n : Nat) (f : Domain → Domain) :
    (s.updDomain n f).cached = s.cached := rfl
@[simp] theorem State.updDomain_pins (s : State) (n : Nat) (f : Domain → Domain) :
    (s.updDomain n f).pins = s.pins := rfl
@[simp] theorem State.updDomain_reqs (s : State) (n : Nat) (f : Domain → Domain) :
    (s.updDomain n f).reqs = s.reqs := rfl
@[simp] theorem State.updDomain_dones (s : State) (n : Nat) (f : Domain → Domain) :
    (s.updDomain n f).dones = s.dones := rfl
@[simp] theorem State.updDomain_domains (s : State) (n : Nat) (f : Domain → Domain) :
    (s.updDomain n f).domains = updateIf (·.record == n) f s.domains := rfl
@[simp] theorem State.updDomain_cells (s : State) (n : Nat) (f : Domain → Domain) :
    (s.updDomain n f).cells = s.cells := rfl
@[simp] theorem State.updDomain_spurs (s : State) (n : Nat) (f : Domain → Domain) :
    (s.updDomain n f).spurs = s.spurs := rfl
@[simp] theorem State.updDomain_chains (s : State) (n : Nat) (f : Domain → Domain) :
    (s.updDomain n f).chains = s.chains := rfl
@[simp] theorem State.updDomain_resumes (s : State) (n : Nat) (f : Domain → Domain) :
    (s.updDomain n f).resumes = s.resumes := rfl
@[simp] theorem State.updDomain_deliveries (s : State) (n : Nat) (f : Domain → Domain) :
    (s.updDomain n f).deliveries = s.deliveries := rfl
@[simp] theorem State.updDomain_oldPages (s : State) (n : Nat) (f : Domain → Domain) :
    (s.updDomain n f).oldPages = s.oldPages := rfl
@[simp] theorem State.updDomain_regs (s : State) (n : Nat) (f : Domain → Domain) :
    (s.updDomain n f).regs = s.regs := rfl
@[simp] theorem State.updDomain_transSeq (s : State) (n : Nat) (f : Domain → Domain) :
    (s.updDomain n f).transSeq = s.transSeq := rfl
@[simp] theorem State.updDomain_qps (s : State) (n : Nat) (f : Domain → Domain) : (s.updDomain n f).qps = s.qps := rfl
@[simp] theorem State.updDomain_kucor (s : State) (n : Nat) (f : Domain → Domain) :
    (s.updDomain n f).kucor = s.kucor := rfl
@[simp] theorem State.updDomain_outside (s : State) (n : Nat) (f : Domain → Domain) :
    (s.updDomain n f).outside = s.outside := rfl
@[simp] theorem State.updDomain_timeNs (s : State) (n : Nat) (f : Domain → Domain) :
    (s.updDomain n f).timeNs = s.timeNs := rfl
@[simp] theorem State.updDomain_tick (s : State) (n : Nat) (f : Domain → Domain) :
    (s.updDomain n f).tick = s.tick := rfl
@[simp] theorem State.updDomain_nextId (s : State) (n : Nat) (f : Domain → Domain) :
    (s.updDomain n f).nextId = s.nextId := rfl
@[simp] theorem State.updDomain_agenda (s : State) (n : Nat) (f : Domain → Domain) :
    (s.updDomain n f).agenda = s.agenda := rfl
@[simp] theorem State.updDomain_pick (s : State) (n : Nat) (f : Domain → Domain) :
    (s.updDomain n f).pick = s.pick := rfl
@[simp] theorem State.updDomain_walk (s : State) (n : Nat) (f : Domain → Domain) :
    (s.updDomain n f).walk = s.walk := rfl
@[simp] theorem State.updDomain_cur (s : State) (n : Nat) (f : Domain → Domain) : (s.updDomain n f).cur = s.cur := rfl

/-! ### `State.updCell` -/

@[simp] theorem State.updCell_elems (s : State) (n : Nat) (f : Cell → Cell) : (s.updCell n f).elems = s.elems := rfl
@[simp] theorem State.updCell_cores (s : State) (n : Nat) (f : Cell → Cell) : (s.updCell n f).cores = s.cores := rfl
@[simp] theorem State.updCell_clusters (s : State) (n : Nat) (f : Cell → Cell) :
    (s.updCell n f).clusters = s.clusters := rfl
@[simp] theorem State.updCell_links (s : State) (n : Nat) (f : Cell → Cell) : (s.updCell n f).links = s.links := rfl
@[simp] theorem State.updCell_binds (s : State) (n : Nat) (f : Cell → Cell) : (s.updCell n f).binds = s.binds := rfl
@[simp] theorem State.updCell_mem (s : State) (n : Nat) (f : Cell → Cell) : (s.updCell n f).mem = s.mem := rfl
@[simp] theorem State.updCell_scratch (s : State) (n : Nat) (f : Cell → Cell) :
    (s.updCell n f).scratch = s.scratch := rfl
@[simp] theorem State.updCell_copies (s : State) (n : Nat) (f : Cell → Cell) :
    (s.updCell n f).copies = s.copies := rfl
@[simp] theorem State.updCell_early (s : State) (n : Nat) (f : Cell → Cell) :
    (s.updCell n f).early = s.early := rfl
@[simp] theorem State.updCell_l1 (s : State) (n : Nat) (f : Cell → Cell) : (s.updCell n f).l1 = s.l1 := rfl
@[simp] theorem State.updCell_poison (s : State) (n : Nat) (f : Cell → Cell) :
    (s.updCell n f).poison = s.poison := rfl
@[simp] theorem State.updCell_copyPoison (s : State) (n : Nat) (f : Cell → Cell) :
    (s.updCell n f).copyPoison = s.copyPoison := rfl
@[simp] theorem State.updCell_scratchPoison (s : State) (n : Nat) (f : Cell → Cell) :
    (s.updCell n f).scratchPoison = s.scratchPoison := rfl
@[simp] theorem State.updCell_cached (s : State) (n : Nat) (f : Cell → Cell) :
    (s.updCell n f).cached = s.cached := rfl
@[simp] theorem State.updCell_pins (s : State) (n : Nat) (f : Cell → Cell) : (s.updCell n f).pins = s.pins := rfl
@[simp] theorem State.updCell_reqs (s : State) (n : Nat) (f : Cell → Cell) : (s.updCell n f).reqs = s.reqs := rfl
@[simp] theorem State.updCell_dones (s : State) (n : Nat) (f : Cell → Cell) : (s.updCell n f).dones = s.dones := rfl
@[simp] theorem State.updCell_domains (s : State) (n : Nat) (f : Cell → Cell) :
    (s.updCell n f).domains = s.domains := rfl
@[simp] theorem State.updCell_cells (s : State) (n : Nat) (f : Cell → Cell) :
    (s.updCell n f).cells = updateIf (·.word == n) f s.cells := rfl
@[simp] theorem State.updCell_spurs (s : State) (n : Nat) (f : Cell → Cell) : (s.updCell n f).spurs = s.spurs := rfl
@[simp] theorem State.updCell_chains (s : State) (n : Nat) (f : Cell → Cell) :
    (s.updCell n f).chains = s.chains := rfl
@[simp] theorem State.updCell_resumes (s : State) (n : Nat) (f : Cell → Cell) :
    (s.updCell n f).resumes = s.resumes := rfl
@[simp] theorem State.updCell_deliveries (s : State) (n : Nat) (f : Cell → Cell) :
    (s.updCell n f).deliveries = s.deliveries := rfl
@[simp] theorem State.updCell_oldPages (s : State) (n : Nat) (f : Cell → Cell) :
    (s.updCell n f).oldPages = s.oldPages := rfl
@[simp] theorem State.updCell_regs (s : State) (n : Nat) (f : Cell → Cell) : (s.updCell n f).regs = s.regs := rfl
@[simp] theorem State.updCell_transSeq (s : State) (n : Nat) (f : Cell → Cell) :
    (s.updCell n f).transSeq = s.transSeq := rfl
@[simp] theorem State.updCell_qps (s : State) (n : Nat) (f : Cell → Cell) : (s.updCell n f).qps = s.qps := rfl
@[simp] theorem State.updCell_kucor (s : State) (n : Nat) (f : Cell → Cell) : (s.updCell n f).kucor = s.kucor := rfl
@[simp] theorem State.updCell_outside (s : State) (n : Nat) (f : Cell → Cell) :
    (s.updCell n f).outside = s.outside := rfl
@[simp] theorem State.updCell_timeNs (s : State) (n : Nat) (f : Cell → Cell) :
    (s.updCell n f).timeNs = s.timeNs := rfl
@[simp] theorem State.updCell_tick (s : State) (n : Nat) (f : Cell → Cell) : (s.updCell n f).tick = s.tick := rfl
@[simp] theorem State.updCell_nextId (s : State) (n : Nat) (f : Cell → Cell) :
    (s.updCell n f).nextId = s.nextId := rfl
@[simp] theorem State.updCell_agenda (s : State) (n : Nat) (f : Cell → Cell) :
    (s.updCell n f).agenda = s.agenda := rfl
@[simp] theorem State.updCell_pick (s : State) (n : Nat) (f : Cell → Cell) : (s.updCell n f).pick = s.pick := rfl
@[simp] theorem State.updCell_walk (s : State) (n : Nat) (f : Cell → Cell) : (s.updCell n f).walk = s.walk := rfl
@[simp] theorem State.updCell_cur (s : State) (n : Nat) (f : Cell → Cell) : (s.updCell n f).cur = s.cur := rfl

/-! ### `State.begin` -/

@[simp] theorem State.begin_elems (s : State) (p : Pick) : (s.begin p).elems = s.elems := rfl
@[simp] theorem State.begin_cores (s : State) (p : Pick) : (s.begin p).cores = s.cores := rfl
@[simp] theorem State.begin_clusters (s : State) (p : Pick) : (s.begin p).clusters = s.clusters := rfl
@[simp] theorem State.begin_links (s : State) (p : Pick) : (s.begin p).links = s.links := rfl
@[simp] theorem State.begin_binds (s : State) (p : Pick) : (s.begin p).binds = s.binds := rfl
@[simp] theorem State.begin_mem (s : State) (p : Pick) : (s.begin p).mem = s.mem := rfl
@[simp] theorem State.begin_scratch (s : State) (p : Pick) : (s.begin p).scratch = s.scratch := rfl
@[simp] theorem State.begin_copies (s : State) (p : Pick) : (s.begin p).copies = s.copies := rfl
@[simp] theorem State.begin_early (s : State) (p : Pick) : (s.begin p).early = s.early := rfl
@[simp] theorem State.begin_l1 (s : State) (p : Pick) : (s.begin p).l1 = s.l1 := rfl
@[simp] theorem State.begin_poison (s : State) (p : Pick) : (s.begin p).poison = s.poison := rfl
@[simp] theorem State.begin_copyPoison (s : State) (p : Pick) : (s.begin p).copyPoison = s.copyPoison := rfl
@[simp] theorem State.begin_scratchPoison (s : State) (p : Pick) : (s.begin p).scratchPoison = s.scratchPoison := rfl
@[simp] theorem State.begin_cached (s : State) (p : Pick) : (s.begin p).cached = s.cached := rfl
@[simp] theorem State.begin_pins (s : State) (p : Pick) : (s.begin p).pins = s.pins := rfl
@[simp] theorem State.begin_reqs (s : State) (p : Pick) : (s.begin p).reqs = s.reqs := rfl
@[simp] theorem State.begin_dones (s : State) (p : Pick) : (s.begin p).dones = s.dones := rfl
@[simp] theorem State.begin_domains (s : State) (p : Pick) : (s.begin p).domains = s.domains := rfl
@[simp] theorem State.begin_cells (s : State) (p : Pick) : (s.begin p).cells = s.cells := rfl
@[simp] theorem State.begin_spurs (s : State) (p : Pick) : (s.begin p).spurs = s.spurs := rfl
@[simp] theorem State.begin_chains (s : State) (p : Pick) : (s.begin p).chains = s.chains := rfl
@[simp] theorem State.begin_resumes (s : State) (p : Pick) : (s.begin p).resumes = s.resumes := rfl
@[simp] theorem State.begin_deliveries (s : State) (p : Pick) : (s.begin p).deliveries = s.deliveries := rfl
@[simp] theorem State.begin_oldPages (s : State) (p : Pick) : (s.begin p).oldPages = s.oldPages := rfl
@[simp] theorem State.begin_regs (s : State) (p : Pick) : (s.begin p).regs = s.regs := rfl
@[simp] theorem State.begin_transSeq (s : State) (p : Pick) : (s.begin p).transSeq = s.transSeq := rfl
@[simp] theorem State.begin_qps (s : State) (p : Pick) : (s.begin p).qps = s.qps := rfl
@[simp] theorem State.begin_kucor (s : State) (p : Pick) : (s.begin p).kucor = s.kucor := rfl
@[simp] theorem State.begin_outside (s : State) (p : Pick) : (s.begin p).outside = s.outside := rfl
@[simp] theorem State.begin_timeNs (s : State) (p : Pick) :
    (s.begin p).timeNs = s.timeNs + Config.elapsed s.tick := rfl
@[simp] theorem State.begin_tick (s : State) (p : Pick) : (s.begin p).tick = s.tick + 1 := rfl
@[simp] theorem State.begin_nextId (s : State) (p : Pick) : (s.begin p).nextId = s.nextId := rfl
@[simp] theorem State.begin_agenda (s : State) (p : Pick) : (s.begin p).agenda = s.agenda.drop 1 := rfl
@[simp] theorem State.begin_pick (s : State) (p : Pick) : (s.begin p).pick = p := rfl
@[simp] theorem State.begin_walk (s : State) (p : Pick) : (s.begin p).walk = s.walk := rfl
@[simp] theorem State.begin_cur (s : State) (p : Pick) : (s.begin p).cur = s.cur := rfl

/-! ### `State.sendVector` -/

@[simp] theorem State.sendVector_elems (s : State) (n : Nat) : (s.sendVector n).elems = s.elems := rfl
@[simp] theorem State.sendVector_cores (s : State) (n : Nat) : (s.sendVector n).cores = s.cores := rfl
@[simp] theorem State.sendVector_clusters (s : State) (n : Nat) : (s.sendVector n).clusters = s.clusters := rfl
@[simp] theorem State.sendVector_links (s : State) (n : Nat) : (s.sendVector n).links = s.links := rfl
@[simp] theorem State.sendVector_binds (s : State) (n : Nat) : (s.sendVector n).binds = s.binds := rfl
@[simp] theorem State.sendVector_mem (s : State) (n : Nat) : (s.sendVector n).mem = s.mem := rfl
@[simp] theorem State.sendVector_scratch (s : State) (n : Nat) : (s.sendVector n).scratch = s.scratch := rfl
@[simp] theorem State.sendVector_copies (s : State) (n : Nat) : (s.sendVector n).copies = s.copies := rfl
@[simp] theorem State.sendVector_early (s : State) (n : Nat) : (s.sendVector n).early = s.early := rfl
@[simp] theorem State.sendVector_l1 (s : State) (n : Nat) : (s.sendVector n).l1 = s.l1 := rfl
@[simp] theorem State.sendVector_poison (s : State) (n : Nat) : (s.sendVector n).poison = s.poison := rfl
@[simp] theorem State.sendVector_copyPoison (s : State) (n : Nat) : (s.sendVector n).copyPoison = s.copyPoison := rfl
@[simp] theorem State.sendVector_scratchPoison (s : State) (n : Nat) :
    (s.sendVector n).scratchPoison = s.scratchPoison := rfl
@[simp] theorem State.sendVector_cached (s : State) (n : Nat) : (s.sendVector n).cached = s.cached := rfl
@[simp] theorem State.sendVector_pins (s : State) (n : Nat) : (s.sendVector n).pins = s.pins := rfl
@[simp] theorem State.sendVector_reqs (s : State) (n : Nat) : (s.sendVector n).reqs = s.reqs := rfl
@[simp] theorem State.sendVector_dones (s : State) (n : Nat) : (s.sendVector n).dones = s.dones := rfl
@[simp] theorem State.sendVector_domains (s : State) (n : Nat) : (s.sendVector n).domains = s.domains := rfl
@[simp] theorem State.sendVector_cells (s : State) (n : Nat) : (s.sendVector n).cells = s.cells := rfl
@[simp] theorem State.sendVector_spurs (s : State) (n : Nat) : (s.sendVector n).spurs = s.spurs := rfl
@[simp] theorem State.sendVector_chains (s : State) (n : Nat) : (s.sendVector n).chains = s.chains := rfl
@[simp] theorem State.sendVector_resumes (s : State) (n : Nat) : (s.sendVector n).resumes = s.resumes := rfl
@[simp] theorem State.sendVector_deliveries (s : State) (n : Nat) : (s.sendVector n).deliveries = s.deliveries := rfl
@[simp] theorem State.sendVector_oldPages (s : State) (n : Nat) : (s.sendVector n).oldPages = s.oldPages := rfl
@[simp] theorem State.sendVector_regs (s : State) (n : Nat) : (s.sendVector n).regs = s.regs := rfl
@[simp] theorem State.sendVector_transSeq (s : State) (n : Nat) : (s.sendVector n).transSeq = s.transSeq := rfl
@[simp] theorem State.sendVector_qps (s : State) (n : Nat) : (s.sendVector n).qps = s.qps := rfl
@[simp] theorem State.sendVector_kucor (s : State) (n : Nat) : (s.sendVector n).kucor = s.kucor := rfl
@[simp] theorem State.sendVector_outside (s : State) (n : Nat) :
    (s.sendVector n).outside = s.outside ++ [.vector n] := rfl
@[simp] theorem State.sendVector_timeNs (s : State) (n : Nat) : (s.sendVector n).timeNs = s.timeNs := rfl
@[simp] theorem State.sendVector_tick (s : State) (n : Nat) : (s.sendVector n).tick = s.tick := rfl
@[simp] theorem State.sendVector_nextId (s : State) (n : Nat) : (s.sendVector n).nextId = s.nextId := rfl
@[simp] theorem State.sendVector_agenda (s : State) (n : Nat) : (s.sendVector n).agenda = s.agenda := rfl
@[simp] theorem State.sendVector_pick (s : State) (n : Nat) : (s.sendVector n).pick = s.pick := rfl
@[simp] theorem State.sendVector_walk (s : State) (n : Nat) : (s.sendVector n).walk = s.walk := rfl
@[simp] theorem State.sendVector_cur (s : State) (n : Nat) : (s.sendVector n).cur = s.cur := rfl

/-! ### `Elem.setReg` -/

@[simp] theorem Elem.setReg_d (e : Elem) (r : Nat) (w : Word) : (e.setReg r w).d = e.d.setIfInBounds r w := rfl
@[simp] theorem Elem.setReg_pend (e : Elem) (r : Nat) (w : Word) : (e.setReg r w).pend = e.pend := rfl
@[simp] theorem Elem.setReg_p (e : Elem) (r : Nat) (w : Word) : (e.setReg r w).p = e.p := rfl
@[simp] theorem Elem.setReg_fifo (e : Elem) (r : Nat) (w : Word) : (e.setReg r w).fifo = e.fifo := rfl
@[simp] theorem Elem.setReg_closed (e : Elem) (r : Nat) (w : Word) : (e.setReg r w).closed = e.closed := rfl
@[simp] theorem Elem.setReg_out (e : Elem) (r : Nat) (w : Word) : (e.setReg r w).out = e.out := rfl
@[simp] theorem Elem.setReg_ci (e : Elem) (r : Nat) (w : Word) : (e.setReg r w).ci = e.ci := rfl
@[simp] theorem Elem.setReg_co (e : Elem) (r : Nat) (w : Word) : (e.setReg r w).co = e.co := rfl
@[simp] theorem Elem.setReg_slots (e : Elem) (r : Nat) (w : Word) : (e.setReg r w).slots = e.slots := rfl
@[simp] theorem Elem.setReg_guards (e : Elem) (r : Nat) (w : Word) : (e.setReg r w).guards = e.guards := rfl
@[simp] theorem Elem.setReg_conflict (e : Elem) (r : Nat) (w : Word) : (e.setReg r w).conflict = e.conflict := rfl
@[simp] theorem Elem.setReg_handlers (e : Elem) (r : Nat) (w : Word) : (e.setReg r w).handlers = e.handlers := rfl
@[simp] theorem Elem.setReg_hmask (e : Elem) (r : Nat) (w : Word) : (e.setReg r w).hmask = e.hmask := rfl
@[simp] theorem Elem.setReg_active (e : Elem) (r : Nat) (w : Word) : (e.setReg r w).active = e.active := rfl
@[simp] theorem Elem.setReg_passes (e : Elem) (r : Nat) (w : Word) : (e.setReg r w).passes = e.passes := rfl
@[simp] theorem Elem.setReg_raised (e : Elem) (r : Nat) (w : Word) : (e.setReg r w).raised = e.raised := rfl
@[simp] theorem Elem.setReg_owed (e : Elem) (r : Nat) (w : Word) : (e.setReg r w).owed = e.owed := rfl
@[simp] theorem Elem.setReg_join (e : Elem) (r : Nat) (w : Word) : (e.setReg r w).join = e.join := rfl
@[simp] theorem Elem.setReg_steps (e : Elem) (r : Nat) (w : Word) : (e.setReg r w).steps = e.steps := rfl
@[simp] theorem Elem.setReg_countdown (e : Elem) (r : Nat) (w : Word) : (e.setReg r w).countdown = e.countdown := rfl
@[simp] theorem Elem.setReg_beat (e : Elem) (r : Nat) (w : Word) : (e.setReg r w).beat = e.beat := rfl
@[simp] theorem Elem.setReg_stepHi (e : Elem) (r : Nat) (w : Word) : (e.setReg r w).stepHi = e.stepHi := rfl
@[simp] theorem Elem.setReg_timeHi (e : Elem) (r : Nat) (w : Word) : (e.setReg r w).timeHi = e.timeHi := rfl
@[simp] theorem Elem.setReg_role (e : Elem) (r : Nat) (w : Word) : (e.setReg r w).role = e.role := rfl
@[simp] theorem Elem.setReg_cfgWritten (e : Elem) (r : Nat) (w : Word) :
    (e.setReg r w).cfgWritten =
      e.cfgWritten := rfl
@[simp] theorem Elem.setReg_cfgBad (e : Elem) (r : Nat) (w : Word) : (e.setReg r w).cfgBad = e.cfgBad := rfl
@[simp] theorem Elem.setReg_window (e : Elem) (r : Nat) (w : Word) : (e.setReg r w).window = e.window := rfl

/-! ### `Elem.setPair` -/

@[simp] theorem Elem.setPair_d (e : Elem) (r : Nat) (v : BitVec 64) :
    (e.setPair r v).d =
      (e.d.setIfInBounds r (v.extractLsb' 0 32)).setIfInBounds (r + 1) (v.extractLsb' 32 32) := rfl
@[simp] theorem Elem.setPair_pend (e : Elem) (r : Nat) (v : BitVec 64) : (e.setPair r v).pend = e.pend := rfl
@[simp] theorem Elem.setPair_p (e : Elem) (r : Nat) (v : BitVec 64) : (e.setPair r v).p = e.p := rfl
@[simp] theorem Elem.setPair_fifo (e : Elem) (r : Nat) (v : BitVec 64) : (e.setPair r v).fifo = e.fifo := rfl
@[simp] theorem Elem.setPair_closed (e : Elem) (r : Nat) (v : BitVec 64) : (e.setPair r v).closed = e.closed := rfl
@[simp] theorem Elem.setPair_out (e : Elem) (r : Nat) (v : BitVec 64) : (e.setPair r v).out = e.out := rfl
@[simp] theorem Elem.setPair_ci (e : Elem) (r : Nat) (v : BitVec 64) : (e.setPair r v).ci = e.ci := rfl
@[simp] theorem Elem.setPair_co (e : Elem) (r : Nat) (v : BitVec 64) : (e.setPair r v).co = e.co := rfl
@[simp] theorem Elem.setPair_slots (e : Elem) (r : Nat) (v : BitVec 64) : (e.setPair r v).slots = e.slots := rfl
@[simp] theorem Elem.setPair_guards (e : Elem) (r : Nat) (v : BitVec 64) : (e.setPair r v).guards = e.guards := rfl
@[simp] theorem Elem.setPair_conflict (e : Elem) (r : Nat) (v : BitVec 64) :
    (e.setPair r v).conflict =
      e.conflict := rfl
@[simp] theorem Elem.setPair_handlers (e : Elem) (r : Nat) (v : BitVec 64) :
    (e.setPair r v).handlers =
      e.handlers := rfl
@[simp] theorem Elem.setPair_hmask (e : Elem) (r : Nat) (v : BitVec 64) : (e.setPair r v).hmask = e.hmask := rfl
@[simp] theorem Elem.setPair_active (e : Elem) (r : Nat) (v : BitVec 64) : (e.setPair r v).active = e.active := rfl
@[simp] theorem Elem.setPair_passes (e : Elem) (r : Nat) (v : BitVec 64) : (e.setPair r v).passes = e.passes := rfl
@[simp] theorem Elem.setPair_raised (e : Elem) (r : Nat) (v : BitVec 64) : (e.setPair r v).raised = e.raised := rfl
@[simp] theorem Elem.setPair_owed (e : Elem) (r : Nat) (v : BitVec 64) : (e.setPair r v).owed = e.owed := rfl
@[simp] theorem Elem.setPair_join (e : Elem) (r : Nat) (v : BitVec 64) : (e.setPair r v).join = e.join := rfl
@[simp] theorem Elem.setPair_steps (e : Elem) (r : Nat) (v : BitVec 64) : (e.setPair r v).steps = e.steps := rfl
@[simp] theorem Elem.setPair_countdown (e : Elem) (r : Nat) (v : BitVec 64) :
    (e.setPair r v).countdown =
      e.countdown := rfl
@[simp] theorem Elem.setPair_beat (e : Elem) (r : Nat) (v : BitVec 64) : (e.setPair r v).beat = e.beat := rfl
@[simp] theorem Elem.setPair_stepHi (e : Elem) (r : Nat) (v : BitVec 64) : (e.setPair r v).stepHi = e.stepHi := rfl
@[simp] theorem Elem.setPair_timeHi (e : Elem) (r : Nat) (v : BitVec 64) : (e.setPair r v).timeHi = e.timeHi := rfl
@[simp] theorem Elem.setPair_role (e : Elem) (r : Nat) (v : BitVec 64) : (e.setPair r v).role = e.role := rfl
@[simp] theorem Elem.setPair_cfgWritten (e : Elem) (r : Nat) (v : BitVec 64) :
    (e.setPair r v).cfgWritten =
      e.cfgWritten := rfl
@[simp] theorem Elem.setPair_cfgBad (e : Elem) (r : Nat) (v : BitVec 64) : (e.setPair r v).cfgBad = e.cfgBad := rfl
@[simp] theorem Elem.setPair_window (e : Elem) (r : Nat) (v : BitVec 64) : (e.setPair r v).window = e.window := rfl

/-! ### `Elem.setPend` -/

@[simp] theorem Elem.setPend_d (e : Elem) (r : Nat) (b : Bool) : (e.setPend r b).d = e.d := rfl
@[simp] theorem Elem.setPend_pend (e : Elem) (r : Nat) (b : Bool) :
    (e.setPend r b).pend =
      if b then e.pend ||| (1#16 <<< r) else e.pend &&& ~~~(1#16 <<< r) := rfl
@[simp] theorem Elem.setPend_p (e : Elem) (r : Nat) (b : Bool) : (e.setPend r b).p = e.p := rfl
@[simp] theorem Elem.setPend_fifo (e : Elem) (r : Nat) (b : Bool) : (e.setPend r b).fifo = e.fifo := rfl
@[simp] theorem Elem.setPend_closed (e : Elem) (r : Nat) (b : Bool) : (e.setPend r b).closed = e.closed := rfl
@[simp] theorem Elem.setPend_out (e : Elem) (r : Nat) (b : Bool) : (e.setPend r b).out = e.out := rfl
@[simp] theorem Elem.setPend_ci (e : Elem) (r : Nat) (b : Bool) : (e.setPend r b).ci = e.ci := rfl
@[simp] theorem Elem.setPend_co (e : Elem) (r : Nat) (b : Bool) : (e.setPend r b).co = e.co := rfl
@[simp] theorem Elem.setPend_slots (e : Elem) (r : Nat) (b : Bool) : (e.setPend r b).slots = e.slots := rfl
@[simp] theorem Elem.setPend_guards (e : Elem) (r : Nat) (b : Bool) : (e.setPend r b).guards = e.guards := rfl
@[simp] theorem Elem.setPend_conflict (e : Elem) (r : Nat) (b : Bool) : (e.setPend r b).conflict = e.conflict := rfl
@[simp] theorem Elem.setPend_handlers (e : Elem) (r : Nat) (b : Bool) : (e.setPend r b).handlers = e.handlers := rfl
@[simp] theorem Elem.setPend_hmask (e : Elem) (r : Nat) (b : Bool) : (e.setPend r b).hmask = e.hmask := rfl
@[simp] theorem Elem.setPend_active (e : Elem) (r : Nat) (b : Bool) : (e.setPend r b).active = e.active := rfl
@[simp] theorem Elem.setPend_passes (e : Elem) (r : Nat) (b : Bool) : (e.setPend r b).passes = e.passes := rfl
@[simp] theorem Elem.setPend_raised (e : Elem) (r : Nat) (b : Bool) : (e.setPend r b).raised = e.raised := rfl
@[simp] theorem Elem.setPend_owed (e : Elem) (r : Nat) (b : Bool) : (e.setPend r b).owed = e.owed := rfl
@[simp] theorem Elem.setPend_join (e : Elem) (r : Nat) (b : Bool) : (e.setPend r b).join = e.join := rfl
@[simp] theorem Elem.setPend_steps (e : Elem) (r : Nat) (b : Bool) : (e.setPend r b).steps = e.steps := rfl
@[simp] theorem Elem.setPend_countdown (e : Elem) (r : Nat) (b : Bool) :
    (e.setPend r b).countdown =
      e.countdown := rfl
@[simp] theorem Elem.setPend_beat (e : Elem) (r : Nat) (b : Bool) : (e.setPend r b).beat = e.beat := rfl
@[simp] theorem Elem.setPend_stepHi (e : Elem) (r : Nat) (b : Bool) : (e.setPend r b).stepHi = e.stepHi := rfl
@[simp] theorem Elem.setPend_timeHi (e : Elem) (r : Nat) (b : Bool) : (e.setPend r b).timeHi = e.timeHi := rfl
@[simp] theorem Elem.setPend_role (e : Elem) (r : Nat) (b : Bool) : (e.setPend r b).role = e.role := rfl
@[simp] theorem Elem.setPend_cfgWritten (e : Elem) (r : Nat) (b : Bool) :
    (e.setPend r b).cfgWritten =
      e.cfgWritten := rfl
@[simp] theorem Elem.setPend_cfgBad (e : Elem) (r : Nat) (b : Bool) : (e.setPend r b).cfgBad = e.cfgBad := rfl
@[simp] theorem Elem.setPend_window (e : Elem) (r : Nat) (b : Bool) : (e.setPend r b).window = e.window := rfl

/-! ### `Elem.setPred` -/

@[simp] theorem Elem.setPred_d (e : Elem) (n : Nat) (b : Bool) : (e.setPred n b).d = e.d := rfl
@[simp] theorem Elem.setPred_pend (e : Elem) (n : Nat) (b : Bool) : (e.setPred n b).pend = e.pend := rfl
@[simp] theorem Elem.setPred_p (e : Elem) (n : Nat) (b : Bool) :
    (e.setPred n b).p =
      if b then e.p ||| (1#8 <<< n) else e.p &&& ~~~(1#8 <<< n) := rfl
@[simp] theorem Elem.setPred_fifo (e : Elem) (n : Nat) (b : Bool) : (e.setPred n b).fifo = e.fifo := rfl
@[simp] theorem Elem.setPred_closed (e : Elem) (n : Nat) (b : Bool) : (e.setPred n b).closed = e.closed := rfl
@[simp] theorem Elem.setPred_out (e : Elem) (n : Nat) (b : Bool) : (e.setPred n b).out = e.out := rfl
@[simp] theorem Elem.setPred_ci (e : Elem) (n : Nat) (b : Bool) : (e.setPred n b).ci = e.ci := rfl
@[simp] theorem Elem.setPred_co (e : Elem) (n : Nat) (b : Bool) : (e.setPred n b).co = e.co := rfl
@[simp] theorem Elem.setPred_slots (e : Elem) (n : Nat) (b : Bool) : (e.setPred n b).slots = e.slots := rfl
@[simp] theorem Elem.setPred_guards (e : Elem) (n : Nat) (b : Bool) : (e.setPred n b).guards = e.guards := rfl
@[simp] theorem Elem.setPred_conflict (e : Elem) (n : Nat) (b : Bool) : (e.setPred n b).conflict = e.conflict := rfl
@[simp] theorem Elem.setPred_handlers (e : Elem) (n : Nat) (b : Bool) : (e.setPred n b).handlers = e.handlers := rfl
@[simp] theorem Elem.setPred_hmask (e : Elem) (n : Nat) (b : Bool) : (e.setPred n b).hmask = e.hmask := rfl
@[simp] theorem Elem.setPred_active (e : Elem) (n : Nat) (b : Bool) : (e.setPred n b).active = e.active := rfl
@[simp] theorem Elem.setPred_passes (e : Elem) (n : Nat) (b : Bool) : (e.setPred n b).passes = e.passes := rfl
@[simp] theorem Elem.setPred_raised (e : Elem) (n : Nat) (b : Bool) : (e.setPred n b).raised = e.raised := rfl
@[simp] theorem Elem.setPred_owed (e : Elem) (n : Nat) (b : Bool) : (e.setPred n b).owed = e.owed := rfl
@[simp] theorem Elem.setPred_join (e : Elem) (n : Nat) (b : Bool) : (e.setPred n b).join = e.join := rfl
@[simp] theorem Elem.setPred_steps (e : Elem) (n : Nat) (b : Bool) : (e.setPred n b).steps = e.steps := rfl
@[simp] theorem Elem.setPred_countdown (e : Elem) (n : Nat) (b : Bool) :
    (e.setPred n b).countdown =
      e.countdown := rfl
@[simp] theorem Elem.setPred_beat (e : Elem) (n : Nat) (b : Bool) : (e.setPred n b).beat = e.beat := rfl
@[simp] theorem Elem.setPred_stepHi (e : Elem) (n : Nat) (b : Bool) : (e.setPred n b).stepHi = e.stepHi := rfl
@[simp] theorem Elem.setPred_timeHi (e : Elem) (n : Nat) (b : Bool) : (e.setPred n b).timeHi = e.timeHi := rfl
@[simp] theorem Elem.setPred_role (e : Elem) (n : Nat) (b : Bool) : (e.setPred n b).role = e.role := rfl
@[simp] theorem Elem.setPred_cfgWritten (e : Elem) (n : Nat) (b : Bool) :
    (e.setPred n b).cfgWritten =
      e.cfgWritten := rfl
@[simp] theorem Elem.setPred_cfgBad (e : Elem) (n : Nat) (b : Bool) : (e.setPred n b).cfgBad = e.cfgBad := rfl
@[simp] theorem Elem.setPred_window (e : Elem) (n : Nat) (b : Bool) : (e.setPred n b).window = e.window := rfl

/-! ### `Elem.updOut` -/

@[simp] theorem Elem.updOut_d (e : Elem) (ch : Nat) (f : OutChan → OutChan) : (e.updOut ch f).d = e.d := rfl
@[simp] theorem Elem.updOut_pend (e : Elem) (ch : Nat) (f : OutChan → OutChan) : (e.updOut ch f).pend = e.pend := rfl
@[simp] theorem Elem.updOut_p (e : Elem) (ch : Nat) (f : OutChan → OutChan) : (e.updOut ch f).p = e.p := rfl
@[simp] theorem Elem.updOut_fifo (e : Elem) (ch : Nat) (f : OutChan → OutChan) : (e.updOut ch f).fifo = e.fifo := rfl
@[simp] theorem Elem.updOut_closed (e : Elem) (ch : Nat) (f : OutChan → OutChan) :
    (e.updOut ch f).closed =
      e.closed := rfl
@[simp] theorem Elem.updOut_out (e : Elem) (ch : Nat) (f : OutChan → OutChan) :
    (e.updOut ch f).out =
      e.out.setIfInBounds ch (f (e.outCh ch)) := rfl
@[simp] theorem Elem.updOut_ci (e : Elem) (ch : Nat) (f : OutChan → OutChan) : (e.updOut ch f).ci = e.ci := rfl
@[simp] theorem Elem.updOut_co (e : Elem) (ch : Nat) (f : OutChan → OutChan) : (e.updOut ch f).co = e.co := rfl
@[simp] theorem Elem.updOut_slots (e : Elem) (ch : Nat) (f : OutChan → OutChan) :
    (e.updOut ch f).slots =
      e.slots := rfl
@[simp] theorem Elem.updOut_guards (e : Elem) (ch : Nat) (f : OutChan → OutChan) :
    (e.updOut ch f).guards =
      e.guards := rfl
@[simp] theorem Elem.updOut_conflict (e : Elem) (ch : Nat) (f : OutChan → OutChan) :
    (e.updOut ch f).conflict =
      e.conflict := rfl
@[simp] theorem Elem.updOut_handlers (e : Elem) (ch : Nat) (f : OutChan → OutChan) :
    (e.updOut ch f).handlers =
      e.handlers := rfl
@[simp] theorem Elem.updOut_hmask (e : Elem) (ch : Nat) (f : OutChan → OutChan) :
    (e.updOut ch f).hmask =
      e.hmask := rfl
@[simp] theorem Elem.updOut_active (e : Elem) (ch : Nat) (f : OutChan → OutChan) :
    (e.updOut ch f).active =
      e.active := rfl
@[simp] theorem Elem.updOut_passes (e : Elem) (ch : Nat) (f : OutChan → OutChan) :
    (e.updOut ch f).passes =
      e.passes := rfl
@[simp] theorem Elem.updOut_raised (e : Elem) (ch : Nat) (f : OutChan → OutChan) :
    (e.updOut ch f).raised =
      e.raised := rfl
@[simp] theorem Elem.updOut_owed (e : Elem) (ch : Nat) (f : OutChan → OutChan) : (e.updOut ch f).owed = e.owed := rfl
@[simp] theorem Elem.updOut_join (e : Elem) (ch : Nat) (f : OutChan → OutChan) : (e.updOut ch f).join = e.join := rfl
@[simp] theorem Elem.updOut_steps (e : Elem) (ch : Nat) (f : OutChan → OutChan) :
    (e.updOut ch f).steps =
      e.steps := rfl
@[simp] theorem Elem.updOut_countdown (e : Elem) (ch : Nat) (f : OutChan → OutChan) :
    (e.updOut ch f).countdown =
      e.countdown := rfl
@[simp] theorem Elem.updOut_beat (e : Elem) (ch : Nat) (f : OutChan → OutChan) : (e.updOut ch f).beat = e.beat := rfl
@[simp] theorem Elem.updOut_stepHi (e : Elem) (ch : Nat) (f : OutChan → OutChan) :
    (e.updOut ch f).stepHi =
      e.stepHi := rfl
@[simp] theorem Elem.updOut_timeHi (e : Elem) (ch : Nat) (f : OutChan → OutChan) :
    (e.updOut ch f).timeHi =
      e.timeHi := rfl
@[simp] theorem Elem.updOut_role (e : Elem) (ch : Nat) (f : OutChan → OutChan) : (e.updOut ch f).role = e.role := rfl
@[simp] theorem Elem.updOut_cfgWritten (e : Elem) (ch : Nat) (f : OutChan → OutChan) :
    (e.updOut ch f).cfgWritten =
      e.cfgWritten := rfl
@[simp] theorem Elem.updOut_cfgBad (e : Elem) (ch : Nat) (f : OutChan → OutChan) :
    (e.updOut ch f).cfgBad =
      e.cfgBad := rfl
@[simp] theorem Elem.updOut_window (e : Elem) (ch : Nat) (f : OutChan → OutChan) :
    (e.updOut ch f).window =
      e.window := rfl

/-! ### `Elem.setChan` -/

@[simp] theorem Elem.setChan_d (e : Elem) (ch : Nat) (ws : List ChanWord) : (e.setChan ch ws).d = e.d := rfl
@[simp] theorem Elem.setChan_pend (e : Elem) (ch : Nat) (ws : List ChanWord) : (e.setChan ch ws).pend = e.pend := rfl
@[simp] theorem Elem.setChan_p (e : Elem) (ch : Nat) (ws : List ChanWord) : (e.setChan ch ws).p = e.p := rfl
@[simp] theorem Elem.setChan_fifo (e : Elem) (ch : Nat) (ws : List ChanWord) :
    (e.setChan ch ws).fifo =
      e.fifo.setIfInBounds ch ws := rfl
@[simp] theorem Elem.setChan_out (e : Elem) (ch : Nat) (ws : List ChanWord) : (e.setChan ch ws).out = e.out := rfl
@[simp] theorem Elem.setChan_ci (e : Elem) (ch : Nat) (ws : List ChanWord) : (e.setChan ch ws).ci = e.ci := rfl
@[simp] theorem Elem.setChan_co (e : Elem) (ch : Nat) (ws : List ChanWord) : (e.setChan ch ws).co = e.co := rfl
@[simp] theorem Elem.setChan_slots (e : Elem) (ch : Nat) (ws : List ChanWord) :
    (e.setChan ch ws).slots =
      e.slots := rfl
@[simp] theorem Elem.setChan_guards (e : Elem) (ch : Nat) (ws : List ChanWord) :
    (e.setChan ch ws).guards =
      e.guards := rfl
@[simp] theorem Elem.setChan_conflict (e : Elem) (ch : Nat) (ws : List ChanWord) :
    (e.setChan ch ws).conflict =
      e.conflict := rfl
@[simp] theorem Elem.setChan_handlers (e : Elem) (ch : Nat) (ws : List ChanWord) :
    (e.setChan ch ws).handlers =
      e.handlers := rfl
@[simp] theorem Elem.setChan_hmask (e : Elem) (ch : Nat) (ws : List ChanWord) :
    (e.setChan ch ws).hmask =
      e.hmask := rfl
@[simp] theorem Elem.setChan_active (e : Elem) (ch : Nat) (ws : List ChanWord) :
    (e.setChan ch ws).active =
      e.active := rfl
@[simp] theorem Elem.setChan_passes (e : Elem) (ch : Nat) (ws : List ChanWord) :
    (e.setChan ch ws).passes =
      e.passes := rfl
@[simp] theorem Elem.setChan_raised (e : Elem) (ch : Nat) (ws : List ChanWord) :
    (e.setChan ch ws).raised =
      e.raised := rfl
@[simp] theorem Elem.setChan_owed (e : Elem) (ch : Nat) (ws : List ChanWord) : (e.setChan ch ws).owed = e.owed := rfl
@[simp] theorem Elem.setChan_join (e : Elem) (ch : Nat) (ws : List ChanWord) : (e.setChan ch ws).join = e.join := rfl
@[simp] theorem Elem.setChan_steps (e : Elem) (ch : Nat) (ws : List ChanWord) :
    (e.setChan ch ws).steps =
      e.steps := rfl
@[simp] theorem Elem.setChan_countdown (e : Elem) (ch : Nat) (ws : List ChanWord) :
    (e.setChan ch ws).countdown =
      e.countdown := rfl
@[simp] theorem Elem.setChan_beat (e : Elem) (ch : Nat) (ws : List ChanWord) : (e.setChan ch ws).beat = e.beat := rfl
@[simp] theorem Elem.setChan_stepHi (e : Elem) (ch : Nat) (ws : List ChanWord) :
    (e.setChan ch ws).stepHi =
      e.stepHi := rfl
@[simp] theorem Elem.setChan_timeHi (e : Elem) (ch : Nat) (ws : List ChanWord) :
    (e.setChan ch ws).timeHi =
      e.timeHi := rfl
@[simp] theorem Elem.setChan_role (e : Elem) (ch : Nat) (ws : List ChanWord) : (e.setChan ch ws).role = e.role := rfl
@[simp] theorem Elem.setChan_cfgWritten (e : Elem) (ch : Nat) (ws : List ChanWord) :
    (e.setChan ch ws).cfgWritten =
      e.cfgWritten := rfl
@[simp] theorem Elem.setChan_cfgBad (e : Elem) (ch : Nat) (ws : List ChanWord) :
    (e.setChan ch ws).cfgBad =
      e.cfgBad := rfl
@[simp] theorem Elem.setChan_window (e : Elem) (ch : Nat) (ws : List ChanWord) :
    (e.setChan ch ws).window =
      e.window := rfl

/-! ### `Elem.dropWords` -/

@[simp] theorem Elem.dropWords_d (e : Elem) (ch n : Nat) : (e.dropWords ch n).d = e.d := by
  simp only [Elem.dropWords, Elem.setChan_d]; split <;> rfl
@[simp] theorem Elem.dropWords_pend (e : Elem) (ch n : Nat) : (e.dropWords ch n).pend = e.pend := by
  simp only [Elem.dropWords, Elem.setChan_pend]; split <;> rfl
@[simp] theorem Elem.dropWords_p (e : Elem) (ch n : Nat) : (e.dropWords ch n).p = e.p := by
  simp only [Elem.dropWords, Elem.setChan_p]; split <;> rfl
@[simp] theorem Elem.dropWords_out (e : Elem) (ch n : Nat) : (e.dropWords ch n).out = e.out := by
  simp only [Elem.dropWords, Elem.setChan_out]; split <;> rfl
@[simp] theorem Elem.dropWords_ci (e : Elem) (ch n : Nat) : (e.dropWords ch n).ci = e.ci := by
  simp only [Elem.dropWords, Elem.setChan_ci]; split <;> rfl
@[simp] theorem Elem.dropWords_co (e : Elem) (ch n : Nat) : (e.dropWords ch n).co = e.co := by
  simp only [Elem.dropWords, Elem.setChan_co]; split <;> rfl
@[simp] theorem Elem.dropWords_slots (e : Elem) (ch n : Nat) : (e.dropWords ch n).slots = e.slots := by
  simp only [Elem.dropWords, Elem.setChan_slots]; split <;> rfl
@[simp] theorem Elem.dropWords_guards (e : Elem) (ch n : Nat) : (e.dropWords ch n).guards = e.guards := by
  simp only [Elem.dropWords, Elem.setChan_guards]; split <;> rfl
@[simp] theorem Elem.dropWords_conflict (e : Elem) (ch n : Nat) : (e.dropWords ch n).conflict = e.conflict := by
  simp only [Elem.dropWords, Elem.setChan_conflict]; split <;> rfl
@[simp] theorem Elem.dropWords_handlers (e : Elem) (ch n : Nat) : (e.dropWords ch n).handlers = e.handlers := by
  simp only [Elem.dropWords, Elem.setChan_handlers]; split <;> rfl
@[simp] theorem Elem.dropWords_hmask (e : Elem) (ch n : Nat) : (e.dropWords ch n).hmask = e.hmask := by
  simp only [Elem.dropWords, Elem.setChan_hmask]; split <;> rfl
@[simp] theorem Elem.dropWords_active (e : Elem) (ch n : Nat) : (e.dropWords ch n).active = e.active := by
  simp only [Elem.dropWords, Elem.setChan_active]; split <;> rfl
@[simp] theorem Elem.dropWords_passes (e : Elem) (ch n : Nat) : (e.dropWords ch n).passes = e.passes := by
  simp only [Elem.dropWords, Elem.setChan_passes]; split <;> rfl
@[simp] theorem Elem.dropWords_raised (e : Elem) (ch n : Nat) : (e.dropWords ch n).raised = e.raised := by
  simp only [Elem.dropWords, Elem.setChan_raised]; split <;> rfl
@[simp] theorem Elem.dropWords_owed (e : Elem) (ch n : Nat) : (e.dropWords ch n).owed = e.owed := by
  simp only [Elem.dropWords, Elem.setChan_owed]; split <;> rfl
@[simp] theorem Elem.dropWords_join (e : Elem) (ch n : Nat) : (e.dropWords ch n).join = e.join := by
  simp only [Elem.dropWords, Elem.setChan_join]; split <;> rfl
@[simp] theorem Elem.dropWords_steps (e : Elem) (ch n : Nat) : (e.dropWords ch n).steps = e.steps := by
  simp only [Elem.dropWords, Elem.setChan_steps]; split <;> rfl
@[simp] theorem Elem.dropWords_countdown (e : Elem) (ch n : Nat) : (e.dropWords ch n).countdown = e.countdown := by
  simp only [Elem.dropWords, Elem.setChan_countdown]; split <;> rfl
@[simp] theorem Elem.dropWords_beat (e : Elem) (ch n : Nat) : (e.dropWords ch n).beat = e.beat := by
  simp only [Elem.dropWords, Elem.setChan_beat]; split <;> rfl
@[simp] theorem Elem.dropWords_stepHi (e : Elem) (ch n : Nat) : (e.dropWords ch n).stepHi = e.stepHi := by
  simp only [Elem.dropWords, Elem.setChan_stepHi]; split <;> rfl
@[simp] theorem Elem.dropWords_timeHi (e : Elem) (ch n : Nat) : (e.dropWords ch n).timeHi = e.timeHi := by
  simp only [Elem.dropWords, Elem.setChan_timeHi]; split <;> rfl
@[simp] theorem Elem.dropWords_role (e : Elem) (ch n : Nat) : (e.dropWords ch n).role = e.role := by
  simp only [Elem.dropWords, Elem.setChan_role]; split <;> rfl
@[simp] theorem Elem.dropWords_cfgWritten (e : Elem) (ch n : Nat) : (e.dropWords ch n).cfgWritten = e.cfgWritten := by
  simp only [Elem.dropWords, Elem.setChan_cfgWritten]; split <;> rfl
@[simp] theorem Elem.dropWords_cfgBad (e : Elem) (ch n : Nat) : (e.dropWords ch n).cfgBad = e.cfgBad := by
  simp only [Elem.dropWords, Elem.setChan_cfgBad]; split <;> rfl
@[simp] theorem Elem.dropWords_window (e : Elem) (ch n : Nat) : (e.dropWords ch n).window = e.window := by
  simp only [Elem.dropWords, Elem.setChan_window]; split <;> rfl

end Sys2Proof.Machine
end

