-- ==== Sys2Proof/Laws/Store.lean ====
section
/-!
SUPPORT. Laws of keyed data and of memory: a read after a write to the same place gives the value written, a write
leaves every other place alone, and every store keeps the canonical form.
-/
namespace Sys2Proof.Machine

/-! ## Keyed data -/

@[simp] theorem Assoc.find_put {α : Type} (m : Assoc α) (k j : Nat) (v : α) :
    (m.put k v).find j = if j = k then some v else m.find j := by
  induction m with
  | nil =>
    by_cases h : j = k
    · simp [Assoc.put, Assoc.find, h]
    · simp [Assoc.put, Assoc.find, h, Ne.symm h]
  | cons c m ih =>
    obtain ⟨i, u⟩ := c
    by_cases h : j = k
    · subst h
      simp only [Assoc.put]
      split
      · simp [Assoc.find]
      · split
        · simp [Assoc.find]
        · rename_i h1 h2
          simp [Assoc.find, ih, Ne.symm h2]
    · simp only [Assoc.put]
      split
      · simp [Assoc.find, Ne.symm h]
      · split
        · rename_i h1 h2
          subst h2
          simp [Assoc.find, Ne.symm h]
        · simp [Assoc.find, ih, h]

theorem Assoc.mem_put {α : Type} (m : Assoc α) (k : Nat) (v : α) (c : Nat × α) (h : c ∈ m.put k v) :
    c = (k, v) ∨ c ∈ m := by
  induction m with
  | nil => simpa [Assoc.put] using h
  | cons b m ih =>
    obtain ⟨i, u⟩ := b
    simp only [Assoc.put] at h
    split at h
    · simpa using h
    · split at h
      · simp only [List.mem_cons] at h ⊢
        exact h.elim .inl fun h => .inr (.inr h)
      · simp only [List.mem_cons] at h ⊢
        exact h.elim (fun h => .inr (.inl h)) fun h => (ih h).elim .inl fun h => .inr (.inr h)

theorem Assoc.mem_del {α : Type} (m : Assoc α) (k : Nat) (c : Nat × α) (h : c ∈ m.del k) : c ∈ m := by
  induction m with
  | nil => simp [Assoc.del] at h
  | cons b m ih =>
    obtain ⟨i, u⟩ := b
    simp only [Assoc.del] at h
    split at h
    · simp [h]
    · simp only [List.mem_cons] at h ⊢
      rcases h with h | h
      · exact .inl h
      · exact .inr (ih h)

/-- The keys of keyed data rise strictly. -/
def Rising {α : Type} (m : Assoc α) : Prop := (m.map Prod.fst).Pairwise (· < ·)

theorem Assoc.rising_put {α : Type} {m : Assoc α} (h : Rising m) (k : Nat) (v : α) : Rising (m.put k v) := by
  induction m with
  | nil => simp [Rising, Assoc.put]
  | cons c m ih =>
    obtain ⟨i, u⟩ := c
    simp only [Rising, List.map_cons, List.pairwise_cons] at h
    obtain ⟨h1, h2⟩ := h
    simp only [Assoc.put]
    split
    · rename_i hk
      simp only [Rising, List.map_cons, List.pairwise_cons, List.mem_cons]
      refine ⟨?_, h1, h2⟩
      rintro a (rfl | ha)
      · exact hk
      · exact Nat.lt_trans hk (h1 a ha)
    · split
      · subst i; exact List.pairwise_cons.2 ⟨h1, h2⟩
      · refine List.pairwise_cons.2 ⟨?_, ih h2⟩
        intro a ha
        obtain ⟨c, hc, rfl⟩ := List.mem_map.1 ha
        rcases Assoc.mem_put m k v c hc with rfl | hc
        · simp only; omega
        · exact h1 _ (List.mem_map_of_mem hc)

theorem Assoc.rising_del {α : Type} {m : Assoc α} (h : Rising m) (k : Nat) : Rising (m.del k) := by
  induction m with
  | nil => simp [Rising, Assoc.del]
  | cons c m ih =>
    obtain ⟨i, u⟩ := c
    simp only [Rising, List.map_cons, List.pairwise_cons] at h
    simp only [Assoc.del]
    split
    · exact h.2
    · refine List.pairwise_cons.2 ⟨?_, ih h.2⟩
      intro a ha
      obtain ⟨c, hc, rfl⟩ := List.mem_map.1 ha
      exact h.1 _ (List.mem_map_of_mem (Assoc.mem_del m k c hc))

theorem Assoc.find_none {α : Type} {m : Assoc α} {k : Nat} (h : ∀ c ∈ m, c.1 ≠ k) : m.find k = none := by
  induction m with
  | nil => rfl
  | cons c m ih =>
    obtain ⟨i, u⟩ := c
    have := h (i, u) (by simp)
    simp only [Assoc.find, if_neg this]
    exact ih fun c hc => h c (by simp [hc])

theorem Assoc.find_del {α : Type} {m : Assoc α} (h : Rising m) (k j : Nat) :
    (m.del k).find j = if j = k then none else m.find j := by
  induction m with
  | nil => simp [Assoc.del, Assoc.find]
  | cons c m ih =>
    obtain ⟨i, u⟩ := c
    simp only [Rising, List.map_cons, List.pairwise_cons] at h
    simp only [Assoc.del]
    split
    · subst i
      by_cases hj : j = k
      · subst hj
        rw [if_pos rfl]
        exact Assoc.find_none fun c hc => Nat.ne_of_gt (h.1 _ (List.mem_map_of_mem hc))
      · rw [if_neg hj, Assoc.find, if_neg (fun e => hj e.symm)]
    · simp only [Assoc.find, ih h.2]
      split <;> split <;> simp_all

/-! ## Memory -/

theorem Memory.wf_iff (m : Memory) : m.wf = true ↔ Rising m ∧ ∀ c ∈ m, c.2 ≠ Memory.unwritten := by
  simp [Memory.wf, Rising]

theorem Memory.wf_nil : Memory.wf [] = true := rfl

theorem Memory.wf_write {m : Memory} (h : m.wf = true) (a : Nat) (b : Byte) : (m.write a b).wf = true := by
  rw [Memory.wf_iff] at h ⊢
  simp only [Memory.write]
  split
  · exact ⟨Assoc.rising_del h.1 a, fun c hc => h.2 c (Assoc.mem_del m a c hc)⟩
  · rename_i hb
    refine ⟨Assoc.rising_put h.1 a b, fun c hc => ?_⟩
    rcases Assoc.mem_put m a b c hc with rfl | hc
    · exact hb
    · exact h.2 c hc

/-- A read after a write: the value written, and every other place as before. -/
theorem Memory.read_write {m : Memory} (h : m.wf = true) (a x : Nat) (b : Byte) :
    (m.write a b).read x = if x = a then b else m.read x := by
  rw [Memory.wf_iff] at h
  simp only [Memory.read, Memory.write]
  by_cases hb : b = Memory.unwritten
  · rw [if_pos hb]
    simp only [Assoc.find_del h.1]
    by_cases hx : x = a <;> simp [hx, hb]
  · rw [if_neg hb]
    simp only [Assoc.find_put]
    by_cases hx : x = a <;> simp [hx]

theorem Memory.wf_writeN {m : Memory} (h : m.wf = true) (a : Nat) (bs : List Byte) : (m.writeN a bs).wf = true := by
  induction bs generalizing m a with
  | nil => exact h
  | cons b bs ih => exact ih (Memory.wf_write h a b) (a + 1)

/-- A read after a write of several bytes. -/
theorem Memory.read_writeN {m : Memory} (h : m.wf = true) (a x : Nat) (bs : List Byte) :
    (m.writeN a bs).read x = if a ≤ x ∧ x < a + bs.length then bs.getD (x - a) 0 else m.read x := by
  induction bs generalizing m a with
  | nil => simp only [Memory.writeN, List.length_nil]; rw [if_neg (by omega)]
  | cons b bs ih =>
    rw [Memory.writeN, ih (Memory.wf_write h a b), Memory.read_write h]
    simp only [List.length_cons]
    by_cases hx : x = a
    · subst hx
      rw [if_neg (by omega), if_pos rfl, if_pos (by omega)]
      simp
    · rw [if_neg hx]
      by_cases hr : a + 1 ≤ x ∧ x < a + 1 + bs.length
      · rw [if_pos hr, if_pos (by omega)]
        obtain ⟨n, hn⟩ : ∃ n, x - a = n + 1 := ⟨x - a - 1, by omega⟩
        rw [hn, show x - (a + 1) = n by omega, List.getD_cons_succ]
      · rw [if_neg hr, if_neg (by omega)]

/-! ## Elements, cores, clusters and registers -/

@[simp] theorem State.elem_setElem (s : State) (k j : Nat) (e : Elem) :
    (s.setElem k e).elem j = if j = k then e else s.elem j := by
  simp only [State.elem, State.setElem_elems, Assoc.find_put]; split <;> rfl

@[simp] theorem State.elem_updElem (s : State) (k j : Nat) (f : Elem → Elem) :
    (s.updElem k f).elem j = if j = k then f (s.elem k) else s.elem j := State.elem_setElem s k j _

@[simp] theorem State.me_updMe (s : State) (f : Elem → Elem) : (s.updMe f).me = f s.me := by
  simp [State.me, State.updMe]

@[simp] theorem State.core_setCore (s : State) (k j : Nat) (c : Core) :
    (s.setCore k c).core j = if j = k then c else s.core j := by
  simp only [State.core, State.setCore_cores, Assoc.find_put]; split <;> rfl

@[simp] theorem State.core_updCore (s : State) (k j : Nat) (f : Core → Core) :
    (s.updCore k f).core j = if j = k then f (s.core k) else s.core j := State.core_setCore s k j _

@[simp] theorem State.cluster_setCluster (s : State) (k j : Nat) (c : Cluster) :
    (s.setCluster k c).cluster j = if j = k then c else s.cluster j := by
  simp only [State.cluster, State.setCluster_clusters, Assoc.find_put]; split <;> rfl

@[simp] theorem State.cluster_updCluster (s : State) (k j : Nat) (f : Cluster → Cluster) :
    (s.updCluster k f).cluster j = if j = k then f (s.cluster k) else s.cluster j := State.cluster_setCluster s k j _

@[simp] theorem State.preg_setPreg (s : State) (n m : Nat) (w : Word) :
    (s.setPreg n w).preg m = if m = n then w else s.preg m := by
  simp only [State.preg, State.setPreg_regs, Assoc.find_put]; split <;> rfl

/-! ## Registers, predicates and channels of an element -/

theorem getD_setIfInBounds {α : Type} {n : Nat} (v : Vector α n) (r q : Nat) (w x : α) (hr : r < n) :
    (v.setIfInBounds r w).getD q x = if q = r then w else v.getD q x := by
  obtain ⟨a, ha⟩ := v
  subst ha
  simp only [Vector.getD, Vector.setIfInBounds, Array.getD_eq_getD_getElem?, Array.getElem?_setIfInBounds]
  by_cases h : q = r
  · subst h; simp [hr]
  · simp [h, Ne.symm h]

theorem Elem.reg_setReg (e : Elem) (r q : Nat) (w : Word) (hr : r < 16) :
    (e.setReg r w).reg q = if q = r then w else e.reg q := getD_setIfInBounds e.d r q w 0 hr

theorem Elem.isPending_setPend (e : Elem) (r q : Nat) (b : Bool) (hr : r < 16) :
    (e.setPend r b).isPending q = if q = r then b else e.isPending q := by
  have hp : ∀ i, (1#16 <<< r).getLsbD i = decide (i = r) := by
    intro i
    rw [BitVec.getLsbD_shiftLeft]
    by_cases h : i = r
    · subst h; simp [hr]
    · simp only [h, decide_false]
      by_cases h2 : i < r
      · simp [h2]
      · have : i - r ≠ 0 := by omega
        simp [BitVec.getLsbD_one, this]
  simp only [Elem.isPending, Elem.setPend_pend]
  cases b
  · rw [if_neg (by simp)]
    rw [BitVec.getLsbD_and, BitVec.getLsbD_not, hp]
    by_cases h : q = r
    · subst h; simp
    · by_cases hq : q < 16
      · simp [h, hq]
      · simp only [h, decide_false, Bool.not_false, if_false]
        rw [BitVec.getLsbD_of_ge e.pend q (by omega)]; simp
  · rw [if_pos rfl, BitVec.getLsbD_or, hp]
    by_cases h : q = r
    · subst h; simp
    · simp [h]

theorem Elem.pred_setPred (e : Elem) (n q : Nat) (b : Bool) (hn : n < 8) :
    (e.setPred n b).pred q = if q = n then b else e.pred q := by
  have hp : ∀ i, (1#8 <<< n).getLsbD i = decide (i = n) := by
    intro i
    rw [BitVec.getLsbD_shiftLeft]
    by_cases h : i = n
    · subst h; simp [hn]
    · simp only [h, decide_false]
      by_cases h2 : i < n
      · simp [h2]
      · have : i - n ≠ 0 := by omega
        simp [BitVec.getLsbD_one, this]
  simp only [Elem.pred, Elem.setPred_p]
  cases b
  · rw [if_neg (by simp)]
    rw [BitVec.getLsbD_and, BitVec.getLsbD_not, hp]
    by_cases h : q = n
    · subst h; simp
    · by_cases hq : q < 8
      · simp [h, hq]
      · simp only [h, decide_false, Bool.not_false, if_false]
        rw [BitVec.getLsbD_of_ge e.p q (by omega)]; simp
  · rw [if_pos rfl, BitVec.getLsbD_or, hp]
    by_cases h : q = n
    · subst h; simp
    · simp [h]

theorem Elem.outCh_updOut (e : Elem) (ch j : Nat) (f : OutChan → OutChan) (h : ch < 4) :
    (e.updOut ch f).outCh j = if j = ch then f (e.outCh ch) else e.outCh j := getD_setIfInBounds e.out ch j _ _ h

theorem Elem.chan_setChan (e : Elem) (ch j : Nat) (ws : List ChanWord) (h : ch < 4) :
    (e.setChan ch ws).chan j = if j = ch then ws else e.chan j := getD_setIfInBounds e.fifo ch j ws [] h

theorem Elem.chan_dropWords (e : Elem) (ch j n : Nat) (h : ch < 4) :
    (e.dropWords ch n).chan j = if j = ch then (e.chan ch).drop n else e.chan j := by
  simp only [Elem.dropWords]
  split
  · rw [Elem.chan_setChan _ _ _ _ h]
  · rw [Elem.chan_setChan _ _ _ _ h]; rfl

end Sys2Proof.Machine
end

