-- ==== Sys2Proof/Laws/Firing.lean ====
section
/-!
SUPPORT. What the shared operations of a firing do: the firing itself with its faults, what reading operands and writing
results changes, and what sending a request or a command changes. A statement about a rule cites these.
-/
namespace Sys2Proof.Machine

/-! ## The firing -/

/-- A firing always answers a next state. -/
theorem fire_next (i : Instr) (bad : State → Bool) (chk : State → Option (Nat × Nat)) (eff : State → State) (s : State) :
    ∃ t, fire i bad chk eff s = .next t := by
  unfold fire
  split
  · exact ⟨_, rfl⟩
  · split
    · exact ⟨_, rfl⟩
    · split <;> exact ⟨_, rfl⟩

/-- A beat after the first is tested for nothing (R53, R54). -/
theorem fire_late {i : Instr} {bad : State → Bool} {chk : State → Option (Nat × Nat)} {eff : State → State} {s : State}
    (h : s.beatNo ≠ 0) : fire i bad chk eff s = .next (eff s) := by
  rw [fire, if_pos h]

/-- A rule against which nothing stands has its effect. -/
theorem fire_clear {i : Instr} {bad : State → Bool} {chk : State → Option (Nat × Nat)} {eff : State → State} {s : State}
    (hw : s.beatNo = 0 → s.wordFault i.view (bad s) = none) (hc : s.beatNo = 0 → chk s = none) :
    fire i bad chk eff s = .next (eff s) := by
  by_cases h : s.beatNo = 0
  · rw [fire, if_neg (by simpa using h), hw h]
    simp only [hc h]
  · exact fire_late h

/-- A fault of items 1 to 5 of R371 is taken before the others. -/
theorem fire_word {i : Instr} {bad : State → Bool} {chk : State → Option (Nat × Nat)} {eff : State → State} {s : State}
    {c : Nat} (h : s.beatNo = 0) (hw : s.wordFault i.view (bad s) = some c) :
    fire i bad chk eff s = .next (s.takeFault c 0) := by
  rw [fire, if_neg (by simpa using h), hw]

/-- A fault of the later items of R371 is taken when none of the first five stands. -/
theorem fire_check {i : Instr} {bad : State → Bool} {chk : State → Option (Nat × Nat)} {eff : State → State} {s : State}
    {c a : Nat} (h : s.beatNo = 0) (hw : s.wordFault i.view (bad s) = none) (hc : chk s = some (c, a)) :
    fire i bad chk eff s = .next (s.takeFault c a) := by
  rw [fire, if_neg (by simpa using h), hw]
  simp only [hc]

/-- What a firing can be: its effect, or a fault taken before beat 0. -/
theorem fire_cases {i : Instr} {bad : State → Bool} {chk : State → Option (Nat × Nat)} {eff : State → State} {s t : State}
    (h : fire i bad chk eff s = .next t) :
    t = eff s ∨ (s.beatNo = 0 ∧ ∃ c, s.wordFault i.view (bad s) = some c ∧ t = s.takeFault c 0) ∨
      (s.beatNo = 0 ∧ ∃ c a, chk s = some (c, a) ∧ t = s.takeFault c a) := by
  unfold fire at h
  split at h
  · left; cases h; rfl
  · rename_i hb
    have hb : s.beatNo = 0 := by simpa using hb
    split at h
    · rename_i c hc
      cases h
      exact .inr (.inl ⟨hb, c, hc, rfl⟩)
    · split at h
      · rename_i c a hc
        cases h
        exact .inr (.inr ⟨hb, c, a, hc, rfl⟩)
      · cases h; exact .inl rfl

/-! ## What changes elements and links only -/

/-- The state changes only in the element `k` and in the links. -/
def Touches (k : Nat) (s t : State) : Prop :=
  t = { s with elems := t.elems, links := t.links } ∧ ∀ j, j ≠ k → t.elem j = s.elem j

theorem Touches.refl (k : Nat) (s : State) : Touches k s s := ⟨rfl, fun _ _ => rfl⟩

theorem Touches.trans {k : Nat} {s t u : State} (h : Touches k s t) (g : Touches k t u) : Touches k s u := by
  refine ⟨?_, fun j hj => (g.2 j hj).trans (h.2 j hj)⟩
  have hg := g.1
  rw [h.1] at hg
  exact hg

theorem touches_updElem (s : State) (k : Nat) (f : Elem → Elem) : Touches k s (s.updElem k f) :=
  ⟨rfl, fun j hj => by simp [hj]⟩

theorem touches_links (k : Nat) (s : State) (ls : List Link) : Touches k s { s with links := ls } := ⟨rfl, fun _ _ => rfl⟩

@[simp] theorem State.elem_freeSlots (s : State) (r : LinkEnd) (n j : Nat) : (s.freeSlots r n).elem j = s.elem j := by
  unfold State.freeSlots; split <;> rfl

theorem touches_freeSlots (k : Nat) (s : State) (r : LinkEnd) (n : Nat) : Touches k s (s.freeSlots r n) := by
  unfold State.freeSlots
  split
  · exact .refl k s
  · exact touches_links k s _

@[simp] theorem State.elem_popWords (s : State) (k ch n j : Nat) :
    (s.popWords k ch n).elem j =
      if j = k then (s.elem k).dropWords ch (min n ((s.elem k).chan ch).length) else s.elem j := by
  simp [State.popWords]

theorem touches_popWords (s : State) (k ch n : Nat) : Touches k s (s.popWords k ch n) :=
  (touches_updElem s k _).trans (touches_freeSlots k _ _ _)

@[simp] theorem State.elem_updLink (s : State) (id j : Nat) (f : Link → Link) : (s.updLink id f).elem j = s.elem j := rfl

@[simp] theorem State.elem_flushOut (s : State) (k ch j : Nat) :
    (s.flushOut k ch).elem j =
      if j = k then (s.elem k).updOut ch fun o => { o with stage := (leadingWords ((s.elem k).outCh ch).stage).2 }
      else s.elem j := by
  simp only [State.flushOut]
  split <;> simp

theorem touches_flushOut (s : State) (k ch : Nat) : Touches k s (s.flushOut k ch) := by
  simp only [State.flushOut]
  split
  · exact (touches_updElem s k _).trans (touches_links k _ _)
  · exact touches_updElem s k _

theorem touches_pushWord (s : State) (k ch : Nat) (t : Tag) (w : Word) : Touches k s (s.pushWord k ch t w) :=
  (touches_updElem s k _).trans (touches_flushOut _ k ch)

theorem touches_reserveSlot (s : State) (k ch id : Nat) (t : Tag) : Touches k s (s.reserveSlot k ch id t) :=
  touches_updElem s k _

theorem touches_takeCarry (s : State) : Touches s.cur.elem s s.takeCarry := by
  unfold State.takeCarry
  split
  · exact touches_updElem s s.cur.elem _
  · exact .refl _ s

/-- Popping several channels touches the element and links. -/
theorem touches_pops (dm : Demand) (k : Nat) : ∀ (chs : List Nat) (s : State), s.cur.elem = k →
    Touches k s (chs.foldl (fun s ch => s.popWords s.cur.elem ch (popsOf dm ch)) s)
  | [], s, _ => .refl k s
  | ch :: chs, s, h => by
    have h1 := touches_popWords s s.cur.elem ch (popsOf dm ch)
    have hc : (s.popWords s.cur.elem ch (popsOf dm ch)).cur = s.cur := by rw [h1.1]
    have h2 := touches_pops dm k chs (s.popWords s.cur.elem ch (popsOf dm ch)) (by rw [hc]; exact h)
    rw [h] at h1 h2
    simpa only [List.foldl, h] using h1.trans h2

/-- An operand's reads touch the element that fires, and links, and nothing else. -/
theorem touches_consume (s : State) (dm : Demand) : Touches s.cur.elem s (s.consume dm) := by
  have hp := touches_pops dm s.cur.elem [0, 1, 2, 3] s rfl
  unfold State.consume
  split
  · have hc : ([0, 1, 2, 3].foldl (fun s ch => s.popWords s.cur.elem ch (popsOf dm ch)) s).cur = s.cur := by rw [hp.1]
    have h2 := touches_takeCarry ([0, 1, 2, 3].foldl (fun s ch => s.popWords s.cur.elem ch (popsOf dm ch)) s)
    rw [hc] at h2
    exact hp.trans h2
  · exact hp

/-- A result touches the element that fires, and links, and nothing else. -/
theorem touches_wr (s : State) (c : Code) (w : Word) : Touches s.cur.elem s (s.wr c w) := by
  unfold State.wr
  split
  · exact touches_updElem s s.cur.elem _
  · exact touches_pushWord s s.cur.elem _ _ _

@[simp] theorem State.cur_consume (s : State) (dm : Demand) : (s.consume dm).cur = s.cur := by
  rw [(touches_consume s dm).1]

@[simp] theorem State.cur_popWords (s : State) (k ch n : Nat) : (s.popWords k ch n).cur = s.cur := by
  rw [(touches_popWords s k ch n).1]

/-! ## The element that fires, after its operands are read -/

theorem elem_pops (dm : Demand) (k : Nat) : ∀ (chs : List Nat) (s : State), s.cur.elem = k →
    (chs.foldl (fun s ch => s.popWords s.cur.elem ch (popsOf dm ch)) s).elem k =
      chs.foldl (fun e ch => e.dropWords ch (min (popsOf dm ch) (e.chan ch).length)) (s.elem k)
  | [], _, _ => rfl
  | ch :: chs, s, h => by
    have := elem_pops dm k chs (s.popWords s.cur.elem ch (popsOf dm ch)) (by simpa using h)
    simpa only [List.foldl, h, State.elem_popWords, if_true] using this

/-- What reading operands pops of an element's channels. -/
def Elem.popped (e : Elem) (dm : Demand) : Elem :=
  [0, 1, 2, 3].foldl (fun e ch => e.dropWords ch (min (popsOf dm ch) (e.chan ch).length)) e

/-- The popped words leave their channels and the carry word is taken; the rest of the element is as it was. -/
theorem State.elem_consume (s : State) (dm : Demand) :
    (s.consume dm).elem s.cur.elem =
      if (dm.any fun p => p.1.toNat = 24) && (s.ciJoined s.cur.elem && s.beatNo = 0) then
        { s.me.popped dm with ci := none }
      else s.me.popped dm := by
  have he : _ = s.me.popped dm := elem_pops dm s.cur.elem [0, 1, 2, 3] s rfl
  have hp := touches_pops dm s.cur.elem [0, 1, 2, 3] s rfl
  have hj : (s.me.popped dm).join = s.me.join := by simp [Elem.popped]
  have hb : (s.me.popped dm).beat = s.me.beat := by simp [Elem.popped]
  unfold State.consume
  generalize hu : [0, 1, 2, 3].foldl (fun s ch => s.popWords s.cur.elem ch (popsOf dm ch)) s = u at he hp ⊢
  have hc : u.cur = s.cur := by rw [hp.1]
  have hcj : u.ciJoined s.cur.elem = s.ciJoined s.cur.elem := by simp only [State.ciJoined, he, hj]; rfl
  have hm : u.me = s.me.popped dm := by rw [State.me, hc]; exact he
  have hbn : u.beatNo = s.beatNo := by simp only [State.beatNo, hm, hb]
  cases dm.any (fun p => p.1.toNat = 24)
  · simpa only [Bool.false_and, Bool.false_eq_true, if_false] using he
  · simp only [if_true, Bool.true_and, State.takeCarry, hc, hcj, hbn]
    split
    · simp only [State.updMe, hc, State.elem_updElem, if_true, he]
    · exact he

@[simp] theorem Elem.reg_dropWords (e : Elem) (ch n r : Nat) : (e.dropWords ch n).reg r = e.reg r := by
  simp [Elem.reg]

@[simp] theorem Elem.reg_popped (e : Elem) (dm : Demand) (r : Nat) : (e.popped dm).reg r = e.reg r := by
  simp [Elem.popped, Elem.reg_dropWords]

theorem Elem.chan_popped (e : Elem) (dm : Demand) (ch : Nat) (h : ch < 4) :
    (e.popped dm).chan ch = (e.chan ch).drop (popsOf dm ch) := by
  have hd : ∀ (l : List ChanWord) n, l.drop (min n l.length) = l.drop n := by
    intro l n
    by_cases hn : n ≤ l.length
    · rw [Nat.min_eq_left hn]
    · rw [Nat.min_eq_right (by omega), List.drop_length, List.drop_of_length_le (by omega)]
  rcases (show ch = 0 ∨ ch = 1 ∨ ch = 2 ∨ ch = 3 by omega) with rfl | rfl | rfl | rfl <;>
    simp [Elem.popped, Elem.chan_dropWords, hd]

/-! ## What a rule that sends changes -/

/-- The state changes only in the element `k`, the links, the requests, the done tokens and the next identifier. -/
def Sends (k : Nat) (s t : State) : Prop :=
  t = { s with elems := t.elems, links := t.links, reqs := t.reqs, dones := t.dones, nextId := t.nextId } ∧
    ∀ j, j ≠ k → t.elem j = s.elem j

theorem Sends.refl (k : Nat) (s : State) : Sends k s s := ⟨rfl, fun _ _ => rfl⟩

theorem Sends.trans {k : Nat} {s t u : State} (h : Sends k s t) (g : Sends k t u) : Sends k s u := by
  refine ⟨?_, fun j hj => (g.2 j hj).trans (h.2 j hj)⟩
  have hg := g.1
  rw [h.1] at hg
  exact hg

theorem Touches.sends {k : Nat} {s t : State} (h : Touches k s t) : Sends k s t := by
  refine ⟨?_, h.2⟩
  have h1 := h.1
  rw [h1]

theorem sends_bump (k : Nat) (s : State) : Sends k s s.bump := ⟨rfl, fun _ _ => rfl⟩

theorem sends_addReq (k : Nat) (s : State) (r : Req) : Sends k s (s.addReq r) := ⟨rfl, fun _ _ => rfl⟩

@[simp] theorem State.elem_bump (s : State) (j : Nat) : s.bump.elem j = s.elem j := rfl
@[simp] theorem State.elem_addReq (s : State) (r : Req) (j : Nat) : (s.addReq r).elem j = s.elem j := rfl

/-- Reserving slots touches the element alone, and lengthens nothing but its output. -/
theorem sends_reserveN (k : Nat) (c : Code) : ∀ (n : Nat) (s : State), Sends k s (s.reserveN k c n).1
  | 0, s => .refl k s
  | n + 1, s => by
    simp only [State.reserveN]
    exact ((sends_bump k s).trans (touches_reserveSlot _ k _ _ _).sends).trans (sends_reserveN k c n _)

/-- Reserving slots gives one hole for each. -/
theorem reserveN_length (k : Nat) (c : Code) : ∀ (n : Nat) (s : State), (s.reserveN k c n).2.length = n
  | 0, _ => rfl
  | n + 1, s => by
    simp only [State.reserveN, List.length_cons]
    rw [reserveN_length k c n]

theorem reserveN_reqs (k : Nat) (c : Code) : ∀ (n : Nat) (s : State), (s.reserveN k c n).1.reqs = s.reqs
  | 0, _ => rfl
  | n + 1, s => by simp only [State.reserveN]; rw [reserveN_reqs k c n]; rfl

theorem reserveN_dones (k : Nat) (c : Code) : ∀ (n : Nat) (s : State), (s.reserveN k c n).1.dones = s.dones
  | 0, _ => rfl
  | n + 1, s => by simp only [State.reserveN]; rw [reserveN_dones k c n]; rfl

/-- What reserving slots leaves of the element: all but the output channel's count and stage. -/
theorem elem_reserveN (k : Nat) (c : Code) : ∀ (n : Nat) (s : State), ∃ es,
    (s.reserveN k c n).1.elem k =
      { s.elem k with
        out := (s.elem k).out.setIfInBounds (c.toNat % 4)
          { (s.elem k).outCh (c.toNat % 4) with count := ((s.elem k).outCh (c.toNat % 4)).count - n, stage := es } }
  | 0, s => ⟨((s.elem k).outCh (c.toNat % 4)).stage, by
      have h : (s.elem k).out.setIfInBounds (c.toNat % 4) ((s.elem k).outCh (c.toNat % 4)) = (s.elem k).out := by
        apply Vector.ext
        intro i hi
        rw [Vector.getElem_setIfInBounds hi]
        split
        · rename_i he; subst he; simp [Elem.outCh, Vector.getD, hi]
        · rfl
      simp only [State.reserveN, Nat.sub_zero]
      rw [h]⟩
  | n + 1, s => by
    obtain ⟨es, h⟩ := elem_reserveN k c n (s.bump.reserveSlot k (c.toNat % 4) s.nextId (BitVec.ofNat 2 (c.toNat / 4)))
    refine ⟨es, ?_⟩
    simp only [State.reserveN]
    rw [h]
    simp only [State.reserveSlot, State.elem_updElem, if_true, State.elem_bump]
    rw [Elem.outCh_updOut _ _ _ _ (by omega), if_pos rfl]
    simp only [Elem.updOut_out, Vector.setIfInBounds_setIfInBounds, Nat.sub_sub, Nat.add_comm 1 n]
    rfl

/-- A destination is pended or reserved in the element alone. -/
theorem sends_reserveDst (s : State) (k : Nat) (c : Code) (n : Nat) : Sends k s (s.reserveDst k c n).1 := by
  unfold State.reserveDst
  split
  · exact (touches_updElem s k (·.setPend c.toNat true)).sends
  · exact sends_reserveN k c n s

theorem sends_reservePair (s : State) (k r : Nat) : Sends k s (s.reservePair k r).1 :=
  (touches_updElem s k fun e => (e.setPend r true).setPend (r + 1) true).sends

end Sys2Proof.Machine
end

