-- ==== Sys2Proof/Laws/Memory.lean ====
section
/-!
SUPPORT. When a meaning keeps the canonical form of the memories: the terms that the laws about it share.
-/
namespace Sys2Proof.Machine

/-- Whatever next state an outcome gives has its memories in canonical form. -/
def Keeps (o : Host.Outcome State Fault Refusal) : Prop := ∀ t, o = .next t → MemoryInv t

theorem keeps_next {s : State} (h : MemoryInv s) : Keeps (.next s) := fun _ e => by cases e; exact h
theorem keeps_fault (r : Fault) : Keeps (.fault r) := fun _ e => by cases e
theorem keeps_refused (r : Refusal) : Keeps (.refused r) := fun _ e => by cases e

theorem keeps_reset : MemoryInv State.reset := ⟨rfl, rfl⟩

/-- A state made of parts has its memories in canonical form if the two memories are. -/
theorem keeps_mk (e c cl l b m sc co er l1 p cp sp ca pi r d do' ce spu ch re de o rg t q k ou ti tk nx ag pk w cu) :
    MemoryInv (State.mk e c cl l b m sc co er l1 p cp sp ca pi r d do' ce spu ch re de o rg t q k ou ti tk nx ag pk w cu) ↔
      m.wf = true ∧ sc.wf = true := Iff.rfl

theorem keeps_ite {c : Prop} [Decidable c] {a b : State} (ha : c → MemoryInv a) (hb : ¬c → MemoryInv b) :
    MemoryInv (if c then a else b) := by
  split
  · exact ha ‹_›
  · exact hb ‹_›

theorem keeps_iteO {c : Prop} [Decidable c] {a b : Host.Outcome State Fault Refusal} (ha : c → Keeps a)
    (hb : ¬c → Keeps b) : Keeps (if c then a else b) := by
  split
  · exact ha ‹_›
  · exact hb ‹_›

/-- What an optional result holds, if it is there. -/
def KeepsSome {α : Type} (P : α → Prop) (o : Option α) : Prop := ∀ t, o = some t → P t
/-- What a result holds, if it is no error. -/
def KeepsOk {ε α : Type} (P : α → Prop) (o : Except ε α) : Prop := ∀ t, o = .ok t → P t

theorem keeps_of_some {α : Type} {P : α → Prop} {o : Option α} {t : α} (h : KeepsSome P o) (e : o = some t) : P t :=
  h t e
theorem keeps_of_ok {ε α : Type} {P : α → Prop} {o : Except ε α} {t : α} (h : KeepsOk P o) (e : o = .ok t) : P t :=
  h t e
theorem keeps_of_okSome {ε α : Type} {P : α → Prop} {o : Except ε (Option α)} {t : α} (h : KeepsOk (KeepsSome P) o)
    (e : o = .ok (some t)) : P t := h _ e t rfl
theorem keeps_of_okSomePair {ε β : Type} {o : Except ε (Option (State × β))} {t : State} {x : β}
    (h : KeepsOk (KeepsSome fun x => MemoryInv x.1) o) (e : o = .ok (some (t, x))) : MemoryInv t := h _ e _ rfl
theorem keeps_of_okPair {ε β : Type} {o : Except ε (State × β)} {t : State} {x : β}
    (h : KeepsOk (fun x => MemoryInv x.1) o) (e : o = .ok (t, x)) : MemoryInv t := h _ e
theorem keeps_some {α : Type} {P : α → Prop} {x : α} (h : P x) : KeepsSome P (some x) := fun _ e => by cases e; exact h
theorem keeps_none {α : Type} {P : α → Prop} : KeepsSome P none := fun _ e => by cases e
theorem keeps_ok {ε α : Type} {P : α → Prop} {x : α} (h : P x) : KeepsOk P (.ok x : Except ε α) := fun _ e => by
  cases e; exact h
theorem keeps_error {ε α : Type} {P : α → Prop} {x : ε} : KeepsOk P (.error x : Except ε α) := fun _ e => by cases e

theorem keeps_getD {o : Option State} {s : State} (h : KeepsSome MemoryInv o) (hs : MemoryInv s) :
    MemoryInv (o.getD s) := by
  cases o with
  | none => exact hs
  | some t => exact h t rfl

theorem foldl_keeps {α : Type} (f : State → α → State) (l : List α) (s : State) (h : MemoryInv s)
    (hf : ∀ s x, MemoryInv s → MemoryInv (f s x)) : MemoryInv (l.foldl f s) := by
  induction l generalizing s with
  | nil => exact h
  | cons x l ih => exact ih _ (hf s x h)

theorem foldl_keeps_fst {α β : Type} (f : State × β → α → State × β) (l : List α) (s : State × β)
    (h : MemoryInv s.fst) (hf : ∀ s x, MemoryInv s.fst → MemoryInv (f s x).fst) : MemoryInv (l.foldl f s).fst := by
  induction l generalizing s with
  | nil => exact h
  | cons x l ih => exact ih _ (hf s x h)

end Sys2Proof.Machine
end

