-- ==== Sys2Proof/Laws/KeepsOps.lean ====
section
/-!
SUPPORT. The operations of `Access`, `Home`, `Ops` keep the canonical form of the memories.
-/
namespace Sys2Proof.Machine

theorem keeps_setElem (s : State) (k : Nat) (e : Elem) (h : MemoryInv s) : MemoryInv (State.setElem s k e) := by
  unfold State.setElem
  try dsimp only
  repeat' first
    | with_reducible first
      | assumption
    | (simp only [keeps_mk]; change MemoryInv _) | dsimp only

theorem keeps_updElem (s : State) (k : Nat) (f : Elem → Elem) (h : MemoryInv s) :
    MemoryInv (State.updElem s k f) := by
  unfold State.updElem
  try dsimp only
  repeat' first
    | with_reducible first
      | assumption | apply keeps_setElem
    | dsimp only

theorem keeps_setCore (s : State) (k : Nat) (c : Core) (h : MemoryInv s) : MemoryInv (State.setCore s k c) := by
  unfold State.setCore
  try dsimp only
  repeat' first
    | with_reducible first
      | assumption
    | (simp only [keeps_mk]; change MemoryInv _) | dsimp only

theorem keeps_updCore (s : State) (k : Nat) (f : Core → Core) (h : MemoryInv s) :
    MemoryInv (State.updCore s k f) := by
  unfold State.updCore
  try dsimp only
  repeat' first
    | with_reducible first
      | assumption | apply keeps_setCore
    | dsimp only

theorem keeps_setCluster (s : State) (k : Nat) (c : Cluster) (h : MemoryInv s) :
    MemoryInv (State.setCluster s k c) := by
  unfold State.setCluster
  try dsimp only
  repeat' first
    | with_reducible first
      | assumption
    | (simp only [keeps_mk]; change MemoryInv _) | dsimp only

theorem keeps_updCluster (s : State) (k : Nat) (f : Cluster → Cluster) (h : MemoryInv s) :
    MemoryInv (State.updCluster s k f) := by
  unfold State.updCluster
  try dsimp only
  repeat' first
    | with_reducible first
      | assumption | apply keeps_setCluster
    | dsimp only

theorem keeps_updMe (s : State) (f : Elem → Elem) (h : MemoryInv s) : MemoryInv (State.updMe s f) := by
  unfold State.updMe
  try dsimp only
  repeat' first
    | with_reducible first
      | assumption | apply keeps_updElem
    | dsimp only

theorem keeps_bump (s : State) (h : MemoryInv s) : MemoryInv (State.bump s) := by
  unfold State.bump
  try dsimp only
  repeat' first
    | with_reducible first
      | assumption
    | (simp only [keeps_mk]; change MemoryInv _) | dsimp only

theorem keeps_updSpur (s : State) (id : Nat) (f : Spur → Spur) (h : MemoryInv s) :
    MemoryInv (State.updSpur s id f) := by
  unfold State.updSpur
  try dsimp only
  repeat' first
    | with_reducible first
      | assumption
    | (simp only [keeps_mk]; change MemoryInv _) | dsimp only

theorem keeps_updChain (s : State) (ident : Nat) (f : Chain → Chain) (h : MemoryInv s) :
    MemoryInv (State.updChain s ident f) := by
  unfold State.updChain
  try dsimp only
  repeat' first
    | with_reducible first
      | assumption
    | (simp only [keeps_mk]; change MemoryInv _) | dsimp only

theorem keeps_updLink (s : State) (id : Nat) (f : Link → Link) (h : MemoryInv s) :
    MemoryInv (State.updLink s id f) := by
  unfold State.updLink
  try dsimp only
  repeat' first
    | with_reducible first
      | assumption
    | (simp only [keeps_mk]; change MemoryInv _) | dsimp only

theorem keeps_freeSlots (s : State) (r : LinkEnd) (n : Nat) (h : MemoryInv s) :
    MemoryInv (State.freeSlots s r n) := by
  unfold State.freeSlots
  try dsimp only
  repeat' first
    | with_reducible first
      | assumption | refine keeps_ite (fun _ => ?_) (fun _ => ?_)
    | split | (simp only [keeps_mk]; change MemoryInv _) | dsimp only

theorem keeps_popWords (s : State) (k ch n : Nat) (h : MemoryInv s) : MemoryInv (State.popWords s k ch n) := by
  unfold State.popWords
  try dsimp only
  repeat' first
    | with_reducible first
      | assumption | apply keeps_updElem | apply keeps_freeSlots
    | dsimp only

theorem keeps_flushOut (s : State) (k ch : Nat) (h : MemoryInv s) : MemoryInv (State.flushOut s k ch) := by
  unfold State.flushOut
  try dsimp only
  repeat' first
    | with_reducible first
      | assumption | apply keeps_updElem | apply keeps_updLink
    | split | (simp only [keeps_mk]; change MemoryInv _) | dsimp only

theorem keeps_pushWord (s : State) (k ch : Nat) (t : Tag) (w : Word) (h : MemoryInv s) :
    MemoryInv (State.pushWord s k ch t w) := by
  unfold State.pushWord
  try dsimp only
  repeat' first
    | with_reducible first
      | assumption | apply keeps_updElem | apply keeps_flushOut
    | (simp only [keeps_mk]; change MemoryInv _) | dsimp only

theorem keeps_reserveSlot (s : State) (k ch : Nat) (id : Nat) (t : Tag) (h : MemoryInv s) :
    MemoryInv (State.reserveSlot s k ch id t) := by
  unfold State.reserveSlot
  try dsimp only
  repeat' first
    | with_reducible first
      | assumption | apply keeps_updElem
    | (simp only [keeps_mk]; change MemoryInv _) | dsimp only

theorem keeps_fillSlot (s : State) (k ch : Nat) (id : Nat) (w : Word) (t : Option Tag) (h : MemoryInv s) :
    MemoryInv (State.fillSlot s k ch id w t) := by
  unfold State.fillSlot
  try dsimp only
  repeat' first
    | with_reducible first
      | assumption | apply keeps_updElem | apply keeps_flushOut | refine keeps_getD ?_ ?_
      | refine keeps_ite (fun _ => ?_) (fun _ => ?_)
    | split | (simp only [keeps_mk]; change MemoryInv _) | dsimp only

theorem keeps_returnSlot (s : State) (k ch : Nat) (id : Nat) (h : MemoryInv s) :
    MemoryInv (State.returnSlot s k ch id) := by
  unfold State.returnSlot
  try dsimp only
  repeat' first
    | with_reducible first
      | assumption | apply keeps_updElem | apply keeps_flushOut
    | (simp only [keeps_mk]; change MemoryInv _) | dsimp only

theorem keeps_updReq (s : State) (id : Nat) (f : Req → Req) (h : MemoryInv s) : MemoryInv (State.updReq s id f) := by
  unfold State.updReq
  try dsimp only
  repeat' first
    | with_reducible first
      | assumption
    | (simp only [keeps_mk]; change MemoryInv _) | dsimp only

theorem keeps_dropReq (s : State) (id : Nat) (h : MemoryInv s) : MemoryInv (State.dropReq s id) := by
  unfold State.dropReq
  try dsimp only
  repeat' first
    | with_reducible first
      | assumption
    | (simp only [keeps_mk]; change MemoryInv _) | dsimp only

theorem keeps_addReq (s : State) (r : Req) (h : MemoryInv s) : MemoryInv (State.addReq s r) := by
  unfold State.addReq
  try dsimp only
  repeat' first
    | with_reducible first
      | assumption
    | (simp only [keeps_mk]; change MemoryInv _) | dsimp only

theorem keeps_setPreg (s : State) (n : Nat) (w : Word) (h : MemoryInv s) : MemoryInv (State.setPreg s n w) := by
  unfold State.setPreg
  try dsimp only
  repeat' first
    | with_reducible first
      | assumption
    | (simp only [keeps_mk]; change MemoryInv _) | dsimp only

theorem keeps_countPreg (s : State) (n : Nat) (h : MemoryInv s) : MemoryInv (State.countPreg s n) := by
  unfold State.countPreg
  try dsimp only
  repeat' first
    | with_reducible first
      | assumption | apply keeps_setPreg | refine keeps_ite (fun _ => ?_) (fun _ => ?_)
    | split | dsimp only

theorem keeps_noteSteps (s : State) (cl : Nat) (h : MemoryInv s) : MemoryInv (State.noteSteps s cl) := by
  unfold State.noteSteps
  try dsimp only
  repeat' first
    | with_reducible first
      | assumption | apply keeps_updCluster
    | (simp only [keeps_mk]; change MemoryInv _) | dsimp only

theorem keeps_updDomain (s : State) (record : Nat) (f : Domain → Domain) (h : MemoryInv s) :
    MemoryInv (State.updDomain s record f) := by
  unfold State.updDomain
  try dsimp only
  repeat' first
    | with_reducible first
      | assumption
    | (simp only [keeps_mk]; change MemoryInv _) | dsimp only

theorem keeps_updCell (s : State) (word : Nat) (f : Cell → Cell) (h : MemoryInv s) :
    MemoryInv (State.updCell s word f) := by
  unfold State.updCell
  try dsimp only
  repeat' first
    | with_reducible first
      | assumption
    | (simp only [keeps_mk]; change MemoryInv _) | dsimp only

theorem keeps_answerLoad (s : State) (r : Req) (c : Cell) (h : MemoryInv s) : MemoryInv (State.answerLoad s r c) := by
  unfold State.answerLoad
  try dsimp only
  repeat' first
    | with_reducible first
      | assumption | apply keeps_updReq | refine keeps_ite (fun _ => ?_) (fun _ => ?_)
    | split | (simp only [keeps_mk]; change MemoryInv _) | dsimp only

theorem keeps_answerSettled (s : State) (c : Cell) (h : MemoryInv s) : MemoryInv (State.answerSettled s c) := by
  unfold State.answerSettled
  try dsimp only
  repeat' first
    | with_reducible first
      | assumption | apply keeps_answerLoad | refine foldl_keeps _ _ _ ?_ fun _ _ _ => ?_
      | refine foldl_keeps_fst _ _ _ ?_ fun _ _ _ => ?_
    | dsimp only

theorem keeps_countDiscard (s : State) (record : Nat) (h : MemoryInv s) : MemoryInv (s.countDiscard record) := by
  unfold State.countDiscard
  split
  · exact ⟨Memory.wf_writeN h.1 _ _, h.2⟩
  · exact h

theorem wf_storeHome (s : State) (k : Nat) (bs : List Byte) (m : Memory) (h : m.wf = true) :
    (storeHome s k bs m).wf = true := by
  induction bs generalizing k m with
  | nil => exact h
  | cons b bs ih =>
    refine ih _ _ ?_
    split
    · exact h
    · exact Memory.wf_write h k b

theorem keeps_writeHome (s : State) (k : Nat) (bs : List Byte) (h : MemoryInv s) : MemoryInv (s.writeHome k bs) := by
  unfold State.writeHome
  exact foldl_keeps _ _ _ ⟨wf_storeHome s k bs s.mem h.1, h.2⟩ fun s x h => keeps_countDiscard s x h

theorem keeps_clearCopyPoison (s : State) (cl k n : Nat) (h : MemoryInv s) :
    MemoryInv (State.clearCopyPoison s cl k n) := by
  unfold State.clearCopyPoison
  try dsimp only
  repeat' first
    | with_reducible first
      | assumption
    | (simp only [keeps_mk]; change MemoryInv _) | dsimp only

theorem wf_foldl {α : Type} (f : Memory → α → Memory) (l : List α) (m : Memory) (h : m.wf = true)
    (hf : ∀ m x, m.wf = true → (f m x).wf = true) : (l.foldl f m).wf = true := by
  induction l generalizing m with
  | nil => exact h
  | cons x l ih => exact ih _ (hf m x h)

theorem keeps_writeBack (s : State) (cl sec : Nat) (h : MemoryInv s) : MemoryInv (s.writeBack cl sec) := by
  unfold State.writeBack
  dsimp only
  split
  · exact h
  · refine foldl_keeps _ _ _ ⟨wf_foldl _ _ _ h.1 fun m c hm => ?_, h.2⟩ fun s x h => keeps_countDiscard s x h
    split
    · exact hm
    · exact Memory.wf_write hm _ _

theorem keeps_writeBackWhere (s : State) (cl : Nat) (p : Nat → Bool) (h : MemoryInv s) :
    MemoryInv (State.writeBackWhere s cl p) := by
  unfold State.writeBackWhere
  try dsimp only
  repeat' first
    | with_reducible first
      | assumption | apply keeps_writeBack | refine foldl_keeps _ _ _ ?_ fun _ _ _ => ?_
      | refine foldl_keeps_fst _ _ _ ?_ fun _ _ _ => ?_
    | dsimp only

theorem keeps_noteUncorrectable (s : State) (addr : Nat) (h : MemoryInv s) :
    MemoryInv (State.noteUncorrectable s addr) := by
  unfold State.noteUncorrectable
  try dsimp only
  repeat' first
    | with_reducible first
      | assumption | apply keeps_setPreg | apply keeps_countPreg
    | dsimp only

theorem keeps_dropL2 (s : State) (cl : Nat) (p : Nat → Bool) (h : MemoryInv s) : MemoryInv (State.dropL2 s cl p) := by
  unfold State.dropL2
  try dsimp only
  repeat' first
    | with_reducible first
      | assumption
    | (simp only [keeps_mk]; change MemoryInv _) | dsimp only

theorem keeps_dropClean (s : State) (cl : Nat) (p : Nat → Bool) (h : MemoryInv s) :
    MemoryInv (State.dropClean s cl p) := by
  unfold State.dropClean
  try dsimp only
  repeat' first
    | with_reducible first
      | assumption | apply keeps_dropL2
    | (simp only [keeps_mk]; change MemoryInv _) | dsimp only

theorem keeps_evictLine (s : State) (cl line : Nat) (h : MemoryInv s) : MemoryInv (State.evictLine s cl line) := by
  unfold State.evictLine
  try dsimp only
  repeat' first
    | with_reducible first
      | assumption | apply keeps_writeBack | apply keeps_dropClean | refine foldl_keeps _ _ _ ?_ fun _ _ _ => ?_
      | refine foldl_keeps_fst _ _ _ ?_ fun _ _ _ => ?_
    | dsimp only

theorem keeps_makeRoom (s : State) (cl line : Nat) (h : MemoryInv s) : MemoryInv (State.makeRoom s cl line) := by
  unfold State.makeRoom
  try dsimp only
  repeat' first
    | with_reducible first
      | assumption | apply keeps_evictLine | refine keeps_ite (fun _ => ?_) (fun _ => ?_)
    | split | (simp only [keeps_mk]; change MemoryInv _) | dsimp only

theorem keeps_makeRoomFor (s : State) (cl k n : Nat) (h : MemoryInv s) : MemoryInv (State.makeRoomFor s cl k n) := by
  unfold State.makeRoomFor
  try dsimp only
  repeat' first
    | with_reducible first
      | assumption | apply keeps_makeRoom | refine foldl_keeps _ _ _ ?_ fun _ _ _ => ?_
      | refine foldl_keeps_fst _ _ _ ?_ fun _ _ _ => ?_
    | dsimp only

theorem keeps_noteLine (s : State) (cl k n : Nat) (policy : BitVec 2) (h : MemoryInv s) :
    MemoryInv (State.noteLine s cl k n policy) := by
  unfold State.noteLine
  try dsimp only
  repeat' first
    | with_reducible first
      | assumption | refine foldl_keeps _ _ _ ?_ fun _ _ _ => ?_ | refine foldl_keeps_fst _ _ _ ?_ fun _ _ _ => ?_
      | refine keeps_ite (fun _ => ?_) (fun _ => ?_)
    | split | (simp only [keeps_mk]; change MemoryInv _) | dsimp only

theorem keeps_landCopy (s : State) (cl k : Nat) (bs : List Byte) (h : MemoryInv s) :
    MemoryInv (State.landCopy s cl k bs) := by
  unfold State.landCopy
  try dsimp only
  repeat' first
    | with_reducible first
      | assumption | apply keeps_clearCopyPoison | apply keeps_makeRoomFor
    | (simp only [keeps_mk]; change MemoryInv _) | dsimp only

theorem keeps_landHome (s : State) (cl k : Nat) (bs : List Byte) (h : MemoryInv s) :
    MemoryInv (State.landHome s cl k bs) := by
  unfold State.landHome
  try dsimp only
  repeat' first
    | with_reducible first
      | assumption | apply keeps_writeHome | apply keeps_clearCopyPoison
    | (simp only [keeps_mk]; change MemoryInv _) | dsimp only

theorem keeps_fillSector (s : State) (cl sec : Nat) (h : MemoryInv s) : MemoryInv (State.fillSector s cl sec) := by
  unfold State.fillSector
  try dsimp only
  repeat' first
    | with_reducible first
      | assumption | apply keeps_makeRoom | refine foldl_keeps _ _ _ ?_ fun _ _ _ => ?_
      | refine foldl_keeps_fst _ _ _ ?_ fun _ _ _ => ?_ | refine keeps_ite (fun _ => ?_) (fun _ => ?_)
    | split | (simp only [keeps_mk]; change MemoryInv _) | dsimp only

theorem keeps_scratchWrite (s : State) (k : Nat) (bs : List Byte) (h : MemoryInv s) :
    MemoryInv (s.scratchWrite k bs) := ⟨h.1, Memory.wf_writeN h.2 k bs⟩

theorem keeps_cacheLeaf (s : State) (cl root va : Nat) (h : MemoryInv s) :
    MemoryInv (State.cacheLeaf s cl root va) := by
  unfold State.cacheLeaf
  try dsimp only
  repeat' first
    | with_reducible first
      | assumption | refine keeps_ite (fun _ => ?_) (fun _ => ?_)
    | split | (simp only [keeps_mk]; change MemoryInv _) | dsimp only

theorem keeps_keepLeaf (s : State) (core code va : Nat) (h : MemoryInv s) :
    MemoryInv (State.keepLeaf s core code va) := by
  unfold State.keepLeaf
  try dsimp only
  repeat' first
    | with_reducible first
      | assumption | apply keeps_cacheLeaf | refine keeps_ite (fun _ => ?_) (fun _ => ?_)
    | split | dsimp only

theorem keeps_writeVirtFuel (s : State) (root : Nat) (n : Need) (fuel va : Nat) (bs : List Byte) (h : MemoryInv s) :
    MemoryInv (s.writeVirtFuel root n fuel va bs) := by
  induction fuel generalizing s va bs with
  | zero => exact h
  | succ fuel ih =>
    unfold State.writeVirtFuel
    repeat' (first | exact h | split | dsimp only | refine ih _ _ _ ?_ | exact keeps_writeHome _ _ _ h)

theorem keeps_writeVirt (s : State) (root : Nat) (n : Need) (va : Nat) (bs : List Byte) (h : MemoryInv s) :
    MemoryInv (State.writeVirt s root n va bs) := by
  unfold State.writeVirt
  try dsimp only
  repeat' first
    | with_reducible first
      | assumption | apply keeps_writeVirtFuel
    | dsimp only

theorem keeps_retarget (s : State) (cl ceiling base : Nat) (h : MemoryInv s) :
    MemoryInv (State.retarget s cl ceiling base) := by
  unfold State.retarget
  try dsimp only
  repeat' first
    | with_reducible first
      | assumption | apply keeps_updCluster | apply keeps_setPreg | refine keeps_ite (fun _ => ?_) (fun _ => ?_)
    | split | (simp only [keeps_mk]; change MemoryInv _) | dsimp only

theorem keeps_retargetNow (s : State) (cl : Nat) (h : MemoryInv s) : MemoryInv (State.retargetNow s cl) := by
  unfold State.retargetNow
  try dsimp only
  repeat' first
    | with_reducible first
      | assumption | apply keeps_retarget
    | dsimp only

theorem keeps_settleMeter (s : State) (cl : Nat) (h : MemoryInv s) : MemoryInv (State.settleMeter s cl) := by
  unfold State.settleMeter
  try dsimp only
  repeat' first
    | with_reducible first
      | assumption | apply keeps_updCluster | refine keeps_ite (fun _ => ?_) (fun _ => ?_)
    | split | (simp only [keeps_mk]; change MemoryInv _) | dsimp only

theorem keeps_endLease (s : State) (cl : Nat) (h : MemoryInv s) : MemoryInv (State.endLease s cl) := by
  unfold State.endLease
  try dsimp only
  repeat' first
    | with_reducible first
      | assumption | apply keeps_updCluster | apply keeps_retargetNow | apply keeps_settleMeter
    | (simp only [keeps_mk]; change MemoryInv _) | dsimp only

theorem keeps_endLeasesOf (s : State) (ident : Nat) (h : MemoryInv s) : MemoryInv (State.endLeasesOf s ident) := by
  unfold State.endLeasesOf
  try dsimp only
  repeat' first
    | with_reducible first
      | assumption | apply keeps_endLease | refine foldl_keeps _ _ _ ?_ fun _ _ _ => ?_
      | refine foldl_keeps_fst _ _ _ ?_ fun _ _ _ => ?_
    | split | (simp only [keeps_mk]; change MemoryInv _) | dsimp only

theorem keeps_fillAll (tag : Nat → Option Tag) (elem ch i : Nat) (hs : List Nat) (ws : List Word) (s : State)
    (h : MemoryInv s) : MemoryInv (fillAll tag elem ch i hs ws s) := by
  induction hs generalizing i ws s with
  | nil => cases ws <;> exact h
  | cons x hs ih =>
    cases ws with
    | nil => exact ih _ _ _ (keeps_returnSlot _ _ _ _ h)
    | cons w ws => exact ih _ _ _ (keeps_fillSlot _ _ _ _ _ _ h)

theorem keeps_deliver (s : State) (elem id : Nat) (d : Dst) (tag : Nat → Option Tag) (ws : List Word) (h :
    MemoryInv s) :
    MemoryInv (State.deliver s elem id d tag ws) := by
  unfold State.deliver
  try dsimp only
  repeat' first
    | with_reducible first
      | assumption | apply keeps_updElem | apply keeps_fillAll | refine keeps_getD ?_ ?_
    | split | (simp only [keeps_mk]; change MemoryInv _) | dsimp only

theorem keeps_reserveN {s t : State} {elem : Nat} {c : Code} {n : Nat} {l : List Nat} (h : MemoryInv s)
    (e : s.reserveN elem c n = (t, l)) : MemoryInv t := by
  induction n generalizing s t l with
  | zero => cases e; exact h
  | succ n ih =>
    simp only [State.reserveN, Prod.mk.injEq] at e
    obtain ⟨rfl, -⟩ := e
    exact ih (keeps_reserveSlot _ _ _ _ _ (keeps_bump s h)) rfl

theorem keeps_reserveN_fst {s : State} {elem : Nat} {c : Code} {n : Nat} (h : MemoryInv s) :
    MemoryInv (s.reserveN elem c n).fst := keeps_reserveN h rfl

theorem keeps_reserveDst {s t : State} {elem : Nat} {c : Code} {n : Nat} {d : Dst} (h : MemoryInv s)
    (e : s.reserveDst elem c n = (t, d)) : MemoryInv t := by
  simp only [State.reserveDst] at e
  split at e
  · cases e; exact keeps_updElem _ _ _ h
  · cases e; exact keeps_reserveN h rfl

theorem keeps_reserveDst_fst {s : State} {elem : Nat} {c : Code} {n : Nat} (h : MemoryInv s) :
    MemoryInv (s.reserveDst elem c n).fst := keeps_reserveDst h rfl

theorem keeps_reservePair {s t : State} {elem r : Nat} {d : Dst} (h : MemoryInv s)
    (e : s.reservePair elem r = (t, d)) : MemoryInv t := by
  cases e; exact keeps_updElem _ _ _ h

theorem keeps_reservePair_fst {s : State} {elem r : Nat} (h : MemoryInv s) :
    MemoryInv (s.reservePair elem r).fst := keeps_reservePair h rfl

theorem keeps_unpinCore (s : State) (core : Nat) (h : MemoryInv s) : MemoryInv (State.unpinCore s core) := by
  unfold State.unpinCore
  try dsimp only
  repeat' first
    | with_reducible first
      | assumption | apply keeps_updCore
    | (simp only [keeps_mk]; change MemoryInv _) | dsimp only

theorem keeps_freeIslands (s : State) (cl : Nat) (islands : BitVec 8) (h : MemoryInv s) :
    MemoryInv (State.freeIslands s cl islands) := by
  unfold State.freeIslands
  try dsimp only
  repeat' first
    | with_reducible first
      | assumption | apply keeps_updCluster | refine keeps_ite (fun _ => ?_) (fun _ => ?_)
    | split | (simp only [keeps_mk]; change MemoryInv _) | dsimp only

theorem keeps_addDeparture (s : State) (cl : Nat) (d : Departure) (h : MemoryInv s) :
    MemoryInv (State.addDeparture s cl d) := by
  unfold State.addDeparture
  try dsimp only
  repeat' first
    | with_reducible first
      | assumption | apply keeps_updCluster | refine keeps_ite (fun _ => ?_) (fun _ => ?_)
    | split | (simp only [keeps_mk]; change MemoryInv _) | dsimp only

theorem keeps_clearQueues (s : State) (p : Spur) (h : MemoryInv s) : MemoryInv (State.clearQueues s p) := by
  unfold State.clearQueues
  try dsimp only
  repeat' first
    | with_reducible first
      | assumption | apply keeps_updCluster | refine foldl_keeps _ _ _ ?_ fun _ _ _ => ?_
      | refine foldl_keeps_fst _ _ _ ?_ fun _ _ _ => ?_
    | split | (simp only [keeps_mk]; change MemoryInv _) | dsimp only

theorem keeps_clearSpur (s : State) (p : Spur) (h : MemoryInv s) : MemoryInv (State.clearSpur s p) := by
  unfold State.clearSpur
  try dsimp only
  repeat' first
    | with_reducible first
      | assumption | apply keeps_endLease | apply keeps_clearQueues | refine keeps_ite (fun _ => ?_) (fun _ => ?_)
    | split | (simp only [keeps_mk]; change MemoryInv _) | dsimp only

theorem keeps_freeLeft (s : State) (c : Chain) (h : MemoryInv s) : MemoryInv (State.freeLeft s c) := by
  unfold State.freeLeft
  try dsimp only
  repeat' first
    | with_reducible first
      | assumption | apply keeps_updChain | apply keeps_freeIslands | refine foldl_keeps _ _ _ ?_ fun _ _ _ => ?_
      | refine foldl_keeps_fst _ _ _ ?_ fun _ _ _ => ?_ | refine keeps_ite (fun _ => ?_) (fun _ => ?_)
    | split | (simp only [keeps_mk]; change MemoryInv _) | dsimp only

theorem keeps_releaseCells (s : State) (ident : Nat) (h : MemoryInv s) : MemoryInv (s.releaseCells ident) := by
  unfold State.releaseCells
  have key (l : List Cell) (t : State) (ht : MemoryInv t) :
      MemoryInv (l.foldl (fun (s : State) (c : Cell) =>
        { s with mem := s.mem.writeN c.word (bytesOfNat c.size c.tentative.toNat) }) t) :=
    foldl_keeps _ _ _ ht fun s x h => ⟨Memory.wf_writeN h.1 _ _, h.2⟩
  have answered := foldl_keeps (fun (s : State) (c : Cell) => s.answerSettled c) (s.cells.filter (·.chain == ident)) s h
    fun s x h => keeps_answerSettled s x h
  exact key _ _ answered

theorem keeps_sendVector (s : State) (n : Nat) (h : MemoryInv s) : MemoryInv (State.sendVector s n) := by
  unfold State.sendVector
  try dsimp only
  repeat' first
    | with_reducible first
      | assumption
    | (simp only [keeps_mk]; change MemoryInv _) | dsimp only

theorem keeps_notify (s : State) (c : Chain) (h : MemoryInv s) : MemoryInv (State.notify s c) := by
  unfold State.notify
  try dsimp only
  repeat' first
    | with_reducible first
      | assumption | apply keeps_sendVector | refine keeps_ite (fun _ => ?_) (fun _ => ?_)
    | split | dsimp only

theorem keeps_endChain (s : State) (ident status sub : Nat) (h : MemoryInv s) :
    MemoryInv (State.endChain s ident status sub) := by
  unfold State.endChain
  try dsimp only
  repeat' first
    | with_reducible first
      | assumption | apply keeps_writeVirt | apply keeps_endLeasesOf | apply keeps_freeIslands
      | apply keeps_addDeparture | apply keeps_clearSpur | apply keeps_freeLeft | apply keeps_releaseCells
      | apply keeps_notify | refine foldl_keeps _ _ _ ?_ fun _ _ _ => ?_
      | refine foldl_keeps_fst _ _ _ ?_ fun _ _ _ => ?_ | refine keeps_ite (fun _ => ?_) (fun _ => ?_)
    | split | (simp only [keeps_mk]; change MemoryInv _) | dsimp only

theorem keeps_putRecord (s : State) (c : Chain) (bytes : List Byte) (h : MemoryInv s) :
    MemoryInv (State.putRecord s c bytes) := by
  unfold State.putRecord
  try dsimp only
  repeat' first
    | with_reducible first
      | assumption | apply keeps_updChain | apply keeps_writeVirt | apply keeps_notify
    | (simp only [keeps_mk]; change MemoryInv _) | dsimp only

theorem keeps_quietCores (s : State) (ident : Nat) (h : MemoryInv s) : MemoryInv (State.quietCores s ident) := by
  unfold State.quietCores
  try dsimp only
  repeat' first
    | with_reducible first
      | assumption | apply keeps_updCore | apply keeps_unpinCore | refine foldl_keeps _ _ _ ?_ fun _ _ _ => ?_
      | refine foldl_keeps_fst _ _ _ ?_ fun _ _ _ => ?_
    | (simp only [keeps_mk]; change MemoryInv _) | dsimp only

theorem keeps_returnLeases (s : State) (ident : Nat) (h : MemoryInv s) : MemoryInv (State.returnLeases s ident) := by
  unfold State.returnLeases
  try dsimp only
  repeat' first
    | with_reducible first
      | assumption | apply keeps_endLeasesOf | refine keeps_ite (fun _ => ?_) (fun _ => ?_)
    | split | (simp only [keeps_mk]; change MemoryInv _) | dsimp only

theorem keeps_hold (s : State) (ident : Nat) (h : MemoryInv s) : MemoryInv (State.hold s ident) := by
  unfold State.hold
  try dsimp only
  repeat' first
    | with_reducible first
      | assumption | apply keeps_updChain | apply keeps_quietCores | apply keeps_returnLeases
      | refine keeps_ite (fun _ => ?_) (fun _ => ?_)
    | split | (simp only [keeps_mk]; change MemoryInv _) | dsimp only

theorem keeps_raise (s : State) (ident : Nat) (f : FaultInfo) (h : MemoryInv s) :
    MemoryInv (State.raise s ident f) := by
  unfold State.raise
  try dsimp only
  repeat' first
    | with_reducible first
      | assumption | apply keeps_endChain | apply keeps_putRecord | apply keeps_hold
      | refine keeps_ite (fun _ => ?_) (fun _ => ?_)
    | split | (simp only [keeps_mk]; change MemoryInv _) | dsimp only

theorem keeps_raiseAt (s : State) (ident k : Nat) (f : FaultInfo) (h : MemoryInv s) :
    MemoryInv (State.raiseAt s ident k f) := by
  unfold State.raiseAt
  exact keeps_updChain _ _ _ (keeps_raise _ _ _ h)

theorem keeps_takeFault (s : State) (code addr : Nat) (h : MemoryInv s) :
    MemoryInv (State.takeFault s code addr) := by
  unfold State.takeFault
  try dsimp only
  repeat' first
    | with_reducible first
      | assumption | apply keeps_updMe | apply keeps_raiseAt | refine keeps_ite (fun _ => ?_) (fun _ => ?_)
    | split | (simp only [keeps_mk]; change MemoryInv _) | dsimp only

theorem keeps_lateFault (s : State) (r : Req) (code addr : Nat) (h : MemoryInv s) :
    MemoryInv (State.lateFault s r code addr) := by
  unfold State.lateFault
  try dsimp only
  repeat' first
    | with_reducible first
      | assumption | apply keeps_updChain | apply keeps_keepLeaf | apply keeps_raise
      | refine keeps_ite (fun _ => ?_) (fun _ => ?_)
    | split | (simp only [keeps_mk]; change MemoryInv _) | dsimp only

theorem keeps_joinReplay (s : State) (r : Req) (h : MemoryInv s) : KeepsSome MemoryInv (State.joinReplay s r) := by
  unfold State.joinReplay
  try dsimp only
  repeat' first
    | with_reducible first
      | assumption | exact keeps_none | exact keeps_error | apply keeps_some | apply keeps_ok | apply keeps_dropReq
      | refine keeps_ite (fun _ => ?_) (fun _ => ?_)
    | split | (simp only [keeps_mk]; change MemoryInv _) | dsimp only

theorem keeps_cmdFault (s : State) (c : Cmd) (code addr : Nat) (h : MemoryInv s) :
    MemoryInv (State.cmdFault s c code addr) := by
  unfold State.cmdFault
  try dsimp only
  repeat' first
    | with_reducible first
      | assumption | apply keeps_bump | apply keeps_lateFault
    | dsimp only

theorem keeps_unitFault (s : State) (core slot code addr : Nat) (h : MemoryInv s) :
    MemoryInv (State.unitFault s core slot code addr) := by
  unfold State.unitFault
  try dsimp only
  repeat' first
    | with_reducible first
      | assumption | apply keeps_keepLeaf | apply keeps_raise
    | split | (simp only [keeps_mk]; change MemoryInv _) | dsimp only

theorem keeps_tookStep (s : State) (k : Nat) (h : MemoryInv s) : MemoryInv (State.tookStep s k) := by
  unfold State.tookStep
  repeat' first
    | with_reducible first
      | assumption | apply keeps_updChain | refine keeps_ite (fun _ => ?_) (fun _ => ?_)
    | split

end Sys2Proof.Machine
end

