-- ==== Sys2Proof/Laws/KeepsParts.lean ====
section
/-!
SUPPORT. The operations of `Operands`, `Flags`, `Reach`, `Block`, `Copy`, `Ports`, `Image`, `Registers` keep the canonical form of the memories.
-/
namespace Sys2Proof.Machine

theorem keeps_takeCarry (s : State) (h : MemoryInv s) : MemoryInv (State.takeCarry s) := by
  unfold State.takeCarry
  try dsimp only
  repeat' first
    | with_reducible first
      | assumption | apply keeps_updMe | refine keeps_ite (fun _ => ?_) (fun _ => ?_)
    | split | (simp only [keeps_mk]; change MemoryInv _) | dsimp only

theorem keeps_consume (s : State) (dm : Demand) (h : MemoryInv s) : MemoryInv (State.consume s dm) := by
  unfold State.consume
  try dsimp only
  repeat' first
    | with_reducible first
      | assumption | apply keeps_popWords | apply keeps_takeCarry | refine foldl_keeps _ _ _ ?_ fun _ _ _ => ?_
      | refine foldl_keeps_fst _ _ _ ?_ fun _ _ _ => ?_ | refine keeps_ite (fun _ => ?_) (fun _ => ?_)
    | split | dsimp only

theorem keeps_wr (s : State) (c : Code) (w : Word) (h : MemoryInv s) : MemoryInv (State.wr s c w) := by
  unfold State.wr
  try dsimp only
  repeat' first
    | with_reducible first
      | assumption | apply keeps_updMe | apply keeps_pushWord | refine keeps_ite (fun _ => ?_) (fun _ => ?_)
    | split | dsimp only

theorem keeps_wrPair (s : State) (c : Code) (v : BitVec 64) (h : MemoryInv s) : MemoryInv (State.wrPair s c v) := by
  unfold State.wrPair
  try dsimp only
  repeat' first
    | with_reducible first
      | assumption | apply keeps_updMe
    | dsimp only

theorem keeps_writeCo (s : State) (v : Carry) (h : MemoryInv s) : MemoryInv (State.writeCo s v) := by
  unfold State.writeCo
  try dsimp only
  repeat' first
    | with_reducible first
      | assumption | apply keeps_updMe | refine keeps_ite (fun _ => ?_) (fun _ => ?_)
    | split | (simp only [keeps_mk]; change MemoryInv _) | dsimp only

theorem keeps_fire (i : Instr) (bad : State → Bool) (chk : State → Option (Nat × Nat)) (eff : State → State)
    {s : State} (h : MemoryInv s) (he : MemoryInv s → MemoryInv (eff s)) : Keeps (fire i bad chk eff s) := by
  unfold fire
  split
  · exact keeps_next (he h)
  · split
    · exact keeps_next (keeps_takeFault s _ _ h)
    · split
      · exact keeps_next (keeps_takeFault s _ _ h)
      · exact keeps_next (he h)

theorem keeps_fireOp (i : Instr) (eff : State → State) {s : State} (h : MemoryInv s)
    (he : MemoryInv s → MemoryInv (eff s)) : Keeps (fireOp i eff s) := keeps_fire i _ _ eff h he

theorem keeps_bin (s : State) (a b d : Code) (f : Word → Word → Word) (h : MemoryInv s) :
    MemoryInv (State.bin s a b d f) := by
  unfold State.bin
  try dsimp only
  repeat' first
    | with_reducible first
      | assumption | apply keeps_consume | apply keeps_wr
    | dsimp only

theorem keeps_un (s : State) (a d : Code) (f : Word → Word) (h : MemoryInv s) : MemoryInv (State.un s a d f) := by
  unfold State.un
  try dsimp only
  repeat' first
    | with_reducible first
      | assumption | apply keeps_consume | apply keeps_wr
    | dsimp only

theorem keeps_setp (s : State) (pd : BitVec 3) (c : Bool) (pop : BitVec 3) (h : MemoryInv s) :
    MemoryInv (State.setp s pd c pop) := by
  unfold State.setp
  try dsimp only
  repeat' first
    | with_reducible first
      | assumption | apply keeps_updMe
    | dsimp only

theorem keeps_cond2 (s : State) (o : POp) (f : Word → Word → Bool) (h : MemoryInv s) :
    MemoryInv (State.cond2 s o f) := by
  unfold State.cond2
  try dsimp only
  repeat' first
    | with_reducible first
      | assumption | apply keeps_consume | apply keeps_setp
    | dsimp only

theorem keeps_landAt (s : State) (cl key : Nat) (policy : BitVec 2) (bs : List Byte) (h : MemoryInv s) :
    MemoryInv (State.landAt s cl key policy bs) := by
  unfold State.landAt
  try dsimp only
  repeat' first
    | with_reducible first
      | assumption | apply keeps_noteLine | apply keeps_landCopy | apply keeps_landHome
      | refine keeps_ite (fun _ => ?_) (fun _ => ?_)
    | split | dsimp only

theorem keeps_landPieces (s : State) (cl : Nat) (ps : List Piece) (bs : List Byte) (h : MemoryInv s) :
    MemoryInv (s.landPieces cl ps bs) := by
  induction ps generalizing s bs with
  | nil => exact h
  | cons p ps ih => exact ih _ _ (keeps_landAt _ _ _ _ _ h)

theorem keeps_performPieces (s : State) (cl : Nat) (ps : List Piece) (h : MemoryInv s) :
    MemoryInv (State.performPieces s cl ps) := by
  unfold State.performPieces
  try dsimp only
  repeat' first
    | with_reducible first
      | assumption | apply keeps_writeBack | refine foldl_keeps _ _ _ ?_ fun _ _ _ => ?_
      | refine foldl_keeps_fst _ _ _ ?_ fun _ _ _ => ?_
    | dsimp only

theorem keeps_engWrite (s : State) (core va : Nat) (bs : List Byte) (scope : BitVec 3) (h : MemoryInv s) :
    KeepsOk MemoryInv (State.engWrite s core va bs scope) := by
  unfold State.engWrite
  try dsimp only
  repeat' first
    | with_reducible first
      | assumption | exact keeps_none | exact keeps_error | apply keeps_some | apply keeps_ok
      | apply keeps_landPieces | apply keeps_performPieces | refine keeps_ite (fun _ => ?_) (fun _ => ?_)
    | split | (simp only [keeps_mk]; change MemoryInv _) | dsimp only

theorem keeps_lostWrite (s : State) (core va : Nat) (bs : List Byte) (scope : BitVec 3) (h : MemoryInv s) :
    MemoryInv (State.lostWrite s core va bs scope) := by
  unfold State.lostWrite
  try dsimp only
  repeat' first
    | with_reducible first
      | assumption | apply keeps_countPreg | refine keeps_of_ok (keeps_engWrite _ _ _ _ _ ?_) (by assumption)
      | refine keeps_engWrite _ _ _ _ _ ?_ | refine keeps_ite (fun _ => ?_) (fun _ => ?_)
    | split | (simp only [keeps_mk]; change MemoryInv _) | dsimp only

theorem keeps_dropRange (s : State) (core va len : Nat) (h : MemoryInv s) :
    MemoryInv (State.dropRange s core va len) := by
  unfold State.dropRange
  try dsimp only
  repeat' first
    | with_reducible first
      | assumption | apply keeps_dropClean | refine foldl_keeps _ _ _ ?_ fun _ _ _ => ?_
      | refine foldl_keeps_fst _ _ _ ?_ fun _ _ _ => ?_ | refine keeps_ite (fun _ => ?_) (fun _ => ?_)
    | split | (simp only [keeps_mk]; change MemoryInv _) | dsimp only

theorem keeps_prune (s : State) (h : MemoryInv s) : MemoryInv (State.prune s) := by
  unfold State.prune
  try dsimp only
  repeat' first
    | with_reducible first
      | assumption
    | (simp only [keeps_mk]; change MemoryInv _) | dsimp only

theorem keeps_noteWritten (s : State) (core group unit key n : Nat) (h : MemoryInv s) :
    MemoryInv (State.noteWritten s core group unit key n) := by
  unfold State.noteWritten
  try dsimp only
  repeat' first
    | with_reducible first
      | assumption | apply keeps_updReq | apply keeps_addReq | refine keeps_ite (fun _ => ?_) (fun _ => ?_)
    | split | (simp only [keeps_mk]; change MemoryInv _) | dsimp only

theorem keeps_updCt (s : State) (core n : Nat) (f : Template → Template) (h : MemoryInv s) :
    MemoryInv (State.updCt s core n f) := by
  unfold State.updCt
  try dsimp only
  repeat' first
    | with_reducible first
      | assumption | apply keeps_updCore
    | (simp only [keeps_mk]; change MemoryInv _) | dsimp only

theorem keeps_updCa (s : State) (core n : Nat) (f : Cairn → Cairn) (h : MemoryInv s) :
    MemoryInv (State.updCa s core n f) := by
  unfold State.updCa
  try dsimp only
  repeat' first
    | with_reducible first
      | assumption | apply keeps_updCore
    | (simp only [keeps_mk]; change MemoryInv _) | dsimp only

theorem keeps_armTemplate (s : State) (r : Req) (ct : Nat) (h : MemoryInv s) :
    MemoryInv (State.armTemplate s r ct) := by
  unfold State.armTemplate
  try dsimp only
  repeat' first
    | with_reducible first
      | assumption | apply keeps_updElem | apply keeps_countPreg | apply keeps_lateFault | apply keeps_updCt
      | refine keeps_ite (fun _ => ?_) (fun _ => ?_)
    | split | (simp only [keeps_mk]; change MemoryInv _) | dsimp only

theorem keeps_armWaiting (s : State) (core ct : Nat) (h : MemoryInv s) : MemoryInv (State.armWaiting s core ct) := by
  unfold State.armWaiting
  try dsimp only
  repeat' first
    | with_reducible first
      | assumption | apply keeps_dropReq | apply keeps_armTemplate | refine foldl_keeps _ _ _ ?_ fun _ _ _ => ?_
      | refine foldl_keeps_fst _ _ _ ?_ fun _ _ _ => ?_
    | dsimp only

theorem keeps_stopTemplate (s : State) (r : Req) (ct : Nat) (h : MemoryInv s) :
    MemoryInv (State.stopTemplate s r ct) := by
  unfold State.stopTemplate
  try dsimp only
  repeat' first
    | with_reducible first
      | assumption | apply keeps_updElem | apply keeps_lateFault
      | refine keeps_of_ok (keeps_engWrite _ _ _ _ _ ?_) (by assumption) | refine keeps_engWrite _ _ _ _ _ ?_
      | apply keeps_lostWrite | apply keeps_noteWritten | apply keeps_updCt | apply keeps_armWaiting
      | refine foldl_keeps _ _ _ ?_ fun _ _ _ => ?_ | refine foldl_keeps_fst _ _ _ ?_ fun _ _ _ => ?_
      | refine keeps_ite (fun _ => ?_) (fun _ => ?_)
    | split | (simp only [keeps_mk]; change MemoryInv _) | dsimp only

theorem keeps_ctReq_fst {s : State} {kind : ReqKind} {va : Nat} (h : MemoryInv s) :
    MemoryInv (State.ctReq s kind va).fst := by
  unfold State.ctReq
  try dsimp only
  repeat' first
    | with_reducible first
      | assumption | apply keeps_bump
    | (simp only [keeps_mk]; change MemoryInv _) | dsimp only

theorem keeps_ctReq {s : State} {kind : ReqKind} {va : Nat} {t : State} {x : Req} (h : MemoryInv s) (e :
    State.ctReq s kind va = (t, x)) :
    MemoryInv t := by
  have := show MemoryInv (State.ctReq s kind va).fst from keeps_ctReq_fst h
  rw [e] at this
  exact this

theorem keeps_execCtArm (o : EOp) (s : State) (h : MemoryInv s) : Keeps (execCtArm o s) := by
  unfold execCtArm
  try dsimp only
  repeat' first
    | with_reducible first
      | assumption | apply keeps_next | refine keeps_iteO (fun _ => ?_) (fun _ => ?_) | apply keeps_armTemplate
      | refine keeps_ctReq ?_ (by assumption) | apply keeps_ctReq_fst | refine keeps_fire _ _ _ _ ?_ (fun _ => ?_)
      | refine keeps_fireOp _ _ ?_ (fun _ => ?_) | refine keeps_ite (fun _ => ?_) (fun _ => ?_)
    | split | (simp only [keeps_mk]; change MemoryInv _) | dsimp only

theorem keeps_execCtFire (o : EOp) (s : State) (h : MemoryInv s) : Keeps (execCtFire o s) := by
  unfold execCtFire
  try dsimp only
  repeat' first
    | with_reducible first
      | assumption | apply keeps_next | refine keeps_iteO (fun _ => ?_) (fun _ => ?_) | apply keeps_updCore
      | refine keeps_fire _ _ _ _ ?_ (fun _ => ?_) | refine keeps_fireOp _ _ ?_ (fun _ => ?_)
      | refine keeps_ite (fun _ => ?_) (fun _ => ?_)
    | split | (simp only [keeps_mk]; change MemoryInv _) | dsimp only

theorem keeps_execCtStop (o : EOp) (s : State) (h : MemoryInv s) : Keeps (execCtStop o s) := by
  unfold execCtStop
  try dsimp only
  repeat' first
    | with_reducible first
      | assumption | apply keeps_next | refine keeps_iteO (fun _ => ?_) (fun _ => ?_) | apply keeps_updCt
      | apply keeps_stopTemplate | refine keeps_ctReq ?_ (by assumption) | apply keeps_ctReq_fst
      | refine keeps_fire _ _ _ _ ?_ (fun _ => ?_) | refine keeps_fireOp _ _ ?_ (fun _ => ?_)
      | refine keeps_ite (fun _ => ?_) (fun _ => ?_)
    | split | (simp only [keeps_mk]; change MemoryInv _) | dsimp only

theorem keeps_execCtStat (o : EOp) (s : State) (h : MemoryInv s) : Keeps (execCtStat o s) := by
  unfold execCtStat
  try dsimp only
  repeat' first
    | with_reducible first
      | assumption | apply keeps_next | apply keeps_wr | refine keeps_fire _ _ _ _ ?_ (fun _ => ?_)
      | refine keeps_fireOp _ _ ?_ (fun _ => ?_)
    | dsimp only

theorem keeps_execCaSet (o : EOp) (s : State) (h : MemoryInv s) : Keeps (execCaSet o s) := by
  unfold execCaSet
  try dsimp only
  repeat' first
    | with_reducible first
      | assumption | apply keeps_next | refine keeps_iteO (fun _ => ?_) (fun _ => ?_) | apply keeps_consume
      | apply keeps_updCa | refine keeps_fire _ _ _ _ ?_ (fun _ => ?_) | refine keeps_fireOp _ _ ?_ (fun _ => ?_)
      | refine keeps_ite (fun _ => ?_) (fun _ => ?_)
    | split | (simp only [keeps_mk]; change MemoryInv _) | dsimp only

theorem keeps_execCaGet (o : EOp) (s : State) (h : MemoryInv s) : Keeps (execCaGet o s) := by
  unfold execCaGet
  try dsimp only
  repeat' first
    | with_reducible first
      | assumption | apply keeps_next | apply keeps_wr | refine keeps_fire _ _ _ _ ?_ (fun _ => ?_)
      | refine keeps_fireOp _ _ ?_ (fun _ => ?_)
    | dsimp only

theorem keeps_qpWrite (s : State) (qp off n v : Nat) (h : MemoryInv s) : MemoryInv (State.qpWrite s qp off n v) := by
  unfold State.qpWrite
  try dsimp only
  repeat' first
    | with_reducible first
      | assumption | apply keeps_writeHome
    | dsimp only

theorem keeps_updQp (s : State) (qp : Nat) (f : Qp → Qp) (h : MemoryInv s) : MemoryInv (State.updQp s qp f) := by
  unfold State.updQp
  try dsimp only
  repeat' first
    | with_reducible first
      | assumption
    | (simp only [keeps_mk]; change MemoryInv _) | dsimp only

theorem keeps_setPort (s : State) (cl n : Nat) (ws : List ChanWord) (h : MemoryInv s) :
    MemoryInv (State.setPort s cl n ws) := by
  unfold State.setPort
  try dsimp only
  repeat' first
    | with_reducible first
      | assumption | apply keeps_updCluster
    | (simp only [keeps_mk]; change MemoryInv _) | dsimp only

theorem keeps_takePort (s : State) (cl n : Nat) (h : MemoryInv s) : MemoryInv (State.takePort s cl n) := by
  unfold State.takePort
  try dsimp only
  repeat' first
    | with_reducible first
      | assumption | apply keeps_freeSlots | apply keeps_setPort
    | dsimp only

theorem keeps_setRecv (s : State) (cl n : Nat) (ws : List ChanWord) (h : MemoryInv s) :
    MemoryInv (State.setRecv s cl n ws) := by
  unfold State.setRecv
  try dsimp only
  repeat' first
    | with_reducible first
      | assumption | apply keeps_updCluster
    | (simp only [keeps_mk]; change MemoryInv _) | dsimp only

theorem keeps_takeSource (s : State) (cl n : Nat) (h : MemoryInv s) : MemoryInv (State.takeSource s cl n) := by
  unfold State.takeSource
  try dsimp only
  repeat' first
    | with_reducible first
      | assumption | apply keeps_takePort | apply keeps_setRecv | refine keeps_ite (fun _ => ?_) (fun _ => ?_)
    | split | dsimp only

theorem keeps_bindLink (s : State) (p : Spur) (d : Desc) (h : MemoryInv s) : MemoryInv (State.bindLink s p d) := by
  unfold State.bindLink
  try dsimp only
  repeat' first
    | with_reducible first
      | assumption | apply keeps_updElem | apply keeps_updCluster | apply keeps_bump | refine keeps_getD ?_ ?_
      | refine foldl_keeps _ _ _ ?_ fun _ _ _ => ?_ | refine foldl_keeps_fst _ _ _ ?_ fun _ _ _ => ?_
      | refine keeps_ite (fun _ => ?_) (fun _ => ?_)
    | split | (simp only [keeps_mk]; change MemoryInv _) | dsimp only

theorem keeps_freshCounts (s : State) (p : Spur) (h : MemoryInv s) : MemoryInv (State.freshCounts s p) := by
  unfold State.freshCounts
  try dsimp only
  repeat' first
    | with_reducible first
      | assumption | apply keeps_updElem | refine foldl_keeps _ _ _ ?_ fun _ _ _ => ?_
      | refine foldl_keeps_fst _ _ _ ?_ fun _ _ _ => ?_ | refine keeps_ite (fun _ => ?_) (fun _ => ?_)
    | split | (simp only [keeps_mk]; change MemoryInv _) | dsimp only

theorem keeps_bindEdges (s : State) (p : Spur) (ds : List Desc) (h : MemoryInv s) :
    MemoryInv (State.bindEdges s p ds) := by
  unfold State.bindEdges
  try dsimp only
  repeat' first
    | with_reducible first
      | assumption | apply keeps_bump | refine foldl_keeps _ _ _ ?_ fun _ _ _ => ?_
      | refine foldl_keeps_fst _ _ _ ?_ fun _ _ _ => ?_ | refine keeps_ite (fun _ => ?_) (fun _ => ?_)
    | split | (simp only [keeps_mk]; change MemoryInv _) | dsimp only

theorem keeps_loadSection (s : State) (p : Spur) (x : Sect) (h : MemoryInv s) :
    MemoryInv (State.loadSection s p x) := by
  unfold State.loadSection
  try dsimp only
  repeat' first
    | with_reducible first
      | assumption | apply keeps_updCore | apply keeps_scratchWrite | refine keeps_ite (fun _ => ?_) (fun _ => ?_)
    | split | (simp only [keeps_mk]; change MemoryInv _) | dsimp only

theorem keeps_loadElems (s : State) (p : Spur) (ss : List Sect) (h : MemoryInv s) :
    MemoryInv (State.loadElems s p ss) := by
  unfold State.loadElems
  try dsimp only
  repeat' first
    | with_reducible first
      | assumption | apply keeps_updElem | refine foldl_keeps _ _ _ ?_ fun _ _ _ => ?_
      | refine foldl_keeps_fst _ _ _ ?_ fun _ _ _ => ?_
    | dsimp only

theorem keeps_loadCores (s : State) (p : Spur) (ss : List Sect) (h : MemoryInv s) :
    MemoryInv (State.loadCores s p ss) := by
  unfold State.loadCores
  try dsimp only
  repeat' first
    | with_reducible first
      | assumption | apply keeps_updSpur | apply keeps_loadSection | refine foldl_keeps _ _ _ ?_ fun _ _ _ => ?_
      | refine foldl_keeps_fst _ _ _ ?_ fun _ _ _ => ?_
    | split | (simp only [keeps_mk]; change MemoryInv _) | dsimp only

theorem keeps_loadLinks (s : State) (p : Spur) (ss : List Sect) (frozen : Bool) (h : MemoryInv s) :
    MemoryInv (State.loadLinks s p ss frozen) := by
  unfold State.loadLinks
  try dsimp only
  repeat' first
    | with_reducible first
      | assumption | apply keeps_bindLink | apply keeps_freshCounts | apply keeps_bindEdges
      | refine foldl_keeps _ _ _ ?_ fun _ _ _ => ?_ | refine foldl_keeps_fst _ _ _ ?_ fun _ _ _ => ?_
      | refine keeps_ite (fun _ => ?_) (fun _ => ?_)
    | split | dsimp only

theorem keeps_freshTemplates_fst {s : State} {p : Spur} (h : MemoryInv s) :
    MemoryInv (State.freshTemplates s p).fst := by
  unfold State.freshTemplates
  try dsimp only
  repeat' first
    | with_reducible first
      | assumption | apply keeps_updElem | refine foldl_keeps _ _ _ ?_ fun _ _ _ => ?_
      | refine foldl_keeps_fst _ _ _ ?_ fun _ _ _ => ?_ | refine keeps_ite (fun _ => ?_) (fun _ => ?_)
    | split | dsimp only

theorem keeps_freshTemplates {s : State} {p : Spur} {t : State} {x : Option Nat} (h : MemoryInv s) (e :
    State.freshTemplates s p = (t, x)) :
    MemoryInv t := by
  have := show MemoryInv (State.freshTemplates s p).fst from keeps_freshTemplates_fst h
  rw [e] at this
  exact this

theorem keeps_setSignal (s : State) (n : Nat) (h : MemoryInv s) : MemoryInv (State.setSignal s n) := by
  unfold State.setSignal
  try dsimp only
  repeat' first
    | with_reducible first
      | assumption | apply keeps_setPreg | apply keeps_sendVector | refine keeps_ite (fun _ => ?_) (fun _ => ?_)
    | split | dsimp only

theorem keeps_writeSigEn (s : State) (hi : Bool) (w : Word) (h : MemoryInv s) :
    MemoryInv (State.writeSigEn s hi w) := by
  unfold State.writeSigEn
  try dsimp only
  repeat' first
    | with_reducible first
      | assumption | apply keeps_setPreg | apply keeps_sendVector | refine foldl_keeps _ _ _ ?_ fun _ _ _ => ?_
      | refine foldl_keeps_fst _ _ _ ?_ fun _ _ _ => ?_ | refine keeps_ite (fun _ => ?_) (fun _ => ?_)
    | split | dsimp only

theorem keeps_writeSigPend (s : State) (hi : Bool) (w : Word) (h : MemoryInv s) :
    MemoryInv (State.writeSigPend s hi w) := by
  unfold State.writeSigPend
  try dsimp only
  repeat' first
    | with_reducible first
      | assumption | apply keeps_setPreg
    | dsimp only

theorem keeps_lqPut (s : State) (q count : Nat) (bs : List Byte) (h : MemoryInv s) :
    MemoryInv (State.lqPut s q count bs) := by
  unfold State.lqPut
  try dsimp only
  repeat' first
    | with_reducible first
      | assumption | apply keeps_writeHome | refine keeps_ite (fun _ => ?_) (fun _ => ?_)
    | split | dsimp only

theorem keeps_writeTail (s : State) (q : Nat) (w : Word) (h : MemoryInv s) : MemoryInv (State.writeTail s q w) := by
  unfold State.writeTail
  try dsimp only
  repeat' first
    | with_reducible first
      | assumption | apply keeps_setPreg | refine keeps_ite (fun _ => ?_) (fun _ => ?_)
    | split | dsimp only

theorem keeps_writeQueueReg (s : State) (n : Nat) (w : Word) (h : MemoryInv s) :
    MemoryInv (State.writeQueueReg s n w) := by
  unfold State.writeQueueReg
  try dsimp only
  repeat' first
    | with_reducible first
      | assumption | apply keeps_setPreg | refine keeps_ite (fun _ => ?_) (fun _ => ?_)
    | split | dsimp only

theorem keeps_dropTranslations (s : State) (va bits : Nat) (h : MemoryInv s) :
    MemoryInv (State.dropTranslations s va bits) := by
  unfold State.dropTranslations
  try dsimp only
  repeat' first
    | with_reducible first
      | assumption
    | (simp only [keeps_mk]; change MemoryInv _) | dsimp only

theorem keeps_writeInvalHi (s : State) (w : Word) (h : MemoryInv s) : MemoryInv (State.writeInvalHi s w) := by
  unfold State.writeInvalHi
  try dsimp only
  repeat' first
    | with_reducible first
      | assumption | apply keeps_dropTranslations
    | dsimp only

theorem keeps_writeKillHi (s : State) (w : Word) (h : MemoryInv s) : MemoryInv (State.writeKillHi s w) := by
  unfold State.writeKillHi
  try dsimp only
  repeat' first
    | with_reducible first
      | assumption | apply keeps_endChain
    | dsimp only

theorem keeps_writeMeter (s : State) (cl : Nat) (w : Word) (h : MemoryInv s) :
    MemoryInv (State.writeMeter s cl w) := by
  unfold State.writeMeter
  try dsimp only
  repeat' first
    | with_reducible first
      | assumption | apply keeps_setPreg | apply keeps_settleMeter
    | dsimp only

theorem keeps_writeVreg (s : State) (cl : Nat) (w : Word) (h : MemoryInv s) : MemoryInv (State.writeVreg s cl w) := by
  unfold State.writeVreg
  try dsimp only
  repeat' first
    | with_reducible first
      | assumption | apply keeps_retarget | refine keeps_ite (fun _ => ?_) (fun _ => ?_)
    | split | dsimp only

theorem keeps_writeClusOff (s : State) (k : Nat) (w : Word) (h : MemoryInv s) :
    MemoryInv (State.writeClusOff s k w) := by
  unfold State.writeClusOff
  try dsimp only
  repeat' first
    | with_reducible first
      | assumption | apply keeps_updCluster | apply keeps_setPreg | apply keeps_writeVreg
      | refine foldl_keeps _ _ _ ?_ fun _ _ _ => ?_ | refine foldl_keeps_fst _ _ _ ?_ fun _ _ _ => ?_
    | (simp only [keeps_mk]; change MemoryInv _) | dsimp only

theorem keeps_status (s : State) (bit : Nat) (v : Bool) (h : MemoryInv s) : MemoryInv (State.status s bit v) := by
  unfold State.status
  try dsimp only
  repeat' first
    | with_reducible first
      | assumption | apply keeps_setPreg | refine keeps_ite (fun _ => ?_) (fun _ => ?_)
    | split | dsimp only

theorem keeps_loadSystem_fst {s : State} {bs : List Byte} {m : Nat} (h : MemoryInv s) :
    MemoryInv (State.loadSystem s bs m).fst := by
  unfold State.loadSystem
  try dsimp only
  repeat' first
    | with_reducible first
      | assumption | apply keeps_bump | apply keeps_loadElems | apply keeps_loadCores | apply keeps_loadLinks
      | refine keeps_freshTemplates ?_ (by assumption) | apply keeps_freshTemplates_fst
    | split | (simp only [keeps_mk]; change MemoryInv _) | dsimp only

theorem keeps_loadSystem {s : State} {bs : List Byte} {m : Nat} {t : State} {x : Option Nat} (h : MemoryInv s)
    (e : State.loadSystem s bs m = (t, x)) :
    MemoryInv t := by
  have := show MemoryInv (State.loadSystem s bs m).fst from keeps_loadSystem_fst h
  rw [e] at this
  exact this

theorem keeps_fallback (s : State) (m : Nat) (h : MemoryInv s) : MemoryInv (State.fallback s m) := by
  unfold State.fallback
  try dsimp only
  repeat' first
    | with_reducible first
      | assumption | apply keeps_setPreg | apply keeps_retarget | apply keeps_settleMeter
      | refine foldl_keeps _ _ _ ?_ fun _ _ _ => ?_ | refine foldl_keeps_fst _ _ _ ?_ fun _ _ _ => ?_
    | dsimp only

theorem keeps_loadSystems_fst {s : State} {bs : List Byte} (h : MemoryInv s) :
    MemoryInv (State.loadSystems s bs).fst := by
  unfold State.loadSystems
  try dsimp only
  repeat' first
    | with_reducible first
      | assumption | refine keeps_loadSystem ?_ (by assumption) | apply keeps_loadSystem_fst
      | refine foldl_keeps _ _ _ ?_ fun _ _ _ => ?_ | refine foldl_keeps_fst _ _ _ ?_ fun _ _ _ => ?_
    | dsimp only

theorem keeps_loadSystems {s : State} {bs : List Byte} {t : State} {x : Bool} (h : MemoryInv s) (e :
    State.loadSystems s bs = (t, x)) :
    MemoryInv t := by
  have := show MemoryInv (State.loadSystems s bs).fst from keeps_loadSystems_fst h
  rw [e] at this
  exact this

theorem keeps_writeStart (s : State) (w : Word) (h : MemoryInv s) : MemoryInv (State.writeStart s w) := by
  unfold State.writeStart
  try dsimp only
  repeat' first
    | with_reducible first
      | assumption | apply keeps_updCluster | apply keeps_setPreg | apply keeps_status | apply keeps_fallback
      | refine keeps_loadSystems ?_ (by assumption) | apply keeps_loadSystems_fst
      | refine foldl_keeps _ _ _ ?_ fun _ _ _ => ?_ | refine foldl_keeps_fst _ _ _ ?_ fun _ _ _ => ?_
      | refine keeps_ite (fun _ => ?_) (fun _ => ?_)
    | split | (simp only [keeps_mk]; change MemoryInv _) | dsimp only

theorem keeps_writeReg (s : State) (n : Nat) (w : Word) (h : MemoryInv s) : MemoryInv (State.writeReg s n w) := by
  unfold State.writeReg
  try dsimp only
  repeat' first
    | with_reducible first
      | assumption | apply keeps_setPreg | apply keeps_writeSigEn | apply keeps_writeSigPend | apply keeps_writeTail
      | apply keeps_writeQueueReg | apply keeps_writeInvalHi | apply keeps_writeKillHi | apply keeps_writeMeter
      | apply keeps_writeVreg | apply keeps_writeClusOff | apply keeps_writeStart
      | refine keeps_ite (fun _ => ?_) (fun _ => ?_)
    | split | (simp only [keeps_mk]; change MemoryInv _) | dsimp only

theorem keeps_latchReg (s : State) (n : Nat) (h : MemoryInv s) : MemoryInv (State.latchReg s n) := by
  unfold State.latchReg
  try dsimp only
  repeat' first
    | with_reducible first
      | assumption | apply keeps_setPreg | refine keeps_ite (fun _ => ?_) (fun _ => ?_)
    | split | dsimp only

end Sys2Proof.Machine
end

