-- ==== Sys2Proof/Laws/KeepsEngines.lean ====
section
/-!
SUPPORT. The operations of `MemEvents`, `CopyEngine`, `BlockFormats`, `Matrix`, `System`, `MatrixEngine`, `Accesses`, `Beats`, `CarryChain`, `Channel`, `IslandRules`, `Firing` keep the canonical form of the memories.
-/
namespace Sys2Proof.Machine

theorem keeps_release (s : State) (r : Req) (h : MemoryInv s) : MemoryInv (State.release s r) := by
  unfold State.release
  try dsimp only
  repeat' first
    | with_reducible first
      | assumption | apply keeps_writeBack | apply keeps_writeBackWhere | apply keeps_prune
      | refine foldl_keeps _ _ _ ?_ fun _ _ _ => ?_ | refine foldl_keeps_fst _ _ _ ?_ fun _ _ _ => ?_
      | refine keeps_ite (fun _ => ?_) (fun _ => ?_)
    | split | (simp only [keeps_mk]; change MemoryInv _) | dsimp only

theorem keeps_acquire (s : State) (r : Req) (h : MemoryInv s) : MemoryInv (State.acquire s r) := by
  unfold State.acquire
  try dsimp only
  repeat' first
    | with_reducible first
      | assumption | apply keeps_dropClean | refine keeps_ite (fun _ => ?_) (fun _ => ?_)
    | split | dsimp only

theorem keeps_translateReq (s : State) (r : Req) (n : Need) (h : MemoryInv s) :
    MemoryInv (State.translateReq s r n) := by
  unfold State.translateReq
  try dsimp only
  repeat' first
    | with_reducible first
      | assumption | apply keeps_dropReq | apply keeps_cacheLeaf | apply keeps_lateFault
      | refine keeps_ite (fun _ => ?_) (fun _ => ?_)
    | split | (simp only [keeps_mk]; change MemoryInv _) | dsimp only

theorem keeps_execTranslationWalk (s : State) (h : MemoryInv s) : Keeps (execTranslationWalk s) := by
  unfold execTranslationWalk
  try dsimp only
  repeat' first
    | with_reducible first
      | assumption | apply keeps_next | refine keeps_iteO (fun _ => ?_) (fun _ => ?_)
      | refine keeps_of_some (keeps_joinReplay _ _ ?_) (by assumption) | refine keeps_joinReplay _ _ ?_
      | apply keeps_translateReq | refine keeps_ite (fun _ => ?_) (fun _ => ?_)
    | split | (simp only [keeps_mk]; change MemoryInv _) | dsimp only

theorem keeps_makeL1Room (s : State) (bank line : Nat) (h : MemoryInv s) :
    MemoryInv (State.makeL1Room s bank line) := by
  unfold State.makeL1Room
  try dsimp only
  repeat' first
    | with_reducible first
      | assumption | refine keeps_ite (fun _ => ?_) (fun _ => ?_)
    | split | (simp only [keeps_mk]; change MemoryInv _) | dsimp only

theorem keeps_fillL1 (s : State) (cl bank sec : Nat) (h : MemoryInv s) : MemoryInv (State.fillL1 s cl bank sec) := by
  unfold State.fillL1
  try dsimp only
  repeat' first
    | with_reducible first
      | assumption | apply keeps_makeL1Room | refine foldl_keeps _ _ _ ?_ fun _ _ _ => ?_
      | refine foldl_keeps_fst _ _ _ ?_ fun _ _ _ => ?_
    | split | (simp only [keeps_mk]; change MemoryInv _) | dsimp only

theorem keeps_fillAfter (s : State) (r : Req) (k : Nat) (h : MemoryInv s) : MemoryInv (State.fillAfter s r k) := by
  unfold State.fillAfter
  try dsimp only
  repeat' first
    | with_reducible first
      | assumption | apply keeps_noteLine | apply keeps_fillSector | apply keeps_fillL1
      | refine foldl_keeps _ _ _ ?_ fun _ _ _ => ?_ | refine foldl_keeps_fst _ _ _ ?_ fun _ _ _ => ?_
      | refine keeps_ite (fun _ => ?_) (fun _ => ?_)
    | split | (simp only [keeps_mk]; change MemoryInv _) | dsimp only

theorem keeps_byteError (s : State) (cl j : Nat) (home : Bool) (h : MemoryInv s) :
    MemoryInv (State.byteError s cl j home) := by
  unfold State.byteError
  try dsimp only
  repeat' first
    | with_reducible first
      | assumption | apply keeps_countPreg | apply keeps_noteUncorrectable
      | refine keeps_ite (fun _ => ?_) (fun _ => ?_)
    | split | (simp only [keeps_mk]; change MemoryInv _) | dsimp only

theorem keeps_scratchError (s : State) (j : Nat) (h : MemoryInv s) : MemoryInv (State.scratchError s j) := by
  unfold State.scratchError
  try dsimp only
  repeat' first
    | with_reducible first
      | assumption | apply keeps_countPreg | refine keeps_ite (fun _ => ?_) (fun _ => ?_)
    | split | (simp only [keeps_mk]; change MemoryInv _) | dsimp only

theorem keeps_softError (s : State) (r : Req) (h : MemoryInv s) : MemoryInv (State.softError s r) := by
  unfold State.softError
  try dsimp only
  repeat' first
    | with_reducible first
      | assumption | apply keeps_byteError | apply keeps_scratchError | refine keeps_ite (fun _ => ?_) (fun _ => ?_)
    | split | (simp only [keeps_mk]; change MemoryInv _) | dsimp only

theorem keeps_storageError (s : State) (h : MemoryInv s) : MemoryInv (State.storageError s) := by
  unfold State.storageError
  try dsimp only
  repeat' first
    | with_reducible first
      | assumption | apply keeps_updCluster | apply keeps_countPreg | apply keeps_noteUncorrectable
      | refine keeps_getD ?_ ?_ | refine keeps_ite (fun _ => ?_) (fun _ => ?_)
    | split | (simp only [keeps_mk]; change MemoryInv _) | dsimp only

theorem keeps_bindLoad (s : State) (r : Req) (k : Nat) (h : MemoryInv s) : MemoryInv (State.bindLoad s r k) := by
  unfold State.bindLoad
  try dsimp only
  repeat' first
    | with_reducible first
      | assumption | apply keeps_updReq | apply keeps_lateFault | apply keeps_acquire | apply keeps_fillAfter
      | refine keeps_ite (fun _ => ?_) (fun _ => ?_)
    | split | (simp only [keeps_mk]; change MemoryInv _) | dsimp only

theorem keeps_bindScratch (s : State) (r : Req) (k : Nat) (h : MemoryInv s) :
    MemoryInv (State.bindScratch s r k) := by
  unfold State.bindScratch
  try dsimp only
  repeat' first
    | with_reducible first
      | assumption | apply keeps_updReq | apply keeps_lateFault
    | split | (simp only [keeps_mk]; change MemoryInv _) | dsimp only

theorem keeps_bindPrefetch (s : State) (r : Req) (k : Nat) (h : MemoryInv s) :
    MemoryInv (State.bindPrefetch s r k) := by
  unfold State.bindPrefetch
  try dsimp only
  repeat' first
    | with_reducible first
      | assumption | apply keeps_dropReq | apply keeps_noteLine | apply keeps_fillSector
      | refine foldl_keeps _ _ _ ?_ fun _ _ _ => ?_ | refine foldl_keeps_fst _ _ _ ?_ fun _ _ _ => ?_
      | refine keeps_ite (fun _ => ?_) (fun _ => ?_)
    | split | dsimp only

theorem keeps_bindChainPut (s : State) (r : Req) (q : Nat) (h : MemoryInv s) :
    MemoryInv (State.bindChainPut s r q) := by
  unfold State.bindChainPut
  try dsimp only
  repeat' first
    | with_reducible first
      | assumption | apply keeps_updReq | apply keeps_setPreg | apply keeps_lateFault | apply keeps_lqPut
      | apply keeps_release | refine keeps_ite (fun _ => ?_) (fun _ => ?_)
    | split | (simp only [keeps_mk]; change MemoryInv _) | dsimp only

theorem keeps_landStore (s : State) (r : Req) (k : Nat) (h : MemoryInv s) : MemoryInv (State.landStore s r k) := by
  unfold State.landStore
  try dsimp only
  repeat' first
    | with_reducible first
      | assumption | apply keeps_updReq | apply keeps_dropReq | apply keeps_scratchWrite | apply keeps_landAt
      | apply keeps_release | refine keeps_ite (fun _ => ?_) (fun _ => ?_)
    | split | (simp only [keeps_mk]; change MemoryInv _) | dsimp only

theorem keeps_applyAmo (s : State) (r : Req) (op : AmoOp) (w64 : Bool) (k : Nat) (h : MemoryInv s) :
    MemoryInv (State.applyAmo s r op w64 k) := by
  unfold State.applyAmo
  try dsimp only
  repeat' first
    | with_reducible first
      | assumption | apply keeps_updReq | apply keeps_dropReq | apply keeps_countDiscard | apply keeps_writeBack
      | apply keeps_dropL2 | apply keeps_noteLine | apply keeps_landCopy | apply keeps_landHome
      | apply keeps_lateFault | apply keeps_release | apply keeps_acquire
      | refine foldl_keeps _ _ _ ?_ fun _ _ _ => ?_ | refine foldl_keeps_fst _ _ _ ?_ fun _ _ _ => ?_
      | refine keeps_ite (fun _ => ?_) (fun _ => ?_)
    | split | (simp only [keeps_mk]; change MemoryInv _) | dsimp only

theorem keeps_execAtomicApply (s : State) (h : MemoryInv s) : Keeps (execAtomicApply s) := by
  unfold execAtomicApply
  try dsimp only
  repeat' first
    | with_reducible first
      | assumption | apply keeps_next | refine keeps_iteO (fun _ => ?_) (fun _ => ?_) | apply keeps_softError
      | apply keeps_applyAmo | refine keeps_ite (fun _ => ?_) (fun _ => ?_)
    | split | (simp only [keeps_mk]; change MemoryInv _) | dsimp only

theorem keeps_execDoneTokenEmit (s : State) (h : MemoryInv s) : Keeps (execDoneTokenEmit s) := by
  unfold execDoneTokenEmit
  try dsimp only
  repeat' first
    | with_reducible first
      | assumption | apply keeps_next | refine keeps_iteO (fun _ => ?_) (fun _ => ?_) | apply keeps_fillSlot
      | apply keeps_prune | refine keeps_ite (fun _ => ?_) (fun _ => ?_)
    | split | (simp only [keeps_mk]; change MemoryInv _) | dsimp only

theorem keeps_execCopyEvict (s : State) (h : MemoryInv s) : Keeps (execCopyEvict s) := by
  unfold execCopyEvict
  try dsimp only
  repeat' first
    | with_reducible first
      | assumption | apply keeps_next | refine keeps_iteO (fun _ => ?_) (fun _ => ?_) | apply keeps_dropClean
      | refine keeps_ite (fun _ => ?_) (fun _ => ?_)
    | split | dsimp only

theorem keeps_execCopyWriteBack (s : State) (h : MemoryInv s) : Keeps (execCopyWriteBack s) := by
  unfold execCopyWriteBack
  try dsimp only
  repeat' first
    | with_reducible first
      | assumption | apply keeps_next | apply keeps_writeBack | apply keeps_prune
    | dsimp only

theorem keeps_fillError (s : State) (cl sec : Nat) (h : MemoryInv s) : MemoryInv (State.fillError s cl sec) := by
  unfold State.fillError
  try dsimp only
  repeat' first
    | with_reducible first
      | assumption | apply keeps_noteUncorrectable | refine keeps_ite (fun _ => ?_) (fun _ => ?_)
    | split | (simp only [keeps_mk]; change MemoryInv _) | dsimp only

theorem keeps_execCopyFill (s : State) (h : MemoryInv s) : Keeps (execCopyFill s) := by
  unfold execCopyFill
  try dsimp only
  repeat' first
    | with_reducible first
      | assumption | apply keeps_next | refine keeps_iteO (fun _ => ?_) (fun _ => ?_) | apply keeps_noteLine
      | apply keeps_fillSector | apply keeps_fillError | refine keeps_ite (fun _ => ?_) (fun _ => ?_)
    | split | (simp only [keeps_mk]; change MemoryInv _) | dsimp only

theorem keeps_execPortAccessComplete (s : State) (h : MemoryInv s) : Keeps (execPortAccessComplete s) := by
  unfold execPortAccessComplete
  try dsimp only
  repeat' first
    | with_reducible first
      | assumption | apply keeps_next | refine keeps_iteO (fun _ => ?_) (fun _ => ?_) | apply keeps_updCluster
      | apply keeps_updReq | apply keeps_dropReq | refine keeps_getD ?_ ?_
      | refine keeps_ite (fun _ => ?_) (fun _ => ?_)
    | split | (simp only [keeps_mk]; change MemoryInv _) | dsimp only

theorem keeps_markPieces (s : State) (cl : Nat) (bad : List Nat) (ps : List Piece) (off : Nat) (h : MemoryInv s) :
    MemoryInv (s.markPieces cl bad ps off) := by
  induction ps generalizing s off with
  | nil => exact h
  | cons p ps ih =>
    refine ih _ _ ?_
    split
    · exact h
    · exact h

theorem keeps_writePage (s : State) (core ct : Nat) (f : Firing) (a : Nat) (bs : List Byte) (bad : List Nat) (h
    : MemoryInv s) :
    KeepsOk (KeepsSome MemoryInv) (State.writePage s core ct f a bs bad) := by
  unfold State.writePage
  try dsimp only
  repeat' first
    | with_reducible first
      | assumption | exact keeps_none | exact keeps_error | apply keeps_some | apply keeps_ok
      | apply keeps_writeHome | apply keeps_landPieces | apply keeps_noteWritten | apply keeps_markPieces
      | refine foldl_keeps _ _ _ ?_ fun _ _ _ => ?_ | refine foldl_keeps_fst _ _ _ ?_ fun _ _ _ => ?_
      | refine keeps_ite (fun _ => ?_) (fun _ => ?_)
    | split | (simp only [keeps_mk]; change MemoryInv _) | dsimp only

theorem keeps_writeGlobalFuel (s : State) (core ct : Nat) (f : Firing) (fuel a : Nat) (bs : List Byte) (bad : List Nat)
    (h : MemoryInv s) : KeepsOk (KeepsSome MemoryInv) (s.writeGlobalFuel core ct f fuel a bs bad) := by
  induction fuel generalizing s a bs bad with
  | zero => exact keeps_ok (keeps_some h)
  | succ fuel ih =>
    unfold State.writeGlobalFuel
    dsimp only
    split
    · exact keeps_ok (keeps_some h)
    · split
      · exact keeps_error
      · exact keeps_ok keeps_none
      · exact ih _ _ _ _ (keeps_of_okSome (keeps_writePage _ _ _ _ _ _ _ h) ‹_›)

theorem keeps_writeGlobal (s : State) (core ct : Nat) (f : Firing) (a : Nat) (bs : List Byte) (bad : List Nat)
    (h : MemoryInv s) : KeepsOk (KeepsSome MemoryInv) (s.writeGlobal core ct f a bs bad) :=
  keeps_writeGlobalFuel _ _ _ _ _ _ _ _ h

theorem keeps_writeScratch (s : State) (k : Nat) (bs : List Byte) (bad : List Nat) (h : MemoryInv s) :
    MemoryInv (State.writeScratch s k bs bad) := by
  unfold State.writeScratch
  try dsimp only
  repeat' first
    | with_reducible first
      | assumption | apply keeps_scratchWrite | refine foldl_keeps _ _ _ ?_ fun _ _ _ => ?_
      | refine foldl_keeps_fst _ _ _ ?_ fun _ _ _ => ?_
    | (simp only [keeps_mk]; change MemoryInv _) | dsimp only

theorem keeps_noteCairn (s : State) (core ca b : Nat) (h : MemoryInv s) :
    MemoryInv (State.noteCairn s core ca b) := by
  unfold State.noteCairn
  try dsimp only
  repeat' first
    | with_reducible first
      | assumption | apply keeps_updCa | refine keeps_ite (fun _ => ?_) (fun _ => ?_)
    | split | (simp only [keeps_mk]; change MemoryInv _) | dsimp only

theorem keeps_landScratch (s : State) (core : Nat) (b : List Byte) (a : Nat) (bs : List Byte) (bad : List Nat)
    (h : MemoryInv s) :
    KeepsOk (fun x => MemoryInv x.1) (State.landScratch s core b a bs bad) := by
  unfold State.landScratch
  try dsimp only
  repeat' first
    | with_reducible first
      | assumption | exact keeps_none | exact keeps_error | apply keeps_some | apply keeps_ok
      | apply keeps_writeScratch | apply keeps_noteCairn | refine foldl_keeps _ _ _ ?_ fun _ _ _ => ?_
      | refine foldl_keeps_fst _ _ _ ?_ fun _ _ _ => ?_ | refine keeps_ite (fun _ => ?_) (fun _ => ?_)
    | split | (simp only [keeps_mk]; change MemoryInv _) | dsimp only

theorem keeps_updFiring (s : State) (core ct : Nat) (g : Firing → Firing) (h : MemoryInv s) :
    MemoryInv (State.updFiring s core ct g) := by
  unfold State.updFiring
  try dsimp only
  repeat' first
    | with_reducible first
      | assumption | apply keeps_updCt
    | (simp only [keeps_mk]; change MemoryInv _) | dsimp only

theorem keeps_postWrite (s : State) (core va : Nat) (bs : List Byte) (scope : BitVec 3) (h : MemoryInv s) :
    MemoryInv (State.postWrite s core va bs scope) := by
  unfold State.postWrite
  try dsimp only
  repeat' first
    | with_reducible first
      | assumption | apply keeps_addReq | refine keeps_of_ok (keeps_engWrite _ _ _ _ _ ?_) (by assumption)
      | refine keeps_engWrite _ _ _ _ _ ?_ | apply keeps_lostWrite | refine keeps_ite (fun _ => ?_) (fun _ => ?_)
    | split | (simp only [keeps_mk]; change MemoryInv _) | dsimp only

theorem keeps_firingFault (s : State) (core ct : Nat) (f : Firing) (code addr : Nat) (record : Bool) (h :
    MemoryInv s) :
    MemoryInv (State.firingFault s core ct f code addr record) := by
  unfold State.firingFault
  try dsimp only
  repeat' first
    | with_reducible first
      | assumption | apply keeps_unitFault | apply keeps_updFiring | apply keeps_postWrite
      | refine keeps_ite (fun _ => ?_) (fun _ => ?_)
    | split | (simp only [keeps_mk]; change MemoryInv _) | dsimp only

theorem keeps_execEventChannelPlace (s : State) (h : MemoryInv s) : Keeps (execEventChannelPlace s) := by
  unfold execEventChannelPlace
  try dsimp only
  repeat' first
    | with_reducible first
      | assumption | apply keeps_next | refine keeps_iteO (fun _ => ?_) (fun _ => ?_) | apply keeps_updElem
      | apply keeps_updCore | refine keeps_ite (fun _ => ?_) (fun _ => ?_)
    | split | (simp only [keeps_mk]; change MemoryInv _) | dsimp only

theorem keeps_execTemplateTriggerAccept (s : State) (h : MemoryInv s) : Keeps (execTemplateTriggerAccept s) := by
  unfold execTemplateTriggerAccept
  try dsimp only
  repeat' first
    | with_reducible first
      | assumption | apply keeps_next | refine keeps_iteO (fun _ => ?_) (fun _ => ?_) | apply keeps_popWords
      | apply keeps_updCt | refine keeps_ite (fun _ => ?_) (fun _ => ?_)
    | split | (simp only [keeps_mk]; change MemoryInv _) | dsimp only

theorem keeps_takePages_fst {s : State} {massif n : Nat} (h : MemoryInv s) :
    MemoryInv (State.takePages s massif n).fst := by
  unfold State.takePages
  try dsimp only
  repeat' first
    | with_reducible first
      | assumption | apply keeps_setPreg
    | dsimp only

theorem keeps_takePages {s : State} {massif n : Nat} {t : State} {x : List Nat} (h : MemoryInv s) (e :
    State.takePages s massif n = (t, x)) :
    MemoryInv t := by
  have := show MemoryInv (State.takePages s massif n).fst from keeps_takePages_fst h
  rw [e] at this
  exact this

theorem keeps_startFiring (s : State) (core ct : Nat) (pages : List (Nat × Nat)) (h : MemoryInv s) :
    MemoryInv (State.startFiring s core ct pages) := by
  unfold State.startFiring
  try dsimp only
  repeat' first
    | with_reducible first
      | assumption | apply keeps_updElem | apply keeps_bump | apply keeps_dropRange | apply keeps_updCt
      | refine foldl_keeps _ _ _ ?_ fun _ _ _ => ?_ | refine foldl_keeps_fst _ _ _ ?_ fun _ _ _ => ?_
      | refine keeps_ite (fun _ => ?_) (fun _ => ?_)
    | split | (simp only [keeps_mk]; change MemoryInv _) | dsimp only

theorem keeps_refuseFiring (s : State) (core ct code addr : Nat) (h : MemoryInv s) :
    MemoryInv (State.refuseFiring s core ct code addr) := by
  unfold State.refuseFiring
  try dsimp only
  repeat' first
    | with_reducible first
      | assumption | apply keeps_firingFault
    | (simp only [keeps_mk]; change MemoryInv _) | dsimp only

theorem keeps_execCopyFiringStart (s : State) (h : MemoryInv s) : Keeps (execCopyFiringStart s) := by
  unfold execCopyFiringStart
  try dsimp only
  repeat' first
    | with_reducible first
      | assumption | apply keeps_next | refine keeps_iteO (fun _ => ?_) (fun _ => ?_)
      | refine keeps_takePages ?_ (by assumption) | apply keeps_takePages_fst | apply keeps_startFiring
      | apply keeps_refuseFiring | refine keeps_ite (fun _ => ?_) (fun _ => ?_)
    | split | (simp only [keeps_mk]; change MemoryInv _) | dsimp only

theorem keeps_takeWords (s : State) (core : Nat) (b : List Byte) (n : Nat) (h : MemoryInv s) :
    MemoryInv (State.takeWords s core b n) := by
  unfold State.takeWords
  try dsimp only
  repeat' first
    | with_reducible first
      | assumption | apply keeps_takeSource | refine foldl_keeps _ _ _ ?_ fun _ _ _ => ?_
      | refine foldl_keeps_fst _ _ _ ?_ fun _ _ _ => ?_ | refine keeps_ite (fun _ => ?_) (fun _ => ?_)
    | split | dsimp only

theorem keeps_readFiring (s : State) (core ct : Nat) (h : MemoryInv s) : MemoryInv (State.readFiring s core ct) := by
  unfold State.readFiring
  try dsimp only
  repeat' first
    | with_reducible first
      | assumption | apply keeps_updFiring | apply keeps_firingFault | apply keeps_takeWords
      | refine keeps_ite (fun _ => ?_) (fun _ => ?_)
    | split | (simp only [keeps_mk]; change MemoryInv _) | dsimp only

theorem keeps_sendChunk (s : State) (core ct : Nat) (b : List Byte) (f : Firing) (h : MemoryInv s) :
    MemoryInv (State.sendChunk s core ct b f) := by
  unfold State.sendChunk
  try dsimp only
  repeat' first
    | with_reducible first
      | assumption | apply keeps_updFiring | apply keeps_firingFault
    | split | (simp only [keeps_mk]; change MemoryInv _) | dsimp only

theorem keeps_landFiring (s : State) (core ct : Nat) (h : MemoryInv s) : MemoryInv (State.landFiring s core ct) := by
  unfold State.landFiring
  try dsimp only
  repeat' first
    | with_reducible first
      | assumption | apply keeps_setPort
      | refine keeps_of_okSome (keeps_writeGlobal _ _ _ _ _ _ _ ?_) (by assumption)
      | refine keeps_writeGlobal _ _ _ _ _ _ _ ?_
      | refine keeps_of_okPair (keeps_landScratch _ _ _ _ _ _ ?_) (by assumption)
      | refine keeps_landScratch _ _ _ _ _ _ ?_ | apply keeps_updFiring | apply keeps_firingFault
      | apply keeps_sendChunk | refine keeps_getD ?_ ?_ | refine keeps_ite (fun _ => ?_) (fun _ => ?_)
    | split | (simp only [keeps_mk]; change MemoryInv _) | dsimp only

theorem keeps_performFiring (s : State) (core ct : Nat) (b : List Byte) (h : MemoryInv s) :
    MemoryInv (State.performFiring s core ct b) := by
  unfold State.performFiring
  try dsimp only
  repeat' first
    | with_reducible first
      | assumption | apply keeps_writeBack | apply keeps_prune | refine foldl_keeps _ _ _ ?_ fun _ _ _ => ?_
      | refine foldl_keeps_fst _ _ _ ?_ fun _ _ _ => ?_ | refine keeps_ite (fun _ => ?_) (fun _ => ?_)
    | split | (simp only [keeps_mk]; change MemoryInv _) | dsimp only

theorem keeps_publish (s : State) (core : Nat) (f : Firing) (h : MemoryInv s) :
    MemoryInv (State.publish s core f) := by
  unfold State.publish
  try dsimp only
  repeat' first
    | with_reducible first
      | assumption | apply keeps_writeHome | refine foldl_keeps _ _ _ ?_ fun _ _ _ => ?_
      | refine foldl_keeps_fst _ _ _ ?_ fun _ _ _ => ?_
    | split | (simp only [keeps_mk]; change MemoryInv _) | dsimp only

theorem keeps_finishWrites (s : State) (core ct : Nat) (b : List Byte) (f : Firing) (h : MemoryInv s) :
    KeepsOk (fun x => MemoryInv x.1) (State.finishWrites s core ct b f) := by
  unfold State.finishWrites
  try dsimp only
  repeat' first
    | with_reducible first
      | assumption | exact keeps_none | exact keeps_error | apply keeps_some | apply keeps_ok
      | apply keeps_performFiring | apply keeps_publish | refine keeps_ite (fun _ => ?_) (fun _ => ?_)
    | split | (simp only [keeps_mk]; change MemoryInv _) | dsimp only

theorem keeps_finishRecord (s : State) (core ct : Nat) (b : List Byte) (f : Firing) (h : MemoryInv s) :
    MemoryInv (State.finishRecord s core ct b f) := by
  unfold State.finishRecord
  have hk (bs : List Byte) :
      KeepsOk MemoryInv (if tbRec b = 0 then .ok s else s.engWrite core (tbRec b) bs (tbScope b)) := by
    split
    · exact keeps_ok h
    · exact keeps_engWrite _ _ _ _ _ h
  dsimp only
  split
  · exact keeps_firingFault _ _ _ _ _ _ _ (keeps_updFiring _ _ _ _ h)
  · have ht := keeps_of_ok (hk _) ‹_›
    exact foldl_keeps _ _ _ (keeps_dropReq _ _ (keeps_updElem _ _ _ (keeps_updCt _ _ _ _
      (foldl_keeps _ _ _ ht fun _ _ h => keeps_noteWritten _ _ _ _ _ _ h))))
      fun _ _ h => keeps_stopTemplate _ _ _ (keeps_dropReq _ _ h)

theorem keeps_execCopyFiringCompletion (s : State) (h : MemoryInv s) : Keeps (execCopyFiringCompletion s) := by
  unfold execCopyFiringCompletion
  try dsimp only
  repeat' first
    | with_reducible first
      | assumption | apply keeps_next | refine keeps_iteO (fun _ => ?_) (fun _ => ?_) | apply keeps_storageError
      | apply keeps_firingFault | refine keeps_of_okPair (keeps_finishWrites _ _ _ _ _ ?_) (by assumption)
      | refine keeps_finishWrites _ _ _ _ _ ?_ | apply keeps_finishRecord
      | refine keeps_ite (fun _ => ?_) (fun _ => ?_)
    | split | (simp only [keeps_mk]; change MemoryInv _) | dsimp only

theorem keeps_loseFiring (s : State) (core ct : Nat) (h : MemoryInv s) : MemoryInv (State.loseFiring s core ct) := by
  unfold State.loseFiring
  have hw (b : List Byte) (f : Firing) :
      KeepsOk (fun x => MemoryInv x.1) (if f.recording then .ok (s, f) else s.finishWrites core ct b f) := by
    split
    · exact keeps_ok h
    · exact keeps_finishWrites _ _ _ _ _ h
  dsimp only
  repeat' first
    | with_reducible first
      | assumption | apply keeps_countPreg | apply keeps_lostWrite | apply keeps_updFiring | apply keeps_firingFault
      | apply keeps_landFiring | refine keeps_of_okPair (hw _ _) (by assumption)
      | refine keeps_ite (fun _ => ?_) (fun _ => ?_)
    | split | dsimp only

theorem keeps_execShadowPageReturn (s : State) (h : MemoryInv s) : Keeps (execShadowPageReturn s) := by
  unfold execShadowPageReturn
  try dsimp only
  repeat' first
    | with_reducible first
      | assumption | apply keeps_next | refine keeps_iteO (fun _ => ?_) (fun _ => ?_) | apply keeps_setPreg
      | apply keeps_writeHome | refine keeps_ite (fun _ => ?_) (fun _ => ?_)
    | split | (simp only [keeps_mk]; change MemoryInv _) | dsimp only

theorem keeps_cairnToken (s : State) (core ca : Nat) (c : Cairn) (h : MemoryInv s) :
    MemoryInv (State.cairnToken s core ca c) := by
  unfold State.cairnToken
  try dsimp only
  repeat' first
    | with_reducible first
      | assumption | apply keeps_updCore
    | (simp only [keeps_mk]; change MemoryInv _) | dsimp only

theorem keeps_execCairnLanding (s : State) (h : MemoryInv s) : Keeps (execCairnLanding s) := by
  unfold execCairnLanding
  try dsimp only
  repeat' first
    | with_reducible first
      | assumption | apply keeps_next | refine keeps_iteO (fun _ => ?_) (fun _ => ?_) | apply keeps_unitFault
      | apply keeps_updCa | apply keeps_cairnToken | refine keeps_ite (fun _ => ?_) (fun _ => ?_)
    | split | (simp only [keeps_mk]; change MemoryInv _) | dsimp only

theorem keeps_enqueue (s : State) (core q : Nat) (c : Cmd) (h : MemoryInv s) :
    MemoryInv (State.enqueue s core q c) := by
  unfold State.enqueue
  try dsimp only
  repeat' first
    | with_reducible first
      | assumption | apply keeps_updCore | refine keeps_getD ?_ ?_ | refine keeps_ite (fun _ => ?_) (fun _ => ?_)
    | split | (simp only [keeps_mk]; change MemoryInv _) | dsimp only

theorem keeps_sendCmd (s : State) (q : Nat) (dm : Demand) (ops : List Word) (reserve : State → State × Dst)
    (hr : ∀ s, MemoryInv s → MemoryInv (reserve s).fst) (h : MemoryInv s) :
    MemoryInv (State.sendCmd s q dm ops reserve) := by
  unfold State.sendCmd
  exact keeps_enqueue _ _ _ _ (hr _ (keeps_bump _ (keeps_consume _ _ h)))

theorem keeps_noResult_fst {s : State} (h : MemoryInv s) : MemoryInv (noResult s).fst := by
  unfold noResult
  try dsimp only
  repeat' first
    | with_reducible first
      | assumption
    | dsimp only

theorem keeps_noResult {s : State} {t : State} {x : Dst} (h : MemoryInv s) (e : noResult s = (t, x)) :
    MemoryInv t := by
  have := show MemoryInv (noResult s).fst from keeps_noResult_fst h
  rw [e] at this
  exact this

theorem keeps_toPort_fst {c : Code} {n : Nat} {s : State} (h : MemoryInv s) : MemoryInv (toPort c n s).fst := by
  unfold toPort
  try dsimp only
  repeat' first
    | with_reducible first
      | assumption | refine keeps_reserveDst ?_ (by assumption) | apply keeps_reserveDst_fst
    | dsimp only

theorem keeps_toPort {c : Code} {n : Nat} {s : State} {t : State} {x : Dst} (h : MemoryInv s) (e : toPort c n s
    = (t, x)) :
    MemoryInv t := by
  have := show MemoryInv (toPort c n s).fst from keeps_toPort_fst h
  rw [e] at this
  exact this

theorem keeps_execMxLd (o : EOp) (s : State) (h : MemoryInv s) : Keeps (execMxLd o s) := by
  unfold execMxLd
  try dsimp only
  repeat' first
    | with_reducible first
      | assumption | apply keeps_next | refine keeps_sendCmd _ _ _ _ _ (fun _ _ => ?_) ?_
      | refine keeps_noResult ?_ (by assumption) | apply keeps_noResult_fst
      | refine keeps_fire _ _ _ _ ?_ (fun _ => ?_) | refine keeps_fireOp _ _ ?_ (fun _ => ?_)
    | dsimp only

theorem keeps_execMxRule (o : EOp) (s : State) (h : MemoryInv s) : Keeps (execMxRule o s) := by
  unfold execMxRule
  try dsimp only
  repeat' first
    | with_reducible first
      | assumption | apply keeps_next | refine keeps_sendCmd _ _ _ _ _ (fun _ _ => ?_) ?_
      | refine keeps_noResult ?_ (by assumption) | apply keeps_noResult_fst
      | refine keeps_fire _ _ _ _ ?_ (fun _ => ?_) | refine keeps_fireOp _ _ ?_ (fun _ => ?_)
    | dsimp only

theorem keeps_execMxZero (o : EOp) (s : State) (h : MemoryInv s) : Keeps (execMxZero o s) := by
  unfold execMxZero
  try dsimp only
  repeat' first
    | with_reducible first
      | assumption | apply keeps_next | refine keeps_sendCmd _ _ _ _ _ (fun _ _ => ?_) ?_
      | refine keeps_noResult ?_ (by assumption) | apply keeps_noResult_fst
      | refine keeps_fire _ _ _ _ ?_ (fun _ => ?_) | refine keeps_fireOp _ _ ?_ (fun _ => ?_)
    | dsimp only

theorem keeps_execMxRead (o : EOp) (s : State) (h : MemoryInv s) : Keeps (execMxRead o s) := by
  unfold execMxRead
  try dsimp only
  repeat' first
    | with_reducible first
      | assumption | apply keeps_next | refine keeps_iteO (fun _ => ?_) (fun _ => ?_)
      | refine keeps_sendCmd _ _ _ _ _ (fun _ _ => ?_) ?_ | refine keeps_toPort ?_ (by assumption)
      | apply keeps_toPort_fst | refine keeps_fire _ _ _ _ ?_ (fun _ => ?_)
      | refine keeps_fireOp _ _ ?_ (fun _ => ?_) | refine keeps_ite (fun _ => ?_) (fun _ => ?_)
    | split | dsimp only

theorem keeps_execMxDrain (o : EOp) (s : State) (h : MemoryInv s) : Keeps (execMxDrain o s) := by
  unfold execMxDrain
  try dsimp only
  repeat' first
    | with_reducible first
      | assumption | apply keeps_next | refine keeps_sendCmd _ _ _ _ _ (fun _ _ => ?_) ?_
      | refine keeps_toPort ?_ (by assumption) | apply keeps_toPort_fst | refine keeps_fire _ _ _ _ ?_ (fun _ => ?_)
      | refine keeps_fireOp _ _ ?_ (fun _ => ?_)
    | dsimp only

theorem keeps_execMseqGemm (o : EOp) (s : State) (h : MemoryInv s) : Keeps (execMseqGemm o s) := by
  unfold execMseqGemm
  try dsimp only
  repeat' first
    | with_reducible first
      | assumption | apply keeps_next | refine keeps_sendCmd _ _ _ _ _ (fun _ _ => ?_) ?_
      | refine keeps_toPort ?_ (by assumption) | apply keeps_toPort_fst | refine keeps_fire _ _ _ _ ?_ (fun _ => ?_)
      | refine keeps_fireOp _ _ ?_ (fun _ => ?_)
    | dsimp only

theorem keeps_execMseqConv (o : EOp) (s : State) (h : MemoryInv s) : Keeps (execMseqConv o s) := by
  unfold execMseqConv
  try dsimp only
  repeat' first
    | with_reducible first
      | assumption | apply keeps_next | refine keeps_sendCmd _ _ _ _ _ (fun _ _ => ?_) ?_
      | refine keeps_toPort ?_ (by assumption) | apply keeps_toPort_fst | refine keeps_fire _ _ _ _ ?_ (fun _ => ?_)
      | refine keeps_fireOp _ _ ?_ (fun _ => ?_)
    | dsimp only

theorem keeps_execMseqStop (o : EOp) (s : State) (h : MemoryInv s) : Keeps (execMseqStop o s) := by
  unfold execMseqStop
  try dsimp only
  repeat' first
    | with_reducible first
      | assumption | apply keeps_next | apply keeps_updCore | refine keeps_fire _ _ _ _ ?_ (fun _ => ?_)
      | refine keeps_fireOp _ _ ?_ (fun _ => ?_)
    | (simp only [keeps_mk]; change MemoryInv _) | dsimp only

theorem keeps_sysLatch (s : State) (k n : Nat) (h : MemoryInv s) : MemoryInv (State.sysLatch s k n) := by
  unfold State.sysLatch
  try dsimp only
  repeat' first
    | with_reducible first
      | assumption | apply keeps_updElem | apply keeps_latchReg | refine keeps_ite (fun _ => ?_) (fun _ => ?_)
    | split | (simp only [keeps_mk]; change MemoryInv _) | dsimp only

theorem keeps_stopSpur (s : State) (k slot handler : Nat) (word ext : Word) (step : BitVec 64) (code addr :
    Nat) (h : MemoryInv s) :
    MemoryInv (State.stopSpur s k slot handler word ext step code addr) := by
  unfold State.stopSpur
  try dsimp only
  repeat' first
    | with_reducible first
      | assumption | apply keeps_raiseAt | refine keeps_ite (fun _ => ?_) (fun _ => ?_)
    | split | (simp only [keeps_mk]; change MemoryInv _) | dsimp only

theorem keeps_stopAfter (s : State) (code addr : Nat) (h : MemoryInv s) :
    MemoryInv (State.stopAfter s code addr) := by
  unfold State.stopAfter
  try dsimp only
  repeat' first
    | with_reducible first
      | assumption | apply keeps_stopSpur
    | split | (simp only [keeps_mk]; change MemoryInv _) | dsimp only

theorem keeps_cfgWrite (s : State) (k : Nat) (t v : Word) (h : MemoryInv s) : MemoryInv (State.cfgWrite s k t v) := by
  unfold State.cfgWrite
  try dsimp only
  repeat' first
    | with_reducible first
      | assumption | apply keeps_updElem | refine keeps_ite (fun _ => ?_) (fun _ => ?_)
    | split | (simp only [keeps_mk]; change MemoryInv _) | dsimp only

theorem keeps_startLease (s : State) (k : Nat) (w : Word) (us : Nat) (h : MemoryInv s) :
    MemoryInv (State.startLease s k w us) := by
  unfold State.startLease
  try dsimp only
  repeat' first
    | with_reducible first
      | assumption | apply keeps_updCluster | apply keeps_retargetNow | apply keeps_settleMeter
      | refine keeps_ite (fun _ => ?_) (fun _ => ?_)
    | split | (simp only [keeps_mk]; change MemoryInv _) | dsimp only

theorem keeps_execSysRd (o : SOp) (s : State) (h : MemoryInv s) : Keeps (execSysRd o s) := by
  unfold execSysRd
  try dsimp only
  repeat' first
    | with_reducible first
      | assumption | apply keeps_next | refine keeps_iteO (fun _ => ?_) (fun _ => ?_) | apply keeps_addReq
      | refine keeps_reserveDst ?_ (by assumption) | apply keeps_reserveDst_fst | apply keeps_wr
      | apply keeps_sysLatch | refine keeps_fire _ _ _ _ ?_ (fun _ => ?_) | refine keeps_fireOp _ _ ?_ (fun _ => ?_)
      | refine keeps_ite (fun _ => ?_) (fun _ => ?_)
    | split | (simp only [keeps_mk]; change MemoryInv _) | dsimp only

theorem keeps_execSysWr (o : SOp) (s : State) (h : MemoryInv s) : Keeps (execSysWr o s) := by
  unfold execSysWr
  try dsimp only
  repeat' first
    | with_reducible first
      | assumption | apply keeps_next | refine keeps_iteO (fun _ => ?_) (fun _ => ?_) | apply keeps_updMe
      | apply keeps_consume | apply keeps_writeReg | refine keeps_fire _ _ _ _ ?_ (fun _ => ?_)
      | refine keeps_fireOp _ _ ?_ (fun _ => ?_) | refine keeps_ite (fun _ => ?_) (fun _ => ?_)
    | split | (simp only [keeps_mk]; change MemoryInv _) | dsimp only

theorem keeps_execNop (o : EOp) (s : State) (h : MemoryInv s) : Keeps (execNop o s) := by
  unfold execNop
  try dsimp only
  repeat' first
    | with_reducible first
      | assumption | apply keeps_next | refine keeps_fire _ _ _ _ ?_ (fun _ => ?_)
      | refine keeps_fireOp _ _ ?_ (fun _ => ?_)
    | dsimp only

theorem keeps_endWaiting (s : State) (p : Spur) (h : MemoryInv s) : MemoryInv (State.endWaiting s p) := by
  unfold State.endWaiting
  try dsimp only
  repeat' first
    | with_reducible first
      | assumption | apply keeps_updCluster | refine keeps_ite (fun _ => ?_) (fun _ => ?_)
    | split | (simp only [keeps_mk]; change MemoryInv _) | dsimp only

theorem keeps_execHalt (o : EOp) (s : State) (h : MemoryInv s) : Keeps (execHalt o s) := by
  unfold execHalt
  try dsimp only
  repeat' first
    | with_reducible first
      | assumption | apply keeps_next | apply keeps_updCore | apply keeps_updSpur | apply keeps_endWaiting
      | refine keeps_fire _ _ _ _ ?_ (fun _ => ?_) | refine keeps_fireOp _ _ ?_ (fun _ => ?_)
      | refine foldl_keeps _ _ _ ?_ fun _ _ _ => ?_ | refine foldl_keeps_fst _ _ _ ?_ fun _ _ _ => ?_
    | split | (simp only [keeps_mk]; change MemoryInv _) | dsimp only

theorem keeps_execTrap (o : EOp) (s : State) (h : MemoryInv s) : Keeps (execTrap o s) := by
  unfold execTrap
  try dsimp only
  repeat' first
    | with_reducible first
      | assumption | apply keeps_next | apply keeps_consume | apply keeps_stopAfter
      | refine keeps_fire _ _ _ _ ?_ (fun _ => ?_) | refine keeps_fireOp _ _ ?_ (fun _ => ?_)
    | dsimp only

theorem keeps_execBrk (o : EOp) (s : State) (h : MemoryInv s) : Keeps (execBrk o s) := by
  unfold execBrk
  try dsimp only
  repeat' first
    | with_reducible first
      | assumption | apply keeps_next | refine keeps_iteO (fun _ => ?_) (fun _ => ?_) | apply keeps_stopAfter
      | refine keeps_fire _ _ _ _ ?_ (fun _ => ?_) | refine keeps_fireOp _ _ ?_ (fun _ => ?_)
      | refine keeps_ite (fun _ => ?_) (fun _ => ?_)
    | split | dsimp only

theorem keeps_execStep (o : EOp) (s : State) (h : MemoryInv s) : Keeps (execStep o s) := by
  unfold execStep
  try dsimp only
  repeat' first
    | with_reducible first
      | assumption | apply keeps_next | refine keeps_iteO (fun _ => ?_) (fun _ => ?_) | apply keeps_updMe
      | apply keeps_consume | refine keeps_fire _ _ _ _ ?_ (fun _ => ?_) | refine keeps_fireOp _ _ ?_ (fun _ => ?_)
      | refine keeps_ite (fun _ => ?_) (fun _ => ?_)
    | split | (simp only [keeps_mk]; change MemoryInv _) | dsimp only

theorem keeps_execLeaseReq (o : EOp) (s : State) (h : MemoryInv s) : Keeps (execLeaseReq o s) := by
  unfold execLeaseReq
  try dsimp only
  repeat' first
    | with_reducible first
      | assumption | apply keeps_next | apply keeps_addReq | refine keeps_reserveDst ?_ (by assumption)
      | apply keeps_reserveDst_fst | apply keeps_consume | apply keeps_startLease
      | refine keeps_fire _ _ _ _ ?_ (fun _ => ?_) | refine keeps_fireOp _ _ ?_ (fun _ => ?_)
    | split | (simp only [keeps_mk]; change MemoryInv _) | dsimp only

theorem keeps_execLeaseRel (o : EOp) (s : State) (h : MemoryInv s) : Keeps (execLeaseRel o s) := by
  unfold execLeaseRel
  try dsimp only
  repeat' first
    | with_reducible first
      | assumption | apply keeps_next | refine keeps_iteO (fun _ => ?_) (fun _ => ?_) | apply keeps_endLease
      | refine keeps_fire _ _ _ _ ?_ (fun _ => ?_) | refine keeps_fireOp _ _ ?_ (fun _ => ?_)
      | refine keeps_ite (fun _ => ?_) (fun _ => ?_)
    | split | dsimp only

theorem keeps_execCfgWr (o : EOp) (s : State) (h : MemoryInv s) : Keeps (execCfgWr o s) := by
  unfold execCfgWr
  try dsimp only
  repeat' first
    | with_reducible first
      | assumption | apply keeps_next | apply keeps_cfgWrite | refine keeps_fire _ _ _ _ ?_ (fun _ => ?_)
      | refine keeps_fireOp _ _ ?_ (fun _ => ?_)
    | dsimp only

theorem keeps_updMx (s : State) (core : Nat) (f : Matrix → Matrix) (h : MemoryInv s) :
    MemoryInv (State.updMx s core f) := by
  unfold State.updMx
  try dsimp only
  repeat' first
    | with_reducible first
      | assumption | apply keeps_updCore
    | (simp only [keeps_mk]; change MemoryInv _) | dsimp only

theorem keeps_updTile (s : State) (core t : Nat) (f : Tile → Tile) (h : MemoryInv s) :
    MemoryInv (State.updTile s core t f) := by
  unfold State.updTile
  try dsimp only
  repeat' first
    | with_reducible first
      | assumption | apply keeps_updMx
    | (simp only [keeps_mk]; change MemoryInv _) | dsimp only

theorem keeps_emptyTile (s : State) (core t : Nat) (h : MemoryInv s) : MemoryInv (State.emptyTile s core t) := by
  unfold State.emptyTile
  try dsimp only
  repeat' first
    | with_reducible first
      | assumption | apply keeps_updTile
    | (simp only [keeps_mk]; change MemoryInv _) | dsimp only

theorem keeps_fillTile (s : State) (core t : Nat) (h : MemoryInv s) : MemoryInv (State.fillTile s core t) := by
  unfold State.fillTile
  try dsimp only
  repeat' first
    | with_reducible first
      | assumption | apply keeps_updTile | apply keeps_emptyTile | refine keeps_ite (fun _ => ?_) (fun _ => ?_)
    | split | (simp only [keeps_mk]; change MemoryInv _) | dsimp only

theorem keeps_sendRows (s : State) (core t : Nat) (h : MemoryInv s) : MemoryInv (State.sendRows s core t) := by
  unfold State.sendRows
  try dsimp only
  repeat' first
    | with_reducible first
      | assumption | apply keeps_addReq | refine foldl_keeps _ _ _ ?_ fun _ _ _ => ?_
      | refine foldl_keeps_fst _ _ _ ?_ fun _ _ _ => ?_
    | split | (simp only [keeps_mk]; change MemoryInv _) | dsimp only

theorem keeps_issueTile (s : State) (core t : Nat) (h : MemoryInv s) : MemoryInv (State.issueTile s core t) := by
  unfold State.issueTile
  try dsimp only
  repeat' first
    | with_reducible first
      | assumption | apply keeps_bump | apply keeps_lateFault | apply keeps_fillTile | apply keeps_sendRows
      | refine keeps_ite (fun _ => ?_) (fun _ => ?_)
    | split | (simp only [keeps_mk]; change MemoryInv _) | dsimp only

theorem keeps_startTile (s : State) (core t : Nat) (scratch : Bool) (addrs : List (Option Nat)) (c : Cmd) (h :
    MemoryInv s) :
    MemoryInv (State.startTile s core t scratch addrs c) := by
  unfold State.startTile
  try dsimp only
  repeat' first
    | with_reducible first
      | assumption | apply keeps_updMx | apply keeps_updTile | apply keeps_issueTile
      | refine foldl_keeps _ _ _ ?_ fun _ _ _ => ?_ | refine foldl_keeps_fst _ _ _ ?_ fun _ _ _ => ?_
    | (simp only [keeps_mk]; change MemoryInv _) | dsimp only

theorem keeps_putRow (s : State) (core t i : Nat) (bs : List Byte) (h : MemoryInv s) :
    MemoryInv (State.putRow s core t i bs) := by
  unfold State.putRow
  try dsimp only
  repeat' first
    | with_reducible first
      | assumption | apply keeps_updTile
    | (simp only [keeps_mk]; change MemoryInv _) | dsimp only

theorem keeps_bindTile (s : State) (r : Req) (k core t i : Nat) (h : MemoryInv s) :
    MemoryInv (State.bindTile s r k core t i) := by
  unfold State.bindTile
  try dsimp only
  repeat' first
    | with_reducible first
      | assumption | apply keeps_dropReq | apply keeps_noteLine | apply keeps_fillSector | apply keeps_lateFault
      | apply keeps_updTile | apply keeps_putRow | refine keeps_ite (fun _ => ?_) (fun _ => ?_)
    | split | (simp only [keeps_mk]; change MemoryInv _) | dsimp only

theorem keeps_execTileFillComplete (s : State) (h : MemoryInv s) : Keeps (execTileFillComplete s) := by
  unfold execTileFillComplete
  try dsimp only
  repeat' first
    | with_reducible first
      | assumption | apply keeps_next | refine keeps_iteO (fun _ => ?_) (fun _ => ?_) | apply keeps_fillTile
      | refine keeps_ite (fun _ => ?_) (fun _ => ?_)
    | split | dsimp only

theorem keeps_execPinRelease (s : State) (h : MemoryInv s) : Keeps (execPinRelease s) := by
  unfold execPinRelease
  try dsimp only
  repeat' first
    | with_reducible first
      | assumption | apply keeps_next | refine keeps_iteO (fun _ => ?_) (fun _ => ?_) | apply keeps_updTile
      | refine keeps_ite (fun _ => ?_) (fun _ => ?_)
    | split | (simp only [keeps_mk]; change MemoryInv _) | dsimp only

theorem keeps_execPinHoldTimeout (s : State) (h : MemoryInv s) : Keeps (execPinHoldTimeout s) := by
  unfold execPinHoldTimeout
  try dsimp only
  repeat' first
    | with_reducible first
      | assumption | apply keeps_next | refine keeps_iteO (fun _ => ?_) (fun _ => ?_) | apply keeps_stopSpur
      | refine keeps_ite (fun _ => ?_) (fun _ => ?_)
    | split | dsimp only

theorem keeps_opFault (s : State) (core t code addr : Nat) (h : MemoryInv s) :
    MemoryInv (State.opFault s core t code addr) := by
  unfold State.opFault
  try dsimp only
  repeat' first
    | with_reducible first
      | assumption | apply keeps_bump | apply keeps_lateFault | apply keeps_updTile
      | refine foldl_keeps _ _ _ ?_ fun _ _ _ => ?_ | refine foldl_keeps_fst _ _ _ ?_ fun _ _ _ => ?_
    | (simp only [keeps_mk]; change MemoryInv _) | dsimp only

theorem keeps_consumeTile (s : State) (core t n : Nat) (h : MemoryInv s) :
    MemoryInv (State.consumeTile s core t n) := by
  unfold State.consumeTile
  try dsimp only
  repeat' first
    | with_reducible first
      | assumption | apply keeps_updTile | apply keeps_emptyTile | refine keeps_ite (fun _ => ?_) (fun _ => ?_)
    | split | (simp only [keeps_mk]; change MemoryInv _) | dsimp only

theorem keeps_operateMx (s : State) (core n : Nat) (h : MemoryInv s) : MemoryInv (State.operateMx s core n) := by
  unfold State.operateMx
  try dsimp only
  repeat' first
    | with_reducible first
      | assumption | apply keeps_updMx | apply keeps_opFault | apply keeps_consumeTile
      | refine keeps_ite (fun _ => ?_) (fun _ => ?_)
    | split | (simp only [keeps_mk]; change MemoryInv _) | dsimp only

theorem keeps_operateError (s : State) (core n : Nat) (h : MemoryInv s) :
    MemoryInv (State.operateError s core n) := by
  unfold State.operateError
  try dsimp only
  repeat' first
    | with_reducible first
      | assumption | apply keeps_countPreg | apply keeps_updMx | apply keeps_opFault | apply keeps_operateMx
      | refine keeps_ite (fun _ => ?_) (fun _ => ?_)
    | split | (simp only [keeps_mk]; change MemoryInv _) | dsimp only

theorem keeps_execMatrixOperation (s : State) (h : MemoryInv s) : Keeps (execMatrixOperation s) := by
  unfold execMatrixOperation
  try dsimp only
  repeat' first
    | with_reducible first
      | assumption | apply keeps_next | apply keeps_storageError | apply keeps_operateError
    | split | (simp only [keeps_mk]; change MemoryInv _) | dsimp only

theorem keeps_answerCmd (s : State) (c : Cmd) (ws : List Word) (h : MemoryInv s) :
    MemoryInv (State.answerCmd s c ws) := by
  unfold State.answerCmd
  try dsimp only
  repeat' first
    | with_reducible first
      | assumption | apply keeps_addReq
    | (simp only [keeps_mk]; change MemoryInv _) | dsimp only

theorem keeps_startDrain (s : State) (core acc : Nat) (c : Cmd) (h : MemoryInv s) :
    MemoryInv (State.startDrain s core acc c) := by
  unfold State.startDrain
  try dsimp only
  repeat' first
    | with_reducible first
      | assumption | apply keeps_cmdFault | apply keeps_updMx | refine keeps_ite (fun _ => ?_) (fun _ => ?_)
    | split | (simp only [keeps_mk]; change MemoryInv _) | dsimp only

theorem keeps_drainRow (s : State) (core : Nat) (c : Cmd) (r : Nat) (h : MemoryInv s) :
    MemoryInv (State.drainRow s core c r) := by
  unfold State.drainRow
  try dsimp only
  repeat' first
    | with_reducible first
      | assumption | apply keeps_addReq | apply keeps_updMx | refine foldl_keeps _ _ _ ?_ fun _ _ _ => ?_
      | refine foldl_keeps_fst _ _ _ ?_ fun _ _ _ => ?_ | refine keeps_ite (fun _ => ?_) (fun _ => ?_)
    | split | (simp only [keeps_mk]; change MemoryInv _) | dsimp only

theorem keeps_landDrain (s : State) (r : Req) (k : Nat) (h : MemoryInv s) : MemoryInv (State.landDrain s r k) := by
  unfold State.landDrain
  try dsimp only
  repeat' first
    | with_reducible first
      | assumption | apply keeps_updReq | apply keeps_dropReq | apply keeps_scratchWrite | apply keeps_landAt
      | refine keeps_ite (fun _ => ?_) (fun _ => ?_)
    | split | (simp only [keeps_mk]; change MemoryInv _) | dsimp only

theorem keeps_execMatrixDrainDone (s : State) (h : MemoryInv s) : Keeps (execMatrixDrainDone s) := by
  unfold execMatrixDrainDone
  try dsimp only
  repeat' first
    | with_reducible first
      | assumption | apply keeps_next | refine keeps_iteO (fun _ => ?_) (fun _ => ?_) | apply keeps_release
      | apply keeps_updMx | apply keeps_answerCmd | refine keeps_ite (fun _ => ?_) (fun _ => ?_)
    | split | (simp only [keeps_mk]; change MemoryInv _) | dsimp only

theorem keeps_popCmd (s : State) (core : Nat) (h : MemoryInv s) : MemoryInv (State.popCmd s core) := by
  unfold State.popCmd
  try dsimp only
  repeat' first
    | with_reducible first
      | assumption | apply keeps_updMx
    | (simp only [keeps_mk]; change MemoryInv _) | dsimp only

theorem keeps_startSeq (s : State) (core : Nat) (conv : Bool) (c : Cmd) (h : MemoryInv s) :
    MemoryInv (State.startSeq s core conv c) := by
  unfold State.startSeq
  try dsimp only
  repeat' first
    | with_reducible first
      | assumption | apply keeps_cmdFault | apply keeps_updMx | refine keeps_ite (fun _ => ?_) (fun _ => ?_)
    | split | (simp only [keeps_mk]; change MemoryInv _) | dsimp only

theorem keeps_seqCommand (s : State) (core : Nat) (q : Seq) (h : MemoryInv s) :
    MemoryInv (State.seqCommand s core q) := by
  unfold State.seqCommand
  try dsimp only
  repeat' first
    | with_reducible first
      | assumption | apply keeps_updMx | apply keeps_startTile | refine keeps_ite (fun _ => ?_) (fun _ => ?_)
    | split | (simp only [keeps_mk]; change MemoryInv _) | dsimp only

theorem keeps_headCommand (s : State) (core : Nat) (c : Cmd) (h : MemoryInv s) :
    MemoryInv (State.headCommand s core c) := by
  unfold State.headCommand
  try dsimp only
  repeat' first
    | with_reducible first
      | assumption | apply keeps_cmdFault | apply keeps_updMx | apply keeps_startTile | apply keeps_answerCmd
      | apply keeps_startDrain | apply keeps_popCmd | apply keeps_startSeq | refine keeps_getD ?_ ?_
      | refine keeps_ite (fun _ => ?_) (fun _ => ?_)
    | split | (simp only [keeps_mk]; change MemoryInv _) | dsimp only

theorem keeps_readError (s : State) (core : Nat) (c : Cmd) (h : MemoryInv s) :
    MemoryInv (State.readError s core c) := by
  unfold State.readError
  try dsimp only
  repeat' first
    | with_reducible first
      | assumption | apply keeps_countPreg | apply keeps_updMx | refine keeps_ite (fun _ => ?_) (fun _ => ?_)
    | split | (simp only [keeps_mk]; change MemoryInv _) | dsimp only

theorem keeps_execMatrixCommandTake (s : State) (h : MemoryInv s) : Keeps (execMatrixCommandTake s) := by
  unfold execMatrixCommandTake
  try dsimp only
  repeat' first
    | with_reducible first
      | assumption | apply keeps_next | refine keeps_iteO (fun _ => ?_) (fun _ => ?_) | apply keeps_storageError
      | apply keeps_drainRow | apply keeps_seqCommand | apply keeps_headCommand | apply keeps_readError
      | refine keeps_ite (fun _ => ?_) (fun _ => ?_)
    | split | (simp only [keeps_mk]; change MemoryInv _) | dsimp only

theorem keeps_execMseqKblockBoundary (s : State) (h : MemoryInv s) : Keeps (execMseqKblockBoundary s) := by
  unfold execMseqKblockBoundary
  try dsimp only
  repeat' first
    | with_reducible first
      | assumption | apply keeps_next | refine keeps_iteO (fun _ => ?_) (fun _ => ?_) | apply keeps_updMx
      | apply keeps_answerCmd | refine keeps_ite (fun _ => ?_) (fun _ => ?_)
    | split | (simp only [keeps_mk]; change MemoryInv _) | dsimp only

theorem keeps_bindLoadAt (s : State) (r : Req) (k : Nat) (h : MemoryInv s) : MemoryInv (State.bindLoadAt s r k) := by
  unfold State.bindLoadAt
  try dsimp only
  repeat' first
    | with_reducible first
      | assumption | refine keeps_of_some (keeps_joinReplay _ _ ?_) (by assumption) | refine keeps_joinReplay _ _ ?_
      | apply keeps_bindLoad | apply keeps_bindScratch | refine keeps_getD ?_ ?_
      | refine keeps_ite (fun _ => ?_) (fun _ => ?_)
    | split | dsimp only

theorem keeps_bindReq (s : State) (r : Req) (h : MemoryInv s) : MemoryInv (State.bindReq s r) := by
  unfold State.bindReq
  try dsimp only
  repeat' first
    | with_reducible first
      | assumption | apply keeps_storageError | apply keeps_bindPrefetch | apply keeps_bindChainPut
      | apply keeps_readFiring | apply keeps_bindTile | apply keeps_bindLoadAt
      | refine keeps_ite (fun _ => ?_) (fun _ => ?_)
    | split | (simp only [keeps_mk]; change MemoryInv _) | dsimp only

theorem keeps_execReadBinding (s : State) (h : MemoryInv s) : Keeps (execReadBinding s) := by
  unfold execReadBinding
  try dsimp only
  repeat' first
    | with_reducible first
      | assumption | apply keeps_next | apply keeps_bindReq | apply keeps_softError
    | split | (simp only [keeps_mk]; change MemoryInv _) | dsimp only

theorem keeps_landSignal (s : State) (r : Req) (n : Nat) (h : MemoryInv s) : MemoryInv (State.landSignal s r n) := by
  unfold State.landSignal
  try dsimp only
  repeat' first
    | with_reducible first
      | assumption | apply keeps_dropReq | apply keeps_setSignal | apply keeps_release
      | refine keeps_ite (fun _ => ?_) (fun _ => ?_)
    | split | dsimp only

theorem keeps_landReq (s : State) (r : Req) (h : MemoryInv s) : MemoryInv (State.landReq s r) := by
  unfold State.landReq
  try dsimp only
  repeat' first
    | with_reducible first
      | assumption | apply keeps_dropReq | apply keeps_stopTemplate | apply keeps_landStore | apply keeps_landFiring
      | apply keeps_landDrain | apply keeps_landSignal | refine keeps_ite (fun _ => ?_) (fun _ => ?_)
    | split | (simp only [keeps_mk]; change MemoryInv _) | dsimp only

theorem keeps_execWriteLanding (s : State) (h : MemoryInv s) : Keeps (execWriteLanding s) := by
  unfold execWriteLanding
  try dsimp only
  repeat' first
    | with_reducible first
      | assumption | apply keeps_next | apply keeps_landReq
    | split | (simp only [keeps_mk]; change MemoryInv _) | dsimp only

theorem keeps_reduce (s : State) (o : ROp) (cs : List Code) (first : Word → Word → Word) (step : Word → Word →
    Word → Word) (h : MemoryInv s) :
    MemoryInv (State.reduce s o cs first step) := by
  unfold State.reduce
  try dsimp only
  repeat' first
    | with_reducible first
      | assumption | apply keeps_consume | apply keeps_wr | refine keeps_ite (fun _ => ?_) (fun _ => ?_)
    | split | dsimp only

theorem keeps_argBest (s : State) (t : BitVec 1) (o : ROp) (better : Word → Word → Bool) (h : MemoryInv s) :
    MemoryInv (State.argBest s t o better) := by
  unfold State.argBest
  try dsimp only
  repeat' first
    | with_reducible first
      | assumption | apply keeps_updMe | apply keeps_consume | refine keeps_ite (fun _ => ?_) (fun _ => ?_)
    | split | dsimp only

theorem keeps_scan (s : State) (t : BitVec 1) (o : ROp) (h : MemoryInv s) : MemoryInv (State.scan s t o) := by
  unfold State.scan
  try dsimp only
  repeat' first
    | with_reducible first
      | assumption | apply keeps_updMe | apply keeps_consume | apply keeps_wr
      | refine keeps_ite (fun _ => ?_) (fun _ => ?_)
    | split | (simp only [keeps_mk]; change MemoryInv _) | dsimp only

theorem keeps_execVsum (o : ROp) (t : BitVec 1) (s : State) (h : MemoryInv s) : Keeps (execVsum o t s) := by
  unfold execVsum
  try dsimp only
  repeat' first
    | with_reducible first
      | assumption | apply keeps_next | apply keeps_reduce | refine keeps_fire _ _ _ _ ?_ (fun _ => ?_)
      | refine keeps_fireOp _ _ ?_ (fun _ => ?_)
    | dsimp only

theorem keeps_execVdot (o : ROp) (t : BitVec 1) (s : State) (h : MemoryInv s) : Keeps (execVdot o t s) := by
  unfold execVdot
  try dsimp only
  repeat' first
    | with_reducible first
      | assumption | apply keeps_next | refine keeps_iteO (fun _ => ?_) (fun _ => ?_) | apply keeps_reduce
      | refine keeps_fire _ _ _ _ ?_ (fun _ => ?_) | refine keeps_fireOp _ _ ?_ (fun _ => ?_)
      | refine keeps_ite (fun _ => ?_) (fun _ => ?_)
    | split | dsimp only

theorem keeps_execVmax (o : ROp) (t : BitVec 1) (s : State) (h : MemoryInv s) : Keeps (execVmax o t s) := by
  unfold execVmax
  try dsimp only
  repeat' first
    | with_reducible first
      | assumption | apply keeps_next | apply keeps_reduce | refine keeps_fire _ _ _ _ ?_ (fun _ => ?_)
      | refine keeps_fireOp _ _ ?_ (fun _ => ?_)
    | dsimp only

theorem keeps_execVmin (o : ROp) (t : BitVec 1) (s : State) (h : MemoryInv s) : Keeps (execVmin o t s) := by
  unfold execVmin
  try dsimp only
  repeat' first
    | with_reducible first
      | assumption | apply keeps_next | apply keeps_reduce | refine keeps_fire _ _ _ _ ?_ (fun _ => ?_)
      | refine keeps_fireOp _ _ ?_ (fun _ => ?_)
    | dsimp only

theorem keeps_execVargmax (o : ROp) (t : BitVec 1) (s : State) (h : MemoryInv s) : Keeps (execVargmax o t s) := by
  unfold execVargmax
  try dsimp only
  repeat' first
    | with_reducible first
      | assumption | apply keeps_next | apply keeps_argBest | refine keeps_fire _ _ _ _ ?_ (fun _ => ?_)
      | refine keeps_fireOp _ _ ?_ (fun _ => ?_)
    | dsimp only

theorem keeps_execVargmin (o : ROp) (t : BitVec 1) (s : State) (h : MemoryInv s) : Keeps (execVargmin o t s) := by
  unfold execVargmin
  try dsimp only
  repeat' first
    | with_reducible first
      | assumption | apply keeps_next | apply keeps_argBest | refine keeps_fire _ _ _ _ ?_ (fun _ => ?_)
      | refine keeps_fireOp _ _ ?_ (fun _ => ?_)
    | dsimp only

theorem keeps_execVscan (o : ROp) (t : BitVec 1) (s : State) (h : MemoryInv s) : Keeps (execVscan o t s) := by
  unfold execVscan
  try dsimp only
  repeat' first
    | with_reducible first
      | assumption | apply keeps_next | apply keeps_scan | refine keeps_fire _ _ _ _ ?_ (fun _ => ?_)
      | refine keeps_fireOp _ _ ?_ (fun _ => ?_)
    | dsimp only

theorem keeps_execVpack (o : ROp) (t : BitVec 1) (s : State) (h : MemoryInv s) : Keeps (execVpack o t s) := by
  unfold execVpack
  try dsimp only
  repeat' first
    | with_reducible first
      | assumption | apply keeps_next | refine keeps_iteO (fun _ => ?_) (fun _ => ?_) | apply keeps_bin
      | refine keeps_fire _ _ _ _ ?_ (fun _ => ?_) | refine keeps_fireOp _ _ ?_ (fun _ => ?_)
      | refine keeps_ite (fun _ => ?_) (fun _ => ?_)
    | split | dsimp only

theorem keeps_execVunpack (o : ROp) (t : BitVec 1) (s : State) (h : MemoryInv s) : Keeps (execVunpack o t s) := by
  unfold execVunpack
  try dsimp only
  repeat' first
    | with_reducible first
      | assumption | apply keeps_next | refine keeps_iteO (fun _ => ?_) (fun _ => ?_) | apply keeps_bin
      | refine keeps_fire _ _ _ _ ?_ (fun _ => ?_) | refine keeps_fireOp _ _ ?_ (fun _ => ?_)
      | refine keeps_ite (fun _ => ?_) (fun _ => ?_)
    | split | dsimp only

theorem keeps_execVcount (o : ROp) (t : BitVec 1) (s : State) (h : MemoryInv s) : Keeps (execVcount o t s) := by
  unfold execVcount
  try dsimp only
  repeat' first
    | with_reducible first
      | assumption | apply keeps_next | apply keeps_reduce | refine keeps_fire _ _ _ _ ?_ (fun _ => ?_)
      | refine keeps_fireOp _ _ ?_ (fun _ => ?_)
    | dsimp only

theorem keeps_chainOp (s : State) (o : ROp) (f : Word → Word → Carry → Word × Carry) (h : MemoryInv s) :
    MemoryInv (State.chainOp s o f) := by
  unfold State.chainOp
  try dsimp only
  repeat' first
    | with_reducible first
      | assumption | apply keeps_takeCarry | apply keeps_consume | apply keeps_wr | apply keeps_writeCo
    | dsimp only

theorem keeps_execAddc (o : ROp) (s : State) (h : MemoryInv s) : Keeps (execAddc o s) := by
  unfold execAddc
  try dsimp only
  repeat' first
    | with_reducible first
      | assumption | apply keeps_next | apply keeps_chainOp | refine keeps_fire _ _ _ _ ?_ (fun _ => ?_)
      | refine keeps_fireOp _ _ ?_ (fun _ => ?_)
    | dsimp only

theorem keeps_execSubc (o : ROp) (s : State) (h : MemoryInv s) : Keeps (execSubc o s) := by
  unfold execSubc
  try dsimp only
  repeat' first
    | with_reducible first
      | assumption | apply keeps_next | apply keeps_chainOp | refine keeps_fire _ _ _ _ ?_ (fun _ => ?_)
      | refine keeps_fireOp _ _ ?_ (fun _ => ?_)
    | dsimp only

theorem keeps_execMulc (o : ROp) (s : State) (h : MemoryInv s) : Keeps (execMulc o s) := by
  unfold execMulc
  try dsimp only
  repeat' first
    | with_reducible first
      | assumption | apply keeps_next | apply keeps_chainOp | refine keeps_fire _ _ _ _ ?_ (fun _ => ?_)
      | refine keeps_fireOp _ _ ?_ (fun _ => ?_)
    | dsimp only

theorem keeps_execShlc (o : ROp) (s : State) (h : MemoryInv s) : Keeps (execShlc o s) := by
  unfold execShlc
  try dsimp only
  repeat' first
    | with_reducible first
      | assumption | apply keeps_next | apply keeps_chainOp | refine keeps_fire _ _ _ _ ?_ (fun _ => ?_)
      | refine keeps_fireOp _ _ ?_ (fun _ => ?_)
    | dsimp only

theorem keeps_execShrc (o : ROp) (s : State) (h : MemoryInv s) : Keeps (execShrc o s) := by
  unfold execShrc
  try dsimp only
  repeat' first
    | with_reducible first
      | assumption | apply keeps_next | apply keeps_chainOp | refine keeps_fire _ _ _ _ ?_ (fun _ => ?_)
      | refine keeps_fireOp _ _ ?_ (fun _ => ?_)
    | dsimp only

theorem keeps_execCmpc (o : ROp) (s : State) (h : MemoryInv s) : Keeps (execCmpc o s) := by
  unfold execCmpc
  try dsimp only
  repeat' first
    | with_reducible first
      | assumption | apply keeps_next | apply keeps_chainOp | refine keeps_fire _ _ _ _ ?_ (fun _ => ?_)
      | refine keeps_fireOp _ _ ?_ (fun _ => ?_)
    | dsimp only

theorem keeps_controlMerge (s : State) (o : ROp) (h : MemoryInv s) : MemoryInv (State.controlMerge s o) := by
  unfold State.controlMerge
  try dsimp only
  repeat' first
    | with_reducible first
      | assumption | apply keeps_updMe | apply keeps_popWords | apply keeps_pushWord | apply keeps_consume
      | refine keeps_ite (fun _ => ?_) (fun _ => ?_)
    | split | dsimp only

theorem keeps_arrivalMerge (s : State) (o : ROp) (h : MemoryInv s) : MemoryInv (State.arrivalMerge s o) := by
  unfold State.arrivalMerge
  try dsimp only
  repeat' first
    | with_reducible first
      | assumption | apply keeps_updMe | apply keeps_popWords | apply keeps_pushWord
      | refine foldl_keeps _ _ _ ?_ fun _ _ _ => ?_ | refine foldl_keeps_fst _ _ _ ?_ fun _ _ _ => ?_
      | refine keeps_ite (fun _ => ?_) (fun _ => ?_)
    | split | (simp only [keeps_mk]; change MemoryInv _) | dsimp only

theorem keeps_execMov (o : ROp) (s : State) (h : MemoryInv s) : Keeps (execMov o s) := by
  unfold execMov
  try dsimp only
  repeat' first
    | with_reducible first
      | assumption | apply keeps_next | apply keeps_un | refine keeps_fire _ _ _ _ ?_ (fun _ => ?_)
      | refine keeps_fireOp _ _ ?_ (fun _ => ?_)
    | dsimp only

theorem keeps_execSend (o : ROp) (s : State) (h : MemoryInv s) : Keeps (execSend o s) := by
  unfold execSend
  try dsimp only
  repeat' first
    | with_reducible first
      | assumption | apply keeps_next | apply keeps_pushWord | apply keeps_consume
      | refine keeps_fire _ _ _ _ ?_ (fun _ => ?_) | refine keeps_fireOp _ _ ?_ (fun _ => ?_)
    | dsimp only

theorem keeps_execDrop (o : ROp) (s : State) (h : MemoryInv s) : Keeps (execDrop o s) := by
  unfold execDrop
  try dsimp only
  repeat' first
    | with_reducible first
      | assumption | apply keeps_next | apply keeps_consume | refine keeps_fire _ _ _ _ ?_ (fun _ => ?_)
      | refine keeps_fireOp _ _ ?_ (fun _ => ?_)
    | dsimp only

theorem keeps_execDup (o : ROp) (s : State) (h : MemoryInv s) : Keeps (execDup o s) := by
  unfold execDup
  try dsimp only
  repeat' first
    | with_reducible first
      | assumption | apply keeps_next | apply keeps_consume | apply keeps_wr
      | refine keeps_fire _ _ _ _ ?_ (fun _ => ?_) | refine keeps_fireOp _ _ ?_ (fun _ => ?_)
    | dsimp only

theorem keeps_execRetag (o : ROp) (s : State) (h : MemoryInv s) : Keeps (execRetag o s) := by
  unfold execRetag
  try dsimp only
  repeat' first
    | with_reducible first
      | assumption | apply keeps_next | apply keeps_pushWord | apply keeps_consume
      | refine keeps_fire _ _ _ _ ?_ (fun _ => ?_) | refine keeps_fireOp _ _ ?_ (fun _ => ?_)
    | dsimp only

theorem keeps_execSteer (o : ROp) (s : State) (h : MemoryInv s) : Keeps (execSteer o s) := by
  unfold execSteer
  try dsimp only
  repeat' first
    | with_reducible first
      | assumption | apply keeps_next | apply keeps_pushWord | apply keeps_consume
      | refine keeps_fire _ _ _ _ ?_ (fun _ => ?_) | refine keeps_fireOp _ _ ?_ (fun _ => ?_)
    | dsimp only

theorem keeps_execCmrg (o : ROp) (s : State) (h : MemoryInv s) : Keeps (execCmrg o s) := by
  unfold execCmrg
  try dsimp only
  repeat' first
    | with_reducible first
      | assumption | apply keeps_next | apply keeps_controlMerge | refine keeps_fire _ _ _ _ ?_ (fun _ => ?_)
      | refine keeps_fireOp _ _ ?_ (fun _ => ?_)
    | dsimp only

theorem keeps_execAmrg (o : ROp) (s : State) (h : MemoryInv s) : Keeps (execAmrg o s) := by
  unfold execAmrg
  try dsimp only
  repeat' first
    | with_reducible first
      | assumption | apply keeps_next | apply keeps_arrivalMerge | refine keeps_fire _ _ _ _ ?_ (fun _ => ?_)
      | refine keeps_fireOp _ _ ?_ (fun _ => ?_)
    | dsimp only

theorem keeps_execSmpBind (o : EOp) (s : State) (h : MemoryInv s) : Keeps (execSmpBind o s) := by
  unfold execSmpBind
  try dsimp only
  repeat' first
    | with_reducible first
      | assumption | apply keeps_next | refine keeps_sendCmd _ _ _ _ _ (fun _ _ => ?_) ?_
      | refine keeps_noResult ?_ (by assumption) | apply keeps_noResult_fst
      | refine keeps_fire _ _ _ _ ?_ (fun _ => ?_) | refine keeps_fireOp _ _ ?_ (fun _ => ?_)
    | dsimp only

theorem keeps_execWtLd (o : EOp) (s : State) (h : MemoryInv s) : Keeps (execWtLd o s) := by
  unfold execWtLd
  try dsimp only
  repeat' first
    | with_reducible first
      | assumption | apply keeps_next | refine keeps_sendCmd _ _ _ _ _ (fun _ _ => ?_) ?_
      | refine keeps_toPort ?_ (by assumption) | apply keeps_toPort_fst | refine keeps_fire _ _ _ _ ?_ (fun _ => ?_)
      | refine keeps_fireOp _ _ ?_ (fun _ => ?_)
    | dsimp only

theorem keeps_execWtDrop (o : EOp) (s : State) (h : MemoryInv s) : Keeps (execWtDrop o s) := by
  unfold execWtDrop
  try dsimp only
  repeat' first
    | with_reducible first
      | assumption | apply keeps_next | refine keeps_sendCmd _ _ _ _ _ (fun _ _ => ?_) ?_
      | refine keeps_noResult ?_ (by assumption) | apply keeps_noResult_fst
      | refine keeps_fire _ _ _ _ ?_ (fun _ => ?_) | refine keeps_fireOp _ _ ?_ (fun _ => ?_)
    | dsimp only

theorem keeps_execSmpTex (o : EOp) (s : State) (h : MemoryInv s) : Keeps (execSmpTex o s) := by
  unfold execSmpTex
  try dsimp only
  repeat' first
    | with_reducible first
      | assumption | apply keeps_next | refine keeps_iteO (fun _ => ?_) (fun _ => ?_)
      | refine keeps_reservePair ?_ (by assumption) | apply keeps_reservePair_fst
      | refine keeps_sendCmd _ _ _ _ _ (fun _ _ => ?_) ?_ | refine keeps_toPort ?_ (by assumption)
      | apply keeps_toPort_fst | refine keeps_fire _ _ _ _ ?_ (fun _ => ?_)
      | refine keeps_fireOp _ _ ?_ (fun _ => ?_) | refine keeps_ite (fun _ => ?_) (fun _ => ?_)
    | split | dsimp only

theorem keeps_execSmpDec (o : EOp) (s : State) (h : MemoryInv s) : Keeps (execSmpDec o s) := by
  unfold execSmpDec
  try dsimp only
  repeat' first
    | with_reducible first
      | assumption | apply keeps_next | refine keeps_sendCmd _ _ _ _ _ (fun _ _ => ?_) ?_
      | refine keeps_toPort ?_ (by assumption) | apply keeps_toPort_fst | refine keeps_fire _ _ _ _ ?_ (fun _ => ?_)
      | refine keeps_fireOp _ _ ?_ (fun _ => ?_)
    | dsimp only

theorem keeps_setDrawOpen (s : State) (core : Nat) (b : Bool) (h : MemoryInv s) :
    MemoryInv (State.setDrawOpen s core b) := by
  unfold State.setDrawOpen
  try dsimp only
  repeat' first
    | with_reducible first
      | assumption | apply keeps_updCore
    | (simp only [keeps_mk]; change MemoryInv _) | dsimp only

theorem keeps_execRsDraw (o : EOp) (s : State) (h : MemoryInv s) : Keeps (execRsDraw o s) := by
  unfold execRsDraw
  try dsimp only
  repeat' first
    | with_reducible first
      | assumption | apply keeps_next | refine keeps_iteO (fun _ => ?_) (fun _ => ?_)
      | refine keeps_sendCmd _ _ _ _ _ (fun _ _ => ?_) ?_ | refine keeps_noResult ?_ (by assumption)
      | apply keeps_noResult_fst | apply keeps_setDrawOpen | refine keeps_fire _ _ _ _ ?_ (fun _ => ?_)
      | refine keeps_fireOp _ _ ?_ (fun _ => ?_) | refine keeps_ite (fun _ => ?_) (fun _ => ?_)
    | split | dsimp only

theorem keeps_execRsFlush (o : EOp) (s : State) (h : MemoryInv s) : Keeps (execRsFlush o s) := by
  unfold execRsFlush
  try dsimp only
  repeat' first
    | with_reducible first
      | assumption | apply keeps_next | refine keeps_iteO (fun _ => ?_) (fun _ => ?_)
      | refine keeps_sendCmd _ _ _ _ _ (fun _ _ => ?_) ?_ | refine keeps_toPort ?_ (by assumption)
      | apply keeps_toPort_fst | refine keeps_fire _ _ _ _ ?_ (fun _ => ?_)
      | refine keeps_fireOp _ _ ?_ (fun _ => ?_) | refine keeps_ite (fun _ => ?_) (fun _ => ?_)
    | split | dsimp only

theorem keeps_execVisAttr (o : EOp) (s : State) (h : MemoryInv s) : Keeps (execVisAttr o s) := by
  unfold execVisAttr
  try dsimp only
  repeat' first
    | with_reducible first
      | assumption | apply keeps_next | refine keeps_sendCmd _ _ _ _ _ (fun _ _ => ?_) ?_
      | refine keeps_toPort ?_ (by assumption) | apply keeps_toPort_fst | refine keeps_fire _ _ _ _ ?_ (fun _ => ?_)
      | refine keeps_fireOp _ _ ?_ (fun _ => ?_)
    | dsimp only

theorem keeps_execBlPut (o : EOp) (s : State) (h : MemoryInv s) : Keeps (execBlPut o s) := by
  unfold execBlPut
  try dsimp only
  repeat' first
    | with_reducible first
      | assumption | apply keeps_next | refine keeps_iteO (fun _ => ?_) (fun _ => ?_)
      | refine keeps_sendCmd _ _ _ _ _ (fun _ _ => ?_) ?_ | refine keeps_noResult ?_ (by assumption)
      | apply keeps_noResult_fst | refine keeps_fire _ _ _ _ ?_ (fun _ => ?_)
      | refine keeps_fireOp _ _ ?_ (fun _ => ?_) | refine keeps_ite (fun _ => ?_) (fun _ => ?_)
    | split | dsimp only

theorem keeps_execTrFmt (o : EOp) (s : State) (h : MemoryInv s) : Keeps (execTrFmt o s) := by
  unfold execTrFmt
  try dsimp only
  repeat' first
    | with_reducible first
      | assumption | apply keeps_next | refine keeps_sendCmd _ _ _ _ _ (fun _ _ => ?_) ?_
      | refine keeps_noResult ?_ (by assumption) | apply keeps_noResult_fst
      | refine keeps_fire _ _ _ _ ?_ (fun _ => ?_) | refine keeps_fireOp _ _ ?_ (fun _ => ?_)
    | dsimp only

theorem keeps_execTrRay (o : EOp) (s : State) (h : MemoryInv s) : Keeps (execTrRay o s) := by
  unfold execTrRay
  try dsimp only
  repeat' first
    | with_reducible first
      | assumption | apply keeps_next | refine keeps_sendCmd _ _ _ _ _ (fun _ _ => ?_) ?_
      | refine keeps_toPort ?_ (by assumption) | apply keeps_toPort_fst | refine keeps_fire _ _ _ _ ?_ (fun _ => ?_)
      | refine keeps_fireOp _ _ ?_ (fun _ => ?_)
    | dsimp only

theorem keeps_execTrWalk (o : EOp) (s : State) (h : MemoryInv s) : Keeps (execTrWalk o s) := by
  unfold execTrWalk
  try dsimp only
  repeat' first
    | with_reducible first
      | assumption | apply keeps_next | refine keeps_sendCmd _ _ _ _ _ (fun _ _ => ?_) ?_
      | refine keeps_toPort ?_ (by assumption) | apply keeps_toPort_fst | refine keeps_fire _ _ _ _ ?_ (fun _ => ?_)
      | refine keeps_fireOp _ _ ?_ (fun _ => ?_)
    | dsimp only

theorem keeps_execTrMarch (o : EOp) (s : State) (h : MemoryInv s) : Keeps (execTrMarch o s) := by
  unfold execTrMarch
  try dsimp only
  repeat' first
    | with_reducible first
      | assumption | apply keeps_next | refine keeps_sendCmd _ _ _ _ _ (fun _ _ => ?_) ?_
      | refine keeps_toPort ?_ (by assumption) | apply keeps_toPort_fst | refine keeps_fire _ _ _ _ ?_ (fun _ => ?_)
      | refine keeps_fireOp _ _ ?_ (fun _ => ?_)
    | dsimp only

theorem keeps_execTrRes (o : EOp) (s : State) (h : MemoryInv s) : Keeps (execTrRes o s) := by
  unfold execTrRes
  try dsimp only
  repeat' first
    | with_reducible first
      | assumption | apply keeps_next | refine keeps_sendCmd _ _ _ _ _ (fun _ _ => ?_) ?_
      | refine keeps_toPort ?_ (by assumption) | apply keeps_toPort_fst | refine keeps_fire _ _ _ _ ?_ (fun _ => ?_)
      | refine keeps_fireOp _ _ ?_ (fun _ => ?_)
    | dsimp only

theorem keeps_startStep (s : State) (k : Nat) (h : MemoryInv s) : MemoryInv (State.startStep s k) := by
  unfold State.startStep
  try dsimp only
  repeat' first
    | with_reducible first
      | assumption | apply keeps_setElem | apply keeps_updElem | apply keeps_tookStep
      | refine keeps_ite (fun _ => ?_) (fun _ => ?_)
    | split | (simp only [keeps_mk]; change MemoryInv _) | dsimp only

theorem keeps_execFiringStep (s : State) (h : MemoryInv s) : Keeps (execFiringStep s) := by
  unfold execFiringStep
  try dsimp only
  repeat' first
    | with_reducible first
      | assumption | apply keeps_next | exact keeps_fault _ | refine keeps_iteO (fun _ => ?_) (fun _ => ?_)
      | apply keeps_startStep | refine keeps_ite (fun _ => ?_) (fun _ => ?_)
    | split | dsimp only

theorem keeps_noteFired (s : State) (i : Nat) (h : MemoryInv s) : MemoryInv (State.noteFired s i) := by
  unfold State.noteFired
  try dsimp only
  repeat' first
    | with_reducible first
      | assumption | apply keeps_setElem | refine keeps_ite (fun _ => ?_) (fun _ => ?_)
    | split | (simp only [keeps_mk]; change MemoryInv _) | dsimp only

theorem keeps_noteBeat (s : State) (h : MemoryInv s) : MemoryInv (State.noteBeat s) := by
  unfold State.noteBeat
  try dsimp only
  repeat' first
    | with_reducible first
      | assumption | apply keeps_setElem | refine keeps_ite (fun _ => ?_) (fun _ => ?_)
    | split | (simp only [keeps_mk]; change MemoryInv _) | dsimp only

theorem keeps_fireWord (exec : Instr → State → Host.Outcome State Fault Refusal) (word : Word) (s : State)
    (he : ∀ i s, MemoryInv s → Keeps (exec i s)) (h : MemoryInv s) : Keeps (fireWord exec word s) := by
  unfold fireWord
  split
  · exact he _ _ h
  · exact keeps_next (keeps_takeFault _ _ _ h)

theorem keeps_thenDo (f : State → State) (o : Host.Outcome State Fault Refusal) (hf : ∀ s, MemoryInv s → MemoryInv (f s))
    (h : Keeps o) : Keeps (thenDo f o) := by
  cases o with
  | next s => exact keeps_next (hf s (h s rfl))
  | fault r => exact keeps_fault r
  | refused r => exact keeps_refused r

theorem keeps_aimAt (s : State) (w : Walk) (i : Nat) (rest : List Nat) (h : MemoryInv s) :
    MemoryInv (State.aimAt s w i rest) := by
  unfold State.aimAt
  try dsimp only
  repeat' first
    | with_reducible first
      | assumption | apply keeps_updElem | apply keeps_bump | refine keeps_ite (fun _ => ?_) (fun _ => ?_)
    | split | (simp only [keeps_mk]; change MemoryInv _) | dsimp only

theorem keeps_fireSlot (exec : Instr → State → Host.Outcome State Fault Refusal) (s : State) (w : Walk) (i : Nat)
    (rest : List Nat) (he : ∀ i s, MemoryInv s → Keeps (exec i s)) (h : MemoryInv s) :
    Keeps (fireSlot exec s w i rest) :=
  keeps_thenDo _ _ (fun s hs => keeps_noteFired s i hs) (keeps_fireWord exec _ _ he (keeps_aimAt s w i rest h))

theorem keeps_runBeat (exec : Instr → State → Host.Outcome State Fault Refusal) (s : State) (w : Walk) (b : Beat)
    (he : ∀ i s, MemoryInv s → Keeps (exec i s)) (h : MemoryInv s) : Keeps (runBeat exec s w b) := by
  unfold runBeat
  dsimp only
  split
  · exact keeps_next (keeps_noteBeat _ h)
  · exact keeps_thenDo _ _ (fun s hs => keeps_noteBeat s hs) (keeps_fireWord exec _ _ he h)

theorem keeps_endWalk (s : State) (w : Walk) (h : MemoryInv s) : MemoryInv (State.endWalk s w) := by
  unfold State.endWalk
  try dsimp only
  repeat' first
    | with_reducible first
      | assumption | apply keeps_setElem | apply keeps_stopSpur | refine foldl_keeps _ _ _ ?_ fun _ _ _ => ?_
      | refine foldl_keeps_fst _ _ _ ?_ fun _ _ _ => ?_ | refine keeps_ite (fun _ => ?_) (fun _ => ?_)
    | split | (simp only [keeps_mk]; change MemoryInv _) | dsimp only

theorem keeps_walkStep (exec : Instr → State → Host.Outcome State Fault Refusal) (s : State) (w : Walk)
    (he : ∀ i s, MemoryInv s → Keeps (exec i s)) (h : MemoryInv s) : Keeps (walkStep exec s w) := by
  unfold walkStep
  split
  · exact keeps_next h
  · split
    · exact keeps_runBeat exec s w _ he h
    · split
      · exact keeps_fireSlot exec _ w _ _ he (keeps_updElem _ _ _ h)
      · exact keeps_next (keeps_endWalk _ w (keeps_updElem _ _ _ h))

end Sys2Proof.Machine
end

