-- ==== Sys2Proof/Laws/KeepsIslands.lean ====
section
/-!
SUPPORT. The operations of `Delivery`, `Links`, `RasterIsland`, `TraversalIsland`, `SamplerIsland`, `IslandAccept`, `Sync`, `SyncEvents`, `IslandImage`, `ImageWrite` keep the canonical form of the memories.
-/
namespace Sys2Proof.Machine

theorem keeps_dropDelivery (s : State) (i : Nat) (h : MemoryInv s) : MemoryInv (State.dropDelivery s i) := by
  unfold State.dropDelivery
  try dsimp only
  repeat' first
    | with_reducible first
      | assumption
    | (simp only [keeps_mk]; change MemoryInv _) | dsimp only

theorem keeps_landChunk (s : State) (d : Delivery) (b : List Byte) (f : Firing) (h : MemoryInv s) :
    KeepsOk (KeepsSome fun x => MemoryInv x.1) (s.landChunk d b f) := by
  unfold State.landChunk
  dsimp only
  repeat' first
    | with_reducible first
      | assumption | exact keeps_error | exact keeps_ok keeps_none | refine keeps_ok (keeps_some ?_)
      | exact keeps_of_okSome (keeps_writeGlobal _ _ _ _ _ _ _ h) (by assumption)
      | exact keeps_of_okPair (keeps_landScratch _ _ _ _ _ _ h) (by assumption) | apply keeps_setPort
    | split

theorem keeps_execExchangeChunkArrival (s : State) (h : MemoryInv s) : Keeps (execExchangeChunkArrival s) := by
  unfold execExchangeChunkArrival
  dsimp only
  repeat' first
    | with_reducible first
      | assumption | apply keeps_next | refine keeps_iteO (fun _ => ?_) (fun _ => ?_)
      | apply keeps_lostWrite | apply keeps_updFiring | apply keeps_firingFault | apply keeps_dropDelivery
      | exact keeps_of_okSomePair (keeps_landChunk _ _ _ _ h) (by assumption)
    | split | (simp only [keeps_mk]; change MemoryInv _)

theorem keeps_deliverTrigger (s : State) (d : Delivery) (h : MemoryInv s) : MemoryInv (State.deliverTrigger s d) := by
  unfold State.deliverTrigger
  try dsimp only
  repeat' first
    | with_reducible first
      | assumption | apply keeps_updCore
    | (simp only [keeps_mk]; change MemoryInv _) | dsimp only

theorem keeps_screeWrite (s : State) (c : Chain) (off : Nat) (bs : List Byte) (h : MemoryInv s) :
    MemoryInv (State.screeWrite s c off bs) := by
  unfold State.screeWrite
  try dsimp only
  repeat' first
    | with_reducible first
      | assumption | apply keeps_writeVirt | refine keeps_ite (fun _ => ?_) (fun _ => ?_)
    | split | dsimp only

theorem keeps_screeSet (s : State) (c : Chain) (head tail count : Nat) (h : MemoryInv s) :
    MemoryInv (State.screeSet s c head tail count) := by
  unfold State.screeSet
  try dsimp only
  repeat' first
    | with_reducible first
      | assumption | apply keeps_writeVirt
    | dsimp only

theorem keeps_screePark (s : State) (c : Chain) (index rel : Nat) (d : Delivery) (h : MemoryInv s) :
    KeepsSome MemoryInv (State.screePark s c index rel d) := by
  unfold State.screePark
  try dsimp only
  repeat' first
    | with_reducible first
      | assumption | exact keeps_none | exact keeps_error | apply keeps_some | apply keeps_ok
      | apply keeps_screeWrite | apply keeps_screeSet | refine foldl_keeps _ _ _ ?_ fun _ _ _ => ?_
      | refine foldl_keeps_fst _ _ _ ?_ fun _ _ _ => ?_ | refine keeps_ite (fun _ => ?_) (fun _ => ?_)
    | split | (simp only [keeps_mk]; change MemoryInv _) | dsimp only

theorem keeps_giveChunk (s : State) (d : Delivery) (h : MemoryInv s) : KeepsSome MemoryInv (State.giveChunk s d) := by
  unfold State.giveChunk
  dsimp only
  repeat' first
    | with_reducible first
      | assumption | exact keeps_none | apply keeps_some | apply keeps_updFiring
      | exact keeps_of_okSomePair (keeps_landChunk _ _ _ _ h) (by assumption) | refine keeps_ite (fun _ => ?_) (fun _ => ?_)
    | split | (simp only [keeps_mk]; change MemoryInv _)

theorem keeps_giveParked (s : State) (d : Delivery) (h : MemoryInv s) : MemoryInv (s.giveParked d) := by
  have hg : KeepsSome MemoryInv (if s.firstOfPair s.deliveries.length d then s.giveChunk d else none) := by
    split
    · exact keeps_giveChunk _ _ h
    · exact keeps_none
  unfold State.giveParked
  dsimp only
  split
  · split
    · exact keeps_of_some hg (by assumption)
    · exact h
  · split
    · exact keeps_deliverTrigger _ _ h
    · exact h

theorem keeps_screeReplay (s : State) (p : Spur) (h : MemoryInv s) : MemoryInv (State.screeReplay s p) := by
  unfold State.screeReplay
  try dsimp only
  repeat' first
    | with_reducible first
      | assumption | apply keeps_screeSet | refine keeps_of_some (keeps_screePark _ _ _ _ _ ?_) (by assumption)
      | refine keeps_screePark _ _ _ _ _ ?_ | apply keeps_giveParked | refine keeps_getD ?_ ?_
      | refine foldl_keeps _ _ _ ?_ fun _ _ _ => ?_ | refine foldl_keeps_fst _ _ _ ?_ fun _ _ _ => ?_
      | refine keeps_ite (fun _ => ?_) (fun _ => ?_)
    | split | (simp only [keeps_mk]; change MemoryInv _) | dsimp only

theorem keeps_orphan (s : State) (d : Delivery) (h : MemoryInv s) : MemoryInv (State.orphan s d) := by
  unfold State.orphan
  try dsimp only
  repeat' first
    | with_reducible first
      | assumption | apply keeps_updChain | apply keeps_putRecord | refine keeps_ite (fun _ => ?_) (fun _ => ?_)
    | split | (simp only [keeps_mk]; change MemoryInv _) | dsimp only

theorem keeps_divert (s : State) (i : Nat) (d : Delivery) (h : MemoryInv s) : MemoryInv (State.divert s i d) := by
  unfold State.divert
  try dsimp only
  repeat' first
    | with_reducible first
      | assumption | apply keeps_dropDelivery | refine keeps_of_some (keeps_screePark _ _ _ _ _ ?_) (by assumption)
      | refine keeps_screePark _ _ _ _ _ ?_ | apply keeps_orphan | refine keeps_ite (fun _ => ?_) (fun _ => ?_)
    | split | (simp only [keeps_mk]; change MemoryInv _) | dsimp only

theorem keeps_execPeerDeliveryArrival (s : State) (h : MemoryInv s) : Keeps (execPeerDeliveryArrival s) := by
  unfold execPeerDeliveryArrival
  try dsimp only
  repeat' first
    | with_reducible first
      | assumption | apply keeps_next | refine keeps_iteO (fun _ => ?_) (fun _ => ?_) | apply keeps_dropDelivery
      | apply keeps_deliverTrigger | apply keeps_divert | refine keeps_getD ?_ ?_
      | refine keeps_ite (fun _ => ?_) (fun _ => ?_)
    | split | (simp only [keeps_mk]; change MemoryInv _) | dsimp only

theorem keeps_arrive (s : State) (r : LinkEnd) (w : ChanWord) (h : MemoryInv s) : MemoryInv (State.arrive s r w) := by
  unfold State.arrive
  try dsimp only
  repeat' first
    | with_reducible first
      | assumption | apply keeps_updElem | apply keeps_updCluster | refine keeps_getD ?_ ?_
    | split | (simp only [keeps_mk]; change MemoryInv _) | dsimp only

theorem keeps_takeHead (s : State) (l : Link) (stage : Nat) (h : MemoryInv s) :
    MemoryInv (State.takeHead s l stage) := by
  unfold State.takeHead
  try dsimp only
  repeat' first
    | with_reducible first
      | assumption | apply keeps_updCluster | apply keeps_updLink | refine keeps_getD ?_ ?_
      | refine keeps_ite (fun _ => ?_) (fun _ => ?_)
    | split | (simp only [keeps_mk]; change MemoryInv _) | dsimp only

theorem keeps_countOrphans (s : State) (chain n : Nat) (h : MemoryInv s) :
    MemoryInv (State.countOrphans s chain n) := by
  unfold State.countOrphans
  try dsimp only
  repeat' first
    | with_reducible first
      | assumption | apply keeps_updChain | refine keeps_ite (fun _ => ?_) (fun _ => ?_)
    | split | (simp only [keeps_mk]; change MemoryInv _) | dsimp only

theorem keeps_moveWord (s : State) (l : Link) (stage : Nat) (h : MemoryInv s) :
    MemoryInv (State.moveWord s l stage) := by
  unfold State.moveWord
  try dsimp only
  repeat' first
    | with_reducible first
      | assumption | apply keeps_updLink | apply keeps_arrive | apply keeps_takeHead | apply keeps_countOrphans
      | refine keeps_ite (fun _ => ?_) (fun _ => ?_)
    | split | (simp only [keeps_mk]; change MemoryInv _) | dsimp only

theorem keeps_dropTail (s : State) (id : Nat) (h : MemoryInv s) : MemoryInv (State.dropTail s id) := by
  unfold State.dropTail
  try dsimp only
  repeat' first
    | with_reducible first
      | assumption
    | (simp only [keeps_mk]; change MemoryInv _) | dsimp only

theorem keeps_execLinkWordMove (s : State) (h : MemoryInv s) : Keeps (execLinkWordMove s) := by
  unfold execLinkWordMove
  try dsimp only
  repeat' first
    | with_reducible first
      | assumption | apply keeps_next | apply keeps_moveWord | apply keeps_dropTail
    | split | (simp only [keeps_mk]; change MemoryInv _) | dsimp only

theorem keeps_execSlotCountReturn (s : State) (h : MemoryInv s) : Keeps (execSlotCountReturn s) := by
  unfold execSlotCountReturn
  try dsimp only
  repeat' first
    | with_reducible first
      | assumption | apply keeps_next | refine keeps_iteO (fun _ => ?_) (fun _ => ?_) | apply keeps_updElem
      | apply keeps_updLink | refine keeps_ite (fun _ => ?_) (fun _ => ?_)
    | split | (simp only [keeps_mk]; change MemoryInv _) | dsimp only

theorem keeps_execCarryTransfer (s : State) (h : MemoryInv s) : Keeps (execCarryTransfer s) := by
  unfold execCarryTransfer
  try dsimp only
  repeat' first
    | with_reducible first
      | assumption | apply keeps_next | refine keeps_iteO (fun _ => ?_) (fun _ => ?_) | apply keeps_updElem
      | refine keeps_ite (fun _ => ?_) (fun _ => ?_)
    | split | (simp only [keeps_mk]; change MemoryInv _) | dsimp only

theorem keeps_execDelayedResultArrival (s : State) (h : MemoryInv s) : Keeps (execDelayedResultArrival s) := by
  unfold execDelayedResultArrival
  try dsimp only
  repeat' first
    | with_reducible first
      | assumption | apply keeps_next | refine keeps_iteO (fun _ => ?_) (fun _ => ?_) | apply keeps_updReq
      | apply keeps_dropReq | apply keeps_countPreg | apply keeps_deliver | apply keeps_lateFault
      | refine keeps_ite (fun _ => ?_) (fun _ => ?_)
    | split | (simp only [keeps_mk]; change MemoryInv _) | dsimp only

theorem keeps_answerControl (s : State) (n : BitVec 10) (h : MemoryInv s) : MemoryInv (State.answerControl s n) := by
  unfold State.answerControl
  try dsimp only
  repeat' first
    | with_reducible first
      | assumption | apply keeps_updReq | apply keeps_sysLatch | refine keeps_ite (fun _ => ?_) (fun _ => ?_)
    | split | (simp only [keeps_mk]; change MemoryInv _) | dsimp only

theorem keeps_execTimeLoRead (s : State) (h : MemoryInv s) : Keeps (execTimeLoRead s) := by
  unfold execTimeLoRead
  try dsimp only
  repeat' first
    | with_reducible first
      | assumption | apply keeps_next | apply keeps_answerControl
    | dsimp only

theorem keeps_tellHost (s : State) (w : Word) (h : MemoryInv s) : MemoryInv (State.tellHost s w) := by
  unfold State.tellHost
  try dsimp only
  repeat' first
    | with_reducible first
      | assumption
    | (simp only [keeps_mk]; change MemoryInv _) | dsimp only

theorem keeps_execTransSeqLoRead (s : State) (h : MemoryInv s) : Keeps (execTransSeqLoRead s) := by
  unfold execTransSeqLoRead
  try dsimp only
  repeat' first
    | with_reducible first
      | assumption | apply keeps_next | refine keeps_iteO (fun _ => ?_) (fun _ => ?_) | apply keeps_latchReg
      | apply keeps_answerControl | apply keeps_tellHost | refine keeps_ite (fun _ => ?_) (fun _ => ?_)
    | split | dsimp only

theorem keeps_engUpdate (s : State) (core group va n : Nat) (scope : BitVec 3) (atomic : Bool) (f : List Byte →
    List Byte) (h : MemoryInv s) :
    KeepsOk (KeepsSome MemoryInv) (State.engUpdate s core group va n scope atomic f) := by
  unfold State.engUpdate
  try dsimp only
  repeat' first
    | with_reducible first
      | assumption | exact keeps_none | exact keeps_error | apply keeps_some | apply keeps_ok
      | apply keeps_countDiscard | apply keeps_writeBack | apply keeps_dropL2 | apply keeps_landHome
      | apply keeps_landAt | apply keeps_noteWritten | refine foldl_keeps _ _ _ ?_ fun _ _ _ => ?_
      | refine foldl_keeps_fst _ _ _ ?_ fun _ _ _ => ?_ | refine keeps_ite (fun _ => ?_) (fun _ => ?_)
    | split | (simp only [keeps_mk]; change MemoryInv _) | dsimp only

theorem keeps_updRaster (s : State) (cl : Nat) (f : Raster → Raster) (h : MemoryInv s) :
    MemoryInv (State.updRaster s cl f) := by
  unfold State.updRaster
  try dsimp only
  repeat' first
    | with_reducible first
      | assumption | apply keeps_updCluster
    | (simp only [keeps_mk]; change MemoryInv _) | dsimp only

theorem keeps_drawFault (s : State) (cl code addr : Nat) (h : MemoryInv s) :
    MemoryInv (State.drawFault s cl code addr) := by
  unfold State.drawFault
  try dsimp only
  repeat' first
    | with_reducible first
      | assumption | apply keeps_cmdFault | apply keeps_updRaster
    | (simp only [keeps_mk]; change MemoryInv _) | dsimp only

theorem keeps_binWrite (s : State) (cl core : Nat) (b : Binned) (h : MemoryInv s) :
    KeepsOk (KeepsSome MemoryInv) (State.binWrite s cl core b) := by
  unfold State.binWrite
  try dsimp only
  repeat' first
    | with_reducible first
      | assumption | exact keeps_none | exact keeps_error | apply keeps_some | apply keeps_ok
      | apply keeps_landPieces | refine keeps_ite (fun _ => ?_) (fun _ => ?_)
    | split | (simp only [keeps_mk]; change MemoryInv _) | dsimp only

theorem keeps_startFlush (s : State) (cl : Nat) (h : MemoryInv s) : MemoryInv (State.startFlush s cl) := by
  unfold State.startFlush
  try dsimp only
  repeat' first
    | with_reducible first
      | assumption | apply keeps_updRaster | refine keeps_ite (fun _ => ?_) (fun _ => ?_)
    | split | (simp only [keeps_mk]; change MemoryInv _) | dsimp only

theorem keeps_binFuel (s : State) (cl fuel : Nat) (h : MemoryInv s) : MemoryInv (s.binFuel cl fuel) := by
  induction fuel generalizing s with
  | zero => exact h
  | succ fuel ih =>
    unfold State.binFuel
    dsimp only
    repeat' (first | with_reducible assumption | with_reducible apply ih | with_reducible apply keeps_drawFault | with_reducible apply keeps_updRaster | with_reducible apply keeps_startFlush | with_reducible apply keeps_lostWrite | with_reducible refine keeps_of_okSome (keeps_binWrite _ _ _ _ ?_) (by assumption) | with_reducible refine keeps_ite (fun _ => ?_) (fun _ => ?_) | split)

theorem keeps_execBinFlush (s : State) (h : MemoryInv s) : Keeps (execBinFlush s) := by
  unfold execBinFlush
  try dsimp only
  repeat' first
    | with_reducible first
      | assumption | apply keeps_next | refine keeps_iteO (fun _ => ?_) (fun _ => ?_) | apply keeps_storageError
      | apply keeps_binFuel | refine keeps_ite (fun _ => ?_) (fun _ => ?_)
    | split | dsimp only

theorem keeps_visUpdate (s : State) (core group : Nat) (b : List Byte) (inst prim x y : Nat) (l : List (Nat × Nat))
    (h : MemoryInv s) : KeepsOk (KeepsSome MemoryInv) (s.visUpdate core group b inst prim x y l) := by
  induction l generalizing s with
  | nil => exact keeps_ok (keeps_some h)
  | cons c l ih =>
    unfold State.visUpdate
    dsimp only
    repeat' (first | with_reducible assumption | with_reducible exact keeps_error | with_reducible exact keeps_ok keeps_none | with_reducible apply ih | with_reducible refine keeps_of_okSome (keeps_engUpdate _ _ _ _ _ _ _ _ ?_) (by assumption) | split)

theorem keeps_emitEdge (s : State) (cl pos q : Nat) (ws : List (Word × Tag)) (h : MemoryInv s) :
    MemoryInv (State.emitEdge s cl pos q ws) := by
  unfold State.emitEdge
  try dsimp only
  repeat' first
    | with_reducible first
      | assumption | apply keeps_updCluster | refine keeps_getD ?_ ?_
    | (simp only [keeps_mk]; change MemoryInv _) | dsimp only

theorem keeps_putPixel (s : State) (cl : Nat) (r : Raster) (prim k : Nat) (l : List (Nat × Nat)) (h : MemoryInv
    s) :
    MemoryInv (State.putPixel s cl r prim k l) := by
  unfold State.putPixel
  try dsimp only
  repeat' first
    | with_reducible first
      | assumption | apply keeps_updRaster | apply keeps_drawFault
      | refine keeps_of_okSome (keeps_visUpdate _ _ _ _ _ _ _ _ _ ?_) (by assumption)
      | refine keeps_visUpdate _ _ _ _ _ _ _ _ _ ?_ | apply keeps_emitEdge
      | refine foldl_keeps _ _ _ ?_ fun _ _ _ => ?_ | refine foldl_keeps_fst _ _ _ ?_ fun _ _ _ => ?_
      | refine keeps_ite (fun _ => ?_) (fun _ => ?_)
    | split | (simp only [keeps_mk]; change MemoryInv _) | dsimp only

theorem keeps_rasterFuel (s : State) (cl fuel : Nat) (h : MemoryInv s) : MemoryInv (s.rasterFuel cl fuel) := by
  induction fuel generalizing s with
  | zero => exact h
  | succ fuel ih =>
    unfold State.rasterFuel
    dsimp only
    repeat' (first | with_reducible assumption | with_reducible apply ih | with_reducible apply keeps_drawFault | with_reducible apply keeps_updRaster | with_reducible apply keeps_putPixel | with_reducible refine keeps_ite (fun _ => ?_) (fun _ => ?_) | split)

theorem keeps_execFragmentEmit (s : State) (h : MemoryInv s) : Keeps (execFragmentEmit s) := by
  unfold execFragmentEmit
  try dsimp only
  repeat' first
    | with_reducible first
      | assumption | apply keeps_next | refine keeps_iteO (fun _ => ?_) (fun _ => ?_) | apply keeps_storageError
      | apply keeps_rasterFuel | refine keeps_ite (fun _ => ?_) (fun _ => ?_)
    | split | dsimp only

theorem keeps_blendSamples (s : State) (core group : Nat) (b : List Byte) (x y : Nat) (colour : List Word) (l : List Nat)
    (h : MemoryInv s) : KeepsOk (KeepsSome MemoryInv) (s.blendSamples core group b x y colour l) := by
  induction l generalizing s with
  | nil => exact keeps_ok (keeps_some h)
  | cons c l ih =>
    unfold State.blendSamples
    dsimp only
    repeat' (first | with_reducible assumption | with_reducible exact keeps_error | with_reducible exact keeps_ok keeps_none | with_reducible apply ih | with_reducible refine keeps_of_okSome (keeps_engUpdate _ _ _ _ _ _ _ _ ?_) (by assumption) | split)

theorem keeps_execTicketRetire (s : State) (h : MemoryInv s) : Keeps (execTicketRetire s) := by
  unfold execTicketRetire
  try dsimp only
  repeat' first
    | with_reducible first
      | assumption | apply keeps_next | refine keeps_iteO (fun _ => ?_) (fun _ => ?_) | apply keeps_cmdFault
      | apply keeps_storageError | apply keeps_updRaster
      | refine keeps_of_okSome (keeps_blendSamples _ _ _ _ _ _ _ _ ?_) (by assumption)
      | refine keeps_blendSamples _ _ _ _ _ _ _ _ ?_ | refine keeps_getD ?_ ?_
      | refine keeps_ite (fun _ => ?_) (fun _ => ?_)
    | split | (simp only [keeps_mk]; change MemoryInv _) | dsimp only

theorem keeps_execDrawFlushComplete (s : State) (h : MemoryInv s) : Keeps (execDrawFlushComplete s) := by
  unfold execDrawFlushComplete
  try dsimp only
  repeat' first
    | with_reducible first
      | assumption | apply keeps_next | refine keeps_iteO (fun _ => ?_) (fun _ => ?_) | apply keeps_release
      | apply keeps_answerCmd | apply keeps_setDrawOpen | apply keeps_updRaster
      | refine keeps_ite (fun _ => ?_) (fun _ => ?_)
    | split | (simp only [keeps_mk]; change MemoryInv _) | dsimp only

theorem keeps_execVisAttrResult (s : State) (h : MemoryInv s) : Keeps (execVisAttrResult s) := by
  unfold execVisAttrResult
  try dsimp only
  repeat' first
    | with_reducible first
      | assumption | apply keeps_next | apply keeps_deliver | apply keeps_cmdFault | apply keeps_storageError
      | apply keeps_updRaster
    | split | (simp only [keeps_mk]; change MemoryInv _) | dsimp only

theorem keeps_updRay (s : State) (cl ticket : Nat) (f : TrReq → TrReq) (h : MemoryInv s) :
    MemoryInv (State.updRay s cl ticket f) := by
  unfold State.updRay
  try dsimp only
  repeat' first
    | with_reducible first
      | assumption | apply keeps_updCluster
    | (simp only [keeps_mk]; change MemoryInv _) | dsimp only

theorem keeps_freeRay (s : State) (cl ticket : Nat) (h : MemoryInv s) : MemoryInv (State.freeRay s cl ticket) := by
  unfold State.freeRay
  try dsimp only
  repeat' first
    | with_reducible first
      | assumption | apply keeps_updCluster
    | (simp only [keeps_mk]; change MemoryInv _) | dsimp only

theorem keeps_takeFmt (s : State) (cl core : Nat) (c : Cmd) (h : MemoryInv s) :
    MemoryInv (State.takeFmt s cl core c) := by
  unfold State.takeFmt
  try dsimp only
  repeat' first
    | with_reducible first
      | assumption | apply keeps_updCluster | apply keeps_cmdFault | refine keeps_ite (fun _ => ?_) (fun _ => ?_)
    | split | (simp only [keeps_mk]; change MemoryInv _) | dsimp only

theorem keeps_takeTraversal (s : State) (cl core kind ticket : Nat) (c : Cmd) (h : MemoryInv s) :
    KeepsSome MemoryInv (State.takeTraversal s cl core kind ticket c) := by
  unfold State.takeTraversal
  try dsimp only
  repeat' first
    | with_reducible first
      | assumption | exact keeps_none | exact keeps_error | apply keeps_some | apply keeps_ok
      | apply keeps_updCluster | apply keeps_cmdFault | apply keeps_answerCmd | apply keeps_updRay
      | refine keeps_getD ?_ ?_ | refine keeps_ite (fun _ => ?_) (fun _ => ?_)
    | split | (simp only [keeps_mk]; change MemoryInv _) | dsimp only

theorem keeps_takeRes (s : State) (cl : Nat) (c : Cmd) (h : MemoryInv s) :
    KeepsSome MemoryInv (State.takeRes s cl c) := by
  unfold State.takeRes
  try dsimp only
  repeat' first
    | with_reducible first
      | assumption | exact keeps_none | exact keeps_error | apply keeps_some | apply keeps_ok | apply keeps_cmdFault
      | apply keeps_updRay | refine keeps_getD ?_ ?_ | refine keeps_ite (fun _ => ?_) (fun _ => ?_)
    | split | (simp only [keeps_mk]; change MemoryInv _) | dsimp only

theorem keeps_endTokens (s : State) (cl : Nat) (r : TrReq) (w : Word) (h : MemoryInv s) :
    MemoryInv (State.endTokens s cl r w) := by
  unfold State.endTokens
  try dsimp only
  repeat' first
    | with_reducible first
      | assumption | apply keeps_emitEdge | apply keeps_freeRay
    | dsimp only

theorem keeps_endRequest (s : State) (cl : Nat) (r : TrReq) (status : Nat) (h : MemoryInv s) :
    MemoryInv (State.endRequest s cl r status) := by
  unfold State.endRequest
  try dsimp only
  repeat' first
    | with_reducible first
      | assumption | apply keeps_status | apply keeps_updRay | apply keeps_endTokens
      | refine keeps_ite (fun _ => ?_) (fun _ => ?_)
    | split | (simp only [keeps_mk]; change MemoryInv _) | dsimp only

theorem keeps_rayFault (s : State) (cl : Nat) (r : TrReq) (code addr : Nat) (h : MemoryInv s) :
    MemoryInv (State.rayFault s cl r code addr) := by
  unfold State.rayFault
  try dsimp only
  repeat' first
    | with_reducible first
      | assumption | apply keeps_cmdFault | apply keeps_updRay
    | (simp only [keeps_mk]; change MemoryInv _) | dsimp only

theorem keeps_rayPoison (s : State) (cl : Nat) (r : TrReq) (sectors : List Nat) (addr : Nat) (h : MemoryInv s) :
    MemoryInv (State.rayPoison s cl r sectors addr) := by
  unfold State.rayPoison
  try dsimp only
  repeat' first
    | with_reducible first
      | assumption | apply keeps_updCluster | apply keeps_emitEdge | apply keeps_endRequest | apply keeps_rayFault
      | refine foldl_keeps _ _ _ ?_ fun _ _ _ => ?_ | refine foldl_keeps_fst _ _ _ ?_ fun _ _ _ => ?_
      | refine keeps_ite (fun _ => ?_) (fun _ => ?_)
    | split | (simp only [keeps_mk]; change MemoryInv _) | dsimp only

theorem keeps_pushChildren (s : State) (cl : Nat) (r : TrReq) (cs : List (Nat × Word × Nat × Bool)) (h :
    MemoryInv s) :
    MemoryInv (State.pushChildren s cl r cs) := by
  unfold State.pushChildren
  try dsimp only
  repeat' first
    | with_reducible first
      | assumption | apply keeps_updRay | apply keeps_endRequest | refine keeps_ite (fun _ => ?_) (fun _ => ?_)
    | split | (simp only [keeps_mk]; change MemoryInv _) | dsimp only

theorem keeps_visitNode (s : State) (cl core : Nat) (r : TrReq) (addr depth : Nat) (h : MemoryInv s) :
    MemoryInv (State.visitNode s cl core r addr depth) := by
  unfold State.visitNode
  try dsimp only
  repeat' first
    | with_reducible first
      | assumption | apply keeps_rayFault | apply keeps_rayPoison | apply keeps_pushChildren
      | refine keeps_ite (fun _ => ?_) (fun _ => ?_)
    | split | (simp only [keeps_mk]; change MemoryInv _) | dsimp only

theorem keeps_token (s : State) (cl : Nat) (r : TrReq) (addr : Nat) (last : Word) (h : MemoryInv s) :
    MemoryInv (State.token s cl r addr last) := by
  unfold State.token
  try dsimp only
  repeat' first
    | with_reducible first
      | assumption | apply keeps_emitEdge
    | dsimp only

theorem keeps_visitLeaf (s : State) (cl core : Nat) (r : TrReq) (e : Nat × Word × Nat × Bool) (h : MemoryInv s)
    :
    MemoryInv (State.visitLeaf s cl core r e) := by
  unfold State.visitLeaf
  try dsimp only
  repeat' first
    | with_reducible first
      | assumption | apply keeps_updRay | apply keeps_rayFault | apply keeps_rayPoison | apply keeps_token
      | refine keeps_ite (fun _ => ?_) (fun _ => ?_)
    | split | (simp only [keeps_mk]; change MemoryInv _) | dsimp only

theorem keeps_descend (s : State) (cl core : Nat) (r : TrReq) (e : Nat × Word × Nat × Bool) (h : MemoryInv s) :
    MemoryInv (State.descend s cl core r e) := by
  unfold State.descend
  try dsimp only
  repeat' first
    | with_reducible first
      | assumption | apply keeps_visitNode | apply keeps_token | refine keeps_ite (fun _ => ?_) (fun _ => ?_)
    | split | dsimp only

theorem keeps_execTraversalNodeVisit (s : State) (h : MemoryInv s) : Keeps (execTraversalNodeVisit s) := by
  unfold execTraversalNodeVisit
  try dsimp only
  repeat' first
    | with_reducible first
      | assumption | apply keeps_next | refine keeps_iteO (fun _ => ?_) (fun _ => ?_) | apply keeps_status
      | apply keeps_storageError | apply keeps_updRay | apply keeps_endTokens | apply keeps_endRequest
      | apply keeps_visitNode | apply keeps_token | apply keeps_visitLeaf | apply keeps_descend
      | refine keeps_ite (fun _ => ?_) (fun _ => ?_)
    | split | (simp only [keeps_mk]; change MemoryInv _) | dsimp only

theorem keeps_takeReply (s : State) (cl q n : Nat) (h : MemoryInv s) : MemoryInv (State.takeReply s cl q n) := by
  unfold State.takeReply
  try dsimp only
  repeat' first
    | with_reducible first
      | assumption | apply keeps_updCluster | apply keeps_freeSlots | refine keeps_getD ?_ ?_
    | (simp only [keeps_mk]; change MemoryInv _) | dsimp only

theorem keeps_rayReply (s : State) (cl : Nat) (r : TrReq) (t ident : Word) (h : MemoryInv s) :
    MemoryInv (State.rayReply s cl r t ident) := by
  unfold State.rayReply
  try dsimp only
  repeat' first
    | with_reducible first
      | assumption | apply keeps_updRay | refine keeps_ite (fun _ => ?_) (fun _ => ?_)
    | split | (simp only [keeps_mk]; change MemoryInv _) | dsimp only

theorem keeps_walkReply (s : State) (cl core : Nat) (r : TrReq) (w : Word) (h : MemoryInv s) :
    MemoryInv (State.walkReply s cl core r w) := by
  unfold State.walkReply
  try dsimp only
  repeat' first
    | with_reducible first
      | assumption | apply keeps_updRay | apply keeps_endRequest | apply keeps_descend
      | refine keeps_ite (fun _ => ?_) (fun _ => ?_)
    | split | (simp only [keeps_mk]; change MemoryInv _) | dsimp only

theorem keeps_marchReply (s : State) (cl : Nat) (r : TrReq) (w : Word) (h : MemoryInv s) :
    MemoryInv (State.marchReply s cl r w) := by
  unfold State.marchReply
  try dsimp only
  repeat' first
    | with_reducible first
      | assumption | apply keeps_updRay | apply keeps_endTokens | refine keeps_ite (fun _ => ?_) (fun _ => ?_)
    | split | (simp only [keeps_mk]; change MemoryInv _) | dsimp only

theorem keeps_execCallbackReply (s : State) (h : MemoryInv s) : Keeps (execCallbackReply s) := by
  unfold execCallbackReply
  try dsimp only
  repeat' first
    | with_reducible first
      | assumption | apply keeps_next | refine keeps_iteO (fun _ => ?_) (fun _ => ?_) | apply keeps_takeReply
      | apply keeps_rayReply | apply keeps_walkReply | apply keeps_marchReply | refine keeps_getD ?_ ?_
      | refine keeps_ite (fun _ => ?_) (fun _ => ?_)
    | split | (simp only [keeps_mk]; change MemoryInv _) | dsimp only

theorem keeps_execMarchCellEmit (s : State) (h : MemoryInv s) : Keeps (execMarchCellEmit s) := by
  unfold execMarchCellEmit
  try dsimp only
  repeat' first
    | with_reducible first
      | assumption | apply keeps_next | refine keeps_iteO (fun _ => ?_) (fun _ => ?_) | apply keeps_emitEdge
      | apply keeps_updRay | apply keeps_endTokens | refine keeps_ite (fun _ => ?_) (fun _ => ?_)
    | split | (simp only [keeps_mk]; change MemoryInv _) | dsimp only

theorem keeps_execRayEnd (s : State) (h : MemoryInv s) : Keeps (execRayEnd s) := by
  unfold execRayEnd
  try dsimp only
  repeat' first
    | with_reducible first
      | assumption | apply keeps_next | refine keeps_iteO (fun _ => ?_) (fun _ => ?_) | apply keeps_deliver
      | refine keeps_of_ok (keeps_engWrite _ _ _ _ _ ?_) (by assumption) | refine keeps_engWrite _ _ _ _ _ ?_
      | apply keeps_noteWritten | apply keeps_freeRay | apply keeps_rayFault
      | refine foldl_keeps _ _ _ ?_ fun _ _ _ => ?_ | refine foldl_keeps_fst _ _ _ ?_ fun _ _ _ => ?_
      | refine keeps_ite (fun _ => ?_) (fun _ => ?_)
    | split | (simp only [keeps_mk]; change MemoryInv _) | dsimp only

theorem keeps_execNodePoisonExpiry (s : State) (h : MemoryInv s) : Keeps (execNodePoisonExpiry s) := by
  unfold execNodePoisonExpiry
  try dsimp only
  repeat' first
    | with_reducible first
      | assumption | apply keeps_next | apply keeps_updCluster
    | (simp only [keeps_mk]; change MemoryInv _) | dsimp only

theorem keeps_updSampler (s : State) (cl : Nat) (f : Sampler → Sampler) (h : MemoryInv s) :
    MemoryInv (State.updSampler s cl f) := by
  unfold State.updSampler
  try dsimp only
  repeat' first
    | with_reducible first
      | assumption | apply keeps_updCluster
    | (simp only [keeps_mk]; change MemoryInv _) | dsimp only

theorem keeps_dropUnused (s : State) (cl : Nat) (h : MemoryInv s) : MemoryInv (State.dropUnused s cl) := by
  unfold State.dropUnused
  try dsimp only
  repeat' first
    | with_reducible first
      | assumption
    | (simp only [keeps_mk]; change MemoryInv _) | dsimp only

theorem keeps_takeBind (s : State) (cl core : Nat) (c : Cmd) (h : MemoryInv s) :
    MemoryInv (State.takeBind s cl core c) := by
  unfold State.takeBind
  try dsimp only
  repeat' first
    | with_reducible first
      | assumption | apply keeps_cmdFault | apply keeps_updSampler | apply keeps_dropUnused
      | refine keeps_ite (fun _ => ?_) (fun _ => ?_)
    | split | (simp only [keeps_mk]; change MemoryInv _) | dsimp only

theorem keeps_fitResult (s : State) (c : Cmd) (n : Nat) (h : MemoryInv s) :
    KeepsSome (fun x => MemoryInv x.1) (s.fitResult c n) := by
  unfold State.fitResult
  repeat' first
    | with_reducible first
      | assumption | exact keeps_none | apply keeps_some | apply keeps_updElem | exact keeps_reserveN_fst h
    | split | dsimp only

theorem keeps_takeSample (s : State) (cl : Nat) (c : Cmd) (dec : Bool) (h : MemoryInv s) :
    KeepsSome MemoryInv (s.takeSample cl c dec) := by
  unfold State.takeSample
  dsimp only
  repeat' first
    | with_reducible first
      | assumption | exact keeps_none | apply keeps_some | apply keeps_cmdFault
    | (rename_i e; exact keeps_updSampler _ _ _ (keeps_fitResult _ _ _ h _ e)) | split

theorem keeps_execWeightLoadBind (s : State) (h : MemoryInv s) : Keeps (execWeightLoadBind s) := by
  unfold execWeightLoadBind
  try dsimp only
  repeat' first
    | with_reducible first
      | assumption | apply keeps_next | refine keeps_iteO (fun _ => ?_) (fun _ => ?_) | apply keeps_cmdFault
      | apply keeps_storageError | apply keeps_answerCmd | apply keeps_updSampler
      | refine keeps_ite (fun _ => ?_) (fun _ => ?_)
    | split | (simp only [keeps_mk]; change MemoryInv _) | dsimp only

theorem keeps_execWeightEntryRemove (s : State) (h : MemoryInv s) : Keeps (execWeightEntryRemove s) := by
  unfold execWeightEntryRemove
  try dsimp only
  repeat' first
    | with_reducible first
      | assumption | apply keeps_next | refine keeps_iteO (fun _ => ?_) (fun _ => ?_) | apply keeps_updSampler
      | refine keeps_ite (fun _ => ?_) (fun _ => ?_)
    | split | (simp only [keeps_mk]; change MemoryInv _) | dsimp only

theorem keeps_execWeightEntryPoison (s : State) (h : MemoryInv s) : Keeps (execWeightEntryPoison s) := by
  unfold execWeightEntryPoison
  try dsimp only
  repeat' first
    | with_reducible first
      | assumption | apply keeps_next | refine keeps_iteO (fun _ => ?_) (fun _ => ?_) | apply keeps_countPreg
      | apply keeps_updSampler | refine keeps_ite (fun _ => ?_) (fun _ => ?_)
    | split | (simp only [keeps_mk]; change MemoryInv _) | dsimp only

theorem keeps_execSampleComplete (s : State) (h : MemoryInv s) : Keeps (execSampleComplete s) := by
  unfold execSampleComplete
  try dsimp only
  repeat' first
    | with_reducible first
      | assumption | apply keeps_next | refine keeps_iteO (fun _ => ?_) (fun _ => ?_) | apply keeps_deliver
      | apply keeps_cmdFault | apply keeps_storageError | apply keeps_updSampler | apply keeps_dropUnused
      | refine keeps_ite (fun _ => ?_) (fun _ => ?_)
    | split | (simp only [keeps_mk]; change MemoryInv _) | dsimp only

theorem keeps_acceptTraversal (s : State) (cl core ticket : Nat) (c : Cmd) (h : MemoryInv s) :
    KeepsSome MemoryInv (State.acceptTraversal s cl core ticket c) := by
  unfold State.acceptTraversal
  try dsimp only
  repeat' first
    | with_reducible first
      | assumption | exact keeps_none | exact keeps_error | apply keeps_some | apply keeps_ok | apply keeps_takeFmt
      | refine keeps_of_some (keeps_takeTraversal _ _ _ _ _ _ ?_) (by assumption)
      | refine keeps_takeTraversal _ _ _ _ _ _ ?_ | refine keeps_of_some (keeps_takeRes _ _ _ ?_) (by assumption)
      | refine keeps_takeRes _ _ _ ?_
    | split | (simp only [keeps_mk]; change MemoryInv _) | dsimp only

theorem keeps_takeDraw (s : State) (cl core : Nat) (c : Cmd) (h : MemoryInv s) :
    KeepsSome MemoryInv (State.takeDraw s cl core c) := by
  unfold State.takeDraw
  try dsimp only
  repeat' first
    | with_reducible first
      | assumption | exact keeps_none | exact keeps_error | apply keeps_some | apply keeps_ok | apply keeps_cmdFault
      | apply keeps_setDrawOpen | apply keeps_updRaster | refine keeps_getD ?_ ?_
      | refine keeps_ite (fun _ => ?_) (fun _ => ?_)
    | split | (simp only [keeps_mk]; change MemoryInv _) | dsimp only

theorem keeps_acceptRaster (s : State) (cl core : Nat) (c : Cmd) (h : MemoryInv s) :
    KeepsSome MemoryInv (State.acceptRaster s cl core c) := by
  unfold State.acceptRaster
  try dsimp only
  repeat' first
    | with_reducible first
      | assumption | exact keeps_none | exact keeps_error | apply keeps_some | apply keeps_ok | apply keeps_cmdFault
      | apply keeps_updRaster | refine keeps_of_some (keeps_takeDraw _ _ _ _ ?_) (by assumption)
      | refine keeps_takeDraw _ _ _ _ ?_ | refine keeps_ite (fun _ => ?_) (fun _ => ?_)
    | split | (simp only [keeps_mk]; change MemoryInv _) | dsimp only

theorem keeps_acceptBlend (s : State) (cl : Nat) (c : Cmd) (h : MemoryInv s) :
    MemoryInv (State.acceptBlend s cl c) := by
  unfold State.acceptBlend
  try dsimp only
  repeat' first
    | with_reducible first
      | assumption | apply keeps_cmdFault | apply keeps_updRaster | refine keeps_getD ?_ ?_
      | refine keeps_ite (fun _ => ?_) (fun _ => ?_)
    | split | (simp only [keeps_mk]; change MemoryInv _) | dsimp only

theorem keeps_acceptSampler (s : State) (cl core : Nat) (c : Cmd) (h : MemoryInv s) :
    KeepsSome MemoryInv (State.acceptSampler s cl core c) := by
  unfold State.acceptSampler
  try dsimp only
  repeat' first
    | with_reducible first
      | assumption | exact keeps_none | exact keeps_error | apply keeps_some | apply keeps_ok
      | apply keeps_updSampler | apply keeps_takeBind | apply keeps_takeSample
      | refine keeps_ite (fun _ => ?_) (fun _ => ?_)
    | split | (simp only [keeps_mk]; change MemoryInv _) | dsimp only

theorem keeps_acceptAt (s : State) (cl pos core ticket : Nat) (c : Cmd) (h : MemoryInv s) :
    KeepsSome MemoryInv (State.acceptAt s cl pos core ticket c) := by
  unfold State.acceptAt
  try dsimp only
  repeat' first
    | with_reducible first
      | assumption | exact keeps_none | exact keeps_error | apply keeps_some | apply keeps_ok
      | refine keeps_of_some (keeps_acceptTraversal _ _ _ _ _ ?_) (by assumption)
      | refine keeps_acceptTraversal _ _ _ _ _ ?_
      | refine keeps_of_some (keeps_acceptRaster _ _ _ _ ?_) (by assumption) | refine keeps_acceptRaster _ _ _ _ ?_
      | apply keeps_acceptBlend | refine keeps_of_some (keeps_acceptSampler _ _ _ _ ?_) (by assumption)
      | refine keeps_acceptSampler _ _ _ _ ?_
    | split | (simp only [keeps_mk]; change MemoryInv _) | dsimp only

theorem keeps_popIsland (s : State) (core pos : Nat) (h : MemoryInv s) : MemoryInv (State.popIsland s core pos) := by
  unfold State.popIsland
  try dsimp only
  repeat' first
    | with_reducible first
      | assumption | apply keeps_updCore
    | (simp only [keeps_mk]; change MemoryInv _) | dsimp only

theorem keeps_acceptFrom (s : State) (cl pos ticket : Nat) (l : List Nat) (h : MemoryInv s) :
    MemoryInv (s.acceptFrom cl pos ticket l) := by
  induction l generalizing s with
  | nil => exact h
  | cons core l ih =>
    unfold State.acceptFrom
    repeat' (first | with_reducible assumption | with_reducible apply ih | with_reducible apply keeps_updCluster | with_reducible refine keeps_of_some (keeps_acceptAt _ _ _ _ _ _ ?_) (by assumption) | with_reducible apply keeps_popIsland | with_reducible refine keeps_ite (fun _ => ?_) (fun _ => ?_) | split)

theorem keeps_execIslandRequestAccept (s : State) (h : MemoryInv s) : Keeps (execIslandRequestAccept s) := by
  unfold execIslandRequestAccept
  try dsimp only
  repeat' first
    | with_reducible first
      | assumption | apply keeps_next | apply keeps_storageError | apply keeps_acceptFrom | refine keeps_getD ?_ ?_
    | dsimp only

theorem keeps_sendLate (s : State) (dm : Demand) (dst : Code) (kind : ReqKind) (ops : List Word) (h : MemoryInv
    s) :
    MemoryInv (State.sendLate s dm dst kind ops) := by
  unfold State.sendLate
  try dsimp only
  repeat' first
    | with_reducible first
      | assumption | apply keeps_addReq | refine keeps_reserveDst ?_ (by assumption) | apply keeps_reserveDst_fst
      | apply keeps_consume
    | split | (simp only [keeps_mk]; change MemoryInv _) | dsimp only

theorem keeps_execColReq (o : ROp) (s : State) (h : MemoryInv s) : Keeps (execColReq o s) := by
  unfold execColReq
  try dsimp only
  repeat' first
    | with_reducible first
      | assumption | apply keeps_next | apply keeps_sendLate | refine keeps_fire _ _ _ _ ?_ (fun _ => ?_)
      | refine keeps_fireOp _ _ ?_ (fun _ => ?_)
    | dsimp only

theorem keeps_execColRel (o : ROp) (s : State) (h : MemoryInv s) : Keeps (execColRel o s) := by
  unfold execColRel
  try dsimp only
  repeat' first
    | with_reducible first
      | assumption | apply keeps_next | refine keeps_iteO (fun _ => ?_) (fun _ => ?_) | apply keeps_updSpur
      | apply keeps_consume | refine keeps_fire _ _ _ _ ?_ (fun _ => ?_) | refine keeps_fireOp _ _ ?_ (fun _ => ?_)
      | refine keeps_ite (fun _ => ?_) (fun _ => ?_)
    | split | (simp only [keeps_mk]; change MemoryInv _) | dsimp only

theorem keeps_execBarArrive (o : ROp) (s : State) (h : MemoryInv s) : Keeps (execBarArrive o s) := by
  unfold execBarArrive
  try dsimp only
  repeat' first
    | with_reducible first
      | assumption | apply keeps_next | apply keeps_updSpur | apply keeps_sendLate
      | refine keeps_fire _ _ _ _ ?_ (fun _ => ?_) | refine keeps_fireOp _ _ ?_ (fun _ => ?_)
      | refine keeps_getD ?_ ?_
    | split | (simp only [keeps_mk]; change MemoryInv _) | dsimp only

theorem keeps_execDrain (o : ROp) (s : State) (h : MemoryInv s) : Keeps (execDrain o s) := by
  unfold execDrain
  try dsimp only
  repeat' first
    | with_reducible first
      | assumption | apply keeps_next | apply keeps_updSpur | apply keeps_sendLate
      | refine keeps_fire _ _ _ _ ?_ (fun _ => ?_) | refine keeps_fireOp _ _ ?_ (fun _ => ?_)
      | refine keeps_getD ?_ ?_
    | split | (simp only [keeps_mk]; change MemoryInv _) | dsimp only

theorem keeps_execQuiet (o : ROp) (s : State) (h : MemoryInv s) : Keeps (execQuiet o s) := by
  unfold execQuiet
  try dsimp only
  repeat' first
    | with_reducible first
      | assumption | apply keeps_next | apply keeps_updSpur | apply keeps_consume
      | refine keeps_fire _ _ _ _ ?_ (fun _ => ?_) | refine keeps_fireOp _ _ ?_ (fun _ => ?_)
    | split | (simp only [keeps_mk]; change MemoryInv _) | dsimp only

theorem keeps_execSig (o : ROp) (s : State) (h : MemoryInv s) : Keeps (execSig o s) := by
  unfold execSig
  try dsimp only
  repeat' first
    | with_reducible first
      | assumption | apply keeps_next | apply keeps_addReq | apply keeps_consume
      | refine keeps_fire _ _ _ _ ?_ (fun _ => ?_) | refine keeps_fireOp _ _ ?_ (fun _ => ?_)
    | (simp only [keeps_mk]; change MemoryInv _) | dsimp only

theorem keeps_execChainPut (o : ROp) (s : State) (h : MemoryInv s) : Keeps (execChainPut o s) := by
  unfold execChainPut
  try dsimp only
  repeat' first
    | with_reducible first
      | assumption | apply keeps_next | apply keeps_addReq | refine keeps_reserveDst ?_ (by assumption)
      | apply keeps_reserveDst_fst | apply keeps_consume | refine keeps_fire _ _ _ _ ?_ (fun _ => ?_)
      | refine keeps_fireOp _ _ ?_ (fun _ => ?_)
    | split | (simp only [keeps_mk]; change MemoryInv _) | dsimp only

theorem keeps_execBarrierArrivalMessage (s : State) (h : MemoryInv s) : Keeps (execBarrierArrivalMessage s) := by
  unfold execBarrierArrivalMessage
  try dsimp only
  repeat' first
    | with_reducible first
      | assumption | apply keeps_next | refine keeps_iteO (fun _ => ?_) (fun _ => ?_) | apply keeps_updSpur
      | refine keeps_ite (fun _ => ?_) (fun _ => ?_)
    | split | (simp only [keeps_mk]; change MemoryInv _) | dsimp only

theorem keeps_releaseBarrier (s : State) (p : Spur) (b : Nat) (h : MemoryInv s) :
    MemoryInv (State.releaseBarrier s p b) := by
  unfold State.releaseBarrier
  try dsimp only
  repeat' first
    | with_reducible first
      | assumption | apply keeps_updSpur
    | (simp only [keeps_mk]; change MemoryInv _) | dsimp only

theorem keeps_execBarrierRelease (s : State) (h : MemoryInv s) : Keeps (execBarrierRelease s) := by
  unfold execBarrierRelease
  try dsimp only
  repeat' first
    | with_reducible first
      | assumption | apply keeps_next | refine keeps_iteO (fun _ => ?_) (fun _ => ?_) | apply keeps_updChain
      | apply keeps_releaseBarrier | refine foldl_keeps _ _ _ ?_ fun _ _ _ => ?_
      | refine foldl_keeps_fst _ _ _ ?_ fun _ _ _ => ?_ | refine keeps_ite (fun _ => ?_) (fun _ => ?_)
    | split | (simp only [keeps_mk]; change MemoryInv _) | dsimp only

theorem keeps_updCol (s : State) (spur : Nat) (f : Col → Col) (h : MemoryInv s) :
    MemoryInv (State.updCol s spur f) := by
  unfold State.updCol
  try dsimp only
  repeat' first
    | with_reducible first
      | assumption | apply keeps_updSpur
    | (simp only [keeps_mk]; change MemoryInv _) | dsimp only

theorem keeps_grant (s : State) (p : Spur) (h : MemoryInv s) : MemoryInv (State.grant s p) := by
  unfold State.grant
  try dsimp only
  repeat' first
    | with_reducible first
      | assumption | apply keeps_updReq | apply keeps_updCol
    | split | (simp only [keeps_mk]; change MemoryInv _) | dsimp only

theorem keeps_reachCol (s : State) (r : Req) (j arc : Nat) (h : MemoryInv s) :
    MemoryInv (State.reachCol s r j arc) := by
  unfold State.reachCol
  try dsimp only
  repeat' first
    | with_reducible first
      | assumption | apply keeps_updReq | apply keeps_updCol | apply keeps_grant
      | refine keeps_ite (fun _ => ?_) (fun _ => ?_)
    | split | (simp only [keeps_mk]; change MemoryInv _) | dsimp only

theorem keeps_execColGrant (s : State) (h : MemoryInv s) : Keeps (execColGrant s) := by
  unfold execColGrant
  try dsimp only
  repeat' first
    | with_reducible first
      | assumption | apply keeps_next | refine keeps_iteO (fun _ => ?_) (fun _ => ?_) | apply keeps_grant
      | apply keeps_reachCol | refine keeps_ite (fun _ => ?_) (fun _ => ?_)
    | split | (simp only [keeps_mk]; change MemoryInv _) | dsimp only

theorem keeps_execDrainTokenPass (s : State) (h : MemoryInv s) : Keeps (execDrainTokenPass s) := by
  unfold execDrainTokenPass
  try dsimp only
  repeat' first
    | with_reducible first
      | assumption | apply keeps_next | refine keeps_iteO (fun _ => ?_) (fun _ => ?_) | apply keeps_updSpur
      | refine keeps_ite (fun _ => ?_) (fun _ => ?_)
    | split | (simp only [keeps_mk]; change MemoryInv _) | dsimp only

theorem keeps_execDrainEnd (s : State) (h : MemoryInv s) : Keeps (execDrainEnd s) := by
  unfold execDrainEnd
  try dsimp only
  repeat' first
    | with_reducible first
      | assumption | apply keeps_next | refine keeps_iteO (fun _ => ?_) (fun _ => ?_) | apply keeps_updSpur
      | refine keeps_ite (fun _ => ?_) (fun _ => ?_)
    | split | (simp only [keeps_mk]; change MemoryInv _) | dsimp only

theorem keeps_countFreed (s : State) (spur : Nat) (h : MemoryInv s) : MemoryInv (State.countFreed s spur) := by
  unfold State.countFreed
  try dsimp only
  repeat' first
    | with_reducible first
      | assumption | apply keeps_updElem | apply keeps_updLink | refine foldl_keeps _ _ _ ?_ fun _ _ _ => ?_
      | refine foldl_keeps_fst _ _ _ ?_ fun _ _ _ => ?_
    | split | (simp only [keeps_mk]; change MemoryInv _) | dsimp only

end Sys2Proof.Machine
end

