-- ==== Sys2Proof/Laws/KeepsWork.lean ====
section
/-!
SUPPORT. The operations of `Determinism`, `Launch`, `Freeze`, `MemRules`, `Resume`, `Completion`, `OrcEvents`, `FabricEvents`, `Monitoring`, `HostEvents` keep the canonical form of the memories.
-/
namespace Sys2Proof.Machine

theorem keeps_refuse (s : State) (ident : Nat) (r : Refuse) (h : MemoryInv s) :
    MemoryInv (State.refuse s ident r) := by
  unfold State.refuse
  try dsimp only
  repeat' first
    | with_reducible first
      | assumption | apply keeps_countPreg | apply keeps_endChain | apply keeps_putRecord | apply keeps_status
      | refine keeps_getD ?_ ?_ | refine keeps_ite (fun _ => ?_) (fun _ => ?_)
    | split | (simp only [keeps_mk]; change MemoryInv _) | dsimp only

theorem keeps_takeRecord (s : State) (m q : Nat) (r : List Byte) (h : MemoryInv s) :
    MemoryInv (State.takeRecord s m q r) := by
  unfold State.takeRecord
  try dsimp only
  repeat' first
    | with_reducible first
      | assumption | apply keeps_bump | apply keeps_countPreg | apply keeps_refuse
      | refine keeps_ite (fun _ => ?_) (fun _ => ?_)
    | split | (simp only [keeps_mk]; change MemoryInv _) | dsimp only

theorem keeps_execChainRecordTake (s : State) (h : MemoryInv s) : Keeps (execChainRecordTake s) := by
  unfold execChainRecordTake
  try dsimp only
  repeat' first
    | with_reducible first
      | assumption | apply keeps_next | refine keeps_iteO (fun _ => ?_) (fun _ => ?_) | apply keeps_setPreg
      | apply keeps_takeRecord | refine keeps_ite (fun _ => ?_) (fun _ => ?_)
    | split | (simp only [keeps_mk]; change MemoryInv _) | dsimp only

theorem keeps_execPriorityAging (s : State) (h : MemoryInv s) : Keeps (execPriorityAging s) := by
  unfold execPriorityAging
  try dsimp only
  repeat' first
    | with_reducible first
      | assumption | apply keeps_next | refine keeps_iteO (fun _ => ?_) (fun _ => ?_) | apply keeps_updChain
      | refine keeps_ite (fun _ => ?_) (fun _ => ?_)
    | split | (simp only [keeps_mk]; change MemoryInv _) | dsimp only

theorem keeps_rotate (s : State) (c : Chain) (h : MemoryInv s) : MemoryInv (State.rotate s c) := by
  unfold State.rotate
  try dsimp only
  repeat' first
    | with_reducible first
      | assumption | refine keeps_ite (fun _ => ?_) (fun _ => ?_)
    | split | (simp only [keeps_mk]; change MemoryInv _) | dsimp only

theorem keeps_sendFreeze (s : State) (ident : Nat) (h : MemoryInv s) : MemoryInv (State.sendFreeze s ident) := by
  unfold State.sendFreeze
  try dsimp only
  repeat' first
    | with_reducible first
      | assumption | apply keeps_updChain | apply keeps_quietCores | apply keeps_returnLeases
    | (simp only [keeps_mk]; change MemoryInv _) | dsimp only

theorem keeps_placeStage (s : State) (c : Chain) (fits : Chain → Bool) (h : MemoryInv s) :
    MemoryInv (State.placeStage s c fits) := by
  unfold State.placeStage
  try dsimp only
  repeat' first
    | with_reducible first
      | assumption | apply keeps_updChain | apply keeps_refuse | apply keeps_rotate | apply keeps_sendFreeze
      | refine foldl_keeps _ _ _ ?_ fun _ _ _ => ?_ | refine foldl_keeps_fst _ _ _ ?_ fun _ _ _ => ?_
      | refine keeps_ite (fun _ => ?_) (fun _ => ?_)
    | split | (simp only [keeps_mk]; change MemoryInv _) | dsimp only

theorem keeps_evictLeft (s : State) (p : Spur) (h : MemoryInv s) : MemoryInv (State.evictLeft s p) := by
  unfold State.evictLeft
  try dsimp only
  repeat' first
    | with_reducible first
      | assumption | apply keeps_updChain | apply keeps_freeIslands | refine foldl_keeps _ _ _ ?_ fun _ _ _ => ?_
      | refine foldl_keeps_fst _ _ _ ?_ fun _ _ _ => ?_ | refine keeps_ite (fun _ => ?_) (fun _ => ?_)
    | split | (simp only [keeps_mk]; change MemoryInv _) | dsimp only

theorem keeps_loadSpurs_fst {s : State} {c : Chain} {l : List (Place × List Byte)} {stage : Nat} (h : MemoryInv
    s) :
    MemoryInv (State.loadSpurs s c l stage).fst := by
  unfold State.loadSpurs
  try dsimp only
  repeat' first
    | with_reducible first
      | assumption | apply keeps_bump | apply keeps_loadElems | apply keeps_loadCores | apply keeps_loadLinks
      | refine keeps_freshTemplates ?_ (by assumption) | apply keeps_freshTemplates_fst | apply keeps_evictLeft
      | refine keeps_getD ?_ ?_ | refine foldl_keeps _ _ _ ?_ fun _ _ _ => ?_
      | refine foldl_keeps_fst _ _ _ ?_ fun _ _ _ => ?_ | refine keeps_ite (fun _ => ?_) (fun _ => ?_)
    | split | (simp only [keeps_mk]; change MemoryInv _) | dsimp only

theorem keeps_loadSpurs {s : State} {c : Chain} {l : List (Place × List Byte)} {stage : Nat} {t : State} {x :
    Option (Nat × Nat)} (h : MemoryInv s) (e : State.loadSpurs s c l stage = (t, x)) :
    MemoryInv t := by
  have := show MemoryInv (State.loadSpurs s c l stage).fst from keeps_loadSpurs_fst h
  rw [e] at this
  exact this

theorem keeps_execImageFetch (s : State) (h : MemoryInv s) : Keeps (execImageFetch s) := by
  unfold execImageFetch
  try dsimp only
  repeat' first
    | with_reducible first
      | assumption | apply keeps_next | refine keeps_iteO (fun _ => ?_) (fun _ => ?_) | apply keeps_updChain
      | apply keeps_refuse | refine keeps_loadSpurs ?_ (by assumption) | apply keeps_loadSpurs_fst
      | refine keeps_ite (fun _ => ?_) (fun _ => ?_)
    | split | (simp only [keeps_mk]; change MemoryInv _) | dsimp only

theorem keeps_settleCols (s : State) (ident : Nat) (h : MemoryInv s) : MemoryInv (State.settleCols s ident) := by
  unfold State.settleCols
  try dsimp only
  repeat' first
    | with_reducible first
      | assumption | apply keeps_reachCol | refine foldl_keeps _ _ _ ?_ fun _ _ _ => ?_
      | refine foldl_keeps_fst _ _ _ ?_ fun _ _ _ => ?_
    | split | (simp only [keeps_mk]; change MemoryInv _) | dsimp only

theorem keeps_writeBackL1 (s : State) (p : Spur) (h : MemoryInv s) : MemoryInv (State.writeBackL1 s p) := by
  unfold State.writeBackL1
  try dsimp only
  repeat' first
    | with_reducible first
      | assumption | apply keeps_writeBackWhere | apply keeps_prune | refine foldl_keeps _ _ _ ?_ fun _ _ _ => ?_
      | refine foldl_keeps_fst _ _ _ ?_ fun _ _ _ => ?_
    | split | (simp only [keeps_mk]; change MemoryInv _) | dsimp only

theorem keeps_takeWaits (s : State) (ident : Nat) (h : MemoryInv s) : MemoryInv (State.takeWaits s ident) := by
  unfold State.takeWaits
  try dsimp only
  repeat' first
    | with_reducible first
      | assumption | apply keeps_updChain
    | split | (simp only [keeps_mk]; change MemoryInv _) | dsimp only

theorem keeps_parkFirings (s : State) (ident : Nat) (h : MemoryInv s) : MemoryInv (State.parkFirings s ident) := by
  unfold State.parkFirings
  try dsimp only
  repeat' first
    | with_reducible first
      | assumption | apply keeps_updCore | refine foldl_keeps _ _ _ ?_ fun _ _ _ => ?_
      | refine foldl_keeps_fst _ _ _ ?_ fun _ _ _ => ?_ | refine keeps_ite (fun _ => ?_) (fun _ => ?_)
    | split | (simp only [keeps_mk]; change MemoryInv _) | dsimp only

theorem keeps_settleWrites (s : State) (p : Spur) (h : MemoryInv s) : MemoryInv (State.settleWrites s p) := by
  unfold State.settleWrites
  try dsimp only
  repeat' first
    | with_reducible first
      | assumption | apply keeps_writeBack | refine foldl_keeps _ _ _ ?_ fun _ _ _ => ?_
      | refine foldl_keeps_fst _ _ _ ?_ fun _ _ _ => ?_
    | split | (simp only [keeps_mk]; change MemoryInv _) | dsimp only

theorem keeps_storeRidge (s : State) (c : Chain) (h : MemoryInv s) : MemoryInv (State.storeRidge s c) := by
  unfold State.storeRidge
  try dsimp only
  repeat' first
    | with_reducible first
      | assumption | apply keeps_updChain | apply keeps_writeVirt | apply keeps_freeIslands
      | apply keeps_addDeparture | apply keeps_clearSpur | apply keeps_freeLeft | apply keeps_endChain
      | apply keeps_refuse | apply keeps_settleWrites | refine foldl_keeps _ _ _ ?_ fun _ _ _ => ?_
      | refine foldl_keeps_fst _ _ _ ?_ fun _ _ _ => ?_ | refine keeps_ite (fun _ => ?_) (fun _ => ?_)
    | split | (simp only [keeps_mk]; change MemoryInv _) | dsimp only

theorem keeps_finishFreeze (s : State) (ident : Nat) (h : MemoryInv s) : MemoryInv (State.finishFreeze s ident) := by
  unfold State.finishFreeze
  try dsimp only
  repeat' first
    | with_reducible first
      | assumption | apply keeps_countFreed | apply keeps_settleCols | apply keeps_writeBackL1
      | apply keeps_takeWaits | apply keeps_parkFirings | apply keeps_storeRidge
      | refine foldl_keeps _ _ _ ?_ fun _ _ _ => ?_ | refine foldl_keeps_fst _ _ _ ?_ fun _ _ _ => ?_
      | refine keeps_ite (fun _ => ?_) (fun _ => ?_)
    | split | (simp only [keeps_mk]; change MemoryInv _) | dsimp only

theorem keeps_execFreezeWave (s : State) (h : MemoryInv s) : Keeps (execFreezeWave s) := by
  unfold execFreezeWave
  try dsimp only
  repeat' first
    | with_reducible first
      | assumption | apply keeps_next | refine keeps_iteO (fun _ => ?_) (fun _ => ?_) | apply keeps_updChain
      | apply keeps_quietCores | apply keeps_returnLeases | apply keeps_finishFreeze
      | refine keeps_ite (fun _ => ?_) (fun _ => ?_)
    | split | (simp only [keeps_mk]; change MemoryInv _) | dsimp only

theorem keeps_execStagePlacement (s : State) (h : MemoryInv s) : Keeps (execStagePlacement s) := by
  unfold execStagePlacement
  try dsimp only
  repeat' first
    | with_reducible first
      | assumption | apply keeps_next | refine keeps_iteO (fun _ => ?_) (fun _ => ?_) | apply keeps_placeStage
      | refine keeps_ite (fun _ => ?_) (fun _ => ?_)
    | split | (simp only [keeps_mk]; change MemoryInv _) | dsimp only

theorem keeps_execClusterOutOfPlacement (s : State) (h : MemoryInv s) : Keeps (execClusterOutOfPlacement s) := by
  unfold execClusterOutOfPlacement
  try dsimp only
  repeat' first
    | with_reducible first
      | assumption | apply keeps_next | refine keeps_iteO (fun _ => ?_) (fun _ => ?_) | apply keeps_updChain
      | apply keeps_setPreg | apply keeps_clearSpur | apply keeps_sendFreeze
      | refine foldl_keeps _ _ _ ?_ fun _ _ _ => ?_ | refine foldl_keeps_fst _ _ _ ?_ fun _ _ _ => ?_
      | refine keeps_ite (fun _ => ?_) (fun _ => ?_)
    | split | (simp only [keeps_mk]; change MemoryInv _) | dsimp only

theorem keeps_groupOf_fst {s : State} (h : MemoryInv s) : MemoryInv (State.groupOf s).fst := by
  unfold State.groupOf
  try dsimp only
  repeat' first
    | with_reducible first
      | assumption | apply keeps_bump
    | split | (simp only [keeps_mk]; change MemoryInv _) | dsimp only

theorem keeps_groupOf {s : State} {t : State} {x : Nat} (h : MemoryInv s) (e : State.groupOf s = (t, x)) :
    MemoryInv t := by
  have := show MemoryInv (State.groupOf s).fst from keeps_groupOf_fst h
  rw [e] at this
  exact this

theorem keeps_takeDone (s : State) (o : MOp) (group : Nat) (h : MemoryInv s) :
    MemoryInv (State.takeDone s o group) := by
  unfold State.takeDone
  try dsimp only
  repeat' first
    | with_reducible first
      | assumption | apply keeps_bump | apply keeps_reserveSlot | refine keeps_ite (fun _ => ?_) (fun _ => ?_)
    | split | (simp only [keeps_mk]; change MemoryInv _) | dsimp only

theorem keeps_sendMem (s : State) (m : MemForm) (kind : ReqKind) (ops : List Word) (reserve : State → State × Dst)
    (hr : ∀ s, MemoryInv s → MemoryInv (reserve s).fst) (h : MemoryInv s) :
    MemoryInv (State.sendMem s m kind ops reserve) := by
  unfold State.sendMem
  exact keeps_takeDone _ _ _ (keeps_addReq _ _ (hr _ (keeps_groupOf_fst (keeps_consume _ _ h))))

theorem keeps_noDst_fst {s : State} (h : MemoryInv s) : MemoryInv (noDst s).fst := by
  unfold noDst
  try dsimp only
  repeat' first
    | with_reducible first
      | assumption
    | dsimp only

theorem keeps_noDst {s : State} {t : State} {x : Dst} (h : MemoryInv s) (e : noDst s = (t, x)) : MemoryInv t := by
  have := show MemoryInv (noDst s).fst from keeps_noDst_fst h
  rw [e] at this
  exact this

theorem keeps_fireLoad (i : Instr) (o : MOp) (k : BitVec 2) (bypass : Bool) (s : State) (h : MemoryInv s) :
    Keeps (fireLoad i o k bypass s) := by
  unfold fireLoad
  try dsimp only
  repeat' first
    | with_reducible first
      | assumption | apply keeps_next | refine keeps_iteO (fun _ => ?_) (fun _ => ?_)
      | refine keeps_reserveDst ?_ (by assumption) | apply keeps_reserveDst_fst
      | refine keeps_reservePair ?_ (by assumption) | apply keeps_reservePair_fst
      | refine keeps_sendMem _ _ _ _ _ (fun _ _ => ?_) ?_ | refine keeps_fire _ _ _ _ ?_ (fun _ => ?_)
      | refine keeps_fireOp _ _ ?_ (fun _ => ?_) | refine keeps_ite (fun _ => ?_) (fun _ => ?_)
    | split | dsimp only

theorem keeps_amoDst_fst {s : State} {o : MOp} {w64 : Bool} (h : MemoryInv s) :
    MemoryInv (State.amoDst s o w64).fst := by
  unfold State.amoDst
  try dsimp only
  repeat' first
    | with_reducible first
      | assumption | refine keeps_reserveDst ?_ (by assumption) | apply keeps_reserveDst_fst
      | refine keeps_reservePair ?_ (by assumption) | apply keeps_reservePair_fst
      | refine keeps_ite (fun _ => ?_) (fun _ => ?_)
    | split | dsimp only

theorem keeps_amoDst {s : State} {o : MOp} {w64 : Bool} {t : State} {x : Dst} (h : MemoryInv s) (e :
    State.amoDst s o w64 = (t, x)) :
    MemoryInv t := by
  have := show MemoryInv (State.amoDst s o w64).fst from keeps_amoDst_fst h
  rw [e] at this
  exact this

theorem keeps_fireAmo (i : Instr) (o : MOp) (op : AmoOp) (always reads : Bool) (s : State) (h : MemoryInv s) :
    Keeps (fireAmo i o op always reads s) := by
  unfold fireAmo
  try dsimp only
  repeat' first
    | with_reducible first
      | assumption | apply keeps_next | refine keeps_iteO (fun _ => ?_) (fun _ => ?_)
      | refine keeps_sendMem _ _ _ _ _ (fun _ _ => ?_) ?_ | refine keeps_amoDst ?_ (by assumption)
      | apply keeps_amoDst_fst | refine keeps_fire _ _ _ _ ?_ (fun _ => ?_)
      | refine keeps_fireOp _ _ ?_ (fun _ => ?_) | refine keeps_ite (fun _ => ?_) (fun _ => ?_)
    | split | dsimp only

theorem keeps_fireOrc (i : Instr) (o : MOp) (kind : ReqKind) (size : Nat) (ops : State → List Word)
    (chk : State → Bool) (dst : State → State × Dst) (s : State) (hd : ∀ s, MemoryInv s → MemoryInv (dst s).fst)
    (h : MemoryInv s) : Keeps (fireOrc i o kind size ops chk dst s) := by
  unfold fireOrc
  exact keeps_fire _ _ _ _ h fun h => keeps_sendMem _ _ _ _ _ hd h

theorem keeps_fireOrcOp (i : Instr) (o : MOp) (op : OrcOp) (s : State) (h : MemoryInv s) :
    Keeps (fireOrcOp i o op s) := by
  unfold fireOrcOp
  try dsimp only
  repeat' first
    | with_reducible first
      | assumption | apply keeps_next | refine keeps_noDst ?_ (by assumption) | apply keeps_noDst_fst
      | refine keeps_fireOrc _ _ _ _ _ _ _ _ (fun _ _ => ?_) ?_
    | dsimp only

theorem keeps_orcDst_fst {s : State} {o : MOp} (h : MemoryInv s) : MemoryInv (State.orcDst s o).fst := by
  unfold State.orcDst
  try dsimp only
  repeat' first
    | with_reducible first
      | assumption | refine keeps_reserveDst ?_ (by assumption) | apply keeps_reserveDst_fst
      | refine keeps_reservePair ?_ (by assumption) | apply keeps_reservePair_fst
      | refine keeps_ite (fun _ => ?_) (fun _ => ?_)
    | split | dsimp only

theorem keeps_orcDst {s : State} {o : MOp} {t : State} {x : Dst} (h : MemoryInv s) (e : State.orcDst s o = (t,
    x)) :
    MemoryInv t := by
  have := show MemoryInv (State.orcDst s o).fst from keeps_orcDst_fst h
  rw [e] at this
  exact this

theorem keeps_execLd (o : MOp) (k : BitVec 2) (s : State) (h : MemoryInv s) : Keeps (execLd o k s) := by
  unfold execLd
  try dsimp only
  repeat' first
    | with_reducible first
      | assumption | apply keeps_next | apply keeps_fireLoad
    | dsimp only

theorem keeps_execLdBy (o : MOp) (k : BitVec 2) (s : State) (h : MemoryInv s) : Keeps (execLdBy o k s) := by
  unfold execLdBy
  try dsimp only
  repeat' first
    | with_reducible first
      | assumption | apply keeps_next | apply keeps_fireLoad
    | dsimp only

theorem keeps_execSt (o : MOp) (k : BitVec 2) (s : State) (h : MemoryInv s) : Keeps (execSt o k s) := by
  unfold execSt
  try dsimp only
  repeat' first
    | with_reducible first
      | assumption | apply keeps_next | refine keeps_iteO (fun _ => ?_) (fun _ => ?_)
      | refine keeps_sendMem _ _ _ _ _ (fun _ _ => ?_) ?_ | refine keeps_noDst ?_ (by assumption)
      | apply keeps_noDst_fst | refine keeps_fire _ _ _ _ ?_ (fun _ => ?_)
      | refine keeps_fireOp _ _ ?_ (fun _ => ?_) | refine keeps_ite (fun _ => ?_) (fun _ => ?_)
    | split | dsimp only

theorem keeps_execLdblk (o : MOp) (s : State) (h : MemoryInv s) : Keeps (execLdblk o s) := by
  unfold execLdblk
  try dsimp only
  repeat' first
    | with_reducible first
      | assumption | apply keeps_next | refine keeps_reserveDst ?_ (by assumption) | apply keeps_reserveDst_fst
      | refine keeps_sendMem _ _ _ _ _ (fun _ _ => ?_) ?_ | refine keeps_fire _ _ _ _ ?_ (fun _ => ?_)
      | refine keeps_fireOp _ _ ?_ (fun _ => ?_)
    | dsimp only

theorem keeps_execStblk (o : MOp) (s : State) (h : MemoryInv s) : Keeps (execStblk o s) := by
  unfold execStblk
  try dsimp only
  repeat' first
    | with_reducible first
      | assumption | apply keeps_next | refine keeps_sendMem _ _ _ _ _ (fun _ _ => ?_) ?_
      | refine keeps_noDst ?_ (by assumption) | apply keeps_noDst_fst | refine keeps_fire _ _ _ _ ?_ (fun _ => ?_)
      | refine keeps_fireOp _ _ ?_ (fun _ => ?_)
    | dsimp only

theorem keeps_execPref (o : MOp) (s : State) (h : MemoryInv s) : Keeps (execPref o s) := by
  unfold execPref
  try dsimp only
  repeat' first
    | with_reducible first
      | assumption | apply keeps_next | refine keeps_sendMem _ _ _ _ _ (fun _ _ => ?_) ?_
      | refine keeps_noDst ?_ (by assumption) | apply keeps_noDst_fst | refine keeps_fire _ _ _ _ ?_ (fun _ => ?_)
      | refine keeps_fireOp _ _ ?_ (fun _ => ?_)
    | dsimp only

theorem keeps_execAmoAdd (o : MOp) (s : State) (h : MemoryInv s) : Keeps (execAmoAdd o s) := by
  unfold execAmoAdd
  try dsimp only
  repeat' first
    | with_reducible first
      | assumption | apply keeps_next | apply keeps_fireAmo
    | dsimp only

theorem keeps_execAmoSub (o : MOp) (s : State) (h : MemoryInv s) : Keeps (execAmoSub o s) := by
  unfold execAmoSub
  try dsimp only
  repeat' first
    | with_reducible first
      | assumption | apply keeps_next | apply keeps_fireAmo
    | dsimp only

theorem keeps_execAmoMin (o : MOp) (s : State) (h : MemoryInv s) : Keeps (execAmoMin o s) := by
  unfold execAmoMin
  try dsimp only
  repeat' first
    | with_reducible first
      | assumption | apply keeps_next | apply keeps_fireAmo
    | dsimp only

theorem keeps_execAmoMax (o : MOp) (s : State) (h : MemoryInv s) : Keeps (execAmoMax o s) := by
  unfold execAmoMax
  try dsimp only
  repeat' first
    | with_reducible first
      | assumption | apply keeps_next | apply keeps_fireAmo
    | dsimp only

theorem keeps_execAmoAnd (o : MOp) (s : State) (h : MemoryInv s) : Keeps (execAmoAnd o s) := by
  unfold execAmoAnd
  try dsimp only
  repeat' first
    | with_reducible first
      | assumption | apply keeps_next | apply keeps_fireAmo
    | dsimp only

theorem keeps_execAmoOr (o : MOp) (s : State) (h : MemoryInv s) : Keeps (execAmoOr o s) := by
  unfold execAmoOr
  try dsimp only
  repeat' first
    | with_reducible first
      | assumption | apply keeps_next | apply keeps_fireAmo
    | dsimp only

theorem keeps_execAmoXor (o : MOp) (s : State) (h : MemoryInv s) : Keeps (execAmoXor o s) := by
  unfold execAmoXor
  try dsimp only
  repeat' first
    | with_reducible first
      | assumption | apply keeps_next | apply keeps_fireAmo
    | dsimp only

theorem keeps_execAmoSwap (o : MOp) (s : State) (h : MemoryInv s) : Keeps (execAmoSwap o s) := by
  unfold execAmoSwap
  try dsimp only
  repeat' first
    | with_reducible first
      | assumption | apply keeps_next | apply keeps_fireAmo
    | dsimp only

theorem keeps_execAmoInc (o : MOp) (s : State) (h : MemoryInv s) : Keeps (execAmoInc o s) := by
  unfold execAmoInc
  try dsimp only
  repeat' first
    | with_reducible first
      | assumption | apply keeps_next | apply keeps_fireAmo
    | dsimp only

theorem keeps_execAmoFmin (o : MOp) (s : State) (h : MemoryInv s) : Keeps (execAmoFmin o s) := by
  unfold execAmoFmin
  try dsimp only
  repeat' first
    | with_reducible first
      | assumption | apply keeps_next | apply keeps_fireAmo
    | dsimp only

theorem keeps_execAmoFmax (o : MOp) (s : State) (h : MemoryInv s) : Keeps (execAmoFmax o s) := by
  unfold execAmoFmax
  try dsimp only
  repeat' first
    | with_reducible first
      | assumption | apply keeps_next | apply keeps_fireAmo
    | dsimp only

theorem keeps_execAmoFadd (o : MOp) (s : State) (h : MemoryInv s) : Keeps (execAmoFadd o s) := by
  unfold execAmoFadd
  try dsimp only
  repeat' first
    | with_reducible first
      | assumption | apply keeps_next | apply keeps_fireAmo
    | dsimp only

theorem keeps_execAmoVmin64 (o : MOp) (s : State) (h : MemoryInv s) : Keeps (execAmoVmin64 o s) := by
  unfold execAmoVmin64
  try dsimp only
  repeat' first
    | with_reducible first
      | assumption | apply keeps_next | apply keeps_fireAmo
    | dsimp only

theorem keeps_execAmoCas (o : MOp) (s : State) (h : MemoryInv s) : Keeps (execAmoCas o s) := by
  unfold execAmoCas
  try dsimp only
  repeat' first
    | with_reducible first
      | assumption | apply keeps_next | refine keeps_iteO (fun _ => ?_) (fun _ => ?_)
      | refine keeps_sendMem _ _ _ _ _ (fun _ _ => ?_) ?_ | refine keeps_amoDst ?_ (by assumption)
      | apply keeps_amoDst_fst | refine keeps_fire _ _ _ _ ?_ (fun _ => ?_)
      | refine keeps_fireOp _ _ ?_ (fun _ => ?_) | refine keeps_ite (fun _ => ?_) (fun _ => ?_)
    | split | dsimp only

theorem keeps_execOrcDom (o : MOp) (s : State) (h : MemoryInv s) : Keeps (execOrcDom o s) := by
  unfold execOrcDom
  try dsimp only
  repeat' first
    | with_reducible first
      | assumption | apply keeps_next | refine keeps_noDst ?_ (by assumption) | apply keeps_noDst_fst
      | refine keeps_fireOrc _ _ _ _ _ _ _ _ (fun _ _ => ?_) ?_
    | dsimp only

theorem keeps_execOrcBind (o : MOp) (s : State) (h : MemoryInv s) : Keeps (execOrcBind o s) := by
  unfold execOrcBind
  try dsimp only
  repeat' first
    | with_reducible first
      | assumption | apply keeps_next | refine keeps_noDst ?_ (by assumption) | apply keeps_noDst_fst
      | refine keeps_fireOrc _ _ _ _ _ _ _ _ (fun _ _ => ?_) ?_
    | dsimp only

theorem keeps_execOrcFree (o : MOp) (s : State) (h : MemoryInv s) : Keeps (execOrcFree o s) := by
  unfold execOrcFree
  try dsimp only
  repeat' first
    | with_reducible first
      | assumption | apply keeps_next | refine keeps_noDst ?_ (by assumption) | apply keeps_noDst_fst
      | refine keeps_fireOrc _ _ _ _ _ _ _ _ (fun _ _ => ?_) ?_
    | dsimp only

theorem keeps_execOrcFold (o : MOp) (s : State) (h : MemoryInv s) : Keeps (execOrcFold o s) := by
  unfold execOrcFold
  try dsimp only
  repeat' first
    | with_reducible first
      | assumption | apply keeps_next | refine keeps_noDst ?_ (by assumption) | apply keeps_noDst_fst
      | refine keeps_fireOrc _ _ _ _ _ _ _ _ (fun _ _ => ?_) ?_
    | dsimp only

theorem keeps_execOrcMark (o : MOp) (s : State) (h : MemoryInv s) : Keeps (execOrcMark o s) := by
  unfold execOrcMark
  try dsimp only
  repeat' first
    | with_reducible first
      | assumption | apply keeps_next | refine keeps_sendMem _ _ _ _ _ (fun _ _ => ?_) ?_
      | refine keeps_noDst ?_ (by assumption) | apply keeps_noDst_fst | refine keeps_fire _ _ _ _ ?_ (fun _ => ?_)
      | refine keeps_fireOp _ _ ?_ (fun _ => ?_)
    | dsimp only

theorem keeps_execOrcOpSet (o : MOp) (s : State) (h : MemoryInv s) : Keeps (execOrcOpSet o s) := by
  unfold execOrcOpSet
  try dsimp only
  repeat' first
    | with_reducible first
      | assumption | apply keeps_next | apply keeps_fireOrcOp
    | dsimp only

theorem keeps_execOrcOpAddF32 (o : MOp) (s : State) (h : MemoryInv s) : Keeps (execOrcOpAddF32 o s) := by
  unfold execOrcOpAddF32
  try dsimp only
  repeat' first
    | with_reducible first
      | assumption | apply keeps_next | apply keeps_fireOrcOp
    | dsimp only

theorem keeps_execOrcOpAddF64 (o : MOp) (s : State) (h : MemoryInv s) : Keeps (execOrcOpAddF64 o s) := by
  unfold execOrcOpAddF64
  try dsimp only
  repeat' first
    | with_reducible first
      | assumption | apply keeps_next | apply keeps_fireOrcOp
    | dsimp only

theorem keeps_execOrcOpMulF32 (o : MOp) (s : State) (h : MemoryInv s) : Keeps (execOrcOpMulF32 o s) := by
  unfold execOrcOpMulF32
  try dsimp only
  repeat' first
    | with_reducible first
      | assumption | apply keeps_next | apply keeps_fireOrcOp
    | dsimp only

theorem keeps_execOrcOpFmaF32 (o : MOp) (s : State) (h : MemoryInv s) : Keeps (execOrcOpFmaF32 o s) := by
  unfold execOrcOpFmaF32
  try dsimp only
  repeat' first
    | with_reducible first
      | assumption | apply keeps_next | apply keeps_fireOrcOp
    | dsimp only

theorem keeps_execOrcOpMaxF32 (o : MOp) (s : State) (h : MemoryInv s) : Keeps (execOrcOpMaxF32 o s) := by
  unfold execOrcOpMaxF32
  try dsimp only
  repeat' first
    | with_reducible first
      | assumption | apply keeps_next | apply keeps_fireOrcOp
    | dsimp only

theorem keeps_execOrcOpMinF32 (o : MOp) (s : State) (h : MemoryInv s) : Keeps (execOrcOpMinF32 o s) := by
  unfold execOrcOpMinF32
  try dsimp only
  repeat' first
    | with_reducible first
      | assumption | apply keeps_next | apply keeps_fireOrcOp
    | dsimp only

theorem keeps_execOrcOpAddInt (o : MOp) (s : State) (h : MemoryInv s) : Keeps (execOrcOpAddInt o s) := by
  unfold execOrcOpAddInt
  try dsimp only
  repeat' first
    | with_reducible first
      | assumption | apply keeps_next | apply keeps_fireOrcOp
    | dsimp only

theorem keeps_execOrcLdt (o : MOp) (s : State) (h : MemoryInv s) : Keeps (execOrcLdt o s) := by
  unfold execOrcLdt
  try dsimp only
  repeat' first
    | with_reducible first
      | assumption | apply keeps_next | refine keeps_fireOrc _ _ _ _ _ _ _ _ (fun _ _ => ?_) ?_
      | refine keeps_orcDst ?_ (by assumption) | apply keeps_orcDst_fst
    | dsimp only

theorem keeps_execOrcLds (o : MOp) (s : State) (h : MemoryInv s) : Keeps (execOrcLds o s) := by
  unfold execOrcLds
  try dsimp only
  repeat' first
    | with_reducible first
      | assumption | apply keeps_next | refine keeps_fireOrc _ _ _ _ _ _ _ _ (fun _ _ => ?_) ?_
      | refine keeps_orcDst ?_ (by assumption) | apply keeps_orcDst_fst
    | dsimp only

theorem keeps_requeue (s : State) (c : Cmd) (h : MemoryInv s) : MemoryInv (State.requeue s c) := by
  unfold State.requeue
  try dsimp only
  repeat' first
    | with_reducible first
      | assumption | apply keeps_updCore | refine keeps_getD ?_ ?_ | refine keeps_ite (fun _ => ?_) (fun _ => ?_)
    | split | (simp only [keeps_mk]; change MemoryInv _) | dsimp only

theorem keeps_reissue (s : State) (x : Replay) (h : MemoryInv s) : MemoryInv (State.reissue s x) := by
  unfold State.reissue
  try dsimp only
  repeat' first
    | with_reducible first
      | assumption | apply keeps_updSpur | apply keeps_armTemplate | apply keeps_stopTemplate
      | apply keeps_issueTile | refine keeps_getD ?_ ?_ | refine keeps_ite (fun _ => ?_) (fun _ => ?_)
    | split | (simp only [keeps_mk]; change MemoryInv _) | dsimp only

theorem keeps_reissueAll (s : State) (ident : Nat) (h : MemoryInv s) : MemoryInv (State.reissueAll s ident) := by
  unfold State.reissueAll
  try dsimp only
  repeat' first
    | with_reducible first
      | assumption | apply keeps_updCore | apply keeps_updChain | apply keeps_requeue | apply keeps_reissue
      | refine foldl_keeps _ _ _ ?_ fun _ _ _ => ?_ | refine foldl_keeps_fst _ _ _ ?_ fun _ _ _ => ?_
    | split | (simp only [keeps_mk]; change MemoryInv _) | dsimp only

theorem keeps_repair_fst {s : State} {c : Chain} (h : MemoryInv s) : MemoryInv (State.repair s c).fst := by
  unfold State.repair
  try dsimp only
  repeat' first
    | with_reducible first
      | assumption | apply keeps_updElem | apply keeps_countPreg | apply keeps_endChain | apply keeps_refuse
      | refine foldl_keeps _ _ _ ?_ fun _ _ _ => ?_ | refine foldl_keeps_fst _ _ _ ?_ fun _ _ _ => ?_
      | refine keeps_ite (fun _ => ?_) (fun _ => ?_)
    | split | (simp only [keeps_mk]; change MemoryInv _) | dsimp only

theorem keeps_repair {s : State} {c : Chain} {t : State} {x : Bool} (h : MemoryInv s) (e : State.repair s c =
    (t, x)) :
    MemoryInv t := by
  have := show MemoryInv (State.repair s c).fst from keeps_repair_fst h
  rw [e] at this
  exact this

theorem keeps_forgetLeases (s : State) (ident : Nat) (h : MemoryInv s) : MemoryInv (State.forgetLeases s ident) := by
  unfold State.forgetLeases
  try dsimp only
  repeat' first
    | with_reducible first
      | assumption
    | (simp only [keeps_mk]; change MemoryInv _) | dsimp only

theorem keeps_resumeInPlace (s : State) (c : Chain) (h : MemoryInv s) : MemoryInv (State.resumeInPlace s c) := by
  unfold State.resumeInPlace
  try dsimp only
  repeat' first
    | with_reducible first
      | assumption | apply keeps_updChain | apply keeps_reissueAll | refine keeps_repair ?_ (by assumption)
      | apply keeps_repair_fst | apply keeps_forgetLeases | refine keeps_ite (fun _ => ?_) (fun _ => ?_)
    | split | (simp only [keeps_mk]; change MemoryInv _) | dsimp only

theorem keeps_waitFirst (s : State) (ident : Nat) (h : MemoryInv s) : MemoryInv (State.waitFirst s ident) := by
  unfold State.waitFirst
  try dsimp only
  repeat' first
    | with_reducible first
      | assumption | apply keeps_updChain
    | (simp only [keeps_mk]; change MemoryInv _) | dsimp only

theorem keeps_resume (s : State) (c : Chain) (action : Nat) (h : MemoryInv s) :
    MemoryInv (State.resume s c action) := by
  unfold State.resume
  try dsimp only
  repeat' first
    | with_reducible first
      | assumption | apply keeps_endChain | apply keeps_sendFreeze | apply keeps_resumeInPlace
      | apply keeps_waitFirst | refine keeps_ite (fun _ => ?_) (fun _ => ?_)
    | split | (simp only [keeps_mk]; change MemoryInv _) | dsimp only

theorem keeps_execResumeRecord (s : State) (h : MemoryInv s) : Keeps (execResumeRecord s) := by
  unfold execResumeRecord
  try dsimp only
  repeat' first
    | with_reducible first
      | assumption | apply keeps_next | refine keeps_iteO (fun _ => ?_) (fun _ => ?_) | apply keeps_resume
      | refine keeps_ite (fun _ => ?_) (fun _ => ?_)
    | split | (simp only [keeps_mk]; change MemoryInv _) | dsimp only

theorem keeps_placeIslands (s : State) (cl islands : Nat) (x : IslandState) (h : MemoryInv s) :
    MemoryInv (State.placeIslands s cl islands x) := by
  unfold State.placeIslands
  try dsimp only
  repeat' first
    | with_reducible first
      | assumption | apply keeps_updCluster | refine foldl_keeps _ _ _ ?_ fun _ _ _ => ?_
      | refine foldl_keeps_fst _ _ _ ?_ fun _ _ _ => ?_ | refine keeps_ite (fun _ => ?_) (fun _ => ?_)
    | split | (simp only [keeps_mk]; change MemoryInv _) | dsimp only

theorem keeps_withKept (s : State) (p : Spur) (k : Kept) (b : List Byte) (moves : List (Nat × Nat)) (h :
    MemoryInv s) :
    MemoryInv (State.withKept s p k b moves) := by
  unfold State.withKept
  try dsimp only
  repeat' first
    | with_reducible first
      | assumption | apply keeps_updElem | apply keeps_updCore | apply keeps_updCluster | apply keeps_updSpur
      | apply keeps_updLink | apply keeps_placeIslands | refine keeps_getD ?_ ?_
      | refine foldl_keeps _ _ _ ?_ fun _ _ _ => ?_ | refine foldl_keeps_fst _ _ _ ?_ fun _ _ _ => ?_
      | refine keeps_ite (fun _ => ?_) (fun _ => ?_)
    | split | (simp only [keeps_mk]; change MemoryInv _) | dsimp only

theorem keeps_noteMoved (s : State) (p : Spur) (h : MemoryInv s) : MemoryInv (State.noteMoved s p) := by
  unfold State.noteMoved
  try dsimp only
  repeat' first
    | with_reducible first
      | assumption | refine keeps_ite (fun _ => ?_) (fun _ => ?_)
    | split | (simp only [keeps_mk]; change MemoryInv _) | dsimp only

theorem keeps_drainSlot_fst {s : State} {e0 : Nat} {c : Cmd} (h : MemoryInv s) :
    MemoryInv (State.drainSlot s e0 c).fst := by
  unfold State.drainSlot
  try dsimp only
  repeat' first
    | with_reducible first
      | assumption | refine keeps_reserveDst ?_ (by assumption) | apply keeps_reserveDst_fst
      | refine keeps_ite (fun _ => ?_) (fun _ => ?_)
    | split | (simp only [keeps_mk]; change MemoryInv _) | dsimp only

theorem keeps_drainSlot {s : State} {e0 : Nat} {c : Cmd} {t : State} {x : Cmd} (h : MemoryInv s) (e :
    State.drainSlot s e0 c = (t, x)) :
    MemoryInv t := by
  have := show MemoryInv (State.drainSlot s e0 c).fst from keeps_drainSlot_fst h
  rw [e] at this
  exact this

theorem keeps_drainSlots (s : State) (core : Nat) (h : MemoryInv s) : MemoryInv (State.drainSlots s core) := by
  unfold State.drainSlots
  try dsimp only
  repeat' first
    | with_reducible first
      | assumption | apply keeps_updMx | refine keeps_drainSlot ?_ (by assumption) | apply keeps_drainSlot_fst
    | split | (simp only [keeps_mk]; change MemoryInv _) | dsimp only

theorem keeps_forgetLost (s : State) (ident : Nat) (gs : List Nat) (h : MemoryInv s) :
    MemoryInv (State.forgetLost s ident gs) := by
  unfold State.forgetLost
  try dsimp only
  repeat' first
    | with_reducible first
      | assumption | apply keeps_updMx | refine foldl_keeps _ _ _ ?_ fun _ _ _ => ?_
      | refine foldl_keeps_fst _ _ _ ?_ fun _ _ _ => ?_
    | (simp only [keeps_mk]; change MemoryInv _) | dsimp only

theorem keeps_reload (s : State) (c : Chain) (l : List (Place × List Byte)) (h : MemoryInv s) :
    MemoryInv (State.reload s c l) := by
  unfold State.reload
  try dsimp only
  repeat' first
    | with_reducible first
      | assumption | apply keeps_updChain | apply keeps_dropClean | refine keeps_loadSpurs ?_ (by assumption)
      | apply keeps_loadSpurs_fst | apply keeps_withKept | apply keeps_noteMoved | apply keeps_drainSlots
      | apply keeps_forgetLost | refine foldl_keeps _ _ _ ?_ fun _ _ _ => ?_
      | refine foldl_keeps_fst _ _ _ ?_ fun _ _ _ => ?_ | refine keeps_ite (fun _ => ?_) (fun _ => ?_)
    | split | (simp only [keeps_mk]; change MemoryInv _) | dsimp only

theorem keeps_execSpurReload (s : State) (h : MemoryInv s) : Keeps (execSpurReload s) := by
  unfold execSpurReload
  try dsimp only
  repeat' first
    | with_reducible first
      | assumption | apply keeps_next | refine keeps_iteO (fun _ => ?_) (fun _ => ?_) | apply keeps_refuse
      | refine keeps_repair ?_ (by assumption) | apply keeps_repair_fst | apply keeps_reload
      | refine keeps_ite (fun _ => ?_) (fun _ => ?_)
    | split | (simp only [keeps_mk]; change MemoryInv _) | dsimp only

theorem keeps_startSpurs (s : State) (ident cl : Nat) (all : Bool) (h : MemoryInv s) :
    MemoryInv (State.startSpurs s ident cl all) := by
  unfold State.startSpurs
  try dsimp only
  repeat' first
    | with_reducible first
      | assumption
    | (simp only [keeps_mk]; change MemoryInv _) | dsimp only

theorem keeps_execRidgeStart (s : State) (h : MemoryInv s) : Keeps (execRidgeStart s) := by
  unfold execRidgeStart
  try dsimp only
  repeat' first
    | with_reducible first
      | assumption | apply keeps_next | refine keeps_iteO (fun _ => ?_) (fun _ => ?_) | apply keeps_updChain
      | apply keeps_screeReplay | apply keeps_reissueAll | apply keeps_startSpurs | refine keeps_getD ?_ ?_
      | refine foldl_keeps _ _ _ ?_ fun _ _ _ => ?_ | refine foldl_keeps_fst _ _ _ ?_ fun _ _ _ => ?_
      | refine keeps_ite (fun _ => ?_) (fun _ => ?_)
    | split | (simp only [keeps_mk]; change MemoryInv _) | dsimp only

theorem keeps_execDebuggerFreezeLift (s : State) (h : MemoryInv s) : Keeps (execDebuggerFreezeLift s) := by
  unfold execDebuggerFreezeLift
  try dsimp only
  repeat' first
    | with_reducible first
      | assumption | apply keeps_next | refine keeps_iteO (fun _ => ?_) (fun _ => ?_) | apply keeps_updCore
      | apply keeps_updChain | apply keeps_forgetLeases | refine foldl_keeps _ _ _ ?_ fun _ _ _ => ?_
      | refine foldl_keeps_fst _ _ _ ?_ fun _ _ _ => ?_ | refine keeps_ite (fun _ => ?_) (fun _ => ?_)
    | split | (simp only [keeps_mk]; change MemoryInv _) | dsimp only

theorem keeps_freeRays (s : State) (p : Spur) (h : MemoryInv s) : MemoryInv (State.freeRays s p) := by
  unfold State.freeRays
  try dsimp only
  repeat' first
    | with_reducible first
      | assumption | apply keeps_updCluster
    | (simp only [keeps_mk]; change MemoryInv _) | dsimp only

theorem keeps_completeSpur (s : State) (p : Spur) (h : MemoryInv s) : MemoryInv (State.completeSpur s p) := by
  unfold State.completeSpur
  try dsimp only
  repeat' first
    | with_reducible first
      | assumption | apply keeps_updSpur | apply keeps_unpinCore | apply keeps_addDeparture
      | apply keeps_writeBackL1 | apply keeps_freeRays | refine foldl_keeps _ _ _ ?_ fun _ _ _ => ?_
      | refine foldl_keeps_fst _ _ _ ?_ fun _ _ _ => ?_
    | (simp only [keeps_mk]; change MemoryInv _) | dsimp only

theorem keeps_leaveCores (s : State) (c : Chain) (p : Spur) (h : MemoryInv s) :
    MemoryInv (State.leaveCores s c p) := by
  unfold State.leaveCores
  try dsimp only
  repeat' first
    | with_reducible first
      | assumption | apply keeps_updChain | apply keeps_addDeparture | apply keeps_clearSpur
      | refine keeps_ite (fun _ => ?_) (fun _ => ?_)
    | split | (simp only [keeps_mk]; change MemoryInv _) | dsimp only

theorem keeps_leaveBars (s : State) (p : Spur) (h : MemoryInv s) : MemoryInv (State.leaveBars s p) := by
  unfold State.leaveBars
  try dsimp only
  repeat' first
    | with_reducible first
      | assumption | apply keeps_updChain
    | (simp only [keeps_mk]; change MemoryInv _) | dsimp only

theorem keeps_endStage (s : State) (c : Chain) (h : MemoryInv s) : MemoryInv (State.endStage s c) := by
  unfold State.endStage
  try dsimp only
  repeat' first
    | with_reducible first
      | assumption | apply keeps_updChain | apply keeps_endChain | apply keeps_leaveCores
      | refine foldl_keeps _ _ _ ?_ fun _ _ _ => ?_ | refine foldl_keeps_fst _ _ _ ?_ fun _ _ _ => ?_
      | refine keeps_ite (fun _ => ?_) (fun _ => ?_)
    | split | (simp only [keeps_mk]; change MemoryInv _) | dsimp only

theorem keeps_execSpurCompletion (s : State) (h : MemoryInv s) : Keeps (execSpurCompletion s) := by
  unfold execSpurCompletion
  try dsimp only
  repeat' first
    | with_reducible first
      | assumption | apply keeps_next | refine keeps_iteO (fun _ => ?_) (fun _ => ?_) | apply keeps_completeSpur
      | apply keeps_endStage | refine keeps_ite (fun _ => ?_) (fun _ => ?_)
    | split | (simp only [keeps_mk]; change MemoryInv _) | dsimp only

theorem keeps_regionCounts (s : State) (p : Spur) (h : MemoryInv s) : MemoryInv (State.regionCounts s p) := by
  unfold State.regionCounts
  try dsimp only
  repeat' first
    | with_reducible first
      | assumption | apply keeps_updElem | refine foldl_keeps _ _ _ ?_ fun _ _ _ => ?_
      | refine foldl_keeps_fst _ _ _ ?_ fun _ _ _ => ?_ | refine keeps_ite (fun _ => ?_) (fun _ => ?_)
    | split | (simp only [keeps_mk]; change MemoryInv _) | dsimp only

theorem keeps_loadRegion (s : State) (c : Chain) (p : Spur) (h : MemoryInv s) :
    MemoryInv (State.loadRegion s c p) := by
  unfold State.loadRegion
  try dsimp only
  repeat' first
    | with_reducible first
      | assumption | apply keeps_updSpur | apply keeps_updChain | apply keeps_refuse
      | refine keeps_loadSpurs ?_ (by assumption) | apply keeps_loadSpurs_fst | apply keeps_leaveCores
      | apply keeps_leaveBars | apply keeps_regionCounts | refine keeps_getD ?_ ?_
      | refine keeps_ite (fun _ => ?_) (fun _ => ?_)
    | split | (simp only [keeps_mk]; change MemoryInv _) | dsimp only

theorem keeps_execDeterministicStageSwitch (s : State) (h : MemoryInv s) :
    Keeps (execDeterministicStageSwitch s) := by
  unfold execDeterministicStageSwitch
  try dsimp only
  repeat' first
    | with_reducible first
      | assumption | apply keeps_next | refine keeps_iteO (fun _ => ?_) (fun _ => ?_) | apply keeps_updSpur
      | apply keeps_endChain | apply keeps_countOrphans | apply keeps_leaveBars | apply keeps_loadRegion
      | refine keeps_ite (fun _ => ?_) (fun _ => ?_)
    | split | (simp only [keeps_mk]; change MemoryInv _) | dsimp only

theorem keeps_foldCell (s : State) (c : Cell) (h : MemoryInv s) : MemoryInv (State.foldCell s c) := by
  unfold State.foldCell
  try dsimp only
  repeat' first
    | with_reducible first
      | assumption | apply keeps_updCell | apply keeps_answerSettled
    | dsimp only

theorem keeps_writeRecord (s : State) (record off : Nat) (bs : List Byte) (h : MemoryInv s) :
    MemoryInv (State.writeRecord s record off bs) := ⟨Memory.wf_writeN h.1 _ _, h.2⟩

theorem keeps_domRequest (s : State) (r : Req) (k : Nat) (h : MemoryInv s) :
    KeepsOk MemoryInv (State.domRequest s r k) := by
  unfold State.domRequest
  try dsimp only
  repeat' first
    | with_reducible first
      | assumption | exact keeps_none | exact keeps_error | apply keeps_some | apply keeps_ok
      | apply keeps_writeRecord | refine foldl_keeps _ _ _ ?_ fun _ _ _ => ?_
      | refine foldl_keeps_fst _ _ _ ?_ fun _ _ _ => ?_ | refine keeps_ite (fun _ => ?_) (fun _ => ?_)
    | split | (simp only [keeps_mk]; change MemoryInv _) | dsimp only

theorem keeps_raiseMark (s : State) (k n : Nat) (m : BitVec 24) (h : MemoryInv s) :
    MemoryInv (State.raiseMark s k n m) := by
  unfold State.raiseMark
  try dsimp only
  repeat' first
    | with_reducible first
      | assumption | apply keeps_updDomain | apply keeps_writeRecord
    | split | (simp only [keeps_mk]; change MemoryInv _) | dsimp only

theorem keeps_markRequest (s : State) (r : Req) (k : Nat) (h : MemoryInv s) :
    KeepsOk MemoryInv (State.markRequest s r k) := by
  unfold State.markRequest
  try dsimp only
  repeat' first
    | with_reducible first
      | assumption | exact keeps_none | exact keeps_error | apply keeps_some | apply keeps_ok
      | apply keeps_raiseMark | refine keeps_getD ?_ ?_ | refine keeps_ite (fun _ => ?_) (fun _ => ?_)
    | split | (simp only [keeps_mk]; change MemoryInv _) | dsimp only

theorem keeps_bindRequest (s : State) (r : Req) (k : Nat) (w64 : Bool) (h : MemoryInv s) :
    KeepsOk MemoryInv (State.bindRequest s r k w64) := by
  unfold State.bindRequest
  try dsimp only
  repeat' first
    | with_reducible first
      | assumption | exact keeps_none | exact keeps_error | apply keeps_some | apply keeps_ok
      | refine keeps_getD ?_ ?_ | refine keeps_ite (fun _ => ?_) (fun _ => ?_)
    | split | (simp only [keeps_mk]; change MemoryInv _) | dsimp only

theorem keeps_opRequest_fst {s : State} {r : Req} {k : Nat} {op : OrcOp} {w64 : Bool} (h : MemoryInv s) :
    MemoryInv (State.opRequest s r k op w64).fst := by
  unfold State.opRequest
  try dsimp only
  repeat' first
    | with_reducible first
      | assumption | apply keeps_updCell | apply keeps_foldCell | refine keeps_getD ?_ ?_
      | refine keeps_ite (fun _ => ?_) (fun _ => ?_)
    | split | (simp only [keeps_mk]; change MemoryInv _) | dsimp only

theorem keeps_opRequest {s : State} {r : Req} {k : Nat} {op : OrcOp} {w64 : Bool} {t : State} {x : Option Nat}
    (h : MemoryInv s) (e : State.opRequest s r k op w64 = (t, x)) :
    MemoryInv t := by
  have := show MemoryInv (State.opRequest s r k op w64).fst from keeps_opRequest_fst h
  rw [e] at this
  exact this

theorem keeps_freeCell (s : State) (c : Cell) (h : MemoryInv s) : MemoryInv (State.freeCell s c) :=
  ⟨Memory.wf_writeN h.1 _ _, h.2⟩

theorem keeps_settle (s : State) (r : Req) (x : Except Nat State) (hx : KeepsOk MemoryInv x) (h : MemoryInv s) :
    MemoryInv (State.settle s r x) := by
  unfold State.settle
  split
  · exact keeps_lateFault _ _ _ _ h
  · exact keeps_dropReq _ _ (keeps_of_ok hx rfl)

theorem keeps_cellLoad (s : State) (r : Req) (k : Nat) (settled w64 : Bool) (h : MemoryInv s) :
    MemoryInv (State.cellLoad s r k settled w64) := by
  unfold State.cellLoad
  try dsimp only
  repeat' first
    | with_reducible first
      | assumption | apply keeps_updReq | apply keeps_lateFault | apply keeps_answerLoad
      | refine keeps_ite (fun _ => ?_) (fun _ => ?_)
    | split | (simp only [keeps_mk]; change MemoryInv _) | dsimp only

theorem keeps_execOrcRequestArrival (s : State) (h : MemoryInv s) : Keeps (execOrcRequestArrival s) := by
  unfold execOrcRequestArrival
  try dsimp only
  repeat' first
    | with_reducible first
      | assumption | apply keeps_next | refine keeps_iteO (fun _ => ?_) (fun _ => ?_) | apply keeps_updReq
      | apply keeps_dropReq | apply keeps_lateFault | apply keeps_release | apply keeps_acquire
      | apply keeps_softError | apply keeps_foldCell
      | refine keeps_of_ok (keeps_domRequest _ _ _ ?_) (by assumption) | refine keeps_domRequest _ _ _ ?_
      | refine keeps_of_ok (keeps_bindRequest _ _ _ _ ?_) (by assumption) | refine keeps_bindRequest _ _ _ _ ?_
      | refine keeps_settle _ _ _ ?_ ?_ | apply keeps_cellLoad | refine keeps_ite (fun _ => ?_) (fun _ => ?_)
    | split | (simp only [keeps_mk]; change MemoryInv _) | dsimp only

theorem keeps_execOrcOpArrival (s : State) (h : MemoryInv s) : Keeps (execOrcOpArrival s) := by
  unfold execOrcOpArrival
  try dsimp only
  repeat' first
    | with_reducible first
      | assumption | apply keeps_next | refine keeps_iteO (fun _ => ?_) (fun _ => ?_) | apply keeps_dropReq
      | apply keeps_lateFault | apply keeps_release | apply keeps_softError
      | refine keeps_opRequest ?_ (by assumption) | apply keeps_opRequest_fst
      | refine keeps_ite (fun _ => ?_) (fun _ => ?_)
    | split | (simp only [keeps_mk]; change MemoryInv _) | dsimp only

theorem keeps_execOrcMarkApply (s : State) (h : MemoryInv s) : Keeps (execOrcMarkApply s) := by
  unfold execOrcMarkApply
  try dsimp only
  repeat' first
    | with_reducible first
      | assumption | apply keeps_next | refine keeps_iteO (fun _ => ?_) (fun _ => ?_) | apply keeps_release
      | refine keeps_of_ok (keeps_markRequest _ _ _ ?_) (by assumption) | refine keeps_markRequest _ _ _ ?_
      | refine keeps_settle _ _ _ ?_ ?_ | refine keeps_ite (fun _ => ?_) (fun _ => ?_)
    | split | (simp only [keeps_mk]; change MemoryInv _) | dsimp only

theorem keeps_execWatermarkViewRise (s : State) (h : MemoryInv s) : Keeps (execWatermarkViewRise s) := by
  unfold execWatermarkViewRise
  try dsimp only
  repeat' first
    | with_reducible first
      | assumption | apply keeps_next | apply keeps_updDomain
    | (simp only [keeps_mk]; change MemoryInv _) | dsimp only

theorem keeps_execSettledLoadAnswer (s : State) (h : MemoryInv s) : Keeps (execSettledLoadAnswer s) := by
  unfold execSettledLoadAnswer
  try dsimp only
  repeat' first
    | with_reducible first
      | assumption | apply keeps_next | refine keeps_iteO (fun _ => ?_) (fun _ => ?_) | apply keeps_lateFault
      | apply keeps_answerLoad | refine keeps_ite (fun _ => ?_) (fun _ => ?_)
    | split | (simp only [keeps_mk]; change MemoryInv _) | dsimp only

theorem keeps_execOrcFreeEnd (s : State) (h : MemoryInv s) : Keeps (execOrcFreeEnd s) := by
  unfold execOrcFreeEnd
  try dsimp only
  repeat' first
    | with_reducible first
      | assumption | apply keeps_next | refine keeps_iteO (fun _ => ?_) (fun _ => ?_) | apply keeps_dropReq
      | apply keeps_lateFault | apply keeps_freeCell | refine keeps_ite (fun _ => ?_) (fun _ => ?_)
    | split | (simp only [keeps_mk]; change MemoryInv _) | dsimp only

theorem keeps_execKucorPortTraining (s : State) (h : MemoryInv s) : Keeps (execKucorPortTraining s) := by
  unfold execKucorPortTraining
  try dsimp only
  repeat' first
    | with_reducible first
      | assumption | apply keeps_next | refine keeps_iteO (fun _ => ?_) (fun _ => ?_) | apply keeps_setPreg
      | refine keeps_ite (fun _ => ?_) (fun _ => ?_)
    | split | (simp only [keeps_mk]; change MemoryInv _) | dsimp only

theorem keeps_execKucorFlitRetry (s : State) (h : MemoryInv s) : Keeps (execKucorFlitRetry s) := by
  unfold execKucorFlitRetry
  try dsimp only
  repeat' first
    | with_reducible first
      | assumption | apply keeps_next | apply keeps_countPreg
    | dsimp only

theorem keeps_execKucorPortDown (s : State) (h : MemoryInv s) : Keeps (execKucorPortDown s) := by
  unfold execKucorPortDown
  try dsimp only
  repeat' first
    | with_reducible first
      | assumption | apply keeps_next | refine keeps_iteO (fun _ => ?_) (fun _ => ?_) | apply keeps_setPreg
      | refine keeps_ite (fun _ => ?_) (fun _ => ?_)
    | split | (simp only [keeps_mk]; change MemoryInv _) | dsimp only

theorem keeps_landLost (s : State) (r : Req) (k : Nat) (h : MemoryInv s) : MemoryInv (State.landLost s r k) := by
  unfold State.landLost
  try dsimp only
  repeat' first
    | with_reducible first
      | assumption | apply keeps_countDiscard | apply keeps_writeHome
      | refine keeps_of_ok (keeps_markRequest _ _ _ ?_) (by assumption) | refine keeps_markRequest _ _ _ ?_
      | refine keeps_opRequest ?_ (by assumption) | apply keeps_opRequest_fst
      | refine foldl_keeps _ _ _ ?_ fun _ _ _ => ?_ | refine foldl_keeps_fst _ _ _ ?_ fun _ _ _ => ?_
      | refine keeps_ite (fun _ => ?_) (fun _ => ?_)
    | split | (simp only [keeps_mk]; change MemoryInv _) | dsimp only

theorem keeps_loseRequest (s : State) (r : Req) (k : Nat) (h : MemoryInv s) :
    MemoryInv (State.loseRequest s r k) := by
  unfold State.loseRequest
  try dsimp only
  repeat' first
    | with_reducible first
      | assumption | apply keeps_dropReq | apply keeps_countPreg | apply keeps_lateFault | apply keeps_landLost
      | refine keeps_ite (fun _ => ?_) (fun _ => ?_)
    | split | dsimp only

theorem keeps_loseChunk (s : State) (d : Delivery) (h : MemoryInv s) : MemoryInv (State.loseChunk s d) := by
  unfold State.loseChunk
  try dsimp only
  repeat' first
    | with_reducible first
      | assumption | apply keeps_countPreg | apply keeps_firingFault
    | split | (simp only [keeps_mk]; change MemoryInv _) | dsimp only

theorem keeps_loseRecord (s : State) (cl ticket : Nat) (h : MemoryInv s) :
    MemoryInv (State.loseRecord s cl ticket) := by
  unfold State.loseRecord
  try dsimp only
  repeat' first
    | with_reducible first
      | assumption | apply keeps_lostWrite | apply keeps_rayFault | refine keeps_ite (fun _ => ?_) (fun _ => ?_)
    | split | (simp only [keeps_mk]; change MemoryInv _) | dsimp only

theorem keeps_reader (s : State) (n : Nat) (h : MemoryInv s) : Keeps (State.reader s n) := by
  unfold State.reader
  try dsimp only
  repeat' first
    | with_reducible first
      | assumption | apply keeps_next | apply keeps_execMatrixCommandTake | apply keeps_execReadBinding
      | apply keeps_execBinFlush | apply keeps_execFragmentEmit | apply keeps_execTicketRetire
      | apply keeps_execVisAttrResult | apply keeps_execTraversalNodeVisit | apply keeps_execWeightLoadBind
      | apply keeps_execSampleComplete | apply keeps_execIslandRequestAccept
    | split | (simp only [keeps_mk]; change MemoryInv _) | dsimp only

theorem keeps_landSector (s u t : State) (sec : Nat) (h : MemoryInv t) : MemoryInv (s.landSector u t sec) := by
  refine ⟨wf_foldl _ _ _ h.1 fun m i hm => ?_, h.2⟩
  dsimp only
  split
  · exact hm
  · exact Memory.wf_write hm _ _

theorem keeps_meetLost (s : State) (n sec : Nat) (h : MemoryInv s) : MemoryInv (s.meetLost n sec) := by
  have hr := keeps_reader { s with poison := setAdd s.poison sec } n h
  unfold State.meetLost
  split
  · rename_i ht _
    have k := hr _ ht
    refine keeps_ite (fun _ => h) fun _ => keeps_countPreg _ _ (keeps_ite (fun _ => ?_) fun _ => ?_)
    · exact keeps_landSector _ _ _ _ ⟨k.1, k.2⟩
    · exact ⟨k.1, k.2⟩
  · exact h

theorem keeps_loseRise (s : State) (record slice : Nat) (h : MemoryInv s) :
    MemoryInv (State.loseRise s record slice) := by
  unfold State.loseRise
  try dsimp only
  repeat' first
    | with_reducible first
      | assumption | apply keeps_countPreg | apply keeps_updDomain | refine keeps_ite (fun _ => ?_) (fun _ => ?_)
    | split | (simp only [keeps_mk]; change MemoryInv _) | dsimp only

theorem keeps_loseScheduler (s : State) (ident : Nat) (h : MemoryInv s) :
    MemoryInv (State.loseScheduler s ident) := by
  unfold State.loseScheduler
  try dsimp only
  repeat' first
    | with_reducible first
      | assumption | apply keeps_countPreg | apply keeps_refuse | refine keeps_ite (fun _ => ?_) (fun _ => ?_)
    | split | (simp only [keeps_mk]; change MemoryInv _) | dsimp only

theorem keeps_execPeerAccessTimeout (s : State) (h : MemoryInv s) : Keeps (execPeerAccessTimeout s) := by
  unfold execPeerAccessTimeout
  try dsimp only
  repeat' first
    | with_reducible first
      | assumption | apply keeps_next | refine keeps_iteO (fun _ => ?_) (fun _ => ?_) | apply keeps_loseFiring
      | apply keeps_loseRequest | apply keeps_loseChunk | apply keeps_loseRecord | apply keeps_meetLost
      | apply keeps_loseRise | apply keeps_loseScheduler | refine keeps_getD ?_ ?_
      | refine keeps_ite (fun _ => ?_) (fun _ => ?_)
    | split | (simp only [keeps_mk]; change MemoryInv _) | dsimp only

theorem keeps_clearPort (s : State) (qp : Nat) (h : MemoryInv s) : MemoryInv (State.clearPort s qp) := by
  unfold State.clearPort
  try dsimp only
  repeat' first
    | with_reducible first
      | assumption | apply keeps_takePort | apply keeps_setRecv | refine foldl_keeps _ _ _ ?_ fun _ _ _ => ?_
      | refine foldl_keeps_fst _ _ _ ?_ fun _ _ _ => ?_
    | split | dsimp only

theorem keeps_sendMessage (s : State) (qp : Nat) (ws : List Word) (h : MemoryInv s) :
    MemoryInv (State.sendMessage s qp ws) := by
  unfold State.sendMessage
  try dsimp only
  repeat' first
    | with_reducible first
      | assumption | apply keeps_qpWrite | apply keeps_updQp | refine keeps_ite (fun _ => ?_) (fun _ => ?_)
    | split | (simp only [keeps_mk]; change MemoryInv _) | dsimp only

theorem keeps_execEthMessageSend (s : State) (h : MemoryInv s) : Keeps (execEthMessageSend s) := by
  unfold execEthMessageSend
  try dsimp only
  repeat' first
    | with_reducible first
      | assumption | apply keeps_next | refine keeps_iteO (fun _ => ?_) (fun _ => ?_) | apply keeps_takePort
      | apply keeps_updQp | apply keeps_clearPort | apply keeps_sendMessage
      | refine keeps_ite (fun _ => ?_) (fun _ => ?_)
    | split | (simp only [keeps_mk]; change MemoryInv _) | dsimp only

theorem keeps_fillPort (s : State) (qp : Nat) (h : MemoryInv s) : MemoryInv (State.fillPort s qp) := by
  unfold State.fillPort
  try dsimp only
  repeat' first
    | with_reducible first
      | assumption | apply keeps_updQp | apply keeps_setPort | apply keeps_setRecv
      | refine keeps_ite (fun _ => ?_) (fun _ => ?_)
    | split | (simp only [keeps_mk]; change MemoryInv _) | dsimp only

theorem keeps_execEthSendReceive (s : State) (h : MemoryInv s) : Keeps (execEthSendReceive s) := by
  unfold execEthSendReceive
  try dsimp only
  repeat' first
    | with_reducible first
      | assumption | apply keeps_next | refine keeps_iteO (fun _ => ?_) (fun _ => ?_) | apply keeps_qpWrite
      | apply keeps_updQp | apply keeps_fillPort | refine keeps_ite (fun _ => ?_) (fun _ => ?_)
    | split | (simp only [keeps_mk]; change MemoryInv _) | dsimp only

theorem keeps_execEthRdmaWriteReceive (s : State) (h : MemoryInv s) : Keeps (execEthRdmaWriteReceive s) := by
  unfold execEthRdmaWriteReceive
  try dsimp only
  repeat' first
    | with_reducible first
      | assumption | apply keeps_next | refine keeps_iteO (fun _ => ?_) (fun _ => ?_) | apply keeps_writeHome
      | apply keeps_qpWrite | refine keeps_ite (fun _ => ?_) (fun _ => ?_)
    | split | dsimp only

theorem keeps_execEthRdmaReadReceive (s : State) (h : MemoryInv s) : Keeps (execEthRdmaReadReceive s) := by
  unfold execEthRdmaReadReceive
  try dsimp only
  repeat' first
    | with_reducible first
      | assumption | apply keeps_next | refine keeps_iteO (fun _ => ?_) (fun _ => ?_) | apply keeps_qpWrite
      | refine keeps_ite (fun _ => ?_) (fun _ => ?_)
    | split | (simp only [keeps_mk]; change MemoryInv _) | dsimp only

theorem keeps_execQpValidClear (s : State) (h : MemoryInv s) : Keeps (execQpValidClear s) := by
  unfold execQpValidClear
  try dsimp only
  repeat' first
    | with_reducible first
      | assumption | apply keeps_next | refine keeps_iteO (fun _ => ?_) (fun _ => ?_) | apply keeps_qpWrite
      | apply keeps_updQp | apply keeps_clearPort | refine keeps_ite (fun _ => ?_) (fun _ => ?_)
    | split | (simp only [keeps_mk]; change MemoryInv _) | dsimp only

theorem keeps_execQpValidSet (s : State) (h : MemoryInv s) : Keeps (execQpValidSet s) := by
  unfold execQpValidSet
  try dsimp only
  repeat' first
    | with_reducible first
      | assumption | apply keeps_next | refine keeps_iteO (fun _ => ?_) (fun _ => ?_) | apply keeps_qpWrite
      | apply keeps_updQp | refine keeps_ite (fun _ => ?_) (fun _ => ?_)
    | split | dsimp only

theorem keeps_execQpError (s : State) (h : MemoryInv s) : Keeps (execQpError s) := by
  unfold execQpError
  try dsimp only
  repeat' first
    | with_reducible first
      | assumption | apply keeps_next | refine keeps_iteO (fun _ => ?_) (fun _ => ?_) | apply keeps_qpWrite
      | apply keeps_updQp | apply keeps_clearPort | refine keeps_ite (fun _ => ?_) (fun _ => ?_)
    | split | (simp only [keeps_mk]; change MemoryInv _) | dsimp only

theorem keeps_execEthPortStateChange (s : State) (h : MemoryInv s) : Keeps (execEthPortStateChange s) := by
  unfold execEthPortStateChange
  try dsimp only
  repeat' first
    | with_reducible first
      | assumption | apply keeps_next | refine keeps_iteO (fun _ => ?_) (fun _ => ?_) | apply keeps_setPreg
      | refine keeps_ite (fun _ => ?_) (fun _ => ?_)
    | split | dsimp only

theorem keeps_takeLinkWord (s : State) (id cl pos q : Nat) (h : MemoryInv s) :
    MemoryInv (State.takeLinkWord s id cl pos q) := by
  unfold State.takeLinkWord
  try dsimp only
  repeat' first
    | with_reducible first
      | assumption | apply keeps_updCluster | apply keeps_updLink | refine keeps_getD ?_ ?_
      | refine keeps_ite (fun _ => ?_) (fun _ => ?_)
    | split | (simp only [keeps_mk]; change MemoryInv _) | dsimp only

theorem keeps_convertFault (s : State) (l : Link) (code : Nat) (h : MemoryInv s) :
    MemoryInv (State.convertFault s l code) := by
  unfold State.convertFault
  try dsimp only
  repeat' first
    | with_reducible first
      | assumption | apply keeps_raise | refine keeps_ite (fun _ => ?_) (fun _ => ?_)
    | split | (simp only [keeps_mk]; change MemoryInv _) | dsimp only

theorem keeps_convertLink (s : State) (l : Link) (conv : Word) (cl pos q : Nat) (h : MemoryInv s) :
    MemoryInv (State.convertLink s l conv cl pos q) := by
  unfold State.convertLink
  try dsimp only
  repeat' first
    | with_reducible first
      | assumption | apply keeps_updCluster | apply keeps_updLink | apply keeps_takeLinkWord
      | apply keeps_convertFault | refine keeps_getD ?_ ?_ | refine foldl_keeps _ _ _ ?_ fun _ _ _ => ?_
      | refine foldl_keeps_fst _ _ _ ?_ fun _ _ _ => ?_
    | split | (simp only [keeps_mk]; change MemoryInv _) | dsimp only

theorem keeps_execConverterGroup (s : State) (h : MemoryInv s) : Keeps (execConverterGroup s) := by
  unfold execConverterGroup
  try dsimp only
  repeat' first
    | with_reducible first
      | assumption | apply keeps_next | refine keeps_iteO (fun _ => ?_) (fun _ => ?_) | apply keeps_convertLink
      | refine keeps_ite (fun _ => ?_) (fun _ => ?_)
    | split | (simp only [keeps_mk]; change MemoryInv _) | dsimp only

theorem keeps_report (s : State) (p : Spur) (h : MemoryInv s) : MemoryInv (State.report s p) := by
  unfold State.report
  try dsimp only
  repeat' first
    | with_reducible first
      | assumption | apply keeps_endChain | apply keeps_putRecord | refine foldl_keeps _ _ _ ?_ fun _ _ _ => ?_
      | refine foldl_keeps_fst _ _ _ ?_ fun _ _ _ => ?_ | refine keeps_ite (fun _ => ?_) (fun _ => ?_)
    | split | (simp only [keeps_mk]; change MemoryInv _) | dsimp only

theorem keeps_execQuiescencePeriod (s : State) (h : MemoryInv s) : Keeps (execQuiescencePeriod s) := by
  unfold execQuiescencePeriod
  try dsimp only
  repeat' first
    | with_reducible first
      | assumption | apply keeps_next | refine keeps_iteO (fun _ => ?_) (fun _ => ?_) | apply keeps_updSpur
      | apply keeps_hold | apply keeps_report | refine foldl_keeps _ _ _ ?_ fun _ _ _ => ?_
      | refine foldl_keeps_fst _ _ _ ?_ fun _ _ _ => ?_ | refine keeps_ite (fun _ => ?_) (fun _ => ?_)
    | split | (simp only [keeps_mk]; change MemoryInv _) | dsimp only

theorem keeps_execConfigScrubVisit (s : State) (h : MemoryInv s) : Keeps (execConfigScrubVisit s) := by
  unfold execConfigScrubVisit
  try dsimp only
  repeat' first
    | with_reducible first
      | assumption | apply keeps_next | refine keeps_iteO (fun _ => ?_) (fun _ => ?_) | apply keeps_updElem
      | apply keeps_setPreg | apply keeps_raise | refine keeps_ite (fun _ => ?_) (fun _ => ?_)
    | split | (simp only [keeps_mk]; change MemoryInv _) | dsimp only

theorem keeps_execParityError (s : State) (h : MemoryInv s) : Keeps (execParityError s) := by
  unfold execParityError
  try dsimp only
  repeat' first
    | with_reducible first
      | assumption | apply keeps_next | exact keeps_fault _ | refine keeps_iteO (fun _ => ?_) (fun _ => ?_)
      | apply keeps_updChain | apply keeps_endChain | apply keeps_putRecord | apply keeps_hold
      | apply keeps_sendFreeze | refine keeps_ite (fun _ => ?_) (fun _ => ?_)
    | split | (simp only [keeps_mk]; change MemoryInv _) | dsimp only

theorem keeps_execStepCountdownExpiry (s : State) (h : MemoryInv s) : Keeps (execStepCountdownExpiry s) := by
  unfold execStepCountdownExpiry
  try dsimp only
  repeat' first
    | with_reducible first
      | assumption | apply keeps_next | refine keeps_iteO (fun _ => ?_) (fun _ => ?_) | apply keeps_updElem
      | apply keeps_raise | refine keeps_ite (fun _ => ?_) (fun _ => ?_)
    | split | (simp only [keeps_mk]; change MemoryInv _) | dsimp only

theorem keeps_execReset (s : State) (h : MemoryInv s) : Keeps (execReset s) := by
  unfold execReset
  try dsimp only
  repeat' first
    | with_reducible first
      | assumption | apply keeps_next | exact keeps_reset
    | (simp only [keeps_mk]; change MemoryInv _) | dsimp only

theorem keeps_execSelfTestComplete (s : State) (h : MemoryInv s) : Keeps (execSelfTestComplete s) := by
  unfold execSelfTestComplete
  try dsimp only
  repeat' first
    | with_reducible first
      | assumption | apply keeps_next | apply keeps_setPreg
    | dsimp only

theorem keeps_execDevStartWrite (s : State) (h : MemoryInv s) : Keeps (execDevStartWrite s) := by
  unfold execDevStartWrite
  try dsimp only
  repeat' first
    | with_reducible first
      | assumption | apply keeps_next | apply keeps_writeReg
    | dsimp only

theorem keeps_execLqTailWrite (s : State) (h : MemoryInv s) : Keeps (execLqTailWrite s) := by
  unfold execLqTailWrite
  try dsimp only
  repeat' first
    | with_reducible first
      | assumption | apply keeps_next | refine keeps_iteO (fun _ => ?_) (fun _ => ?_) | apply keeps_writeReg
      | refine keeps_ite (fun _ => ?_) (fun _ => ?_)
    | split | dsimp only

theorem keeps_execLqBaseSizeWrite (s : State) (h : MemoryInv s) : Keeps (execLqBaseSizeWrite s) := by
  unfold execLqBaseSizeWrite
  try dsimp only
  repeat' first
    | with_reducible first
      | assumption | apply keeps_next | refine keeps_iteO (fun _ => ?_) (fun _ => ?_) | apply keeps_writeReg
      | refine keeps_ite (fun _ => ?_) (fun _ => ?_)
    | split | dsimp only

theorem keeps_execTransInvalHiWrite (s : State) (h : MemoryInv s) : Keeps (execTransInvalHiWrite s) := by
  unfold execTransInvalHiWrite
  try dsimp only
  repeat' first
    | with_reducible first
      | assumption | apply keeps_next | apply keeps_writeReg
    | dsimp only

theorem keeps_execChainKillHiWrite (s : State) (h : MemoryInv s) : Keeps (execChainKillHiWrite s) := by
  unfold execChainKillHiWrite
  try dsimp only
  repeat' first
    | with_reducible first
      | assumption | apply keeps_next | apply keeps_writeReg
    | dsimp only

theorem keeps_execSigPendWrite (s : State) (h : MemoryInv s) : Keeps (execSigPendWrite s) := by
  unfold execSigPendWrite
  try dsimp only
  repeat' first
    | with_reducible first
      | assumption | apply keeps_next | apply keeps_writeReg
    | dsimp only

theorem keeps_execSigEnWrite (s : State) (h : MemoryInv s) : Keeps (execSigEnWrite s) := by
  unfold execSigEnWrite
  try dsimp only
  repeat' first
    | with_reducible first
      | assumption | apply keeps_next | apply keeps_writeReg
    | dsimp only

theorem keeps_execVregWrite (s : State) (h : MemoryInv s) : Keeps (execVregWrite s) := by
  unfold execVregWrite
  try dsimp only
  repeat' first
    | with_reducible first
      | assumption | apply keeps_next | refine keeps_iteO (fun _ => ?_) (fun _ => ?_) | apply keeps_writeReg
      | refine keeps_ite (fun _ => ?_) (fun _ => ?_)
    | split | dsimp only

theorem keeps_execMeterWrite (s : State) (h : MemoryInv s) : Keeps (execMeterWrite s) := by
  unfold execMeterWrite
  try dsimp only
  repeat' first
    | with_reducible first
      | assumption | apply keeps_next | refine keeps_iteO (fun _ => ?_) (fun _ => ?_) | apply keeps_writeReg
      | refine keeps_ite (fun _ => ?_) (fun _ => ?_)
    | split | dsimp only

theorem keeps_execClusOffWrite (s : State) (h : MemoryInv s) : Keeps (execClusOffWrite s) := by
  unfold execClusOffWrite
  try dsimp only
  repeat' first
    | with_reducible first
      | assumption | apply keeps_next | refine keeps_iteO (fun _ => ?_) (fun _ => ?_) | apply keeps_writeReg
      | refine keeps_ite (fun _ => ?_) (fun _ => ?_)
    | split | dsimp only

theorem keeps_barLatch (s : State) (off size : Nat) (h : MemoryInv s) : MemoryInv (State.barLatch s off size) := by
  unfold State.barLatch
  try dsimp only
  repeat' first
    | with_reducible first
      | assumption | apply keeps_latchReg | refine keeps_ite (fun _ => ?_) (fun _ => ?_)
    | split | dsimp only

theorem keeps_barWrite (s : State) (off size : Nat) (w : Word) (h : MemoryInv s) :
    MemoryInv (State.barWrite s off size w) := by
  unfold State.barWrite
  try dsimp only
  repeat' first
    | with_reducible first
      | assumption | apply keeps_writeReg | refine keeps_ite (fun _ => ?_) (fun _ => ?_)
    | split | dsimp only

theorem keeps_execRegisterWrite (s : State) (h : MemoryInv s) : Keeps (execRegisterWrite s) := by
  unfold execRegisterWrite
  try dsimp only
  repeat' first
    | with_reducible first
      | assumption | apply keeps_next | refine keeps_iteO (fun _ => ?_) (fun _ => ?_) | apply keeps_writeReg
      | apply keeps_tellHost | apply keeps_barLatch | apply keeps_barWrite
      | refine keeps_ite (fun _ => ?_) (fun _ => ?_)
    | split | dsimp only

theorem keeps_execStepLoRead (s : State) (h : MemoryInv s) : Keeps (execStepLoRead s) := by
  unfold execStepLoRead
  try dsimp only
  repeat' first
    | with_reducible first
      | assumption | apply keeps_next | apply keeps_sysLatch | apply keeps_tellHost
    | dsimp only

theorem keeps_execEccLastLoRead (s : State) (h : MemoryInv s) : Keeps (execEccLastLoRead s) := by
  unfold execEccLastLoRead
  try dsimp only
  repeat' first
    | with_reducible first
      | assumption | apply keeps_next | apply keeps_latchReg | apply keeps_tellHost
    | dsimp only

theorem keeps_execHmaskWrite (s : State) (h : MemoryInv s) : Keeps (execHmaskWrite s) := by
  unfold execHmaskWrite
  try dsimp only
  repeat' first
    | with_reducible first
      | assumption | apply keeps_next | apply keeps_updElem
    | (simp only [keeps_mk]; change MemoryInv _) | dsimp only

theorem keeps_execHostMemRead (s : State) (h : MemoryInv s) : Keeps (execHostMemRead s) := by
  unfold execHostMemRead
  try dsimp only
  repeat' first
    | with_reducible first
      | assumption | apply keeps_next | refine keeps_iteO (fun _ => ?_) (fun _ => ?_)
      | refine keeps_ite (fun _ => ?_) (fun _ => ?_)
    | split | (simp only [keeps_mk]; change MemoryInv _) | dsimp only

theorem keeps_execHostMemWrite (s : State) (h : MemoryInv s) : Keeps (execHostMemWrite s) := by
  unfold execHostMemWrite
  try dsimp only
  repeat' first
    | with_reducible first
      | assumption | apply keeps_next | refine keeps_iteO (fun _ => ?_) (fun _ => ?_) | apply keeps_writeHome
      | refine keeps_ite (fun _ => ?_) (fun _ => ?_)
    | split | dsimp only

theorem keeps_dropEverywhere (s : State) (secs : List Nat) (h : MemoryInv s) :
    MemoryInv (State.dropEverywhere s secs) := by
  unfold State.dropEverywhere
  try dsimp only
  repeat' first
    | with_reducible first
      | assumption
    | (simp only [keeps_mk]; change MemoryInv _) | dsimp only

theorem keeps_execHostLineWrite (s : State) (h : MemoryInv s) : Keeps (execHostLineWrite s) := by
  unfold execHostLineWrite
  try dsimp only
  repeat' first
    | with_reducible first
      | assumption | apply keeps_next | refine keeps_iteO (fun _ => ?_) (fun _ => ?_) | apply keeps_writeHome
      | apply keeps_dropEverywhere | refine keeps_ite (fun _ => ?_) (fun _ => ?_)
    | split | dsimp only

theorem keeps_execRegulatorStep (s : State) (h : MemoryInv s) : Keeps (execRegulatorStep s) := by
  unfold execRegulatorStep
  try dsimp only
  repeat' first
    | with_reducible first
      | assumption | apply keeps_next | refine keeps_iteO (fun _ => ?_) (fun _ => ?_) | apply keeps_updCluster
      | apply keeps_setPreg | apply keeps_noteSteps | refine keeps_ite (fun _ => ?_) (fun _ => ?_)
    | split | (simp only [keeps_mk]; change MemoryInv _) | dsimp only

theorem keeps_setMeterC (s : State) (cl c : Nat) (h : MemoryInv s) : MemoryInv (State.setMeterC s cl c) := by
  unfold State.setMeterC
  try dsimp only
  repeat' first
    | with_reducible first
      | assumption | apply keeps_setPreg | apply keeps_settleMeter
    | dsimp only

theorem keeps_setCeiling (s : State) (cl v : Nat) (h : MemoryInv s) : MemoryInv (State.setCeiling s cl v) := by
  unfold State.setCeiling
  try dsimp only
  repeat' first
    | with_reducible first
      | assumption | apply keeps_retarget
    | dsimp only

theorem keeps_limitMore (s : State) (cl : Nat) (h : MemoryInv s) : MemoryInv (State.limitMore s cl) := by
  unfold State.limitMore
  try dsimp only
  repeat' first
    | with_reducible first
      | assumption | apply keeps_setMeterC | apply keeps_setCeiling | refine keeps_ite (fun _ => ?_) (fun _ => ?_)
    | split | dsimp only

theorem keeps_limitLess (s : State) (cl : Nat) (h : MemoryInv s) : MemoryInv (State.limitLess s cl) := by
  unfold State.limitLess
  try dsimp only
  repeat' first
    | with_reducible first
      | assumption | apply keeps_setMeterC | apply keeps_setCeiling | refine keeps_ite (fun _ => ?_) (fun _ => ?_)
    | split | dsimp only

theorem keeps_observeStat (s : State) (m : Nat) (h : MemoryInv s) : MemoryInv (State.observeStat s m) := by
  unfold State.observeStat
  try dsimp only
  repeat' first
    | with_reducible first
      | assumption | apply keeps_setPreg | refine keeps_ite (fun _ => ?_) (fun _ => ?_)
    | split | dsimp only

theorem keeps_execThermalObserverPeriod (s : State) (h : MemoryInv s) : Keeps (execThermalObserverPeriod s) := by
  unfold execThermalObserverPeriod
  try dsimp only
  repeat' first
    | with_reducible first
      | assumption | apply keeps_next | refine keeps_iteO (fun _ => ?_) (fun _ => ?_) | apply keeps_updCluster
      | apply keeps_setPreg | apply keeps_limitMore | apply keeps_limitLess | apply keeps_observeStat
      | refine foldl_keeps _ _ _ ?_ fun _ _ _ => ?_ | refine foldl_keeps_fst _ _ _ ?_ fun _ _ _ => ?_
      | refine keeps_ite (fun _ => ?_) (fun _ => ?_)
    | split | (simp only [keeps_mk]; change MemoryInv _) | dsimp only

theorem keeps_execObserverFallback (s : State) (h : MemoryInv s) : Keeps (execObserverFallback s) := by
  unfold execObserverFallback
  try dsimp only
  repeat' first
    | with_reducible first
      | assumption | apply keeps_next | refine keeps_iteO (fun _ => ?_) (fun _ => ?_) | apply keeps_setPreg
      | apply keeps_fallback | refine keeps_ite (fun _ => ?_) (fun _ => ?_)
    | split | dsimp only

theorem keeps_execLeaseExpiry (s : State) (h : MemoryInv s) : Keeps (execLeaseExpiry s) := by
  unfold execLeaseExpiry
  try dsimp only
  repeat' first
    | with_reducible first
      | assumption | apply keeps_next | refine keeps_iteO (fun _ => ?_) (fun _ => ?_) | apply keeps_endLease
      | refine keeps_ite (fun _ => ?_) (fun _ => ?_)
    | split | (simp only [keeps_mk]; change MemoryInv _) | dsimp only

theorem keeps_execMeterRateRise (s : State) (h : MemoryInv s) : Keeps (execMeterRateRise s) := by
  unfold execMeterRateRise
  try dsimp only
  repeat' first
    | with_reducible first
      | assumption | apply keeps_next | refine keeps_iteO (fun _ => ?_) (fun _ => ?_) | apply keeps_updCluster
      | refine keeps_ite (fun _ => ?_) (fun _ => ?_)
    | split | (simp only [keeps_mk]; change MemoryInv _) | dsimp only

end Sys2Proof.Machine
end

