-- ==== Sys2Proof/Laws/KeepsRules.lean ====
section
/-!
SUPPORT. The operations of `Float`, `Func`, `IntAlu`, `Pred` keep the canonical form of the memories.
-/
namespace Sys2Proof.Machine

theorem keeps_wrF (s : State) (t : BitVec 2) (c : Code) (v : BitVec 64) (h : MemoryInv s) :
    MemoryInv (State.wrF s t c v) := by
  unfold State.wrF
  try dsimp only
  repeat' first
    | with_reducible first
      | assumption | apply keeps_wr | apply keeps_wrPair | refine keeps_ite (fun _ => ?_) (fun _ => ?_)
    | split | dsimp only

theorem keeps_fbin (s : State) (t : BitVec 2) (o : ROp) (f : FloatFmt → Nat → Nat → Nat) (h : MemoryInv s) :
    MemoryInv (State.fbin s t o f) := by
  unfold State.fbin
  try dsimp only
  repeat' first
    | with_reducible first
      | assumption | apply keeps_consume | apply keeps_wrF
    | dsimp only

theorem keeps_fun1 (s : State) (t : BitVec 2) (o : ROp) (f : FloatFmt → Nat → Nat) (h : MemoryInv s) :
    MemoryInv (State.fun1 s t o f) := by
  unfold State.fun1
  try dsimp only
  repeat' first
    | with_reducible first
      | assumption | apply keeps_consume | apply keeps_wrF
    | dsimp only

theorem keeps_fused (s : State) (t : BitVec 2) (o : ROp) (f : FloatFmt → Nat → Nat → Nat → Nat) (h : MemoryInv
    s) :
    MemoryInv (State.fused s t o f) := by
  unfold State.fused
  try dsimp only
  repeat' first
    | with_reducible first
      | assumption | apply keeps_consume | apply keeps_wrF | refine keeps_ite (fun _ => ?_) (fun _ => ?_)
    | split | dsimp only

theorem keeps_fcompare (s : State) (t : BitVec 2) (o : POp) (rel : Nat) (h : MemoryInv s) :
    MemoryInv (State.fcompare s t o rel) := by
  unfold State.fcompare
  try dsimp only
  repeat' first
    | with_reducible first
      | assumption | apply keeps_consume | apply keeps_setp
    | dsimp only

theorem keeps_toWord (s : State) (t : BitVec 2) (o : ROp) (f : BitVec 64 → Word) (h : MemoryInv s) :
    MemoryInv (State.toWord s t o f) := by
  unfold State.toWord
  try dsimp only
  repeat' first
    | with_reducible first
      | assumption | apply keeps_consume | apply keeps_wr
    | dsimp only

theorem keeps_fromWord (s : State) (t : BitVec 2) (o : ROp) (f : Word → BitVec 64) (h : MemoryInv s) :
    MemoryInv (State.fromWord s t o f) := by
  unfold State.fromWord
  try dsimp only
  repeat' first
    | with_reducible first
      | assumption | apply keeps_consume | apply keeps_wrF
    | dsimp only

theorem keeps_execFadd (o : ROp) (t : BitVec 2) (s : State) (h : MemoryInv s) : Keeps (execFadd o t s) := by
  unfold execFadd
  try dsimp only
  repeat' first
    | with_reducible first
      | assumption | apply keeps_next | apply keeps_fbin | refine keeps_fire _ _ _ _ ?_ (fun _ => ?_)
      | refine keeps_fireOp _ _ ?_ (fun _ => ?_)
    | dsimp only

theorem keeps_execFsub (o : ROp) (t : BitVec 2) (s : State) (h : MemoryInv s) : Keeps (execFsub o t s) := by
  unfold execFsub
  try dsimp only
  repeat' first
    | with_reducible first
      | assumption | apply keeps_next | apply keeps_fbin | refine keeps_fire _ _ _ _ ?_ (fun _ => ?_)
      | refine keeps_fireOp _ _ ?_ (fun _ => ?_)
    | dsimp only

theorem keeps_execFmul (o : ROp) (t : BitVec 2) (s : State) (h : MemoryInv s) : Keeps (execFmul o t s) := by
  unfold execFmul
  try dsimp only
  repeat' first
    | with_reducible first
      | assumption | apply keeps_next | apply keeps_fbin | refine keeps_fire _ _ _ _ ?_ (fun _ => ?_)
      | refine keeps_fireOp _ _ ?_ (fun _ => ?_)
    | dsimp only

theorem keeps_execFmin (o : ROp) (t : BitVec 2) (s : State) (h : MemoryInv s) : Keeps (execFmin o t s) := by
  unfold execFmin
  try dsimp only
  repeat' first
    | with_reducible first
      | assumption | apply keeps_next | apply keeps_fbin | refine keeps_fire _ _ _ _ ?_ (fun _ => ?_)
      | refine keeps_fireOp _ _ ?_ (fun _ => ?_)
    | dsimp only

theorem keeps_execFmax (o : ROp) (t : BitVec 2) (s : State) (h : MemoryInv s) : Keeps (execFmax o t s) := by
  unfold execFmax
  try dsimp only
  repeat' first
    | with_reducible first
      | assumption | apply keeps_next | apply keeps_fbin | refine keeps_fire _ _ _ _ ?_ (fun _ => ?_)
      | refine keeps_fireOp _ _ ?_ (fun _ => ?_)
    | dsimp only

theorem keeps_execFabs (o : ROp) (t : BitVec 2) (s : State) (h : MemoryInv s) : Keeps (execFabs o t s) := by
  unfold execFabs
  try dsimp only
  repeat' first
    | with_reducible first
      | assumption | apply keeps_next | apply keeps_fun1 | refine keeps_fire _ _ _ _ ?_ (fun _ => ?_)
      | refine keeps_fireOp _ _ ?_ (fun _ => ?_)
    | dsimp only

theorem keeps_execFneg (o : ROp) (t : BitVec 2) (s : State) (h : MemoryInv s) : Keeps (execFneg o t s) := by
  unfold execFneg
  try dsimp only
  repeat' first
    | with_reducible first
      | assumption | apply keeps_next | apply keeps_fun1 | refine keeps_fire _ _ _ _ ?_ (fun _ => ?_)
      | refine keeps_fireOp _ _ ?_ (fun _ => ?_)
    | dsimp only

theorem keeps_execFfma (o : ROp) (t : BitVec 2) (s : State) (h : MemoryInv s) : Keeps (execFfma o t s) := by
  unfold execFfma
  try dsimp only
  repeat' first
    | with_reducible first
      | assumption | apply keeps_next | apply keeps_fused | refine keeps_fire _ _ _ _ ?_ (fun _ => ?_)
      | refine keeps_fireOp _ _ ?_ (fun _ => ?_)
    | dsimp only

theorem keeps_execFfms (o : ROp) (t : BitVec 2) (s : State) (h : MemoryInv s) : Keeps (execFfms o t s) := by
  unfold execFfms
  try dsimp only
  repeat' first
    | with_reducible first
      | assumption | apply keeps_next | apply keeps_fused | refine keeps_fire _ _ _ _ ?_ (fun _ => ?_)
      | refine keeps_fireOp _ _ ?_ (fun _ => ?_)
    | dsimp only

theorem keeps_execFnma (o : ROp) (t : BitVec 2) (s : State) (h : MemoryInv s) : Keeps (execFnma o t s) := by
  unfold execFnma
  try dsimp only
  repeat' first
    | with_reducible first
      | assumption | apply keeps_next | apply keeps_fused | refine keeps_fire _ _ _ _ ?_ (fun _ => ?_)
      | refine keeps_fireOp _ _ ?_ (fun _ => ?_)
    | dsimp only

theorem keeps_execFcmpEq (o : POp) (t : BitVec 2) (s : State) (h : MemoryInv s) : Keeps (execFcmpEq o t s) := by
  unfold execFcmpEq
  try dsimp only
  repeat' first
    | with_reducible first
      | assumption | apply keeps_next | apply keeps_fcompare | refine keeps_fire _ _ _ _ ?_ (fun _ => ?_)
      | refine keeps_fireOp _ _ ?_ (fun _ => ?_)
    | dsimp only

theorem keeps_execFcmpLt (o : POp) (t : BitVec 2) (s : State) (h : MemoryInv s) : Keeps (execFcmpLt o t s) := by
  unfold execFcmpLt
  try dsimp only
  repeat' first
    | with_reducible first
      | assumption | apply keeps_next | apply keeps_fcompare | refine keeps_fire _ _ _ _ ?_ (fun _ => ?_)
      | refine keeps_fireOp _ _ ?_ (fun _ => ?_)
    | dsimp only

theorem keeps_execFcmpLe (o : POp) (t : BitVec 2) (s : State) (h : MemoryInv s) : Keeps (execFcmpLe o t s) := by
  unfold execFcmpLe
  try dsimp only
  repeat' first
    | with_reducible first
      | assumption | apply keeps_next | apply keeps_fcompare | refine keeps_fire _ _ _ _ ?_ (fun _ => ?_)
      | refine keeps_fireOp _ _ ?_ (fun _ => ?_)
    | dsimp only

theorem keeps_execFcmpUn (o : POp) (t : BitVec 2) (s : State) (h : MemoryInv s) : Keeps (execFcmpUn o t s) := by
  unfold execFcmpUn
  try dsimp only
  repeat' first
    | with_reducible first
      | assumption | apply keeps_next | apply keeps_fcompare | refine keeps_fire _ _ _ _ ?_ (fun _ => ?_)
      | refine keeps_fireOp _ _ ?_ (fun _ => ?_)
    | dsimp only

theorem keeps_execFclass (o : ROp) (t : BitVec 2) (s : State) (h : MemoryInv s) : Keeps (execFclass o t s) := by
  unfold execFclass
  try dsimp only
  repeat' first
    | with_reducible first
      | assumption | apply keeps_next | apply keeps_toWord | refine keeps_fire _ _ _ _ ?_ (fun _ => ?_)
      | refine keeps_fireOp _ _ ?_ (fun _ => ?_)
    | dsimp only

theorem keeps_execFrnd (o : ROp) (t : BitVec 2) (s : State) (h : MemoryInv s) : Keeps (execFrnd o t s) := by
  unfold execFrnd
  try dsimp only
  repeat' first
    | with_reducible first
      | assumption | apply keeps_next | apply keeps_fun1 | refine keeps_fire _ _ _ _ ?_ (fun _ => ?_)
      | refine keeps_fireOp _ _ ?_ (fun _ => ?_)
    | dsimp only

theorem keeps_execF2iI32 (o : ROp) (t : BitVec 2) (s : State) (h : MemoryInv s) : Keeps (execF2iI32 o t s) := by
  unfold execF2iI32
  try dsimp only
  repeat' first
    | with_reducible first
      | assumption | apply keeps_next | apply keeps_toWord | refine keeps_fire _ _ _ _ ?_ (fun _ => ?_)
      | refine keeps_fireOp _ _ ?_ (fun _ => ?_)
    | dsimp only

theorem keeps_execF2iN32 (o : ROp) (t : BitVec 2) (s : State) (h : MemoryInv s) : Keeps (execF2iN32 o t s) := by
  unfold execF2iN32
  try dsimp only
  repeat' first
    | with_reducible first
      | assumption | apply keeps_next | apply keeps_toWord | refine keeps_fire _ _ _ _ ?_ (fun _ => ?_)
      | refine keeps_fireOp _ _ ?_ (fun _ => ?_)
    | dsimp only

theorem keeps_execI2fI32 (o : ROp) (t : BitVec 2) (s : State) (h : MemoryInv s) : Keeps (execI2fI32 o t s) := by
  unfold execI2fI32
  try dsimp only
  repeat' first
    | with_reducible first
      | assumption | apply keeps_next | apply keeps_fromWord | refine keeps_fire _ _ _ _ ?_ (fun _ => ?_)
      | refine keeps_fireOp _ _ ?_ (fun _ => ?_)
    | dsimp only

theorem keeps_execI2fN32 (o : ROp) (t : BitVec 2) (s : State) (h : MemoryInv s) : Keeps (execI2fN32 o t s) := by
  unfold execI2fN32
  try dsimp only
  repeat' first
    | with_reducible first
      | assumption | apply keeps_next | apply keeps_fromWord | refine keeps_fire _ _ _ _ ?_ (fun _ => ?_)
      | refine keeps_fireOp _ _ ?_ (fun _ => ?_)
    | dsimp only

theorem keeps_execFcvt (o : ROp) (t : BitVec 2) (s : State) (h : MemoryInv s) : Keeps (execFcvt o t s) := by
  unfold execFcvt
  try dsimp only
  repeat' first
    | with_reducible first
      | assumption | apply keeps_next | apply keeps_consume | apply keeps_wrF
      | refine keeps_fire _ _ _ _ ?_ (fun _ => ?_) | refine keeps_fireOp _ _ ?_ (fun _ => ?_)
    | dsimp only

theorem keeps_sendFunc (s : State) (o : ROp) (cs : List Code) (f : Word → Word → Word) (h : MemoryInv s) :
    MemoryInv (State.sendFunc s o cs f) := by
  unfold State.sendFunc
  try dsimp only
  repeat' first
    | with_reducible first
      | assumption | apply keeps_addReq | refine keeps_reserveDst ?_ (by assumption) | apply keeps_reserveDst_fst
      | apply keeps_consume
    | split | (simp only [keeps_mk]; change MemoryInv _) | dsimp only

theorem keeps_execSinF (o : ROp) (s : State) (h : MemoryInv s) : Keeps (execSinF o s) := by
  unfold execSinF
  try dsimp only
  repeat' first
    | with_reducible first
      | assumption | apply keeps_next | apply keeps_sendFunc | refine keeps_fire _ _ _ _ ?_ (fun _ => ?_)
      | refine keeps_fireOp _ _ ?_ (fun _ => ?_)
    | dsimp only

theorem keeps_execCosF (o : ROp) (s : State) (h : MemoryInv s) : Keeps (execCosF o s) := by
  unfold execCosF
  try dsimp only
  repeat' first
    | with_reducible first
      | assumption | apply keeps_next | apply keeps_sendFunc | refine keeps_fire _ _ _ _ ?_ (fun _ => ?_)
      | refine keeps_fireOp _ _ ?_ (fun _ => ?_)
    | dsimp only

theorem keeps_execSinQ (o : ROp) (s : State) (h : MemoryInv s) : Keeps (execSinQ o s) := by
  unfold execSinQ
  try dsimp only
  repeat' first
    | with_reducible first
      | assumption | apply keeps_next | apply keeps_sendFunc | refine keeps_fire _ _ _ _ ?_ (fun _ => ?_)
      | refine keeps_fireOp _ _ ?_ (fun _ => ?_)
    | dsimp only

theorem keeps_execCosQ (o : ROp) (s : State) (h : MemoryInv s) : Keeps (execCosQ o s) := by
  unfold execCosQ
  try dsimp only
  repeat' first
    | with_reducible first
      | assumption | apply keeps_next | apply keeps_sendFunc | refine keeps_fire _ _ _ _ ?_ (fun _ => ?_)
      | refine keeps_fireOp _ _ ?_ (fun _ => ?_)
    | dsimp only

theorem keeps_execExp2 (o : ROp) (s : State) (h : MemoryInv s) : Keeps (execExp2 o s) := by
  unfold execExp2
  try dsimp only
  repeat' first
    | with_reducible first
      | assumption | apply keeps_next | apply keeps_sendFunc | refine keeps_fire _ _ _ _ ?_ (fun _ => ?_)
      | refine keeps_fireOp _ _ ?_ (fun _ => ?_)
    | dsimp only

theorem keeps_execLog2 (o : ROp) (s : State) (h : MemoryInv s) : Keeps (execLog2 o s) := by
  unfold execLog2
  try dsimp only
  repeat' first
    | with_reducible first
      | assumption | apply keeps_next | apply keeps_sendFunc | refine keeps_fire _ _ _ _ ?_ (fun _ => ?_)
      | refine keeps_fireOp _ _ ?_ (fun _ => ?_)
    | dsimp only

theorem keeps_execRcp (o : ROp) (s : State) (h : MemoryInv s) : Keeps (execRcp o s) := by
  unfold execRcp
  try dsimp only
  repeat' first
    | with_reducible first
      | assumption | apply keeps_next | apply keeps_sendFunc | refine keeps_fire _ _ _ _ ?_ (fun _ => ?_)
      | refine keeps_fireOp _ _ ?_ (fun _ => ?_)
    | dsimp only

theorem keeps_execRsqrt (o : ROp) (s : State) (h : MemoryInv s) : Keeps (execRsqrt o s) := by
  unfold execRsqrt
  try dsimp only
  repeat' first
    | with_reducible first
      | assumption | apply keeps_next | apply keeps_sendFunc | refine keeps_fire _ _ _ _ ?_ (fun _ => ?_)
      | refine keeps_fireOp _ _ ?_ (fun _ => ?_)
    | dsimp only

theorem keeps_execSqrt (o : ROp) (s : State) (h : MemoryInv s) : Keeps (execSqrt o s) := by
  unfold execSqrt
  try dsimp only
  repeat' first
    | with_reducible first
      | assumption | apply keeps_next | apply keeps_sendFunc | refine keeps_fire _ _ _ _ ?_ (fun _ => ?_)
      | refine keeps_fireOp _ _ ?_ (fun _ => ?_)
    | dsimp only

theorem keeps_execTanh (o : ROp) (s : State) (h : MemoryInv s) : Keeps (execTanh o s) := by
  unfold execTanh
  try dsimp only
  repeat' first
    | with_reducible first
      | assumption | apply keeps_next | apply keeps_sendFunc | refine keeps_fire _ _ _ _ ?_ (fun _ => ?_)
      | refine keeps_fireOp _ _ ?_ (fun _ => ?_)
    | dsimp only

theorem keeps_execErf (o : ROp) (s : State) (h : MemoryInv s) : Keeps (execErf o s) := by
  unfold execErf
  try dsimp only
  repeat' first
    | with_reducible first
      | assumption | apply keeps_next | apply keeps_sendFunc | refine keeps_fire _ _ _ _ ?_ (fun _ => ?_)
      | refine keeps_fireOp _ _ ?_ (fun _ => ?_)
    | dsimp only

theorem keeps_execFdiv (o : ROp) (s : State) (h : MemoryInv s) : Keeps (execFdiv o s) := by
  unfold execFdiv
  try dsimp only
  repeat' first
    | with_reducible first
      | assumption | apply keeps_next | apply keeps_sendFunc | refine keeps_fire _ _ _ _ ?_ (fun _ => ?_)
      | refine keeps_fireOp _ _ ?_ (fun _ => ?_)
    | dsimp only

theorem keeps_execIdivI32 (o : ROp) (s : State) (h : MemoryInv s) : Keeps (execIdivI32 o s) := by
  unfold execIdivI32
  try dsimp only
  repeat' first
    | with_reducible first
      | assumption | apply keeps_next | apply keeps_sendFunc | refine keeps_fire _ _ _ _ ?_ (fun _ => ?_)
      | refine keeps_fireOp _ _ ?_ (fun _ => ?_)
    | dsimp only

theorem keeps_execIdivN32 (o : ROp) (s : State) (h : MemoryInv s) : Keeps (execIdivN32 o s) := by
  unfold execIdivN32
  try dsimp only
  repeat' first
    | with_reducible first
      | assumption | apply keeps_next | apply keeps_sendFunc | refine keeps_fire _ _ _ _ ?_ (fun _ => ?_)
      | refine keeps_fireOp _ _ ?_ (fun _ => ?_)
    | dsimp only

theorem keeps_execIremI32 (o : ROp) (s : State) (h : MemoryInv s) : Keeps (execIremI32 o s) := by
  unfold execIremI32
  try dsimp only
  repeat' first
    | with_reducible first
      | assumption | apply keeps_next | apply keeps_sendFunc | refine keeps_fire _ _ _ _ ?_ (fun _ => ?_)
      | refine keeps_fireOp _ _ ?_ (fun _ => ?_)
    | dsimp only

theorem keeps_execIremN32 (o : ROp) (s : State) (h : MemoryInv s) : Keeps (execIremN32 o s) := by
  unfold execIremN32
  try dsimp only
  repeat' first
    | with_reducible first
      | assumption | apply keeps_next | apply keeps_sendFunc | refine keeps_fire _ _ _ _ ?_ (fun _ => ?_)
      | refine keeps_fireOp _ _ ?_ (fun _ => ?_)
    | dsimp only

theorem keeps_execSinQP7 (o : ROp) (s : State) (h : MemoryInv s) : Keeps (execSinQP7 o s) := by
  unfold execSinQP7
  try dsimp only
  repeat' first
    | with_reducible first
      | assumption | apply keeps_next | apply keeps_updMe | apply keeps_sendFunc
      | refine keeps_fire _ _ _ _ ?_ (fun _ => ?_) | refine keeps_fireOp _ _ ?_ (fun _ => ?_)
    | dsimp only

theorem keeps_execCosQP7 (o : ROp) (s : State) (h : MemoryInv s) : Keeps (execCosQP7 o s) := by
  unfold execCosQP7
  try dsimp only
  repeat' first
    | with_reducible first
      | assumption | apply keeps_next | apply keeps_updMe | apply keeps_sendFunc
      | refine keeps_fire _ _ _ _ ?_ (fun _ => ?_) | refine keeps_fireOp _ _ ?_ (fun _ => ?_)
    | dsimp only

theorem keeps_execAdd (o : ROp) (s : State) (h : MemoryInv s) : Keeps (execAdd o s) := by
  unfold execAdd
  try dsimp only
  repeat' first
    | with_reducible first
      | assumption | apply keeps_next | apply keeps_bin | refine keeps_fire _ _ _ _ ?_ (fun _ => ?_)
      | refine keeps_fireOp _ _ ?_ (fun _ => ?_)
    | dsimp only

theorem keeps_execSub (o : ROp) (s : State) (h : MemoryInv s) : Keeps (execSub o s) := by
  unfold execSub
  try dsimp only
  repeat' first
    | with_reducible first
      | assumption | apply keeps_next | apply keeps_bin | refine keeps_fire _ _ _ _ ?_ (fun _ => ?_)
      | refine keeps_fireOp _ _ ?_ (fun _ => ?_)
    | dsimp only

theorem keeps_execNeg (o : ROp) (s : State) (h : MemoryInv s) : Keeps (execNeg o s) := by
  unfold execNeg
  try dsimp only
  repeat' first
    | with_reducible first
      | assumption | apply keeps_next | apply keeps_un | refine keeps_fire _ _ _ _ ?_ (fun _ => ?_)
      | refine keeps_fireOp _ _ ?_ (fun _ => ?_)
    | dsimp only

theorem keeps_execAbs (o : ROp) (s : State) (h : MemoryInv s) : Keeps (execAbs o s) := by
  unfold execAbs
  try dsimp only
  repeat' first
    | with_reducible first
      | assumption | apply keeps_next | refine keeps_iteO (fun _ => ?_) (fun _ => ?_) | apply keeps_un
      | refine keeps_fire _ _ _ _ ?_ (fun _ => ?_) | refine keeps_fireOp _ _ ?_ (fun _ => ?_)
      | refine keeps_ite (fun _ => ?_) (fun _ => ?_)
    | split | dsimp only

theorem keeps_execMinI32 (o : ROp) (s : State) (h : MemoryInv s) : Keeps (execMinI32 o s) := by
  unfold execMinI32
  try dsimp only
  repeat' first
    | with_reducible first
      | assumption | apply keeps_next | refine keeps_iteO (fun _ => ?_) (fun _ => ?_) | apply keeps_bin
      | refine keeps_fire _ _ _ _ ?_ (fun _ => ?_) | refine keeps_fireOp _ _ ?_ (fun _ => ?_)
      | refine keeps_ite (fun _ => ?_) (fun _ => ?_)
    | split | dsimp only

theorem keeps_execMaxI32 (o : ROp) (s : State) (h : MemoryInv s) : Keeps (execMaxI32 o s) := by
  unfold execMaxI32
  try dsimp only
  repeat' first
    | with_reducible first
      | assumption | apply keeps_next | refine keeps_iteO (fun _ => ?_) (fun _ => ?_) | apply keeps_bin
      | refine keeps_fire _ _ _ _ ?_ (fun _ => ?_) | refine keeps_fireOp _ _ ?_ (fun _ => ?_)
      | refine keeps_ite (fun _ => ?_) (fun _ => ?_)
    | split | dsimp only

theorem keeps_execMinN32 (o : ROp) (s : State) (h : MemoryInv s) : Keeps (execMinN32 o s) := by
  unfold execMinN32
  try dsimp only
  repeat' first
    | with_reducible first
      | assumption | apply keeps_next | refine keeps_iteO (fun _ => ?_) (fun _ => ?_) | apply keeps_bin
      | refine keeps_fire _ _ _ _ ?_ (fun _ => ?_) | refine keeps_fireOp _ _ ?_ (fun _ => ?_)
      | refine keeps_ite (fun _ => ?_) (fun _ => ?_)
    | split | dsimp only

theorem keeps_execMaxN32 (o : ROp) (s : State) (h : MemoryInv s) : Keeps (execMaxN32 o s) := by
  unfold execMaxN32
  try dsimp only
  repeat' first
    | with_reducible first
      | assumption | apply keeps_next | refine keeps_iteO (fun _ => ?_) (fun _ => ?_) | apply keeps_bin
      | refine keeps_fire _ _ _ _ ?_ (fun _ => ?_) | refine keeps_fireOp _ _ ?_ (fun _ => ?_)
      | refine keeps_ite (fun _ => ?_) (fun _ => ?_)
    | split | dsimp only

theorem keeps_execSataddI32 (o : ROp) (s : State) (h : MemoryInv s) : Keeps (execSataddI32 o s) := by
  unfold execSataddI32
  try dsimp only
  repeat' first
    | with_reducible first
      | assumption | apply keeps_next | apply keeps_bin | refine keeps_fire _ _ _ _ ?_ (fun _ => ?_)
      | refine keeps_fireOp _ _ ?_ (fun _ => ?_)
    | dsimp only

theorem keeps_execSatsubI32 (o : ROp) (s : State) (h : MemoryInv s) : Keeps (execSatsubI32 o s) := by
  unfold execSatsubI32
  try dsimp only
  repeat' first
    | with_reducible first
      | assumption | apply keeps_next | apply keeps_bin | refine keeps_fire _ _ _ _ ?_ (fun _ => ?_)
      | refine keeps_fireOp _ _ ?_ (fun _ => ?_)
    | dsimp only

theorem keeps_execAnd (o : ROp) (s : State) (h : MemoryInv s) : Keeps (execAnd o s) := by
  unfold execAnd
  try dsimp only
  repeat' first
    | with_reducible first
      | assumption | apply keeps_next | apply keeps_bin | refine keeps_fire _ _ _ _ ?_ (fun _ => ?_)
      | refine keeps_fireOp _ _ ?_ (fun _ => ?_)
    | dsimp only

theorem keeps_execOr (o : ROp) (s : State) (h : MemoryInv s) : Keeps (execOr o s) := by
  unfold execOr
  try dsimp only
  repeat' first
    | with_reducible first
      | assumption | apply keeps_next | apply keeps_bin | refine keeps_fire _ _ _ _ ?_ (fun _ => ?_)
      | refine keeps_fireOp _ _ ?_ (fun _ => ?_)
    | dsimp only

theorem keeps_execXor (o : ROp) (s : State) (h : MemoryInv s) : Keeps (execXor o s) := by
  unfold execXor
  try dsimp only
  repeat' first
    | with_reducible first
      | assumption | apply keeps_next | apply keeps_bin | refine keeps_fire _ _ _ _ ?_ (fun _ => ?_)
      | refine keeps_fireOp _ _ ?_ (fun _ => ?_)
    | dsimp only

theorem keeps_execAndn (o : ROp) (s : State) (h : MemoryInv s) : Keeps (execAndn o s) := by
  unfold execAndn
  try dsimp only
  repeat' first
    | with_reducible first
      | assumption | apply keeps_next | apply keeps_bin | refine keeps_fire _ _ _ _ ?_ (fun _ => ?_)
      | refine keeps_fireOp _ _ ?_ (fun _ => ?_)
    | dsimp only

theorem keeps_execNot (o : ROp) (s : State) (h : MemoryInv s) : Keeps (execNot o s) := by
  unfold execNot
  try dsimp only
  repeat' first
    | with_reducible first
      | assumption | apply keeps_next | apply keeps_un | refine keeps_fire _ _ _ _ ?_ (fun _ => ?_)
      | refine keeps_fireOp _ _ ?_ (fun _ => ?_)
    | dsimp only

theorem keeps_execShl (o : ROp) (s : State) (h : MemoryInv s) : Keeps (execShl o s) := by
  unfold execShl
  try dsimp only
  repeat' first
    | with_reducible first
      | assumption | apply keeps_next | apply keeps_bin | refine keeps_fire _ _ _ _ ?_ (fun _ => ?_)
      | refine keeps_fireOp _ _ ?_ (fun _ => ?_)
    | dsimp only

theorem keeps_execShr (o : ROp) (s : State) (h : MemoryInv s) : Keeps (execShr o s) := by
  unfold execShr
  try dsimp only
  repeat' first
    | with_reducible first
      | assumption | apply keeps_next | apply keeps_bin | refine keeps_fire _ _ _ _ ?_ (fun _ => ?_)
      | refine keeps_fireOp _ _ ?_ (fun _ => ?_)
    | dsimp only

theorem keeps_execSar (o : ROp) (s : State) (h : MemoryInv s) : Keeps (execSar o s) := by
  unfold execSar
  try dsimp only
  repeat' first
    | with_reducible first
      | assumption | apply keeps_next | apply keeps_bin | refine keeps_fire _ _ _ _ ?_ (fun _ => ?_)
      | refine keeps_fireOp _ _ ?_ (fun _ => ?_)
    | dsimp only

theorem keeps_execRol (o : ROp) (s : State) (h : MemoryInv s) : Keeps (execRol o s) := by
  unfold execRol
  try dsimp only
  repeat' first
    | with_reducible first
      | assumption | apply keeps_next | apply keeps_bin | refine keeps_fire _ _ _ _ ?_ (fun _ => ?_)
      | refine keeps_fireOp _ _ ?_ (fun _ => ?_)
    | dsimp only

theorem keeps_execClz (o : ROp) (s : State) (h : MemoryInv s) : Keeps (execClz o s) := by
  unfold execClz
  try dsimp only
  repeat' first
    | with_reducible first
      | assumption | apply keeps_next | apply keeps_un | refine keeps_fire _ _ _ _ ?_ (fun _ => ?_)
      | refine keeps_fireOp _ _ ?_ (fun _ => ?_)
    | dsimp only

theorem keeps_execCtz (o : ROp) (s : State) (h : MemoryInv s) : Keeps (execCtz o s) := by
  unfold execCtz
  try dsimp only
  repeat' first
    | with_reducible first
      | assumption | apply keeps_next | apply keeps_un | refine keeps_fire _ _ _ _ ?_ (fun _ => ?_)
      | refine keeps_fireOp _ _ ?_ (fun _ => ?_)
    | dsimp only

theorem keeps_execPopc (o : ROp) (s : State) (h : MemoryInv s) : Keeps (execPopc o s) := by
  unfold execPopc
  try dsimp only
  repeat' first
    | with_reducible first
      | assumption | apply keeps_next | apply keeps_un | refine keeps_fire _ _ _ _ ?_ (fun _ => ?_)
      | refine keeps_fireOp _ _ ?_ (fun _ => ?_)
    | dsimp only

theorem keeps_execBrev (o : ROp) (s : State) (h : MemoryInv s) : Keeps (execBrev o s) := by
  unfold execBrev
  try dsimp only
  repeat' first
    | with_reducible first
      | assumption | apply keeps_next | apply keeps_un | refine keeps_fire _ _ _ _ ?_ (fun _ => ?_)
      | refine keeps_fireOp _ _ ?_ (fun _ => ?_)
    | dsimp only

theorem keeps_execMul (o : ROp) (s : State) (h : MemoryInv s) : Keeps (execMul o s) := by
  unfold execMul
  try dsimp only
  repeat' first
    | with_reducible first
      | assumption | apply keeps_next | apply keeps_bin | refine keeps_fire _ _ _ _ ?_ (fun _ => ?_)
      | refine keeps_fireOp _ _ ?_ (fun _ => ?_)
    | dsimp only

theorem keeps_execMulhI32 (o : ROp) (s : State) (h : MemoryInv s) : Keeps (execMulhI32 o s) := by
  unfold execMulhI32
  try dsimp only
  repeat' first
    | with_reducible first
      | assumption | apply keeps_next | apply keeps_bin | refine keeps_fire _ _ _ _ ?_ (fun _ => ?_)
      | refine keeps_fireOp _ _ ?_ (fun _ => ?_)
    | dsimp only

theorem keeps_execMulhN32 (o : ROp) (s : State) (h : MemoryInv s) : Keeps (execMulhN32 o s) := by
  unfold execMulhN32
  try dsimp only
  repeat' first
    | with_reducible first
      | assumption | apply keeps_next | apply keeps_bin | refine keeps_fire _ _ _ _ ?_ (fun _ => ?_)
      | refine keeps_fireOp _ _ ?_ (fun _ => ?_)
    | dsimp only

theorem keeps_execMad (o : ROp) (s : State) (h : MemoryInv s) : Keeps (execMad o s) := by
  unfold execMad
  try dsimp only
  repeat' first
    | with_reducible first
      | assumption | apply keeps_next | apply keeps_bin | refine keeps_fire _ _ _ _ ?_ (fun _ => ?_)
      | refine keeps_fireOp _ _ ?_ (fun _ => ?_)
    | dsimp only

theorem keeps_execSel (o : ROp) (k : BitVec 3) (s : State) (h : MemoryInv s) : Keeps (execSel o k s) := by
  unfold execSel
  try dsimp only
  repeat' first
    | with_reducible first
      | assumption | apply keeps_next | refine keeps_iteO (fun _ => ?_) (fun _ => ?_) | apply keeps_bin
      | refine keeps_fire _ _ _ _ ?_ (fun _ => ?_) | refine keeps_fireOp _ _ ?_ (fun _ => ?_)
      | refine keeps_ite (fun _ => ?_) (fun _ => ?_)
    | split | dsimp only

theorem keeps_execExtI8 (o : ROp) (l : BitVec 2) (s : State) (h : MemoryInv s) : Keeps (execExtI8 o l s) := by
  unfold execExtI8
  try dsimp only
  repeat' first
    | with_reducible first
      | assumption | apply keeps_next | apply keeps_un | refine keeps_fire _ _ _ _ ?_ (fun _ => ?_)
      | refine keeps_fireOp _ _ ?_ (fun _ => ?_)
    | dsimp only

theorem keeps_execExtI16 (o : ROp) (l : BitVec 2) (s : State) (h : MemoryInv s) : Keeps (execExtI16 o l s) := by
  unfold execExtI16
  try dsimp only
  repeat' first
    | with_reducible first
      | assumption | apply keeps_next | apply keeps_un | refine keeps_fire _ _ _ _ ?_ (fun _ => ?_)
      | refine keeps_fireOp _ _ ?_ (fun _ => ?_)
    | dsimp only

theorem keeps_execExtN8 (o : ROp) (l : BitVec 2) (s : State) (h : MemoryInv s) : Keeps (execExtN8 o l s) := by
  unfold execExtN8
  try dsimp only
  repeat' first
    | with_reducible first
      | assumption | apply keeps_next | apply keeps_un | refine keeps_fire _ _ _ _ ?_ (fun _ => ?_)
      | refine keeps_fireOp _ _ ?_ (fun _ => ?_)
    | dsimp only

theorem keeps_execExtN16 (o : ROp) (l : BitVec 2) (s : State) (h : MemoryInv s) : Keeps (execExtN16 o l s) := by
  unfold execExtN16
  try dsimp only
  repeat' first
    | with_reducible first
      | assumption | apply keeps_next | apply keeps_un | refine keeps_fire _ _ _ _ ?_ (fun _ => ?_)
      | refine keeps_fireOp _ _ ?_ (fun _ => ?_)
    | dsimp only

theorem keeps_execInsN8 (o : ROp) (l : BitVec 2) (s : State) (h : MemoryInv s) : Keeps (execInsN8 o l s) := by
  unfold execInsN8
  try dsimp only
  repeat' first
    | with_reducible first
      | assumption | apply keeps_next | apply keeps_un | refine keeps_fire _ _ _ _ ?_ (fun _ => ?_)
      | refine keeps_fireOp _ _ ?_ (fun _ => ?_)
    | dsimp only

theorem keeps_execInsN16 (o : ROp) (l : BitVec 2) (s : State) (h : MemoryInv s) : Keeps (execInsN16 o l s) := by
  unfold execInsN16
  try dsimp only
  repeat' first
    | with_reducible first
      | assumption | apply keeps_next | apply keeps_un | refine keeps_fire _ _ _ _ ?_ (fun _ => ?_)
      | refine keeps_fireOp _ _ ?_ (fun _ => ?_)
    | dsimp only

theorem keeps_execAddi (o : IOp) (s : State) (h : MemoryInv s) : Keeps (execAddi o s) := by
  unfold execAddi
  try dsimp only
  repeat' first
    | with_reducible first
      | assumption | apply keeps_next | apply keeps_un | refine keeps_fire _ _ _ _ ?_ (fun _ => ?_)
      | refine keeps_fireOp _ _ ?_ (fun _ => ?_)
    | dsimp only

theorem keeps_execAndi (o : IOp) (s : State) (h : MemoryInv s) : Keeps (execAndi o s) := by
  unfold execAndi
  try dsimp only
  repeat' first
    | with_reducible first
      | assumption | apply keeps_next | apply keeps_un | refine keeps_fire _ _ _ _ ?_ (fun _ => ?_)
      | refine keeps_fireOp _ _ ?_ (fun _ => ?_)
    | dsimp only

theorem keeps_execOri (o : IOp) (s : State) (h : MemoryInv s) : Keeps (execOri o s) := by
  unfold execOri
  try dsimp only
  repeat' first
    | with_reducible first
      | assumption | apply keeps_next | apply keeps_un | refine keeps_fire _ _ _ _ ?_ (fun _ => ?_)
      | refine keeps_fireOp _ _ ?_ (fun _ => ?_)
    | dsimp only

theorem keeps_execXori (o : IOp) (s : State) (h : MemoryInv s) : Keeps (execXori o s) := by
  unfold execXori
  try dsimp only
  repeat' first
    | with_reducible first
      | assumption | apply keeps_next | apply keeps_un | refine keeps_fire _ _ _ _ ?_ (fun _ => ?_)
      | refine keeps_fireOp _ _ ?_ (fun _ => ?_)
    | dsimp only

theorem keeps_execShli (o : IOp) (s : State) (h : MemoryInv s) : Keeps (execShli o s) := by
  unfold execShli
  try dsimp only
  repeat' first
    | with_reducible first
      | assumption | apply keeps_next | apply keeps_un | refine keeps_fire _ _ _ _ ?_ (fun _ => ?_)
      | refine keeps_fireOp _ _ ?_ (fun _ => ?_)
    | dsimp only

theorem keeps_execShri (o : IOp) (s : State) (h : MemoryInv s) : Keeps (execShri o s) := by
  unfold execShri
  try dsimp only
  repeat' first
    | with_reducible first
      | assumption | apply keeps_next | apply keeps_un | refine keeps_fire _ _ _ _ ?_ (fun _ => ?_)
      | refine keeps_fireOp _ _ ?_ (fun _ => ?_)
    | dsimp only

theorem keeps_execSari (o : IOp) (s : State) (h : MemoryInv s) : Keeps (execSari o s) := by
  unfold execSari
  try dsimp only
  repeat' first
    | with_reducible first
      | assumption | apply keeps_next | apply keeps_un | refine keeps_fire _ _ _ _ ?_ (fun _ => ?_)
      | refine keeps_fireOp _ _ ?_ (fun _ => ?_)
    | dsimp only

theorem keeps_execLi (o : IOp) (s : State) (h : MemoryInv s) : Keeps (execLi o s) := by
  unfold execLi
  try dsimp only
  repeat' first
    | with_reducible first
      | assumption | apply keeps_next | apply keeps_wr | refine keeps_fire _ _ _ _ ?_ (fun _ => ?_)
      | refine keeps_fireOp _ _ ?_ (fun _ => ?_)
    | dsimp only

theorem keeps_execCmpEq (o : POp) (s : State) (h : MemoryInv s) : Keeps (execCmpEq o s) := by
  unfold execCmpEq
  try dsimp only
  repeat' first
    | with_reducible first
      | assumption | apply keeps_next | apply keeps_cond2 | refine keeps_fire _ _ _ _ ?_ (fun _ => ?_)
      | refine keeps_fireOp _ _ ?_ (fun _ => ?_)
    | dsimp only

theorem keeps_execCmpNe (o : POp) (s : State) (h : MemoryInv s) : Keeps (execCmpNe o s) := by
  unfold execCmpNe
  try dsimp only
  repeat' first
    | with_reducible first
      | assumption | apply keeps_next | apply keeps_cond2 | refine keeps_fire _ _ _ _ ?_ (fun _ => ?_)
      | refine keeps_fireOp _ _ ?_ (fun _ => ?_)
    | dsimp only

theorem keeps_execCmpLtI32 (o : POp) (s : State) (h : MemoryInv s) : Keeps (execCmpLtI32 o s) := by
  unfold execCmpLtI32
  try dsimp only
  repeat' first
    | with_reducible first
      | assumption | apply keeps_next | apply keeps_cond2 | refine keeps_fire _ _ _ _ ?_ (fun _ => ?_)
      | refine keeps_fireOp _ _ ?_ (fun _ => ?_)
    | dsimp only

theorem keeps_execCmpLeI32 (o : POp) (s : State) (h : MemoryInv s) : Keeps (execCmpLeI32 o s) := by
  unfold execCmpLeI32
  try dsimp only
  repeat' first
    | with_reducible first
      | assumption | apply keeps_next | apply keeps_cond2 | refine keeps_fire _ _ _ _ ?_ (fun _ => ?_)
      | refine keeps_fireOp _ _ ?_ (fun _ => ?_)
    | dsimp only

theorem keeps_execCmpLtN32 (o : POp) (s : State) (h : MemoryInv s) : Keeps (execCmpLtN32 o s) := by
  unfold execCmpLtN32
  try dsimp only
  repeat' first
    | with_reducible first
      | assumption | apply keeps_next | apply keeps_cond2 | refine keeps_fire _ _ _ _ ?_ (fun _ => ?_)
      | refine keeps_fireOp _ _ ?_ (fun _ => ?_)
    | dsimp only

theorem keeps_execCmpLeN32 (o : POp) (s : State) (h : MemoryInv s) : Keeps (execCmpLeN32 o s) := by
  unfold execCmpLeN32
  try dsimp only
  repeat' first
    | with_reducible first
      | assumption | apply keeps_next | apply keeps_cond2 | refine keeps_fire _ _ _ _ ?_ (fun _ => ?_)
      | refine keeps_fireOp _ _ ?_ (fun _ => ?_)
    | dsimp only

theorem keeps_execPset (o : POp) (s : State) (h : MemoryInv s) : Keeps (execPset o s) := by
  unfold execPset
  try dsimp only
  repeat' first
    | with_reducible first
      | assumption | apply keeps_next | apply keeps_setp | refine keeps_fire _ _ _ _ ?_ (fun _ => ?_)
      | refine keeps_fireOp _ _ ?_ (fun _ => ?_)
    | dsimp only

theorem keeps_execPclr (o : POp) (s : State) (h : MemoryInv s) : Keeps (execPclr o s) := by
  unfold execPclr
  try dsimp only
  repeat' first
    | with_reducible first
      | assumption | apply keeps_next | apply keeps_setp | refine keeps_fire _ _ _ _ ?_ (fun _ => ?_)
      | refine keeps_fireOp _ _ ?_ (fun _ => ?_)
    | dsimp only

theorem keeps_execPnot (o : POp) (s : State) (h : MemoryInv s) : Keeps (execPnot o s) := by
  unfold execPnot
  try dsimp only
  repeat' first
    | with_reducible first
      | assumption | apply keeps_next | apply keeps_setp | refine keeps_fire _ _ _ _ ?_ (fun _ => ?_)
      | refine keeps_fireOp _ _ ?_ (fun _ => ?_)
    | dsimp only

theorem keeps_execPand (o : POp) (s : State) (h : MemoryInv s) : Keeps (execPand o s) := by
  unfold execPand
  try dsimp only
  repeat' first
    | with_reducible first
      | assumption | apply keeps_next | apply keeps_setp | refine keeps_fire _ _ _ _ ?_ (fun _ => ?_)
      | refine keeps_fireOp _ _ ?_ (fun _ => ?_)
    | dsimp only

theorem keeps_execPor (o : POp) (s : State) (h : MemoryInv s) : Keeps (execPor o s) := by
  unfold execPor
  try dsimp only
  repeat' first
    | with_reducible first
      | assumption | apply keeps_next | apply keeps_setp | refine keeps_fire _ _ _ _ ?_ (fun _ => ?_)
      | refine keeps_fireOp _ _ ?_ (fun _ => ?_)
    | dsimp only

theorem keeps_execPxor (o : POp) (s : State) (h : MemoryInv s) : Keeps (execPxor o s) := by
  unfold execPxor
  try dsimp only
  repeat' first
    | with_reducible first
      | assumption | apply keeps_next | apply keeps_setp | refine keeps_fire _ _ _ _ ?_ (fun _ => ?_)
      | refine keeps_fireOp _ _ ?_ (fun _ => ?_)
    | dsimp only

theorem keeps_execPmov (o : POp) (s : State) (h : MemoryInv s) : Keeps (execPmov o s) := by
  unfold execPmov
  try dsimp only
  repeat' first
    | with_reducible first
      | assumption | apply keeps_next | apply keeps_setp | refine keeps_fire _ _ _ _ ?_ (fun _ => ?_)
      | refine keeps_fireOp _ _ ?_ (fun _ => ?_)
    | dsimp only

theorem keeps_execPbit (o : POp) (s : State) (h : MemoryInv s) : Keeps (execPbit o s) := by
  unfold execPbit
  try dsimp only
  repeat' first
    | with_reducible first
      | assumption | apply keeps_next | apply keeps_consume | apply keeps_setp
      | refine keeps_fire _ _ _ _ ?_ (fun _ => ?_) | refine keeps_fireOp _ _ ?_ (fun _ => ?_)
    | dsimp only

theorem keeps_execPchanNe (o : POp) (x : BitVec 2) (s : State) (h : MemoryInv s) : Keeps (execPchanNe o x s) := by
  unfold execPchanNe
  try dsimp only
  repeat' first
    | with_reducible first
      | assumption | apply keeps_next | apply keeps_setp | refine keeps_fire _ _ _ _ ?_ (fun _ => ?_)
      | refine keeps_fireOp _ _ ?_ (fun _ => ?_)
    | dsimp only

theorem keeps_execPchanTag (o : POp) (x : BitVec 2) (s : State) (h : MemoryInv s) : Keeps (execPchanTag o x s) := by
  unfold execPchanTag
  try dsimp only
  repeat' first
    | with_reducible first
      | assumption | apply keeps_next | apply keeps_setp | refine keeps_fire _ _ _ _ ?_ (fun _ => ?_)
      | refine keeps_fireOp _ _ ?_ (fun _ => ?_)
    | split | (simp only [keeps_mk]; change MemoryInv _) | dsimp only

theorem keeps_execPchanRoom (o : POp) (x : BitVec 2) (s : State) (h : MemoryInv s) : Keeps (execPchanRoom o x s) := by
  unfold execPchanRoom
  try dsimp only
  repeat' first
    | with_reducible first
      | assumption | apply keeps_next | apply keeps_setp | refine keeps_fire _ _ _ _ ?_ (fun _ => ?_)
      | refine keeps_fireOp _ _ ?_ (fun _ => ?_)
    | dsimp only

end Sys2Proof.Machine
end

