-- ==== Sys2Proof/Laws/PerInstr.lean ====
section
/-!
SUPPORT. The family `View`, one lemma per constructor: the encoding fields that `Instr.view` gives a rule form are read
back by `View.instr?` as that form with its operands (R199 to R203).
-/
namespace Sys2Proof.Laws.View

/-- The encoding fields of a rule form are read back as that form. -/
def Statement (i : Instr) : Prop := i.isRule = true → i.view.instr? = some i

theorem add (o : ROp) : Statement (.add o) := fun _ => rfl
theorem sub (o : ROp) : Statement (.sub o) := fun _ => rfl
theorem neg (o : ROp) : Statement (.neg o) := fun _ => rfl
theorem abs (o : ROp) : Statement (.abs o) := fun _ => rfl
theorem minI32 (o : ROp) : Statement (.minI32 o) := fun _ => rfl
theorem maxI32 (o : ROp) : Statement (.maxI32 o) := fun _ => rfl
theorem minN32 (o : ROp) : Statement (.minN32 o) := fun _ => rfl
theorem maxN32 (o : ROp) : Statement (.maxN32 o) := fun _ => rfl
theorem sataddI32 (o : ROp) : Statement (.sataddI32 o) := fun _ => rfl
theorem satsubI32 (o : ROp) : Statement (.satsubI32 o) := fun _ => rfl
theorem and (o : ROp) : Statement (.and o) := fun _ => rfl
theorem or (o : ROp) : Statement (.or o) := fun _ => rfl
theorem xor (o : ROp) : Statement (.xor o) := fun _ => rfl
theorem andn (o : ROp) : Statement (.andn o) := fun _ => rfl
theorem not (o : ROp) : Statement (.not o) := fun _ => rfl
theorem shl (o : ROp) : Statement (.shl o) := fun _ => rfl
theorem shr (o : ROp) : Statement (.shr o) := fun _ => rfl
theorem sar (o : ROp) : Statement (.sar o) := fun _ => rfl
theorem rol (o : ROp) : Statement (.rol o) := fun _ => rfl
theorem clz (o : ROp) : Statement (.clz o) := fun _ => rfl
theorem ctz (o : ROp) : Statement (.ctz o) := fun _ => rfl
theorem popc (o : ROp) : Statement (.popc o) := fun _ => rfl
theorem brev (o : ROp) : Statement (.brev o) := fun _ => rfl
theorem mul (o : ROp) : Statement (.mul o) := fun _ => rfl
theorem mulhI32 (o : ROp) : Statement (.mulhI32 o) := fun _ => rfl
theorem mulhN32 (o : ROp) : Statement (.mulhN32 o) := fun _ => rfl
theorem mad (o : ROp) : Statement (.mad o) := fun _ => rfl
theorem sel (o : ROp) (k : BitVec 3) : Statement (.sel o k) := by
  have h : k = 0 ∨ k = 1 ∨ k = 2 ∨ k = 3 ∨ k = 4 ∨ k = 5 ∨ k = 6 ∨ k = 7 := by revert k; decide
  rcases h with rfl | rfl | rfl | rfl | rfl | rfl | rfl | rfl <;> exact fun _ => rfl
theorem cmpEq (o : POp) : Statement (.cmpEq o) := fun _ => rfl
theorem cmpNe (o : POp) : Statement (.cmpNe o) := fun _ => rfl
theorem cmpLtI32 (o : POp) : Statement (.cmpLtI32 o) := fun _ => rfl
theorem cmpLeI32 (o : POp) : Statement (.cmpLeI32 o) := fun _ => rfl
theorem cmpLtN32 (o : POp) : Statement (.cmpLtN32 o) := fun _ => rfl
theorem cmpLeN32 (o : POp) : Statement (.cmpLeN32 o) := fun _ => rfl
theorem extI8 (o : ROp) (l : BitVec 2) : Statement (.extI8 o l) := by
  have h : l = 0 ∨ l = 1 ∨ l = 2 ∨ l = 3 := by revert l; decide
  rcases h with rfl | rfl | rfl | rfl <;> exact fun _ => rfl
theorem extI16 (o : ROp) (l : BitVec 2) : Statement (.extI16 o l) := by
  have h : l = 0 ∨ l = 1 ∨ l = 2 ∨ l = 3 := by revert l; decide
  rcases h with rfl | rfl | rfl | rfl <;> exact fun _ => rfl
theorem extN8 (o : ROp) (l : BitVec 2) : Statement (.extN8 o l) := by
  have h : l = 0 ∨ l = 1 ∨ l = 2 ∨ l = 3 := by revert l; decide
  rcases h with rfl | rfl | rfl | rfl <;> exact fun _ => rfl
theorem extN16 (o : ROp) (l : BitVec 2) : Statement (.extN16 o l) := by
  have h : l = 0 ∨ l = 1 ∨ l = 2 ∨ l = 3 := by revert l; decide
  rcases h with rfl | rfl | rfl | rfl <;> exact fun _ => rfl
theorem insN8 (o : ROp) (l : BitVec 2) : Statement (.insN8 o l) := by
  have h : l = 0 ∨ l = 1 ∨ l = 2 ∨ l = 3 := by revert l; decide
  rcases h with rfl | rfl | rfl | rfl <;> exact fun _ => rfl
theorem insN16 (o : ROp) (l : BitVec 2) : Statement (.insN16 o l) := by
  have h : l = 0 ∨ l = 1 ∨ l = 2 ∨ l = 3 := by revert l; decide
  rcases h with rfl | rfl | rfl | rfl <;> exact fun _ => rfl
theorem addi (o : IOp) : Statement (.addi o) := fun _ => rfl
theorem andi (o : IOp) : Statement (.andi o) := fun _ => rfl
theorem ori (o : IOp) : Statement (.ori o) := fun _ => rfl
theorem xori (o : IOp) : Statement (.xori o) := fun _ => rfl
theorem shli (o : IOp) : Statement (.shli o) := fun _ => rfl
theorem shri (o : IOp) : Statement (.shri o) := fun _ => rfl
theorem sari (o : IOp) : Statement (.sari o) := fun _ => rfl
theorem li (o : IOp) : Statement (.li o) := fun _ => rfl
theorem addc (o : ROp) : Statement (.addc o) := fun _ => rfl
theorem subc (o : ROp) : Statement (.subc o) := fun _ => rfl
theorem mulc (o : ROp) : Statement (.mulc o) := fun _ => rfl
theorem shlc (o : ROp) : Statement (.shlc o) := fun _ => rfl
theorem shrc (o : ROp) : Statement (.shrc o) := fun _ => rfl
theorem cmpc (o : ROp) : Statement (.cmpc o) := fun _ => rfl
theorem fadd (o : ROp) (t : BitVec 2) : Statement (.fadd o t) := by
  have h : t = 0 ∨ t = 1 ∨ t = 2 ∨ t = 3 := by revert t; decide
  rcases h with rfl | rfl | rfl | rfl <;> exact fun _ => rfl
theorem fsub (o : ROp) (t : BitVec 2) : Statement (.fsub o t) := by
  have h : t = 0 ∨ t = 1 ∨ t = 2 ∨ t = 3 := by revert t; decide
  rcases h with rfl | rfl | rfl | rfl <;> exact fun _ => rfl
theorem fmul (o : ROp) (t : BitVec 2) : Statement (.fmul o t) := by
  have h : t = 0 ∨ t = 1 ∨ t = 2 ∨ t = 3 := by revert t; decide
  rcases h with rfl | rfl | rfl | rfl <;> exact fun _ => rfl
theorem fmin (o : ROp) (t : BitVec 2) : Statement (.fmin o t) := by
  have h : t = 0 ∨ t = 1 ∨ t = 2 ∨ t = 3 := by revert t; decide
  rcases h with rfl | rfl | rfl | rfl <;> exact fun _ => rfl
theorem fmax (o : ROp) (t : BitVec 2) : Statement (.fmax o t) := by
  have h : t = 0 ∨ t = 1 ∨ t = 2 ∨ t = 3 := by revert t; decide
  rcases h with rfl | rfl | rfl | rfl <;> exact fun _ => rfl
theorem fabs (o : ROp) (t : BitVec 2) : Statement (.fabs o t) := by
  have h : t = 0 ∨ t = 1 ∨ t = 2 ∨ t = 3 := by revert t; decide
  rcases h with rfl | rfl | rfl | rfl <;> exact fun _ => rfl
theorem fneg (o : ROp) (t : BitVec 2) : Statement (.fneg o t) := by
  have h : t = 0 ∨ t = 1 ∨ t = 2 ∨ t = 3 := by revert t; decide
  rcases h with rfl | rfl | rfl | rfl <;> exact fun _ => rfl
theorem ffma (o : ROp) (t : BitVec 2) : Statement (.ffma o t) := by
  have h : t = 0 ∨ t = 1 ∨ t = 2 ∨ t = 3 := by revert t; decide
  rcases h with rfl | rfl | rfl | rfl <;> exact fun _ => rfl
theorem ffms (o : ROp) (t : BitVec 2) : Statement (.ffms o t) := by
  have h : t = 0 ∨ t = 1 ∨ t = 2 ∨ t = 3 := by revert t; decide
  rcases h with rfl | rfl | rfl | rfl <;> exact fun _ => rfl
theorem fnma (o : ROp) (t : BitVec 2) : Statement (.fnma o t) := by
  have h : t = 0 ∨ t = 1 ∨ t = 2 ∨ t = 3 := by revert t; decide
  rcases h with rfl | rfl | rfl | rfl <;> exact fun _ => rfl
theorem fcmpEq (o : POp) (t : BitVec 2) : Statement (.fcmpEq o t) := by
  have h : t = 0 ∨ t = 1 ∨ t = 2 ∨ t = 3 := by revert t; decide
  rcases h with rfl | rfl | rfl | rfl <;> exact fun _ => rfl
theorem fcmpLt (o : POp) (t : BitVec 2) : Statement (.fcmpLt o t) := by
  have h : t = 0 ∨ t = 1 ∨ t = 2 ∨ t = 3 := by revert t; decide
  rcases h with rfl | rfl | rfl | rfl <;> exact fun _ => rfl
theorem fcmpLe (o : POp) (t : BitVec 2) : Statement (.fcmpLe o t) := by
  have h : t = 0 ∨ t = 1 ∨ t = 2 ∨ t = 3 := by revert t; decide
  rcases h with rfl | rfl | rfl | rfl <;> exact fun _ => rfl
theorem fcmpUn (o : POp) (t : BitVec 2) : Statement (.fcmpUn o t) := by
  have h : t = 0 ∨ t = 1 ∨ t = 2 ∨ t = 3 := by revert t; decide
  rcases h with rfl | rfl | rfl | rfl <;> exact fun _ => rfl
theorem fclass (o : ROp) (t : BitVec 2) : Statement (.fclass o t) := by
  have h : t = 0 ∨ t = 1 ∨ t = 2 ∨ t = 3 := by revert t; decide
  rcases h with rfl | rfl | rfl | rfl <;> exact fun _ => rfl
theorem frnd (o : ROp) (t : BitVec 2) : Statement (.frnd o t) := by
  have h : t = 0 ∨ t = 1 ∨ t = 2 ∨ t = 3 := by revert t; decide
  rcases h with rfl | rfl | rfl | rfl <;> exact fun _ => rfl
theorem f2iI32 (o : ROp) (t : BitVec 2) : Statement (.f2iI32 o t) := by
  have h : t = 0 ∨ t = 1 ∨ t = 2 ∨ t = 3 := by revert t; decide
  rcases h with rfl | rfl | rfl | rfl <;> exact fun _ => rfl
theorem f2iN32 (o : ROp) (t : BitVec 2) : Statement (.f2iN32 o t) := by
  have h : t = 0 ∨ t = 1 ∨ t = 2 ∨ t = 3 := by revert t; decide
  rcases h with rfl | rfl | rfl | rfl <;> exact fun _ => rfl
theorem i2fI32 (o : ROp) (t : BitVec 2) : Statement (.i2fI32 o t) := by
  have h : t = 0 ∨ t = 1 ∨ t = 2 ∨ t = 3 := by revert t; decide
  rcases h with rfl | rfl | rfl | rfl <;> exact fun _ => rfl
theorem i2fN32 (o : ROp) (t : BitVec 2) : Statement (.i2fN32 o t) := by
  have h : t = 0 ∨ t = 1 ∨ t = 2 ∨ t = 3 := by revert t; decide
  rcases h with rfl | rfl | rfl | rfl <;> exact fun _ => rfl
theorem fcvt (o : ROp) (t : BitVec 2) : Statement (.fcvt o t) := by
  have h : t = 0 ∨ t = 1 ∨ t = 2 ∨ t = 3 := by revert t; decide
  rcases h with rfl | rfl | rfl | rfl <;> exact fun _ => rfl
theorem vsum (o : ROp) (t : BitVec 1) : Statement (.vsum o t) := by
  have h : t = 0 ∨ t = 1 := by revert t; decide
  rcases h with rfl | rfl <;> exact fun _ => rfl
theorem vdot (o : ROp) (t : BitVec 1) : Statement (.vdot o t) := by
  have h : t = 0 ∨ t = 1 := by revert t; decide
  rcases h with rfl | rfl <;> exact fun _ => rfl
theorem vmax (o : ROp) (t : BitVec 1) : Statement (.vmax o t) := by
  have h : t = 0 ∨ t = 1 := by revert t; decide
  rcases h with rfl | rfl <;> exact fun _ => rfl
theorem vmin (o : ROp) (t : BitVec 1) : Statement (.vmin o t) := by
  have h : t = 0 ∨ t = 1 := by revert t; decide
  rcases h with rfl | rfl <;> exact fun _ => rfl
theorem vargmax (o : ROp) (t : BitVec 1) : Statement (.vargmax o t) := by
  have h : t = 0 ∨ t = 1 := by revert t; decide
  rcases h with rfl | rfl <;> exact fun _ => rfl
theorem vargmin (o : ROp) (t : BitVec 1) : Statement (.vargmin o t) := by
  have h : t = 0 ∨ t = 1 := by revert t; decide
  rcases h with rfl | rfl <;> exact fun _ => rfl
theorem vscan (o : ROp) (t : BitVec 1) : Statement (.vscan o t) := by
  have h : t = 0 ∨ t = 1 := by revert t; decide
  rcases h with rfl | rfl <;> exact fun _ => rfl
theorem vpack (o : ROp) (t : BitVec 1) : Statement (.vpack o t) := by
  have h : t = 0 ∨ t = 1 := by revert t; decide
  rcases h with rfl | rfl <;> exact fun _ => rfl
theorem vunpack (o : ROp) (t : BitVec 1) : Statement (.vunpack o t) := by
  have h : t = 0 ∨ t = 1 := by revert t; decide
  rcases h with rfl | rfl <;> exact fun _ => rfl
theorem vcount (o : ROp) (t : BitVec 1) : Statement (.vcount o t) := by
  have h : t = 0 ∨ t = 1 := by revert t; decide
  rcases h with rfl | rfl <;> exact fun _ => rfl
theorem pset (o : POp) : Statement (.pset o) := fun _ => rfl
theorem pclr (o : POp) : Statement (.pclr o) := fun _ => rfl
theorem pnot (o : POp) : Statement (.pnot o) := fun _ => rfl
theorem pand (o : POp) : Statement (.pand o) := fun _ => rfl
theorem por (o : POp) : Statement (.por o) := fun _ => rfl
theorem pxor (o : POp) : Statement (.pxor o) := fun _ => rfl
theorem pmov (o : POp) : Statement (.pmov o) := fun _ => rfl
theorem pbit (o : POp) : Statement (.pbit o) := fun _ => rfl
theorem pchanNe (o : POp) (x : BitVec 2) : Statement (.pchanNe o x) := by
  have h : x = 0 ∨ x = 1 ∨ x = 2 ∨ x = 3 := by revert x; decide
  rcases h with rfl | rfl | rfl | rfl <;> exact fun _ => rfl
theorem pchanTag (o : POp) (x : BitVec 2) : Statement (.pchanTag o x) := by
  have h : x = 0 ∨ x = 1 ∨ x = 2 ∨ x = 3 := by revert x; decide
  rcases h with rfl | rfl | rfl | rfl <;> exact fun _ => rfl
theorem pchanRoom (o : POp) (x : BitVec 2) : Statement (.pchanRoom o x) := by
  have h : x = 0 ∨ x = 1 ∨ x = 2 ∨ x = 3 := by revert x; decide
  rcases h with rfl | rfl | rfl | rfl <;> exact fun _ => rfl
theorem mov (o : ROp) : Statement (.mov o) := fun _ => rfl
theorem send (o : ROp) : Statement (.send o) := fun _ => rfl
theorem drop (o : ROp) : Statement (.drop o) := fun _ => rfl
theorem dup (o : ROp) : Statement (.dup o) := fun _ => rfl
theorem retag (o : ROp) : Statement (.retag o) := fun _ => rfl
theorem steer (o : ROp) : Statement (.steer o) := fun _ => rfl
theorem cmrg (o : ROp) : Statement (.cmrg o) := fun _ => rfl
theorem amrg (o : ROp) : Statement (.amrg o) := fun _ => rfl
theorem sinF (o : ROp) : Statement (.sinF o) := fun _ => rfl
theorem cosF (o : ROp) : Statement (.cosF o) := fun _ => rfl
theorem sinQ (o : ROp) : Statement (.sinQ o) := fun _ => rfl
theorem cosQ (o : ROp) : Statement (.cosQ o) := fun _ => rfl
theorem exp2 (o : ROp) : Statement (.exp2 o) := fun _ => rfl
theorem log2 (o : ROp) : Statement (.log2 o) := fun _ => rfl
theorem rcp (o : ROp) : Statement (.rcp o) := fun _ => rfl
theorem rsqrt (o : ROp) : Statement (.rsqrt o) := fun _ => rfl
theorem sqrt (o : ROp) : Statement (.sqrt o) := fun _ => rfl
theorem fdiv (o : ROp) : Statement (.fdiv o) := fun _ => rfl
theorem tanh (o : ROp) : Statement (.tanh o) := fun _ => rfl
theorem erf (o : ROp) : Statement (.erf o) := fun _ => rfl
theorem idivI32 (o : ROp) : Statement (.idivI32 o) := fun _ => rfl
theorem idivN32 (o : ROp) : Statement (.idivN32 o) := fun _ => rfl
theorem iremI32 (o : ROp) : Statement (.iremI32 o) := fun _ => rfl
theorem iremN32 (o : ROp) : Statement (.iremN32 o) := fun _ => rfl
theorem sinQP7 (o : ROp) : Statement (.sinQP7 o) := fun _ => rfl
theorem cosQP7 (o : ROp) : Statement (.cosQP7 o) := fun _ => rfl
theorem ld (o : MOp) (k : BitVec 2) : Statement (.ld o k) := by
  have h : k = 0 ∨ k = 1 ∨ k = 2 ∨ k = 3 := by revert k; decide
  rcases h with rfl | rfl | rfl | rfl <;> exact fun _ => rfl
theorem st (o : MOp) (k : BitVec 2) : Statement (.st o k) := by
  have h : k = 0 ∨ k = 1 ∨ k = 2 ∨ k = 3 := by revert k; decide
  rcases h with rfl | rfl | rfl | rfl <;> exact fun _ => rfl
theorem ldBy (o : MOp) (k : BitVec 2) : Statement (.ldBy o k) := by
  have h : k = 0 ∨ k = 1 ∨ k = 2 ∨ k = 3 := by revert k; decide
  rcases h with rfl | rfl | rfl | rfl <;> exact fun _ => rfl
theorem ldblk (o : MOp) : Statement (.ldblk o) := fun _ => rfl
theorem stblk (o : MOp) : Statement (.stblk o) := fun _ => rfl
theorem pref (o : MOp) : Statement (.pref o) := fun _ => rfl
theorem amoAdd (o : MOp) : Statement (.amoAdd o) := fun _ => rfl
theorem amoSub (o : MOp) : Statement (.amoSub o) := fun _ => rfl
theorem amoMin (o : MOp) : Statement (.amoMin o) := fun _ => rfl
theorem amoMax (o : MOp) : Statement (.amoMax o) := fun _ => rfl
theorem amoAnd (o : MOp) : Statement (.amoAnd o) := fun _ => rfl
theorem amoOr (o : MOp) : Statement (.amoOr o) := fun _ => rfl
theorem amoXor (o : MOp) : Statement (.amoXor o) := fun _ => rfl
theorem amoSwap (o : MOp) : Statement (.amoSwap o) := fun _ => rfl
theorem amoCas (o : MOp) : Statement (.amoCas o) := fun _ => rfl
theorem amoInc (o : MOp) : Statement (.amoInc o) := fun _ => rfl
theorem amoFmin (o : MOp) : Statement (.amoFmin o) := fun _ => rfl
theorem amoFmax (o : MOp) : Statement (.amoFmax o) := fun _ => rfl
theorem amoFadd (o : MOp) : Statement (.amoFadd o) := fun _ => rfl
theorem amoVmin64 (o : MOp) : Statement (.amoVmin64 o) := fun _ => rfl
theorem orcDom (o : MOp) : Statement (.orcDom o) := fun _ => rfl
theorem orcBind (o : MOp) : Statement (.orcBind o) := fun _ => rfl
theorem orcFree (o : MOp) : Statement (.orcFree o) := fun _ => rfl
theorem orcFold (o : MOp) : Statement (.orcFold o) := fun _ => rfl
theorem orcMark (o : MOp) : Statement (.orcMark o) := fun _ => rfl
theorem orcOpSet (o : MOp) : Statement (.orcOpSet o) := fun _ => rfl
theorem orcOpAddF32 (o : MOp) : Statement (.orcOpAddF32 o) := fun _ => rfl
theorem orcOpAddF64 (o : MOp) : Statement (.orcOpAddF64 o) := fun _ => rfl
theorem orcOpMulF32 (o : MOp) : Statement (.orcOpMulF32 o) := fun _ => rfl
theorem orcOpFmaF32 (o : MOp) : Statement (.orcOpFmaF32 o) := fun _ => rfl
theorem orcOpMaxF32 (o : MOp) : Statement (.orcOpMaxF32 o) := fun _ => rfl
theorem orcOpMinF32 (o : MOp) : Statement (.orcOpMinF32 o) := fun _ => rfl
theorem orcOpAddInt (o : MOp) : Statement (.orcOpAddInt o) := fun _ => rfl
theorem orcLdt (o : MOp) : Statement (.orcLdt o) := fun _ => rfl
theorem orcLds (o : MOp) : Statement (.orcLds o) := fun _ => rfl
theorem colReq (o : ROp) : Statement (.colReq o) := fun _ => rfl
theorem colRel (o : ROp) : Statement (.colRel o) := fun _ => rfl
theorem barArrive (o : ROp) : Statement (.barArrive o) := fun _ => rfl
theorem drain (o : ROp) : Statement (.drain o) := fun _ => rfl
theorem quiet (o : ROp) : Statement (.quiet o) := fun _ => rfl
theorem sig (o : ROp) : Statement (.sig o) := fun _ => rfl
theorem chainPut (o : ROp) : Statement (.chainPut o) := fun _ => rfl
theorem ctArm (o : EOp) : Statement (.ctArm o) := fun _ => rfl
theorem ctFire (o : EOp) : Statement (.ctFire o) := fun _ => rfl
theorem ctStop (o : EOp) : Statement (.ctStop o) := fun _ => rfl
theorem ctStat (o : EOp) : Statement (.ctStat o) := fun _ => rfl
theorem caSet (o : EOp) : Statement (.caSet o) := fun _ => rfl
theorem caGet (o : EOp) : Statement (.caGet o) := fun _ => rfl
theorem mxLd (o : EOp) : Statement (.mxLd o) := fun _ => rfl
theorem mxRule (o : EOp) : Statement (.mxRule o) := fun _ => rfl
theorem mxZero (o : EOp) : Statement (.mxZero o) := fun _ => rfl
theorem mxRead (o : EOp) : Statement (.mxRead o) := fun _ => rfl
theorem mxDrain (o : EOp) : Statement (.mxDrain o) := fun _ => rfl
theorem mseqGemm (o : EOp) : Statement (.mseqGemm o) := fun _ => rfl
theorem mseqConv (o : EOp) : Statement (.mseqConv o) := fun _ => rfl
theorem mseqStop (o : EOp) : Statement (.mseqStop o) := fun _ => rfl
theorem smpBind (o : EOp) : Statement (.smpBind o) := fun _ => rfl
theorem wtLd (o : EOp) : Statement (.wtLd o) := fun _ => rfl
theorem wtDrop (o : EOp) : Statement (.wtDrop o) := fun _ => rfl
theorem smpTex (o : EOp) : Statement (.smpTex o) := fun _ => rfl
theorem smpDec (o : EOp) : Statement (.smpDec o) := fun _ => rfl
theorem rsDraw (o : EOp) : Statement (.rsDraw o) := fun _ => rfl
theorem rsFlush (o : EOp) : Statement (.rsFlush o) := fun _ => rfl
theorem visAttr (o : EOp) : Statement (.visAttr o) := fun _ => rfl
theorem blPut (o : EOp) : Statement (.blPut o) := fun _ => rfl
theorem trFmt (o : EOp) : Statement (.trFmt o) := fun _ => rfl
theorem trRay (o : EOp) : Statement (.trRay o) := fun _ => rfl
theorem trWalk (o : EOp) : Statement (.trWalk o) := fun _ => rfl
theorem trMarch (o : EOp) : Statement (.trMarch o) := fun _ => rfl
theorem trRes (o : EOp) : Statement (.trRes o) := fun _ => rfl
theorem sysRd (o : SOp) : Statement (.sysRd o) := fun _ => rfl
theorem sysWr (o : SOp) : Statement (.sysWr o) := fun _ => rfl
theorem nop (o : EOp) : Statement (.nop o) := fun _ => rfl
theorem halt (o : EOp) : Statement (.halt o) := fun _ => rfl
theorem trap (o : EOp) : Statement (.trap o) := fun _ => rfl
theorem brk (o : EOp) : Statement (.brk o) := fun _ => rfl
theorem leaseReq (o : EOp) : Statement (.leaseReq o) := fun _ => rfl
theorem leaseRel (o : EOp) : Statement (.leaseRel o) := fun _ => rfl
theorem step (o : EOp) : Statement (.step o) := fun _ => rfl
theorem cfgWr (o : EOp) : Statement (.cfgWr o) := fun _ => rfl
theorem reset : Statement .reset := fun h => nomatch h
theorem selfTestComplete : Statement .selfTestComplete := fun h => nomatch h
theorem devStartWrite : Statement .devStartWrite := fun h => nomatch h
theorem lqTailWrite : Statement .lqTailWrite := fun h => nomatch h
theorem lqBaseSizeWrite : Statement .lqBaseSizeWrite := fun h => nomatch h
theorem chainRecordTake : Statement .chainRecordTake := fun h => nomatch h
theorem resumeRecord : Statement .resumeRecord := fun h => nomatch h
theorem stagePlacement : Statement .stagePlacement := fun h => nomatch h
theorem priorityAging : Statement .priorityAging := fun h => nomatch h
theorem freezeWave : Statement .freezeWave := fun h => nomatch h
theorem imageFetch : Statement .imageFetch := fun h => nomatch h
theorem ridgeStart : Statement .ridgeStart := fun h => nomatch h
theorem spurCompletion : Statement .spurCompletion := fun h => nomatch h
theorem deterministicStageSwitch : Statement .deterministicStageSwitch := fun h => nomatch h
theorem spurReload : Statement .spurReload := fun h => nomatch h
theorem firingStep : Statement .firingStep := fun h => nomatch h
theorem linkWordMove : Statement .linkWordMove := fun h => nomatch h
theorem slotCountReturn : Statement .slotCountReturn := fun h => nomatch h
theorem carryTransfer : Statement .carryTransfer := fun h => nomatch h
theorem delayedResultArrival : Statement .delayedResultArrival := fun h => nomatch h
theorem writeLanding : Statement .writeLanding := fun h => nomatch h
theorem readBinding : Statement .readBinding := fun h => nomatch h
theorem doneTokenEmit : Statement .doneTokenEmit := fun h => nomatch h
theorem copyEvict : Statement .copyEvict := fun h => nomatch h
theorem copyWriteBack : Statement .copyWriteBack := fun h => nomatch h
theorem copyFill : Statement .copyFill := fun h => nomatch h
theorem atomicApply : Statement .atomicApply := fun h => nomatch h
theorem translationWalk : Statement .translationWalk := fun h => nomatch h
theorem pinRelease : Statement .pinRelease := fun h => nomatch h
theorem pinHoldTimeout : Statement .pinHoldTimeout := fun h => nomatch h
theorem transInvalHiWrite : Statement .transInvalHiWrite := fun h => nomatch h
theorem transSeqLoRead : Statement .transSeqLoRead := fun h => nomatch h
theorem chainKillHiWrite : Statement .chainKillHiWrite := fun h => nomatch h
theorem stepLoRead : Statement .stepLoRead := fun h => nomatch h
theorem timeLoRead : Statement .timeLoRead := fun h => nomatch h
theorem eccLastLoRead : Statement .eccLastLoRead := fun h => nomatch h
theorem hmaskWrite : Statement .hmaskWrite := fun h => nomatch h
theorem sigPendWrite : Statement .sigPendWrite := fun h => nomatch h
theorem sigEnWrite : Statement .sigEnWrite := fun h => nomatch h
theorem vregWrite : Statement .vregWrite := fun h => nomatch h
theorem meterWrite : Statement .meterWrite := fun h => nomatch h
theorem clusOffWrite : Statement .clusOffWrite := fun h => nomatch h
theorem registerWrite : Statement .registerWrite := fun h => nomatch h
theorem regulatorStep : Statement .regulatorStep := fun h => nomatch h
theorem thermalObserverPeriod : Statement .thermalObserverPeriod := fun h => nomatch h
theorem observerFallback : Statement .observerFallback := fun h => nomatch h
theorem clusterOutOfPlacement : Statement .clusterOutOfPlacement := fun h => nomatch h
theorem leaseExpiry : Statement .leaseExpiry := fun h => nomatch h
theorem hostMemRead : Statement .hostMemRead := fun h => nomatch h
theorem hostMemWrite : Statement .hostMemWrite := fun h => nomatch h
theorem hostLineWrite : Statement .hostLineWrite := fun h => nomatch h
theorem kucorPortTraining : Statement .kucorPortTraining := fun h => nomatch h
theorem kucorFlitRetry : Statement .kucorFlitRetry := fun h => nomatch h
theorem kucorPortDown : Statement .kucorPortDown := fun h => nomatch h
theorem peerAccessTimeout : Statement .peerAccessTimeout := fun h => nomatch h
theorem ethMessageSend : Statement .ethMessageSend := fun h => nomatch h
theorem ethSendReceive : Statement .ethSendReceive := fun h => nomatch h
theorem ethRdmaWriteReceive : Statement .ethRdmaWriteReceive := fun h => nomatch h
theorem ethRdmaReadReceive : Statement .ethRdmaReadReceive := fun h => nomatch h
theorem qpValidClear : Statement .qpValidClear := fun h => nomatch h
theorem qpValidSet : Statement .qpValidSet := fun h => nomatch h
theorem qpError : Statement .qpError := fun h => nomatch h
theorem portAccessComplete : Statement .portAccessComplete := fun h => nomatch h
theorem converterGroup : Statement .converterGroup := fun h => nomatch h
theorem eventChannelPlace : Statement .eventChannelPlace := fun h => nomatch h
theorem templateTriggerAccept : Statement .templateTriggerAccept := fun h => nomatch h
theorem copyFiringStart : Statement .copyFiringStart := fun h => nomatch h
theorem copyFiringCompletion : Statement .copyFiringCompletion := fun h => nomatch h
theorem shadowPageReturn : Statement .shadowPageReturn := fun h => nomatch h
theorem exchangeChunkArrival : Statement .exchangeChunkArrival := fun h => nomatch h
theorem cairnLanding : Statement .cairnLanding := fun h => nomatch h
theorem peerDeliveryArrival : Statement .peerDeliveryArrival := fun h => nomatch h
theorem matrixCommandTake : Statement .matrixCommandTake := fun h => nomatch h
theorem tileFillComplete : Statement .tileFillComplete := fun h => nomatch h
theorem matrixOperation : Statement .matrixOperation := fun h => nomatch h
theorem matrixDrainDone : Statement .matrixDrainDone := fun h => nomatch h
theorem mseqKblockBoundary : Statement .mseqKblockBoundary := fun h => nomatch h
theorem islandRequestAccept : Statement .islandRequestAccept := fun h => nomatch h
theorem visAttrResult : Statement .visAttrResult := fun h => nomatch h
theorem binFlush : Statement .binFlush := fun h => nomatch h
theorem fragmentEmit : Statement .fragmentEmit := fun h => nomatch h
theorem ticketRetire : Statement .ticketRetire := fun h => nomatch h
theorem drawFlushComplete : Statement .drawFlushComplete := fun h => nomatch h
theorem traversalNodeVisit : Statement .traversalNodeVisit := fun h => nomatch h
theorem callbackReply : Statement .callbackReply := fun h => nomatch h
theorem marchCellEmit : Statement .marchCellEmit := fun h => nomatch h
theorem rayEnd : Statement .rayEnd := fun h => nomatch h
theorem sampleComplete : Statement .sampleComplete := fun h => nomatch h
theorem weightLoadBind : Statement .weightLoadBind := fun h => nomatch h
theorem weightEntryRemove : Statement .weightEntryRemove := fun h => nomatch h
theorem weightEntryPoison : Statement .weightEntryPoison := fun h => nomatch h
theorem nodePoisonExpiry : Statement .nodePoisonExpiry := fun h => nomatch h
theorem orcOpArrival : Statement .orcOpArrival := fun h => nomatch h
theorem orcMarkApply : Statement .orcMarkApply := fun h => nomatch h
theorem watermarkViewRise : Statement .watermarkViewRise := fun h => nomatch h
theorem settledLoadAnswer : Statement .settledLoadAnswer := fun h => nomatch h
theorem orcFreeEnd : Statement .orcFreeEnd := fun h => nomatch h
theorem barrierArrivalMessage : Statement .barrierArrivalMessage := fun h => nomatch h
theorem barrierRelease : Statement .barrierRelease := fun h => nomatch h
theorem colGrant : Statement .colGrant := fun h => nomatch h
theorem drainTokenPass : Statement .drainTokenPass := fun h => nomatch h
theorem drainEnd : Statement .drainEnd := fun h => nomatch h
theorem quiescencePeriod : Statement .quiescencePeriod := fun h => nomatch h
theorem configScrubVisit : Statement .configScrubVisit := fun h => nomatch h
theorem parityError : Statement .parityError := fun h => nomatch h
theorem stepCountdownExpiry : Statement .stepCountdownExpiry := fun h => nomatch h
theorem orcRequestArrival : Statement .orcRequestArrival := fun h => nomatch h
theorem meterRateRise : Statement .meterRateRise := fun h => nomatch h
theorem debuggerFreezeLift : Statement .debuggerFreezeLift := fun h => nomatch h
theorem ethPortStateChange : Statement .ethPortStateChange := fun h => nomatch h

end Sys2Proof.Laws.View
end

