-- ==== Sys2Proof/WellFormed.lean ====
section
/-!
DEFINITION. The well-formed instructions: rules whose words raise none of the faults of R371 items 1, 4 and 5 on the
element that has their form, at count 1. `x` is the word of the next slot.
-/
namespace Sys2Proof

/-- The instruction has a slot word. -/
def Instr.hasWord (i : Instr) : Bool := i.isRule
/-- The guard is one that can hold: `g15` marks a literal or an extension (R33). -/
def Instr.guarded (i : Instr) : Bool := i.view.guardNo != 15
/-- A wide rule's next slot names `g15` (R33, R188). -/
def Instr.paired (i : Instr) (x : Word) : Bool := !i.view.wide || field x 28 4 = 0xF
/-- No sub-field is reserved (R371 item 4). -/
def Instr.fieldsOk (i : Instr) (x : Word) : Bool := i.view.subOk x true
/-- Every code is one its field can take (R371 item 5). -/
def Instr.codesFit (i : Instr) (x : Word) : Bool := i.view.codesOk x

/-- A well-formed rule with its extension word. -/
def Instr.wellFormed (i : Instr) (x : Word) : Bool :=
  i.hasWord && i.guarded && i.paired x && i.fieldsOk x && i.codesFit x

end Sys2Proof
end

