-- ==== Sys2Proof/Tests/Slice0.lean ====
section
/-!
SUPPORT. Small tests: ill-formed rules, words written out from the spec's encodings, single steps, and for each statement
with hypotheses a state and operands that meet them.
-/
namespace Sys2Proof.Tests

open Machine Claims

set_option maxRecDepth 20000

/-! ## Ill-formed rules, one for each check of `Instr.wellFormed` -/

/-- A happening has no slot word. -/
theorem test_noWord : Instr.reset.hasWord = false := rfl
/-- `g15` guards no rule (R33). -/
theorem test_unguarded : (Instr.add ⟨15, false, false, 1, 2, 3⟩).guarded = false := by decide
/-- A wide rule needs an extension that names `g15` (R188). -/
theorem test_unpaired : (Instr.addi ⟨0, false, true, 1, 2, 0⟩).paired 0x10000000 = false := by decide
/-- Lane 2 of a 16-bit `ext` is reserved (R217). -/
theorem test_reservedLane : (Instr.extI16 ⟨0, false, false, 1, 2, 3⟩ 2).fieldsOk 0 = false := by decide
/-- `mad` writes a register (R212, R215). -/
theorem test_madOutput : (Instr.mad ⟨0, false, false, 16, 2, 3⟩).codesFit 0 = false := by decide
/-- A rule of three registers is well-formed. -/
theorem test_wellFormed : (Instr.add ⟨0, false, false, 1, 2, 3⟩).wellFormed 0 = true := by decide

/-! ## Words written out field by field from the spec's encodings (R185 to R203) -/

/-- `add d1, d1, i0.pop with E`. -/
theorem test_decode_add : decodeWord 0x08008680 = .ok (.add ⟨0, true, false, 1, 1, 20⟩) := by rfl
/-- `add W=1, G1, d2, d2, code 28`. -/
theorem test_decode_addWide : decodeWord 0x14010B80 = .ok (.add ⟨1, false, true, 2, 2, 28⟩) := by rfl
/-- `li d6 from slot 8`. -/
theorem test_decode_li : decodeWord 0x10F32000 = .ok (.li ⟨1, false, false, 6, 8, 0⟩) := by rfl
/-- `cmp.lt.i32.or p3, d1, i2.pop`. -/
theorem test_decode_cmpLt : decodeWord 0x48468362 = .ok (.cmpLtI32 ⟨4, true, false, 3, 2, 1, 22⟩) := by rfl
/-- `addc d2, d0, d1`. -/
theorem test_decode_addc : decodeWord 0x19010020 = .ok (.addc ⟨1, true, false, 2, 0, 1⟩) := by rfl
/-- `fcvt.f32.bf16x2 d3, d4 with mode 1`. -/
theorem test_decode_fcvt : decodeWord 0x11419226 = .ok (.fcvt ⟨1, false, false, 3, 4, 17⟩ 0) := by rfl
/-- `send o2, i1.pop`. -/
theorem test_decode_send : decodeWord 0x02095721 = .ok (.send ⟨0, false, false, 18, 21, 25⟩) := by rfl
/-- `sin.q.p7 o0.t1, d5`. -/
theorem test_decode_sin : decodeWord 0x221A1732 = .ok (.sinQP7 ⟨2, false, false, 20, 5, 25⟩) := by rfl
/-- `ld.b32 d5, [d4:d5] with done o2`. -/
theorem test_decode_ld : decodeWord 0x3682910A = .ok (.ld ⟨3, false, true, 5, 4, 0, 2, 2⟩ 2) := by rfl
/-- `st.b32 d3, [d4:d5] with done o1`. -/
theorem test_decode_st : decodeWord 0x12919109 = .ok (.st ⟨1, false, false, 3, 4, 0, 2, 1⟩ 2) := by rfl
/-- `amo.add d6, [d8:d9] at scope 3`. -/
theorem test_decode_amo : decodeWord 0x2AC3200C = .ok (.amoAdd ⟨2, true, false, 6, 8, 0, 3, 0⟩) := by rfl
/-- `orc.op.add.f32 d4, [d8:d9]`. -/
theorem test_decode_orc : decodeWord 0x33122092 = .ok (.orcOpAddF32 ⟨3, false, false, 4, 8, 0, 4, 2⟩) := by rfl
/-- `bar.arrive d3`. -/
theorem test_decode_barArrive : decodeWord 0x0B3C8F22 = .ok (.barArrive ⟨0, true, false, 25, 3, 25⟩) := by rfl
/-- `ct.arm ct5, d2`. -/
theorem test_decode_ctArm : decodeWord 0x13816450 = .ok (.ctArm ⟨1, false, false, 2, 25, 5⟩) := by rfl
/-- `mx.read d8, acc0, d9`. -/
theorem test_decode_mxRead : decodeWord 0x0394A003 = .ok (.mxRead ⟨0, false, false, 9, 8, 0⟩) := by rfl
/-- `mx.drain acc2`. -/
theorem test_decode_mxDrain : decodeWord 0x37934424 = .ok (.mxDrain ⟨3, false, true, 6, 17, 2⟩) := by rfl
/-- `smp.tex d4, sm2, d0`. -/
theorem test_decode_smpTex : decodeWord 0x13A01023 = .ok (.smpTex ⟨1, false, false, 0, 4, 2⟩) := by rfl
/-- `tr.ray d2, d4`. -/
theorem test_decode_trRay : decodeWord 0x03C20811 = .ok (.trRay ⟨0, false, false, 4, 2, 1⟩) := by rfl
/-- A word of an unassigned cell is no instruction (R204). -/
theorem test_reservedCell : (decodeWord 0x00700000).isOk = false := by rfl

/-! ## A witness for every rule form -/

/-- Whether a rule fits. -/
def fitsCheck (i : Instr) (s : State) : Bool :=
  (!i.view.wide || (decide (s.cur.slot ≠ 31) && decide (field s.curExt 28 4 = 0xF))) &&
    (elemHas i.view.cellNo (elemIdx s.cur.elem) && (!badCount (s.me.guard i.view.guardNo) &&
      (i.view.subOk s.curExt (decide (s.countOf i.view = 1)) && i.view.codesOk s.curExt)))

theorem fits_of (i : Instr) (s : State) (h : fitsCheck i s = true) : Fits i s := by
  intro _
  simp only [fitsCheck, Bool.and_eq_true, Bool.or_eq_true, Bool.not_eq_true', decide_eq_true_eq] at h
  refine ⟨fun hw => ?_, h.2.1, h.2.2.1, h.2.2.2.1, h.2.2.2.2⟩
  rcases h.1 with h1 | h1
  · rw [h1] at hw; cases hw
  · exact h1

/-- The element `k` fires the rule in slot 0, with nothing configured. -/
def place (k : Nat) : State := { State.reset with cur := ⟨k, 0⟩ }
/-- The same with the word `x` in slot 1. -/
def placeX (k : Nat) (x : Word) : State :=
  { place k with elems := [(k, { Elem.reset with slots := Elem.reset.slots.setIfInBounds 1 x })] }

/-- Rule forms that fit, each with its element. -/
def fitting1 : List (Instr × Nat) := [
  (.add ⟨0, false, false, 1, 2, 3⟩, 0),
  (.sub ⟨0, false, false, 1, 2, 3⟩, 0),
  (.neg ⟨0, false, false, 1, 2, 3⟩, 0),
  (.abs ⟨0, false, false, 1, 2, 3⟩, 0),
  (.minI32 ⟨0, false, false, 1, 2, 3⟩, 0),
  (.maxI32 ⟨0, false, false, 1, 2, 3⟩, 0),
  (.minN32 ⟨0, false, false, 1, 2, 3⟩, 0),
  (.maxN32 ⟨0, false, false, 1, 2, 3⟩, 0),
  (.sataddI32 ⟨0, false, false, 1, 2, 3⟩, 0),
  (.satsubI32 ⟨0, false, false, 1, 2, 3⟩, 0),
  (.and ⟨0, false, false, 1, 2, 3⟩, 0),
  (.or ⟨0, false, false, 1, 2, 3⟩, 0),
  (.xor ⟨0, false, false, 1, 2, 3⟩, 0),
  (.andn ⟨0, false, false, 1, 2, 3⟩, 0),
  (.not ⟨0, false, false, 1, 2, 3⟩, 0),
  (.shl ⟨0, false, false, 1, 2, 3⟩, 0),
  (.shr ⟨0, false, false, 1, 2, 3⟩, 0),
  (.sar ⟨0, false, false, 1, 2, 3⟩, 0),
  (.rol ⟨0, false, false, 1, 2, 3⟩, 0),
  (.clz ⟨0, false, false, 1, 2, 3⟩, 0),
  (.ctz ⟨0, false, false, 1, 2, 3⟩, 0),
  (.popc ⟨0, false, false, 1, 2, 3⟩, 0),
  (.brev ⟨0, false, false, 1, 2, 3⟩, 0),
  (.mul ⟨0, false, false, 1, 2, 3⟩, 0),
  (.mulhI32 ⟨0, false, false, 1, 2, 3⟩, 0),
  (.mulhN32 ⟨0, false, false, 1, 2, 3⟩, 0),
  (.mad ⟨0, false, false, 1, 2, 3⟩, 0),
  (.sel ⟨0, false, false, 1, 2, 3⟩ 0, 0),
  (.cmpEq ⟨0, false, false, 1, 0, 2, 3⟩, 0),
  (.cmpNe ⟨0, false, false, 1, 0, 2, 3⟩, 0),
  (.cmpLtI32 ⟨0, false, false, 1, 0, 2, 3⟩, 0),
  (.cmpLeI32 ⟨0, false, false, 1, 0, 2, 3⟩, 0),
  (.cmpLtN32 ⟨0, false, false, 1, 0, 2, 3⟩, 0),
  (.cmpLeN32 ⟨0, false, false, 1, 0, 2, 3⟩, 0),
  (.extI8 ⟨0, false, false, 1, 2, 3⟩ 0, 0),
  (.extI16 ⟨0, false, false, 1, 2, 3⟩ 0, 0),
  (.extN8 ⟨0, false, false, 1, 2, 3⟩ 0, 0),
  (.extN16 ⟨0, false, false, 1, 2, 3⟩ 0, 0),
  (.insN8 ⟨0, false, false, 1, 2, 3⟩ 0, 0),
  (.insN16 ⟨0, false, false, 1, 2, 3⟩ 0, 0),
  (.addi ⟨0, false, false, 1, 2, 5⟩, 0)]
theorem test_fit1 : ∀ x ∈ fitting1, fitsCheck x.1 (place x.2) = true := by decide
/-- Rule forms that fit, each with its element. -/
def fitting2 : List (Instr × Nat) := [
  (.andi ⟨0, false, false, 1, 2, 5⟩, 0),
  (.ori ⟨0, false, false, 1, 2, 5⟩, 0),
  (.xori ⟨0, false, false, 1, 2, 5⟩, 0),
  (.shli ⟨0, false, false, 1, 2, 5⟩, 0),
  (.shri ⟨0, false, false, 1, 2, 5⟩, 0),
  (.sari ⟨0, false, false, 1, 2, 5⟩, 0),
  (.li ⟨0, false, false, 1, 2, 5⟩, 0),
  (.addc ⟨0, false, false, 1, 2, 3⟩, 0),
  (.subc ⟨0, false, false, 1, 2, 3⟩, 0),
  (.mulc ⟨0, false, false, 1, 2, 3⟩, 0),
  (.shlc ⟨0, false, false, 1, 2, 3⟩, 0),
  (.shrc ⟨0, false, false, 1, 2, 3⟩, 0),
  (.cmpc ⟨0, false, false, 1, 2, 3⟩, 0),
  (.fadd ⟨0, false, false, 1, 2, 3⟩ 0, 0),
  (.fsub ⟨0, false, false, 1, 2, 3⟩ 0, 0),
  (.fmul ⟨0, false, false, 1, 2, 3⟩ 0, 0),
  (.fmin ⟨0, false, false, 1, 2, 3⟩ 0, 0),
  (.fmax ⟨0, false, false, 1, 2, 3⟩ 0, 0),
  (.fabs ⟨0, false, false, 1, 2, 3⟩ 0, 0),
  (.fneg ⟨0, false, false, 1, 2, 3⟩ 0, 0),
  (.ffma ⟨0, false, false, 1, 2, 3⟩ 0, 0),
  (.ffms ⟨0, false, false, 1, 2, 3⟩ 0, 0),
  (.fnma ⟨0, false, false, 1, 2, 3⟩ 0, 0),
  (.fcmpEq ⟨0, false, false, 1, 0, 2, 3⟩ 0, 0),
  (.fcmpLt ⟨0, false, false, 1, 0, 2, 3⟩ 0, 0),
  (.fcmpLe ⟨0, false, false, 1, 0, 2, 3⟩ 0, 0),
  (.fcmpUn ⟨0, false, false, 1, 0, 2, 3⟩ 0, 0),
  (.fclass ⟨0, false, false, 1, 2, 3⟩ 0, 0),
  (.frnd ⟨0, false, false, 1, 2, 3⟩ 0, 0),
  (.f2iI32 ⟨0, false, false, 1, 2, 3⟩ 0, 0),
  (.f2iN32 ⟨0, false, false, 1, 2, 3⟩ 0, 0),
  (.i2fI32 ⟨0, false, false, 1, 2, 3⟩ 0, 0),
  (.i2fN32 ⟨0, false, false, 1, 2, 3⟩ 0, 0),
  (.fcvt ⟨0, false, false, 4, 2, 25⟩ 0, 0),
  (.vsum ⟨0, false, false, 1, 2, 3⟩ 0, 0),
  (.vdot ⟨0, false, false, 1, 2, 3⟩ 0, 0),
  (.vmax ⟨0, false, false, 1, 2, 3⟩ 0, 0),
  (.vmin ⟨0, false, false, 1, 2, 3⟩ 0, 0),
  (.vargmax ⟨0, false, false, 4, 2, 3⟩ 0, 0),
  (.vargmin ⟨0, false, false, 4, 2, 3⟩ 0, 0),
  (.vscan ⟨0, false, false, 1, 2, 3⟩ 0, 0)]
theorem test_fit2 : ∀ x ∈ fitting2, fitsCheck x.1 (place x.2) = true := by decide
/-- Rule forms that fit, each with its element. -/
def fitting3 : List (Instr × Nat) := [
  (.vpack ⟨0, false, false, 1, 2, 3⟩ 0, 0),
  (.vunpack ⟨0, false, false, 1, 2, 3⟩ 0, 0),
  (.vcount ⟨0, false, false, 1, 2, 3⟩ 0, 0),
  (.pset ⟨0, false, false, 1, 0, 2, 3⟩, 0),
  (.pclr ⟨0, false, false, 1, 0, 2, 3⟩, 0),
  (.pnot ⟨0, false, false, 1, 0, 2, 3⟩, 0),
  (.pand ⟨0, false, false, 1, 0, 2, 3⟩, 0),
  (.por ⟨0, false, false, 1, 0, 2, 3⟩, 0),
  (.pxor ⟨0, false, false, 1, 0, 2, 3⟩, 0),
  (.pmov ⟨0, false, false, 1, 0, 2, 3⟩, 0),
  (.pbit ⟨0, false, false, 1, 0, 2, 3⟩, 0),
  (.pchanNe ⟨0, false, false, 1, 0, 2, 3⟩ 0, 0),
  (.pchanTag ⟨0, false, false, 1, 0, 2, 3⟩ 0, 0),
  (.pchanRoom ⟨0, false, false, 1, 0, 2, 3⟩ 0, 0),
  (.mov ⟨0, false, false, 1, 2, 3⟩, 0),
  (.send ⟨0, false, false, 16, 2, 3⟩, 0),
  (.drop ⟨0, false, false, 1, 20, 3⟩, 0),
  (.dup ⟨0, false, false, 1, 2, 3⟩, 0),
  (.retag ⟨0, false, false, 16, 2, 3⟩, 0),
  (.steer ⟨0, false, false, 16, 2, 3⟩, 0),
  (.cmrg ⟨0, false, false, 1, 2, 3⟩, 0),
  (.amrg ⟨0, false, false, 1, 2, 3⟩, 0),
  (.sinF ⟨0, false, false, 1, 2, 3⟩, 14),
  (.cosF ⟨0, false, false, 1, 2, 3⟩, 14),
  (.sinQ ⟨0, false, false, 1, 2, 3⟩, 14),
  (.cosQ ⟨0, false, false, 1, 2, 3⟩, 14),
  (.exp2 ⟨0, false, false, 1, 2, 3⟩, 14),
  (.log2 ⟨0, false, false, 1, 2, 3⟩, 14),
  (.rcp ⟨0, false, false, 1, 2, 3⟩, 14),
  (.rsqrt ⟨0, false, false, 1, 2, 3⟩, 14),
  (.sqrt ⟨0, false, false, 1, 2, 3⟩, 14),
  (.fdiv ⟨0, false, false, 1, 2, 3⟩, 14),
  (.tanh ⟨0, false, false, 1, 2, 3⟩, 14),
  (.erf ⟨0, false, false, 1, 2, 3⟩, 14),
  (.idivI32 ⟨0, false, false, 1, 2, 3⟩, 14),
  (.idivN32 ⟨0, false, false, 1, 2, 3⟩, 14),
  (.iremI32 ⟨0, false, false, 1, 2, 3⟩, 14),
  (.iremN32 ⟨0, false, false, 1, 2, 3⟩, 14),
  (.sinQP7 ⟨0, false, false, 1, 2, 3⟩, 14),
  (.cosQP7 ⟨0, false, false, 1, 2, 3⟩, 14),
  (.ld ⟨0, false, false, 4, 2, 0, 0, 0⟩ 0, 12)]
theorem test_fit3 : ∀ x ∈ fitting3, fitsCheck x.1 (place x.2) = true := by decide
/-- Rule forms that fit, each with its element. -/
def fitting4 : List (Instr × Nat) := [
  (.st ⟨0, false, false, 4, 2, 0, 0, 0⟩ 0, 12),
  (.ldBy ⟨0, false, false, 4, 2, 0, 0, 0⟩ 0, 12),
  (.ldblk ⟨0, false, false, 16, 2, 0, 0, 0⟩, 12),
  (.stblk ⟨0, false, false, 20, 2, 0, 0, 0⟩, 12),
  (.pref ⟨0, false, false, 4, 2, 0, 0, 0⟩, 12),
  (.amoAdd ⟨0, false, false, 4, 2, 0, 0, 0⟩, 12),
  (.amoSub ⟨0, false, false, 4, 2, 0, 0, 0⟩, 12),
  (.amoMin ⟨0, false, false, 4, 2, 0, 0, 0⟩, 12),
  (.amoMax ⟨0, false, false, 4, 2, 0, 0, 0⟩, 12),
  (.amoAnd ⟨0, false, false, 4, 2, 0, 0, 0⟩, 12),
  (.amoOr ⟨0, false, false, 4, 2, 0, 0, 0⟩, 12),
  (.amoXor ⟨0, false, false, 4, 2, 0, 0, 0⟩, 12),
  (.amoSwap ⟨0, false, false, 4, 2, 0, 0, 0⟩, 12),
  (.amoCas ⟨0, false, false, 4, 2, 0, 0, 0⟩, 12),
  (.amoInc ⟨0, false, false, 4, 2, 0, 0, 0⟩, 12),
  (.amoFmin ⟨0, false, false, 4, 2, 0, 0, 0⟩, 12),
  (.amoFmax ⟨0, false, false, 4, 2, 0, 0, 0⟩, 12),
  (.amoFadd ⟨0, false, false, 4, 2, 0, 0, 0⟩, 12),
  (.amoVmin64 ⟨0, false, false, 4, 2, 0, 0, 0⟩, 12),
  (.orcDom ⟨0, false, false, 4, 2, 0, 0, 0⟩, 12),
  (.orcBind ⟨0, false, false, 4, 2, 0, 0, 0⟩, 12),
  (.orcFree ⟨0, false, false, 4, 2, 0, 0, 0⟩, 12),
  (.orcFold ⟨0, false, false, 4, 2, 0, 0, 0⟩, 12),
  (.orcMark ⟨0, false, false, 4, 2, 0, 0, 0⟩, 12),
  (.orcOpSet ⟨0, false, false, 4, 2, 0, 0, 0⟩, 12),
  (.orcOpAddF32 ⟨0, false, false, 4, 2, 0, 0, 0⟩, 12),
  (.orcOpAddF64 ⟨0, false, false, 4, 2, 0, 0, 0⟩, 12),
  (.orcOpMulF32 ⟨0, false, false, 4, 2, 0, 0, 0⟩, 12),
  (.orcOpFmaF32 ⟨0, false, false, 4, 2, 0, 0, 0⟩, 12),
  (.orcOpMaxF32 ⟨0, false, false, 4, 2, 0, 0, 0⟩, 12),
  (.orcOpMinF32 ⟨0, false, false, 4, 2, 0, 0, 0⟩, 12),
  (.orcOpAddInt ⟨0, false, false, 4, 2, 0, 0, 0⟩, 12),
  (.orcLdt ⟨0, false, false, 4, 2, 0, 0, 0⟩, 12),
  (.orcLds ⟨0, false, false, 4, 2, 0, 0, 0⟩, 12),
  (.colReq ⟨0, false, false, 1, 2, 3⟩, 12),
  (.colRel ⟨0, false, false, 1, 2, 3⟩, 12),
  (.barArrive ⟨0, false, false, 1, 2, 3⟩, 12),
  (.drain ⟨0, false, false, 1, 2, 3⟩, 12),
  (.quiet ⟨0, false, false, 1, 2, 3⟩, 12),
  (.sig ⟨0, false, false, 1, 2, 3⟩, 12),
  (.chainPut ⟨0, false, false, 1, 2, 3⟩, 12)]
theorem test_fit4 : ∀ x ∈ fitting4, fitsCheck x.1 (place x.2) = true := by decide
/-- Rule forms that fit, each with its element. -/
def fitting5 : List (Instr × Nat) := [
  (.ctArm ⟨0, false, false, 4, 5, 1⟩, 15),
  (.ctFire ⟨0, false, false, 4, 5, 1⟩, 15),
  (.ctStop ⟨0, false, false, 4, 5, 1⟩, 15),
  (.ctStat ⟨0, false, false, 4, 5, 1⟩, 15),
  (.caSet ⟨0, false, false, 4, 5, 1⟩, 15),
  (.caGet ⟨0, false, false, 4, 5, 1⟩, 15),
  (.mxLd ⟨0, false, false, 4, 5, 1⟩, 15),
  (.mxRule ⟨0, false, false, 4, 5, 1⟩, 15),
  (.mxZero ⟨0, false, false, 4, 5, 1⟩, 15),
  (.mxRead ⟨0, false, false, 4, 5, 1⟩, 15),
  (.mseqGemm ⟨0, false, false, 4, 5, 0⟩, 15),
  (.mseqConv ⟨0, false, false, 4, 5, 0⟩, 15),
  (.mseqStop ⟨0, false, false, 4, 5, 0⟩, 15),
  (.smpBind ⟨0, false, true, 4, 5, 1⟩, 15),
  (.wtLd ⟨0, false, true, 4, 5, 1⟩, 15),
  (.wtDrop ⟨0, false, false, 4, 5, 1⟩, 15),
  (.smpTex ⟨0, false, false, 4, 5, 1⟩, 15),
  (.smpDec ⟨0, false, false, 4, 16, 1⟩, 15),
  (.rsDraw ⟨0, false, true, 4, 5, 0⟩, 15),
  (.rsFlush ⟨0, false, false, 4, 5, 0⟩, 15),
  (.visAttr ⟨0, false, false, 8, 16, 0⟩, 15),
  (.blPut ⟨0, false, false, 8, 5, 0⟩, 15),
  (.trFmt ⟨0, false, false, 4, 5, 1⟩, 15),
  (.trRay ⟨0, false, false, 4, 5, 1⟩, 15),
  (.trWalk ⟨0, false, false, 4, 5, 1⟩, 15),
  (.trMarch ⟨0, false, false, 4, 5, 0⟩, 15),
  (.trRes ⟨0, false, false, 4, 16, 0⟩, 15),
  (.sysRd ⟨0, false, false, 1, 0, 1⟩, 0),
  (.sysWr ⟨0, false, false, 1, 0, 1⟩, 0),
  (.nop ⟨0, false, false, 4, 5, 0⟩, 0),
  (.halt ⟨0, false, false, 4, 5, 0⟩, 0),
  (.trap ⟨0, false, false, 4, 5, 1⟩, 0),
  (.brk ⟨0, false, false, 4, 5, 1⟩, 0),
  (.leaseReq ⟨0, false, false, 4, 5, 0⟩, 0),
  (.leaseRel ⟨0, false, false, 4, 5, 0⟩, 0),
  (.step ⟨0, false, false, 4, 5, 0⟩, 0),
  (.cfgWr ⟨0, false, false, 4, 5, 0⟩, 0)]
theorem test_fit5 : ∀ x ∈ fitting5, fitsCheck x.1 (place x.2) = true := by decide

/-! ## Witnesses of the statements' hypotheses

A statement whose only hypothesis is that a rule fits is met by every entry of the lists of rule forms above
(`fits_of` turns the check into `Fits`). The theorems below give a state and operands for each further hypothesis. -/

/-- A rule form of the lists above fits its element. -/
theorem test_meets_Fits : Fits (.add ⟨0, false, false, 1, 2, 3⟩) (place 0) := fits_of _ _ (by decide)

/-- A later beat of a rule in progress. -/
def later : State :=
  { place 0 with elems := [(0, { Elem.reset with beat := some { (default : Beat) with n := 4, k := 1 } })] }
/-- In a later beat every rule fits (R53, R54): the faults were tested before beat 0. -/
theorem test_meets_laterBeat : later.beatNo = 1 ∧ Fits (.vsum ⟨0, false, false, 1, 20, 25⟩ 0) later :=
  ⟨by decide, fun h => absurd h (by decide)⟩

/-- The float forms in their packed and 64-bit types. -/
def fittingTypes : List (Instr × Nat) :=
  [1, 2].flatMap (fun t => [(.fadd ⟨0, false, false, 1, 2, 3⟩ t, 0), (.ffma ⟨0, false, false, 1, 2, 3⟩ t, 0),
    (.fcmpLt ⟨0, false, false, 1, 0, 2, 3⟩ t, 0), (.f2iI32 ⟨0, false, false, 1, 2, 0⟩ t, 0),
    (.i2fN32 ⟨0, false, false, 1, 2, 0⟩ t, 0), (.fcvt ⟨0, false, false, 1, 2, 0⟩ t, 0),
    (.fclass ⟨0, false, false, 1, 2, 0⟩ t, 0)]) ++
  [(.fadd ⟨0, false, false, 4, 2, 8⟩ 3, 0), (.ffma ⟨0, false, false, 4, 2, 8⟩ 3, 0), (.fabs ⟨0, false, false, 4, 2, 8⟩ 3, 0),
    (.fcmpLt ⟨0, false, false, 1, 0, 2, 4⟩ 3, 0), (.f2iI32 ⟨0, false, false, 1, 2, 0⟩ 3, 0),
    (.i2fN32 ⟨0, false, false, 4, 2, 0⟩ 3, 0), (.fcvt ⟨0, false, false, 1, 2, 0⟩ 3, 0),
    (.fcvt ⟨0, false, false, 4, 2, 24⟩ 0, 0), (.fcvt ⟨0, false, false, 1, 2, 8⟩ 3, 0),
    (.fclass ⟨0, false, false, 1, 2, 0⟩ 3, 0)]
theorem test_fitTypes : ∀ x ∈ fittingTypes, fitsCheck x.1 (place x.2) = true := by decide

/-- `MadLaneAndImmediateResults`: the greatest shift, and lanes at both ends. -/
theorem test_meets_Immediates :
    Fits (.shli ⟨0, false, false, 1, 2, 31⟩) (place 0) ∧ Fits (.li ⟨0, false, false, 1, 1, 31⟩) (place 0) ∧
    Fits (.extI8 ⟨0, false, false, 1, 2, 25⟩ 3) (place 0) ∧ Fits (.insN16 ⟨0, false, false, 1, 2, 25⟩ 1) (place 0) :=
  ⟨fits_of _ _ (by decide), fits_of _ _ (by decide), fits_of _ _ (by decide), fits_of _ _ (by decide)⟩

/-- An element with words on its four channels. -/
def withWords (k : Nat) (a b : List ChanWord) : State :=
  { place k with elems := [(k, { Elem.reset with fifo := (Elem.reset.fifo.setIfInBounds 0 a).setIfInBounds 1 b })] }

/-- `MoveAndMergeResults`: `amrg` with two data words that arrived at once, and with two marks. -/
theorem test_meets_amrg :
    (let s := withWords 0 [⟨7, 0, 5⟩] [⟨8, 1, 5⟩]
     Fits (.amrg ⟨0, false, false, 1, 2, 3⟩) s ∧ s.me.chan 0 = ⟨7, 0, 5⟩ :: [] ∧ s.me.chan 1 = ⟨8, 1, 5⟩ :: []) ∧
    (let s := withWords 0 [⟨7, 3, 5⟩] [⟨8, 3, 6⟩]
     Fits (.amrg ⟨0, false, false, 1, 2, 3⟩) s ∧ s.me.chan 0 = ⟨7, 3, 5⟩ :: [] ∧ s.me.chan 1 = ⟨8, 3, 6⟩ :: [] ∧
       s.me.closed.getD 0 none = none ∧ s.me.closed.getD 1 none = none) :=
  ⟨⟨fits_of _ _ (by decide), rfl, rfl⟩, ⟨fits_of _ _ (by decide), rfl, rfl, rfl, rfl⟩⟩

/-- `SourceCodesRead`: the codes at the ends of each clause. -/
theorem test_meets_SourceCodes :
    (15 : Code).toNat ≤ 15 ∧ (16 : Code).toNat = 16 + 0 ∧ pops [16] 0 = false ∧ (19 : Code).toNat = 16 + 3 ∧
    pops [19, 23] 3 = true ∧ (20 : Code).toNat = 20 + 0 ∧ (23 : Code).toNat = 20 + 3 ∧ (23 : Code) ∈ [(23 : Code)] := by
  decide

/-- `CoordinateWord`: the last element of the package. -/
theorem test_meets_Coordinates : (98303 : Nat) < 98304 ∧ 98303 / 1024 = 95 := by decide

/-- `ResultsWritten`: codes at the ends, and an output with a reserved slot. -/
theorem test_meets_Results :
    (15 : Code).toNat ≤ 15 ∧ (16 : Code).toNat = 16 + 4 * 0 + 0 ∧ (31 : Code).toNat = 16 + 4 * 3 + 3 ∧
    ((place 0).me.outCh 3).stage = [] ∧
    ∃ s : State, (s.me.outCh 3).stage = .hole 9 0 :: [] :=
  ⟨by decide, by decide, by decide, rfl,
    { place 0 with elems := [(0, { Elem.reset with out := Elem.reset.out.setIfInBounds 3 ⟨none, 1, [.hole 9 0]⟩ })] }, rfl⟩

/-! ### Memory rules -/

theorem reaches_of (s : State) (m : MemForm) (n : Nat) (d : Option Bool) (hs : m.o.space = 0)
    (h : ∀ k, k < n → s.ea m k k < 2 ^ 55 ∧ s.ea m k k % m.size = 0) : Reaches s m n d := by
  intro _ k hk
  refine ⟨fun _ => h k hk, fun h1 => ?_, fun h1 => ?_, fun h1 => ?_⟩ <;> rw [hs] at h1 <;> exact absurd h1 (by decide)

/-- A memory form's fields, of data code `c`, in global space at the address in `d2` and `d3`. -/
abbrev plainM (c : Code) : MOp := ⟨0, false, false, c, 2, 0, 0, 0⟩

/-- `AddressesAndTheirFaults`: addresses at the ends of each space, with a fault and without. -/
theorem test_meets_Addresses :
    (place 12).addrFault 0 (2 ^ 55 - 4) 4 none = none ∧ (2 : Nat) ^ 55 ≤ 2 ^ 55 ∧ (2 ^ 55 - 1) % 4 ≠ 0 ∧
    (place 12).rebase 0 (2 ^ 23 - 1) < 2 ^ 23 ∧ 2 ^ 23 ≤ (place 12).rebase 0 (2 ^ 23) ∧
    (place 12).rebase 0 (2 ^ 23 - 1) % 2 ≠ 0 ∧ (2 ^ 17 - 1) % 2 ≠ 0 ∧ (place 12).boundPort 12 31 true = false ∧
    (plainM 4).space = 0 ∧ (plainM 4).addr.toNat + 1 < 16 := by decide

/-- `LoadStoreFiring`: a load of each destination, a store, block transfers and a prefetch. -/
theorem test_meets_LoadStore :
    (Fits (.ld (plainM 15) 2) (place 12) ∧ Reaches (place 12) ⟨plainM 15, 4, memDemand (plainM 15) []⟩ 1 (some true)) ∧
    (Fits (.ldBy (plainM 4) 3) (place 13) ∧ Reaches (place 13) ⟨plainM 4, 8, memDemand (plainM 4) []⟩ 1 (some true)) ∧
    (Fits (.st (plainM 20) 0) (place 12) ∧ Reaches (place 12) ⟨plainM 20, 1, memDemand (plainM 20) [(20, 1)]⟩ 1 (some false)) ∧
    (Fits (.ldblk (plainM 31)) (place 12) ∧ Reaches (place 12) ⟨plainM 31, 64, memDemand (plainM 31) []⟩ 1 none) ∧
    (Fits (.stblk (plainM 23)) (place 12) ∧ Reaches (place 12) ⟨plainM 23, 64, memDemand (plainM 23) [(23, 16)]⟩ 1 none) ∧
    (Fits (.pref (plainM 4)) (place 12) ∧ Reaches (place 12) ⟨plainM 4, 1, memDemand (plainM 4) []⟩ 1 none ∧
      (place 12).countOf (Instr.pref (plainM 4)).view = 1) :=
  ⟨⟨fits_of _ _ (by decide), reaches_of _ _ _ _ rfl (by decide)⟩, ⟨fits_of _ _ (by decide), reaches_of _ _ _ _ rfl (by decide)⟩,
   ⟨fits_of _ _ (by decide), reaches_of _ _ _ _ rfl (by decide)⟩, ⟨fits_of _ _ (by decide), reaches_of _ _ _ _ rfl (by decide)⟩,
   ⟨fits_of _ _ (by decide), reaches_of _ _ _ _ rfl (by decide)⟩,
   ⟨fits_of _ _ (by decide), reaches_of _ _ _ _ rfl (by decide), by decide⟩⟩

/-- `AtomicFiring`: one word from a register, two of 64 bits from a channel and from code 25, and the other forms. -/
theorem test_meets_Atomics :
    (Fits (.amoAdd (plainM 4)) (place 12) ∧ Reaches (place 12) ⟨plainM 4, 4, atomicDemand (plainM 4) false⟩ 1 none) ∧
    (let o : MOp := ⟨0, false, true, 23, 2, 0, 0, 0⟩
     let s := placeX 12 0xF0000001
     Fits (.amoMax o) s ∧ wide64 s o = true ∧ Reaches s ⟨o, 8, atomicDemand o true⟩ 1 none) ∧
    (let o : MOp := ⟨0, false, true, 25, 2, 0, 0, 0⟩
     Fits (.amoSwap o) (placeX 12 0xF0000001) ∧ o.data = 25) ∧
    (Fits (.amoVmin64 (plainM 4)) (place 12) ∧ Reaches (place 12) ⟨plainM 4, 8, atomicDemand (plainM 4) true⟩ 1 none) ∧
    (Fits (.amoInc (plainM 15)) (place 12) ∧ Reaches (place 12) ⟨plainM 15, 4, memDemand (plainM 15) []⟩ 1 none) ∧
    (Fits (.amoCas (plainM 4)) (place 12) ∧ Reaches (place 12) ⟨plainM 4, 4, memDemand (plainM 4) []⟩ 1 none) :=
  ⟨⟨fits_of _ _ (by decide), reaches_of _ _ _ _ rfl (by decide)⟩,
   ⟨fits_of _ _ (by decide), by decide, reaches_of _ _ _ _ rfl (by decide)⟩, ⟨fits_of _ _ (by decide), rfl⟩,
   ⟨fits_of _ _ (by decide), reaches_of _ _ _ _ rfl (by decide)⟩, ⟨fits_of _ _ (by decide), reaches_of _ _ _ _ rfl (by decide)⟩,
   ⟨fits_of _ _ (by decide), reaches_of _ _ _ _ rfl (by decide)⟩⟩

/-- An element 12 with a register. -/
def withReg (k r : Nat) (w : Word) : State := { place k with elems := [(k, Elem.reset.setReg r w)] }

/-- `OrderRepairFiring`: a record's control, a binding, a mark, an operation, and loads of a nonzero step. -/
theorem test_meets_OrderRepairFiring :
    (Fits (.orcDom (plainM 4)) (place 12) ∧ Reaches (place 12) ⟨plainM 4, 512, memDemand (plainM 4) []⟩ 1 none) ∧
    (Fits (.orcBind (plainM 4)) (place 12) ∧ Reaches (place 12) ⟨plainM 4, 4, memDemand (plainM 4) []⟩ 1 none) ∧
    (Fits (.orcMark (plainM 20)) (place 12) ∧ Reaches (place 12) ⟨plainM 20, 4, memDemand (plainM 20) [(20, 1)]⟩ 1 none) ∧
    (Fits (.orcOpAddF32 (plainM 12)) (place 12) ∧ Reaches (place 12) ⟨plainM 12, 4, memDemand (plainM 12) []⟩ 1 none) ∧
    (Fits (.orcLds (plainM 4)) (withReg 12 4 1) ∧ Reaches (withReg 12 4 1) ⟨plainM 4, 4, memDemand (plainM 4) []⟩ 1 none ∧
      ((withReg 12 4 1).me.reg 4).extractLsb' 0 24 ≠ 0) :=
  ⟨⟨fits_of _ _ (by decide), reaches_of _ _ _ _ rfl (by decide)⟩, ⟨fits_of _ _ (by decide), reaches_of _ _ _ _ rfl (by decide)⟩,
   ⟨fits_of _ _ (by decide), reaches_of _ _ _ _ rfl (by decide)⟩, ⟨fits_of _ _ (by decide), reaches_of _ _ _ _ rfl (by decide)⟩,
   ⟨fits_of _ _ (by decide), reaches_of _ _ _ _ rfl (by decide), by decide⟩⟩

/-! ### A device with one started chain -/

/-- The bytes of a chain record: a fault area of one record, another page than the tables. -/
def aRecord : List Byte := ((List.replicate 256 0).set 0x1B 1).set 0x20 2
/-- A started chain whose root table stands at 0. -/
def aChain : Chain := { (default : Chain) with ident := 1, record := aRecord, phase := .started }
/-- Its started spur on core 0 of cluster 0. -/
def aSpur : Spur := { newSpur 1 1 0 0 0 0 0 1 1 0 0 [] with phase := .started }
/-- The device; one leaf entry maps the low 4 TiB to themselves. -/
def dev : State := { State.reset with chains := [aChain], spurs := [aSpur], mem := [(0, 0x1F)] }
/-- The device with a rule of element `k` in slot 0. -/
def devAt (k : Nat) : State := { dev with cur := ⟨k, 0⟩ }
/-- The device with a spur changed. -/
def devSpur (f : Spur → Spur) : State := { dev with spurs := [f aSpur], cur := ⟨12, 0⟩ }

/-- `SynchronisationFiring`: a spur with a col and a barrier. -/
theorem test_meets_Synchronisation :
    (let s := devSpur fun p => { p with col := some ⟨none, [], 0⟩ }
     Fits (.colReq ⟨0, false, false, 1, 2, 3⟩) s ∧ ColNamed s (s.rd (one [2]) 2) ∧
       s.colOf (bitsAt (s.rd (one [2]) 2) 0 7) = some { aSpur with col := some ⟨none, [], 0⟩ }) ∧
    (let p := { aSpur with bars := aSpur.bars.setIfInBounds 0 ⟨2, 0, 0, false⟩ }
     let s := devSpur fun _ => p
     Fits (.barArrive ⟨0, false, false, 1, 2, 3⟩) s ∧ s.mySpur = some p ∧ (p.bars.getD 0 default).need ≠ 0) ∧
    (Fits (.drain ⟨0, false, false, 1, 2, 3⟩) (devAt 12) ∧ (devAt 12).mySpur = some aSpur) ∧
    (Fits (.quiet ⟨0, false, false, 1, 2, 3⟩) (devAt 12) ∧ (devAt 12).mySpur = some aSpur) :=
  ⟨⟨fits_of _ _ (by decide), ⟨by decide, by decide, by decide⟩, by decide⟩, ⟨fits_of _ _ (by decide), by decide, by decide⟩,
   ⟨fits_of _ _ (by decide), by decide⟩, ⟨fits_of _ _ (by decide), by decide⟩⟩

/-! ### Copies, engines and the system -/

/-- A plain template block: 64 bytes from 0x20000 to 0x30000, register `d0`, scope 2, no cairn (R265). -/
def aBlock : List Byte :=
  ((((((List.replicate 64 0).set 0x03 0x20).set 0x06 0xFF).set 0x0A 2).set 0x12 3).set 0x18 64)
/-- The memory of `dev` with the block at 0x10000. -/
def blockMem : Memory := Memory.writeN [(0, 0x1F)] 0x10000 aBlock
/-- `e0` of core 0 fires; `d4` is an address. -/
def devE0 (addr : Word) : State := { devAt 15 with elems := [(15, Elem.reset.setReg 4 addr)], mem := blockMem }
/-- Core 0 with a template 1. -/
def withCt (x : Template) : State :=
  { devAt 15 with cores := [(0, { Core.reset with ct := Core.reset.ct.setIfInBounds 1 x })] }
/-- A fresh copy firing. -/
def aFiring : Firing := default

theorem ok_of {ε α : Type} (x : Except ε α) (h : x.isOk = true) : ∃ b, x = .ok b := by
  cases x with
  | ok b => exact ⟨b, rfl⟩
  | error e => cases h

/-- `CopyRuleResults`: a valid block and one that is not; an armed template, with a firing and without; a cairn. -/
theorem test_meets_CopyRules :
    (let s := devE0 0x10000
     Fits (.ctArm ⟨0, false, false, 4, 5, 1⟩) s ∧ (s.me.pair 4).toNat < 2 ^ 55 ∧ (s.me.pair 4).toNat % 64 = 0 ∧
       ((s.core 0).template 1).busy = false ∧ s.bump.engRead 0 0x10000 64 = .ok aBlock ∧ blockOk aBlock = true ∧
       s.triggerTaken 0 1 aBlock = false ∧ s.pick.c ≠ 3 ∧ ((s.core 0).template 1).stopping = false) ∧
    (let s := devE0 0x20000
     Fits (.ctArm ⟨0, false, false, 4, 5, 1⟩) s ∧ s.bump.engRead 0 0x20000 64 = .ok (List.replicate 64 0) ∧
       blockOk (List.replicate 64 0) = false) ∧
    (let s := withCt ⟨1, aBlock, 0, 0, 0, false, some aFiring, 0⟩
     Fits (.ctFire ⟨0, false, false, 4, 5, 1⟩) s ∧ Fits (.ctStop ⟨0, false, false, 4, 5, 1⟩) s ∧
       ((s.core 0).template 1).state ≠ 0 ∧ ((s.core 0).template 1).firing.isSome = true) ∧
    (let s := withCt ⟨1, aBlock, 0, 0, 0, false, none, 0⟩
     Fits (.ctStop ⟨0, false, false, 4, 5, 1⟩) s ∧ ((s.core 0).template 1).firing = none ∧
       tbRec ((s.core 0).template 1).block = 0 ∧ ((s.core 0).template 1).stopping = false ∧ (∀ q ∈ s.reqs, q.kind ≠ .arm 1)) ∧
    (let s := devE0 (2 ^ 17)
     Fits (.caSet ⟨0, false, false, 4, 25, 1⟩) s ∧ (s.rdAt (one [4, 25]) 4 0 0).toNat = 2 ^ 17 ∧
       s.rdAt (one [4, 25]) 25 0 0 = 0 ∧ s.linked 15 0 = false ∧ s.countOf (Instr.caSet ⟨0, false, false, 4, 25, 1⟩).view = 1) :=
  ⟨⟨fits_of _ _ (by decide), by decide, by decide, by decide, by rfl, by decide, by decide, by decide, by decide⟩,
   ⟨fits_of _ _ (by decide), by rfl, by decide⟩,
   ⟨fits_of _ _ (by decide), fits_of _ _ (by decide), by decide, by decide⟩,
   ⟨fits_of _ _ (by decide), by decide, by decide, by decide, by decide⟩, ⟨fits_of _ _ (by decide), by decide, by decide, by decide, by decide⟩⟩

/-- `CommandFiring`: a draw that may open, one that may be flushed, an open ticket, and a sample's two destinations. -/
theorem test_meets_Commands :
    (Fits (.rsDraw ⟨0, false, true, 4, 5, 0⟩) (devAt 15) ∧ ((devAt 15).core 0).drawOpen = false) ∧
    (let s : State := { devAt 15 with cores := [(0, { Core.reset with drawOpen := true })] }
     Fits (.rsFlush ⟨0, false, false, 4, 5, 0⟩) s ∧ (s.core 0).drawOpen = true) ∧
    (let s : State := { devAt 15 with clusters := [(0, { Cluster.reset with
       raster := { (default : Raster) with isOpen := true, tickets := [⟨0, 0, 1, none⟩] } })] }
     Fits (.blPut ⟨0, false, false, 8, 5, 0⟩) s ∧ bitsAt (s.me.reg 8) 10 21 = 0 ∧
       s.ticketOpen 0 (bitsAt (s.me.reg 8) 0 10) = true) ∧
    (Fits (.smpTex ⟨0, false, false, 4, 5, 1⟩) (devAt 15) ∧ (devAt 15).texWords ⟨0, false, false, 4, 5, 1⟩ = 1) :=
  ⟨⟨fits_of _ _ (by decide), by decide⟩, ⟨fits_of _ _ (by decide), by decide⟩,
   ⟨fits_of _ _ (by decide), by decide, by decide⟩, ⟨fits_of _ _ (by decide), by decide⟩⟩

/-- `MatrixFiring`: rows in range, the greatest group of a rule word, a word and a row of an accumulator, and a drain.
-/
theorem test_meets_Matrix :
    (Fits (.mxLd ⟨0, false, false, 4, 5, 1⟩) (devAt 15) ∧
      RowsFit (devAt 15) false ((List.range 32).map fun i => (ofPair (matrixBase (devAt 15) ⟨0, false, false, 4, 5, 1⟩ false) +
        i * 64 * 1, 64))) ∧
    (let s : State := { devAt 15 with elems := [(15, Elem.reset.setReg 4 0x30)] }
     Fits (.mxRule ⟨0, false, false, 4, 5, 1⟩) s ∧ bitsAt (s.rd (one [4]) 4) 8 24 = 0 ∧ bitsAt (s.rd (one [4]) 4) 4 3 = 3) ∧
    (let s : State := { devAt 15 with elems := [(15, Elem.reset.setReg 4 0x400)] }
     Fits (.mxRead ⟨0, false, false, 4, 16, 1⟩) s ∧ bitsAt (s.rd (one [4]) 4) 11 21 = 0 ∧
       (s.rd (one [4]) 4).getLsbD 10 = true) ∧
    (let s := placeX 15 0xF0048000
     Fits (.mxDrain ⟨0, false, true, 4, 5, 1⟩) s ∧ RowsFit s false (drainRows s.curExt
       (ofPair (matrixBase s ⟨0, false, true, 4, 5, 1⟩ false)))) :=
  ⟨⟨fits_of _ _ (by decide), by unfold RowsFit; decide⟩, ⟨fits_of _ _ (by decide), by decide, by decide⟩,
   ⟨fits_of _ _ (by decide), by decide, by decide⟩, ⟨fits_of _ _ (by decide), by unfold RowsFit; decide⟩⟩

/-- A walk in progress. -/
def aWalk (k : Nat) : Walk := { (default : Walk) with elem := k }

/-- `SystemRules`: registers of both views, spurs, a stop in a step and outside one, and the enables of CHAIN_CTL. -/
theorem test_meets_System :
    (Fits (.sysRd ⟨0, false, false, 1, 0, 1⟩) (place 0) ∧ MayName (place 0) 1 ∧ ¬ suppliedLate 1 ∧ suppliedLate 0x37) ∧
    (let s : State := { devAt 0 with chains := [{ aChain with privileged := true }] }
     Fits (.sysWr ⟨0, false, false, 1, 0, 0x200⟩) s ∧ MayName s 0x200) ∧
    (Fits (.halt ⟨0, false, false, 4, 5, 0⟩) (devAt 0) ∧ (devAt 0).mySpur = some aSpur) ∧
    (Fits (.trap ⟨0, false, false, 4, 5, 1⟩) { devAt 0 with walk := some (aWalk 0) } ∧ (devAt 0).walk = none) ∧
    (let s : State := { devAt 0 with regs := [(0x220, 3)], walk := some (aWalk 0) }
     Fits (.brk ⟨0, false, false, 4, 5, 1⟩) s ∧ (s.preg 0x220).getLsbD 0 = true ∧
       Fits (.step ⟨0, false, false, 4, 5, 0⟩) s ∧ (s.preg 0x220).getLsbD 1 = true ∧
       bitsAt (s.rd (one [4]) 4) 24 8 = 0) ∧
    (let s : State := { place 0 with elems := [(0, { Elem.reset with role := .used })] }
     Fits (.cfgWr ⟨0, false, false, 4, 5, 0⟩) s ∧ s.badCfg 0 (s.me.reg 4) = false) :=
  ⟨⟨fits_of _ _ (by decide), fun _ => .inl (by decide), by unfold suppliedLate; decide, by unfold suppliedLate; decide⟩,
   ⟨fits_of _ _ (by decide), fun _ => .inr (by decide)⟩, ⟨fits_of _ _ (by decide), by decide⟩,
   ⟨fits_of _ _ (by decide), rfl⟩, ⟨fits_of _ _ (by decide), by decide, fits_of _ _ (by decide), by decide, by decide⟩,
   ⟨fits_of _ _ (by decide), by decide⟩⟩

/-! ### Faults, handlers, steps and decoding -/

/-- `RuleFaultsTaken`: operand words with nonzero must-be-0 bits, a template that is not armed, a busy one, an address
beyond the range, counts out of range, draws, a ticket that is not open, odd pairs, a privileged register. -/
theorem test_meets_RuleFaults :
    (let s := withReg 12 2 0x4000
     Fits (.colReq ⟨0, false, false, 1, 2, 3⟩) s ∧ bitsAt (s.rd (one [2]) 2) 14 18 ≠ 0) ∧
    (Fits (.barArrive ⟨0, false, false, 1, 2, 3⟩) (devAt 12) ∧ (devAt 12).mySpur = some aSpur ∧
      (aSpur.bars.getD 0 default).need = 0) ∧
    (let s := withReg 15 4 0x40
     Fits (.mxRule ⟨0, false, false, 4, 5, 1⟩) s ∧ 4 ≤ bitsAt (s.rd (one [4]) 4) 4 3) ∧
    (let s := withReg 15 4 0x800
     Fits (.mxRead ⟨0, false, false, 4, 5, 1⟩) s ∧ bitsAt (s.rd (one [4]) 4) 11 21 ≠ 0) ∧
    (let s := withReg 0 4 0xFFFFFFFF
     Fits (.cfgWr ⟨0, false, false, 4, 5, 0⟩) s ∧ s.badCfg 0 (s.me.reg 4) = true) ∧
    (Fits (.ctFire ⟨0, false, false, 4, 5, 1⟩) (devAt 15) ∧ (((devAt 15).core 0).template 1).state = 0) ∧
    (let s := withCt ⟨1, aBlock, 1, 0, 0, false, none, 0⟩
     Fits (.ctArm ⟨0, false, false, 4, 5, 1⟩) s ∧ ((s.core 0).template 1).busy = true) ∧
    (let s := withReg 15 5 0x800000
     Fits (.ctArm ⟨0, false, false, 4, 5, 1⟩) s ∧ 2 ^ 55 ≤ (s.me.pair 4).toNat) ∧
    (Fits (.caSet ⟨0, false, false, 4, 25, 1⟩) (place 15) ∧ 0 < (place 15).countOf (Instr.caSet ⟨0, false, false, 4, 25, 1⟩).view ∧
      (place 15).rdAt (one [4, 25]) 4 0 0 = 0) ∧
    (let s : State := { place 15 with cores := [(0, { Core.reset with drawOpen := true })] }
     Fits (.rsDraw ⟨0, false, true, 4, 5, 0⟩) s ∧ (s.core 0).drawOpen = true) ∧
    (Fits (.rsFlush ⟨0, false, false, 4, 5, 0⟩) (place 15) ∧ ((place 15).core 0).drawOpen = false) ∧
    (Fits (.blPut ⟨0, false, false, 8, 5, 0⟩) (place 15) ∧ (place 15).ticketOpen 0 0 = false) ∧
    (Fits (.sysRd ⟨0, false, false, 1, 0, 0x200⟩) (place 0) ∧ (place 0).privAt 0 = false) ∧
    (let o : MOp := ⟨0, false, false, 4, 2, 2, 0, 0⟩
     Fits (.amoAdd o) (place 12) ∧ o.space ≠ 0 ∧ (place 12).addrFault 2 ((place 12).ea ⟨o, 4, atomicDemand o false⟩ 0 0) 4 none = none) ∧
    (Fits (.orcLds (plainM 4)) (place 12) ∧ ((place 12).me.reg 4).extractLsb' 0 24 = 0) ∧
    (let s := withReg 12 2 2
     Fits (.ld (plainM 4) 2) s ∧ s.addrFault 0 (s.ea ⟨plainM 4, 4, memDemand (plainM 4) []⟩ 0 0) 4 (some true) = some (0x12, 2)) :=
  ⟨⟨fits_of _ _ (by decide), by decide⟩, ⟨fits_of _ _ (by decide), by decide, by decide⟩,
   ⟨fits_of _ _ (by decide), by decide⟩, ⟨fits_of _ _ (by decide), by decide⟩, ⟨fits_of _ _ (by decide), by decide⟩,
   ⟨fits_of _ _ (by decide), by decide⟩, ⟨fits_of _ _ (by decide), by decide⟩, ⟨fits_of _ _ (by decide), by decide⟩,
   ⟨fits_of _ _ (by decide), by decide, by decide⟩, ⟨fits_of _ _ (by decide), by decide⟩, ⟨fits_of _ _ (by decide), by decide⟩,
   ⟨fits_of _ _ (by decide), by decide⟩, ⟨fits_of _ _ (by decide), by decide⟩,
   ⟨fits_of _ _ (by decide), by decide, by decide⟩, ⟨fits_of _ _ (by decide), by decide⟩,
   ⟨fits_of _ _ (by decide), by decide⟩⟩

/-- `FaultsWriteRecords`, `LateFaultKeepsReplays`: a chain with room for a record, and one without. -/
theorem test_meets_Faults :
    dev.spurAt 0 = some aSpur ∧ dev.chain? 1 = some aChain ∧ dev.recordFree aChain 0 = true ∧
    dev.recordFree { aChain with faults := 2 } 2 = false := by decide

/-- `HandlersSelected`: a chain that is held; a raised handler; the highest priority; none but the idle one. -/
def withHandlers (raised : List Nat) : State :=
  { dev with elems := [(0, { Elem.reset with
      fifo := Elem.reset.fifo.setIfInBounds 0 [⟨7, 1, 0⟩]
      handlers := Elem.reset.handlers.setIfInBounds 1 0x8000
      raised := raised })] }
theorem test_meets_Handlers :
    (let s : State := { dev with chains := [{ aChain with phase := .held }] }
     s.spurAt (elemCore 0) = some aSpur ∧ s.sameStep 0 = false ∧ (s.elem 0).beat = none) ∧
    (withHandlers [1]).runnable 0 = [1] ∧ ((withHandlers [1]).elem 0).raised.find? ([1].contains ·) = some 1 ∧
    ((withHandlers []).elem 0).raised = [] ∧ (place 0).runnable 0 = [] := by decide

/-- R361: of a ridge that the element 0 froze in a step, the elements behind it still take that step, once. -/
theorem test_same_step :
    (let s : State := { dev with chains := [{ aChain with phase := .held, stopped := some 0 }] }
     s.sameStep 0 = false ∧ s.sameStep 1 = true ∧ (s.tookStep 1).sameStep 1 = false ∧
       (s.tookStep 1).sameStep 2 = true) := by decide

/-- `WalkSelectsRules`: a range with a ready rule, and none left. -/
theorem test_meets_Walk :
    (let s : State := { dev with elems := [(0, { Elem.reset with
       slots := Elem.reset.slots.setIfInBounds 0 0x00008040
       guards := Elem.reset.guards.setIfInBounds 0 1 })] }
     s.search (aWalk 0) [0] 0 = (0, some (0, [])) ∧ decodeWord ((s.elem 0).slot 0) = .ok (.add ⟨0, false, false, 1, 0, 2⟩)) ∧
    dev.search (aWalk 0) [] 0 = (0, none) := ⟨⟨by decide, by rfl⟩, by decide⟩

/-- `StepRunsDecodedInstruction`: a walk that finds a rule, a beat in progress, and an agenda. -/
theorem test_meets_Step :
    (let s : State := { dev with
       elems := [(0, { Elem.reset with beat := some { (default : Beat) with word := 0x00008040, n := 2 } })]
       walk := some (aWalk 0) }
     s.walk = some (aWalk 0) ∧ (s.spurAt (elemCore 0)).isSome = true ∧ ((s.elem 0).beat.map (·.spent)) = some false ∧
       ((s.elem 0).beat.map fun b => (decodeWord b.word).isOk) = some true) ∧
    (let s : State := { dev with agenda := [(.kucorFlitRetry, default)] }
     s.walk = none ∧ s.agenda = (.kucorFlitRetry, default) :: [] ∧ Instr.kucorFlitRetry.isRule = false) := by decide

/-- `WordFaultsTaken`: each fault of a word in turn, none before it. -/
theorem test_meets_WordFaults :
    (let i := Instr.addi ⟨0, false, true, 1, 2, 0⟩
     Broken i (placeX 0 0) ∧ (placeX 0 0).beatNo = 0) ∧
    (¬ Broken (.fadd ⟨0, false, false, 1, 2, 3⟩ 0) (place 12) ∧ elemHas (Instr.fadd ⟨0, false, false, 1, 2, 3⟩ 0).view.cellNo 12 = false) ∧
    badCount ({ Elem.reset with guards := Elem.reset.guards.setIfInBounds 0 0x280 }.guard 0) = true ∧
    (Instr.extI16 ⟨0, false, false, 1, 2, 3⟩ 3).view.subOk 0 true = false ∧
    (Instr.mad ⟨0, false, false, 16, 2, 3⟩).view.codesOk 0 = false ∧ (decodeWord 0x00700000).isOk = false := by
  unfold Broken; decide

/-! ### Happenings: links, requests and copies -/

/-- What a happening concerns. -/
abbrev pickOf (a b : Nat) (flag : Bool) : Pick := ⟨a, b, 0, flag, [], []⟩
/-- The device with one request of `e0` on core 0 for the register `d4`. -/
def aReq : Req := { (default : Req) with id := 3, kind := .load false, dst := .reg 4, size := 4, pa := some 64, phase := .ready }
def withReq (r : Req) : State := { dev with reqs := [r], pick := pickOf r.id 0 false }
/-- A link with a word on its way to channel 1 of element 1. -/
def aLink : Link := { (default : Link) with
  id := 7
  chain := 1
  spur := 1
  sender := .elemOut 0 2
  receiver := .elemIn 1 1
  capacity := 16
  wire := [⟨5, 3, 0⟩]
  freed := 1 }

/-- `LinksAndLateResults`: a word for a channel and one for a pass-through FIFO, a freed slot, a carry word, a late
result in a register and one in a reserved slot. -/
theorem test_meets_Links :
    (let s : State := { dev with links := [aLink], pick := pickOf 7 0 false }
     s.link? s.pick.a = some aLink ∧ s.orphaned aLink = false ∧ (s.spur? aLink.spur).isSome = true ∧ ((s.elem 1).chan 1).length < 16 ∧ aLink.freed ≠ 0) ∧
    (let l := { aLink with pass := [⟨2, 0, []⟩] }
     let s : State := { dev with links := [l], pick := pickOf 7 0 false }
     s.link? s.pick.a = some l ∧ l.pass = ⟨2, 0, []⟩ :: [] ∧ (s.spur? l.spur).isSome = true) ∧
    (let s : State := { dev with
       elems := [(0, { Elem.reset with co := some 1 }), (1, { Elem.reset with join := true })]
       pick := pickOf 0 0 false }
     s.coTarget s.pick.a = some 1 ∧ (s.elem s.pick.a).co = some 1 ∧ (s.elem 1).ci = none) ∧
    (let r := { aReq with phase := .answered, value := [9] }
     Concerns (withReq r) r ∧ (withReq r).answer? r = some [9]) ∧
    (let r := { aReq with phase := .answered, value := [9], dst := .out 2 [6] }
     let s : State := { withReq r with elems := [(0, { Elem.reset with out := Elem.reset.out.setIfInBounds 2 ⟨some 7, 3, [.hole 6 1]⟩ })] }
     Concerns s r ∧ s.answer? r = some [9] ∧ ((s.elem r.elem).outCh 2).stage = [.hole 6 1] ∧
       ((s.elem r.elem).outCh 2).link = some 7) :=
  ⟨by decide, by decide, by decide, ⟨by rfl, by decide⟩, ⟨by rfl, by decide, by decide, by decide⟩⟩

/-- `LatchingReads`: a request for TIME_LO, and the host's reads. -/
theorem test_meets_LatchingReads :
    (let r := { aReq with kind := .control 6, phase := .sent }
     Concerns (withReq r) r) ∧
    (let s : State := { dev with pick := pickOf 0 (640 * 2 ^ 30) true }
     s.pick.flag = true ∧ s.pick.a + s.pick.b ≤ 640 * 2 ^ 30 ∧ s.cells = []) := ⟨by rfl, by decide⟩

/-- A leaf entry with every permission, of a memory kind and policy. -/
def leafEntry (kind policy : Nat) : BitVec 64 := BitVec.ofNat 64 (0x1F + policy * 64 + kind * 256)

/-- `Translation`: permissions missing, the ends of memory, host memory; and a request of each outcome. -/
theorem test_meets_Translation :
    ¬ ((true = true → (0x1B : BitVec 64).getLsbD 2 = true)) ∧
    bitsAt ((leafEntry 3 0).extractLsb' 0 32) 8 2 = 3 ∧ (leafEntry 0 3).extractLsb' 6 2 = 3 ∧
    (640 * 2 ^ 30 - 1) % 2 ^ 43 < 640 * 2 ^ 30 ∧ 640 * 2 ^ 30 ≤ (640 * 2 ^ 30) % 2 ^ 43 ∧
    bitsAt ((leafEntry 1 0).extractLsb' 0 32) 8 2 = 1 ∧
    (let r := { aReq with phase := .sent, pa := none, va := 64 }
     Concerns (withReq r) r ∧ (withReq r).reqNeed r = some ⟨true, false, false, false⟩ ∧
       (withReq r).translateAt 0 ((withReq r).rootAt 0) 64 ⟨true, false, false, false⟩ = .ok 64 0 ∧ NotReplayed (withReq r) r) ∧
    (let r := { aReq with phase := .sent, pa := none, va := 64, kind := .amo .add false }
     let s : State := { withReq r with mem := [(0, 0x1F), (1, 1)] }
     Concerns s r ∧ s.reqNeed r = some ⟨true, true, false, false⟩ ∧ r.kind.noHost = true ∧
       s.translateAt 0 (s.rootAt 0) 64 ⟨true, true, false, false⟩ = .ok (2 ^ 52 + 64) 0 ∧ NotReplayed s r) ∧
    (let r := { aReq with phase := .sent, pa := none, va := 64, kind := .prefetch }
     let s : State := { withReq r with mem := [] }
     Concerns s r ∧ s.reqNeed r = some ⟨true, false, false, false⟩ ∧
       s.translateAt 0 (s.rootAt 0) 64 ⟨true, false, false, false⟩ = .bad 0x10 64 ∧ NotReplayed s r) :=
  ⟨by decide, by decide, by decide, by decide, by decide, by decide, ⟨by rfl, by rfl, by rfl, by decide⟩, ⟨by rfl, by rfl, by rfl, by rfl, by decide⟩,
   ⟨by rfl, by rfl, by rfl, by decide⟩⟩

theorem dev_unmarked (r : Req) : Unmarked (withReq r) := ⟨rfl, rfl, rfl, rfl, rfl⟩
theorem dev_memory (r : Req) : MemoryInv (withReq r) := ⟨by rfl, by rfl⟩

/-- `LoadsBindStoresLand`: loads and stores of a scratchpad, of memory that is not cached, and of cached memory. -/
theorem test_meets_Loads :
    (let r := { aReq with space := 1 }
     let s : State := { withReq r with regs := [(0x295, 1)] }
     Concerns s r ∧ Plain r ∧ Unmarked s ∧ s.l1ReadOnly = false ∧ s.pick.flag = false ∧ NoReadError s ∧ NotReplayed s r) ∧
    (let r := { aReq with policy := 2, atHome := true }
     Concerns (withReq r) r ∧ Plain r ∧ Unmarked (withReq r)) ∧
    (Concerns (withReq aReq) aReq ∧ Plain aReq ∧ (64 : Nat) / 2 ^ 52 ≠ 2) ∧
    (let r := { aReq with kind := .store, dst := .none, ops := [7] }
     Concerns (withReq r) r ∧ Plain r ∧ Unmarked (withReq r) ∧ MemoryInv (withReq r) ∧ r.size ≤ 4 * r.ops.length) :=
  ⟨⟨by rfl, ⟨rfl, rfl, rfl⟩, ⟨rfl, rfl, rfl, rfl, rfl⟩, by rfl, rfl, by decide, by decide⟩, ⟨by rfl, ⟨rfl, rfl, rfl⟩, dev_unmarked _⟩,
   ⟨by rfl, ⟨rfl, rfl, rfl⟩, by decide⟩, ⟨by rfl, ⟨rfl, rfl, rfl⟩, dev_unmarked _, dev_memory _, by decide⟩⟩

/-- `AtomicsAtHome`: an atomic of 64 bits at its home, with its old value to come and without. -/
theorem test_meets_AtomicsAtHome :
    (let r := { aReq with kind := .amo .add true, size := 8, ops := [1, 0], atHome := true, dst := .pair 4 }
     Concerns (withReq r) r ∧ Plain r ∧ Unmarked (withReq r) ∧ MemoryInv (withReq r) ∧ (withReq r).copies = [] ∧ r.dst ≠ .none ∧
       NoReadError (withReq r)) ∧
    (let r := { aReq with kind := .amo .add false, ops := [1], atHome := true, dst := .none }
     Concerns (withReq r) r ∧ Plain r) :=
  ⟨⟨by rfl, ⟨rfl, rfl, rfl⟩, dev_unmarked _, dev_memory _, rfl, by decide, by decide⟩, ⟨by rfl, ⟨rfl, rfl, rfl⟩⟩⟩

/-- `DoneTokensAndPorts`: a token whose firing is performed, a word at a port, and a port with room. -/
theorem test_meets_Dones :
    (let d : Done := ⟨5, 12, 3, 6, 2⟩
     let s : State := { dev with
       dones := [d]
       elems := [(12, { Elem.reset with out := Elem.reset.out.setIfInBounds 3 ⟨some 7, 3, [.hole 6 1]⟩ })]
       pick := pickOf 5 0 false }
     s.dones.find? (fun x => decide (x.group = s.pick.a)) = some d ∧ s.beatsLeft d = false ∧
       (∀ r ∈ s.reqs, r.elem = d.elem → r.group = d.group → s.performedAt r d.scope = true) ∧
       ((s.elem d.elem).outCh d.ch).stage = [.hole d.hole 1] ∧ ((s.elem d.elem).outCh d.ch).link = some 7) ∧
    (let r := { aReq with space := 3, phase := .waiting, va := 31 }
     let s : State := { withReq r with clusters := [(0, { Cluster.reset with
       ports := Cluster.reset.ports.setIfInBounds 31 [⟨5, 0, 0⟩] })] }
     Concerns s r ∧ r.va.toNat < 32 ∧ (s.cluster (elemCluster r.elem)).ports.getD r.va.toNat [] = ⟨5, 0, 0⟩ :: [] ∧
       s.portLinked (elemCluster r.elem) r.va.toNat true = false) ∧
    (let r := { aReq with kind := .store, ops := [7], space := 3, phase := .waiting, va := 31 }
     Concerns (withReq r) r ∧ (((withReq r).cluster (elemCluster r.elem)).ports.getD r.va.toNat []).length < 16 ∧
       (withReq r).portLinked (elemCluster r.elem) r.va.toNat false = false) :=
  ⟨by decide, ⟨by rfl, by decide, by decide, by decide⟩, ⟨by rfl, by decide, by decide⟩⟩

/-- `CopyFreedoms`: a clean sector, a dirty one, and a sector of a page that is cached. -/
theorem test_meets_CopyFreedoms :
    (let s : State := { dev with copies := [(64, ⟨9, false⟩)], pick := pickOf 0 1 false }
     (∀ c ∈ s.copies, inSector s.pick.a s.pick.b c = true → c.2.dirty = false) ∧ s.pins = [] ∧
       ∃ c ∈ s.copies, inSector s.pick.a s.pick.b c = true) ∧
    (let s : State := { dev with copies := [(64, ⟨9, true⟩)], pick := pickOf 0 1 false }
     MemoryInv s ∧ s.cells = [] ∧ ∃ c ∈ s.copies, inSector s.pick.a s.pick.b c = true ∧ c.2.dirty = true) ∧
    (let s : State := { dev with pick := ⟨0, 1, 100, false, [], []⟩ }
     s.cacheable s.pick.a s.pick.b s.pick.c = some (100, 0) ∧ s.pick.flag = false ∧ HasRoom s s.pick.a (100 / 64 * 64) 64) :=
  ⟨by decide, ⟨⟨by rfl, by rfl⟩, by decide⟩, by decide +kernel, by decide, by unfold HasRoom; decide +kernel⟩

/-! ### Happenings: cells, copies, hubs and the matrix engine -/

/-- A domain whose record stands at 0x40000 with a count of 4, and a cell of it at 0x50000. -/
def aDomain : Domain := { (default : Domain) with record := 0x40000, chain := 1, count := 4 }
def aCell : Cell := { (default : Cell) with word := 0x50000, domain := 0x40000, chain := 1 }
/-- A request at the slice of `pa`. -/
def orcReq (kind : ReqKind) (pa : Nat) (ops : List Word) : Req :=
  { aReq with kind := kind, pa := some pa, ops := ops, dst := .none }
/-- The device with the domain, the cell and a request. -/
def withOrc (r : Req) : State := { withReq r with domains := [aDomain], cells := [aCell] }

theorem fieldAt_homeRead (s : State) (k n m : Nat) :
    fieldAt (s.homeRead k n) 0 m = natOfBytes ((List.range (min m n)).map fun i => s.homeByte (k + i)) := by
  simp [fieldAt, State.homeRead, ← List.map_take, List.take_range]

/-- A record with 64 sources stands where a domain is to be made. -/
def domState : State := { withOrc (orcReq (.orcCtl .dom false) 0x60000 []) with mem := [(0, 0x1F), (0x60000, 64)] }
theorem test_domain_count : fieldAt (domState.homeRead 0x60000 0x140) 0 2 = 64 := by
  rw [fieldAt_homeRead]
  decide

/-- `OrderRepair`: entries in order, and a request of each kind that a slice takes. -/
theorem test_meets_OrderRepair :
    Ascending [⟨1, .set, []⟩, ⟨1, .set, []⟩, ⟨2, .set, []⟩] ∧
    (AtSlice domState (orcReq (.orcCtl .dom false) 0x60000 []) 0x60000 ∧
       fieldAt (domState.homeRead 0x60000 0x140) 0 2 = 64 ∧ domState.domain? 0x60000 = none ∧ domState.domainsAt 0x60000 < 8 ∧
       NoReadError domState) ∧
    (let r := orcReq (.orcCtl .bind false) 0x70000 [0x40000, 0]
     let s := withOrc r
     AtSlice s r 0x70000 ∧
       s.translateAt (coreCluster 0) (s.rootAt 0) (ofPair r.ops) ⟨true, true, false, s.privAt 0⟩ = .ok 0x40000 0 ∧
       (s.domain? 0x40000).isSome = true ∧ (s.cells.filter fun c => decide (sliceOf c.word = sliceOf 0x70000)).length < 1024 ∧
       (∀ i, i < 4 → s.cellAt (0x70000 + i) = none) ∧ s.poison.contains (0x70000 / 64) = false ∧
       NoReadError s) ∧
    (let r := orcReq (.orcCtl .fold false) 0x50000 []
     AtSlice (withOrc r) r 0x50000 ∧ (withOrc r).cellOf 0x50000 = some aCell ∧ (∀ q ∈ (withOrc r).reqs, q.waitsAt 0x50000 = false) ∧
       NoReadError (withOrc r)) ∧
    (let r := orcReq (.orcLoad true false) 0x50000 [1]
     AtSlice (withOrc r) r 0x50000 ∧ aCell.f.toNat ≤ bitsAt 1 0 24 ∧ ((withOrc r).viewOf aCell).toNat < bitsAt 1 0 24 ∧
       NoReadError (withOrc r)) ∧
    (let r := { orcReq (.orcLoad true false) 0x50000 [0] with phase := .waiting }
     Concerns (withOrc r) r ∧ (withOrc r).cellOf 0x50000 = some aCell ∧ bitsAt 0 0 24 ≤ ((withOrc r).viewOf aCell).toNat) ∧
    (let r := orcReq (.orcOp .addF32 false) 0x50000 [0x10003, 0, 0, 0]
     AtSlice (withOrc r) r 0x50000 ∧ (withOrc r).domain? aCell.domain = some aDomain ∧ OrcOp.addF32.fits false = true ∧
       bitsAt 0 8 24 = 0 ∧ ((withOrc r).viewOf aCell).toNat < (0x10003 : BitVec 40).toNat / 2 ^ 16 ∧
       (0x10003 : BitVec 40).toNat % 64 < aDomain.count ∧ aCell.history.length < 15 ∧ NoReadError (withOrc r)) ∧
    (let r := orcReq (.orcCtl .mark false) 0x40000 [0x03000001]
     AtSlice (withOrc r) r 0x40000 ∧ bitsAt 0x03000001 30 2 = 0 ∧ bitsAt 0x03000001 24 6 < aDomain.count ∧
       (aDomain.mark (bitsAt 0x03000001 24 6)).toNat < bitsAt 0x03000001 0 24) ∧
    (let r := { orcReq (.orcCtl .free false) 0x50000 [] with phase := .waiting }
     Concerns (withOrc r) r ∧ MemoryInv (withOrc r) ∧ (∀ q ∈ (withOrc r).reqs, q.waitsAt aCell.word = false) ∧
       ∀ e ∈ aCell.history, e.stamp.toNat / 2 ^ 16 ≤ ((withOrc r).viewOf aCell).toNat) :=
  ⟨by simp [Ascending], ⟨⟨by rfl, rfl, rfl, rfl, rfl, rfl⟩, test_domain_count, by decide, by decide, by decide⟩,
   ⟨⟨by rfl, rfl, rfl, rfl, rfl, rfl⟩, by decide, by decide, by decide, by decide, by decide, by decide⟩,
   ⟨⟨by rfl, rfl, rfl, rfl, rfl, rfl⟩, by rfl, by decide, by decide⟩,
   ⟨⟨by rfl, rfl, rfl, rfl, rfl, rfl⟩, by decide, by decide, by decide⟩,
   ⟨by rfl, by rfl, by decide⟩, ⟨⟨by rfl, rfl, rfl, rfl, rfl, rfl⟩, by rfl, by decide, by decide, by decide, by decide, by decide, by decide⟩,
   ⟨⟨by rfl, rfl, rfl, rfl, rfl, rfl⟩, by decide, by decide, by decide⟩, ⟨by rfl, ⟨by rfl, by rfl⟩, by decide, by decide⟩⟩

/-- Core 0 with a template 1 and a word of tag 3 on the channel of its trigger. -/
def triggered (x : Template) : State :=
  { withCt x with
    elems := [(15, { Elem.reset with fifo := Elem.reset.fifo.setIfInBounds 0 [⟨0, 0, 0⟩] })]
    pick := pickOf 0 1 false }
/-- Core 0 with a cairn 2. -/
def withCairn (c : Cairn) : State :=
  { dev with cores := [(0, { Core.reset with ca := Core.reset.ca.setIfInBounds 2 c })], pick := pickOf 0 2 false }

/-- `CopiesAndDeliveries`: an event word, a trigger, a firing that starts and one that completes, a page, landings that
leave a remainder and that do not, and deliveries to an armed template, to none, and for another package. -/
theorem test_meets_Copies :
    (let s : State := { dev with cores := [(0, { Core.reset with events := [(32, 1, 2)] })] }
     (s.core s.pick.a).events[s.pick.b]? = some (32, 1, 2) ∧ (∀ e ∈ (s.core s.pick.a).events.take s.pick.b, e.1 ≠ 32) ∧
       ((s.elem (coreE0 s.pick.a)).chan 1).length < 16) ∧
    (let s := triggered ⟨1, aBlock, 65534, 0, 0, false, none, 0⟩
     let x := (s.core s.pick.a).template s.pick.b
     (s.elem (coreE0 s.pick.a)).chan (tbChan x.block) = ⟨0, 0, 0⟩ :: [] ∧ tbChan x.block < 4 ∧ x.state ≠ 0 ∧
       0 = tbTag x.block ∧ x.queued < 65535 ∧ s.running s.pick.a = true) ∧
    (let s := triggered ⟨1, aBlock, 1, 0, 0, false, none, 0⟩
     let x := (s.core s.pick.a).template s.pick.b
     x.state = 1 ∧ x.queued ≠ 0 ∧ x.firing = none ∧ x.stopping = false ∧ s.heldAt s.pick.a = false ∧ s.spurAt s.pick.a = some aSpur ∧
       wholePages x.block x.nextN = [] ∧ (tbScope x.block).toNat < 3) ∧
    (let f := { aFiring with ended := true, recording := true }
     let s := triggered ⟨1, aBlock, 0, 1, 0, false, some f, 0⟩
     let x := (s.core s.pick.a).template s.pick.b
     x.firing = some f ∧ f.buf = [] ∧ s.firingMoves s.pick.a x f = true ∧ s.roundDone s.pick.a s.pick.b x.block f = true ∧
       tbRec x.block = 0 ∧ tbReg x.block < 16 ∧ NoStorageError s) ∧
    (let s : State := { dev with oldPages := [(3, 0x30000)] }
     s.oldPages[s.pick.a]? = some (3, 0x30000) ∧ s.pageBusy 0x30000 = false ∧ s.pins = [] ∧ MemoryInv s) ∧
    (let c : Cairn := ⟨8, 8, 0, 0, true, false, [7]⟩
     ((withCairn c).core 0).cairn 2 = c ∧ 7 < c.remaining) ∧
    (let c : Cairn := ⟨8, 8, 0, 0, true, false, [8]⟩
     ((withCairn c).core 0).cairn 2 = c ∧ 8 = c.remaining) ∧
    (let s := withCt ⟨1, aBlock, 0, 0, 0, false, none, 0⟩
     s.armedAt 0 1 = true ∧ s.armedAt 0 2 = false ∧ s.firstOfPair 0 { (default : Delivery) with ct := 1 } = true ∧
       (default : Delivery).package = s.podId ∧ ({ (default : Delivery) with package := 1, chunk := true }).package ≠ s.podId) :=
  ⟨by decide, by decide, by decide, by decide, ⟨by decide, by decide, rfl, ⟨by rfl, by rfl⟩⟩, by decide, by decide, by decide⟩

/-- The block of an exchange of two chunks of 64 bytes to 0x30000. -/
def exBlock : List Byte := ((aBlock.set 0x00 5).set 0x30 64).set 0x34 2
/-- `CopiesAndDeliveries`: a chunk of this package's own exchange lands. -/
theorem test_meets_Exchange :
    let f := { aFiring with n := 0 }
    let s := withCt ⟨1, exBlock, 0, 1, 0, false, some f, 0⟩
    let d := { (default : Delivery) with ct := 1, chunk := true, bytes := List.replicate 64 1 }
    tbKind exBlock = 5 ∧ f.n = d.round ∧ d.bytes.length = fieldAt exBlock 0x30 4 ∧ d.rank < fieldAt exBlock 0x34 2 ∧
    d.rank ∉ f.gotChunks ∧ s.armedAt 0 1 = true ∧ s.heldAt 0 = false ∧ s.pick.c ≠ 3 ∧
    (match s.landChunk d exBlock f with
      | .ok (some (_, m)) => decide (d.bytes.length ≤ m)
      | _ => false) = true := by decide


/-- `HubHappenings`: a barrier that is full, a col with a waiting request, a drain at an element
and a drain at its end. -/
theorem test_meets_Hub :
    (let p := { aSpur with bars := aSpur.bars.setIfInBounds 0 ⟨2, 2, 0, false⟩ }
     let s : State := { dev with spurs := [p], pick := pickOf 1 0 false }
     s.spur? s.pick.a = some p ∧ (∀ q ∈ s.spurs, q.id = p.id → q = p) ∧ (p.bars.getD 0 default).need ≠ 0 ∧ (p.bars.getD 0 default).need ≤ (p.bars.getD 0 default).count) ∧
    (let r := { aReq with kind := .colReq 0 1, phase := .waiting }
     let p := { aSpur with index := 0, col := some ⟨none, [(1, 0)], 0⟩ }
     let s : State := { dev with spurs := [p], reqs := [r], pick := pickOf 1 0 false }
     s.spur? s.pick.a = some p ∧ s.grantee p (1, 0) = some r) ∧
    (let p := { aSpur with drain := some ⟨[0], []⟩ }
     let s : State := { dev with spurs := [p], pick := pickOf 1 0 false }
     s.spur? s.pick.a = some p ∧ p.drain = some ⟨0 :: [], []⟩ ∧ (s.elem 0).beat = none) ∧
    (let p := { aSpur with drain := some ⟨[], [3]⟩ }
     let s : State := { dev with spurs := [p], reqs := [{ aReq with phase := .performed }], pick := pickOf 1 0 false }
     s.spur? s.pick.a = some p ∧ (∀ n ∈ [3], s.outstanding p n = false)) := by decide

/-- Core 0 with a matrix engine. -/
def withMx (m : Matrix) : State := { dev with cores := [(0, { Core.reset with mx := m })], pick := pickOf 0 1 false }
/-- A command with a command word. -/
def aCmd (word : Word) (ops : List Word) : Cmd := { (default : Cmd) with word := word, ops := ops }
/-- A full tile without rows. -/
def fullTile : Tile := { Tile.empty with full := true, addrs := List.replicate 32 none, consumers := 1 }

/-- `MatrixHappenings`: a rule to set, an accumulator to zero and to read, a tile whose rows have arrived, pins to
release and pins held too long, a drain, and a sequence that goes on and one that ends. -/
theorem test_meets_Matrices :
    (let m := { Core.reset.mx with queue := [aCmd 0x01 [0x80]] }
     (withMx m).heldAt 0 = false ∧ ((withMx m).mx 0).canSetRule (bitsAt (aCmd 0x01 [0x80]).word 4 6) (mxRuleOf 0x80) = true ∧
       bitsAt (aCmd 0x01 []).word 0 4 = 1 ∧ bitsAt (aCmd 0x32 []).word 0 4 = 2 ∧ bitsAt (aCmd 0x33 []).word 0 4 = 3 ∧
       (Core.reset.mx).opPending 3 = false ∧ NoStorageError (withMx m) ∧ NoReadError (withMx m)) ∧
    (let m := { Core.reset.mx with
       tiles := Core.reset.mx.tiles.setIfInBounds 1 { Tile.empty with loading := true, arrived := 0xFFFFFFFF }
       rules := Core.reset.mx.rules.setIfInBounds 0 ⟨true, 0, 1, 0⟩ }
     (m.tile 1).arrived = 0xFFFFFFFF ∧ m.consumersOf 1 ≠ 0 ∧ (m.tile 2).full = false ∧ (m.tile 2).loading = false) ∧
    (let p : Pin := ⟨0, 5, 0, 1, 0⟩
     let m := { Core.reset.mx with tiles := Core.reset.mx.tiles.setIfInBounds 1 fullTile }
     let s : State := { withMx m with timeNs := 476626, pins := [p] }
     s.pins = [] ++ p :: [] ∧ p.cluster = s.pick.a ∧ ((s.mx p.core).tile p.tile).active = true ∧ p.since + 2 ^ 20 ≤ s.clusterSteps s.pick.a) ∧
    (let m := Core.reset.mx
     (m.tile 1).full = false ∧ (m.tile 1).loading = false ∧ m.draining = none ∧ m.seq = none ∧ m.accBad.getLsbD 3 = false) ∧
    (let d : MxDrain := ⟨aCmd 0x04 [], 2, 0⟩
     let m := { Core.reset.mx with drains := [d] }
     (withMx m).drainOpen d = false ∧ d.scope.toNat < 3 ∧
       (∀ q ∈ (withMx m).reqs, q.elem = d.cmd.elem → q.kind.writes = true → q.phase = .landed) ∧
       ∀ q ∈ (withMx m).replayed, q.elem ≠ d.cmd.elem) ∧
    (let q : Seq := ⟨aCmd 0x07 [], false, [], 0, 1000, false⟩
     q.issued = true ∧ (∀ n, n < q.n → (Core.reset.mx).opPending n = false) ∧ q.kb + 1 ≠ q.nk ∧
       ({ q with stop := true } : Seq).stop = true ∧ (withMx Core.reset.mx).heldAt 0 = false) :=
  ⟨by decide, by decide, by decide +kernel, by decide, by decide, by decide⟩

/-! ### Happenings: islands -/

/-- A binding: vertices at 0x30000, indices at 0x40000, instances at 0x50000, visibility at 0x60000, bins at 0x70000,
16 by 16 pixels of one sample, of a mode. -/
def aBinding (mode : Byte) : List Byte :=
  (((((((((((((List.replicate 128 0).set 0x02 3).set 0x0A 4).set 0x12 5).set 0x1A 6).set 0x22 7).set 0x29 0x10).set 0x2C 16).set
    0x2F 1).set 0x30 16).set 0x32 16).set 0x34 16).set 0x38 mode).set 0x3A 2
/-- The memory of `dev` with the triangle (0, 0), (16, 0), (0, 16). -/
def drawMem : Memory :=
  Memory.writeN (Memory.writeN [(0, 0x1F)] 0x30000
    ((List.replicate 12 0 ++ [0, 0, 0x80, 0x3F]) ++ ([0, 0, 0x80, 0x41] ++ List.replicate 8 0 ++ [0, 0, 0x80, 0x3F]) ++
      (List.replicate 4 0 ++ [0, 0, 0x80, 0x41] ++ List.replicate 4 0 ++ [0, 0, 0x80, 0x3F])))
    0x40000 [0, 0, 0, 0, 1, 0, 0, 0, 2, 0, 0, 0]
/-- An open draw of one primitive. -/
def aDraw (mode : Byte) : Raster := { (default : Raster) with isOpen := true, block := aBinding mode }
/-- Cluster 0 with a raster island. -/
def withRaster (r : Raster) : State :=
  { dev with clusters := [(0, { Cluster.reset with raster := r })], mem := drawMem, pick := pickOf 0 0 false }
/-- The vertices as they are read. -/
def aTriangle : List Vertex := [⟨0, 0, 0, 0x3F800000, []⟩, ⟨4096, 0, 0, 0x3F800000, []⟩, ⟨0, 4096, 0, 0x3F800000, []⟩]

/-- That triangle binned, its setup at an empty place. -/
def aBinned : Binned := ⟨0, aTriangle, 0, []⟩

/-- Whether a result is a value. -/
def gives {ε α : Type} [DecidableEq α] (x : Except ε α) (y : α) : Bool :=
  match x with
  | .ok a => decide (a = y)
  | .error _ => false
theorem ok_eq {ε α : Type} [DecidableEq α] (x : Except ε α) (y : α) (h : gives x y = true) : x = .ok y := by
  cases x with
  | ok a => exact congrArg _ (of_decide_eq_true h)
  | error e => cases h

/-- `RasterHappenings`: a draw to bin; a pixel of a visibility draw and one of a fragment draw; a ticket that is skipped
and one that is blended; a flush of a draw of which nothing is left; an attribute request without a primitive. -/
theorem test_meets_Raster :
    (let s := withRaster (aDraw 0)
     let r := rasterAt s
     s.heldAt 0 = false ∧ r.next = r.last ∧ s.readPrimitive 0 r.block r.inst.toNat r.next = .ok (some aTriangle) ∧
       r.used + (64 + 8 * (tilesOf r.block aTriangle).length) ≤ fieldAt r.block 0x28 4 ∧ s.pins = [] ∧ NoStorageError s ∧ s.pick.c ≠ 3 ∧
       ∃ ps, s.writePieces 0 (fieldAt r.block 0x20 8 + r.used) (64 + 8 * (tilesOf r.block aTriangle).length) = .ok ps) ∧
    (let s := withRaster { aDraw 0 with next := 1, binned := [aBinned], flushing := true }
     let r := rasterAt s
     NoStorageError s ∧ r.tile < gbTilesX r.block * gbTilesY r.block ∧ r.binned[r.entry]? = some aBinned ∧
       r.tile ∈ tilesOf r.block aTriangle ∧ s.setupOf 0 aBinned = .ok (some aTriangle) ∧
       s.nextPixel 0 r.block (some aTriangle) r.tile (1024 - r.pixel) r.pixel = .ok (some (0, [(0, 0)])) ∧ gbMode r.block = 0 ∧
       (match s.visUpdate 0 0 r.block r.inst.toNat 0 0 0 [(0, 0)] with
         | .ok (some _) => true
         | _ => false) = true) ∧
    (let s := withRaster { aDraw 1 with next := 1, binned := [aBinned], flushing := true }
     gbMode (rasterAt s).block ≠ 0 ∧ (rasterAt s).tickets.length < 1024) ∧
    (let c := aCmd 0 [0x80000000]
     (rasterAt (withRaster { aDraw 1 with tickets := [⟨0, 0, 1, some c⟩] })).tickets = ⟨0, 0, 1, some c⟩ :: [] ∧
       (c.ops.getD 0 0).getLsbD 31 = true ∧ NoStorageError (withRaster { aDraw 1 with tickets := [⟨0, 0, 1, some c⟩] })) ∧
    (let c := aCmd 0 [0, 0, 0, 0, 0]
     let s := withRaster { aDraw 1 with tickets := [⟨0, 0, 1, some c⟩] }
     (c.ops.getD 0 0).getLsbD 31 = false ∧
       (match s.blendSamples 0 0 (aBinding 1) 0 0 (c.ops.drop 1) ((List.range 4).filter fun i => (1 : BitVec 4).getLsbD i) with
         | .ok (some _) => true
         | _ => false) = true) ∧
    (let r := { aDraw 0 with next := 1, flush := some (aCmd 0x15 []) }
     r.last < r.next ∧ r.binned = [] ∧ r.flushing = false ∧ r.tickets = [] ∧ (gbScope r.block).toNat < 3 ∧
       (∀ q ∈ (withRaster r).earlierWrites
           { (aCmd 0x15 []).toReq (withRaster r).nextId with rel := true, scope := gbScope r.block }, q.phase = .landed) ∧
       ∀ q ∈ (withRaster r).replayed, q.elem ≠ (aCmd 0x15 []).elem) ∧
    (let c := aCmd 0 [0x10000, 0, 0xFFFFFFFF, 0xFFFFFFFF]
     let s : State := { withRaster { aDraw 0 with attrs := [c] } with mem := Memory.writeN [(0, 0x1F)] 0x10000 (aBinding 0) }
     NoStorageError s ∧ s.readBinding 0 (baseOf c.ops) = .ok (aBinding 0) ∧ s.visAttr c = .ok [0xFFFFFFFF]) :=
  ⟨⟨by decide, by decide, ok_eq _ _ (by decide +kernel), by decide, rfl, by decide, by decide, ok_of _ (by decide +kernel)⟩,
   ⟨by decide, by decide, by decide, by decide, ok_eq _ _ (by decide +kernel), ok_eq _ _ (by decide +kernel), by decide,
     by decide +kernel⟩,
   by decide, ⟨by rfl, by decide, by decide⟩, ⟨by decide, by decide⟩, by decide,
   ⟨by decide, ok_eq _ _ (by decide +kernel), ok_eq _ _ (by decide +kernel)⟩⟩

/-- Core 0 with a command at the head of its link to an island. -/
def linkCmd (pos : Nat) (c : Cmd) (x : Cluster) : State :=
  { dev with
    cores := [(0, { Core.reset with islandQ := Core.reset.islandQ.setIfInBounds (pos - 4) [c] })]
    clusters := [(0, x)]
    pick := pickOf 0 (pos - 4) false }
/-- An entry of the weight cache, a binding of it, and a sample in flight. -/
def anEntry : WeightEntry := ⟨0, 0, List.replicate 2048 0, false⟩
def aBound : SamplerSlot := ⟨true, 0, List.replicate 14 0 ++ [1, 0], 0, 0, 0⟩
def aSample : Sample := ⟨{ aCmd 0 [0x7F800000, 0, 0] with dst := .reg 4 }, false, aBound⟩
/-- Cluster 0 with a sampler. -/
def withSampler (p : Sampler) : State :=
  { dev with clusters := [(0, { Cluster.reset with sampler := p })], pick := pickOf 0 0 false }

/-- `IslandsAndSampler`: a flush, an answer and a sample to accept; a table to read; an entry that is dropped and not in
use; a sample of an infinite coordinate. -/
theorem test_meets_Islands :
    (let c := aCmd 0x11 []
     let s := linkCmd 5 c { Cluster.reset with raster := aDraw 0 }
     (s.core 0).queued 5 = c :: [] ∧ s.heldAt 0 = false ∧ bitsAt c.word 0 4 = 1 ∧ (rasterAt s).isOpen = true ∧
       (rasterAt s).cmd.elem = c.elem ∧ (rasterAt s).flush = none ∧ NoStorageError s) ∧
    (let c := aCmd 0 [0]
     let s := linkCmd 6 c { Cluster.reset with raster := { aDraw 1 with tickets := [⟨0, 0, 1, none⟩] } }
     (s.core 0).queued 6 = c :: [] ∧ s.ticketOpen s.pick.a (bitsAt (c.ops.getD 0 0) 0 10) = true) ∧
    (let c := aCmd 3 []
     let s := linkCmd 7 c { Cluster.reset with sampler :=
       { Cluster.reset.sampler with slots := Cluster.reset.sampler.slots.setIfInBounds 0 aBound, weights := [anEntry] } }
     (s.core 0).queued 7 = c :: [] ∧ bitsAt c.word 0 4 = 3 ∧ (samplerAt s).weights = [anEntry] ∧
       (samplerAt s).slots.getD (bitsAt c.word 4 4) ⟨false, 0, [], 0, 0, 0⟩ = aBound ∧ aBound.bound = true ∧
       aBound.table = anEntry.table ∧ aBound.version = anEntry.version) ∧
    (let c := aCmd 0 [0x10000, 0]
     let p := { Cluster.reset.sampler with waiting := [c] }
     let s := withSampler p
     (samplerAt s).waiting = c :: [] ∧ s.heldAt (elemCore c.elem) = false ∧
       (p.weights.filter fun e => !decide (e.table.toNat = bitsAt c.word 4 6 ∧ e.version.toNat = bitsAt c.ext 0 16)) = p.weights ∧
       p.weights.length < 16 ∧ NoStorageError s ∧ ∃ bs, s.engRead (elemCore c.elem) (baseOf c.ops) 2048 = .ok bs) ∧
    (let e := { anEntry with dropped := true }
     let p := { Cluster.reset.sampler with weights := [e] }
     p.weights[0]? = some e ∧ e.dropped = true ∧ (∀ b ∈ p.slots.toList, b.names e = false)) ∧
    (let p := { Cluster.reset.sampler with weights := [anEntry], flight := [aSample] }
     let s := withSampler p
     NoStorageError s ∧ p.flight[0]? = some aSample ∧ p.entry? aSample.slot = some anEntry ∧ s.sampleWords aSample anEntry.bytes = .ok [0x7E00] ∧
       (val32 (aSample.cmd.ops.getD 0 0)).finite = false ∧ byteAt aSample.slot.desc 14 = 1) :=
  ⟨by decide, by decide, ⟨by rfl, by decide, by rfl, by rfl, by decide, by decide, by decide⟩,
   ⟨by rfl, by decide, by rfl, by decide, by decide, ok_of _ (by decide +kernel)⟩, ⟨by rfl, by decide, by decide +kernel⟩,
   ⟨by decide, by rfl, by rfl, ok_eq _ _ (by decide +kernel), by decide, by decide⟩⟩

/-- The block of a ray from (0.25, 0.25, -1) along z, from 0 to 10, with its record kept. -/
def rayBlock : List Byte :=
  [0, 0, 0x80, 0x3E, 0, 0, 0x80, 0x3E, 0, 0, 0x80, 0xBF, 0, 0, 0, 0, 0, 0, 0, 0, 0, 0, 0, 0, 0, 0, 0x80, 0x3F, 0, 0, 0x20, 0x41] ++
    List.replicate 32 0
/-- The triangle (0, 0, 0), (1, 0, 0), (0, 1, 0). -/
def rayLeaf : List Byte :=
  List.replicate 14 0 ++ [0x80, 0x3F] ++ List.replicate 14 0 ++ [0x80, 0x3F] ++ List.replicate 16 0
/-- A request of a kind. -/
def aRay (kind : Nat) : TrReq :=
  { (default : TrReq) with kind := kind, block := rayBlock, fmt := List.replicate 64 0, t1 := 0x41200000 }
/-- Cluster 0 with a request and words for it. -/
def withRay (r : TrReq) (ws : List ChanWord) : State :=
  { dev with
    clusters := [(0, { Cluster.reset with rays := [r], edgeIn := [(edgeKey 4 0, ws)] })]
    mem := Memory.writeN [(0, 0x1F)] 0x30000 rayLeaf
    pick := pickOf 0 0 false }
theorem withRay_traverses (r : TrReq) (ws : List ChanWord) (h : r.ticket = 0) (g : r.cmd.elem = 0) : Traverses (withRay r ws) r := by
  refine ⟨?_, ?_⟩
  · simp [State.ray?, withRay, State.cluster, Assoc.find, h]
  · rw [g]; rfl

/-- `TraversalHappenings`: an empty stack, an entry beyond the hit, a user leaf, a leaf that is hit, a node, an
overflow, replies to a ray and to a march, cells of a march, and an ended ray whose record is kept and one that is
written. -/
theorem test_meets_Traversal :
    (Traverses (withRay (aRay 1) []) (aRay 1) ∧ (aRay 1).stack = [] ∧ Traverses (withRay (aRay 2) []) (aRay 2) ∧
      NoStorageError (withRay (aRay 1) [])) ∧
    flt32 (aRay 1).t1 0x42000000 = true ∧ flt32 (aRay 1).t1 0 = false ∧
    fmtLeaf (((aRay 1).fmt).set 0x0A 3) = 3 ∧
    ((withRay (aRay 1) []).nodeRead 0 0x30000 (fmtLeafSize (aRay 1).fmt) = .bytes rayLeaf ∧
      (∃ h, hitLeaf (aRay 1).ray (fmtLeaf (aRay 1).fmt) rayLeaf = some h) ∧ (aRay 1).status ≠ 1) ∧
    ((withRay (aRay 1) []).nodeRead 0 0x20000 (fmtNodeSize (aRay 1).fmt) = .bytes (List.replicate 32 0) ∧
      (aRay 1).rayChildren (List.replicate 32 0) 0 = [] ∧ 64 < (List.replicate 65 ((0 : Nat), (0 : Word), (0 : Nat), false)).length) ∧
    (let r := { aRay 1 with state := .waiting, asked := some (0x30000, 0, 0, true) }
     let s := withRay r [⟨0x42000000, 0, 0⟩, ⟨7, 3, 0⟩]
     Traverses s r ∧ replies s r = ⟨0x42000000, 0, 0⟩ :: ⟨7, 3, 0⟩ :: [] ∧
       (fle32 r.ray.t0 0x42000000 && fle32 0x42000000 r.t1) = false) ∧
    (let r := { aRay 3 with ahead := 1 }
     Traverses (withRay r [⟨1, 3, 0⟩]) r ∧ replies (withRay r [⟨1, 3, 0⟩]) r = ⟨1, 3, 0⟩ :: [] ∧ 0 < r.ahead ∧
       replies (withRay r [⟨0, 3, 0⟩]) r = ⟨0, 3, 0⟩ :: []) ∧
    (let b := (((((rayBlock.set 0x20 4).set 0x22 4).set 0x24 4).set 0x26 2).set 0x2A 0x80).set 0x2B 0x3F
     let r := { aRay 3 with block := b, moving := true }
     r.ahead < r.window ∧ ∃ out, r.lattice.exit r.ray r.cell = some out) ∧
    (let r := { aRay 1 with state := .ended, res := some (aCmd 0 []) }
     Traverses (withRay r []) r ∧ r.resultAt = 0) ∧
    (let r := { aRay 1 with state := .ended, block := rayBlock.set 0x2A 2 }
     let s := withRay r []
     Traverses s r ∧ r.resultAt = 0x20000 ∧ (∃ ps, s.writePieces 0 r.resultAt 32 = .ok ps) ∧ s.pins = [] ∧
       ∃ u, s.engWrite 0 r.resultAt (r.record s.tick) 2 = .ok u) :=
  ⟨⟨withRay_traverses _ _ rfl rfl, rfl, withRay_traverses _ _ rfl rfl, by decide⟩, by decide, by decide, by decide,
   ⟨by decide +kernel, Option.isSome_iff_exists.mp (by decide +kernel), by decide⟩, ⟨by decide +kernel, by decide, by decide⟩,
   ⟨withRay_traverses _ _ rfl rfl, by rfl, by decide⟩, ⟨withRay_traverses _ _ rfl rfl, by rfl, by decide, by rfl⟩,
   ⟨by decide, Option.isSome_iff_exists.mp (by decide +kernel)⟩, ⟨withRay_traverses _ _ rfl rfl, by decide⟩,
   ⟨withRay_traverses _ _ rfl rfl, by decide, ok_of _ (by decide +kernel), rfl, ok_of _ (by decide +kernel)⟩⟩

/-! ### Happenings: chains, the host, the operating point and the fabric -/

/-- A record of a type and its chain: one stage whose table stands at 0x30000, with one spur of one core. -/
def qRecord (typ : Byte) : List Byte := ((aRecord.set 0x00 typ).set 0x04 1).set 0x12 3
def qMem (typ : Byte) : Memory :=
  Memory.writeN (Memory.writeN (Memory.writeN [(0, 0x1F)] 0x20000 (qRecord typ)) 0x30000 [0, 0, 4, 0, 0, 0, 0, 0, 1])
    0x40000 [0, 0, 5, 0, 0, 0, 0, 0, 128, 0, 0, 0, 1, 1]
/-- A started device without chains whose launch queue 0 holds one record at 0x20000. -/
def queued (typ : Byte) : State :=
  { State.reset with regs := [(0x294, 1), (0x295, 1), (0x2C0, 0x20000), (0x300, 1)], mem := qMem typ }
/-- A chain that waits. -/
def waiting : Chain := { (default : Chain) with ident := 5, record := qRecord 1 }
/-- The device with a chain and nothing else. -/
def withChain (c : Chain) : State :=
  { State.reset with regs := [(0x295, 1)], mem := qMem 1, chains := [c], pick := pickOf c.ident 0 true }

/-- `ChainHappenings`: records of both types; a chain that has waited, one that is placed, one with nothing to fetch,
one to start; spurs that are done in the last stage, in another, and in a deterministic chain. -/
theorem test_meets_Chains :
    ((queued 2).started = true ∧ ((queued 2).preg 0x295).getLsbD 3 = false ∧ ((queued 2).tableOf (queued 2).pick.a).length < 256 ∧
      0 < (queued 2).lqFill 0 ∧ ∀ j, j < 16 → 0 < j → (queued 2).lqFill j = 0) ∧
    (fieldAt (headRecord (queued 2) 0) 0 2 = 2 ∧ fieldAt (headRecord (queued 1) 0) 0 2 = 1 ∧
      let u := (queued 1).setPreg 0x2F0 1
      let c := u.newChain 0 (headRecord (queued 1) 0)
      ({ u.bump with chains := u.chains ++ [c] } : State).checkChain 0 c = none) ∧
    (let s : State := { withChain waiting with timeNs := 4000000 }
     s.chain? s.pick.a = some waiting ∧ waiting.waitNs + 4000000 ≤ s.timeNs.toNat) ∧
    ((withChain waiting).turnOf waiting = true ∧ (∃ ws, (withChain waiting).stageWants waiting = .ok ws) ∧
      (match (withChain waiting).stageWants waiting with
        | .ok ws => ((withChain waiting).placeAll 5 0 ws []).isSome
        | .error _ => false) = true) ∧
    (let c := { waiting with phase := .placed }
     (withChain c).chain? (withChain c).pick.a = some c ∧ c.saved = [] ∧ (withChain c).fetchImages c = .ok [] ∧
       ((withChain c).loadSpurs c [] c.stage).2 = none) ∧
    (let c := { waiting with phase := .fetched }
     (withChain c).chain? (withChain c).pick.a = some c ∧ c.debugHold = false ∧ c.frozen = false ∧ c.replays = []) ∧
    (let p := { aSpur with phase := .halted }
     let last := { aChain with record := aRecord.set 0x04 1 }
     let s : State := { dev with spurs := [p], chains := [last], pick := pickOf 1 0 false }
     let more : State := { s with chains := [{ last with record := aRecord.set 0x04 2 }] }
     s.spur? s.pick.a = some p ∧ s.chain? p.chain = some last ∧ s.spurDone p = true ∧ last.flagD = false ∧
       (∀ q ∈ (s.completeSpur p).spursOf 1, q.phase = .complete) ∧ last.stage + 1 = last.stageCount ∧
       (∀ q ∈ (more.completeSpur p).spursOf 1, q.phase = .complete)) ∧
    (let p := { aSpur with phase := .complete, stage := 0 }
     let c := { aChain with record := (aRecord.set 0x03 1).set 0x04 2 }
     let s : State := { dev with spurs := [p], chains := [c], pick := pickOf 1 0 false }
     s.spur? s.pick.a = some p ∧ s.chain? p.chain = some c ∧ c.flagD = true ∧ s.regionDrained p = true ∧
       p.stage + 1 < c.stageCount) :=
  ⟨by decide, by decide +kernel, ⟨by rfl, by decide⟩, ⟨by decide +kernel, ok_of _ (by decide +kernel), by decide +kernel⟩,
   ⟨by rfl, rfl, by rfl, by decide⟩, ⟨by rfl, by decide⟩, ⟨by rfl, by rfl, by decide⟩, ⟨by rfl, by rfl, by decide⟩⟩

/-- A resume record for chain 5 with an action, behind the number of its queue. -/
def aResume (action : Byte) : List Byte := 0 :: (((List.replicate 256 0).set 0x00 2).set 0x03 action).set 0x08 5

/-- `FreezesAndEnds`: a chain to freeze, one that a debugger holds, one to reload, records of each action, a stuck
regulator. -/
theorem test_meets_Freezes :
    ((withChain waiting).chain? (withChain waiting).pick.a = some waiting ∧ (withChain waiting).pick.flag = true) ∧
    (let c := { waiting with phase := .started, debugHold := true }
     let s : State := { withChain c with pick := pickOf 5 0 false }
     s.chain? s.pick.a = some c ∧ c.frozen = false ∧ (∀ r ∈ s.reqs, ∀ j a, r.kind ≠ .colReq j a) ∧ s.ridgeAtRest c = true) ∧
    (let c := { waiting with phase := .placed, saved := [(0, 0, 0)] }
     (withChain c).chain? (withChain c).pick.a = some c ∧ c.saved ≠ [] ∧ (withChain c).fetchImages c = .ok [] ∧ (withChain c).pins = []) ∧
    (let c := { waiting with phase := .held }
     let s : State := { withChain c with resumes := [aResume 0, aResume 1], pick := pickOf 0 0 false }
     s.resumes[s.pick.a]? = some (aResume 0) ∧ s.chain? (fieldAt ((aResume 0).drop 1) 8 8) = some c ∧
       resumeOk (byteAt (aResume 0) 0) ((aResume 0).drop 1) = true ∧ byteAt ((aResume 0).drop 1) 3 = 0 ∧
       ((({ s with resumes := s.resumes.eraseIdx s.pick.a } : State).forgetLeases c.ident).repair c).2 = true ∧
       resumeOk (byteAt (aResume 1) 0) ((aResume 1).drop 1) = true ∧ byteAt ((aResume 1).drop 1) 3 = 1 ∧
       byteAt ((aResume 2).drop 1) 3 = 2) ∧
    (let s : State := { dev with regs := [(0x3CF, 0x28201919)], timeNs := 1000000, pick := pickOf 95 0 false }
     bitsAt (s.preg (0x370 + s.pick.a)) 16 6 ≠ bitsAt (s.preg (0x370 + s.pick.a)) 8 6 ∧
       (s.cluster s.pick.a).movedNs + 1000000 ≤ s.timeNs.toNat ∧ s.clusterOn s.pick.a = true) :=
  ⟨⟨by rfl, rfl⟩, ⟨by rfl, rfl, (fun r h => nomatch h), by rfl⟩, ⟨by rfl, by decide, by rfl, by rfl⟩,
   ⟨by rfl, by rfl, by decide +kernel⟩, by decide⟩

/-- `RegisterWrites`: a device started and not, a queue that holds a record and an empty one, an invalidation, registers
of each group. -/
theorem test_meets_Registers :
    (queued 1).started = true ∧ dev.started = false ∧ (queued 1).lqHead (0x2C0 % 16) ≠ (queued 1).lqTail (0x2C0 % 16) ∧
    dev.lqHead (0x2EF % 16) = dev.lqTail (0x2EF % 16) ∧ bitsAt 41 0 6 > 40 ∧ bitsAt 40 0 6 ≤ 40 ∧
    bitsAt 1 0 17 < 2 * dev.lqSize 0 ∧ (bitsAt 16 0 17 + 2 * dev.lqSize 0 - dev.lqHead 0) % (2 * dev.lqSize 0) = dev.lqSize 0 := by
  decide

/-- `HostAndReset`: the greatest addresses, and an element whose handler is active. -/
theorem test_meets_Host :
    (let s : State := { dev with pick := ⟨640 * 2 ^ 30 - 1, 0, 0, false, [7], []⟩ }
     MemoryInv s ∧ s.cells = [] ∧ s.pick.a + s.pick.bytes.length ≤ 640 * 2 ^ 30) ∧
    (let s : State := { dev with pick := ⟨2 ^ 43 - 1, 0, 0, false, [7], []⟩ }
     MemoryInv s ∧ s.pins = [] ∧ s.pick.a + s.pick.bytes.length ≤ 2 ^ 43) ∧
    (let s : State := { dev with elems := [(0, { Elem.reset with role := .used, active := some ⟨0, 0, 3⟩ })] }
     s.pick.a < elemCount ∧ s.walk = none ∧ (s.elem s.pick.a).beat = none ∧ s.running (elemCore s.pick.a) = true ∧
       (s.elem s.pick.a).role = .used ∧ (s.elem s.pick.a).active = some ⟨0, 0, 3⟩ ∧
       ∀ i, (s.elem s.pick.a).owed.getLsbD i = false) :=
  ⟨⟨⟨by rfl, by rfl⟩, rfl, by decide⟩, ⟨⟨by rfl, by rfl⟩, rfl, by decide⟩,
   ⟨by decide, rfl, by decide, by decide, by decide, by decide, fun i => by
     show (0 : BitVec 32).getLsbD i = false
     simp⟩⟩

/-- `OperatingPoint`: a regulator off its target, an observer's chain, a massif without a period, a lease at its end. -/
theorem test_meets_OperatingPoint :
    (let s : State := { dev with regs := [(0x3CF, 0x28201919)] }
     bitsAt (s.preg (0x370 + 95)) 8 6 ≠ bitsAt (s.preg (0x370 + 95)) 16 6) ∧
    (let s : State := { dev with chains := [{ aChain with ident := 0xFFFFFFFFFFFFFFF3 }] }
     (s.chain? (0xFFFFFFFFFFFFFFF0 + 3)).isSome = true) ∧
    (let s : State := { queued 1 with timeNs := 1000000 }
     s.started = true ∧ (s.cluster (24 * 3)).observedNs + 1000000 ≤ s.timeNs.toNat) ∧
    (let l : Lease := ⟨0, 1, 1, 32, 1000⟩
     let s : State := { dev with clusters := [(0, { Cluster.reset with lease := some l })], timeNs := 1000 }
     (s.cluster s.pick.a).lease = some l ∧ l.endNs ≤ s.timeNs.toNat) := by decide

/-- `MonitoringHappenings`: a spur that has moved nothing for a period, an element in use, a chain without a free
record, a countdown that has run out. -/
theorem test_meets_Monitoring :
    (let s : State := { dev with timeNs := 29790 }
     let p := { aSpur with seen := some (0, s.glance aSpur) }
     let t : State := { s with spurs := [p], pick := pickOf 1 0 false }
     t.spur? t.pick.a = some p ∧ t.quiescent p = true) ∧
    (let s : State := { dev with elems := [(0, { Elem.reset with role := .used, countdown := some 0 })] }
     s.spurAt (elemCore s.pick.a) = some aSpur ∧ s.chain? aSpur.chain = some aChain ∧ s.pick.flag = false ∧
       (s.elem s.pick.a).role = .used ∧ s.recordFree aChain aChain.faults = true ∧ (s.elem s.pick.a).countdown = some 0) ∧
    dev.recordFree { aChain with faults := 2 } 2 = false :=
  ⟨by decide +kernel, by decide, by decide⟩

/-- A started device with one queue pair, valid, with its entry at 0x20000 and its port 31 of cluster 0, which grants
[0x30000, 0x31000) to key 7 for both accesses. -/
def qpDev (status : Byte) (p : Qp) (ws : List ChanWord) : State :=
  { dev with
    regs := [(0x294, 1), (0x3F0, 0x20000), (0x3F2, 1)]
    mem := Memory.writeN [(0, 0x1F)] 0x20000 ((((((List.replicate 256 0).set 0 status).set 3 31).set 0x62 3).set 0x69 0x10).set 0x70 7 |>.set 0x74 3)
    qps := [(0, p)]
    clusters := [(0, { Cluster.reset with ports := Cluster.reset.ports.setIfInBounds 31 ws })] }

/-- The same to the port 31 of a queue pair, which has room for one word. -/
def exPort : List Byte := ((exBlock.set 0x05 2).set 0x10 31).set 0x12 0
/-- `CopiesAndDeliveries`: the first word of a chunk lands at a stream port, the others wait. -/
theorem test_meets_PortChunk :
    let f := { aFiring with n := 0 }
    let s : State := { qpDev 1 default (List.replicate 15 ⟨0, 0, 0⟩) with
      cores := (withCt ⟨1, exPort, 0, 1, 0, false, some f, 0⟩).cores }
    let d := { (default : Delivery) with ct := 1, chunk := true, bytes := List.replicate 64 1 }
    tbKind exPort = 5 ∧ d.bytes.length = fieldAt exPort 0x30 4 ∧ d.rank < fieldAt exPort 0x34 2 ∧
    s.armedAt 0 1 = true ∧ s.heldAt 0 = false ∧ s.pick.c ≠ 3 ∧
    (match s.landChunk d exPort f with
      | .ok (some (_, m)) => decide (m = 4)
      | _ => false) = true := by decide +kernel

/-- `FabricHappenings`: a port to train, a peer access under way, a queue pair that runs with a word at its port, a
range that grants, one that is to stop and one to start again, and a converter link with a whole group. -/
theorem test_meets_Fabric :
    (let s : State := { dev with regs := [(0x293, 0x0301)], pick := ⟨143, 0, 0, false, [3, 3], []⟩ }
     bitsAt (s.preg 0x293) 0 8 ≤ min (bitsAt (s.preg 0x293) 8 8) (byteAt s.pick.bytes 0) ∧
       byteAt s.pick.bytes 1 ≤ min (bitsAt (s.preg 0x293) 8 8) (byteAt s.pick.bytes 0) ∧ s.kucor.wf = true) ∧
    (let r := { aReq with pa := some (2 ^ 53) }
     (withReq r).req? (withReq r).pick.a = some r ∧ (2 ^ 53 : Nat) / 2 ^ 52 = 2 ∧
       (withReq r).pick.words.getD 0 0 = 0 ∧ r.kind ≠ .prefetch ∧ (withReq r).beatBehind r = false) ∧
    (let s := qpDev 1 default [⟨5, 3, 0⟩]
     s.qpRuns 0 = true ∧ s.qpPort 0 = (0, 31) ∧ s.portServes 0 31 = false ∧ s.portWords 0 31 = ⟨5, 3, 0⟩ :: [] ∧ fieldAt (s.qpBytes 0) 0x48 4 ≠ 1 ∧
       rangeGrants (s.qpBytes 0) 7 0x30000 0x1000 0 = true ∧ rangeGrants (s.qpBytes 0) 7 0x30FFF 1 1 = true ∧
       s.mem.wf = true ∧ s.scratch.wf = true) ∧
    (let s := qpDev 0 default []
     s.qpExists 0 = true ∧ (s.mem.read (s.qpEntry 0)).getLsbD 0 = false ∧ (s.qp 0).stopped = false) ∧
    (let s := qpDev 1 { (default : Qp) with stopped := true } []
     (s.mem.read (s.qpEntry 0)).getLsbD 0 = true ∧ (s.mem.read (s.qpEntry 0)).getLsbD 2 = false ∧ (s.qp 0).stopped = true) := by
  decide +kernel

/-- `FabricHappenings`: a converter that packs words has a complete group. -/
theorem test_meets_Converter :
    let ws := List.replicate 64 (⟨0, 0, 0⟩ : ChanWord)
    let l : Link := { aLink with sender := .elemOut 0 2, receiver := .edgeIn 0 1 0, conv := some 0, wire := ws }
    let s : State := { dev with links := [l] }
    (s.nodeLinks s.pick.a 1).head? = some (l, 0, 0) ∧ l.pass = [] ∧ (s.cluster s.pick.a).edgeIn.find (edgeKey 1 0) = none ∧
    (∀ m ∈ s.links, m.id = l.id → m = l) ∧
    (match completeGroup 0 l.held.length (s.linkWords l s.pick.a 1 0) with
      | some (xs, ends) => decide (xs.length ≤ l.wire.length) && (match convertGroup 0 l.held xs ends with
        | .ok _ => true
        | .error _ => false)
      | none => false) = true := by decide +kernel

/-- `SignalsSendVectors`: the greatest signal, and a chain that notifies. -/
theorem test_meets_Signals :
    (63 : Nat) < 64 ∧ ({ aChain with record := aRecord.set 0x03 2 } : Chain).notify = true := by decide

/-- `ComputeRulesFrame`: a rule of the first cell and one of the last, ready on a fresh device. -/
theorem test_meets_ComputeFrame :
    (let i := Instr.add ⟨0, false, false, 1, 0, 2⟩
     i.isRule = true ∧ i.view.cellNo ≤ 0x21 ∧ Fits i (place 0)) :=
  ⟨by decide, by decide, fits_of _ _ (by decide)⟩

/-- `StepKeepsMemoryForm`: a state with memory listed in which a step stores a byte. -/
theorem test_meets_MemoryForm :
    let s : State := { dev with agenda := [(.hostMemWrite, ⟨7, 0, 0, false, [9], []⟩)] }
    MemoryInv s ∧ ∃ t, step s = .next t ∧ t.mem = [(0, 0x1F), (7, 9)] := ⟨⟨by rfl, by rfl⟩, _, rfl, rfl⟩

/-! ### Premises with an order, and clauses of later statements -/

/-- A memory form's fields in scratch space, of count 2 by its guard, at the address in `d2`. -/
abbrev scratchM (c : Code) : MOp := ⟨0, false, false, c, 2, 1, 0, 0⟩
/-- Element 12 whose guard 0 counts two beats, with an address 2 bytes below the end of the scratch space in `d2`. -/
def twoBeats : State :=
  { place 12 with elems := [(12, { Elem.reset.setReg 2 0x7FFFFE with guards := Elem.reset.guards.setIfInBounds 0 0x80 })] }

theorem firstFault_two {f : Nat → Option (Nat × Nat)} {x y : Nat} (h0 : f 0 = some (0x12, x)) (h1 : f 1 = some (0x13, y)) :
    FirstFault f 2 1 0x13 y := by
  refine ⟨by decide, h1, fun b u v hb h => ?_, fun b v hb h => ?_⟩
  · match b, hb with
    | 0, _ => rw [h0] at h; cases h; decide
    | 1, _ => rw [h1] at h; cases h; decide
  · match b, hb with
    | 0, _ => rw [h0] at h; cases h

/-- `RuleFaultsTaken`: two beats meet different codes, and the first code in order is that of the second beat. -/
theorem test_meets_FirstFault :
    (let o := scratchM 4
     Fits (.ld o 2) twoBeats ∧ twoBeats.countOf (Instr.ld o 2).view = 2 ∧
       FirstFault (fun b => twoBeats.addrFault o.space (twoBeats.ea ⟨o, 4, memDemand o []⟩ b b) 4 (some true)) 2 1 0x13 0x800002) ∧
    (let o := scratchM 4
     Fits (.st o 2) twoBeats ∧ twoBeats.countOf (Instr.st o 2).view = 2 ∧
       FirstFault (fun b => twoBeats.addrFault o.space (twoBeats.ea ⟨o, 4, memDemand o [(4, 1)]⟩ b b) 4 (some false)) 2 1 0x13
         0x800002) ∧
    (let o := scratchM 16
     Fits (.ldblk o) twoBeats ∧ twoBeats.countOf (Instr.ldblk o).view = 2 ∧
       FirstFault (fun b => twoBeats.addrFault o.space (twoBeats.ea ⟨o, 64, memDemand o []⟩ b b) 64 none) 2 1 0x13 0x80003E) ∧
    (let o := scratchM 20
     Fits (.stblk o) twoBeats ∧ twoBeats.countOf (Instr.stblk o).view = 2 ∧
       FirstFault (fun b => twoBeats.addrFault o.space (twoBeats.ea ⟨o, 64, memDemand o [(20, 16)]⟩ b b) 64 none) 2 1 0x13
         0x80003E) ∧
    (let s := withReg 12 3 0x800000
     Fits (.pref (plainM 4)) s ∧ s.countOf (Instr.pref (plainM 4)).view = 1 ∧
       s.addrFault 0 (s.ea ⟨plainM 4, 1, memDemand (plainM 4) []⟩ 0 0) 1 none = some (0x10, 2 ^ 55)) :=
  ⟨⟨fits_of _ _ (by decide), by decide, firstFault_two (x := 0x7FFFFE) (by decide) (by decide)⟩,
   ⟨fits_of _ _ (by decide), by decide, firstFault_two (x := 0x7FFFFE) (by decide) (by decide)⟩,
   ⟨fits_of _ _ (by decide), by decide, firstFault_two (x := 0x7FFFFE) (by decide) (by decide)⟩,
   ⟨fits_of _ _ (by decide), by decide, firstFault_two (x := 0x7FFFFE) (by decide) (by decide)⟩,
   ⟨fits_of _ _ (by decide), by decide, by decide⟩⟩

/-- `OrderRepair`: a domain whose watermark has risen beyond the view of a slice. -/
theorem test_meets_Rise :
    let d := { aDomain with rises := [2, 5], views := [(7, 2)] }
    let s : State := { dev with domains := [d], pick := pickOf 0x40000 7 false }
    s.domain? s.pick.a = some d ∧ (d.views.find s.pick.b).getD 0 = 2 ∧ d.rises = [2] ++ 5 :: [] ∧
    s.pick.b / 256 = sliceOf d.record / 256 ∧ s.pick.b ∉ d.cut := by decide

/-- `LoadsBindStoresLand`, `CopyFreedoms`: a cluster's L2 slice with room, and the boundary of a full one. -/
theorem test_meets_HasRoom : HasRoom dev 95 (2 ^ 52 - 64) 64 := by unfold HasRoom; decide

/-- `MatrixHappenings`: a drain and a read of an accumulator that holds no mark. -/
theorem test_meets_DrainCommand :
    let m := { Core.reset.mx with queue := [aCmd 0x34 []] }
    (withMx m).heldAt 0 = false ∧ ((withMx m).mx 0).queue = aCmd 0x34 [] :: [] ∧ bitsAt (aCmd 0x34 []).word 0 4 = 4 ∧
    bitsAt (aCmd 0x34 []).word 4 6 = 3 ∧ ((withMx m).mx 0).opPending 3 = false ∧ ((withMx m).mx 0).accBad.getLsbD 3 = false ∧
    (withMx m).pick.c ≠ 1 ∧ (withMx m).pick.c ≠ 2 := by decide

/-- `RegisterWrites`: a read and a write through BAR0 of each kind. -/
theorem test_meets_Bar0 :
    (⟨0x801, 4, 1, true, [], []⟩ : Pick).a % 4096 % 4 ≠ 0 ∧ (0x7FC : Nat) % 4 = 0 ∧ (0x7FC : Nat) < 0x800 ∧
    (0x800 : Nat) ≤ 0xFFC ∧ (0xFFC : Nat) % 4096 % 4 = 0 ∧ ({ dev with pick := ⟨0xFFC, 4, 0, true, [], []⟩ } : State).pick.c ≠ 1 := by
  decide

/-- `MonitoringHappenings`: a spur looked at for the first time, room for its records, a parity error with room and
without, and a countdown that goes on. -/
theorem test_meets_Monitoring_first :
    (let s : State := { dev with pick := pickOf 1 0 false }
     s.spur? s.pick.a = some aSpur ∧ s.quiescent aSpur = false ∧ aSpur.seen = none ∧ s.chain? aSpur.chain = some aChain ∧
       s.recordFree aChain (aChain.faults + aSpur.cores.length) = true ∧ aChain.system = false) ∧
    (let c := { aChain with faults := 2 }
     let s : State := { dev with chains := [c] }
     s.spurAt (elemCore s.pick.a) = some aSpur ∧ s.chain? aSpur.chain = some c ∧ s.recordFree c c.faults = false) ∧
    (let s : State := { dev with elems := [(0, { Elem.reset with countdown := some 1 })] }
     (s.elem s.pick.a).countdown = some (0 + 1) ∧ (s.elem s.pick.a).role ≠ .used) := by decide

/-! ### Clauses of the statements about requests, copies and barriers -/

/-- `LinksAndLateResults`: a result for a register pair, one for two reserved slots, and one that another's slot stands
before. -/
theorem test_meets_LateResults :
    (let r := { aReq with phase := .answered, value := [9, 8], dst := .pair 14 }
     Concerns (withReq r) r ∧ (withReq r).answer? r = some [9, 8] ∧ (withReq r).pick.c ≠ 3) ∧
    (let r := { aReq with phase := .answered, value := [9, 8], dst := .out 3 [6, 7] }
     let s : State := { withReq r with
       elems := [(0, { Elem.reset with out := Elem.reset.out.setIfInBounds 3 ⟨some 7, 3, [.hole 6 1, .hole 7 3]⟩ })] }
     Concerns s r ∧ s.answer? r = some [9, 8] ∧
       ((s.elem r.elem).outCh 3).stage = ([6, 7].zip [(1 : Tag), 3]).map (fun x => .hole x.1 x.2) ∧
       ((s.elem r.elem).outCh 3).link = some 7) ∧
    (let r := { aReq with phase := .answered, value := [9], dst := .out 3 [7] }
     let s : State := { withReq r with
       elems := [(0, { Elem.reset with out := Elem.reset.out.setIfInBounds 3 ⟨some 7, 3, [.hole 6 1, .hole 7 3]⟩ })] }
     Concerns s r ∧ s.answer? r = some [9] ∧ ((s.elem r.elem).outCh 3).stage = [.hole 6 1, .hole 7 3]) :=
  ⟨⟨by rfl, by rfl, by decide⟩, ⟨by rfl, by rfl, by decide, by decide⟩, ⟨by rfl, by rfl, by decide⟩⟩

/-- `Translation`: peer memory of the own package and of another. -/
theorem test_meets_PeerLeaf :
    bitsAt ((leafEntry 2 0).extractLsb' 0 32) 8 2 = 2 ∧ 0 / 2 ^ 43 = dev.podId ∧ 2 ^ 43 / 2 ^ 43 ≠ dev.podId ∧
    (2 ^ 43 + 5 : Nat) % 2 ^ 43 < 640 * 2 ^ 30 := by decide

/-- `AtomicsAtHome`: an atomic of a wide scope over a dirty copy, and one of a narrow scope in the copies. -/
theorem test_meets_AtomicsInCopies :
    let r (scope : BitVec 3) : Req := { aReq with kind := .amo .add false, ops := [1], scope := scope }
    let s (scope : BitVec 3) : State := { withReq (r scope) with copies := [(copyKey 0 64, ⟨9, true⟩)] }
    (Concerns (s 3) (r 3) ∧ Plain (r 3) ∧ Unmarked (s 3) ∧ MemoryInv (s 3) ∧ NoReadError (s 3) ∧ (r 3).size = 4 ∧
      ((s 3).copies.map (·.1)).Nodup) ∧
    (Concerns (s 0) (r 0) ∧ (r 0).atHome = false ∧ (r 0).policy ≠ 2 ∧ (r 0).scope.toNat < 3 ∧ HasRoom (s 0) 0 64 4) :=
  ⟨⟨by rfl, ⟨rfl, rfl, rfl⟩, ⟨rfl, rfl, rfl, rfl, rfl⟩, ⟨by rfl, by rfl⟩, by decide, rfl, by decide⟩,
   ⟨by rfl, rfl, by decide, by decide, by unfold HasRoom; decide⟩⟩

/-- `HubHappenings`: a barrier of two spurs that have both arrived, and of one whose region has gone on. -/
theorem test_meets_Barrier :
    let full : BarState := ⟨2, 3, 5, true⟩
    let p := { aSpur with bars := aSpur.bars.setIfInBounds 15 full }
    let q := { p with id := 2, x0 := 1 }
    let c := { aChain with leftBars := [(0, List.replicate 16 ⟨0, 0, 0, false⟩)] }
    let s : State := { dev with chains := [c], spurs := [p, q], pick := pickOf 1 15 false }
    s.chain? s.pick.a = some c ∧ (s.stagesOf s.pick.a)[s.pick.c % (s.stagesOf s.pick.a).length]? = some 0 ∧
    UsesBarrier s 0 p ∧ UsesBarrier s 0 q ∧ (∀ x ∈ s.spurs, x.chain = s.pick.a → 0 ≤ x.stage) ∧
    (∀ x ∈ s.spurs, (x.bars.getD 15 default).reported = true) ∧
    (∀ x ∈ c.leftBars, (x.2.getD 15 default).need ≤ (x.2.getD 15 default).count) ∧ (s.spurs.map (·.id)).Nodup ∧
    (∀ core, ¬(p.covers core = true ∧ q.covers core = true)) ∧
    (let r := { p with bars := aSpur.bars.setIfInBounds 15 ⟨2, 1, 5, false⟩ }
     let t : State := { s with spurs := [r] }
     r ∈ t.spurs ∧ (t.stagesOf t.pick.a)[t.pick.c % (t.stagesOf t.pick.a).length]? = some r.stage ∧ UsesBarrier t r.stage r ∧
       (r.bars.getD 15 default).reported = false) :=
  ⟨by decide, by decide, ⟨rfl, rfl, by decide⟩, ⟨rfl, rfl, by decide⟩, by decide, by decide, by decide, by decide,
   fun core h => by
     have hx : aSpur.x0 = 0 := rfl
     have hw : aSpur.w = 1 := rfl
     simp only [Spur.covers, Bool.and_eq_true, decide_eq_true_eq] at h
     omega,
   by decide, by decide, ⟨rfl, rfl, by decide⟩, by decide⟩

/-- `CopiesAndDeliveries`: a template of a spur that has halted still takes its triggers. -/
theorem test_meets_HaltedTrigger :
    let p := { aSpur with phase := .halted }
    let s : State := { triggered ⟨1, aBlock, 65534, 0, 0, false, none, 0⟩ with spurs := [p] }
    s.running 0 = false ∧ TakesTriggers s 0 :=
  ⟨by decide, .inr ⟨by decide, _, aChain, by rfl, by rfl, by decide, by decide⟩⟩

/-- The page tables of `dev`, with the pages 2 and 3 as pages of 64 KiB that map to themselves. -/
def smallPages : Memory := [(0, 1), (2, 1), (0x10000, 1), (0x10002, 2), (0x20010, 0x1F), (0x20012, 2), (0x20018, 0x1F), (0x2001A, 3)]

/-- Core 0 with a firing of template 1 that has a request. -/
def moving (b : List Byte) (f : Firing) : State :=
  { withCt ⟨1, b, 0, 1, 0, false, some f, 0⟩ with
    reqs := [{ aReq with kind := .copy 0 1, pa := none }]
    pick := pickOf 3 0 false }
theorem moving_at (b : List Byte) (f : Firing) (h : f.faulted = false) : FiringAt (moving b f) 0 1 b f :=
  ⟨_, by rfl, rfl, rfl, by decide, by rfl, by rfl, h, ⟨rfl, rfl, rfl, rfl, rfl⟩, by simp [NoStorageError, moving]⟩
theorem moving_reads (b : List Byte) (f : Firing) (h : f.faulted = false) (e : f.ended = false) :
    FiringReads (moving b f) 0 1 b f := ⟨moving_at b f h, e, by rfl⟩
/-- A port with words for it. -/
def withPort (s : State) (n : Nat) (ws : List ChanWord) : State :=
  { s with clusters := [(0, { Cluster.reset with ports := Cluster.reset.ports.setIfInBounds n ws })] }
theorem port_at {b : List Byte} {f : Firing} (n : Nat) (ws : List ChanWord) (h : FiringReads (moving b f) 0 1 b f) :
    FiringReads (withPort (moving b f) n ws) 0 1 b f :=
  have ⟨⟨r, h1, h2⟩, h3⟩ := h
  ⟨⟨r, h1, h2⟩, h3⟩

/-- A gather of 16 entries of 4 bytes of a table of 16, its index list at 0x20000. -/
def gatherBlock : List Byte := (((aBlock.set 0x00 2).set 0x24 4).set 0x32 2).set 0x38 16
/-- A plane of 2 rows of 3 sites of 2 bytes, in segments of 2, to the port 31; its map at 0x20000. -/
def planeBlock (mode : Byte) : List Byte :=
  ((((((((aBlock.set 0x00 4).set 0x05 2).set 0x10 31).set 0x12 0).set 0x22 2).set 0x30 3).set 0x32 2).set 0x34 4).set 0x36 2 |>.set
    0x37 mode

/-- `CopiesAndDeliveries`: a piece of storage to read, words of a port for a plain copy and for a gather, a chunk of an
index list, and entries out of range that stop and that do not. -/
theorem test_meets_CopyReads :
    (let b := aBlock
     let s := moving b aFiring
     FiringReads s 0 1 b aFiring ∧ Wants b aFiring ∧ byteAt b 0 ∈ [0, 1, 2, 3, 5] ∧ NamesPlace b aFiring ∧
       (nextPiece b aFiring).2 = (List.replicate 64 (0 : Byte)).length ∧
       SourceHolds s 0 b (nextPiece b aFiring).1 (List.replicate 64 0)) ∧
    (let b := ((aBlock.set 0x04 2).set 0x08 31).set 0x0A 0
     let s := withPort (moving b aFiring) 31 [⟨7, 3, 0⟩]
     FiringReads s 0 1 b aFiring ∧ Wants b aFiring ∧ byteAt b 0 ≤ 1 ∧ byteAt b 4 = 2 ∧ aFiring.pos < bytesOfFiring b ∧
       s.portServes 0 (numberAt b 8 8) = false ∧ s.ethPort 0 (numberAt b 8 8) = false ∧
       (s.cluster 0).ports.getD (numberAt b 8 8) [] = [⟨7, 3, 0⟩]) ∧
    (let b := ((gatherBlock.set 0x04 2).set 0x08 31).set 0x0A 0
     let f := { aFiring with index := [5] }
     let s := withPort (moving b f) 31 [⟨7, 3, 0⟩]
     FiringReads s 0 1 b f ∧ Wants b f ∧ byteAt b 0 ∈ [2, 3, 5] ∧ byteAt b 4 = 2 ∧ NamesPlace b f ∧ (nextPiece b f).2 = 4 ∧
       s.portServes 0 (numberAt b 8 8) = false ∧ s.ethPort 0 (numberAt b 8 8) = false ∧
       (s.cluster 0).ports.getD (numberAt b 8 8) [] = [⟨7, 3, 0⟩] ++ []) ∧
    (let b := gatherBlock
     FiringReads (moving b aFiring) 0 1 b aFiring ∧ (byteAt b 0 = 2 ∨ byteAt b 0 = 3) ∧ aFiring.index = [] ∧
       Sees (moving b aFiring) 0 (numberAt b 0x30 8 + 64 * (aFiring.pos / numberAt b 0x24 2 / 16)) (List.replicate 64 0)) ∧
    (let f := { aFiring with index := [16, 0xFFFFFFFF#32] }
     ∀ b ∈ [gatherBlock, gatherBlock.set 0x00 3, gatherBlock.set 0x01 8],
       FiringReads (moving b f) 0 1 b f ∧ Wants b f ∧ f.index = 16 :: [0xFFFFFFFF#32] ∧
         numberAt b 0x38 4 ≤ (16 : Word).toNat) :=
  ⟨⟨moving_reads _ _ rfl rfl, by unfold Wants; decide, by decide, by unfold NamesPlace; decide, by decide,
     .inl ⟨by decide, .inl ⟨by decide, 0x20000, 0, by decide +kernel, by decide +kernel⟩⟩⟩,
   ⟨port_at _ _ (moving_reads _ _ rfl rfl), by unfold Wants; decide, by decide, by decide, by decide, by decide, by decide, by decide⟩,
   ⟨port_at _ _ (moving_reads _ _ rfl rfl), by unfold Wants; decide, by decide, by decide, by unfold NamesPlace; decide, by decide,
     by decide, by decide, by decide⟩,
   ⟨moving_reads _ _ rfl rfl, by decide, rfl, .inl ⟨by decide, 0x20000, 0, by decide +kernel, by decide +kernel⟩⟩,
   fun b hb => ⟨moving_reads _ _ rfl rfl, by
     simp only [List.mem_cons, List.not_mem_nil, or_false] at hb
     rcases hb with rfl | rfl | rfl <;> exact ⟨by unfold Wants; decide, rfl, by decide⟩⟩⟩

/-- `CopiesAndDeliveries`: of a plane, a segment that is skipped, a header, a site, and a constant at its edge. -/
theorem test_meets_Plane :
    (let b := planeBlock 0x81
     FiringReads (moving b aFiring) 0 1 b aFiring ∧ byteAt b 0 = 4 ∧ byteAt b 4 ≤ 1 ∧ MapRead b ∧
       ([0] : List Byte).length = (0 + segsOf b - 1) / 8 - 0 / 8 + 1 ∧ Sees (moving b aFiring) 0 (numberAt b 0x20 8) [0] ∧
       (byteAt [0] 0).testBit 0 = false) ∧
    (let b := planeBlock 0x09
     FiringReads (moving b aFiring) 0 1 b aFiring ∧ ¬MapRead b ∧ (byteAt b 0x37).testBit 3 = true) ∧
    (let b := planeBlock 0x61
     FiringReads (moving b aFiring) 0 1 b aFiring ∧ ¬MapRead b ∧ (byteAt b 0x37).testBit 3 = false ∧
       byteAt b 0x36 ∈ [2, 4] ∧ brought 2 3 0 = some 0 ∧ brought 2 2 0 = some 0 ∧
       SourceHolds (moving b aFiring) 0 b (numberAt b 8 8) [0, 0] ∧
       SourceHolds (moving b aFiring) 0 b (numberAt b 8 8 + numberAt b 0x18 4) [0]) ∧
    brought 2 3 (0 - ((planeBlock 0x61).set 0x38 1 |>.getD 0x38 0).toInt) = none :=
  ⟨⟨moving_reads _ _ rfl rfl, by decide, by decide, ⟨by decide, by decide⟩, by decide,
     .inl ⟨by decide, 0x20000, 0, by decide +kernel, by decide +kernel⟩, by decide⟩,
   ⟨moving_reads _ _ rfl rfl, fun h => absurd h.1 (by decide), by decide⟩,
   ⟨moving_reads _ _ rfl rfl, fun h => absurd h.1 (by decide), by decide, by decide, by decide, by decide,
     .inl ⟨by decide, .inl ⟨by decide, 0x20000, 0, by decide +kernel, by decide +kernel⟩⟩,
     .inl ⟨by decide, .inl ⟨by decide, 0x20040, 0, by decide +kernel, by decide +kernel⟩⟩⟩,
   by decide⟩

/-- A firing with bytes to land, and the last port that starts a link. -/
def landing : Firing := { aFiring with buf := List.replicate 4 1 }
def landingIn (m : Memory) (b : List Byte) (f : Firing) : State :=
  { moving b f with mem := m, links := [{ aLink with sender := .port 0 31 }] }
theorem landing_at (m : Memory) (b : List Byte) (f : Firing) (h : f.faulted = false) : FiringAt (landingIn m b f) 0 1 b f :=
  have ⟨r, h1, h2⟩ := moving_at b f h
  ⟨r, h1, h2⟩

/-- `CopiesAndDeliveries`: bytes land in copies, at an uncached page, in a shadow page, in a scratchpad, in those of a
mask, at a port, and a chunk leaves. -/
theorem test_meets_CopyLandings :
    (∀ m ∈ [[((0 : Nat), (0x1F : Byte))], [(0, 0x9F)]], FiringLands (landingIn m aBlock landing) 0 1 aBlock landing) ∧
    (0 < landsAtOnce aBlock landing 65536 ∧ landing.pages = [] ∧
      (landingIn [(0, 0x1F)] aBlock landing).translateAt 0 0 (nextPlace aBlock landing) ⟨false, true, false, false⟩ =
        .ok 0x30000 0 ∧ HasRoom (landingIn [(0, 0x1F)] aBlock landing) 0 0x30000 4 ∧
      (landingIn [(0, 0x9F)] aBlock landing).translateAt 0 0 (nextPlace aBlock landing) ⟨false, true, false, false⟩ =
        .ok 0x30000 2) ∧
    (let f := { landing with pages := [(3, 0x50000)] }
     let s := landingIn smallPages aBlock f
     FiringLands s 0 1 aBlock f ∧ f.pages.find? (fun x => decide (x.1 = nextPlace aBlock f / 65536)) = some (3, 0x50000) ∧
       s.largePage 0 (nextPlace aBlock f) = false ∧
       s.translateAt 0 (s.rootAt 0) (nextPlace aBlock f) ⟨false, true, false, s.privAt 0⟩ = .ok 0x30000 0) ∧
    (let b := (aBlock.set 0x05 1).set 0x12 0
     let s := landingIn [(0, 0x1F)] b landing
     FiringLands s 0 1 b landing ∧ numberAt b 0x20 8 = 0 ∧ s.rebase 0 (nextPlace b landing) < 2 ^ 23 ∧
       s.rebase 0 (nextPlace b landing + landsAtOnce b landing (2 ^ 17) - 1) < 2 ^ 23) ∧
    (let b := ((aBlock.set 0x05 1).set 0x12 0).set 0x20 1
     FiringLands (landingIn [(0, 0x1F)] b landing) 0 1 b landing ∧ numberAt b 0x20 8 ≠ 0 ∧
       (landingIn [(0, 0x1F)] b landing).spurAt 0 = some aSpur ∧ landsAtOnce b landing (2 ^ 17) ≤ 2 ^ 17) ∧
    (let b := ((aBlock.set 0x05 2).set 0x10 31).set 0x12 0
     let s := landingIn [(0, 0x1F)] b landing
     FiringLands s 0 1 b landing ∧ numberAt b 0x10 8 < 32 ∧ s.portOpen 0 31 = true ∧ (s.cluster 0).ports.getD 31 [] = []) ∧
    (let b := (((aBlock.set 0x00 5).set 0x30 64).set 0x34 1).set 0x3A 2
     let f := { aFiring with buf := List.replicate 64 1 }
     let s := landingIn [(0, 0x1F)] b f
     FiringLands s 0 1 b f ∧ s.spurAt 0 = some aSpur ∧
       Sees s 0 (numberAt b 0x38 8 + 4 * (f.pos / numberAt b 0x30 4)) (List.replicate 4 0)) :=
  ⟨fun m hm => ⟨landing_at _ _ _ rfl, by decide, by unfold Wants; decide, by
       simp only [List.mem_cons, List.not_mem_nil, or_false] at hm
       rcases hm with rfl | rfl <;> exact ⟨by rfl, by rfl⟩, by decide, fun h => absurd h (by decide)⟩,
   ⟨by decide, by decide, by decide +kernel, by unfold HasRoom; decide +kernel, by decide +kernel⟩,
   ⟨⟨landing_at _ _ _ rfl, by decide, by unfold Wants; decide, ⟨by rfl, by rfl⟩, by decide, fun h => absurd h (by decide)⟩, by decide, by decide +kernel,
     by decide +kernel⟩,
   ⟨⟨landing_at _ _ _ rfl, by decide, by unfold Wants; decide, ⟨by rfl, by rfl⟩, by decide, fun h => absurd h (by decide)⟩, by decide, by decide, by decide⟩,
   ⟨⟨landing_at _ _ _ rfl, by decide, by unfold Wants; decide, ⟨by rfl, by rfl⟩, by decide, fun h => absurd h (by decide)⟩, by decide, by decide, by decide⟩,
   ⟨⟨landing_at _ _ _ rfl, by decide, by unfold Wants; decide, ⟨by rfl, by rfl⟩, by decide, fun h => absurd h (by decide)⟩, by decide, by decide, by decide⟩,
   ⟨⟨landing_at _ _ _ rfl, by decide, by unfold Wants; decide, ⟨by rfl, by rfl⟩, by decide, fun h => absurd h (by decide)⟩, by decide,
     .inl ⟨by decide, 0x20000, 0, by decide +kernel, by decide +kernel⟩⟩⟩

/-- A tile whose row 0 is a block of a format with a first element, and whose other rows have no addresses. -/
def opTile (fmt x : Byte) : Tile :=
  { fullTile with
    rows := [fmt, 127, x] ++ List.replicate 2045 0
    addrs := some 0 :: List.replicate 31 none }
/-- A block of 62 elements of 8 bits, of which all but two are zero. -/
def opBlock (fmt x y : Byte) : List Byte := [fmt, 127, x, y] ++ List.replicate 60 0
/-- An engine with an operation of accumulator 0 ready. -/
def opMatrix : Matrix := { Core.reset.mx with
  tiles := (Core.reset.mx.tiles.setIfInBounds 1 (opTile 0x11 0x38)).setIfInBounds 4 (opTile 0x12 0x3C)
  rules := Core.reset.mx.rules.setIfInBounds 0 ⟨true, 0, 1, 0⟩ }

/-- `MatrixHappenings`: an operation on blocks of two formats; products with a NaN, with both infinities, with one. -/
theorem test_meets_Operation :
    (opMatrix.opReady 0 = true ∧ opMatrix.accBad.getLsbD 0 = false ∧ NoReadError (withMx opMatrix) ∧
      NoStorageError (withMx opMatrix) ∧ (withMx opMatrix).scratchPoison = [] ∧ opMatrix.acc.wf = true ∧
      (opTile 0x11 0x38).addrs.length = 32 ∧ (opTile 0x11 0x38).rows.length = 2048) ∧
    (∀ x, some x ∈ rowsOf (withMx opMatrix) 0 (opMatrix.tile 1) ∨ some x ∈ rowsOf (withMx opMatrix) 0 (opMatrix.tile 4) →
      byteAt x 0 ∈ formatsOf 0) ∧
    (let ps (x y : List Byte) := List.zipWith Machine.Num.mul (elementsOf x) (elementsOf y)
     let one := opBlock 0x12 0x3C 0x3C
     .nan ∈ ps (opBlock 0x12 0x7D 0) one ∧ .inf true ∈ ps (opBlock 0x12 0x7C 0xFC) one ∧
       .inf false ∈ ps (opBlock 0x12 0x7C 0xFC) one ∧
       .nan ∉ ps (opBlock 0x12 0x7C 0) one ∧ .inf false ∈ ps (opBlock 0x12 0x7C 0) one ∧
       .inf true ∉ ps (opBlock 0x12 0x7C 0) one ∧ isNaN 0 = false ∧ isNaN 0x7FC00000 = true) := by
  refine ⟨by decide +kernel, fun x h => ?_, by decide +kernel⟩
  have e : ∀ o ∈ rowsOf (withMx opMatrix) 0 (opMatrix.tile 1) ++ rowsOf (withMx opMatrix) 0 (opMatrix.tile 4),
      ∀ x ∈ o.toList, byteAt x 0 ∈ formatsOf 0 := by decide +kernel
  exact e (some x) (List.mem_append.mpr h) x (by simp)

/-- A sequence block of two B tiles of one K block, A at 0x20000 and B at 0x30000. -/
def seqBlock : List Byte :=
  ((((((List.replicate 64 0).set 0x00 1).set 0x01 2).set 0x04 1).set 0x0A 2).set 0x12 3).set 0x18 64 |>.set 0x1C 64
/-- The memory of `dev` with that block at 0x10000. -/
def seqMem : Memory := Memory.writeN [(0, 0x1F)] 0x10000 seqBlock

/-- `MatrixHappenings`: a fetch in global space and in scratch, and sequences whose block is valid and is not. -/
theorem test_meets_MatrixFetch :
    (let c := aCmd 0x10 [0x20000, 0]
     let s := withMx { Core.reset.mx with queue := [c] }
     s.heldAt 0 = false ∧ (s.mx 0).queue = c :: [] ∧ NoStorageError s ∧ bitsAt c.word 0 4 = 0 ∧ bitsAt c.word 4 6 < 8 ∧
       TileEmpty s 0 (bitsAt c.word 4 6) ∧
       RowsOk s 0 false ((List.range 32).map fun i => some (ofPair c.ops + i * 64 * 1))) ∧
    (let c := { aCmd 0x04000010 [0, 0] with ext := 0x08000001 }
     c.word.getLsbD 26 = true ∧ c.ext.getLsbD 27 = true ∧
       RowsOk (withMx Core.reset.mx) 0 true ((List.range 32).map fun i => some (ofPair c.ops + i * 64 * bitsAt c.ext 0 20))) ∧
    (let c := aCmd 0x05 [0x10000, 0]
     let s : State := { withMx { Core.reset.mx with queue := [c] } with mem := seqMem }
     bitsAt c.word 0 4 = 5 ∧ bitsAt (aCmd 0x06 []).word 0 4 = 6 ∧ Unmarked s ∧ seqBlock.length = 64 ∧
       Sees s 0 (ofPair c.ops) seqBlock ∧ SequenceBlock false seqBlock ∧ ¬SequenceBlock true seqBlock) := by
  have rows (scratch : Bool) (s : State) (l : List (Option Nat)) (h : ∀ o ∈ l, ∀ a ∈ o.toList,
      a % 64 = 0 ∧ if scratch = true then s.rebase 0 a < 2 ^ 23 else a < 2 ^ 55) : RowsOk s 0 scratch l :=
    fun a ha => h _ ha a (by simp)
  exact ⟨⟨by decide, by rfl, by decide, by decide, by decide, ⟨by decide, by decide, by decide⟩, rows _ _ _ (by decide)⟩,
    ⟨by decide, by decide, rows _ _ _ (by decide)⟩,
    ⟨by decide, by decide, ⟨rfl, rfl, rfl, rfl, rfl⟩, by decide, .inl ⟨by decide, 0x10000, 0, by decide +kernel, by decide +kernel⟩,
      by unfold SequenceBlock; decide, by unfold SequenceBlock; decide⟩⟩

/-- `MatrixHappenings`: of a sequence, a rule, a zero, the fill of A and those of B. -/
theorem test_meets_Sequence :
    let q (step : Nat) : Seq := ⟨aCmd 0x05 [], false, seqBlock.set 0x03 1, 0, step, false⟩
    let s (step : Nat) := withMx { Core.reset.mx with seq := some (q step) }
    let m (step : Nat) := (s step).mx 0
    (s 0).heldAt 0 = false ∧ (m 0).draining = none ∧ (m 0).seq = some (q 0) ∧ NoStorageError (s 0) ∧
    (m 1).canSetRule 1 ⟨true, BitVec.ofNat 3 (byteAt seqBlock 2), 0, 1⟩ = true ∧ (m 3).opPending (3 - 2) = false ∧
    ((m 4).tile 0).full = false ∧ ((m 4).tile 0).loading = false ∧ ((m 4).tile 5).full = false ∧ (s 4).pins = [] ∧
    (∀ o ∈ (List.range 32).map (sequenceRow false (q 4).block 0), ∀ a ∈ o.toList, a % 64 = 0 ∧ a < 2 ^ 55) ∧
    (∀ o ∈ (List.range 32).map (fun i => some (numberAt (q 6).block 0x10 8 + i * numberAt (q 6).block 0x1C 4)), ∀ a ∈ o.toList,
      a % 64 = 0 ∧ a < 2 ^ 55) := by decide

/-- A drain with an extension. -/
def aDrain (x : Word) : Cmd := { aCmd 0x04 [0x20000, 0] with ext := x }
/-- Core 0 with that drain under way. -/
def draining (x : Word) : State := withMx { Core.reset.mx with draining := some (aDrain x, 0) }
/-- `MatrixHappenings`: rows of a drain: words, blocks, largest columns, and words in scratch. -/
theorem test_meets_DrainRows (x : Word) :
    ((draining x).mx 0).draining = some (aDrain x, 0) ∧ (draining x).heldAt 0 = false ∧ NoStorageError (draining x) ∧
    bitsAt 0x00102000 14 2 = 0 ∧ bitsAt 0x00104111 14 2 = 1 ∧ bitsAt 0x00104111 0 8 ∈ [0x11, 0x12, 0x14, 0x21, 0x22, 0x31, 0x32] ∧
    bitsAt 0x00008000 14 2 = 2 :=
  ⟨rfl, rfl, by simp [NoStorageError, draining, withMx, pickOf], by decide, by decide, by decide, by decide⟩

/-- `MatrixHappenings`: the landings of a drain's row. -/
theorem test_meets_DrainLands :
    let r := { aReq with kind := .mxDrain 0, ops := List.replicate 16 7, size := 64 }
    (∀ q ∈ [r, { r with atHome := true, policy := 2 }, { r with space := 1 }], (withReq q).req? (withReq q).pick.a = some q) ∧
      Unmarked (withReq r) ∧ MemoryInv (withReq r) ∧ HasRoom (withReq r) 0 64 64 :=
  ⟨by decide, ⟨rfl, rfl, rfl, rfl, rfl⟩, ⟨by rfl, by rfl⟩, by unfold HasRoom; decide⟩

/-- Core 0 whose tile 7 is under fetch. -/
def fetching : Matrix :=
  { Core.reset.mx with tiles := Core.reset.mx.tiles.setIfInBounds 7 { fullTile with rows := List.replicate 2048 0 } }
/-- `MatrixHappenings`: a row of a tile that binds. -/
theorem test_meets_TileRow :
    let r := { aReq with kind := .tile 0 7 31, size := 64 }
    let s : State := { withReq r with cores := (withMx fetching).cores }
    Concerns s r ∧ Unmarked s ∧ NoReadError s ∧ s.heldAt 0 = false ∧ ((s.mx 0).tile 7).rows.length = 2048 ∧
      HasRoom s 0 64 64 :=
  ⟨by rfl, ⟨rfl, rfl, rfl, rfl, rfl⟩, by decide, by decide, List.length_replicate .., by unfold HasRoom; decide⟩

/-- A command at the head of core 0's link to an island, whose block of bytes stands at 0x10000. -/
def accepting (pos : Nat) (c : Cmd) (x : Cluster) (bs : List Byte) : State :=
  { linkCmd pos c x with mem := Memory.writeN [(0, 0x1F)] 0x10000 bs }
/-- A node format: 128 bytes, two children, boxes at 0, pointers at 48, marks at 64. -/
def aFormat : List Byte := [2, 2, 0, 0, 0, 0, 48, 0, 64, 0, 0, 0, 0xFF, 0xFF] ++ List.replicate 18 0
/-- A texture of 4 by 4 texels. -/
def aTexture : List Byte := ((((List.replicate 32 0).set 8 4).set 10 4).set 12 1).set 14 1

/-- `IslandsAndSampler`: a command is at the head of core 0's link alone, whose block is seen there. -/
theorem accepting_head (pos : Nat) (c : Cmd) (x : Cluster) (bs : List Byte) (h : pos = 4 ∨ pos = 5 ∨ pos = 7) :
    let s := accepting pos c x bs
    (s.core 0).queued (4 + s.pick.b % 4) = c :: [] ∧ s.heldAt 0 = false ∧ NoStorageError s ∧ Unmarked s ∧
    ∀ j, j < 64 → j ≠ 0 → (s.core j).queued (4 + s.pick.b % 4) = [] := by
  rcases h with rfl | rfl | rfl <;>
    exact ⟨rfl, rfl, by simp [NoStorageError, accepting, linkCmd, pickOf], ⟨rfl, rfl, rfl, rfl, rfl⟩, fun j _ h => by
      simp [State.core, accepting, linkCmd, Assoc.find, Ne.symm h, Core.queued, Core.reset, pickOf]
      rfl⟩

/-- `IslandsAndSampler`: a node format, a ray and a `tr.res`; a draw, and one that waits. -/
theorem test_meets_Accepts :
    (fmtOk aFormat = true ∧ aFormat.length = 32 ∧
      Sees (accepting 4 (aCmd 0x70 [0x10000, 0]) Cluster.reset aFormat) 0 0x10000 aFormat) ∧
    (let c := aCmd 0x01 [0x10000, 0]
     let s := accepting 4 c { Cluster.reset with fmts := Cluster.reset.fmts.setIfInBounds 0 (some aFormat) } rayBlock
     bitsAt c.word 0 4 = 1 ∧ trBlockOk 1 rayBlock = true ∧ rayBlock.length = 64 ∧ Sees s 0 0x10000 rayBlock ∧
       ((s.cluster 0).fmts.getD (bitsAt c.word 4 3) none).isSome = true ∧ (s.cluster 0).rays = [] ∧ s.pick.c < 1024) ∧
    (let c := aCmd 0x04 [0]
     let s := accepting 4 c { Cluster.reset with rays := [aRay 1] } []
     bitsAt c.word 0 4 = 4 ∧ s.ray? s.pick.a (c.ops.getD 0 0).toNat = some (aRay 1) ∧ (aRay 1).kind = 1 ∧
       numberAt (aRay 1).block 0x28 8 = 0 ∧ (aRay 1).res = none) ∧
    (let c := aCmd 0x00 [0x10000, 0, 0xFFFFD, 2]
     let s := accepting 5 c Cluster.reset (aBinding 0)
     bitsAt c.word 0 4 = 0 ∧ (rasterAt s).isOpen = false ∧ (aBinding 0).length = 128 ∧ Sees s 0 0x10000 (aBinding 0) ∧
       bindingOk (aBinding 0) = true ∧ 1 ≤ (c.ops.getD 3 0).toNat ∧
       (c.ops.getD 2 0).toNat + (c.ops.getD 3 0).toNat - 1 ≤ 0xFFFFE) ∧
    (let c := { aCmd 0x00 [] with group := 5 }
     let s := accepting 5 c { Cluster.reset with raster := aDraw 0 } []
     (rasterAt s).isOpen = true ∧ (rasterAt s).cmd.group ≠ c.group) :=
  ⟨⟨by decide, by decide, .inl ⟨by decide, 0x10000, 0, by decide +kernel, by decide +kernel⟩⟩,
   ⟨by decide, by decide, by decide, .inl ⟨by decide, 0x10000, 0, by decide +kernel, by decide +kernel⟩, by decide, by rfl, by decide⟩,
   ⟨by decide, by rfl, by decide, by decide, by decide⟩,
   ⟨by decide, by decide, by decide, .inl ⟨by decide, 0x10000, 0, by decide +kernel, by decide +kernel⟩, by decide, by decide, by decide⟩,
   by decide⟩

/-- `IslandsAndSampler`: a binding behind which an entry leaves, a `wt.ld` with none waiting and behind one, and entries
that a `wt.drop` names. -/
theorem test_meets_SamplerAccepts :
    (let c := aCmd 0x00 [0x10000, 0]
     let s := accepting 7 c { Cluster.reset with sampler :=
       { Cluster.reset.sampler with weights := [{ anEntry with dropped := true }] } } aTexture
     bitsAt c.word 0 4 = 0 ∧ textureOk aTexture = true ∧ aTexture.length = 32 ∧ Sees s 0 0x10000 aTexture ∧
       (∃ e, (samplerAt s).weights[0]? = some e ∧ e.dropped = true)) ∧
    (let s (w : List Cmd) := accepting 7 (aCmd 0x01 []) { Cluster.reset with sampler :=
       { Cluster.reset.sampler with waiting := w } } []
     (samplerAt (s [])).waiting = [] ∧ (samplerAt (s [aCmd 0x01 []])).waiting ≠ []) ∧
    (let c := aCmd 0x02 []
     bitsAt c.word 0 4 = 2 ∧ anEntry.table.toNat = bitsAt c.word 4 6 ∧ c.word.getLsbD 26 = false) :=
  ⟨⟨by decide, by decide, by decide, .inl ⟨by decide, 0x10000, 0, by decide +kernel, by decide +kernel⟩, _, rfl, rfl⟩,
   ⟨rfl, by rw [show (samplerAt _).waiting = [aCmd 0x01 []] from rfl]; exact List.cons_ne_nil _ _⟩, by decide⟩

/-- `RegisterWrites`: an empty queue's registers, the features before the start, and registers that no write changes. -/
theorem test_meets_MoreRegisters :
    State.reset.lqHead 15 = State.reset.lqTail 15 ∧ 4 ≤ bitsAt 16 0 5 ∧ bitsAt 16 0 5 ≤ 16 ∧ bitsAt 17 0 5 > 16 ∧
    bitsAt 3 0 5 < 4 ∧ State.reset.started = false ∧ (0x288 : Nat) ≤ 0x28F ∧ (0x2B3 : Nat) = 0x2B3 + 4 * 0 ∧
    ¬Written 0x200 ∧ ¬Written 0x2B3 ∧ Written 0x2B2 := by unfold Written; decide

/-- An element of core 0 with a handler over slots 30 to 1 that owes the rules in slots 31 and 1. -/
def owing : State :=
  let e := { Elem.reset with
    role := .used
    active := some ⟨0, 30, 1⟩
    owed := 0x80000002
    slots := (Elem.reset.slots.setIfInBounds 1 0x08008040).setIfInBounds 31 0x08008040
    guards := Elem.reset.guards.setIfInBounds 0 1 }
  { dev with elems := [(0, e)] }

/-- `HostAndReset`: owed rules that are ready, of which slot 1 is the lowest, and a beat in progress. -/
theorem test_meets_Owed :
    (owing.walk = none ∧ (owing.elem 0).beat = none ∧ owing.running 0 = true ∧ (owing.elem 0).role = .used ∧
      (∀ i ∈ [1, 31], i ∈ (⟨0, 30, 1⟩ : Active).slots ∧ (owing.elem 0).owed.getLsbD i = true ∧
        (owing.updElem 0 fun e => { e with window := e.window + 1 }).ready 0 i = true) ∧ (owing.elem 0).owed.getLsbD 0 = false) ∧
    (let b := { (default : Beat) with n := 4, k := 1 }
     let s : State := { dev with elems := [(0, { Elem.reset with beat := some b })] }
     s.walk = none ∧ (s.elem 0).beat = some b ∧ (s.spurAt (elemCore 0)).isSome = true) := by decide

/-- `StepRunsDecodedInstruction`: a rule with the E bit fires in a walk, and a walk ends in which the step counter's
countdown runs out. -/
theorem test_meets_WalkEnds :
    (let s : State := { owing with walk := some (aWalk 0), cur := ⟨0, 1⟩ }
     s.walk = some (aWalk 0) ∧ (s.spurAt (elemCore 0)).isSome = true ∧ (aWalk 0).halted = false ∧ (s.elem 0).beat = none ∧
       s.curWord.getLsbD 27 = true ∧ splitWord s.curWord = some (Instr.add ⟨0, true, false, 1, 0, 2⟩).view ∧
       (Instr.add ⟨0, true, false, 1, 0, 2⟩).view.isF64 = false) ∧
    (let w := { aWalk 0 with counts := true, closing := true }
     let s : State := { dev with elems := [(0, { Elem.reset with countdown := some 1 })], walk := some w }
     s.walk = some w ∧ (s.elem 0).beat = none ∧ (w.counts && !w.armed) = true ∧
       ({ s with tick := s.tick + 1 } : State).search w w.todo (s.elem 0).owed = (0, none)) := by
  refine ⟨⟨by decide, by decide, by decide, by decide, by decide, by rfl, by decide⟩, by decide⟩

/-- `SystemRules`: a lease that is granted and one that is not, one to release, and words of each configuration space. -/
theorem test_meets_Leases :
    (let s : State := { place 0 with regs := [(0x370, 0x28191919)] }
     Fits (.leaseReq ⟨0, false, false, 4, 5, 0⟩) s ∧ Grantable s 0 0x00610001 ∧ ¬Grantable s 0 0) ∧
    (let l : Lease := ⟨0, 1, 1, 32, 1000⟩
     let s : State := { devAt 0 with clusters := [(0, { Cluster.reset with lease := some l })] }
     Fits (.leaseRel ⟨0, false, false, 4, 5, 0⟩) s ∧ (s.cluster 0).lease = some l ∧ s.spurAt 0 = some aSpur ∧
       aSpur.covers (elemCore l.elem) = true) ∧
    (let s : State := { devAt 0 with elems := [(0, { Elem.reset with role := .used })], walk := some (aWalk 0) }
     Fits (.cfgWr ⟨0, false, false, 4, 5, 0⟩) s ∧ bitsAt (s.me.reg 4) 13 19 = 0 ∧ (s.elem 0).role = .used ∧
       (aWalk 0).elem = 0) ∧
    (∀ n, n < 5 → bitsAt (BitVec.ofNat 32 (16 * n)) 4 3 = n) :=
  ⟨⟨fits_of _ _ (by decide), by unfold Grantable; decide, by unfold Grantable; decide⟩,
   ⟨fits_of _ _ (by decide), by decide, by decide, by decide⟩, ⟨fits_of _ _ (by decide), by decide, by decide, rfl⟩, by decide⟩

/-- `FabricHappenings`: a conversion of a group in each direction. -/
theorem test_meets_Converts :
    (convertGroup 0x00110000 [] [0x00007F11] true).isOk = true ∧ (convertGroup 0x40110000 [] [0x00007F11] true).isOk = true ∧
    (convertGroup 0x80110000 [] [0x00007F11] true).isOk = true ∧ (convertGroup 0xC0110000 [] [0x00007F11] true).isOk = true ∧
    bitsAt 0xC0110000 16 8 = 0x11 := ⟨by rfl, by rfl, by rfl, by rfl, by rfl⟩

/-! ### One step each: expected results by hand from the rules -/

/-- The register `d1` of element 0 after a rule that finds `x` in `d0` and `y` in `d2`. -/
def resultOf (i : Instr) (x y : Word) : Option Word :=
  let e := (Elem.reset.setReg 0 x).setReg 2 y
  match exec i { place 0 with elems := [(0, e)] } with
  | .next t => some (t.me.reg 1)
  | _ => none
/-- The code of the first fault record of the chain of `dev` after a rule. -/
def faultOf (i : Instr) (k : Nat) : Option Byte :=
  match exec i { devAt k with chains := [{ aChain with record := (aRecord.set 0x1A 8) }] } with
  | .next t => some (((t.copies.find (copyKey 0 0x1080000)).map (·.val)).getD (t.mem.read 0x1080000))
  | _ => none

/-- R214: sums are modulo 2^32. -/
theorem test_add_wraps : resultOf (.add ⟨0, false, false, 1, 0, 2⟩) 0xFFFFFFFF 2 = some 1 := by decide
/-- R214: the second operand is taken from the first. -/
theorem test_sub_order : resultOf (.sub ⟨0, false, false, 1, 0, 2⟩) 5 7 = some 0xFFFFFFFE := by decide
/-- R214: an arithmetic shift by 32 or more leaves the sign in every bit. -/
theorem test_sar : resultOf (.sar ⟨0, false, false, 1, 0, 2⟩) 0x80000000 33 = some 0xFFFFFFFF := by decide
/-- R225: 1.5 + 2.25 = 3.75. -/
theorem test_fadd : resultOf (.fadd ⟨0, false, false, 1, 0, 2⟩ 0) 0x3FC00000 0x40100000 = some 0x40700000 := by decide
/-- R325: signal 33 sends vector 33 when its bit is enabled. -/
theorem test_signal : (({ dev with regs := [(sigEn true, 2)] } : State).setSignal 33).outside = [.vector 33] := by decide
/-- R371: a floating-point rule on `e0`, which has no such unit, faults with 0x01. -/
theorem test_fault_code : faultOf (.fadd ⟨0, false, false, 1, 0, 2⟩ 0) 15 = some 1 := by decide

end Sys2Proof.Tests
end

section
/-!
PROOF. The element coordinate word (R190): its number is the sum of its fields at their places, and each field is read
back from that number.
-/
namespace Sys2Proof
open Machine

/-- A field of a word whose number is split at the field: `hi` above it, `f` in it and `low` below it. -/
theorem toNat_extractLsb'_of_split {w : Word} {lo n f : Nat} (hi low : Nat)
    (hw : w.toNat = (hi * 2 ^ n + f) * 2 ^ lo + low) (hf : f < 2 ^ n) (hlow : low < 2 ^ lo) :
    (w.extractLsb' lo n).toNat = f := by
  have habove : w.toNat / 2 ^ lo = hi * 2 ^ n + f := by
    rw [hw, Nat.mul_comm, Nat.mul_add_div (Nat.two_pow_pos lo), Nat.div_eq_of_lt hlow, Nat.add_zero]
  rw [BitVec.extractLsb'_toNat, Nat.shiftRight_eq_div_pow, habove, Nat.mul_add_mod_of_lt hf]

/-! ## The fields' ranges -/

/-- R327: the package number is bits [8:0] of POD_ID. -/
theorem podId_lt (s : State) : s.podId < 512 := Nat.mod_lt _ (by decide)

/-- R15: the clusters of a package are 0 to 95. -/
theorem elemCluster_lt {k : Nat} (hk : k < 98304) : elemCluster k < 96 := by
  unfold elemCluster
  omega

theorem coreIdx_lt (core : Nat) : coreIdx core < 64 := Nat.mod_lt _ (by decide)

theorem elemIdx_lt (k : Nat) : elemIdx k < 16 := Nat.mod_lt _ (by decide)

/-! ## The word's number and its fields -/

section Fields
variable (s : State) {k : Nat} (hk : k < 98304)
include hk

/-- For an element of the package the fields fit their places, so nothing of their sum is lost at 32 bits. -/
theorem toNat_coordWord : (s.coordWord k).toNat =
    s.podId * 2 ^ 23 + elemCluster k * 2 ^ 16 + coreIdx (elemCore k) * 2 ^ 8 + elemIdx k := by
  have hpod := podId_lt s
  have hcluster := elemCluster_lt hk
  have hcore := coreIdx_lt (elemCore k)
  have helem := elemIdx_lt k
  exact (BitVec.toNat_ofNat ..).trans (Nat.mod_eq_of_lt (by omega))

theorem coordWord_package : ((s.coordWord k).extractLsb' 23 9).toNat = s.podId := by
  have hpod := podId_lt s
  have hcluster := elemCluster_lt hk
  have hcore := coreIdx_lt (elemCore k)
  have helem := elemIdx_lt k
  refine toNat_extractLsb'_of_split 0 (elemCluster k * 2 ^ 16 + coreIdx (elemCore k) * 2 ^ 8 + elemIdx k) ?_ hpod ?_
  · rw [toNat_coordWord s hk]
    omega
  · omega

theorem coordWord_cluster : ((s.coordWord k).extractLsb' 16 7).toNat = elemCluster k := by
  have hcluster := elemCluster_lt hk
  have hcore := coreIdx_lt (elemCore k)
  have helem := elemIdx_lt k
  refine toNat_extractLsb'_of_split s.podId (coreIdx (elemCore k) * 2 ^ 8 + elemIdx k) ?_ ?_ ?_
  · rw [toNat_coordWord s hk]
    omega
  · omega
  · omega

theorem coordWord_reservedHigh : ((s.coordWord k).extractLsb' 14 2).toNat = 0 := by
  have hcore := coreIdx_lt (elemCore k)
  have helem := elemIdx_lt k
  refine toNat_extractLsb'_of_split (s.podId * 2 ^ 7 + elemCluster k) (coreIdx (elemCore k) * 2 ^ 8 + elemIdx k)
    ?_ (by decide) ?_
  · rw [toNat_coordWord s hk]
    omega
  · omega

theorem coordWord_core : ((s.coordWord k).extractLsb' 8 6).toNat = coreIdx (elemCore k) := by
  have helem := elemIdx_lt k
  refine toNat_extractLsb'_of_split (s.podId * 2 ^ 9 + elemCluster k * 2 ^ 2) (elemIdx k) ?_ (coreIdx_lt _) ?_
  · rw [toNat_coordWord s hk]
    omega
  · omega

theorem coordWord_reservedLow : ((s.coordWord k).extractLsb' 4 4).toNat = 0 := by
  refine toNat_extractLsb'_of_split (s.podId * 2 ^ 15 + elemCluster k * 2 ^ 8 + coreIdx (elemCore k)) (elemIdx k)
    ?_ (by decide) (elemIdx_lt k)
  rw [toNat_coordWord s hk]
  omega

theorem coordWord_element : ((s.coordWord k).extractLsb' 0 4).toNat = elemIdx k := by
  refine toNat_extractLsb'_of_split
    (s.podId * 2 ^ 19 + elemCluster k * 2 ^ 12 + coreIdx (elemCore k) * 2 ^ 4) 0 ?_ (elemIdx_lt k) (by decide)
  rw [toNat_coordWord s hk]
  omega

end Fields

/-- Settles O13, field by field: for an element of the package the word is the sum of its fields at their places. -/
theorem coordinateWord : Obligations.CoordinateWord := by
  unfold Obligations.CoordinateWord
  intro s k hk
  exact ⟨coordWord_package s hk, coordWord_cluster s hk, coordWord_reservedHigh s hk, coordWord_core s hk,
    coordWord_reservedLow s hk, coordWord_element s hk⟩

end Sys2Proof
end

section
/-!
PROOF. A rule against which no fault stands has its effect (R371), for every rule without operand words and addresses.
-/
namespace Sys2Proof
open Machine Claims

/-- None of items 1 to 5 of R371 stands against a rule that fits. -/
theorem wordFault_eq_none_of_fits {i : Instr} {s : State} (h : Fits i s) (hb : s.beatNo = 0) :
    s.wordFault i.view false = none := by
  obtain ⟨hpair, hcell, hcount, hsub, hcodes⟩ := h hb
  have hwhole : s.brokenPair i.view = false := by
    cases hw : i.view.wide with
    | false => simp [State.brokenPair, hw]
    | true =>
      obtain ⟨hslot, hext⟩ := hpair hw
      simp [State.brokenPair, hslot, hext]
  simp [State.wordFault, hwhole, hcell, hcount, hsub, hcodes]

theorem fireOp_of_fits {i : Instr} {s : State} (eff : State → State) (h : Fits i s) :
    fireOp i eff s = .next (eff s) :=
  fire_clear (wordFault_eq_none_of_fits h) fun _ => rfl

end Sys2Proof
end

section
/-!
PROOF. `fclass` (R229): the exponent and fraction fields of a pattern decide the value that it decodes to, so its mask is
the one bit of its class; the masks of two lanes have no bit in common.
-/
namespace Sys2Proof
open Machine Claims

/-! ## The fields of a pattern -/

/-- The exponent field of a pattern (R95). -/
def expoField (f : FloatFmt) (x : Nat) : Nat := x / 2 ^ f.fw % 2 ^ f.ew

/-- The fraction field of a pattern (R95). -/
def fracField (f : FloatFmt) (x : Nat) : Nat := x % 2 ^ f.fw

section Fields
variable (f : FloatFmt) (x : Nat)

theorem expoField_le : expoField f x ≤ 2 ^ f.ew - 1 :=
  Nat.le_sub_one_of_lt (Nat.mod_lt _ (Nat.two_pow_pos _))

theorem fracField_lt : fracField f x < 2 ^ f.fw := Nat.mod_lt _ (Nat.two_pow_pos _)

theorem signBit_eq_mul : f.signBit = 2 ^ f.fw * 2 ^ f.ew := by
  rw [FloatFmt.signBit, Nat.pow_add, Nat.mul_comm]

theorem magnitude_div : x % f.signBit / 2 ^ f.fw = expoField f x := by
  rw [signBit_eq_mul, Nat.mod_mul_right_div_self, expoField]

theorem magnitude_mod : x % f.signBit % 2 ^ f.fw = fracField f x := by
  rw [signBit_eq_mul, Nat.mod_mul_right_mod, fracField]

/-- The bits below the sign are the exponent field and, below it, the fraction field. -/
theorem magnitude_eq : x % f.signBit = expoField f x * 2 ^ f.fw + fracField f x := by
  rw [← magnitude_div, ← magnitude_mod, Nat.div_add_mod']

theorem magnitude_lt_iff : x % f.signBit < 2 ^ f.fw ↔ expoField f x = 0 := by
  rw [← magnitude_div, Nat.div_eq_zero_iff_lt (Nat.two_pow_pos _)]

end Fields

/-! ## The value of a pattern by its fields -/

section Decode
variable {f : FloatFmt} {x : Nat}

/-- A magnitude whose exponent field is not all ones is below the infinities. -/
theorem magnitude_lt_infBits (he : expoField f x ≠ 2 ^ f.ew - 1) : x % f.signBit < f.infBits := by
  have hlt : expoField f x < 2 ^ f.ew - 1 := Nat.lt_of_le_of_ne (expoField_le f x) he
  rw [← magnitude_div, Nat.div_lt_iff_lt_mul (Nat.two_pow_pos _)] at hlt
  exact hlt

theorem magnitude_of_allOnes (he : expoField f x = 2 ^ f.ew - 1) : x % f.signBit = f.infBits + fracField f x := by
  rw [magnitude_eq, he, FloatFmt.infBits]

theorem decode_nan (he : expoField f x = 2 ^ f.ew - 1) (hf : fracField f x ≠ 0) : f.decode x = .nan := by
  have hmag := magnitude_of_allOnes he
  exact if_pos (by omega)

theorem decode_inf (he : expoField f x = 2 ^ f.ew - 1) (hf : fracField f x = 0) :
    f.decode x = .inf (decide (x / f.signBit % 2 = 1)) := by
  have hmag := magnitude_of_allOnes he
  exact (if_neg (by omega)).trans (if_pos (by omega))

/-- With an exponent field of zero the significand is the fraction alone, else it has the hidden bit above it. -/
theorem decode_fin (he : expoField f x ≠ 2 ^ f.ew - 1) :
    ∃ e, f.decode x = .fin (decide (x / f.signBit % 2 = 1))
      (if expoField f x = 0 then fracField f x else 2 ^ f.fw + fracField f x) e := by
  have hmag := magnitude_lt_infBits he
  simp only [FloatFmt.decode, if_neg (show ¬ x % f.signBit > f.infBits by omega), if_neg (Nat.ne_of_lt hmag),
    magnitude_div, magnitude_mod]
  split <;> exact ⟨_, rfl⟩

end Decode

/-! ## The mask of a pattern and the word of `fclass` -/

/-- The class of a pattern, in the terms of its fields. -/
theorem classBit_eq (f : FloatFmt) (x : Nat) : classBit f x =
    if expoField f x = 2 ^ f.ew - 1 then
      (if fracField f x ≠ 0 then 8 else if x / f.signBit % 2 = 1 then 0 else 7)
    else if expoField f x = 0 then
      (if fracField f x = 0 then (if x / f.signBit % 2 = 1 then 3 else 4) else if x / f.signBit % 2 = 1 then 2 else 5)
    else if x / f.signBit % 2 = 1 then 1 else 6 := rfl

theorem classBit_le (f : FloatFmt) (x : Nat) : classBit f x ≤ 8 := by
  rw [classBit_eq]
  repeat' split
  all_goals decide

/-- The mask of a pattern is the bit of its class alone, in every format. -/
theorem classMask_eq_two_pow (f : FloatFmt) (x : Nat) : f.classMask x = 2 ^ classBit f x := by
  rw [classBit_eq]
  by_cases he : expoField f x = 2 ^ f.ew - 1
  · by_cases hf : fracField f x = 0
    · simp [FloatFmt.classMask, decode_inf he hf, he, hf, apply_ite (2 ^ ·)]
    · simp [FloatFmt.classMask, decode_nan he hf, he, hf]
  · obtain ⟨e, hdec⟩ := decode_fin he
    rw [if_neg he]
    by_cases h0 : expoField f x = 0
    · by_cases hf : fracField f x = 0
      · simp [FloatFmt.classMask, hdec, h0, hf, apply_ite (2 ^ ·)]
      · simp [FloatFmt.classMask, hdec, magnitude_lt_iff, h0, hf, apply_ite (2 ^ ·)]
    · simp [FloatFmt.classMask, hdec, magnitude_lt_iff, h0, apply_ite (2 ^ ·)]

/-- A word with one bit set, as a number. -/
theorem ofNat_two_pow (n : Nat) : BitVec.ofNat 32 (2 ^ n) = 1#32 <<< n := by
  apply BitVec.eq_of_toNat_eq
  simp [Nat.shiftLeft_eq]

/-- The masks of two lanes, the second 16 bits up, have no bit in common. -/
theorem ofNat_two_pow_add_two_pow {i : Nat} (hi : i < 16) (j : Nat) :
    BitVec.ofNat 32 (2 ^ i + 2 ^ j * 65536) = (1#32 <<< i) ||| (1#32 <<< (16 + j)) := by
  have hor : 2 ^ (16 + j) + 2 ^ i = 2 ^ (16 + j) ||| 2 ^ i := by
    rw [Nat.pow_add]
    exact Nat.two_pow_add_eq_or_of_lt (Nat.pow_lt_pow_right (by decide) hi) _
  calc BitVec.ofNat 32 (2 ^ i + 2 ^ j * 65536)
      = BitVec.ofNat 32 (2 ^ (16 + j) + 2 ^ i) := by rw [Nat.pow_add, Nat.mul_comm, Nat.add_comm]
    _ = BitVec.ofNat 32 (2 ^ (16 + j)) ||| BitVec.ofNat 32 (2 ^ i) := by rw [hor, BitVec.ofNat_or]
    _ = (1#32 <<< i) ||| (1#32 <<< (16 + j)) := by rw [ofNat_two_pow, ofNat_two_pow, BitVec.or_comm]

theorem lane_zero (w : Word) : lane 0 w = w.toNat % 2 ^ 16 := by simp [lane]

theorem lane_one (w : Word) : lane 1 w = w.toNat / 2 ^ 16 :=
  Nat.mod_eq_of_lt (by have := w.isLt; omega)

/-- The format that the statements give a type code is the model's (R200). -/
theorem formatOf_eq_typeFmt (t : BitVec 2) : formatOf t = typeFmt t := by
  revert t
  decide

theorem classWord_unpacked {t : BitVec 2} (ht : isPacked t = false) (x : BitVec 64) :
    classWord t x = 1#32 <<< classBit (formatOf t) x.toNat := by
  simp only [classWord, ht, Bool.false_eq_true, if_false, classMask_eq_two_pow, ofNat_two_pow, formatOf_eq_typeFmt]

theorem classWord_packed {t : BitVec 2} (ht : isPacked t = true) (w : Word) :
    classWord t (w.setWidth 64) = (1#32 <<< classBit (formatOf t) (w.toNat % 2 ^ 16)) |||
      (1#32 <<< (16 + classBit (formatOf t) (w.toNat / 2 ^ 16))) := by
  have hw : (w.setWidth 64).setWidth 32 = w := by simp
  simp only [classWord, ht, if_true, hw, lane_zero, lane_one, classMask_eq_two_pow, formatOf_eq_typeFmt]
  exact ofNat_two_pow_add_two_pow (Nat.lt_of_le_of_lt (classBit_le _ _) (by decide)) _

/-! ## The rule -/

/-- Every type but `.f64` reads its operand as one source code (R224). -/
theorem toWord_of_ne_three {t : BitVec 2} (ht : t ≠ 3) (s : State) (o : ROp) (f : BitVec 64 → Word) :
    s.toWord t o f = (s.consume (one [o.a])).wr o.d (f ((s.rd (one [o.a]) o.a).setWidth 64)) := by
  simp only [State.toWord, floatDemand, State.rdF, if_neg ht]

/-- `.f64` reads a pair and pops nothing (R224). -/
theorem toWord_three (s : State) (o : ROp) (f : BitVec 64 → Word) :
    s.toWord 3 o f = (s.consume []).wr o.d (f (s.rdPair o.a)) := rfl

theorem exec_fclass_of_fits {o : ROp} {t : BitVec 2} {s : State} (h : Fits (.fclass o t) s) :
    exec (.fclass o t) s = .next (s.toWord t o (classWord t)) :=
  fireOp_of_fits (fun s => s.toWord t o (classWord t)) h

/-- Settles O7, by the type: one word of one lane, one word of two lanes, or a pair. -/
theorem floatClassResults : Obligations.FloatClassResults := by
  unfold Obligations.FloatClassResults
  intro o t s hfits
  rw [exec_fclass_of_fits hfits]
  refine ⟨?word, ?packed, ?pair⟩
  case word =>
    rintro rfl
    rw [toWord_of_ne_three (by decide), classWord_unpacked rfl,
      BitVec.toNat_setWidth_of_le (by decide)]
  case packed =>
    intro ht
    have hpacked : isPacked t = true := by simpa [isPacked] using ht
    have hpair : t ≠ 3 := by rcases ht with rfl | rfl <;> decide
    rw [toWord_of_ne_three hpair, classWord_packed hpacked]
  case pair =>
    rintro rfl
    rw [toWord_three, classWord_unpacked rfl]

end Sys2Proof
end

section
/-!
PROOF. Signals and the vectors that they send (R325): what a signal and a write of each pending and enable register do
to the registers and to what the host is sent, one lemma for each, and the statement from them.
-/
namespace Sys2Proof
open Machine Claims

/-! ## The registers of signals -/

theorem sigEn_ne_sigPend (hi hi' : Bool) : sigEn hi ≠ sigPend hi' := by
  cases hi <;> cases hi' <;> decide

@[simp] theorem preg_sendVector (s : State) (n m : Nat) : (s.sendVector n).preg m = s.preg m := rfl

/-- A write of a pending register is not one of the writes that DEV_START closes (R320). -/
theorem writeReg_sigPend (s : State) (hi : Bool) (w : Word) :
    s.writeReg (sigPend hi) w = s.writeSigPend hi w := by
  cases hi <;> rfl

/-- Nor is a write of an enable register. -/
theorem writeReg_sigEn (s : State) (hi : Bool) (w : Word) : s.writeReg (sigEn hi) w = s.writeSigEn hi w := by
  cases hi <;> rfl

theorem exec_sigPendWrite (s : State) :
    exec .sigPendWrite s = .next (s.writeSigPend s.pick.flag s.pick.word) := by
  rw [← writeReg_sigPend]; rfl

theorem exec_sigEnWrite (s : State) : exec .sigEnWrite s = .next (s.writeSigEn s.pick.flag s.pick.word) := by
  rw [← writeReg_sigEn]; rfl

/-! ## A signal -/

theorem getLsbD_or_one_shiftLeft (w : Word) (n : Nat) {i : Nat} (hi : i < 32) :
    (w ||| 1#32 <<< n).getLsbD i = (w.getLsbD i || decide (i = n)) := by
  rw [BitVec.getLsbD_or, ← BitVec.twoPow_eq, BitVec.getLsbD_twoPow]
  congr 1
  simp only [Bool.and_eq_decide, decide_eq_true_eq, decide_eq_decide]
  omega

theorem preg_setSignal (s : State) (n m : Nat) :
    (s.setSignal n).preg m = if m = sigPend (decide (32 ≤ n)) then
      s.preg (sigPend (decide (32 ≤ n))) ||| 1#32 <<< (n % 32) else s.preg m := by
  simp only [State.setSignal, apply_ite (State.preg · m), preg_sendVector, ite_self, State.preg_setPreg]

theorem getLsbD_preg_setSignal (s : State) (n : Nat) {i : Nat} (hi : i < 32) :
    ((s.setSignal n).preg (sigPend (decide (32 ≤ n)))).getLsbD i =
      ((s.preg (sigPend (decide (32 ≤ n)))).getLsbD i || decide (i = n % 32)) := by
  rw [preg_setSignal, if_pos rfl, getLsbD_or_one_shiftLeft _ _ hi]

theorem onlyReg_setSignal (s : State) (n : Nat) : OnlyReg s (s.setSignal n) (sigPend (decide (32 ≤ n))) := by
  intro m hm
  rw [preg_setSignal, if_neg hm]

theorem outside_setSignal (s : State) (n : Nat) :
    (s.setSignal n).outside = s.outside ++
      if (s.preg (sigPend (decide (32 ≤ n)))).getLsbD (n % 32) = false ∧
        (s.preg (sigEn (decide (32 ≤ n)))).getLsbD (n % 32) = true then [Outside.vector n] else [] := by
  simp only [State.setSignal, apply_ite State.outside, State.sendVector_outside, State.setPreg_outside]
  cases (s.preg (sigPend (decide (32 ≤ n)))).getLsbD (n % 32) with
  | true => simp
  | false => cases (s.preg (sigEn (decide (32 ≤ n)))).getLsbD (n % 32) <;> simp

/-- A signal whose bit is pending already sends nothing. -/
theorem outside_setSignal_of_pending {s : State} {n : Nat}
    (h : (s.preg (sigPend (decide (32 ≤ n)))).getLsbD (n % 32) = true) : (s.setSignal n).outside = s.outside := by
  simp [outside_setSignal, h]

theorem outside_setSignal_twice (s : State) (n : Nat) :
    ((s.setSignal n).setSignal n).outside = (s.setSignal n).outside := by
  apply outside_setSignal_of_pending
  rw [getLsbD_preg_setSignal s n (Nat.mod_lt n (by decide))]
  simp

/-! ## A write of a pending register -/

@[simp] theorem outside_writeSigPend (s : State) (hi : Bool) (w : Word) :
    (s.writeSigPend hi w).outside = s.outside := rfl

theorem getLsbD_preg_writeSigPend (s : State) (hi : Bool) (w : Word) {i : Nat} (h : i < 32) :
    ((s.writeSigPend hi w).preg (sigPend hi)).getLsbD i = ((s.preg (sigPend hi)).getLsbD i && !w.getLsbD i) := by
  simp [State.writeSigPend, h]

/-! ## A write of an enable register -/

/-- Sending the vectors of the listed signals that meet `p` only adds them, in order, to what the host is sent. -/
theorem foldl_sendVector (p : Nat → Bool) (v : Nat → Nat) (l : List Nat) (s : State) :
    l.foldl (fun s i => if p i then s.sendVector (v i) else s) s =
      { s with outside := s.outside ++ (l.filter p).map fun i => Outside.vector (v i) } := by
  induction l generalizing s with
  | nil => simp
  | cons i l ih =>
    rw [List.foldl_cons, ih]
    cases h : p i <;> simp [h, State.sendVector]

/-- The signals whose bits `w` newly enables and that are pending, bit by bit. -/
theorem getLsbD_newlyEnabled (w en pend : Word) {i : Nat} (hi : i < 32) :
    (w &&& ~~~en &&& pend).getLsbD i = (w.getLsbD i && !en.getLsbD i && pend.getLsbD i) := by
  simp [hi]

theorem writeSigEn_eq (s : State) (hi : Bool) (w : Word) :
    s.writeSigEn hi w = { s.setPreg (sigEn hi) w with
      outside := s.outside ++ ((List.range 32).filter fun i => w.getLsbD i && !(s.preg (sigEn hi)).getLsbD i &&
        (s.preg (sigPend hi)).getLsbD i).map fun i => Outside.vector (i + if hi then 32 else 0) } := by
  have hnew : (List.range 32).filter (w &&& ~~~(s.preg (sigEn hi)) &&& s.preg (sigPend hi)).getLsbD =
      (List.range 32).filter fun i => w.getLsbD i && !(s.preg (sigEn hi)).getLsbD i &&
        (s.preg (sigPend hi)).getLsbD i :=
    List.filter_congr fun i h => getLsbD_newlyEnabled _ _ _ (List.mem_range.mp h)
  rw [← hnew]
  exact foldl_sendVector _ (fun i => i + if hi then 32 else 0) _ _

theorem preg_writeSigEn (s : State) (hi : Bool) (w : Word) (m : Nat) :
    (s.writeSigEn hi w).preg m = if m = sigEn hi then w else s.preg m := by
  rw [writeSigEn_eq]
  exact State.preg_setPreg s (sigEn hi) m w

theorem outside_writeSigEn (s : State) (hi : Bool) (w : Word) :
    (s.writeSigEn hi w).outside = s.outside ++ ((List.range 32).filter fun i =>
      w.getLsbD i && !(s.preg (sigEn hi)).getLsbD i && (s.preg (sigPend hi)).getLsbD i).map
        fun i => Outside.vector (i + if hi then 32 else 0) := by
  rw [writeSigEn_eq]

/-! ## Vector 64 -/

theorem outside_notify (s : State) {c : Chain} (h : c.notify = true) :
    (s.notify c).outside = s.outside ++ if (s.preg 0x2A4).getLsbD 0 = true then [Outside.vector 64] else [] := by
  simp only [State.notify, h, Bool.true_and]
  split
  · rfl
  · exact (List.append_nil _).symm

/-- Settles O60: a signal by the bit that it sets, each write by what it does to its register, and vector 64. -/
theorem signalsSendVectors : Obligations.SignalsSendVectors := by
  unfold Obligations.SignalsSendVectors
  refine ⟨?signal, ?clear, ?enable, ?chain⟩
  case signal =>
    intro s n _
    exact ⟨fun i hi => getLsbD_preg_setSignal s n hi, onlyReg_setSignal s n, outside_setSignal s n,
      outside_setSignal_twice s n⟩
  case clear =>
    intro s
    exact ⟨_, exec_sigPendWrite s, outside_writeSigPend _ _ _, fun i hi => getLsbD_preg_writeSigPend _ _ _ hi⟩
  case enable =>
    intro s
    refine ⟨_, exec_sigEnWrite s, ?_, ?_, outside_writeSigEn _ _ _⟩
    · rw [preg_writeSigEn, if_pos rfl]
    · rw [preg_writeSigEn, if_neg (sigEn_ne_sigPend _ _).symm]
  case chain => exact fun s c h => outside_notify s h

end Sys2Proof
end
